-- ==== Sys2Proof/Word.lean ====
section
/-! DEFINITION. The word types of the 4320 and the plainest arithmetic on them (00_scope R6, R7; 04_numbers R78). -/

namespace Sys2Proof

/-- A byte of memory. -/
abbrev Byte := BitVec 8
/-- A 32-bit word: one lane register, one instruction word (R9, R35). -/
abbrev W32 := BitVec 32
/-- A 64-bit word: one uniform register, one VA (R9). -/
abbrev W64 := BitVec 64
/-- A set of lanes: 32 mask words of 32 bits each, lane L at bit L (R11). -/
abbrev Mask := BitVec 1024

/-- `x mod 2^w` of an exact integer. -/
abbrev wrap (w : Nat) (x : Int) : BitVec w := BitVec.ofInt w x

end Sys2Proof
end

