-- ==== Sys2Proof/Config.lean ====
section
/-! DEFINITION. What the model leaves free: constants without a body, so that no proof can see their values. Each stands
for a value the manual does not give; the assumption log names each. -/

namespace Sys2Proof

/-- The byte that main memory holds at a PA nothing has written, or whose contents were lost (R234, R238:
unpredictable values). -/
opaque Config.unwritten (pa : Nat) : BitVec 8

/-- Which of the F32 values within 1 ulp of the exact result the special functions return (R77): a function of the
function (0 `frcp`, 1 `frsq`, 2 `fexp2`, 3 `flog2`) and the input. -/
opaque Config.special (op : Nat) (x : W32) : Nat

/-- The byte that a device behind a port returns for a read (R333: placed as it came), by the state's `fresh` counter and
the byte's place in the read. -/
opaque Config.device (n j : Nat) : BitVec 8

/-- Word `j` of what a 48-byte report of the part's own choosing holds (health, counters: R344 gives no figures). -/
opaque Config.report (kind j : Nat) : Nat

/-- Byte `j` of the answer to an SPDM request that carries data the manual does not give (certificates, digests,
signatures, nonces: R343), for the request numbered `n`. -/
opaque Config.spdm (code n j : Nat) : Nat

/-- Base and size of the die-scratchpad windows that the resident kernel gives contexts (R22 gives no figures). -/
opaque Config.dieWindow (n j : Nat) : Nat

/-- The row of a bank that a PA lies in, by a number of its own (R243 gives no map from PAs to rows). -/
opaque Config.rowOf (pa : Nat) : Nat

/-- The time in ns that step `n` takes when the state names none (R3: no figure is promised). -/
opaque Config.tick (n : Nat) : Nat

/-- The addresses from 0x800 on that the resident kernel's interface defines (R62), which the
manual leaves to it. -/
opaque Config.rkCsr (addr : Nat) : Bool

/-- One less than the entries that a context's fault log holds (R273 gives the ring no size). -/
opaque Config.logSize : Nat

/-- Tikothar's IANA private enterprise number, 4 bytes (R343). -/
opaque Config.vendor : Nat

/-- The slice of a die's scratchpad that holds an address (R216), modulo 10. -/
opaque Config.sliceOf : Nat → Nat

end Sys2Proof
end

