-- ==== Sys2Proof/Machine/Numbers.lean ====
section
/-! DEFINITION. The number formats and the order of sums (04): values are read into an exact form, computed exactly on
integers, and rounded once at the end. -/

namespace Sys2Proof.Machine

/-- `sext(x, 32)` and `sext(x, 64)` as exact integers are `BitVec.toInt`; `sat` of R78. -/
def sat (x lo hi : Int) : Int := if x < lo then lo else if hi < x then hi else x

/-- An exact floating-point value: `fin neg m e` is (−1)^neg × m × 2^e; m = 0 is a signed zero. -/
inductive FVal where
  | nan
  | inf (neg : Bool)
  | fin (neg : Bool) (m : Nat) (e : Int)
  deriving DecidableEq, Repr

/-- A standard format of R63: exponent bits and fraction bits. -/
structure Fmt where
  eb : Nat
  mb : Nat
  deriving DecidableEq, Repr

def Fmt.f32 : Fmt := ⟨8, 23⟩
def Fmt.f16 : Fmt := ⟨5, 10⟩
def Fmt.bf16 : Fmt := ⟨8, 7⟩

def Fmt.bias (f : Fmt) : Nat := 2 ^ (f.eb - 1) - 1
/-- The code of +∞. -/
def Fmt.infCode (f : Fmt) : Nat := (2 ^ f.eb - 1) * 2 ^ f.mb
/-- The canonical NaN (R65). -/
def Fmt.nanCode (f : Fmt) : Nat := f.infCode + 2 ^ (f.mb - 1)
/-- The sign bit. -/
def Fmt.signCode (f : Fmt) (neg : Bool) : Nat := if neg then 2 ^ (f.eb + f.mb) else 0

/-- The value of a code (R63). -/
def Fmt.read (f : Fmt) (c : Nat) : FVal :=
  let neg := c / 2 ^ (f.eb + f.mb) % 2 == 1
  let e := c / 2 ^ f.mb % 2 ^ f.eb
  let m := c % 2 ^ f.mb
  if e = 2 ^ f.eb - 1 then (if m = 0 then .inf neg else .nan)
  else if e = 0 then .fin neg m (1 - f.bias - f.mb)
  else .fin neg (m + 2 ^ f.mb) ((e : Int) - f.bias - f.mb)

/-- The rounding directions of R64. -/
inductive Rnd where
  | rne | rtz | rdn | rup
  deriving DecidableEq, Repr

/-- R64's codes. -/
def Rnd.ofCode (c : Nat) : Rnd :=
  if c % 4 = 0 then .rne else if c % 4 = 1 then .rtz else if c % 4 = 2 then .rdn else .rup

/-- Whether a magnitude rounds up: `odd` says that the kept part is odd, `cmp` how the rest compares with one half, and
`exact` that there is no rest. -/
def Rnd.up (r : Rnd) (neg odd : Bool) (cmp : Ordering) (exact : Bool) : Bool :=
  match r with
  | .rne => cmp == .gt || (cmp == .eq && odd)
  | .rtz => false
  | .rdn => neg && !exact
  | .rup => !neg && !exact

/-- `m × 2^e`, a little more when `sticky`, cut at 2^u: the kept part, how the rest compares with half of 2^u, and
whether there is no rest. -/
def cut (m : Nat) (e u : Int) (sticky : Bool) : Nat × Ordering × Bool :=
  if u ≤ e then (m <<< (e - u).toNat, .lt, !sticky)
  else
    let k := (u - e).toNat
    let r := m % 2 ^ k
    let h := 2 ^ (k - 1)
    (m >>> k, (if r < h then .lt else if r = h && !sticky then .eq else .gt), r == 0 && !sticky)

/-- The exponent of the last place of a value whose leading bit is 2^E (subnormals kept, R63). -/
def Fmt.ulpExp (f : Fmt) (E : Int) : Int := max E (1 - f.bias) - f.mb

/-- Rounds `m × 2^e` (and a little more when `sticky`) once into a format (R64). -/
def Fmt.round (f : Fmt) (r : Rnd) (neg : Bool) (m : Nat) (e : Int) (sticky : Bool := false) : Nat :=
  if m = 0 && !sticky then f.signCode neg
  else
    let u := f.ulpExp ((Nat.log2 m : Int) + e)
    let (q, cmp, exact) := cut m e u sticky
    let q := if r.up neg (q % 2 == 1) cmp exact then q + 1 else q
    let c := (u + f.mb + f.bias - 1).toNat * 2 ^ f.mb + q
    let toInf := match r with
      | .rne => true
      | .rtz => false
      | .rdn => neg
      | .rup => !neg
    f.signCode neg + (if c < f.infCode then c else if toInf then f.infCode else f.infCode - 1)

/-- A value rounded into a format; a NaN is the canonical one (R65). -/
def Fmt.write (f : Fmt) (r : Rnd) : FVal → Nat
  | .nan => f.nanCode
  | .inf neg => f.signCode neg + f.infCode
  | .fin neg m e => f.round r neg m e

/-! ### Exact arithmetic -/

/-- The signed mantissa of a finite value at exponent `e0`, which must not exceed its own. -/
def signedAt (neg : Bool) (m : Nat) (e e0 : Int) : Int :=
  let k := ((m <<< (e - e0).toNat : Nat) : Int)
  if neg then -k else k

/-- A finite value from a signed mantissa; an exact zero is +0. -/
def FVal.ofInt (k e : Int) : FVal := .fin (k < 0) k.natAbs e

def FVal.neg : FVal → FVal
  | .nan => .nan
  | .inf n => .inf (!n)
  | .fin n m e => .fin (!n) m e

def FVal.add : FVal → FVal → FVal
  | .nan, _ => .nan
  | _, .nan => .nan
  | .inf a, .inf b => if a = b then .inf a else .nan
  | .inf a, .fin _ _ _ => .inf a
  | .fin _ _ _, .inf b => .inf b
  | .fin a m e, .fin b n f =>
    if m = 0 ∧ n = 0 then .fin (a && b) 0 0
    else
      let e0 := min e f
      .ofInt (signedAt a m e e0 + signedAt b n f e0) e0

def FVal.mul : FVal → FVal → FVal
  | .nan, _ => .nan
  | _, .nan => .nan
  | .inf a, .inf b => .inf (a != b)
  | .inf a, .fin b n _ => if n = 0 then .nan else .inf (a != b)
  | .fin a m _, .inf b => if m = 0 then .nan else .inf (a != b)
  | .fin a m e, .fin b n f => .fin (a != b) (m * n) (e + f)

/-- The order of finite and infinite values, as a key that grows with the value: −0 counts as less than +0 (R93). Used
only on codes that are no NaN. -/
def orderKey (c : W32) : Int :=
  if c.msb then -(((c.toNat - 2 ^ 31 : Nat) : Int)) - 1 else (c.toNat : Int)

def isNan32 (c : W32) : Bool := Fmt.f32.infCode < c.toNat % 2 ^ 31

def f32 (c : W32) : FVal := Fmt.f32.read c.toNat
def toF32 (x : FVal) : W32 := BitVec.ofNat 32 (Fmt.f32.write .rne x)

def fadd32 (a b : W32) : W32 := toF32 ((f32 a).add (f32 b))
def fsub32 (a b : W32) : W32 := toF32 ((f32 a).add (f32 b).neg)
def fmul32 (a b : W32) : W32 := toF32 ((f32 a).mul (f32 b))
def ffma32 (a b c : W32) : W32 := toF32 (((f32 a).mul (f32 b)).add (f32 c))

/-- R93. -/
def fmin32 (a b : W32) : W32 :=
  if isNan32 a then (if isNan32 b then 0x7FC00000#32 else b)
  else if isNan32 b then a
  else if orderKey b < orderKey a then b else a

/-- R93. -/
def fmax32 (a b : W32) : W32 :=
  if isNan32 a then (if isNan32 b then 0x7FC00000#32 else b)
  else if isNan32 b then a
  else if orderKey a < orderKey b then b else a

/-- R92: the sign cleared; a NaN is canonical. -/
def fabs32 (a : W32) : W32 := if isNan32 a then 0x7FC00000#32 else a &&& 0x7FFFFFFF#32
def fneg32 (a : W32) : W32 := if isNan32 a then 0x7FC00000#32 else a ^^^ 0x80000000#32

/-- R95. −0 equals +0. -/
def fcmpKey (c : W32) : Int := if c &&& 0x7FFFFFFF#32 = 0 then 0 else orderKey c
def feq32 (a b : W32) : Bool := !isNan32 a && !isNan32 b && fcmpKey a == fcmpKey b
def flt32 (a b : W32) : Bool := !isNan32 a && !isNan32 b && decide (fcmpKey a < fcmpKey b)
def fle32 (a b : W32) : Bool := !isNan32 a && !isNan32 b && decide (fcmpKey a ≤ fcmpKey b)
def fun32 (a b : W32) : Bool := isNan32 a || isNan32 b

/-- An exact finite value rounded to an integer (R96), before any limit. -/
def roundInt (r : Rnd) (neg : Bool) (m : Nat) (e : Int) : Int :=
  let (q, cmp, exact) := cut m e 0 false
  let q := if r.up neg (q % 2 == 1) cmp exact then q + 1 else q
  if neg then -(q : Int) else (q : Int)

/-- `frnd`: an integral F32, the sign kept (R92). -/
def frnd32 (a : W32) : W32 :=
  match f32 a with
  | .fin neg m e =>
    let k := roundInt .rne neg m e
    BitVec.ofNat 32 (Fmt.f32.round .rne neg k.natAbs 0)
  | x => toF32 x

/-- `fscale` (R98). -/
def fscale32 (a b : W32) : W32 :=
  let e := b.toNat % 256
  if e = 255 then 0x7FC00000#32
  else match f32 a with
    | .fin neg m x => BitVec.ofNat 32 (Fmt.f32.round .rne neg m (x + e - 127))
    | x => toF32 x

/-! ### Square roots and the special functions (R77, R94) -/

/-- The integer square root, bit by bit from bit `k`. -/
def isqrtFrom : Nat → Nat → Nat → Nat
  | 0, r, _ => r
  | k + 1, r, n => if (r + 2 ^ k) * (r + 2 ^ k) ≤ n then isqrtFrom k (r + 2 ^ k) n else isqrtFrom k r n

def isqrt (n : Nat) : Nat := isqrtFrom (Nat.log2 n / 2 + 1) 0 n

/-- `fsqrt`, correctly rounded. -/
def fsqrt32 (a : W32) : W32 :=
  match f32 a with
  | .fin neg m e =>
    if m = 0 then a
    else if neg then 0x7FC00000#32
    else
      let (m, e) := if e % 2 = 0 then (m, e) else (2 * m, e - 1)
      let n := m * 2 ^ 64
      let q := isqrt n
      BitVec.ofNat 32 (Fmt.f32.round .rne false q (e / 2 - 32) (q * q != n))
  | .inf false => a
  | _ => 0x7FC00000#32

/-- One of the F32 values within 1 ulp of `m × 2^e` (and a little more when `sticky`): the value itself when it is
representable; otherwise the one below, the one above, or, just above a power of two, the one below that, as the free
choice of R77 says. -/
def within1ulp (pick : Nat) (neg : Bool) (m : Nat) (e : Int) (sticky : Bool) : W32 :=
  let f := Fmt.f32
  let E : Int := (Nat.log2 m : Int) + e
  let u := f.ulpExp E
  let (q, cmp, exact) := cut m e u sticky
  let c := (u + f.mb + f.bias - 1).toNat * 2 ^ f.mb + q
  let low := q == 2 ^ f.mb && decide (f.ulpExp (E - 1) < u) && cmp != .gt
  let c := if exact then c
    else if pick % 3 = 1 then c + 1
    else if pick % 3 = 2 && low then c - 1
    else c
  BitVec.ofNat 32 (f.signCode neg + min c f.infCode)

/-- 1 ÷ a. A negative finite input answers a finite value (R94): the last one where the reciprocal only rounds past it, and a
free one where no finite value is within 1 ulp (R77). -/
def frcp32 (a : W32) : W32 :=
  match f32 a with
  | .nan => 0x7FC00000#32
  | .inf neg => BitVec.ofNat 32 (Fmt.f32.signCode neg)
  | .fin neg m e =>
    if m = 0 then BitVec.ofNat 32 (Fmt.f32.signCode neg + Fmt.f32.infCode)
    else if neg && decide (a.toNat % 2 ^ 31 < 0x200000) then
      BitVec.ofNat 32 (Fmt.f32.signCode neg + Config.special 4 a % Fmt.f32.infCode)
    else
      let r := within1ulp (Config.special 0 a) neg (2 ^ 64 / m) (-64 - e) (2 ^ 64 % m != 0)
      if r = 0xFF800000#32 then 0xFF7FFFFF#32 else r

/-- 1 ÷ √a. -/
def frsq32 (a : W32) : W32 :=
  match f32 a with
  | .nan => 0x7FC00000#32
  | .inf neg => if neg then 0x7FC00000#32 else 0
  | .fin neg m e =>
    if m = 0 then BitVec.ofNat 32 (Fmt.f32.signCode neg + Fmt.f32.infCode)
    else if neg then 0x7FC00000#32
    else
      let (m, e) := if e % 2 = 0 then (m, e) else (2 * m, e - 1)
      let q := isqrt (2 ^ 128 / m)
      within1ulp (Config.special 1 a) false q (-64 - e / 2) (q * q * m != 2 ^ 128)

/-- 2^(f ÷ 2^n) in units of 2^−128, from below, for f < 2^n: the product of the square roots of 2 that f names. `c` is
2^(1 ÷ 2^i) and `p` the product so far. -/
def exp2Bits : Nat → Nat → Nat → Nat → Nat
  | 0, _, _, p => p
  | n + 1, f, c, p =>
    let c := isqrt (c <<< 128)
    exp2Bits n f c (if f.testBit n then (p * c) >>> 128 else p)

/-- 2^a. -/
def fexp232 (a : W32) : W32 :=
  match f32 a with
  | .nan => 0x7FC00000#32
  | .inf neg => if neg then 0 else 0x7F800000#32
  | .fin neg m e =>
    if m = 0 then 0x3F800000#32
    else if 7 ≤ (Nat.log2 m : Int) + e && !neg then 0x7F800000#32
    else if 8 ≤ (Nat.log2 m : Int) + e && neg then 0
    else if (Nat.log2 m : Int) + e < -60 then
      if neg then within1ulp (Config.special 2 a) false (2 ^ 24 - 1) (-24) true
      else within1ulp (Config.special 2 a) false (2 ^ 24) (-24) true
    else
      -- a as an integer in units of 2^−96 (exact: the last place of a is at least 2^−83)
      let k := signedAt neg m e (-96)
      let i := k / 2 ^ 96
      let f := (k % 2 ^ 96).toNat
      if i < -150 then 0
      else if f = 0 && decide (-150 < i) then BitVec.ofNat 32 (Fmt.f32.round .rne false 1 i)
      else if i < -149 then (if Config.special 2 a % 2 = 1 then 1 else 0)
      else within1ulp (Config.special 2 a) false (exp2Bits 96 f (2 ^ 129) (2 ^ 128)) (i - 128) true

/-- The bits of log₂ y after the point, for 1 ≤ y < 2 in units of 2^−200. -/
def log2Bits : Nat → Nat → Nat → Nat
  | 0, _, r => r
  | n + 1, y, r =>
    let y := (y * y) >>> 200
    if 2 ^ 201 ≤ y then log2Bits n (y >>> 1) (2 * r + 1) else log2Bits n y (2 * r)

/-- log₂ a. -/
def flog232 (a : W32) : W32 :=
  match f32 a with
  | .nan => 0x7FC00000#32
  | .inf neg => if neg then 0x7FC00000#32 else 0x7F800000#32
  | .fin neg m e =>
    if m = 0 then 0xFF800000#32
    else if neg then 0x7FC00000#32
    else
      let L := Nat.log2 m
      let i : Int := (L : Int) + e
      if m = 2 ^ L then BitVec.ofNat 32 (Fmt.f32.round .rne (i < 0) i.natAbs 0)
      else
        let fr := log2Bits 80 (m <<< (200 - L)) 0
        let t : Int := i * 2 ^ 80 + fr
        if t < 0 then within1ulp (Config.special 3 a) true (t.natAbs - 1) (-80) true
        else within1ulp (Config.special 3 a) false t.toNat (-80) true

/-! ### The narrow formats (R67 to R72) -/

/-- A narrow format: exponent bits, mantissa bits, bias. -/
structure Narrow where
  eb : Nat
  mb : Nat
  bias : Nat
  deriving DecidableEq, Repr

def Narrow.e4m3n : Narrow := ⟨4, 3, 7⟩
def Narrow.e5m2n : Narrow := ⟨5, 2, 15⟩
def Narrow.e2m1n : Narrow := ⟨2, 1, 1⟩

/-- The code with only the sign bit set: the NaN (R67). -/
def Narrow.signCode (f : Narrow) : Nat := 2 ^ (f.eb + f.mb)

/-- The magnitude of a code without its sign, in units of 2^(−bias − mb). -/
def Narrow.mag (f : Narrow) (c : Nat) : Nat :=
  if c = 0 then 0 else (2 ^ f.mb + c % 2 ^ f.mb) * 2 ^ (c / 2 ^ f.mb)

/-- The value of a code (R67). -/
def Narrow.read (f : Narrow) (c : Nat) : FVal :=
  let c := c % (2 * f.signCode)
  if c = f.signCode then .nan
  else .fin (f.signCode ≤ c) (f.mag (c % f.signCode)) (-(f.bias : Int) - f.mb)

/-- How many magnitude codes 1, 2, … below `n` have a magnitude of at most `m × 2^e`. -/
def Narrow.below (f : Narrow) (m : Nat) (e : Int) : Nat → Nat
  | 0 => 0
  | n + 1 =>
    let k := f.below m e n
    if signedAt false (f.mag (n + 1)) (-(f.bias : Int) - f.mb) (min e (-(f.bias : Int) - f.mb)) ≤
        signedAt false m e (min e (-(f.bias : Int) - f.mb)) then k + 1 else k

/-- The conversion of R72: the code. -/
def Narrow.write (f : Narrow) : FVal → Nat
  | .nan => f.signCode
  | .inf neg => (if neg then f.signCode else 0) + (f.signCode - 1)
  | .fin neg m e =>
    let e0 := min e (-(f.bias : Int) - f.mb) - 1
    let x := signedAt false m e e0
    let top := f.signCode - 1
    let lo := f.below m e top
    let mg := fun c => signedAt false (f.mag c) (-(f.bias : Int) - f.mb) e0
    let c := if lo = top then top
      else
        let d := (x - mg lo) - (mg (lo + 1) - x)
        if d < 0 then lo else if 0 < d then lo + 1
        else if lo % 2 = 0 then lo else lo + 1
    if c = 0 then 0 else (if neg then f.signCode else 0) + c

/-- The value of an e8 scale (R70). -/
def e8 (c : Nat) : FVal := if c % 256 = 255 then .nan else .fin false 1 ((c % 256 : Nat) - 127)

/-- The target e8 of `fcvt` (R96). -/
def toE8 : FVal → Nat
  | .nan => 255
  | .inf _ => 254
  | .fin _ m e => if m = 0 then 0 else (sat ((Nat.log2 m : Int) + e + 127) 0 254).toNat

/-- The target i8, i4 or i32 of `fcvt`: rounded, then limited to the type's range; NaN gives 0 (R96). -/
def toIntSat (r : Rnd) (bits : Nat) : FVal → Int
  | .nan => 0
  | .inf neg => if neg then -(2 ^ (bits - 1) : Int) else 2 ^ (bits - 1) - 1
  | .fin neg m e => sat (roundInt r neg m e) (-(2 ^ (bits - 1) : Int)) (2 ^ (bits - 1) - 1)

/-- The value of a signed field. -/
def fieldInt (x bits : Nat) : Int :=
  let x := x % 2 ^ bits
  if x < 2 ^ (bits - 1) then (x : Int) else (x : Int) - 2 ^ bits

/-- The bits of an element format of R96: 0 f16, 1 bf16, 2 e4m3n, 3 e5m2n, 4 e2m1n, 5 i8, 6 i4, 7 e8. -/
def fmtBits (fmt : Nat) : Nat :=
  if fmt < 2 then 16 else if fmt = 4 || fmt = 6 then 4 else 8

/-- An element code widened to its value (R96). -/
def readElem (fmt c : Nat) : FVal :=
  if fmt = 0 then Fmt.f16.read (c % 2 ^ 16)
  else if fmt = 1 then Fmt.bf16.read (c % 2 ^ 16)
  else if fmt = 2 then Narrow.e4m3n.read c
  else if fmt = 3 then Narrow.e5m2n.read c
  else if fmt = 4 then Narrow.e2m1n.read c
  else if fmt = 5 then .ofInt (fieldInt c 8) 0
  else if fmt = 6 then .ofInt (fieldInt c 4) 0
  else e8 c

/-- A value converted to an element code (R96). -/
def writeElem (r : Rnd) (fmt : Nat) (x : FVal) : Nat :=
  if fmt = 0 then Fmt.f16.write r x
  else if fmt = 1 then Fmt.bf16.write r x
  else if fmt = 2 then Narrow.e4m3n.write x
  else if fmt = 3 then Narrow.e5m2n.write x
  else if fmt = 4 then Narrow.e2m1n.write x
  else if fmt = 5 then (wrap 8 (toIntSat r 8 x)).toNat
  else if fmt = 6 then (wrap 4 (toIntSat r 4 x)).toNat
  else toE8 x

/-- Whether a conversion sets `fflags.inv`: a NaN converted to e2m1n (R72). -/
def setsInv (fmt : Nat) (x : FVal) : Bool := fmt == 4 && x == .nan

/-! ### Sums (R74, R75) -/

/-- Whether a term is a zero, and its sign. -/
def FVal.isZero : FVal → Bool
  | .fin _ m _ => m == 0
  | _ => false

/-- The exponent of a term's leading bit, for a finite term that is not zero. -/
def FVal.lead? : FVal → Option Int
  | .fin _ m e => if m = 0 then none else some ((Nat.log2 m : Int) + e)
  | _ => none

def maxLead : List FVal → Option Int
  | [] => none
  | t :: ts => match t.lead?, maxLead ts with
    | none, r => r
    | some a, none => some a
    | some a, some b => some (max a b)

/-- A term in units of q = 2^u, truncated toward zero. -/
def FVal.trunc (u : Int) : FVal → Int
  | .fin neg m e =>
    let k : Int := ((cut m e u false).1 : Nat)
    if neg then -k else k
  | _ => 0

/-- R74: one step over its exact terms, the accumulator included. -/
def windowSum (ts : List FVal) : W32 :=
  if ts.any (· == .nan) then 0x7FC00000#32
  else if ts.any (· == .inf true) && ts.any (· == .inf false) then 0x7FC00000#32
  else if ts.any (· == .inf true) then 0xFF800000#32
  else if ts.any (· == .inf false) then 0x7F800000#32
  else match maxLead ts with
    | none => if ts.all (fun t => t matches .fin true _ _) then 0x80000000#32 else 0
    | some E =>
      let u := E - 48
      toF32 (.ofInt (ts.foldl (fun a t => a + t.trunc u) 0) u)

/-- Element i of a packed register (R71). -/
def elem (bits i : Nat) (x : Nat) : Nat := x / 2 ^ (bits * i) % 2 ^ bits

/-- A packed register with element i replaced. -/
def setElem (bits i : Nat) (x y : Nat) : Nat :=
  x - elem bits i x * 2 ^ (bits * i) + y % 2 ^ bits * 2 ^ (bits * i)

/-- The products of a dot form's element pairs. -/
def dotTerms (n fa fb : Nat) (a b : W32) : List FVal :=
  (List.range n).map fun i =>
    (readElem fa (elem (fmtBits fa) i a.toNat)).mul (readElem fb (elem (fmtBits fb) i b.toNat))

/-- A dot form with an F32 accumulator (R100, R74). -/
def dotF (n fa fb : Nat) (a b acc : W32) : W32 := windowSum (f32 acc :: dotTerms n fa fb a b)

/-- A dot form with an i32 accumulator (R100, R75). -/
def dotI (n bits : Nat) (a b acc : W32) : W32 :=
  wrap 32 ((List.range n).foldl
    (fun t i => t + fieldInt (elem bits i a.toNat) bits * fieldInt (elem bits i b.toNat) bits) acc.toInt)

/-- The packed half-precision forms: an operation on elements 0 and 1 of three registers (R99). -/
def packed2 (f : Fmt) (op : FVal → FVal → FVal → FVal) (a b c : W32) : W32 :=
  let g := fun i => f.write .rne (op (f.read (elem 16 i a.toNat)) (f.read (elem 16 i b.toNat)) (f.read (elem 16 i c.toNat)))
  BitVec.ofNat 32 (g 0 + 2 ^ 16 * g 1)

/-- An inline constant in an FLT word (R42): the F32 value of k, or the format's value in both halves. -/
def fltConst (pk : Option Fmt) (k : Int) : W32 :=
  match pk with
  | none => toF32 (.ofInt k 0)
  | some f => BitVec.ofNat 32 (f.write .rne (.ofInt k 0) * (2 ^ 16 + 1))

end Sys2Proof.Machine
end

