-- ==== Sys2Proof/Syntax.lean ====
section
/-! DEFINITION. The syntax: operands (02 R41), the fields of parameter words (07 R140, R150; 10 R188; 17 R290), and
the ONE inductive of instructions, one constructor per row of spec/opcode_table.json. The first 234 are the forms of
03 R55, with the operands their format gives them; the others are the steps of the table that have no encoding
(events, packets, operations of the agents around the cores), with the names of the parts they act on: k a core index,
t a team position, p a split-table entry, c a context number, n a kernel load number, x an outstanding operation's
number, fn a function (0 to 255 a VF, 256 the physical function), q a queue. -/

namespace Sys2Proof

/-- An operand, from its 8-bit code (R41). A literal carries its word (R37); `k n` is the constant `n - 15`. -/
inductive Opnd where
  | v (n : Fin 128)
  | s (n : Fin 64)
  | k (n : Fin 31)
  | lit (w : BitVec 32)
  | p (n : Fin 8)
  | lane
  | lanes
  | role
  | team
  | core
  | replay
  | q (n : Fin 8)
  deriving DecidableEq, Repr

/-- The engine class of a clause (R27). -/
inductive Eng where
  | ctl | uni | lane | flt | loc | asy | sys
  deriving DecidableEq, Repr

/-- The parameter word of the transfer forms (R150); `po` is bits [12:9]. -/
structure XPar where
  bar : BitVec 6
  scope : BitVec 3
  acq : Bool
  rel : Bool
  size : BitVec 3
  sh : BitVec 3
  w32 : Bool
  sx : Bool
  po : BitVec 4
  deriving DecidableEq, Repr

/-- The parameter word of `atomx.*` (R140). -/
structure AxPar where
  wide : Bool
  rel : Bool
  acq : Bool
  scope : BitVec 3
  deriving DecidableEq, Repr

/-- The parameter word of `mloop`, `mgloop` and `mstore` (R188). -/
structure MPar where
  bar : BitVec 6
  scope : BitVec 3
  acq : Bool
  rel : Bool
  deriving DecidableEq, Repr

/-- The parameter word of `seq.add` (R290). -/
structure SeqPar where
  bar : BitVec 6
  scope : BitVec 3
  rel : Bool
  cmt : Bool
  deriving DecidableEq, Repr

/-- What a debugger writes in a stopped team (R165): a register, a predicate bit, a mask or another field of a
split-table entry, a byte of the crew's region or of the die scratchpad, or a CSR. -/
inductive DbgTarget where
  | v (r lane : Nat)
  | s (r : Nat)
  | p (r lane : Nat)
  | pc (split : Nat)
  | exec (split word : Nat)
  | live (split word : Nat)
  | join (split : Nat)
  | depth (split : Nat)
  | state (split : Nat)
  | parent (split : Nat)
  | children (split : Nat)
  | cause (split : Nat)
  | shared (off : Nat)
  | die (off : Nat)
  | csr (addr : BitVec 12)
  deriving DecidableEq, Repr

/-- Settings that the spec gives to the hypervisor, the firmware and the resident kernel and that no row of the opcode table has:
the bind of a context to a chip link and a peer's context (R338), the function that a unit's counter selects (R175), a slot of the
calendar (R19), the thresholds of row disturbance (R243), the event ring (R244), the size of a BAR2 in GiB (R335), the mode of the
expander port and its HDM ranges (R337), and a write to a function's BAR4 (R335). -/
inductive RkSetting where
  | peerBind (link rctx ctx : Nat) (on : Bool)
  | unitSelect (unit fn : Nat)
  | calendarSlot (slot owner gleaner : Nat) (ctx : Option Nat)
  | thresholds (mitigation throttle : Nat)
  | eventRing (base size : Nat)
  | bar2Size (fn gib : Nat)
  | expander (pcie6 : Bool) (hdm : List (Nat × Nat))
  | bar4Write (fn off : Nat) (bytes : List (BitVec 8))
  deriving DecidableEq, Repr

/-- What the hypervisor gives a function beside its slots (R305): its period in ns, and the weights of its processes by pid. DESIGN
CHOICE: the settings that no row of the opcode table has come with it. -/
structure VfShare where
  period : Nat
  weights : List (Nat × Nat)
  more : List RkSetting
  deriving DecidableEq, Repr

inductive Instr where
  /-- `nop` (R126): Does nothing -/
  | nop
  /-- `br` (R116): Branches the whole split to the clause header at the signed word offset from its own header -/
  | br (off : BitVec 24)
  /-- `bz` (R116): Branches when the uniform value is zero or no lane of the execute mask has the predicate set -/
  | bz (d : Opnd) (imm : BitVec 16)
  /-- `bnz` (R116): Branches under the negation of the bz condition -/
  | bnz (d : Opnd) (imm : BitVec 16)
  /-- `br.s` (R116): Branches the split to the VA held in a uniform register -/
  | brS (a : Opnd)
  /-- `bdiv` (R110): Partitions the execute mask by a predicate into a taken and a fall-through split with a common join -/
  | bdiv (d : Opnd) (imm : BitVec 16) (join : BitVec 32)
  /-- `jtab` (R111): Dispatches lanes through a word table into one split per distinct target, or faults on an index past the table -/
  | jtab (n : BitVec 8) (a b : Opnd) (join : BitVec 32)
  /-- `kill` (R108): Removes the gated-on lanes of the execute mask from the split and its ancestors and ends the clause -/
  | kill
  /-- `call` (R120): Pushes the return offset onto the spill stack and transfers to the signed word offset -/
  | call (off : BitVec 24)
  /-- `call.s` (R120): Pushes the return offset and transfers to the VA in a uniform register -/
  | callS (a : Opnd)
  /-- `ret` (R120): Pops the return offset of the lowest live lane and continues there -/
  | ret
  /-- `yield` (R126): Gives the team's next owned position to another ready split without ending the clause -/
  | yield
  /-- `halt` (R114): Kills every live lane of the split and ends it -/
  | halt
  /-- `mask.get` (R108): Reads an execute-mask word or the summary word into a uniform register -/
  | maskGet (d a : Opnd)
  /-- `mask.and` (R108): Parks execute-mask lanes whose predicate bit is clear -/
  | maskAnd (a : Opnd)
  /-- `mask.set` (R108): Sets an execute-mask word to a value ANDed with the live-mask word -/
  | maskSet (a b : Opnd)
  /-- `claim.v` (R117): Claims n more lane registers for the team, zeroed, under the hold class -/
  | claimV (imm : BitVec 16)
  /-- `give.v` (R117): Releases the n highest lane registers and their hold -/
  | giveV (imm : BitVec 16)
  /-- `claim.s` (R117): Claims n more uniform registers, zeroed -/
  | claimS (imm : BitVec 16)
  /-- `give.s` (R117): Releases the n highest uniform registers -/
  | giveS (imm : BitVec 16)
  /-- `claim.a` (R117): Claims the n lowest free accumulator tiles and returns the bitmap of held tiles -/
  | claimA (d : Opnd) (imm : BitVec 16)
  /-- `give.a` (R117): Releases the n highest-numbered held tiles -/
  | giveA (imm : BitVec 16)
  /-- `ready` (R122): Sets a readiness condition slot of the team's next phase -/
  | ready (n : BitVec 8) (a b : Opnd)
  /-- `phase` (R123): Ends the team's phase, stopping issue until its async work completes -/
  | phase (imm : BitVec 16) (entry : BitVec 32)
  /-- `wait` (R124): Sleeps the split until a barrier object shows the named phase -/
  | wait (a b : Opnd)
  /-- `watch` (R125): Arms or disarms the team's watch register on a barrier object -/
  | watch (a b : Opnd)
  /-- `trap` (R127): Raises class 0x8 with a 16-bit code, resuming at the next header -/
  | trap (imm : BitVec 16)
  /-- `sys` (R130): Asks the resident kernel for a service and waits for its reply under the call class -/
  | sys (d : Opnd) (imm : BitVec 16)
  /-- `rett` (R268): Returns from the context's handler to tpc, restoring the mask and resuming the other splits -/
  | rett
  /-- `brk` (R129): Stops the team precisely when a debugger is attached with breakpoints enabled -/
  | brk (imm : BitVec 16)
  /-- `sadd` (R82): Uniform 64-bit add -/
  | sadd (d a b : Opnd)
  /-- `ssub` (R82): Uniform subtract -/
  | ssub (d a b : Opnd)
  /-- `smul` (R82): Uniform multiply, low 64 bits -/
  | smul (d a b : Opnd)
  /-- `smulh` (R82): Uniform signed multiply, high 64 bits -/
  | smulh (d a b : Opnd)
  /-- `smulhu` (R82): Uniform unsigned multiply, high 64 bits -/
  | smulhu (d a b : Opnd)
  /-- `sand` (R82): Uniform bitwise AND -/
  | sand (d a b : Opnd)
  /-- `sor` (R82): Uniform bitwise OR -/
  | sor (d a b : Opnd)
  /-- `sxor` (R82): Uniform bitwise XOR -/
  | sxor (d a b : Opnd)
  /-- `sandn` (R82): Uniform AND NOT -/
  | sandn (d a b : Opnd)
  /-- `sshl` (R82): Uniform shift left -/
  | sshl (d a b : Opnd)
  /-- `sshr` (R82): Uniform logical shift right -/
  | sshr (d a b : Opnd)
  /-- `ssar` (R82): Uniform arithmetic shift right -/
  | ssar (d a b : Opnd)
  /-- `smin` (R82): Uniform signed minimum -/
  | smin (d a b : Opnd)
  /-- `smax` (R82): Uniform signed maximum -/
  | smax (d a b : Opnd)
  /-- `sminu` (R82): Uniform unsigned minimum -/
  | sminu (d a b : Opnd)
  /-- `smaxu` (R82): Uniform unsigned maximum -/
  | smaxu (d a b : Opnd)
  /-- `seq` (R82): Uniform compare equal -/
  | seq (d a b : Opnd)
  /-- `sne` (R82): Uniform compare not equal -/
  | sne (d a b : Opnd)
  /-- `slt` (R82): Uniform signed less than -/
  | slt (d a b : Opnd)
  /-- `sle` (R82): Uniform signed less or equal -/
  | sle (d a b : Opnd)
  /-- `sltu` (R82): Uniform unsigned less than -/
  | sltu (d a b : Opnd)
  /-- `sleu` (R82): Uniform unsigned less or equal -/
  | sleu (d a b : Opnd)
  /-- `scsel` (R82): Uniform conditional select: b when a is non-zero, else unchanged -/
  | scsel (d a b : Opnd)
  /-- `smov` (R82): Uniform move -/
  | smov (d a : Opnd)
  /-- `smovi` (R84): Sets a uniform register to a sign-extended 16-bit immediate -/
  | smovi (d : Opnd) (imm : BitVec 16)
  /-- `sorhi` (R84): Shifts a uniform register left 16 and ORs in 16 immediate bits -/
  | sorhi (d : Opnd) (imm : BitVec 16)
  /-- `saddi` (R84): Adds a sign-extended immediate to a uniform register -/
  | saddi (d : Opnd) (imm : BitVec 16)
  /-- `spopc` (R82): Uniform population count -/
  | spopc (d a : Opnd)
  /-- `sclz` (R82): Uniform count of leading zeros -/
  | sclz (d a : Opnd)
  /-- `sbfe` (R83): Uniform bit-field extract -/
  | sbfe (d a b : Opnd)
  /-- `sbfi` (R83): Uniform bit-field insert -/
  | sbfi (d a b : Opnd)
  /-- `slane` (R85): Reads one lane of a lane register into a uniform register -/
  | slane (d a b : Opnd)
  /-- `vadd` (R87): Lane add modulo 2^32 -/
  | vadd (d a b : Opnd)
  /-- `vsub` (R87): Lane subtract -/
  | vsub (d a b : Opnd)
  /-- `vmul` (R87): Lane multiply, low 32 bits -/
  | vmul (d a b : Opnd)
  /-- `vmulh` (R87): Lane signed multiply, high 32 bits -/
  | vmulh (d a b : Opnd)
  /-- `vmulhu` (R87): Lane unsigned multiply, high 32 bits -/
  | vmulhu (d a b : Opnd)
  /-- `vmad` (R87): Lane multiply-add into the destination -/
  | vmad (d a b : Opnd)
  /-- `vmin` (R87): Lane signed minimum -/
  | vmin (d a b : Opnd)
  /-- `vmax` (R87): Lane signed maximum -/
  | vmax (d a b : Opnd)
  /-- `vminu` (R87): Lane unsigned minimum -/
  | vminu (d a b : Opnd)
  /-- `vmaxu` (R87): Lane unsigned maximum -/
  | vmaxu (d a b : Opnd)
  /-- `vabs` (R87): Lane absolute value -/
  | vabs (d a : Opnd)
  /-- `vneg` (R87): Lane negate -/
  | vneg (d a : Opnd)
  /-- `vand` (R87): Lane bitwise AND -/
  | vand (d a b : Opnd)
  /-- `vor` (R87): Lane bitwise OR -/
  | vor (d a b : Opnd)
  /-- `vxor` (R87): Lane bitwise XOR -/
  | vxor (d a b : Opnd)
  /-- `vandn` (R87): Lane AND NOT -/
  | vandn (d a b : Opnd)
  /-- `vnot` (R87): Lane bitwise NOT -/
  | vnot (d a : Opnd)
  /-- `vshl` (R87): Lane shift left -/
  | vshl (d a b : Opnd)
  /-- `vshr` (R87): Lane logical shift right -/
  | vshr (d a b : Opnd)
  /-- `vsar` (R87): Lane arithmetic shift right -/
  | vsar (d a b : Opnd)
  /-- `vrot` (R87): Lane rotate left -/
  | vrot (d a b : Opnd)
  /-- `vpopc` (R87): Lane population count -/
  | vpopc (d a : Opnd)
  /-- `vclz` (R87): Lane count of leading zeros -/
  | vclz (d a : Opnd)
  /-- `vbfe` (R83): Lane bit-field extract, zero-extended -/
  | vbfe (d a b : Opnd)
  /-- `vbfes` (R83): Lane bit-field extract, sign-extended -/
  | vbfes (d a b : Opnd)
  /-- `vbfi` (R83): Lane bit-field insert -/
  | vbfi (d a b : Opnd)
  /-- `vmov` (R87): Lane move -/
  | vmov (d a : Opnd)
  /-- `vmovi` (R84): Sets each lane to a sign-extended immediate -/
  | vmovi (d : Opnd) (imm : BitVec 16)
  /-- `vorhi` (R84): Shifts each lane left 16 and ORs in 16 immediate bits -/
  | vorhi (d : Opnd) (imm : BitVec 16)
  /-- `vaddi` (R84): Adds a sign-extended immediate to each lane -/
  | vaddi (d : Opnd) (imm : BitVec 16)
  /-- `vcmov` (R87): Lane conditional move under a predicate -/
  | vcmov (d a b : Opnd)
  /-- `vcmp.eq` (R88): Lane compare equal into a predicate -/
  | vcmpEq (d a b : Opnd)
  /-- `vcmp.ne` (R88): Lane compare not equal -/
  | vcmpNe (d a b : Opnd)
  /-- `vcmp.lt` (R88): Lane signed less than -/
  | vcmpLt (d a b : Opnd)
  /-- `vcmp.le` (R88): Lane signed less or equal -/
  | vcmpLe (d a b : Opnd)
  /-- `vcmp.ltu` (R88): Lane unsigned less than -/
  | vcmpLtu (d a b : Opnd)
  /-- `vcmp.leu` (R88): Lane unsigned less or equal -/
  | vcmpLeu (d a b : Opnd)
  /-- `pand` (R88): Predicate AND -/
  | pand (d a b : Opnd)
  /-- `por` (R88): Predicate OR -/
  | por (d a b : Opnd)
  /-- `pxor` (R88): Predicate XOR -/
  | pxor (d a b : Opnd)
  /-- `pnot` (R88): Predicate NOT -/
  | pnot (d a : Opnd)
  /-- `vmulq` (R89): Q31 rounding multiply with saturation -/
  | vmulq (d a b : Opnd)
  /-- `vrsh` (R89): Rounding arithmetic shift right -/
  | vrsh (d a b : Opnd)
  /-- `vsat.i8` (R89): Clamps each lane to the i8 range -/
  | vsatI8 (d a : Opnd)
  /-- `vsat.ub` (R89): Clamps each lane to 0-255 -/
  | vsatUb (d a : Opnd)
  /-- `vsat.i16` (R89): Clamps each lane to the i16 range -/
  | vsatI16 (d a : Opnd)
  /-- `vprm` (R90): Byte permute of b:a under selector bytes in the destination -/
  | vprm (d a b : Opnd)
  /-- `fadd` (R92): F32 add -/
  | fadd (d a b : Opnd)
  /-- `fsub` (R92): F32 subtract -/
  | fsub (d a b : Opnd)
  /-- `fmul` (R92): F32 multiply -/
  | fmul (d a b : Opnd)
  /-- `ffma` (R92): F32 fused multiply-add -/
  | ffma (d a b : Opnd)
  /-- `fmin` (R93): F32 minimum -/
  | fmin (d a b : Opnd)
  /-- `fmax` (R93): F32 maximum -/
  | fmax (d a b : Opnd)
  /-- `fabs` (R92): F32 absolute value -/
  | fabs (d a : Opnd)
  /-- `fneg` (R92): F32 negate -/
  | fneg (d a : Opnd)
  /-- `frcp` (R94): F32 reciprocal -/
  | frcp (d a : Opnd)
  /-- `frsq` (R94): F32 reciprocal square root -/
  | frsq (d a : Opnd)
  /-- `fsqrt` (R92): F32 square root -/
  | fsqrt (d a : Opnd)
  /-- `fexp2` (R94): F32 base-2 exponential -/
  | fexp2 (d a : Opnd)
  /-- `flog2` (R94): F32 base-2 logarithm -/
  | flog2 (d a : Opnd)
  /-- `frnd` (R92): Rounds F32 to an integral value -/
  | frnd (d a : Opnd)
  /-- `fcmp.eq` (R95): F32 compare equal into a predicate -/
  | fcmpEq (d a b : Opnd)
  /-- `fcmp.lt` (R95): F32 compare less than -/
  | fcmpLt (d a b : Opnd)
  /-- `fcmp.le` (R95): F32 compare less or equal -/
  | fcmpLe (d a b : Opnd)
  /-- `fcmp.un` (R95): F32 unordered compare -/
  | fcmpUn (d a b : Opnd)
  /-- `fcvt` (R96): Converts one value between F32 and another format under a mode byte -/
  | fcvt (d a : Opnd) (mode : BitVec 8)
  /-- `fpack` (R97): Converts F32 into one element of a packed register -/
  | fpack (d a : Opnd) (mode : BitVec 8)
  /-- `funpack` (R97): Widens one packed element to F32 -/
  | funpack (d a : Opnd) (mode : BitVec 8)
  /-- `fscale` (R98): Multiplies by a power of two given as an e8 field, rounding once -/
  | fscale (d a b : Opnd)
  /-- `hadd2` (R99): Packed F16 add -/
  | hadd2 (d a b : Opnd)
  /-- `hmul2` (R99): Packed F16 multiply -/
  | hmul2 (d a b : Opnd)
  /-- `hfma2` (R99): Packed F16 fused multiply-add -/
  | hfma2 (d a b : Opnd)
  /-- `badd2` (R99): Packed BF16 add -/
  | badd2 (d a b : Opnd)
  /-- `bmul2` (R99): Packed BF16 multiply -/
  | bmul2 (d a b : Opnd)
  /-- `bfma2` (R99): Packed BF16 fused multiply-add -/
  | bfma2 (d a b : Opnd)
  /-- `dot2.f16` (R100): Two-pair F16 dot step into an F32 accumulator -/
  | dot2F16 (d a b : Opnd)
  /-- `dot2.bf16` (R100): Two-pair BF16 dot step -/
  | dot2Bf16 (d a b : Opnd)
  /-- `dot4.e4m3n` (R100): Four-pair e4m3n dot step -/
  | dot4E4m3n (d a b : Opnd)
  /-- `dot4.e5m2n` (R100): Four-pair e5m2n dot step -/
  | dot4E5m2n (d a b : Opnd)
  /-- `dot8.e2m1n` (R100): Eight-pair e2m1n dot step -/
  | dot8E2m1n (d a b : Opnd)
  /-- `dot4.i8` (R100): Four-pair i8 dot step into an i32 accumulator -/
  | dot4I8 (d a b : Opnd)
  /-- `dot4.mx8` (R100): Four-pair e4m3n by e5m2n dot step -/
  | dot4Mx8 (d a b : Opnd)
  /-- `dot8.i4` (R100): Eight-pair i4 dot step into an i32 accumulator -/
  | dot8I4 (d a b : Opnd)
  /-- `ld.b` (R137): Loads a zero-extended byte from the shared store -/
  | ldB (d a b : Opnd)
  /-- `ld.bs` (R137): Loads a sign-extended byte -/
  | ldBs (d a b : Opnd)
  /-- `ld.h` (R137): Loads a zero-extended half -/
  | ldH (d a b : Opnd)
  /-- `ld.hs` (R137): Loads a sign-extended half -/
  | ldHs (d a b : Opnd)
  /-- `ld.w` (R137): Loads a word from the shared store -/
  | ldW (d a b : Opnd)
  /-- `ld.d` (R137): Loads two words into consecutive registers -/
  | ldD (d a b : Opnd)
  /-- `ld.q` (R137): Loads four words into consecutive registers -/
  | ldQ (d a b : Opnd)
  /-- `st.b` (R137): Stores a byte to the shared store -/
  | stB (d a b : Opnd)
  /-- `st.h` (R137): Stores a half -/
  | stH (d a b : Opnd)
  /-- `st.w` (R137): Stores a word -/
  | stW (d a b : Opnd)
  /-- `st.d` (R137): Stores two words -/
  | stD (d a b : Opnd)
  /-- `st.q` (R137): Stores four words -/
  | stQ (d a b : Opnd)
  /-- `ldx.w` (R137): Loads a word from the die scratchpad window -/
  | ldxW (d a b : Opnd)
  /-- `ldx.d` (R137): Loads two words from the die scratchpad -/
  | ldxD (d a b : Opnd)
  /-- `stx.w` (R137): Stores a word to the die scratchpad -/
  | stxW (d a b : Opnd)
  /-- `stx.d` (R137): Stores two words to the die scratchpad -/
  | stxD (d a b : Opnd)
  /-- `spill.st` (R121): Pushes one row onto the spill stack -/
  | spillSt (d : Opnd)
  /-- `spill.ld` (R121): Pops one row of the spill stack into a register -/
  | spillLd (d : Opnd)
  /-- `atom.add` (R139): Shared-store atomic add returning the old value -/
  | atomAdd (d a b : Opnd)
  /-- `atom.fadd` (R139): Shared-store atomic F32 add -/
  | atomFadd (d a b : Opnd)
  /-- `atom.min` (R139): Shared-store atomic signed minimum -/
  | atomMin (d a b : Opnd)
  /-- `atom.max` (R139): Shared-store atomic signed maximum -/
  | atomMax (d a b : Opnd)
  /-- `atom.minu` (R139): Shared-store atomic unsigned minimum -/
  | atomMinu (d a b : Opnd)
  /-- `atom.maxu` (R139): Shared-store atomic unsigned maximum -/
  | atomMaxu (d a b : Opnd)
  /-- `atom.and` (R139): Shared-store atomic AND -/
  | atomAnd (d a b : Opnd)
  /-- `atom.or` (R139): Shared-store atomic OR -/
  | atomOr (d a b : Opnd)
  /-- `atom.xor` (R139): Shared-store atomic XOR -/
  | atomXor (d a b : Opnd)
  /-- `atom.xchg` (R139): Shared-store atomic exchange -/
  | atomXchg (d a b : Opnd)
  /-- `atom.cas` (R139): Shared-store atomic compare and swap -/
  | atomCas (d a b : Opnd)
  /-- `atomx.add` (R140): Die-scratchpad atomic add with optional acquire and release -/
  | atomxAdd (d a b : Opnd) (par : AxPar)
  /-- `atomx.xchg` (R140): Die-scratchpad atomic exchange -/
  | atomxXchg (d a b : Opnd) (par : AxPar)
  /-- `atomx.cas` (R140): Die-scratchpad atomic compare and swap -/
  | atomxCas (d a b : Opnd) (par : AxPar)
  /-- `shfl.idx` (R141): Shuffles from an indexed lane within a mask word -/
  | shflIdx (d a b : Opnd)
  /-- `shfl.xor` (R141): Shuffles from lane L XOR k -/
  | shflXor (d a b : Opnd)
  /-- `shfl.up` (R141): Shuffles from lane L minus k -/
  | shflUp (d a b : Opnd)
  /-- `shfl.dn` (R141): Shuffles from lane L plus k -/
  | shflDn (d a b : Opnd)
  /-- `bcast` (R141): Broadcasts one lane's register to all active lanes -/
  | bcast (d a b : Opnd)
  /-- `vote.any` (R142): Writes 1 if any active lane has the predicate set -/
  | voteAny (d a : Opnd)
  /-- `vote.all` (R142): Writes 1 if no active lane has the predicate clear -/
  | voteAll (d a : Opnd)
  /-- `ballot` (R142): Gathers 64 lanes' predicate bits into a uniform register -/
  | ballot (d a b : Opnd)
  /-- `red.add` (R142): Wrapping integer sum over the fixed lane tree -/
  | redAdd (d a : Opnd)
  /-- `red.fadd` (R142): F32 sum over the fixed lane tree -/
  | redFadd (d a : Opnd)
  /-- `red.max` (R142): Signed maximum over the lanes -/
  | redMax (d a : Opnd)
  /-- `red.fmax` (R142): F32 maximum over the lane tree -/
  | redFmax (d a : Opnd)
  /-- `red.fmin` (R142): F32 minimum over the lane tree -/
  | redFmin (d a : Opnd)
  /-- `scan.add` (R143): Inclusive prefix sum over active lanes -/
  | scanAdd (d a : Opnd)
  /-- `fence` (R144): Holds the next clause until earlier local accesses are performed at the scope -/
  | fence (scope : BitVec 3) (acq rel : Bool)
  /-- `bar.init` (R146): Initialises a barrier object with n arrivals -/
  | barInit (a b : Opnd)
  /-- `bar.expect` (R146): Adds expected bytes to a barrier object -/
  | barExpect (a b : Opnd)
  /-- `bar.arrive` (R146): Counts one arrival, optionally dropping a reload, and may flip the phase -/
  | barArrive (a b : Opnd)
  /-- `bar.test` (R147): Reads pending, error and phase of a barrier in one step -/
  | barTest (d a : Opnd)
  /-- `stream.bind` (R148): Binds a stream register to a ring of slots and clears its counters -/
  | streamBind (d a b : Opnd)
  /-- `stream.fill` (R149): Reserves the next issued slot of a stream, waiting for room -/
  | streamFill (d a : Opnd)
  /-- `stream.free` (R149): Frees one popped slot of a stream -/
  | streamFree (d : Opnd)
  /-- `stream.pub` (R149): Marks a filled slot published -/
  | streamPub (d a : Opnd)
  /-- `chan.go` (R160): Starts a copy channel walking a chain of transfer records -/
  | chanGo (n : BitVec 8) (a : Opnd)
  /-- `chan.stop` (R160): Requests a running copy channel to stop after its segment -/
  | chanStop (n : BitVec 8)
  /-- `chan.state` (R161): Reads a channel's current record VA and state -/
  | chanState (n : BitVec 8) (a : Opnd)
  /-- `ring.wait` (R162): Sleeps until a completion slot shows done -/
  | ringWait (a : Opnd)
  /-- `gather` (R153): Reads per-lane memory elements into the shared store through the engine -/
  | gather (d a b : Opnd) (par : XPar)
  /-- `scatter` (R153): Writes per-lane shared-store elements to memory through the engine -/
  | scatter (d a b : Opnd) (par : XPar)
  /-- `ld.blk` (R155): Copies a block from memory into the shared store -/
  | ldBlk (d a b : Opnd) (par : XPar)
  /-- `st.blk` (R155): Copies a block from the shared store to memory or a window -/
  | stBlk (d a b : Opnd) (par : XPar)
  /-- `atom.m` (R154): Performs per-lane atomics in memory at package scope and returns old values -/
  | atomM (d a b : Opnd) (par : XPar)
  /-- `mloop` (R186): Queues a matrix loop of K-steps accumulating into a tile -/
  | mloop (n : BitVec 8) (a : Opnd) (par : MPar)
  /-- `mgloop` (R187): Queues a matrix loop with row-gathered A operands -/
  | mgloop (n : BitVec 8) (a : Opnd) (par : MPar)
  /-- `mzero` (R193): Zeros a tile and its progress once earlier tile instructions allow -/
  | mzero (n : BitVec 8)
  /-- `mload` (R193): Loads a tile from the shared store -/
  | mload (n : BitVec 8) (a b : Opnd)
  /-- `mstore` (R196): Converts a tile and writes its rows to memory or a window -/
  | mstore (n : BitVec 8) (a : Opnd) (par : MPar)
  /-- `mrows` (R192): Reads a tile's progress register -/
  | mrows (d a : Opnd)
  /-- `solicit` (R314): Takes a census slot and broadcasts a key to the context's cores in scope -/
  | solicit (a : Opnd) (rel : Bool)
  /-- `respond` (R319): Sends a responder's answer words with a release -/
  | respond (a : Opnd)
  /-- `tile.put` (R310): Enters a tile under a key in the core's stall directory -/
  | tilePut (d a : Opnd)
  /-- `tile.drop` (R311): Drops a directory entry, waiting for its responders and stubs -/
  | tileDrop (a : Opnd)
  /-- `tile.move` (R312): Starts an asynchronous move of a tile to another core -/
  | tileMove (a b : Opnd)
  /-- `seq.add` (R290): Adds to a sequence counter, immediately or deferred to the commit -/
  | seqAdd (a b : Opnd) (par : SeqPar)
  /-- `seq.rd` (R290): Reads a sequence counter into the shared store -/
  | seqRd (d a b : Opnd)
  /-- `rec.pop` (R293): Joins a record queue's pending pops to receive one record -/
  | recPop (d a b : Opnd)
  /-- `rec.push` (R293): Reserves and writes one record into a record queue -/
  | recPush (d a b : Opnd)
  /-- `port.wr` (R156): Sends one posted write to a device address through a port -/
  | portWr (d a : Opnd) (par : XPar)
  /-- `fence.m` (R144): Orders the team's later async reads or writes after earlier ones -/
  | fenceM (scope : BitVec 3) (acq rel : Bool)
  /-- `plot.warm` (R237): Hints the controllers to start waking the plot of a VA -/
  | plotWarm (a : Opnd)
  /-- `scrub` (R241): Privileged scrub of a plot range, correcting and reporting units -/
  | scrub (d a b : Opnd)
  /-- `csr.rd` (R261): Reads a CSR into a uniform register -/
  | csrRd (d : Opnd) (addr : BitVec 12)
  /-- `csr.wr` (R261): Writes the RW fields of a CSR -/
  | csrWr (d : Opnd) (addr : BitVec 12)
  /-- `csr.set` (R261): ORs bits into the RW fields of a CSR in one step -/
  | csrSet (d : Opnd) (addr : BitVec 12)
  /-- `csr.clr` (R261): Clears bits of the RW fields of a CSR in one step -/
  | csrClr (d : Opnd) (addr : BitVec 12)
  /-- `tstamp` (R176): Reads the package timestamp -/
  | tstamp (d : Opnd)
  /-- `cede` (R255): Moves allowance from the issuing core to another core of the context -/
  | cede (a b : Opnd)
  /-- `BWPHASE_WRITE` (R233): A write of bwphase is adopted by every controller for the whole context, changing the bandwidth level -/
  | bwphaseWrite (c : Nat)
  /-- `TWORD_READ` (R269): A read of tword returns a side-buffer word and advances tslot -/
  | twordRead (d : Opnd)
  /-- `TRBASE_WRITE` (R169): A write of trbase sets the trace ring and restarts the trhead count -/
  | trbaseWrite (d : Opnd)
  /-- `BARREL_ISSUE` (R13): Each clk the core issues from the team owning the current barrel position, if it has a ready split -/
  | barrelIssue (k : Nat)
  /-- `CLAUSE_WAITS_SATISFIED` (R31): A clause held on ldw, stv or xw issues once all its waits hold -/
  | clauseWaitsSatisfied (k t p : Nat)
  /-- `LOC_WRITEBACK` (R32): A register-writing LOC word writes back its result -/
  | locWriteback (k t p i : Nat) (lanes : BitVec 1024)
  /-- `POSITION_REASSIGN` (R15): At the start of the rotation after a placement or retire, positions are reassigned to placed teams -/
  | positionReassign (k : Nat)
  /-- `RESPONDER_POOL_ENABLE` (R14): The resident kernel reserves positions 14-15 and 32 KiB on each core of a context -/
  | responderPoolEnable (c : Nat)
  /-- `RESPONDER_POOL_DISABLE` (R14): The resident kernel removes a context's responder pool and its hold -/
  | responderPoolDisable (c : Nat)
  /-- `CALENDAR_SLOT_SERVE` (R19): A shared unit serves the owner's, else the gleaner's, request in each calendar slot -/
  | calendarSlotServe (u slot : Nat)
  /-- `CREW_PLACE` (R102): The scheduler places a crew on the lowest-indexed core with room, reserving and zeroing its resources -/
  | crewPlace (c n back : Nat)
  /-- `CREW_RETIRE` (R105): Once all teams retired and shared-store writes completed, the crew's shared store is freed -/
  | crewRetire (k r : Nat)
  /-- `PHASE_RECORD_WRITE` (R123): A Phasing team whose last async operation completed writes its phase record into a free pool record and retires -/
  | phaseRecordWrite (k t : Nat)
  /-- `CLAIM_GRANTED` (R118): A claim waiting for resources completes when they free and admission passes -/
  | claimGranted (k t p : Nat)
  /-- `RK_RESUME_TEAM` (R104): The resident kernel resumes a Held team -/
  | rkResumeTeam (k t : Nat)
  /-- `RK_RETIRE_TEAM` (R266): The resident kernel logs the fault, retires the team and replays or ends its work -/
  | rkRetireTeam (k t : Nat)
  /-- `SYS_REPLY` (R130): The resident kernel's reply writes the service registers and wakes the split -/
  | sysReply (k t p : Nat) (known : Bool) (r0 r1 r2 r3 : BitVec 64)
  /-- `ISSUE_HOLD_RELEASE` (R151): A split held at issue by an engine or resource limit issues once the limit frees -/
  | issueHoldRelease (k t p : Nat)
  /-- `GATHER_PACKET_DELIVER` (R153): A read packet's data is placed in local memory and subtracted from the barrier -/
  | gatherPacketDeliver (k x i : Nat)
  /-- `WRITE_ACKNOWLEDGE` (R152): Memory or a port acknowledges written bytes, which leave the barrier and the estimate -/
  | writeAcknowledge (k x i : Nat)
  /-- `ATOM_M_PERFORM` (R154): The engine performs a lane's atomic and writes back the old value -/
  | atomMPerform (k x lane : Nat)
  /-- `BLK_SEGMENT_COMPLETE` (R155): A 4 KiB segment of a block transfer completes -/
  | blkSegmentComplete (k x i : Nat)
  /-- `PORT_WR_SENT` (R156): The port's transmit engine sends the posted write -/
  | portWrSent (k x : Nat)
  /-- `ASYNC_PART_FAIL` (R151): A lane, segment or access fails; its bytes are subtracted, error set and the side buffer updated -/
  | asyncPartFail (k x i : Nat)
  /-- `WAIT_WAKE` (R124): A split sleeping on a barrier wakes when it shows the phase, taking source lost if error is set -/
  | waitWake (k t p : Nat)
  /-- `STREAM_WAIT_RELEASE` (R149): A pop or stream.fill waiting on a stream proceeds once a slot is available -/
  | streamWaitRelease (k t p : Nat)
  /-- `CHAN_RECORD_START` (R159): A channel reads and checks the next transfer record of its chain -/
  | chanRecordStart (k ch : Nat)
  /-- `CHAN_SEGMENT_ACK` (R159): A copy segment is acknowledged within the copy window -/
  | chanSegmentAck (k ch : Nat)
  /-- `CHAN_STOP_DONE` (R160): A stopping channel's last segment is acknowledged and it goes idle -/
  | chanStopDone (k ch : Nat)
  /-- `CHAN_RECORD_UNREADABLE` (R348): A record or completion write fails without recovery; the channel idles and logs a fault -/
  | chanRecordUnreadable (k ch : Nat)
  /-- `RING_WAIT_RECHECK` (R162): A write to a watched completion slot re-reads it and may wake the split -/
  | ringWaitRecheck (k t p : Nat)
  /-- `MLOOP_START` (R190): The matrix unit begins performing the oldest held loop -/
  | mloopStart (k : Nat)
  /-- `MLOOP_ROW_GROUP_COMMIT` (R186): A row group of a K-step commits indivisibly and advances the progress register -/
  | mloopRowGroupCommit (k : Nat)
  /-- `MLOOP_PAGE_FAULT` (R191): A loop meeting a recoverable fault leaves the unit at its progress -/
  | mloopPageFault (k : Nat)
  /-- `MLOOP_FAILURE` (R191): An unrecoverable failure completes the loop with err set -/
  | mloopFailure (k : Nat)
  /-- `MSTORE_ROW_ACK` (R196): A converted tile row is written and acknowledged -/
  | mstoreRowAck (k x : Nat)
  /-- `MSTORE_ROW_FAIL` (R198): A row fails; its bytes are subtracted and err set -/
  | mstoreRowFail (k x : Nat)
  /-- `PAGE_MAP` (R219): The resident kernel writes a valid leaf and held operations translate again -/
  | pageMap (c va level : Nat) (entry : BitVec 64)
  /-- `PAGE_FAULT_REFUSE` (R225): The resident kernel refuses a fault and held operations fail unrecoverably -/
  | pageFaultRefuse (c va : Nat)
  /-- `PAGE_PIN` (R219): The resident kernel sets pin on a page -/
  | pagePin (c va : Nat)
  /-- `PAGE_UNPIN` (R219): The resident kernel clears pin with an invalidation -/
  | pageUnpin (c va : Nat)
  /-- `LEAF_CHANGE` (R224): The resident kernel clears or changes an entry and starts its invalidation -/
  | leafChange (c va level : Nat) (entry : BitVec 64)
  /-- `INVALIDATION_COMPLETE` (R224): No cache holds the old entry and all work under it is performed -/
  | invalidationComplete (c va : Nat)
  /-- `PLOT_ALLOCATE` (R231): The first page allocated in an Off plot powers it up -/
  | plotAllocate (c plot : Nat)
  /-- `PLOT_WAKE_COMPLETE` (R231): A Waking plot becomes Warm and serves held requests in order -/
  | plotWakeComplete (plot : Nat)
  /-- `PLOT_RETENTION_ENTRY` (R232): A Warm plot idle for 200 us with no pin or objecting context enters retention -/
  | plotRetentionEntry (plot : Nat)
  /-- `PLOT_POWER_DOWN` (R231): Freeing a plot's last page powers it off -/
  | plotPowerDown (c plot : Nat)
  /-- `PSEUDO_CHANNEL_FAIL` (R240): A pseudo-channel fails and its group runs degraded -/
  | pseudoChannelFail (ch : Nat)
  /-- `ROW_MITIGATION` (R243): An activation count reaches the threshold and neighbours are refreshed in the VF's slots -/
  | rowMitigation (row fn : Nat)
  /-- `ROW_THROTTLE_START` (R243): The throttle threshold limits a VF's activations of the row -/
  | rowThrottleStart (row fn : Nat)
  /-- `ROW_THROTTLE_END` (R243): The refresh window ends and the throttle lifts -/
  | rowThrottleEnd (row fn : Nat)
  /-- `DEFERRED_MITIGATION_RUN` (R243): Mitigations deferred during a vacate run in the VF's slots -/
  | deferredMitigationRun (fn : Nat)
  /-- `CONTEXT_START` (R245): A Created context with record, allowances and warm pins gets its cores and runs -/
  | contextStart (c : Nat)
  /-- `PREEMPT_SOFT` (R245): A pre-emption with soft deadline stops placement and lets phasing teams leave -/
  | preemptSoft (c : Nat) (d : BitVec 64)
  /-- `PREEMPT_HARD` (R257): The hard stage stops issue, abandons free work, finishes costed work and saves -/
  | preemptHard (c : Nat)
  /-- `SOFT_DEADLINE_EXPIRE` (R259): The soft deadline expires and the hard stage begins -/
  | softDeadlineExpire (c : Nat)
  /-- `YIELDING_EMPTY` (R245): No team remains on a Yielding context's cores and the hard stage begins -/
  | yieldingEmpty (c : Nat)
  /-- `PREEMPT_AGAIN` (R245): A second pre-emption shortens the soft stage -/
  | preemptAgain (c : Nat) (d : BitVec 64)
  /-- `VACATE_COMPLETE` (R260): The last core is released and vtime recorded; the context is Saved -/
  | vacateComplete (c : Nat)
  /-- `SAVE_FAILURE` (R260): A hardware failure stops the save; the context is spoiled -/
  | saveFailure (c : Nat)
  /-- `CONTEXT_RESTORE` (R258): Restore places the saved state back on the same cores -/
  | contextRestore (c : Nat)
  /-- `RESTORE_COMPLETE` (R258): The last core resumes issue and the context runs -/
  | restoreComplete (c : Nat)
  /-- `CONTEXT_DESTROY` (R245): The hypervisor destroys a context, resetting cores and returning pages -/
  | contextDestroy (c : Nat)
  /-- `ALLOWANCE_WRITE` (R247): The resident kernel sets a core's allowance under the bound sum -/
  | allowanceWrite (c k a : Nat)
  /-- `CEDE_CREDIT_ARRIVE` (R255): A ceded credit arrives and raises the target's allowance -/
  | cedeCreditArrive (c src dst : Nat)
  /-- `ADMISSION_RETEST` (R253): A change of E, H or A retests and admits stalled costed instructions in order -/
  | admissionRetest (k : Nat)
  /-- `RK_HEARTBEAT_TIMEOUT` (R276): Three missed heartbeats declare the resident kernel crashed and freeze contexts -/
  | rkHeartbeatTimeout
  /-- `RK_SYSTEM_CORE_FAULT` (R276): A fault on a system core declares the resident kernel crashed -/
  | rkSystemCoreFault
  /-- `RK_READOPT` (R277): The warm-rebooted kernel re-adopts a context and resumes issue -/
  | rkReadopt (c : Nat)
  /-- `READOPT_FAIL` (R277): A context that cannot be re-adopted is spoiled with 0x0311 -/
  | readoptFail (c : Nat)
  /-- `WARM_REBOOT_FAIL` (R277): A warm reboot fails; after three the part is reported and contexts stay Frozen -/
  | warmRebootFail
  /-- `PART_RESET` (R277): A reset of the part spoils every context not Saved -/
  | partReset
  /-- `KLOAD_LOAD` (R284): Loads an image, pins sections and pool, and queues its crews -/
  | kloadLoad (fn q tid : Nat)
  /-- `KLOAD_UNLOAD` (R284): Disarms bindings, frees waiting records and closes the kernel -/
  | kloadUnload (fn q : Nat)
  /-- `KERNEL_CLOSE_COMPLETE` (R284): A Closing kernel's last team retires and its pool is unpinned -/
  | kernelCloseComplete (c n : Nat)
  /-- `KERNEL_END_AFTER_FAULT` (R284): The resident kernel ends a kernel after a fault, retiring teams and freeing records -/
  | kernelEndAfterFault (c n : Nat)
  /-- `PHASE_PLACE` (R285): A Ready phase record is placed as a one-team crew in ready order -/
  | phasePlace (c n back : Nat)
  /-- `PHASE_COMMIT` (R291): A Writing record is acknowledged; deferred adds become due and the source is freed -/
  | phaseCommit (c n r : Nat)
  /-- `SEQ_ADD_PERFORM` (R288): A counter add is performed, saturating, and Waiting records are re-evaluated -/
  | seqAddPerform (k x : Nat)
  /-- `DEFERRED_ADD_PERFORM` (R291): A committed deferred add is performed on its counter -/
  | deferredAddPerform (c n r i : Nat)
  /-- `DEFERRED_ADD_DROP` (R291): A deferred add whose page fails is dropped and logged -/
  | deferredAddDrop (c n r i : Nat)
  /-- `SEQ_RD_COMPLETE` (R290): A counter value is placed in the shared store and subtracted -/
  | seqRdComplete (k x : Nat)
  /-- `REC_PUSH_ENGINE_ANSWER` (R293): The queue engine answers a push, reserving a slot or refusing on overflow -/
  | recPushEngineAnswer (k t p : Nat)
  /-- `REC_PUSH_ACK` (R293): A pushed record is acknowledged and pub advances -/
  | recPushAck (k x : Nat)
  /-- `REC_POP_PLACE` (R293): A published record is placed for a pending pop and head advances -/
  | recPopPlace (k x : Nat)
  /-- `DOORBELL_WRITE` (R297): A 32-bit doorbell write sets a queue's tail or breaks it on overrun -/
  | doorbellWrite (fn q : Nat) (tail : BitVec 32)
  /-- `QUEUE_SLOT_GRANT` (R298): An eligible Unmapped queue is given a lane and fetch resumes -/
  | queueSlotGrant (fn q lane : Nat)
  /-- `QUEUE_UNMAP` (R299): A queue is closed, its packet settled and its lane freed -/
  | queueUnmap (fn q : Nat)
  /-- `QUEUE_FAULT_MAPPED` (R298): The resident kernel maps the faulted ring page and the queue becomes eligible -/
  | queueFaultMapped (fn q : Nat)
  /-- `QUEUE_FAULT_REFUSED` (R298): The resident kernel refuses the ring page and the queue is Broken -/
  | queueFaultRefused (fn q : Nat)
  /-- `QUEUE_DELETE` (R298): The resident kernel deletes a queue -/
  | queueDelete (fn q : Nat)
  /-- `FRONT_END_SWEEP` (R303): A firmware core fetches and dispatches the head packets of its lanes -/
  | frontEndSweep (fc : Nat)
  /-- `NOP_PACKET` (R300): Completes with no effect -/
  | nopPacket (fn q : Nat)
  /-- `APPEND` (R300): Acquires, then writes and publishes n records into a record queue, all or none -/
  | append (fn q : Nat)
  /-- `SIGNAL` (R300): Acquires, then adds to a sequence counter with a release -/
  | signal (fn q : Nat)
  /-- `WAITSEQ` (R300): Waits for a counter to reach a threshold -/
  | waitseq (fn q : Nat)
  /-- `WAITSEQ_SATISFIED` (R300): The counter reaches the threshold and WAITSEQ completes with an acquire -/
  | waitseqSatisfied (fn q : Nat)
  /-- `COPY` (R300): Starts a hub-die copy in the VF's slots -/
  | copy (fn q : Nat)
  /-- `COPY_COMPLETE` (R300): The hub copy finishes and its completion entry is written -/
  | copyComplete (fn q : Nat)
  /-- `RELEASE` (R300): Releases at port scope and writes the timestamp to a word -/
  | release (fn q : Nat)
  /-- `ACQUIRE` (R300): Performs earlier port-arrived writes at package scope -/
  | acquire (fn q : Nat)
  /-- `TSTAMP_PACKET` (R300): Writes the timestamp at packet start to a word -/
  | tstampPacket (fn q : Nat)
  /-- `SCRUB_PACKET` (R302): Privileged packet performing a scrub -/
  | scrubPacket (fn q : Nat)
  /-- `UNKNOWN_PACKET` (R300): An undefined opcode completes with status 7 -/
  | unknownPacket (fn q : Nat)
  /-- `CTXOP_CREATE` (R302): Creates a context from its record -/
  | ctxopCreate (fn q : Nat)
  /-- `CTXOP_PREEMPT` (R302): Pre-empts a context with a soft deadline and unmaps its queues -/
  | ctxopPreempt (fn q : Nat)
  /-- `CTXOP_RESTORE` (R302): Restores a Saved context -/
  | ctxopRestore (fn q : Nat)
  /-- `CTXOP_DESTROY` (R302): Destroys a context -/
  | ctxopDestroy (fn q : Nat)
  /-- `CTXOP_SET_DRAINING` (R306): Sets a context draining and marks acc in its queues -/
  | ctxopSetDraining (fn q : Nat)
  /-- `CTXOP_CLEAR_DRAINING` (R306): Clears a context's draining flag -/
  | ctxopClearDraining (fn q : Nat)
  /-- `ARBITRATION_PERIOD_BOUNDARY` (R305): At a VF's period boundary its slots are reassigned -/
  | arbitrationPeriodBoundary (fn : Nat)
  /-- `VF_SLOT_CONFIG` (R305): The hypervisor sets a VF's queue slots and period -/
  | vfSlotConfig (fn m : Nat) (share : VfShare)
  /-- `WAKE_FILTER_WRITE` (R307): The management core writes the network wake filter -/
  | wakeFilterWrite (i : Nat) (bytes : List (BitVec 8))
  /-- `WAKE_FRAME_MATCH` (R307): A frame matching the filter while gated restores a system core -/
  | wakeFrameMatch (port : Nat) (frame : List (BitVec 8))
  /-- `SOLICIT_DIRECTORY_PASS` (R316): A solicit passes a core's directory, counting and accepting or forwarding matches -/
  | solicitDirectoryPass (c i k : Nat)
  /-- `SOLICIT_FORWARD_ARRIVE` (R316): A forward from a stub reaches its target entry -/
  | solicitForwardArrive (c j : Nat)
  /-- `RESPONDER_SPAWN` (R318): A queued match spawns a responder team at a free pool position -/
  | responderSpawn (k pos : Nat)
  /-- `COMBINE_NODE` (R323): A combining node whose subtree is answered combines its children -/
  | combineNode (c i level node : Nat)
  /-- `CENSUS_COMPLETE` (R324): Answers equal counts; the result is written, the slot retired, C removed and the barrier subtracted -/
  | censusComplete (c i : Nat)
  /-- `CENSUS_SLOT_RETIRE_ARRIVE` (R320): A slot retire reaches a directory, clearing answered bits and freeing stubs -/
  | censusSlotRetireArrive (c i k : Nat)
  /-- `TILE_MOVE_COMMIT` (R312): After the copy and accepted answers, source becomes stub and target resident -/
  | tileMoveCommit (k x : Nat)
  /-- `TILE_MOVE_FAIL` (R312): A move without a target region or entry returns the source to resident with error -/
  | tileMoveFail (k x : Nat)
  /-- `TILE_DROP_COMPLETE` (R311): A dropping entry with no responders or forwarding stubs becomes Free -/
  | tileDropComplete (k t p : Nat)
  /-- `LINK_ENABLE` (R330): Reset release or ZMI enable starts link training -/
  | linkEnable (l : Nat)
  /-- `LINK_TRAINED_FULL` (R330): A link trains at full width and is Up -/
  | linkTrainedFull (l : Nat)
  /-- `LINK_TRAINED_HALF` (R330): A link trains at half width and is Degraded -/
  | linkTrainedHalf (l : Nat)
  /-- `LINK_TRAINING_TIMEOUT` (R330): Training fails within 100 ms and the link is Failed -/
  | linkTrainingTimeout (l : Nat)
  /-- `LINK_ERROR_RETRAIN` (R330): Excess CRC replays or a lost lane start retraining with requests held -/
  | linkErrorRetrain (l : Nat)
  /-- `EXPANDER_COMPLETION_TIMEOUT` (R274): An expander completion exceeds 10 ms; outstanding parts fail and the link retrains -/
  | expanderCompletionTimeout
  /-- `LINK_RETRAINED` (R330): Retraining succeeds and held requests resume -/
  | linkRetrained (l : Nat) (half : Bool)
  /-- `LINK_RETRAIN_TIMEOUT` (R330): Retraining fails in 10 ms or repeats thrice in 1 s; the link is Failed -/
  | linkRetrainTimeout (l : Nat)
  /-- `LINK_DISABLE` (R330): ZMI disables the link or the partner resets it; outstanding parts fail -/
  | linkDisable (l : Nat)
  /-- `FLIT_CRC_REPLAY` (R338): A chip-link flit failing CRC is replayed from the replay buffer -/
  | flitCrcReplay (l : Nat)
  /-- `PORT_READ_FAIL` (R333): A port read completes in error or times out and the part fails as source lost -/
  | portReadFail (k x i : Nat)
  /-- `BAR2_BIND` (R336): The resident kernel binds a VF's BAR2 to a context and window base -/
  | bar2Bind (fn c wbase : Nat)
  /-- `BAR2_POSTED_WRITE` (R336): A host or peer posted write through BAR2 is translated and performed in arrival order -/
  | bar2PostedWrite (fn off : Nat) (bytes : List (BitVec 8))
  /-- `BAR2_READ` (R336): A host or peer read through BAR2 is served or completes with Unsupported Request -/
  | bar2Read (fn off len : Nat)
  /-- `PEER_ACCESS_ARRIVE` (R338): A kind-2 peer read or write arrives and is translated in the bound context -/
  | peerAccessArrive (l rctx c va len : Nat) (write : Bool) (bytes : List (BitVec 8))
  /-- `QP_DOORBELL` (R340): A forwarded doorbell word rings a queue pair's send and receive tails -/
  | qpDoorbell (port qp : Nat)
  /-- `SEND` (R340): Send entry op 0: RDMA SEND -/
  | send (port qp : Nat)
  /-- `SEND_WITH_IMMEDIATE` (R340): Send entry op 1: SEND with immediate data -/
  | sendWithImmediate (port qp : Nat)
  /-- `RDMA_WRITE` (R340): Send entry op 2: RDMA WRITE -/
  | rdmaWrite (port qp : Nat)
  /-- `RDMA_WRITE_WITH_IMMEDIATE` (R340): Send entry op 3: RDMA WRITE with immediate -/
  | rdmaWriteWithImmediate (port qp : Nat)
  /-- `RDMA_READ` (R340): Send entry op 4: RDMA READ -/
  | rdmaRead (port qp : Nat)
  /-- `SEND_ENTRY_BAD_OP` (R340): A send entry with op 5-255 completes with status 1 -/
  | sendEntryBadOp (port qp : Nat)
  /-- `INCOMING_RDMA_ACCESS` (R339): An incoming RDMA access is checked against its region and performed or NAKed -/
  | incomingRdmaAccess (port key va len : Nat) (write : Bool) (bytes : List (BitVec 8))
  /-- `RECEIVE_CONSUME` (R341): An incoming request consumes a receive entry and writes a completion -/
  | receiveConsume (port qp op : Nat) (imm : BitVec 32) (bytes : List (BitVec 8))
  /-- `QP_RETRIES_EXHAUSTED` (R341): A queue pair runs out of retries and flushes its entries with status 4 -/
  | qpRetriesExhausted (port qp : Nat)
  /-- `GET_VERSION` (R343): SPDM request answered by the responder -/
  | getVersion
  /-- `GET_CAPABILITIES` (R343): SPDM capabilities request -/
  | getCapabilities
  /-- `NEGOTIATE_ALGORITHMS` (R343): SPDM algorithm negotiation offering the brainpoolP384r1 ExtAsym entry -/
  | negotiateAlgorithms (offered : Bool)
  /-- `GET_DIGESTS` (R343): SPDM certificate digests request -/
  | getDigests
  /-- `GET_CERTIFICATE` (R343): SPDM certificate chain request -/
  | getCertificate (slot : Nat)
  /-- `CHALLENGE` (R343): SPDM signed challenge, or ERROR without a shared algorithm -/
  | challenge
  /-- `GET_MEASUREMENTS` (R343): SPDM measurement request, signed or unsigned -/
  | getMeasurements (signed : Bool)
  /-- `KEY_EXCHANGE` (R343): SPDM session key exchange -/
  | keyExchange
  /-- `FINISH` (R343): SPDM session finish -/
  | finish
  /-- `KEY_UPDATE` (R343): SPDM session key update -/
  | keyUpdate
  /-- `HEARTBEAT` (R343): SPDM session heartbeat -/
  | heartbeat
  /-- `END_SESSION` (R343): SPDM session end -/
  | endSession
  /-- `MEASUREMENT_EXTEND` (R343): A measurement slot is extended with a component's hash -/
  | measurementExtend (i : Nat) (component : List (BitVec 8))
  /-- `ZMI_READ_TOPOLOGY` (R344): Returns the topology snapshot -/
  | zmiReadTopology
  /-- `ZMI_READ_HEALTH` (R344): Returns the health snapshot -/
  | zmiReadHealth
  /-- `ZMI_SET_DRAINING` (R306): Sets one context draining and marks its queues -/
  | zmiSetDraining (c : Nat)
  /-- `ZMI_CLEAR_DRAINING` (R306): Clears one context's draining flag -/
  | zmiClearDraining (c : Nat)
  /-- `ZMI_SET_PART_DRAINING` (R344): Sets every present and later context draining -/
  | zmiSetPartDraining
  /-- `ZMI_READ_FAULT_LOG` (R344): Returns fault-log entries with grades -/
  | zmiReadFaultLog (c : Nat)
  /-- `ZMI_READ_PLOT_MAP` (R344): Returns every plot's state for every VF -/
  | zmiReadPlotMap
  /-- `ZMI_READ_VACATE_AUDIT` (R344): Returns B, vtime, vmax and vcount per context -/
  | zmiReadVacateAudit
  /-- `ZMI_READ_UNIT_COUNTERS` (R344): Returns shared-unit counters -/
  | zmiReadUnitCounters
  /-- `ZMI_READ_RD_THRESHOLDS` (R344): Returns the row-disturbance thresholds -/
  | zmiReadRdThresholds
  /-- `ZMI_SNAPSHOT_REFRESH` (R344): The management core refreshes the ZMI snapshots every 10 ms -/
  | zmiSnapshotRefresh
  /-- `DEBUGGER_STOP_REQUEST` (R165): A debugger stop request stops the team precisely after writebacks -/
  | debuggerStopRequest (k t : Nat)
  /-- `CONTEXT_WIDE_STOP` (R167): With dbgctl.all every team of the context stops within one rotation -/
  | contextWideStop (c : Nat)
  /-- `DEBUGGER_RESUME` (R167): The debugger resumes a stopped team -/
  | debuggerResume (k t : Nat)
  /-- `DEBUGGER_SINGLE_STEP` (R167): Issues exactly one word of the named split and stops again -/
  | debuggerSingleStep (k t p : Nat)
  /-- `DEBUGGER_WRITE` (R165): The debugger writes a register, byte or CSR of a stopped team -/
  | debuggerWrite (k t : Nat) (target : DbgTarget) (value : BitVec 64)
  /-- `BREAKPOINT_PROGRAM` (R168): The debugger programs a code comparator through the resident kernel -/
  | breakpointProgram (k i : Nat) (va : BitVec 64)
  /-- `DEBUGGER_DETACH` (R281): Clears att and comparators and resumes stopped teams -/
  | debuggerDetach (c : Nat)
  /-- `DEBUGGER_ATTACH` (R281): Sets att in the context's teams with no comparators -/
  | debuggerAttach (c : Nat)
  /-- `TRACE_WRITE_FAULT` (R172): A faulting trace-record write is dropped, counted and disables the ring -/
  | traceWriteFault (k : Nat)
  /-- `QUEUE_REGISTER` (R296): The resident kernel registers a queue descriptor, pinning it and its completion ring, so the queue exists Unmapped -/
  | queueRegister (fn q c desc : Nat)
  /-- `RECORD_QUEUE_REGISTER` (R292): The resident kernel registers a record-queue descriptor and ring and writes its RW fields, arming or disarming a launch binding -/
  | recordQueueRegister (c desc : Nat)
  /-- `PORT_TABLE_WRITE` (R332): The resident kernel writes an entry of a context's port table through its privileged interface -/
  | portTableWrite (c i : Nat) (w0 w1 : BitVec 64)
  /-- `MEMORY_REGION_REGISTER` (R339): The resident kernel registers a network memory region and its key for one context -/
  | memoryRegionRegister (port key c va len : Nat) (r w : Bool)
  /-- `QUEUE_PAIR_SETUP` (R340): The resident kernel gives a queue pair its send, receive and completion rings and doorbell word -/
  | queuePairSetup (port qp c sring ssize rring rsize cring csize db : Nat)
  /-- `SEND_ENTRY_COMPLETE` (R341): The remote side's acknowledgement, read response or NAK arrives and the send entry completes with its completion entry -/
  | sendEntryComplete (port qp status : Nat) (bytes : List (BitVec 8))
  /-- `CORE_GATING` (R307): The management core gates every system, firmware and management core, leaving the network ports matching frames against the wake filter -/
  | coreGating
  deriving DecidableEq, Repr

end Sys2Proof
end

