-- ==== Sys2Proof/WellFormed.lean ====
section
/-! DEFINITION. Well-formed instructions: every operand is of a kind its field admits (02 R41, 05 R79, R80, and each
form's own rule), every number field lies in its limits (03 R58), every parameter word keeps its limits (R38). A
decoded instruction that is not well-formed raises class 0x0, illegal operand (03 R60). Rows without an encoding have
no such limits. -/

namespace Sys2Proof

namespace Opnd
def isV : Opnd → Bool | .v _ => true | _ => false
def isS : Opnd → Bool | .s _ => true | _ => false
def isP : Opnd → Bool | .p _ => true | _ => false
def isQ : Opnd → Bool | .q _ => true | _ => false
/-- `v` or `s`: the spill forms (R121). -/
def isVS (o : Opnd) : Bool := o.isV || o.isS
/-- A uniform source, the UNI column of R79. -/
def isUni : Opnd → Bool
  | .s _ | .k _ | .lit _ | .lanes | .role | .team | .core | .replay => true
  | _ => false
/-- A uniform source of LOC and ASY words: also a popped stream (R41, R135). -/
def isUniQ (o : Opnd) : Bool := o.isUni || o.isQ
/-- A source of LANE words and a LOC index (R79, R135). -/
def isLane (o : Opnd) : Bool := o.isUniQ || o.isV || o == .lane
/-- A source of FLT words (R79). -/
def isFlt (o : Opnd) : Bool := o.isUni || o.isV || o == .lane
/-- The stored value of `st.*` and `stx.*` (R137), a source of a LOC word (R58, R41). -/
def isStored (o : Opnd) : Bool := o.isLane
/-- The tested value of `bz` and `bnz`: a predicate, or a source of the UNI column (R58, R116). -/
def isTest (o : Opnd) : Bool := o.isP || o.isUni
/-- An `s` register numbered at most `m`, the start of a run of registers (R130, R189, R310, R312, R314, R241). -/
def isRun (m : Nat) : Opnd → Bool
  | .s n => n.val ≤ m
  | _ => false
end Opnd

/-- The table count of `jtab` (R58), less 0xDF, which R37 refuses where D is a plain number. -/
def tableCount (n : BitVec 8) : Bool := 1 ≤ n.toNat && n != 0xDF
/-- A number field of an RI word with its limits (R58). -/
def count (n : BitVec 16) (lo hi : Nat) : Bool := lo ≤ n.toNat && n.toNat ≤ hi
/-- The mode byte of `fcvt` (R96). -/
def fcvtMode (m : BitVec 8) : Bool :=
  !m.getLsbD 7 && (!m.getLsbD 4 || m.extractLsb' 0 3 == 0)
/-- The number of elements of a register in each format code of R96 (R71). -/
def elems (fmt : BitVec 3) : Nat :=
  if fmt == 0 || fmt == 1 then 2 else if fmt == 4 || fmt == 6 then 8 else 4
/-- The mode byte of `fpack` (R97). -/
def fpackMode (m : BitVec 8) : Bool := (m.extractLsb' 5 3).toNat < elems (m.extractLsb' 0 3)
/-- The mode byte of `funpack` (R97). -/
def funpackMode (m : BitVec 8) : Bool := fpackMode m && m.extractLsb' 3 2 == 0
/-- The order field of `fence` and `fence.m` (R58, R17). -/
def fenceField (scope : BitVec 3) (acq rel : Bool) : Bool := scope != 7 && (acq || rel)
/-- A scope field beside its flags (R17, R150): never 7, and 0 when no flag is set. -/
def scopeField (scope : BitVec 3) (flag : Bool) : Bool := scope != 7 && (flag || scope == 0)

/-- A CSR address that a `csr.rd` may name: defined (R62), or privileged, which R59 judges. -/
def csrReadable (a : BitVec 12) : Bool :=
  let n := a.toNat
  n ≤ 0x003 || (0x010 ≤ n && n ≤ 0x016) || (0x018 ≤ n && n ≤ 0x01D) || (0x020 ≤ n && n ≤ 0x024) ||
    (0x030 ≤ n && n ≤ 0x035) || n == 0x03E || (0x040 ≤ n && n ≤ 0x047) || (0x060 ≤ n && n ≤ 0x067) ||
    (0x080 ≤ n && n ≤ 0x083) || 0x800 ≤ n
/-- A CSR address that `csr.wr`, `csr.set` and `csr.clr` may name: one with a writable field (R62). -/
def csrWritable (a : BitVec 12) : Bool :=
  let n := a.toNat
  n == 0x014 || n == 0x020 || n == 0x023 || n == 0x030 || n == 0x032 || n == 0x033 || n == 0x03E ||
    n == 0x040 || n == 0x041 || n == 0x042 || n == 0x044 || n == 0x046 || n == 0x047 ||
    (0x060 ≤ n && n ≤ 0x067) || 0x800 ≤ n

namespace AxPar
def wf (p : AxPar) : Bool := scopeField p.scope (p.acq || p.rel)
end AxPar

namespace XPar
/-- Limits that every form shares (R150). DEDUCED: R150 gives bit 22 to every form that takes the parameter word, so `acq` is no
unused field of the forms whose engine reads no memory (scatter, st.blk, port.wr), where it orders nothing. -/
def wfAll (p : XPar) : Bool := scopeField p.scope (p.acq || p.rel) && p.size.toNat ≤ 4
/-- No index fields (the block forms and `port.wr`). -/
def noIndex (p : XPar) : Bool := p.sh == 0 && !p.w32 && !p.sx
/-- [12] pub, [11:9] the stream, which is unused and 0 without pub (R150, R38). -/
def pubField (p : XPar) : Bool := p.po.getLsbD 3 || p.po == 0
def wfGather (p : XPar) : Bool := p.wfAll && p.pubField
def wfScatter (p : XPar) : Bool := p.wfAll && p.po == 0
def size48 (p : XPar) : Bool := p.size == 2 || p.size == 3
def wfAtom (p : XPar) : Bool :=
  p.wfAll && p.size48 && p.po.toNat ≤ 10 && !(p.po == 1 && p.size == 3)
def wfLdBlk (p : XPar) : Bool := p.wfAll && p.size == 0 && p.noIndex && p.pubField
def wfStBlk (p : XPar) : Bool := p.wfAll && p.size == 0 && p.noIndex && p.po == 0
def wfPort (p : XPar) : Bool := p.wfAll && p.size48 && p.noIndex && p.po == 0
end XPar

namespace MPar
def wfStore (p : MPar) : Bool := scopeField p.scope (p.acq || p.rel)
def wfLoop (p : MPar) : Bool := scopeField p.scope p.acq && !p.rel
end MPar

namespace SeqPar
def wf (p : SeqPar) : Bool := scopeField p.scope (p.rel && !p.cmt) && (!p.cmt || p.bar == 0)
end SeqPar

/-- The instruction keeps every limit of its encoding. -/
def Instr.wf : Instr → Bool
  | .nop => true
  | .br _ => true
  | .bz d _ => d.isTest
  | .bnz d _ => d.isTest
  | .brS a => a.isS
  | .bdiv d _ _ => d.isP
  | .jtab n a b _ => tableCount n && a.isV && b.isUni
  | .kill => true
  | .call _ => true
  | .callS a => a.isS
  | .ret => true
  | .yield => true
  | .halt => true
  | .maskGet d a => d.isS && a.isUni
  | .maskAnd a => a.isP
  | .maskSet a b => a.isUni && b.isUni
  | .claimV imm => count imm 1 128
  | .giveV imm => count imm 1 128
  | .claimS imm => count imm 1 64
  | .giveS imm => count imm 1 64
  | .claimA d imm => d.isS && count imm 1 32
  | .giveA imm => count imm 1 32
  | .ready n a b => n.toNat < 4 && a.isUni && b.isUni
  | .phase imm _ => count imm 0 128
  | .wait a b => a.isUni && b.isUni
  | .watch a b => a.isUni && b.isUni
  | .trap _ => true
  | .sys d _ => d.isRun 60
  | .rett => true
  | .brk _ => true
  | .sadd d a b => d.isS && a.isUni && b.isUni
  | .ssub d a b => d.isS && a.isUni && b.isUni
  | .smul d a b => d.isS && a.isUni && b.isUni
  | .smulh d a b => d.isS && a.isUni && b.isUni
  | .smulhu d a b => d.isS && a.isUni && b.isUni
  | .sand d a b => d.isS && a.isUni && b.isUni
  | .sor d a b => d.isS && a.isUni && b.isUni
  | .sxor d a b => d.isS && a.isUni && b.isUni
  | .sandn d a b => d.isS && a.isUni && b.isUni
  | .sshl d a b => d.isS && a.isUni && b.isUni
  | .sshr d a b => d.isS && a.isUni && b.isUni
  | .ssar d a b => d.isS && a.isUni && b.isUni
  | .smin d a b => d.isS && a.isUni && b.isUni
  | .smax d a b => d.isS && a.isUni && b.isUni
  | .sminu d a b => d.isS && a.isUni && b.isUni
  | .smaxu d a b => d.isS && a.isUni && b.isUni
  | .seq d a b => d.isS && a.isUni && b.isUni
  | .sne d a b => d.isS && a.isUni && b.isUni
  | .slt d a b => d.isS && a.isUni && b.isUni
  | .sle d a b => d.isS && a.isUni && b.isUni
  | .sltu d a b => d.isS && a.isUni && b.isUni
  | .sleu d a b => d.isS && a.isUni && b.isUni
  | .scsel d a b => d.isS && a.isUni && b.isUni
  | .smov d a => d.isS && a.isUni
  | .smovi d _ => d.isS
  | .sorhi d _ => d.isS
  | .saddi d _ => d.isS
  | .spopc d a => d.isS && a.isUni
  | .sclz d a => d.isS && a.isUni
  | .sbfe d a b => d.isS && a.isUni && b.isUni
  | .sbfi d a b => d.isS && a.isUni && b.isUni
  | .slane d a b => d.isS && a.isV && b.isUni
  | .vadd d a b => d.isV && a.isLane && b.isLane
  | .vsub d a b => d.isV && a.isLane && b.isLane
  | .vmul d a b => d.isV && a.isLane && b.isLane
  | .vmulh d a b => d.isV && a.isLane && b.isLane
  | .vmulhu d a b => d.isV && a.isLane && b.isLane
  | .vmad d a b => d.isV && a.isLane && b.isLane
  | .vmin d a b => d.isV && a.isLane && b.isLane
  | .vmax d a b => d.isV && a.isLane && b.isLane
  | .vminu d a b => d.isV && a.isLane && b.isLane
  | .vmaxu d a b => d.isV && a.isLane && b.isLane
  | .vabs d a => d.isV && a.isLane
  | .vneg d a => d.isV && a.isLane
  | .vand d a b => d.isV && a.isLane && b.isLane
  | .vor d a b => d.isV && a.isLane && b.isLane
  | .vxor d a b => d.isV && a.isLane && b.isLane
  | .vandn d a b => d.isV && a.isLane && b.isLane
  | .vnot d a => d.isV && a.isLane
  | .vshl d a b => d.isV && a.isLane && b.isLane
  | .vshr d a b => d.isV && a.isLane && b.isLane
  | .vsar d a b => d.isV && a.isLane && b.isLane
  | .vrot d a b => d.isV && a.isLane && b.isLane
  | .vpopc d a => d.isV && a.isLane
  | .vclz d a => d.isV && a.isLane
  | .vbfe d a b => d.isV && a.isLane && b.isLane
  | .vbfes d a b => d.isV && a.isLane && b.isLane
  | .vbfi d a b => d.isV && a.isLane && b.isLane
  | .vmov d a => d.isV && a.isLane
  | .vmovi d _ => d.isV
  | .vorhi d _ => d.isV
  | .vaddi d _ => d.isV
  | .vcmov d a b => d.isV && a.isP && b.isLane
  | .vcmpEq d a b => d.isP && a.isLane && b.isLane
  | .vcmpNe d a b => d.isP && a.isLane && b.isLane
  | .vcmpLt d a b => d.isP && a.isLane && b.isLane
  | .vcmpLe d a b => d.isP && a.isLane && b.isLane
  | .vcmpLtu d a b => d.isP && a.isLane && b.isLane
  | .vcmpLeu d a b => d.isP && a.isLane && b.isLane
  | .pand d a b => d.isP && a.isP && b.isP
  | .por d a b => d.isP && a.isP && b.isP
  | .pxor d a b => d.isP && a.isP && b.isP
  | .pnot d a => d.isP && a.isP
  | .vmulq d a b => d.isV && a.isLane && b.isLane
  | .vrsh d a b => d.isV && a.isLane && b.isLane
  | .vsatI8 d a => d.isV && a.isLane
  | .vsatUb d a => d.isV && a.isLane
  | .vsatI16 d a => d.isV && a.isLane
  | .vprm d a b => d.isV && a.isLane && b.isLane
  | .fadd d a b => d.isV && a.isFlt && b.isFlt
  | .fsub d a b => d.isV && a.isFlt && b.isFlt
  | .fmul d a b => d.isV && a.isFlt && b.isFlt
  | .ffma d a b => d.isV && a.isFlt && b.isFlt
  | .fmin d a b => d.isV && a.isFlt && b.isFlt
  | .fmax d a b => d.isV && a.isFlt && b.isFlt
  | .fabs d a => d.isV && a.isFlt
  | .fneg d a => d.isV && a.isFlt
  | .frcp d a => d.isV && a.isFlt
  | .frsq d a => d.isV && a.isFlt
  | .fsqrt d a => d.isV && a.isFlt
  | .fexp2 d a => d.isV && a.isFlt
  | .flog2 d a => d.isV && a.isFlt
  | .frnd d a => d.isV && a.isFlt
  | .fcmpEq d a b => d.isP && a.isFlt && b.isFlt
  | .fcmpLt d a b => d.isP && a.isFlt && b.isFlt
  | .fcmpLe d a b => d.isP && a.isFlt && b.isFlt
  | .fcmpUn d a b => d.isP && a.isFlt && b.isFlt
  | .fcvt d a mode => d.isV && a.isFlt && fcvtMode mode
  | .fpack d a mode => d.isV && a.isFlt && fpackMode mode
  | .funpack d a mode => d.isV && a.isFlt && funpackMode mode
  | .fscale d a b => d.isV && a.isFlt && b.isFlt
  | .hadd2 d a b => d.isV && a.isFlt && b.isFlt
  | .hmul2 d a b => d.isV && a.isFlt && b.isFlt
  | .hfma2 d a b => d.isV && a.isFlt && b.isFlt
  | .badd2 d a b => d.isV && a.isFlt && b.isFlt
  | .bmul2 d a b => d.isV && a.isFlt && b.isFlt
  | .bfma2 d a b => d.isV && a.isFlt && b.isFlt
  | .dot2F16 d a b => d.isV && a.isFlt && b.isFlt
  | .dot2Bf16 d a b => d.isV && a.isFlt && b.isFlt
  | .dot4E4m3n d a b => d.isV && a.isFlt && b.isFlt
  | .dot4E5m2n d a b => d.isV && a.isFlt && b.isFlt
  | .dot8E2m1n d a b => d.isV && a.isFlt && b.isFlt
  | .dot4I8 d a b => d.isV && a.isFlt && b.isFlt
  | .dot4Mx8 d a b => d.isV && a.isFlt && b.isFlt
  | .dot8I4 d a b => d.isV && a.isFlt && b.isFlt
  | .ldB d a b => d.isV && a.isUniQ && b.isLane
  | .ldBs d a b => d.isV && a.isUniQ && b.isLane
  | .ldH d a b => d.isV && a.isUniQ && b.isLane
  | .ldHs d a b => d.isV && a.isUniQ && b.isLane
  | .ldW d a b => d.isV && a.isUniQ && b.isLane
  | .ldD d a b => d.isV && a.isUniQ && b.isLane
  | .ldQ d a b => d.isV && a.isUniQ && b.isLane
  | .stB d a b => d.isStored && a.isUniQ && b.isLane
  | .stH d a b => d.isStored && a.isUniQ && b.isLane
  | .stW d a b => d.isStored && a.isUniQ && b.isLane
  | .stD d a b => d.isStored && a.isUniQ && b.isLane
  | .stQ d a b => d.isStored && a.isUniQ && b.isLane
  | .ldxW d a b => d.isV && a.isUniQ && b.isLane
  | .ldxD d a b => d.isV && a.isUniQ && b.isLane
  | .stxW d a b => d.isStored && a.isUniQ && b.isLane
  | .stxD d a b => d.isStored && a.isUniQ && b.isLane
  | .spillSt d => d.isVS
  | .spillLd d => d.isVS
  | .atomAdd d a b => d.isV && a.isUniQ && b.isLane
  | .atomFadd d a b => d.isV && a.isUniQ && b.isLane
  | .atomMin d a b => d.isV && a.isUniQ && b.isLane
  | .atomMax d a b => d.isV && a.isUniQ && b.isLane
  | .atomMinu d a b => d.isV && a.isUniQ && b.isLane
  | .atomMaxu d a b => d.isV && a.isUniQ && b.isLane
  | .atomAnd d a b => d.isV && a.isUniQ && b.isLane
  | .atomOr d a b => d.isV && a.isUniQ && b.isLane
  | .atomXor d a b => d.isV && a.isUniQ && b.isLane
  | .atomXchg d a b => d.isV && a.isUniQ && b.isLane
  | .atomCas d a b => d.isV && a.isUniQ && b.isLane
  | .atomxAdd d a b par => d.isV && a.isUniQ && b.isLane && par.wf
  | .atomxXchg d a b par => d.isV && a.isUniQ && b.isLane && par.wf
  | .atomxCas d a b par => d.isV && a.isUniQ && b.isLane && par.wf
  | .shflIdx d a b => d.isV && a.isV && b.isLane
  | .shflXor d a b => d.isV && a.isV && b.isUniQ
  | .shflUp d a b => d.isV && a.isV && b.isUniQ
  | .shflDn d a b => d.isV && a.isV && b.isUniQ
  | .bcast d a b => d.isV && a.isV && b.isUniQ
  | .voteAny d a => d.isS && a.isP
  | .voteAll d a => d.isS && a.isP
  | .ballot d a b => d.isS && a.isP && b.isUniQ
  | .redAdd d a => d.isS && a.isV
  | .redFadd d a => d.isS && a.isV
  | .redMax d a => d.isS && a.isV
  | .redFmax d a => d.isS && a.isV
  | .redFmin d a => d.isS && a.isV
  | .scanAdd d a => d.isV && a.isV
  | .fence scope acq rel => fenceField scope acq rel
  | .barInit a b => a.isUniQ && b.isUniQ
  | .barExpect a b => a.isUniQ && b.isUniQ
  | .barArrive a b => a.isUniQ && b.isUniQ
  | .barTest d a => d.isS && a.isUniQ
  | .streamBind d a b => d.isQ && a.isUniQ && b.isUniQ
  | .streamFill d a => d.isS && a.isQ
  | .streamFree d => d.isQ
  | .streamPub d a => d.isQ && a.isUniQ
  | .chanGo n a => n.toNat < 4 && a.isUniQ
  | .chanStop n => n.toNat < 4
  | .chanState n a => n.toNat < 4 && a.isS
  | .ringWait a => a.isUniQ
  | .gather d a b par => d.isUniQ && a.isUniQ && b.isV && par.wfGather
  | .scatter d a b par => d.isUniQ && a.isUniQ && b.isV && par.wfScatter
  | .ldBlk d a b par => d.isUniQ && a.isUniQ && b.isUniQ && par.wfLdBlk
  | .stBlk d a b par => d.isUniQ && a.isUniQ && b.isUniQ && par.wfStBlk
  | .atomM d a b par => d.isUniQ && a.isUniQ && b.isV && par.wfAtom
  | .mloop n a par => n.toNat < 32 && a.isS && a.isRun 56 && par.wfLoop
  | .mgloop n a par => n.toNat < 32 && a.isS && a.isRun 55 && par.wfLoop
  | .mzero n => n.toNat < 32
  | .mload n a b => n.toNat < 32 && a.isUniQ && b.isUniQ
  | .mstore n a par => n.toNat < 32 && a.isS && a.isRun 60 && par.wfStore
  | .mrows d a => d.isS && a.isUni
  | .solicit a _ => a.isS && a.isRun 56
  | .respond a => a.isUniQ
  | .tilePut d a => d.isS && a.isS && a.isRun 61
  | .tileDrop a => a.isUniQ
  | .tileMove a b => a.isS && b.isUniQ && a.isRun 62
  | .seqAdd a b par => a.isUni && b.isUni && par.wf
  | .seqRd d a b => d.isUni && a.isUni && b.isUni
  | .recPop d a b => d.isUni && a.isUni && b.isUni
  | .recPush d a b => d.isUni && a.isUni && b.isUni
  | .portWr d a par => d.isUniQ && a.isUniQ && par.wfPort
  | .fenceM scope acq rel => fenceField scope acq rel
  | .plotWarm a => a.isUniQ
  | .scrub d a b => d.isS && a.isUniQ && b.isUniQ && d.isRun 62
  | .csrRd d addr => d.isS && csrReadable addr
  | .csrWr d addr => d.isUni && csrWritable addr
  | .csrSet d addr => d.isUni && csrWritable addr
  | .csrClr d addr => d.isUni && csrWritable addr
  | .tstamp d => d.isS
  | .cede a b => a.isUni && b.isUni
  | .bwphaseWrite _ => true
  | .twordRead _ => true
  | .trbaseWrite _ => true
  | .barrelIssue _ => true
  | .clauseWaitsSatisfied _ _ _ => true
  | .locWriteback _ _ _ _ _ => true
  | .positionReassign _ => true
  | .responderPoolEnable _ => true
  | .responderPoolDisable _ => true
  | .calendarSlotServe _ _ => true
  | .crewPlace _ _ _ => true
  | .crewRetire _ _ => true
  | .phaseRecordWrite _ _ => true
  | .claimGranted _ _ _ => true
  | .rkResumeTeam _ _ => true
  | .rkRetireTeam _ _ => true
  | .sysReply _ _ _ _ _ _ _ _ => true
  | .issueHoldRelease _ _ _ => true
  | .gatherPacketDeliver _ _ _ => true
  | .writeAcknowledge _ _ _ => true
  | .atomMPerform _ _ _ => true
  | .blkSegmentComplete _ _ _ => true
  | .portWrSent _ _ => true
  | .asyncPartFail _ _ _ => true
  | .waitWake _ _ _ => true
  | .streamWaitRelease _ _ _ => true
  | .chanRecordStart _ _ => true
  | .chanSegmentAck _ _ => true
  | .chanStopDone _ _ => true
  | .chanRecordUnreadable _ _ => true
  | .ringWaitRecheck _ _ _ => true
  | .mloopStart _ => true
  | .mloopRowGroupCommit _ => true
  | .mloopPageFault _ => true
  | .mloopFailure _ => true
  | .mstoreRowAck _ _ => true
  | .mstoreRowFail _ _ => true
  | .pageMap _ _ _ _ => true
  | .pageFaultRefuse _ _ => true
  | .pagePin _ _ => true
  | .pageUnpin _ _ => true
  | .leafChange _ _ _ _ => true
  | .invalidationComplete _ _ => true
  | .plotAllocate _ _ => true
  | .plotWakeComplete _ => true
  | .plotRetentionEntry _ => true
  | .plotPowerDown _ _ => true
  | .pseudoChannelFail _ => true
  | .rowMitigation _ _ => true
  | .rowThrottleStart _ _ => true
  | .rowThrottleEnd _ _ => true
  | .deferredMitigationRun _ => true
  | .contextStart _ => true
  | .preemptSoft _ _ => true
  | .preemptHard _ => true
  | .softDeadlineExpire _ => true
  | .yieldingEmpty _ => true
  | .preemptAgain _ _ => true
  | .vacateComplete _ => true
  | .saveFailure _ => true
  | .contextRestore _ => true
  | .restoreComplete _ => true
  | .contextDestroy _ => true
  | .allowanceWrite _ _ _ => true
  | .cedeCreditArrive _ _ _ => true
  | .admissionRetest _ => true
  | .rkHeartbeatTimeout => true
  | .rkSystemCoreFault => true
  | .rkReadopt _ => true
  | .readoptFail _ => true
  | .warmRebootFail => true
  | .partReset => true
  | .kloadLoad _ _ _ => true
  | .kloadUnload _ _ => true
  | .kernelCloseComplete _ _ => true
  | .kernelEndAfterFault _ _ => true
  | .phasePlace _ _ _ => true
  | .phaseCommit _ _ _ => true
  | .seqAddPerform _ _ => true
  | .deferredAddPerform _ _ _ _ => true
  | .deferredAddDrop _ _ _ _ => true
  | .seqRdComplete _ _ => true
  | .recPushEngineAnswer _ _ _ => true
  | .recPushAck _ _ => true
  | .recPopPlace _ _ => true
  | .doorbellWrite _ _ _ => true
  | .queueSlotGrant _ _ _ => true
  | .queueUnmap _ _ => true
  | .queueFaultMapped _ _ => true
  | .queueFaultRefused _ _ => true
  | .queueDelete _ _ => true
  | .frontEndSweep _ => true
  | .nopPacket _ _ => true
  | .append _ _ => true
  | .signal _ _ => true
  | .waitseq _ _ => true
  | .waitseqSatisfied _ _ => true
  | .copy _ _ => true
  | .copyComplete _ _ => true
  | .release _ _ => true
  | .acquire _ _ => true
  | .tstampPacket _ _ => true
  | .scrubPacket _ _ => true
  | .unknownPacket _ _ => true
  | .ctxopCreate _ _ => true
  | .ctxopPreempt _ _ => true
  | .ctxopRestore _ _ => true
  | .ctxopDestroy _ _ => true
  | .ctxopSetDraining _ _ => true
  | .ctxopClearDraining _ _ => true
  | .arbitrationPeriodBoundary _ => true
  | .vfSlotConfig _ _ _ => true
  | .wakeFilterWrite _ _ => true
  | .wakeFrameMatch _ _ => true
  | .solicitDirectoryPass _ _ _ => true
  | .solicitForwardArrive _ _ => true
  | .responderSpawn _ _ => true
  | .combineNode _ _ _ _ => true
  | .censusComplete _ _ => true
  | .censusSlotRetireArrive _ _ _ => true
  | .tileMoveCommit _ _ => true
  | .tileMoveFail _ _ => true
  | .tileDropComplete _ _ _ => true
  | .linkEnable _ => true
  | .linkTrainedFull _ => true
  | .linkTrainedHalf _ => true
  | .linkTrainingTimeout _ => true
  | .linkErrorRetrain _ => true
  | .expanderCompletionTimeout => true
  | .linkRetrained _ _ => true
  | .linkRetrainTimeout _ => true
  | .linkDisable _ => true
  | .flitCrcReplay _ => true
  | .portReadFail _ _ _ => true
  | .bar2Bind _ _ _ => true
  | .bar2PostedWrite _ _ _ => true
  | .bar2Read _ _ _ => true
  | .peerAccessArrive _ _ _ _ _ _ _ => true
  | .qpDoorbell _ _ => true
  | .send _ _ => true
  | .sendWithImmediate _ _ => true
  | .rdmaWrite _ _ => true
  | .rdmaWriteWithImmediate _ _ => true
  | .rdmaRead _ _ => true
  | .sendEntryBadOp _ _ => true
  | .incomingRdmaAccess _ _ _ _ _ _ => true
  | .receiveConsume _ _ _ _ _ => true
  | .qpRetriesExhausted _ _ => true
  | .getVersion => true
  | .getCapabilities => true
  | .negotiateAlgorithms _ => true
  | .getDigests => true
  | .getCertificate _ => true
  | .challenge => true
  | .getMeasurements _ => true
  | .keyExchange => true
  | .finish => true
  | .keyUpdate => true
  | .heartbeat => true
  | .endSession => true
  | .measurementExtend _ _ => true
  | .zmiReadTopology => true
  | .zmiReadHealth => true
  | .zmiSetDraining _ => true
  | .zmiClearDraining _ => true
  | .zmiSetPartDraining => true
  | .zmiReadFaultLog _ => true
  | .zmiReadPlotMap => true
  | .zmiReadVacateAudit => true
  | .zmiReadUnitCounters => true
  | .zmiReadRdThresholds => true
  | .zmiSnapshotRefresh => true
  | .debuggerStopRequest _ _ => true
  | .contextWideStop _ => true
  | .debuggerResume _ _ => true
  | .debuggerSingleStep _ _ _ => true
  | .debuggerWrite _ _ _ _ => true
  | .breakpointProgram _ _ _ => true
  | .debuggerDetach _ => true
  | .debuggerAttach _ => true
  | .traceWriteFault _ => true
  | .queueRegister _ _ _ _ => true
  | .recordQueueRegister _ _ => true
  | .portTableWrite _ _ _ _ => true
  | .memoryRegionRegister _ _ _ _ _ _ _ => true
  | .queuePairSetup _ _ _ _ _ _ _ _ _ _ => true
  | .sendEntryComplete _ _ _ _ => true
  | .coreGating => true

end Sys2Proof
end

