-- ==== Sys2Proof/Decode.lean ====
section
/-! DEFINITION. The decoder and the encoder (02 R27 to R42, 03 R55 to R61). A clause header names the engine class; an
instruction is read from the words of its clause that are left. The decoder is total: it gives an instruction and the
number of its words, or the name of the class 0x0 fault, in the order of R61. The encoder writes the words back. -/

namespace Sys2Proof

/-- Why a word stream is no instruction (R60). -/
inductive DecodeErr where
  | illegalClause        -- 0x0001: words past `cnt` (R37)
  | illegalInstruction   -- 0x0002: reserved OPC (R55)
  | illegalOperand       -- 0x0003 (R38, R41, R58, R62)
  | privilege            -- 0x0004 (R59)
  deriving DecidableEq, Repr

/-- Which extra words a form may have: a parameter word, and literal words for D, A and B (R37). -/
structure Form where
  x2 : Bool
  dl : Bool
  al : Bool
  bl : Bool
  deriving DecidableEq, Repr

/-- The fields of an instruction's words (R35): the three operand bytes as codes and as operands, IMM16, OFF24 and
the parameter word. -/
structure Fields where
  d : BitVec 8
  a : BitVec 8
  b : BitVec 8
  od : Option Opnd
  oa : Option Opnd
  ob : Option Opnd
  imm : BitVec 16
  off : BitVec 24
  par : BitVec 32
  deriving DecidableEq, Repr

/-- Bits [31:24] of an instruction word. -/
def opcOf (w : BitVec 32) : Nat := (w.extractLsb' 24 8).toNat

/-- The operand of a code (R41); `l` is the literal word that follows it, where the field admits one. None for the
reserved codes, and for 0xDF without a literal. -/
def opndOf (c : BitVec 8) (l : Option (BitVec 32)) : Option Opnd :=
  let n := c.toNat
  if h : n < 0x80 then some (.v ⟨n, h⟩)
  else if h : n - 0x80 < 64 then some (.s ⟨n - 0x80, h⟩)
  else if h : n - 0xC0 < 31 then some (.k ⟨n - 0xC0, h⟩)
  else if n = 0xDF then l.map .lit
  else if h : n - 0xE0 < 8 then some (.p ⟨n - 0xE0, h⟩)
  else if n = 0xE8 then some .lane
  else if n = 0xE9 then some .lanes
  else if n = 0xEA then some .role
  else if n = 0xEB then some .team
  else if n = 0xEC then some .core
  else if n = 0xED then some .replay
  else if h : 0xF0 ≤ n ∧ n - 0xF0 < 8 then some (.q ⟨n - 0xF0, h.2⟩)
  else none

/-- The code of an operand (R41). -/
def Opnd.code : Opnd → BitVec 8
  | .v n => BitVec.ofNat 8 n.val
  | .s n => BitVec.ofNat 8 (0x80 + n.val)
  | .k n => BitVec.ofNat 8 (0xC0 + n.val)
  | .lit _ => 0xDF
  | .p n => BitVec.ofNat 8 (0xE0 + n.val)
  | .lane => 0xE8
  | .lanes => 0xE9
  | .role => 0xEA
  | .team => 0xEB
  | .core => 0xEC
  | .replay => 0xED
  | .q n => BitVec.ofNat 8 (0xF0 + n.val)

/-- The literal word of an operand, if it has one (R37). -/
def Opnd.litWord : Opnd → List (BitVec 32)
  | .lit w => [w]
  | _ => []

/-- The bits of the word that one field holds, at its place. -/
def put (w : Nat) (x : BitVec w) (at' : Nat) : BitVec 32 := (x.zeroExtend 32) <<< at'

/-- A one-bit field at its place. -/
def putB (b : Bool) (at' : Nat) : BitVec 32 := put 1 (BitVec.ofBool b) at'

def XPar.toWord (p : XPar) : BitVec 32 :=
  put 6 p.bar 26 ||| put 3 p.scope 23 ||| putB p.acq 22 ||| putB p.rel 21 ||| put 3 p.size 18 |||
    put 3 p.sh 15 ||| putB p.w32 14 ||| putB p.sx 13 ||| put 4 p.po 9

/-- R150; none when a reserved bit is set (R38). -/
def XPar.ofWord (w : BitVec 32) : Option XPar :=
  if w.extractLsb' 0 9 == 0 then
    some ⟨w.extractLsb' 26 6, w.extractLsb' 23 3, w.getLsbD 22, w.getLsbD 21, w.extractLsb' 18 3,
      w.extractLsb' 15 3, w.getLsbD 14, w.getLsbD 13, w.extractLsb' 9 4⟩
  else none

def AxPar.toWord (p : AxPar) : BitVec 32 :=
  putB p.wide 5 ||| putB p.rel 4 ||| putB p.acq 3 ||| put 3 p.scope 0

/-- R140. -/
def AxPar.ofWord (w : BitVec 32) : Option AxPar :=
  if w.extractLsb' 6 26 == 0 then
    some ⟨w.getLsbD 5, w.getLsbD 4, w.getLsbD 3, w.extractLsb' 0 3⟩
  else none

def MPar.toWord (p : MPar) : BitVec 32 :=
  put 6 p.bar 26 ||| put 3 p.scope 23 ||| putB p.acq 22 ||| putB p.rel 21

/-- R188. -/
def MPar.ofWord (w : BitVec 32) : Option MPar :=
  if w.extractLsb' 0 21 == 0 then
    some ⟨w.extractLsb' 26 6, w.extractLsb' 23 3, w.getLsbD 22, w.getLsbD 21⟩
  else none

def SeqPar.toWord (p : SeqPar) : BitVec 32 :=
  put 6 p.bar 26 ||| put 3 p.scope 23 ||| putB p.rel 21 ||| putB p.cmt 20

/-- R290: bits [22] and [19:0] must be 0. -/
def SeqPar.ofWord (w : BitVec 32) : Option SeqPar :=
  if w.extractLsb' 0 20 == 0 && !w.getLsbD 22 then
    some ⟨w.extractLsb' 26 6, w.extractLsb' 23 3, w.getLsbD 21, w.getLsbD 20⟩
  else none

/-- The parameter word of `solicit` holds `rel` in bit 21 alone (R313). -/
def solWord (rel : Bool) : BitVec 32 := putB rel 21
def solRest (w : BitVec 32) : Bool := w.extractLsb' 0 21 == 0 && w.extractLsb' 22 10 == 0

def Form.fa : Form := ⟨false, false, true, false⟩
def Form.fab : Form := ⟨false, false, true, true⟩
def Form.fb : Form := ⟨false, false, false, true⟩
def Form.fd : Form := ⟨false, true, false, false⟩
def Form.fdab : Form := ⟨false, true, true, true⟩
def Form.fx : Form := ⟨true, false, false, false⟩
def Form.fxab : Form := ⟨true, false, true, true⟩
def Form.fxb : Form := ⟨true, false, false, true⟩
def Form.fxda : Form := ⟨true, true, true, false⟩
def Form.fxdab : Form := ⟨true, true, true, true⟩
def Form.plain : Form := ⟨false, false, false, false⟩

/-- The literal and parameter words of the CTL forms, in opcode order (R37, R56). -/
def ctlForms : List Form :=
  [Form.plain, Form.plain, Form.fd, Form.fd, Form.plain, Form.fx, Form.fxb, Form.plain] ++
  [Form.plain, Form.plain, Form.plain, Form.plain, Form.plain, Form.fa, Form.plain, Form.fab] ++
  [Form.plain, Form.plain, Form.plain, Form.plain, Form.plain, Form.plain, Form.fab, Form.fx] ++
  [Form.fab, Form.fab, Form.plain, Form.plain, Form.plain, Form.plain]

/-- The CTL form of an opcode from its fields (R55); none where an operand is illegal. -/
def ctlBuild (f : Fields) : Nat → Option Instr
  | 0 => if f.d == 0 && f.a == 0 && f.b == 0 then some (.nop) else none
  | 1 => some (.br f.off)
  | 2 => (f.od).bind fun d => some (.bz d f.imm)
  | 3 => (f.od).bind fun d => some (.bnz d f.imm)
  | 4 => if f.d == 0 && f.b == 0 then (f.oa).bind fun a => some (.brS a) else none
  | 5 => (f.od).bind fun d => some (.bdiv d f.imm f.par)
  | 6 => (f.oa).bind fun a => (f.ob).bind fun b => some (.jtab f.d a b f.par)
  | 7 => if f.d == 0 && f.a == 0 && f.b == 0 then some (.kill) else none
  | 8 => some (.call f.off)
  | 9 => if f.d == 0 && f.b == 0 then (f.oa).bind fun a => some (.callS a) else none
  | 10 => if f.d == 0 && f.a == 0 && f.b == 0 then some (.ret) else none
  | 11 => if f.d == 0 && f.a == 0 && f.b == 0 then some (.yield) else none
  | 12 => if f.d == 0 && f.a == 0 && f.b == 0 then some (.halt) else none
  | 13 => if f.b == 0 then (f.od).bind fun d => (f.oa).bind fun a => some (.maskGet d a) else none
  | 14 => if f.d == 0 && f.b == 0 then (f.oa).bind fun a => some (.maskAnd a) else none
  | 15 => if f.d == 0 then (f.oa).bind fun a => (f.ob).bind fun b => some (.maskSet a b) else none
  | 16 => if f.d == 0 then some (.claimV f.imm) else none
  | 17 => if f.d == 0 then some (.giveV f.imm) else none
  | 18 => if f.d == 0 then some (.claimS f.imm) else none
  | 19 => if f.d == 0 then some (.giveS f.imm) else none
  | 20 => (f.od).bind fun d => some (.claimA d f.imm)
  | 21 => if f.d == 0 then some (.giveA f.imm) else none
  | 22 => (f.oa).bind fun a => (f.ob).bind fun b => some (.ready f.d a b)
  | 23 => if f.d == 0 then some (.phase f.imm f.par) else none
  | 24 => if f.d == 0 then (f.oa).bind fun a => (f.ob).bind fun b => some (.wait a b) else none
  | 25 => if f.d == 0 then (f.oa).bind fun a => (f.ob).bind fun b => some (.watch a b) else none
  | 26 => if f.d == 0 then some (.trap f.imm) else none
  | 27 => (f.od).bind fun d => some (.sys d f.imm)
  | 28 => if f.d == 0 && f.a == 0 && f.b == 0 then some (.rett) else none
  | 29 => if f.d == 0 then some (.brk f.imm) else none
  | _ => none

/-- The literal and parameter words of the UNI forms, in opcode order (R37, R56). -/
def uniForms : List Form :=
  [Form.fab, Form.fab, Form.fab, Form.fab, Form.fab, Form.fab, Form.fab, Form.fab] ++
  [Form.fab, Form.fab, Form.fab, Form.fab, Form.fab, Form.fab, Form.fab, Form.fab] ++
  [Form.fab, Form.fab, Form.fab, Form.fab, Form.fab, Form.fab, Form.fab, Form.fa] ++
  [Form.plain, Form.plain, Form.plain, Form.fa, Form.fa, Form.fab, Form.fab, Form.fb]

/-- The UNI form of an opcode from its fields (R55); none where an operand is illegal. -/
def uniBuild (f : Fields) : Nat → Option Instr
  | 0 => (f.od).bind fun d => (f.oa).bind fun a => (f.ob).bind fun b => some (.sadd d a b)
  | 1 => (f.od).bind fun d => (f.oa).bind fun a => (f.ob).bind fun b => some (.ssub d a b)
  | 2 => (f.od).bind fun d => (f.oa).bind fun a => (f.ob).bind fun b => some (.smul d a b)
  | 3 => (f.od).bind fun d => (f.oa).bind fun a => (f.ob).bind fun b => some (.smulh d a b)
  | 4 => (f.od).bind fun d => (f.oa).bind fun a => (f.ob).bind fun b => some (.smulhu d a b)
  | 5 => (f.od).bind fun d => (f.oa).bind fun a => (f.ob).bind fun b => some (.sand d a b)
  | 6 => (f.od).bind fun d => (f.oa).bind fun a => (f.ob).bind fun b => some (.sor d a b)
  | 7 => (f.od).bind fun d => (f.oa).bind fun a => (f.ob).bind fun b => some (.sxor d a b)
  | 8 => (f.od).bind fun d => (f.oa).bind fun a => (f.ob).bind fun b => some (.sandn d a b)
  | 9 => (f.od).bind fun d => (f.oa).bind fun a => (f.ob).bind fun b => some (.sshl d a b)
  | 10 => (f.od).bind fun d => (f.oa).bind fun a => (f.ob).bind fun b => some (.sshr d a b)
  | 11 => (f.od).bind fun d => (f.oa).bind fun a => (f.ob).bind fun b => some (.ssar d a b)
  | 12 => (f.od).bind fun d => (f.oa).bind fun a => (f.ob).bind fun b => some (.smin d a b)
  | 13 => (f.od).bind fun d => (f.oa).bind fun a => (f.ob).bind fun b => some (.smax d a b)
  | 14 => (f.od).bind fun d => (f.oa).bind fun a => (f.ob).bind fun b => some (.sminu d a b)
  | 15 => (f.od).bind fun d => (f.oa).bind fun a => (f.ob).bind fun b => some (.smaxu d a b)
  | 16 => (f.od).bind fun d => (f.oa).bind fun a => (f.ob).bind fun b => some (.seq d a b)
  | 17 => (f.od).bind fun d => (f.oa).bind fun a => (f.ob).bind fun b => some (.sne d a b)
  | 18 => (f.od).bind fun d => (f.oa).bind fun a => (f.ob).bind fun b => some (.slt d a b)
  | 19 => (f.od).bind fun d => (f.oa).bind fun a => (f.ob).bind fun b => some (.sle d a b)
  | 20 => (f.od).bind fun d => (f.oa).bind fun a => (f.ob).bind fun b => some (.sltu d a b)
  | 21 => (f.od).bind fun d => (f.oa).bind fun a => (f.ob).bind fun b => some (.sleu d a b)
  | 22 => (f.od).bind fun d => (f.oa).bind fun a => (f.ob).bind fun b => some (.scsel d a b)
  | 23 => if f.b == 0 then (f.od).bind fun d => (f.oa).bind fun a => some (.smov d a) else none
  | 24 => (f.od).bind fun d => some (.smovi d f.imm)
  | 25 => (f.od).bind fun d => some (.sorhi d f.imm)
  | 26 => (f.od).bind fun d => some (.saddi d f.imm)
  | 27 => if f.b == 0 then (f.od).bind fun d => (f.oa).bind fun a => some (.spopc d a) else none
  | 28 => if f.b == 0 then (f.od).bind fun d => (f.oa).bind fun a => some (.sclz d a) else none
  | 29 => (f.od).bind fun d => (f.oa).bind fun a => (f.ob).bind fun b => some (.sbfe d a b)
  | 30 => (f.od).bind fun d => (f.oa).bind fun a => (f.ob).bind fun b => some (.sbfi d a b)
  | 31 => (f.od).bind fun d => (f.oa).bind fun a => (f.ob).bind fun b => some (.slane d a b)
  | _ => none

/-- The literal and parameter words of the LANE forms, in opcode order (R37, R56). -/
def laneForms : List Form :=
  [Form.fab, Form.fab, Form.fab, Form.fab, Form.fab, Form.fab, Form.fab, Form.fab] ++
  [Form.fab, Form.fab, Form.fa, Form.fa, Form.fab, Form.fab, Form.fab, Form.fab] ++
  [Form.fa, Form.fab, Form.fab, Form.fab, Form.fab, Form.fa, Form.fa, Form.fab] ++
  [Form.fab, Form.fab, Form.fa, Form.plain, Form.plain, Form.plain, Form.fb, Form.fab] ++
  [Form.fab, Form.fab, Form.fab, Form.fab, Form.fab, Form.plain, Form.plain, Form.plain] ++
  [Form.plain, Form.fab, Form.fab, Form.fa, Form.fa, Form.fa, Form.fab]

/-- The LANE form of an opcode from its fields (R55); none where an operand is illegal. -/
def laneBuild (f : Fields) : Nat → Option Instr
  | 0 => (f.od).bind fun d => (f.oa).bind fun a => (f.ob).bind fun b => some (.vadd d a b)
  | 1 => (f.od).bind fun d => (f.oa).bind fun a => (f.ob).bind fun b => some (.vsub d a b)
  | 2 => (f.od).bind fun d => (f.oa).bind fun a => (f.ob).bind fun b => some (.vmul d a b)
  | 3 => (f.od).bind fun d => (f.oa).bind fun a => (f.ob).bind fun b => some (.vmulh d a b)
  | 4 => (f.od).bind fun d => (f.oa).bind fun a => (f.ob).bind fun b => some (.vmulhu d a b)
  | 5 => (f.od).bind fun d => (f.oa).bind fun a => (f.ob).bind fun b => some (.vmad d a b)
  | 6 => (f.od).bind fun d => (f.oa).bind fun a => (f.ob).bind fun b => some (.vmin d a b)
  | 7 => (f.od).bind fun d => (f.oa).bind fun a => (f.ob).bind fun b => some (.vmax d a b)
  | 8 => (f.od).bind fun d => (f.oa).bind fun a => (f.ob).bind fun b => some (.vminu d a b)
  | 9 => (f.od).bind fun d => (f.oa).bind fun a => (f.ob).bind fun b => some (.vmaxu d a b)
  | 10 => if f.b == 0 then (f.od).bind fun d => (f.oa).bind fun a => some (.vabs d a) else none
  | 11 => if f.b == 0 then (f.od).bind fun d => (f.oa).bind fun a => some (.vneg d a) else none
  | 12 => (f.od).bind fun d => (f.oa).bind fun a => (f.ob).bind fun b => some (.vand d a b)
  | 13 => (f.od).bind fun d => (f.oa).bind fun a => (f.ob).bind fun b => some (.vor d a b)
  | 14 => (f.od).bind fun d => (f.oa).bind fun a => (f.ob).bind fun b => some (.vxor d a b)
  | 15 => (f.od).bind fun d => (f.oa).bind fun a => (f.ob).bind fun b => some (.vandn d a b)
  | 16 => if f.b == 0 then (f.od).bind fun d => (f.oa).bind fun a => some (.vnot d a) else none
  | 17 => (f.od).bind fun d => (f.oa).bind fun a => (f.ob).bind fun b => some (.vshl d a b)
  | 18 => (f.od).bind fun d => (f.oa).bind fun a => (f.ob).bind fun b => some (.vshr d a b)
  | 19 => (f.od).bind fun d => (f.oa).bind fun a => (f.ob).bind fun b => some (.vsar d a b)
  | 20 => (f.od).bind fun d => (f.oa).bind fun a => (f.ob).bind fun b => some (.vrot d a b)
  | 21 => if f.b == 0 then (f.od).bind fun d => (f.oa).bind fun a => some (.vpopc d a) else none
  | 22 => if f.b == 0 then (f.od).bind fun d => (f.oa).bind fun a => some (.vclz d a) else none
  | 23 => (f.od).bind fun d => (f.oa).bind fun a => (f.ob).bind fun b => some (.vbfe d a b)
  | 24 => (f.od).bind fun d => (f.oa).bind fun a => (f.ob).bind fun b => some (.vbfes d a b)
  | 25 => (f.od).bind fun d => (f.oa).bind fun a => (f.ob).bind fun b => some (.vbfi d a b)
  | 26 => if f.b == 0 then (f.od).bind fun d => (f.oa).bind fun a => some (.vmov d a) else none
  | 27 => (f.od).bind fun d => some (.vmovi d f.imm)
  | 28 => (f.od).bind fun d => some (.vorhi d f.imm)
  | 29 => (f.od).bind fun d => some (.vaddi d f.imm)
  | 30 => (f.od).bind fun d => (f.oa).bind fun a => (f.ob).bind fun b => some (.vcmov d a b)
  | 31 => (f.od).bind fun d => (f.oa).bind fun a => (f.ob).bind fun b => some (.vcmpEq d a b)
  | 32 => (f.od).bind fun d => (f.oa).bind fun a => (f.ob).bind fun b => some (.vcmpNe d a b)
  | 33 => (f.od).bind fun d => (f.oa).bind fun a => (f.ob).bind fun b => some (.vcmpLt d a b)
  | 34 => (f.od).bind fun d => (f.oa).bind fun a => (f.ob).bind fun b => some (.vcmpLe d a b)
  | 35 => (f.od).bind fun d => (f.oa).bind fun a => (f.ob).bind fun b => some (.vcmpLtu d a b)
  | 36 => (f.od).bind fun d => (f.oa).bind fun a => (f.ob).bind fun b => some (.vcmpLeu d a b)
  | 37 => (f.od).bind fun d => (f.oa).bind fun a => (f.ob).bind fun b => some (.pand d a b)
  | 38 => (f.od).bind fun d => (f.oa).bind fun a => (f.ob).bind fun b => some (.por d a b)
  | 39 => (f.od).bind fun d => (f.oa).bind fun a => (f.ob).bind fun b => some (.pxor d a b)
  | 40 => if f.b == 0 then (f.od).bind fun d => (f.oa).bind fun a => some (.pnot d a) else none
  | 41 => (f.od).bind fun d => (f.oa).bind fun a => (f.ob).bind fun b => some (.vmulq d a b)
  | 42 => (f.od).bind fun d => (f.oa).bind fun a => (f.ob).bind fun b => some (.vrsh d a b)
  | 43 => if f.b == 0 then (f.od).bind fun d => (f.oa).bind fun a => some (.vsatI8 d a) else none
  | 44 => if f.b == 0 then (f.od).bind fun d => (f.oa).bind fun a => some (.vsatUb d a) else none
  | 45 => if f.b == 0 then (f.od).bind fun d => (f.oa).bind fun a => some (.vsatI16 d a) else none
  | 46 => (f.od).bind fun d => (f.oa).bind fun a => (f.ob).bind fun b => some (.vprm d a b)
  | _ => none

/-- The literal and parameter words of the FLT forms, in opcode order (R37, R56). -/
def fltForms : List Form :=
  [Form.fab, Form.fab, Form.fab, Form.fab, Form.fab, Form.fab, Form.fa, Form.fa] ++
  [Form.fa, Form.fa, Form.fa, Form.fa, Form.fa, Form.fa, Form.fab, Form.fab] ++
  [Form.fab, Form.fab, Form.fa, Form.fa, Form.fa, Form.fab, Form.fab, Form.fab] ++
  [Form.fab, Form.fab, Form.fab, Form.fab, Form.fab, Form.fab, Form.fab, Form.fab] ++
  [Form.fab, Form.fab, Form.fab, Form.fab]

/-- The FLT form of an opcode from its fields (R55); none where an operand is illegal. -/
def fltBuild (f : Fields) : Nat → Option Instr
  | 0 => (f.od).bind fun d => (f.oa).bind fun a => (f.ob).bind fun b => some (.fadd d a b)
  | 1 => (f.od).bind fun d => (f.oa).bind fun a => (f.ob).bind fun b => some (.fsub d a b)
  | 2 => (f.od).bind fun d => (f.oa).bind fun a => (f.ob).bind fun b => some (.fmul d a b)
  | 3 => (f.od).bind fun d => (f.oa).bind fun a => (f.ob).bind fun b => some (.ffma d a b)
  | 4 => (f.od).bind fun d => (f.oa).bind fun a => (f.ob).bind fun b => some (.fmin d a b)
  | 5 => (f.od).bind fun d => (f.oa).bind fun a => (f.ob).bind fun b => some (.fmax d a b)
  | 6 => if f.b == 0 then (f.od).bind fun d => (f.oa).bind fun a => some (.fabs d a) else none
  | 7 => if f.b == 0 then (f.od).bind fun d => (f.oa).bind fun a => some (.fneg d a) else none
  | 8 => if f.b == 0 then (f.od).bind fun d => (f.oa).bind fun a => some (.frcp d a) else none
  | 9 => if f.b == 0 then (f.od).bind fun d => (f.oa).bind fun a => some (.frsq d a) else none
  | 10 => if f.b == 0 then (f.od).bind fun d => (f.oa).bind fun a => some (.fsqrt d a) else none
  | 11 => if f.b == 0 then (f.od).bind fun d => (f.oa).bind fun a => some (.fexp2 d a) else none
  | 12 => if f.b == 0 then (f.od).bind fun d => (f.oa).bind fun a => some (.flog2 d a) else none
  | 13 => if f.b == 0 then (f.od).bind fun d => (f.oa).bind fun a => some (.frnd d a) else none
  | 14 => (f.od).bind fun d => (f.oa).bind fun a => (f.ob).bind fun b => some (.fcmpEq d a b)
  | 15 => (f.od).bind fun d => (f.oa).bind fun a => (f.ob).bind fun b => some (.fcmpLt d a b)
  | 16 => (f.od).bind fun d => (f.oa).bind fun a => (f.ob).bind fun b => some (.fcmpLe d a b)
  | 17 => (f.od).bind fun d => (f.oa).bind fun a => (f.ob).bind fun b => some (.fcmpUn d a b)
  | 18 => (f.od).bind fun d => (f.oa).bind fun a => some (.fcvt d a f.b)
  | 19 => (f.od).bind fun d => (f.oa).bind fun a => some (.fpack d a f.b)
  | 20 => (f.od).bind fun d => (f.oa).bind fun a => some (.funpack d a f.b)
  | 21 => (f.od).bind fun d => (f.oa).bind fun a => (f.ob).bind fun b => some (.fscale d a b)
  | 22 => (f.od).bind fun d => (f.oa).bind fun a => (f.ob).bind fun b => some (.hadd2 d a b)
  | 23 => (f.od).bind fun d => (f.oa).bind fun a => (f.ob).bind fun b => some (.hmul2 d a b)
  | 24 => (f.od).bind fun d => (f.oa).bind fun a => (f.ob).bind fun b => some (.hfma2 d a b)
  | 25 => (f.od).bind fun d => (f.oa).bind fun a => (f.ob).bind fun b => some (.badd2 d a b)
  | 26 => (f.od).bind fun d => (f.oa).bind fun a => (f.ob).bind fun b => some (.bmul2 d a b)
  | 27 => (f.od).bind fun d => (f.oa).bind fun a => (f.ob).bind fun b => some (.bfma2 d a b)
  | 28 => (f.od).bind fun d => (f.oa).bind fun a => (f.ob).bind fun b => some (.dot2F16 d a b)
  | 29 => (f.od).bind fun d => (f.oa).bind fun a => (f.ob).bind fun b => some (.dot2Bf16 d a b)
  | 30 => (f.od).bind fun d => (f.oa).bind fun a => (f.ob).bind fun b => some (.dot4E4m3n d a b)
  | 31 => (f.od).bind fun d => (f.oa).bind fun a => (f.ob).bind fun b => some (.dot4E5m2n d a b)
  | 32 => (f.od).bind fun d => (f.oa).bind fun a => (f.ob).bind fun b => some (.dot8E2m1n d a b)
  | 33 => (f.od).bind fun d => (f.oa).bind fun a => (f.ob).bind fun b => some (.dot4I8 d a b)
  | 34 => (f.od).bind fun d => (f.oa).bind fun a => (f.ob).bind fun b => some (.dot4Mx8 d a b)
  | 35 => (f.od).bind fun d => (f.oa).bind fun a => (f.ob).bind fun b => some (.dot8I4 d a b)
  | _ => none

/-- The literal and parameter words of the LOC forms, in opcode order (R37, R56). -/
def locForms : List Form :=
  [Form.fab, Form.fab, Form.fab, Form.fab, Form.fab, Form.fab, Form.fab, Form.fdab] ++
  [Form.fdab, Form.fdab, Form.fdab, Form.fdab, Form.fab, Form.fab, Form.fdab, Form.fdab] ++
  [Form.plain, Form.plain, Form.fab, Form.fab, Form.fab, Form.fab, Form.fab, Form.fab] ++
  [Form.fab, Form.fab, Form.fab, Form.fab, Form.fab, Form.fxab, Form.fxab, Form.fxab] ++
  [Form.fb, Form.fb, Form.fb, Form.fb, Form.fb, Form.plain, Form.plain, Form.fb] ++
  [Form.plain, Form.plain, Form.plain, Form.plain, Form.plain, Form.plain, Form.plain, Form.fab] ++
  [Form.fab, Form.fab, Form.fa, Form.fab, Form.plain, Form.plain, Form.fa]

/-- The LOC form of an opcode from its fields (R55); none where an operand is illegal. -/
def locBuild (f : Fields) : Nat → Option Instr
  | 0 => (f.od).bind fun d => (f.oa).bind fun a => (f.ob).bind fun b => some (.ldB d a b)
  | 1 => (f.od).bind fun d => (f.oa).bind fun a => (f.ob).bind fun b => some (.ldBs d a b)
  | 2 => (f.od).bind fun d => (f.oa).bind fun a => (f.ob).bind fun b => some (.ldH d a b)
  | 3 => (f.od).bind fun d => (f.oa).bind fun a => (f.ob).bind fun b => some (.ldHs d a b)
  | 4 => (f.od).bind fun d => (f.oa).bind fun a => (f.ob).bind fun b => some (.ldW d a b)
  | 5 => (f.od).bind fun d => (f.oa).bind fun a => (f.ob).bind fun b => some (.ldD d a b)
  | 6 => (f.od).bind fun d => (f.oa).bind fun a => (f.ob).bind fun b => some (.ldQ d a b)
  | 7 => (f.od).bind fun d => (f.oa).bind fun a => (f.ob).bind fun b => some (.stB d a b)
  | 8 => (f.od).bind fun d => (f.oa).bind fun a => (f.ob).bind fun b => some (.stH d a b)
  | 9 => (f.od).bind fun d => (f.oa).bind fun a => (f.ob).bind fun b => some (.stW d a b)
  | 10 => (f.od).bind fun d => (f.oa).bind fun a => (f.ob).bind fun b => some (.stD d a b)
  | 11 => (f.od).bind fun d => (f.oa).bind fun a => (f.ob).bind fun b => some (.stQ d a b)
  | 12 => (f.od).bind fun d => (f.oa).bind fun a => (f.ob).bind fun b => some (.ldxW d a b)
  | 13 => (f.od).bind fun d => (f.oa).bind fun a => (f.ob).bind fun b => some (.ldxD d a b)
  | 14 => (f.od).bind fun d => (f.oa).bind fun a => (f.ob).bind fun b => some (.stxW d a b)
  | 15 => (f.od).bind fun d => (f.oa).bind fun a => (f.ob).bind fun b => some (.stxD d a b)
  | 16 => if f.a == 0 && f.b == 0 then (f.od).bind fun d => some (.spillSt d) else none
  | 17 => if f.a == 0 && f.b == 0 then (f.od).bind fun d => some (.spillLd d) else none
  | 18 => (f.od).bind fun d => (f.oa).bind fun a => (f.ob).bind fun b => some (.atomAdd d a b)
  | 19 => (f.od).bind fun d => (f.oa).bind fun a => (f.ob).bind fun b => some (.atomFadd d a b)
  | 20 => (f.od).bind fun d => (f.oa).bind fun a => (f.ob).bind fun b => some (.atomMin d a b)
  | 21 => (f.od).bind fun d => (f.oa).bind fun a => (f.ob).bind fun b => some (.atomMax d a b)
  | 22 => (f.od).bind fun d => (f.oa).bind fun a => (f.ob).bind fun b => some (.atomMinu d a b)
  | 23 => (f.od).bind fun d => (f.oa).bind fun a => (f.ob).bind fun b => some (.atomMaxu d a b)
  | 24 => (f.od).bind fun d => (f.oa).bind fun a => (f.ob).bind fun b => some (.atomAnd d a b)
  | 25 => (f.od).bind fun d => (f.oa).bind fun a => (f.ob).bind fun b => some (.atomOr d a b)
  | 26 => (f.od).bind fun d => (f.oa).bind fun a => (f.ob).bind fun b => some (.atomXor d a b)
  | 27 => (f.od).bind fun d => (f.oa).bind fun a => (f.ob).bind fun b => some (.atomXchg d a b)
  | 28 => (f.od).bind fun d => (f.oa).bind fun a => (f.ob).bind fun b => some (.atomCas d a b)
  | 29 => (f.od).bind fun d => (f.oa).bind fun a => (f.ob).bind fun b => (AxPar.ofWord f.par).bind fun par => some (.atomxAdd d a b par)
  | 30 => (f.od).bind fun d => (f.oa).bind fun a => (f.ob).bind fun b => (AxPar.ofWord f.par).bind fun par => some (.atomxXchg d a b par)
  | 31 => (f.od).bind fun d => (f.oa).bind fun a => (f.ob).bind fun b => (AxPar.ofWord f.par).bind fun par => some (.atomxCas d a b par)
  | 32 => (f.od).bind fun d => (f.oa).bind fun a => (f.ob).bind fun b => some (.shflIdx d a b)
  | 33 => (f.od).bind fun d => (f.oa).bind fun a => (f.ob).bind fun b => some (.shflXor d a b)
  | 34 => (f.od).bind fun d => (f.oa).bind fun a => (f.ob).bind fun b => some (.shflUp d a b)
  | 35 => (f.od).bind fun d => (f.oa).bind fun a => (f.ob).bind fun b => some (.shflDn d a b)
  | 36 => (f.od).bind fun d => (f.oa).bind fun a => (f.ob).bind fun b => some (.bcast d a b)
  | 37 => if f.b == 0 then (f.od).bind fun d => (f.oa).bind fun a => some (.voteAny d a) else none
  | 38 => if f.b == 0 then (f.od).bind fun d => (f.oa).bind fun a => some (.voteAll d a) else none
  | 39 => (f.od).bind fun d => (f.oa).bind fun a => (f.ob).bind fun b => some (.ballot d a b)
  | 40 => if f.b == 0 then (f.od).bind fun d => (f.oa).bind fun a => some (.redAdd d a) else none
  | 41 => if f.b == 0 then (f.od).bind fun d => (f.oa).bind fun a => some (.redFadd d a) else none
  | 42 => if f.b == 0 then (f.od).bind fun d => (f.oa).bind fun a => some (.redMax d a) else none
  | 43 => if f.b == 0 then (f.od).bind fun d => (f.oa).bind fun a => some (.redFmax d a) else none
  | 44 => if f.b == 0 then (f.od).bind fun d => (f.oa).bind fun a => some (.redFmin d a) else none
  | 45 => if f.b == 0 then (f.od).bind fun d => (f.oa).bind fun a => some (.scanAdd d a) else none
  | 46 => if f.d == 0 && f.imm.extractLsb' 5 11 == 0 then some (.fence (f.imm.extractLsb' 0 3) (f.imm.getLsbD 3) (f.imm.getLsbD 4)) else none
  | 47 => if f.d == 0 then (f.oa).bind fun a => (f.ob).bind fun b => some (.barInit a b) else none
  | 48 => if f.d == 0 then (f.oa).bind fun a => (f.ob).bind fun b => some (.barExpect a b) else none
  | 49 => if f.d == 0 then (f.oa).bind fun a => (f.ob).bind fun b => some (.barArrive a b) else none
  | 50 => if f.b == 0 then (f.od).bind fun d => (f.oa).bind fun a => some (.barTest d a) else none
  | 51 => (f.od).bind fun d => (f.oa).bind fun a => (f.ob).bind fun b => some (.streamBind d a b)
  | 52 => if f.b == 0 then (f.od).bind fun d => (f.oa).bind fun a => some (.streamFill d a) else none
  | 53 => if f.a == 0 && f.b == 0 then (f.od).bind fun d => some (.streamFree d) else none
  | 54 => if f.b == 0 then (f.od).bind fun d => (f.oa).bind fun a => some (.streamPub d a) else none
  | _ => none

/-- The literal and parameter words of the ASY forms, in opcode order (R37, R56). -/
def asyForms : List Form :=
  [Form.fa, Form.plain, Form.plain, Form.fa, Form.fxda, Form.fxda, Form.fxdab, Form.fxdab] ++
  [Form.fxda, Form.fx, Form.fx, Form.plain, Form.fab, Form.fx, Form.fa, Form.fx] ++
  [Form.fa, Form.plain, Form.fa, Form.fb, Form.fxab, Form.fdab, Form.fdab, Form.fdab] ++
  [Form.fxda, Form.plain, Form.fa, Form.fab]

/-- The ASY form of an opcode from its fields (R55); none where an operand is illegal. -/
def asyBuild (f : Fields) : Nat → Option Instr
  | 0 => if f.b == 0 then (f.oa).bind fun a => some (.chanGo f.d a) else none
  | 1 => if f.a == 0 && f.b == 0 then some (.chanStop f.d) else none
  | 2 => if f.b == 0 then (f.oa).bind fun a => some (.chanState f.d a) else none
  | 3 => if f.d == 0 && f.b == 0 then (f.oa).bind fun a => some (.ringWait a) else none
  | 4 => (f.od).bind fun d => (f.oa).bind fun a => (f.ob).bind fun b => (XPar.ofWord f.par).bind fun par => some (.gather d a b par)
  | 5 => (f.od).bind fun d => (f.oa).bind fun a => (f.ob).bind fun b => (XPar.ofWord f.par).bind fun par => some (.scatter d a b par)
  | 6 => (f.od).bind fun d => (f.oa).bind fun a => (f.ob).bind fun b => (XPar.ofWord f.par).bind fun par => some (.ldBlk d a b par)
  | 7 => (f.od).bind fun d => (f.oa).bind fun a => (f.ob).bind fun b => (XPar.ofWord f.par).bind fun par => some (.stBlk d a b par)
  | 8 => (f.od).bind fun d => (f.oa).bind fun a => (f.ob).bind fun b => (XPar.ofWord f.par).bind fun par => some (.atomM d a b par)
  | 9 => if f.b == 0 then (f.oa).bind fun a => (MPar.ofWord f.par).bind fun par => some (.mloop f.d a par) else none
  | 10 => if f.b == 0 then (f.oa).bind fun a => (MPar.ofWord f.par).bind fun par => some (.mgloop f.d a par) else none
  | 11 => if f.a == 0 && f.b == 0 then some (.mzero f.d) else none
  | 12 => (f.oa).bind fun a => (f.ob).bind fun b => some (.mload f.d a b)
  | 13 => if f.b == 0 then (f.oa).bind fun a => (MPar.ofWord f.par).bind fun par => some (.mstore f.d a par) else none
  | 14 => if f.b == 0 then (f.od).bind fun d => (f.oa).bind fun a => some (.mrows d a) else none
  | 15 => if f.d == 0 && f.b == 0 && solRest f.par then (f.oa).bind fun a => some (.solicit a (f.par.getLsbD 21)) else none
  | 16 => if f.d == 0 && f.b == 0 then (f.oa).bind fun a => some (.respond a) else none
  | 17 => if f.b == 0 then (f.od).bind fun d => (f.oa).bind fun a => some (.tilePut d a) else none
  | 18 => if f.d == 0 && f.b == 0 then (f.oa).bind fun a => some (.tileDrop a) else none
  | 19 => if f.d == 0 then (f.oa).bind fun a => (f.ob).bind fun b => some (.tileMove a b) else none
  | 20 => if f.d == 0 then (f.oa).bind fun a => (f.ob).bind fun b => (SeqPar.ofWord f.par).bind fun par => some (.seqAdd a b par) else none
  | 21 => (f.od).bind fun d => (f.oa).bind fun a => (f.ob).bind fun b => some (.seqRd d a b)
  | 22 => (f.od).bind fun d => (f.oa).bind fun a => (f.ob).bind fun b => some (.recPop d a b)
  | 23 => (f.od).bind fun d => (f.oa).bind fun a => (f.ob).bind fun b => some (.recPush d a b)
  | 24 => if f.b == 0 then (f.od).bind fun d => (f.oa).bind fun a => (XPar.ofWord f.par).bind fun par => some (.portWr d a par) else none
  | 25 => if f.d == 0 && f.imm.extractLsb' 5 11 == 0 then some (.fenceM (f.imm.extractLsb' 0 3) (f.imm.getLsbD 3) (f.imm.getLsbD 4)) else none
  | 26 => if f.d == 0 && f.b == 0 then (f.oa).bind fun a => some (.plotWarm a) else none
  | 27 => (f.od).bind fun d => (f.oa).bind fun a => (f.ob).bind fun b => some (.scrub d a b)
  | _ => none

/-- The literal and parameter words of the SYS forms, in opcode order (R37, R56). -/
def sysForms : List Form :=
  [Form.plain, Form.fd, Form.fd, Form.fd, Form.plain, Form.fab]

/-- The SYS form of an opcode from its fields (R55); none where an operand is illegal. -/
def sysBuild (f : Fields) : Nat → Option Instr
  | 0 => if f.imm.extractLsb' 12 4 == 0 then (f.od).bind fun d => some (.csrRd d (f.imm.extractLsb' 0 12)) else none
  | 1 => if f.imm.extractLsb' 12 4 == 0 then (f.od).bind fun d => some (.csrWr d (f.imm.extractLsb' 0 12)) else none
  | 2 => if f.imm.extractLsb' 12 4 == 0 then (f.od).bind fun d => some (.csrSet d (f.imm.extractLsb' 0 12)) else none
  | 3 => if f.imm.extractLsb' 12 4 == 0 then (f.od).bind fun d => some (.csrClr d (f.imm.extractLsb' 0 12)) else none
  | 4 => if f.a == 0 && f.b == 0 then (f.od).bind fun d => some (.tstamp d) else none
  | 5 => if f.d == 0 then (f.oa).bind fun a => (f.ob).bind fun b => some (.cede a b) else none
  | _ => none

/-- The forms of a class (R55). -/
def formsOf : Eng → List Form
  | .ctl => ctlForms
  | .uni => uniForms
  | .lane => laneForms
  | .flt => fltForms
  | .loc => locForms
  | .asy => asyForms
  | .sys => sysForms

/-- The instruction of an opcode of a class. -/
def buildOf : Eng → Fields → Nat → Option Instr
  | .ctl => ctlBuild
  | .uni => uniBuild
  | .lane => laneBuild
  | .flt => fltBuild
  | .loc => locBuild
  | .asy => asyBuild
  | .sys => sysBuild

/-- A word is privileged: the form `scrub`, and the CSR forms at an address of 0x800 or above (R59). -/
def privilegedWord (e : Eng) (w : BitVec 32) : Bool :=
  match e with
  | .asy => opcOf w == 0x1B
  | .sys => opcOf w < 4 && w.getLsbD 11
  | _ => false

/-- A literal word is present where the field admits one and its code is 0xDF. DESIGN CHOICE: in a field that admits no constant,
or a D that is written, the code 0xDF takes no word, so that such a word is an illegal operand even as its clause's last; R37
does not say. -/
def takesLit (admits : Bool) (c : BitVec 8) : Bool := admits && c == 0xDF

/-- One literal word from the words left, where one is due (R37). -/
def takeWord (due : Bool) (ws : List (BitVec 32)) : Option (Option (BitVec 32) × List (BitVec 32)) :=
  if due then
    match ws with
    | [] => none
    | w :: r => some (some w, r)
  else some (none, ws)

/-- Split an instruction's words into its fields, in the order of R37: the instruction word, the parameter word, the
literals of D, A and B, where `takesLit` says that they are due (its choice, also for 0xDF in A of `br.s` or `pand` as a
clause's last word, R61). None when the clause has too few words left. The number is how many words it takes. -/
def fieldsOf (f : Form) (w : BitVec 32) (rest : List (BitVec 32)) : Option (Fields × Nat) :=
  let d := w.extractLsb' 16 8
  let a := w.extractLsb' 8 8
  let b := w.extractLsb' 0 8
  let dl := takesLit f.dl d
  let al := takesLit f.al a
  let bl := takesLit f.bl b
  (takeWord f.x2 rest).bind fun (par, r1) =>
  (takeWord dl r1).bind fun (ld, r2) =>
  (takeWord al r2).bind fun (la, r3) =>
  (takeWord bl r3).bind fun (lb, _) =>
  some (⟨d, a, b, opndOf d ld, opndOf a la, opndOf b lb, w.extractLsb' 0 16, w.extractLsb' 0 24, par.getD 0⟩,
    1 + f.x2.toNat + dl.toNat + al.toNat + bl.toNat)

/-- Decode the first instruction of the words a clause has left (R61: reserved OPC, words past `cnt`, privilege,
illegal operand). `priv` says whether privileged code runs. -/
def decode (priv : Bool) (e : Eng) (ws : List (BitVec 32)) : Except DecodeErr (Instr × Nat) :=
  match ws with
  | [] => .error .illegalClause
  | w :: rest =>
    match (formsOf e)[opcOf w]? with
    | none => .error .illegalInstruction
    | some f =>
      match fieldsOf f w rest with
      | none => .error .illegalClause
      | some (fs, n) =>
        if privilegedWord e w && !priv then .error .privilege
        else
          match buildOf e fs (opcOf w) with
          | none => .error .illegalOperand
          | some i => if i.wf then .ok (i, n) else .error .illegalOperand

/-- The clause header (R27). -/
structure Header where
  cnt : Nat
  eng : Option Eng     -- none: the reserved class 7
  ldw : Bool
  stv : Bool
  xw : Bool
  yld : Bool
  trc : Bool
  pred : BitVec 3
  pneg : Bool
  sig : BitVec 16
  deriving DecidableEq, Repr

def engOf (n : Nat) : Option Eng :=
  match n with
  | 0 => some .ctl
  | 1 => some .uni
  | 2 => some .lane
  | 3 => some .flt
  | 4 => some .loc
  | 5 => some .asy
  | 6 => some .sys
  | _ => none

def Eng.num : Eng → BitVec 3
  | .ctl => 0
  | .uni => 1
  | .lane => 2
  | .flt => 3
  | .loc => 4
  | .asy => 5
  | .sys => 6

def headerOf (w : BitVec 32) : Header where
  cnt := (w.extractLsb' 28 4).toNat
  eng := engOf (w.extractLsb' 25 3).toNat
  ldw := w.getLsbD 24
  stv := w.getLsbD 23
  xw := w.getLsbD 22
  yld := w.getLsbD 21
  trc := w.getLsbD 20
  pred := w.extractLsb' 17 3
  pneg := w.getLsbD 16
  sig := w.extractLsb' 0 16

/-- The signature of every clause header (R27). -/
def signature : BitVec 16 := 0x6C5A

/-- A header with no waits and no predicate for `cnt` words of a class (R27). -/
def headerWord (e : Eng) (cnt : Nat) : BitVec 32 :=
  put 4 (BitVec.ofNat 4 cnt) 28 ||| put 3 e.num 25 ||| put 16 signature 0

/-- Words of 32 bits of a number, the first in its low bits. -/
def wordsOfNat : Nat → Nat → List (BitVec 32)
  | 0, _ => []
  | n + 1, w => BitVec.ofNat 32 w :: wordsOfNat n (w / 2 ^ 32)

/-- The classes in the order of their numbers. -/
def classes : List Eng := [.ctl, .uni, .lane, .flt, .loc, .asy, .sys]

/-- The longest instruction has five words (R37). -/
def maxWords : Nat := 5

/-- The first class that reads these words as an instruction, with that instruction. A 32-bit word does not name its
class (R35); the table's opcodes are read per class, so this order is the model's choice. -/
def firstClass (ws : List (BitVec 32)) : List Eng → Option (Eng × Instr × Nat)
  | [] => none
  | e :: es =>
    match decode true e ws with
    | .ok (i, n) => some (e, i, n)
    | .error _ => firstClass ws es

/-- The words of an instruction whose bits are `w` below `nbits`, zero above. -/
def tableWords (nbits w : Nat) : List (BitVec 32) := wordsOfNat maxWords (w % 2 ^ nbits)

/-- The instruction the decoder reads from an instruction whose bits are `w`. -/
def decodeTableWord (nbits w : Nat) : Option Instr :=
  (firstClass (tableWords nbits w) classes).map fun x => x.2.1

/-- A field to encode: a plain byte, or an operand with its literal. -/
inductive Fld where
  | code (c : BitVec 8)
  | op (o : Opnd)
  deriving DecidableEq, Repr

def Fld.byte : Fld → BitVec 8
  | .code c => c
  | .op o => o.code

def Fld.lits : Fld → List (BitVec 32)
  | .code _ => []
  | .op o => o.litWord

/-- RRR and X2 words (R35, R37). -/
def rrrWords (opc : BitVec 8) (d a b : Fld) (par : Option (BitVec 32)) : List (BitVec 32) :=
  (put 8 opc 24 ||| put 8 d.byte 16 ||| put 8 a.byte 8 ||| put 8 b.byte 0) ::
    (par.toList ++ d.lits ++ a.lits ++ b.lits)

/-- RI words (R35). -/
def riWords (opc : BitVec 8) (d : Fld) (imm : BitVec 16) (par : Option (BitVec 32)) : List (BitVec 32) :=
  (put 8 opc 24 ||| put 8 d.byte 16 ||| put 16 imm 0) :: (par.toList ++ d.lits)

/-- BR words (R35). -/
def brWords (opc : BitVec 8) (off : BitVec 24) : List (BitVec 32) := [put 8 opc 24 ||| put 24 off 0]

/-- IMM16 of `fence` and `fence.m` (R58). -/
def fenceImm (scope : BitVec 3) (acq rel : Bool) : BitVec 16 :=
  (scope.zeroExtend 16) ||| ((BitVec.ofBool acq).zeroExtend 16 <<< 3) ||| ((BitVec.ofBool rel).zeroExtend 16 <<< 4)

/-- The class and the words of an instruction; none for the rows that have no encoding. -/
def Instr.encode : Instr → Option (Eng × List (BitVec 32))
  | .nop => some (.ctl, rrrWords 0x00 (.code 0) (.code 0) (.code 0) none)
  | .br off => some (.ctl, brWords 0x01 off)
  | .bz d imm => some (.ctl, riWords 0x02 (.op d) imm none)
  | .bnz d imm => some (.ctl, riWords 0x03 (.op d) imm none)
  | .brS a => some (.ctl, rrrWords 0x04 (.code 0) (.op a) (.code 0) none)
  | .bdiv d imm join => some (.ctl, riWords 0x05 (.op d) imm (some (join)))
  | .jtab n a b join => some (.ctl, rrrWords 0x06 (.code n) (.op a) (.op b) (some (join)))
  | .kill => some (.ctl, rrrWords 0x07 (.code 0) (.code 0) (.code 0) none)
  | .call off => some (.ctl, brWords 0x08 off)
  | .callS a => some (.ctl, rrrWords 0x09 (.code 0) (.op a) (.code 0) none)
  | .ret => some (.ctl, rrrWords 0x0A (.code 0) (.code 0) (.code 0) none)
  | .yield => some (.ctl, rrrWords 0x0B (.code 0) (.code 0) (.code 0) none)
  | .halt => some (.ctl, rrrWords 0x0C (.code 0) (.code 0) (.code 0) none)
  | .maskGet d a => some (.ctl, rrrWords 0x0D (.op d) (.op a) (.code 0) none)
  | .maskAnd a => some (.ctl, rrrWords 0x0E (.code 0) (.op a) (.code 0) none)
  | .maskSet a b => some (.ctl, rrrWords 0x0F (.code 0) (.op a) (.op b) none)
  | .claimV imm => some (.ctl, riWords 0x10 (.code 0) imm none)
  | .giveV imm => some (.ctl, riWords 0x11 (.code 0) imm none)
  | .claimS imm => some (.ctl, riWords 0x12 (.code 0) imm none)
  | .giveS imm => some (.ctl, riWords 0x13 (.code 0) imm none)
  | .claimA d imm => some (.ctl, riWords 0x14 (.op d) imm none)
  | .giveA imm => some (.ctl, riWords 0x15 (.code 0) imm none)
  | .ready n a b => some (.ctl, rrrWords 0x16 (.code n) (.op a) (.op b) none)
  | .phase imm entry => some (.ctl, riWords 0x17 (.code 0) imm (some (entry)))
  | .wait a b => some (.ctl, rrrWords 0x18 (.code 0) (.op a) (.op b) none)
  | .watch a b => some (.ctl, rrrWords 0x19 (.code 0) (.op a) (.op b) none)
  | .trap imm => some (.ctl, riWords 0x1A (.code 0) imm none)
  | .sys d imm => some (.ctl, riWords 0x1B (.op d) imm none)
  | .rett => some (.ctl, rrrWords 0x1C (.code 0) (.code 0) (.code 0) none)
  | .brk imm => some (.ctl, riWords 0x1D (.code 0) imm none)
  | .sadd d a b => some (.uni, rrrWords 0x00 (.op d) (.op a) (.op b) none)
  | .ssub d a b => some (.uni, rrrWords 0x01 (.op d) (.op a) (.op b) none)
  | .smul d a b => some (.uni, rrrWords 0x02 (.op d) (.op a) (.op b) none)
  | .smulh d a b => some (.uni, rrrWords 0x03 (.op d) (.op a) (.op b) none)
  | .smulhu d a b => some (.uni, rrrWords 0x04 (.op d) (.op a) (.op b) none)
  | .sand d a b => some (.uni, rrrWords 0x05 (.op d) (.op a) (.op b) none)
  | .sor d a b => some (.uni, rrrWords 0x06 (.op d) (.op a) (.op b) none)
  | .sxor d a b => some (.uni, rrrWords 0x07 (.op d) (.op a) (.op b) none)
  | .sandn d a b => some (.uni, rrrWords 0x08 (.op d) (.op a) (.op b) none)
  | .sshl d a b => some (.uni, rrrWords 0x09 (.op d) (.op a) (.op b) none)
  | .sshr d a b => some (.uni, rrrWords 0x0A (.op d) (.op a) (.op b) none)
  | .ssar d a b => some (.uni, rrrWords 0x0B (.op d) (.op a) (.op b) none)
  | .smin d a b => some (.uni, rrrWords 0x0C (.op d) (.op a) (.op b) none)
  | .smax d a b => some (.uni, rrrWords 0x0D (.op d) (.op a) (.op b) none)
  | .sminu d a b => some (.uni, rrrWords 0x0E (.op d) (.op a) (.op b) none)
  | .smaxu d a b => some (.uni, rrrWords 0x0F (.op d) (.op a) (.op b) none)
  | .seq d a b => some (.uni, rrrWords 0x10 (.op d) (.op a) (.op b) none)
  | .sne d a b => some (.uni, rrrWords 0x11 (.op d) (.op a) (.op b) none)
  | .slt d a b => some (.uni, rrrWords 0x12 (.op d) (.op a) (.op b) none)
  | .sle d a b => some (.uni, rrrWords 0x13 (.op d) (.op a) (.op b) none)
  | .sltu d a b => some (.uni, rrrWords 0x14 (.op d) (.op a) (.op b) none)
  | .sleu d a b => some (.uni, rrrWords 0x15 (.op d) (.op a) (.op b) none)
  | .scsel d a b => some (.uni, rrrWords 0x16 (.op d) (.op a) (.op b) none)
  | .smov d a => some (.uni, rrrWords 0x17 (.op d) (.op a) (.code 0) none)
  | .smovi d imm => some (.uni, riWords 0x18 (.op d) imm none)
  | .sorhi d imm => some (.uni, riWords 0x19 (.op d) imm none)
  | .saddi d imm => some (.uni, riWords 0x1A (.op d) imm none)
  | .spopc d a => some (.uni, rrrWords 0x1B (.op d) (.op a) (.code 0) none)
  | .sclz d a => some (.uni, rrrWords 0x1C (.op d) (.op a) (.code 0) none)
  | .sbfe d a b => some (.uni, rrrWords 0x1D (.op d) (.op a) (.op b) none)
  | .sbfi d a b => some (.uni, rrrWords 0x1E (.op d) (.op a) (.op b) none)
  | .slane d a b => some (.uni, rrrWords 0x1F (.op d) (.op a) (.op b) none)
  | .vadd d a b => some (.lane, rrrWords 0x00 (.op d) (.op a) (.op b) none)
  | .vsub d a b => some (.lane, rrrWords 0x01 (.op d) (.op a) (.op b) none)
  | .vmul d a b => some (.lane, rrrWords 0x02 (.op d) (.op a) (.op b) none)
  | .vmulh d a b => some (.lane, rrrWords 0x03 (.op d) (.op a) (.op b) none)
  | .vmulhu d a b => some (.lane, rrrWords 0x04 (.op d) (.op a) (.op b) none)
  | .vmad d a b => some (.lane, rrrWords 0x05 (.op d) (.op a) (.op b) none)
  | .vmin d a b => some (.lane, rrrWords 0x06 (.op d) (.op a) (.op b) none)
  | .vmax d a b => some (.lane, rrrWords 0x07 (.op d) (.op a) (.op b) none)
  | .vminu d a b => some (.lane, rrrWords 0x08 (.op d) (.op a) (.op b) none)
  | .vmaxu d a b => some (.lane, rrrWords 0x09 (.op d) (.op a) (.op b) none)
  | .vabs d a => some (.lane, rrrWords 0x0A (.op d) (.op a) (.code 0) none)
  | .vneg d a => some (.lane, rrrWords 0x0B (.op d) (.op a) (.code 0) none)
  | .vand d a b => some (.lane, rrrWords 0x0C (.op d) (.op a) (.op b) none)
  | .vor d a b => some (.lane, rrrWords 0x0D (.op d) (.op a) (.op b) none)
  | .vxor d a b => some (.lane, rrrWords 0x0E (.op d) (.op a) (.op b) none)
  | .vandn d a b => some (.lane, rrrWords 0x0F (.op d) (.op a) (.op b) none)
  | .vnot d a => some (.lane, rrrWords 0x10 (.op d) (.op a) (.code 0) none)
  | .vshl d a b => some (.lane, rrrWords 0x11 (.op d) (.op a) (.op b) none)
  | .vshr d a b => some (.lane, rrrWords 0x12 (.op d) (.op a) (.op b) none)
  | .vsar d a b => some (.lane, rrrWords 0x13 (.op d) (.op a) (.op b) none)
  | .vrot d a b => some (.lane, rrrWords 0x14 (.op d) (.op a) (.op b) none)
  | .vpopc d a => some (.lane, rrrWords 0x15 (.op d) (.op a) (.code 0) none)
  | .vclz d a => some (.lane, rrrWords 0x16 (.op d) (.op a) (.code 0) none)
  | .vbfe d a b => some (.lane, rrrWords 0x17 (.op d) (.op a) (.op b) none)
  | .vbfes d a b => some (.lane, rrrWords 0x18 (.op d) (.op a) (.op b) none)
  | .vbfi d a b => some (.lane, rrrWords 0x19 (.op d) (.op a) (.op b) none)
  | .vmov d a => some (.lane, rrrWords 0x1A (.op d) (.op a) (.code 0) none)
  | .vmovi d imm => some (.lane, riWords 0x1B (.op d) imm none)
  | .vorhi d imm => some (.lane, riWords 0x1C (.op d) imm none)
  | .vaddi d imm => some (.lane, riWords 0x1D (.op d) imm none)
  | .vcmov d a b => some (.lane, rrrWords 0x1E (.op d) (.op a) (.op b) none)
  | .vcmpEq d a b => some (.lane, rrrWords 0x1F (.op d) (.op a) (.op b) none)
  | .vcmpNe d a b => some (.lane, rrrWords 0x20 (.op d) (.op a) (.op b) none)
  | .vcmpLt d a b => some (.lane, rrrWords 0x21 (.op d) (.op a) (.op b) none)
  | .vcmpLe d a b => some (.lane, rrrWords 0x22 (.op d) (.op a) (.op b) none)
  | .vcmpLtu d a b => some (.lane, rrrWords 0x23 (.op d) (.op a) (.op b) none)
  | .vcmpLeu d a b => some (.lane, rrrWords 0x24 (.op d) (.op a) (.op b) none)
  | .pand d a b => some (.lane, rrrWords 0x25 (.op d) (.op a) (.op b) none)
  | .por d a b => some (.lane, rrrWords 0x26 (.op d) (.op a) (.op b) none)
  | .pxor d a b => some (.lane, rrrWords 0x27 (.op d) (.op a) (.op b) none)
  | .pnot d a => some (.lane, rrrWords 0x28 (.op d) (.op a) (.code 0) none)
  | .vmulq d a b => some (.lane, rrrWords 0x29 (.op d) (.op a) (.op b) none)
  | .vrsh d a b => some (.lane, rrrWords 0x2A (.op d) (.op a) (.op b) none)
  | .vsatI8 d a => some (.lane, rrrWords 0x2B (.op d) (.op a) (.code 0) none)
  | .vsatUb d a => some (.lane, rrrWords 0x2C (.op d) (.op a) (.code 0) none)
  | .vsatI16 d a => some (.lane, rrrWords 0x2D (.op d) (.op a) (.code 0) none)
  | .vprm d a b => some (.lane, rrrWords 0x2E (.op d) (.op a) (.op b) none)
  | .fadd d a b => some (.flt, rrrWords 0x00 (.op d) (.op a) (.op b) none)
  | .fsub d a b => some (.flt, rrrWords 0x01 (.op d) (.op a) (.op b) none)
  | .fmul d a b => some (.flt, rrrWords 0x02 (.op d) (.op a) (.op b) none)
  | .ffma d a b => some (.flt, rrrWords 0x03 (.op d) (.op a) (.op b) none)
  | .fmin d a b => some (.flt, rrrWords 0x04 (.op d) (.op a) (.op b) none)
  | .fmax d a b => some (.flt, rrrWords 0x05 (.op d) (.op a) (.op b) none)
  | .fabs d a => some (.flt, rrrWords 0x06 (.op d) (.op a) (.code 0) none)
  | .fneg d a => some (.flt, rrrWords 0x07 (.op d) (.op a) (.code 0) none)
  | .frcp d a => some (.flt, rrrWords 0x08 (.op d) (.op a) (.code 0) none)
  | .frsq d a => some (.flt, rrrWords 0x09 (.op d) (.op a) (.code 0) none)
  | .fsqrt d a => some (.flt, rrrWords 0x0A (.op d) (.op a) (.code 0) none)
  | .fexp2 d a => some (.flt, rrrWords 0x0B (.op d) (.op a) (.code 0) none)
  | .flog2 d a => some (.flt, rrrWords 0x0C (.op d) (.op a) (.code 0) none)
  | .frnd d a => some (.flt, rrrWords 0x0D (.op d) (.op a) (.code 0) none)
  | .fcmpEq d a b => some (.flt, rrrWords 0x0E (.op d) (.op a) (.op b) none)
  | .fcmpLt d a b => some (.flt, rrrWords 0x0F (.op d) (.op a) (.op b) none)
  | .fcmpLe d a b => some (.flt, rrrWords 0x10 (.op d) (.op a) (.op b) none)
  | .fcmpUn d a b => some (.flt, rrrWords 0x11 (.op d) (.op a) (.op b) none)
  | .fcvt d a mode => some (.flt, rrrWords 0x12 (.op d) (.op a) (.code mode) none)
  | .fpack d a mode => some (.flt, rrrWords 0x13 (.op d) (.op a) (.code mode) none)
  | .funpack d a mode => some (.flt, rrrWords 0x14 (.op d) (.op a) (.code mode) none)
  | .fscale d a b => some (.flt, rrrWords 0x15 (.op d) (.op a) (.op b) none)
  | .hadd2 d a b => some (.flt, rrrWords 0x16 (.op d) (.op a) (.op b) none)
  | .hmul2 d a b => some (.flt, rrrWords 0x17 (.op d) (.op a) (.op b) none)
  | .hfma2 d a b => some (.flt, rrrWords 0x18 (.op d) (.op a) (.op b) none)
  | .badd2 d a b => some (.flt, rrrWords 0x19 (.op d) (.op a) (.op b) none)
  | .bmul2 d a b => some (.flt, rrrWords 0x1A (.op d) (.op a) (.op b) none)
  | .bfma2 d a b => some (.flt, rrrWords 0x1B (.op d) (.op a) (.op b) none)
  | .dot2F16 d a b => some (.flt, rrrWords 0x1C (.op d) (.op a) (.op b) none)
  | .dot2Bf16 d a b => some (.flt, rrrWords 0x1D (.op d) (.op a) (.op b) none)
  | .dot4E4m3n d a b => some (.flt, rrrWords 0x1E (.op d) (.op a) (.op b) none)
  | .dot4E5m2n d a b => some (.flt, rrrWords 0x1F (.op d) (.op a) (.op b) none)
  | .dot8E2m1n d a b => some (.flt, rrrWords 0x20 (.op d) (.op a) (.op b) none)
  | .dot4I8 d a b => some (.flt, rrrWords 0x21 (.op d) (.op a) (.op b) none)
  | .dot4Mx8 d a b => some (.flt, rrrWords 0x22 (.op d) (.op a) (.op b) none)
  | .dot8I4 d a b => some (.flt, rrrWords 0x23 (.op d) (.op a) (.op b) none)
  | .ldB d a b => some (.loc, rrrWords 0x00 (.op d) (.op a) (.op b) none)
  | .ldBs d a b => some (.loc, rrrWords 0x01 (.op d) (.op a) (.op b) none)
  | .ldH d a b => some (.loc, rrrWords 0x02 (.op d) (.op a) (.op b) none)
  | .ldHs d a b => some (.loc, rrrWords 0x03 (.op d) (.op a) (.op b) none)
  | .ldW d a b => some (.loc, rrrWords 0x04 (.op d) (.op a) (.op b) none)
  | .ldD d a b => some (.loc, rrrWords 0x05 (.op d) (.op a) (.op b) none)
  | .ldQ d a b => some (.loc, rrrWords 0x06 (.op d) (.op a) (.op b) none)
  | .stB d a b => some (.loc, rrrWords 0x07 (.op d) (.op a) (.op b) none)
  | .stH d a b => some (.loc, rrrWords 0x08 (.op d) (.op a) (.op b) none)
  | .stW d a b => some (.loc, rrrWords 0x09 (.op d) (.op a) (.op b) none)
  | .stD d a b => some (.loc, rrrWords 0x0A (.op d) (.op a) (.op b) none)
  | .stQ d a b => some (.loc, rrrWords 0x0B (.op d) (.op a) (.op b) none)
  | .ldxW d a b => some (.loc, rrrWords 0x0C (.op d) (.op a) (.op b) none)
  | .ldxD d a b => some (.loc, rrrWords 0x0D (.op d) (.op a) (.op b) none)
  | .stxW d a b => some (.loc, rrrWords 0x0E (.op d) (.op a) (.op b) none)
  | .stxD d a b => some (.loc, rrrWords 0x0F (.op d) (.op a) (.op b) none)
  | .spillSt d => some (.loc, rrrWords 0x10 (.op d) (.code 0) (.code 0) none)
  | .spillLd d => some (.loc, rrrWords 0x11 (.op d) (.code 0) (.code 0) none)
  | .atomAdd d a b => some (.loc, rrrWords 0x12 (.op d) (.op a) (.op b) none)
  | .atomFadd d a b => some (.loc, rrrWords 0x13 (.op d) (.op a) (.op b) none)
  | .atomMin d a b => some (.loc, rrrWords 0x14 (.op d) (.op a) (.op b) none)
  | .atomMax d a b => some (.loc, rrrWords 0x15 (.op d) (.op a) (.op b) none)
  | .atomMinu d a b => some (.loc, rrrWords 0x16 (.op d) (.op a) (.op b) none)
  | .atomMaxu d a b => some (.loc, rrrWords 0x17 (.op d) (.op a) (.op b) none)
  | .atomAnd d a b => some (.loc, rrrWords 0x18 (.op d) (.op a) (.op b) none)
  | .atomOr d a b => some (.loc, rrrWords 0x19 (.op d) (.op a) (.op b) none)
  | .atomXor d a b => some (.loc, rrrWords 0x1A (.op d) (.op a) (.op b) none)
  | .atomXchg d a b => some (.loc, rrrWords 0x1B (.op d) (.op a) (.op b) none)
  | .atomCas d a b => some (.loc, rrrWords 0x1C (.op d) (.op a) (.op b) none)
  | .atomxAdd d a b par => some (.loc, rrrWords 0x1D (.op d) (.op a) (.op b) (some (par.toWord)))
  | .atomxXchg d a b par => some (.loc, rrrWords 0x1E (.op d) (.op a) (.op b) (some (par.toWord)))
  | .atomxCas d a b par => some (.loc, rrrWords 0x1F (.op d) (.op a) (.op b) (some (par.toWord)))
  | .shflIdx d a b => some (.loc, rrrWords 0x20 (.op d) (.op a) (.op b) none)
  | .shflXor d a b => some (.loc, rrrWords 0x21 (.op d) (.op a) (.op b) none)
  | .shflUp d a b => some (.loc, rrrWords 0x22 (.op d) (.op a) (.op b) none)
  | .shflDn d a b => some (.loc, rrrWords 0x23 (.op d) (.op a) (.op b) none)
  | .bcast d a b => some (.loc, rrrWords 0x24 (.op d) (.op a) (.op b) none)
  | .voteAny d a => some (.loc, rrrWords 0x25 (.op d) (.op a) (.code 0) none)
  | .voteAll d a => some (.loc, rrrWords 0x26 (.op d) (.op a) (.code 0) none)
  | .ballot d a b => some (.loc, rrrWords 0x27 (.op d) (.op a) (.op b) none)
  | .redAdd d a => some (.loc, rrrWords 0x28 (.op d) (.op a) (.code 0) none)
  | .redFadd d a => some (.loc, rrrWords 0x29 (.op d) (.op a) (.code 0) none)
  | .redMax d a => some (.loc, rrrWords 0x2A (.op d) (.op a) (.code 0) none)
  | .redFmax d a => some (.loc, rrrWords 0x2B (.op d) (.op a) (.code 0) none)
  | .redFmin d a => some (.loc, rrrWords 0x2C (.op d) (.op a) (.code 0) none)
  | .scanAdd d a => some (.loc, rrrWords 0x2D (.op d) (.op a) (.code 0) none)
  | .fence scope acq rel => some (.loc, riWords 0x2E (.code 0) (fenceImm scope acq rel) none)
  | .barInit a b => some (.loc, rrrWords 0x2F (.code 0) (.op a) (.op b) none)
  | .barExpect a b => some (.loc, rrrWords 0x30 (.code 0) (.op a) (.op b) none)
  | .barArrive a b => some (.loc, rrrWords 0x31 (.code 0) (.op a) (.op b) none)
  | .barTest d a => some (.loc, rrrWords 0x32 (.op d) (.op a) (.code 0) none)
  | .streamBind d a b => some (.loc, rrrWords 0x33 (.op d) (.op a) (.op b) none)
  | .streamFill d a => some (.loc, rrrWords 0x34 (.op d) (.op a) (.code 0) none)
  | .streamFree d => some (.loc, rrrWords 0x35 (.op d) (.code 0) (.code 0) none)
  | .streamPub d a => some (.loc, rrrWords 0x36 (.op d) (.op a) (.code 0) none)
  | .chanGo n a => some (.asy, rrrWords 0x00 (.code n) (.op a) (.code 0) none)
  | .chanStop n => some (.asy, rrrWords 0x01 (.code n) (.code 0) (.code 0) none)
  | .chanState n a => some (.asy, rrrWords 0x02 (.code n) (.op a) (.code 0) none)
  | .ringWait a => some (.asy, rrrWords 0x03 (.code 0) (.op a) (.code 0) none)
  | .gather d a b par => some (.asy, rrrWords 0x04 (.op d) (.op a) (.op b) (some (par.toWord)))
  | .scatter d a b par => some (.asy, rrrWords 0x05 (.op d) (.op a) (.op b) (some (par.toWord)))
  | .ldBlk d a b par => some (.asy, rrrWords 0x06 (.op d) (.op a) (.op b) (some (par.toWord)))
  | .stBlk d a b par => some (.asy, rrrWords 0x07 (.op d) (.op a) (.op b) (some (par.toWord)))
  | .atomM d a b par => some (.asy, rrrWords 0x08 (.op d) (.op a) (.op b) (some (par.toWord)))
  | .mloop n a par => some (.asy, rrrWords 0x09 (.code n) (.op a) (.code 0) (some (par.toWord)))
  | .mgloop n a par => some (.asy, rrrWords 0x0A (.code n) (.op a) (.code 0) (some (par.toWord)))
  | .mzero n => some (.asy, rrrWords 0x0B (.code n) (.code 0) (.code 0) none)
  | .mload n a b => some (.asy, rrrWords 0x0C (.code n) (.op a) (.op b) none)
  | .mstore n a par => some (.asy, rrrWords 0x0D (.code n) (.op a) (.code 0) (some (par.toWord)))
  | .mrows d a => some (.asy, rrrWords 0x0E (.op d) (.op a) (.code 0) none)
  | .solicit a rel => some (.asy, rrrWords 0x0F (.code 0) (.op a) (.code 0) (some (solWord rel)))
  | .respond a => some (.asy, rrrWords 0x10 (.code 0) (.op a) (.code 0) none)
  | .tilePut d a => some (.asy, rrrWords 0x11 (.op d) (.op a) (.code 0) none)
  | .tileDrop a => some (.asy, rrrWords 0x12 (.code 0) (.op a) (.code 0) none)
  | .tileMove a b => some (.asy, rrrWords 0x13 (.code 0) (.op a) (.op b) none)
  | .seqAdd a b par => some (.asy, rrrWords 0x14 (.code 0) (.op a) (.op b) (some (par.toWord)))
  | .seqRd d a b => some (.asy, rrrWords 0x15 (.op d) (.op a) (.op b) none)
  | .recPop d a b => some (.asy, rrrWords 0x16 (.op d) (.op a) (.op b) none)
  | .recPush d a b => some (.asy, rrrWords 0x17 (.op d) (.op a) (.op b) none)
  | .portWr d a par => some (.asy, rrrWords 0x18 (.op d) (.op a) (.code 0) (some (par.toWord)))
  | .fenceM scope acq rel => some (.asy, riWords 0x19 (.code 0) (fenceImm scope acq rel) none)
  | .plotWarm a => some (.asy, rrrWords 0x1A (.code 0) (.op a) (.code 0) none)
  | .scrub d a b => some (.asy, rrrWords 0x1B (.op d) (.op a) (.op b) none)
  | .csrRd d addr => some (.sys, riWords 0x00 (.op d) (addr.zeroExtend 16) none)
  | .csrWr d addr => some (.sys, riWords 0x01 (.op d) (addr.zeroExtend 16) none)
  | .csrSet d addr => some (.sys, riWords 0x02 (.op d) (addr.zeroExtend 16) none)
  | .csrClr d addr => some (.sys, riWords 0x03 (.op d) (addr.zeroExtend 16) none)
  | .tstamp d => some (.sys, rrrWords 0x04 (.op d) (.code 0) (.code 0) none)
  | .cede a b => some (.sys, rrrWords 0x05 (.code 0) (.op a) (.op b) none)
  | .bwphaseWrite _ => none
  | .twordRead _ => none
  | .trbaseWrite _ => none
  | .barrelIssue _ => none
  | .clauseWaitsSatisfied _ _ _ => none
  | .locWriteback _ _ _ _ _ => none
  | .positionReassign _ => none
  | .responderPoolEnable _ => none
  | .responderPoolDisable _ => none
  | .calendarSlotServe _ _ => none
  | .crewPlace _ _ _ => none
  | .crewRetire _ _ => none
  | .phaseRecordWrite _ _ => none
  | .claimGranted _ _ _ => none
  | .rkResumeTeam _ _ => none
  | .rkRetireTeam _ _ => none
  | .sysReply _ _ _ _ _ _ _ _ => none
  | .issueHoldRelease _ _ _ => none
  | .gatherPacketDeliver _ _ _ => none
  | .writeAcknowledge _ _ _ => none
  | .atomMPerform _ _ _ => none
  | .blkSegmentComplete _ _ _ => none
  | .portWrSent _ _ => none
  | .asyncPartFail _ _ _ => none
  | .waitWake _ _ _ => none
  | .streamWaitRelease _ _ _ => none
  | .chanRecordStart _ _ => none
  | .chanSegmentAck _ _ => none
  | .chanStopDone _ _ => none
  | .chanRecordUnreadable _ _ => none
  | .ringWaitRecheck _ _ _ => none
  | .mloopStart _ => none
  | .mloopRowGroupCommit _ => none
  | .mloopPageFault _ => none
  | .mloopFailure _ => none
  | .mstoreRowAck _ _ => none
  | .mstoreRowFail _ _ => none
  | .pageMap _ _ _ _ => none
  | .pageFaultRefuse _ _ => none
  | .pagePin _ _ => none
  | .pageUnpin _ _ => none
  | .leafChange _ _ _ _ => none
  | .invalidationComplete _ _ => none
  | .plotAllocate _ _ => none
  | .plotWakeComplete _ => none
  | .plotRetentionEntry _ => none
  | .plotPowerDown _ _ => none
  | .pseudoChannelFail _ => none
  | .rowMitigation _ _ => none
  | .rowThrottleStart _ _ => none
  | .rowThrottleEnd _ _ => none
  | .deferredMitigationRun _ => none
  | .contextStart _ => none
  | .preemptSoft _ _ => none
  | .preemptHard _ => none
  | .softDeadlineExpire _ => none
  | .yieldingEmpty _ => none
  | .preemptAgain _ _ => none
  | .vacateComplete _ => none
  | .saveFailure _ => none
  | .contextRestore _ => none
  | .restoreComplete _ => none
  | .contextDestroy _ => none
  | .allowanceWrite _ _ _ => none
  | .cedeCreditArrive _ _ _ => none
  | .admissionRetest _ => none
  | .rkHeartbeatTimeout => none
  | .rkSystemCoreFault => none
  | .rkReadopt _ => none
  | .readoptFail _ => none
  | .warmRebootFail => none
  | .partReset => none
  | .kloadLoad _ _ _ => none
  | .kloadUnload _ _ => none
  | .kernelCloseComplete _ _ => none
  | .kernelEndAfterFault _ _ => none
  | .phasePlace _ _ _ => none
  | .phaseCommit _ _ _ => none
  | .seqAddPerform _ _ => none
  | .deferredAddPerform _ _ _ _ => none
  | .deferredAddDrop _ _ _ _ => none
  | .seqRdComplete _ _ => none
  | .recPushEngineAnswer _ _ _ => none
  | .recPushAck _ _ => none
  | .recPopPlace _ _ => none
  | .doorbellWrite _ _ _ => none
  | .queueSlotGrant _ _ _ => none
  | .queueUnmap _ _ => none
  | .queueFaultMapped _ _ => none
  | .queueFaultRefused _ _ => none
  | .queueDelete _ _ => none
  | .frontEndSweep _ => none
  | .nopPacket _ _ => none
  | .append _ _ => none
  | .signal _ _ => none
  | .waitseq _ _ => none
  | .waitseqSatisfied _ _ => none
  | .copy _ _ => none
  | .copyComplete _ _ => none
  | .release _ _ => none
  | .acquire _ _ => none
  | .tstampPacket _ _ => none
  | .scrubPacket _ _ => none
  | .unknownPacket _ _ => none
  | .ctxopCreate _ _ => none
  | .ctxopPreempt _ _ => none
  | .ctxopRestore _ _ => none
  | .ctxopDestroy _ _ => none
  | .ctxopSetDraining _ _ => none
  | .ctxopClearDraining _ _ => none
  | .arbitrationPeriodBoundary _ => none
  | .vfSlotConfig _ _ _ => none
  | .wakeFilterWrite _ _ => none
  | .wakeFrameMatch _ _ => none
  | .solicitDirectoryPass _ _ _ => none
  | .solicitForwardArrive _ _ => none
  | .responderSpawn _ _ => none
  | .combineNode _ _ _ _ => none
  | .censusComplete _ _ => none
  | .censusSlotRetireArrive _ _ _ => none
  | .tileMoveCommit _ _ => none
  | .tileMoveFail _ _ => none
  | .tileDropComplete _ _ _ => none
  | .linkEnable _ => none
  | .linkTrainedFull _ => none
  | .linkTrainedHalf _ => none
  | .linkTrainingTimeout _ => none
  | .linkErrorRetrain _ => none
  | .expanderCompletionTimeout => none
  | .linkRetrained _ _ => none
  | .linkRetrainTimeout _ => none
  | .linkDisable _ => none
  | .flitCrcReplay _ => none
  | .portReadFail _ _ _ => none
  | .bar2Bind _ _ _ => none
  | .bar2PostedWrite _ _ _ => none
  | .bar2Read _ _ _ => none
  | .peerAccessArrive _ _ _ _ _ _ _ => none
  | .qpDoorbell _ _ => none
  | .send _ _ => none
  | .sendWithImmediate _ _ => none
  | .rdmaWrite _ _ => none
  | .rdmaWriteWithImmediate _ _ => none
  | .rdmaRead _ _ => none
  | .sendEntryBadOp _ _ => none
  | .incomingRdmaAccess _ _ _ _ _ _ => none
  | .receiveConsume _ _ _ _ _ => none
  | .qpRetriesExhausted _ _ => none
  | .getVersion => none
  | .getCapabilities => none
  | .negotiateAlgorithms _ => none
  | .getDigests => none
  | .getCertificate _ => none
  | .challenge => none
  | .getMeasurements _ => none
  | .keyExchange => none
  | .finish => none
  | .keyUpdate => none
  | .heartbeat => none
  | .endSession => none
  | .measurementExtend _ _ => none
  | .zmiReadTopology => none
  | .zmiReadHealth => none
  | .zmiSetDraining _ => none
  | .zmiClearDraining _ => none
  | .zmiSetPartDraining => none
  | .zmiReadFaultLog _ => none
  | .zmiReadPlotMap => none
  | .zmiReadVacateAudit => none
  | .zmiReadUnitCounters => none
  | .zmiReadRdThresholds => none
  | .zmiSnapshotRefresh => none
  | .debuggerStopRequest _ _ => none
  | .contextWideStop _ => none
  | .debuggerResume _ _ => none
  | .debuggerSingleStep _ _ _ => none
  | .debuggerWrite _ _ _ _ => none
  | .breakpointProgram _ _ _ => none
  | .debuggerDetach _ => none
  | .debuggerAttach _ => none
  | .traceWriteFault _ => none
  | .queueRegister _ _ _ _ => none
  | .recordQueueRegister _ _ => none
  | .portTableWrite _ _ _ _ => none
  | .memoryRegionRegister _ _ _ _ _ _ _ => none
  | .queuePairSetup _ _ _ _ _ _ _ _ _ _ => none
  | .sendEntryComplete _ _ _ _ => none
  | .coreGating => none

end Sys2Proof
end

