-- ==== Sys2Proof/Machine/State.lean ====
section
/-! DEFINITION. The state of one 4320 package as plain data: cores with their teams, contexts with their kernels, the
memories, the queues, the links, and what the model itself needs to be deterministic (the events to come, the
nanoseconds of each step). Sparse tables are lists of (number, value) in rising order of the number; a register file or
an on-chip memory lists no zero, so an unlisted register or byte reads as zero. -/

namespace Sys2Proof.Machine

/-- A sparse table by number, strictly rising. -/
abbrev Map (α : Type) := List (Nat × α)
/-- A sparse register file: strictly rising, no zero listed; unlisted registers read zero. -/
abbrev Regs (w : Nat) := List (Nat × BitVec w)
/-- Main memory: the bytes that something has written, by PA, strictly rising. What an unlisted address reads as is
`Memory.get` of Machine/Ops.lean. -/
abbrev Memory := List Host.Cell

/-! ### Teams and splits (06) -/

/-- The state of a split-table entry (R109); a free entry is not listed. -/
inductive SplitState where
  | ready | waiting | parked | parent
  deriving DecidableEq, Repr

/-- What holds a split at issue, cause 8 (R109). -/
inductive Hold where
  | giveTiles | tile | matrix | packets | census | answer | slots
  deriving DecidableEq, Repr

/-- A register or tile claim (R117): `a d n` writes the bitmap of tiles to s[d]. -/
inductive Claim where
  | v (n : Nat)
  | s (n : Nat)
  | a (d n : Nat)
  deriving DecidableEq, Repr

/-- What a waiting split waits for (R109 `cause`), with what its completion needs. `ringPage` holds a `ring.wait` whose
page is absent, until it is mapped or refused (R162). `stream` names the streams that a word pops, in order, or the one that a
`stream.fill` takes a slot of (R149). `recPush` holds a push of the record at `src` until the queue engine
answers (R293). `coded` is a cause that a debugger has written in the entry, with nothing that ends the wait (R165). -/
inductive Wait where
  | none
  | bar (off : Nat) (phase : Bool)
  | ring (va : Nat)
  | ringPage (va : Nat) (refused : Bool)
  | sys (d service item : Nat)
  | claim (c : Claim)
  | stream (qs : List Nat) (fill : Bool)
  | admission (k : Nat) (c : Option Claim)
  | header
  | held (h : Hold)
  | recPush (queue src bar : Nat) (item : Option Nat)
  | drop (entry : Nat)
  | phasing
  | coded (cause : Nat)
  deriving DecidableEq, Repr

/-- A clause in issue (R28, R30): its header's VA and word, the gate sampled at issue, and the position of the next
word to issue, 1 to `cnt`. -/
structure Clause where
  h : W64
  hdr : W32
  gate : Mask
  pos : Nat
  deriving DecidableEq, Repr

/-- What handler entry saves with the split (R267): the masks, the header, and the word position of the resume point
(0 when it is a header), with the slots that a wait for streams has already given the word there (R217). -/
structure Frame where
  exec : Mask
  live : Mask
  h : W64
  hdr : W32
  w : Nat
  popped : Option (List Nat)
  deriving DecidableEq, Repr

/-- What a LOC word still does to a memory (R201): nothing, or a load, a store or an atomic (by the operation codes of
R154) of some bytes per lane. -/
inductive LocOp where
  | none
  | load (size : Nat) (signed : Bool)
  | store (size : Nat)
  | atom (op size : Nat)
  deriving DecidableEq, Repr

/-- One lane's access of a LOC word that has not been performed (R201): the place in the core's shared store, or from the
start of the context's window in the die scratchpad, the operand and the compare value. -/
structure LocAcc where
  lane : Nat
  die : Bool
  addr : Nat
  data : Nat
  cmp : Nat
  deriving DecidableEq, Repr

/-- A LOC word of a split that is not done: its result for an `s` register (`uni`) or for the lanes of `v[reg]` (and of
`v[reg + 1]` at 1024 + lane in `vals`) that have not written back (R32), and its accesses that have not been performed
(R201). `after` waits for every earlier access of the split (a release), `hold` makes every later one wait (an acquire, or a
`fence` issued since), and `fence` holds the next clause: 1 until its accesses are performed, 2 until it has written back
(R144, R216). `no` is the number that the core's next engine operation had when the word issued, so that the operations with
that number or a later one come after it (R208); `seen` says that the team's other splits see its stores already (R211). -/
structure Writeback where
  uni : Bool
  reg : Nat
  lanes : Mask
  vals : Regs 32
  sval : W64
  op : LocOp
  accs : List LocAcc
  after : Bool
  hold : Bool
  fence : Nat
  no : Nat
  seen : Bool
  deriving DecidableEq, Repr

/-- One split-table entry (R109). A parent keeps the execute mask of its divergence, less the lanes killed since (R113).
`wlen` is how many words the instruction has that the split waits at; `transfer` says that the split reached `pc` by a
taken transfer (R28); `waited` that its header's waits have held; `passBreak` that it resumes from a stop at this word, `passWord` from one that the word itself caused (R129, R170);
`prepaid` the cost item an admission retest has already entered (R253); `popped` the slots that a wait for streams has given
the word (R217); `heldAt` since when the word is held by the
512-packet limit (R151). -/
structure Split where
  pc : W64
  join : W64
  depth : Nat
  state : SplitState
  parent : Nat
  children : Nat
  wait : Wait
  wlen : Nat
  live : Mask
  exec : Mask
  clause : Option Clause
  transfer : Bool
  waited : Bool
  passBreak : Bool
  passWord : Bool
  prepaid : Option Nat
  popped : Option (List Nat)
  frame : Option Frame
  wbs : List Writeback
  heldAt : Option W64
  deriving DecidableEq, Repr

/-- A split-table entry with nothing in it: the reset values of R109 and empty masks. -/
def Split.blank : Split where
  pc := 0
  join := 0
  depth := 0
  state := .ready
  parent := 0
  children := 0
  wait := .none
  wlen := 0
  live := 0
  exec := 0
  clause := none
  transfer := false
  waited := false
  passBreak := false
  passWord := false
  prepaid := none
  popped := none
  frame := none
  wbs := []
  heldAt := none

/-- The states of a team (R104). A retired team is not listed; a saved one stands in its context's saved cores. -/
inductive TeamState where
  | active | phasing | handler (split : Nat) | held | stopped
  deriving DecidableEq, Repr

/-- The side buffer (R270). `fresh` says that it holds engine failures no 0x0303 trap has delivered (R271). -/
structure SideBuf where
  code : BitVec 16
  grade : BitVec 2
  split : Nat
  late : Bool
  overrun : Bool
  fresh : Bool
  pc : W64
  info : W64
  info2 : W64
  bdetail : W64
  bfails : Nat
  mask : Mask
  detail : Map W64
  deriving DecidableEq, Repr

def SideBuf.zero : SideBuf :=
  ⟨0, 0, 0, false, false, false, 0, 0, 0, 0, 0, 0, []⟩

/-- A deferred add of the team's commit list (R290), with the cost items it carries, and whether the resident kernel has
refused its counter's page (R291). `core` is the core whose estimate holds the items. -/
structure CommitAdd where
  va : Nat
  amt : Nat
  items : List Nat
  refused : Bool
  core : Nat
  deriving DecidableEq, Repr

/-- What a responder answers (R318): the census slot and its identifier, the entry that counted the match, and whether
it has responded. -/
structure RespInfo where
  slot : Nat
  ident : W64
  entry : Nat
  ccore : Nat
  centry : Nat
  words : Nat
  responded : Bool
  deriving DecidableEq, Repr

/-- A fault that left its team Held or stopped it (R266, R178), with its faulting lanes and its time (R273). -/
structure FaultInfo where
  code : BitVec 16
  split : Nat
  pc : W64
  info : W64
  lanes : Mask
  tstamp : W64
  deriving DecidableEq, Repr

/-- One team (R9, R102). Lane register r of lane L is entry 1024 r + L of `v`; spill row r, column L is entry
1024 r + L of `spill`. `placedV` and `placedS` count the registers it has held since its placement, whose hold leaves at its
retire (R249). `rr` is the round-robin pointer (R115), counted on past 15 from the position being issued; `step` names the split
of which a debugger's single step is due (R167), and `freeEntries` what a debugger has written in free split-table entries
(R165). -/
structure Team where
  crew : Nat
  kernel : Nat
  serial : Nat
  index : Nat
  role : BitVec 8
  lanes : Nat
  replay : Nat
  order : Nat
  vcount : Nat
  scount : Nat
  placedV : Nat
  placedS : Nat
  v : Regs 32
  s : Regs 64
  p : Regs 1024
  splits : Map Split
  rr : Nat
  yielded : List Nat
  watch : Option (Nat × Bool)
  conds : Map (Nat × Nat)
  spill : Regs 32
  backing : Nat
  state : TeamState
  prev : TeamState
  fault : Option FaultInfo
  tvec : W64
  tpc : W64
  tcause : BitVec 16
  tslot : BitVec 6
  tgrade : BitVec 2
  inv : Bool
  vtrap : Bool
  dall : Bool
  smp : Bool
  tre : Bool
  bke : Bool
  att : Bool
  wpaddr : W64
  wplen : BitVec 16
  wprd : Bool
  wpwr : Bool
  wpen : Bool
  smpCount : Nat
  side : SideBuf
  commit : List CommitAdd
  source : Option Nat
  phase : Option (Nat × W64)
  resp : Option RespInfo
  priv : Bool
  fenceW : List Nat
  fenceR : List Nat
  step : Option Nat
  freeEntries : Map Split
  deriving DecidableEq, Repr

/-- A team with nothing claimed: every register, CSR and buffer at its reset value (R102, R169, R256, R269). DESIGN CHOICE: no
placed team or responder is privileged, and nothing makes one so; R59's privileged code runs only where a state sets `priv`. -/
def Team.blank : Team where
  crew := 0
  kernel := 0
  serial := 0
  index := 0
  role := 0
  lanes := 0
  replay := 0
  order := 0
  vcount := 0
  scount := 0
  placedV := 0
  placedS := 0
  v := []
  s := []
  p := []
  splits := []
  rr := 0
  yielded := []
  watch := none
  conds := []
  spill := []
  backing := 0
  state := .active
  prev := .active
  fault := none
  tvec := 0
  tpc := 0
  tcause := 0
  tslot := 0
  tgrade := 0
  inv := false
  vtrap := false
  dall := false
  smp := false
  tre := false
  bke := false
  att := false
  wpaddr := 0
  wplen := 0
  wprd := false
  wpwr := false
  wpen := false
  smpCount := 0
  side := SideBuf.zero
  commit := []
  source := none
  phase := none
  resp := none
  priv := false
  fenceW := []
  fenceR := []
  step := none
  freeEntries := []

/-- A bound stream (R148): base, slots, slot bytes, the counters I, P, C, F, the slot numbers marked published but not
yet passed, the slot numbers reserved by outstanding publications (R347), and the number of its binding. -/
structure Stream where
  base : Nat
  slots : Nat
  size : Nat
  issued : Nat
  published : Nat
  popped : Nat
  freed : Nat
  marks : List Nat
  resv : List Nat
  binding : Nat
  deriving DecidableEq, Repr

/-- A crew on a core, listed by its crew slot (R308): its serial within the kernel, and its region of the shared store
(R134). `credit` names the record queue whose binding placed it, until its first `rec.pop` there (R294); `bound` says that a
launch binding placed it, so that its process part is `-` (R164). -/
structure Crew where
  kernel : Nat
  serial : Nat
  base : Nat
  size : Nat
  streams : Map Stream
  bindings : Nat
  credit : Option Nat
  bound : Bool
  deriving DecidableEq, Repr

/-! ### Engines of a core (07, 10) -/

/-- One lane's (or run's) access of an async instruction: its VA, its place in the core's shared store, the PA it was
translated to, the bytes it carries, whether its atomic is performed, and the words of a read that have been performed
before a later write (R201, R203). -/
structure Acc where
  lane : Nat
  va : Nat
  loc : Nat
  len : Nat
  pa : Nat
  data : List Byte
  done : Bool
  pre : Memory
  deriving DecidableEq, Repr

/-- A part of an async instruction: sent to its target, held for fault service at a page, or failing with a reason of
R270. -/
inductive PartState where
  | sent
  | held (page : Nat)
  | failing (reason : Nat)
  deriving DecidableEq, Repr

/-- A packet, segment or request (R151, R226): its target is a stack 0 to 7, 8 a window, 9 expander memory, 10 a port. `waits`
counts the slots of the calendar that it still waits for (R19), and `id` names it at the shared units. -/
structure Part where
  i : Nat
  target : Nat
  state : PartState
  accs : List Acc
  waits : Nat
  id : Nat
  deriving DecidableEq, Repr

/-- What an outstanding async operation does. -/
inductive AKind where
  | gather
  | scatter
  | atomM (op : Nat)
  | ldBlk
  | stBlk
  | portWr
  | seqAdd (amt : Nat)
  | seqRd
  | recPush (queue j : Nat)
  | recPop (queue : Nat)
  | scrub (report lo n : Nat)
  | move (entry target tentry toff : Nat)
  deriving DecidableEq, Repr

/-- An outstanding async operation: the team position and placement order it belongs to, its crew slot, its barrier
(address in the core's shared store), its parts and the next part's number, the slot its completion publishes (stream,
slot number, binding), the cost item it carries, the operations a `fence.m` makes it wait for (R144), and what its sample
record tells (R173). `acq`, `rel` and `scope` are its parameter word's (R150); `relW` holds the releasing operations its own
release follows (R211), and `port` says that its writes are to be performed at port scope (R144, R209). -/
structure AsyncOp where
  team : Nat
  order : Nat
  split : Nat
  crew : Nat
  kind : AKind
  bar : Nat
  size : Nat
  parts : List Part
  nextPart : Nat
  pub : Option (Nat × Nat × Nat)
  item : Option Nat
  pc : W64
  afterW : List Nat
  afterR : List Nat
  sampled : Bool
  nlanes : Nat
  sectors : List Nat
  replays : Nat
  issuedAt : W64
  acq : Bool
  rel : Bool
  scope : Nat
  relW : List Nat
  port : Bool
  heldNs : Nat
  deriving DecidableEq, Repr

/-- The registers of a loop, read once at issue (R183). -/
structure LoopPar where
  abase : Nat
  bbase : Nat
  astride : Nat
  bstride : Nat
  ainc : Nat
  binc : Nat
  count : Nat
  fmt : W64
  ascale : Nat
  bscale : Nat
  index : Option Nat
  deriving DecidableEq, Repr

/-- The registers of `mstore` (R194, R195). -/
structure StorePar where
  dst : Nat
  ostride : Nat
  mode : W64
  index : Nat
  deriving DecidableEq, Repr

/-- What a held matrix instruction does. -/
inductive MatBody where
  | loop (l : LoopPar)
  | store (r : StorePar)
  deriving DecidableEq, Repr

/-- A held matrix instruction (R182), listed by its number in issue order: loops keep their progress, an `mstore` its next
row, how many rows' bytes have left the barrier (`paid`), and, once it has read it, the tile. `order` is its place in the
unit's queue; `started` says that it is in the unit, `begun` that it has begun to be performed; `fail` is the fault code its
next access fails with, `failVa` the VA that failed (R271), `split` the entry that issued it (R208), and `slots` counts the slots of
the calendar that its next accesses wait for (R19). -/
structure MatOp where
  order : Nat
  team : Nat
  split : Nat
  torder : Nat
  crew : Nat
  tile : Nat
  body : MatBody
  started : Bool
  begun : Bool
  step : Nat
  group : Nat
  row : Nat
  paid : Nat
  rowsRead : Option (List Nat)
  tileRead : Option (Regs 32)
  page : Option Nat
  fail : Option Nat
  failVa : Nat
  nan : Bool
  bar : Nat
  item : Option Nat
  afterW : List Nat
  afterR : List Nat
  pc : W64
  acq : Bool
  rel : Bool
  scope : Nat
  relW : List Nat
  port : Bool
  slots : Option Nat
  deriving DecidableEq, Repr

/-- An accumulator tile that a team holds (R180, R190): element (i, c) is entry 64 i + c. `leaving` marks a tile of a
retired team that a matrix instruction still uses (R104), and `placed` one that its team has held since its placement
(R249). -/
structure Tile where
  team : Nat
  leaving : Bool
  data : Regs 32
  step : Nat
  run : Bool
  err : Bool
  group : Nat
  placed : Bool
  deriving DecidableEq, Repr

/-- The states of a copy channel (R160). -/
inductive ChanState where
  | idle | running | stopping
  deriving DecidableEq, Repr

/-- A transfer record as the channel read it (R157). -/
structure ChanRec where
  next : Nat
  ctl : W64
  src : Nat
  dst : Nat
  length : Nat
  rows : Nat
  sstride : Nat
  dstride : Nat
  cpl : Nat
  tag : W64
  deriving DecidableEq, Repr

/-- A copy channel (R159, R160): the number of its chain, the current record's VA, what the chain's team was, the record
as read, the bytes acknowledged since it was (re)started, whether it has written any, the page it is held for, the fault code its
next access fails with, and the status and fault code of a completion that is still to be written. `slots` counts the slots of
the calendar that its next segment waits for, none when it has asked for none (R19), and `ahead` holds what is left of a source
sector that the last segment read a part of (R345). -/
structure Chan where
  state : ChanState
  num : Nat
  recVa : Nat
  isLocal : Bool
  team : Nat
  split : Nat
  order : Nat
  crew : Nat
  kernel : Nat
  teamT : Nat
  cur : Option ChanRec
  done : Nat
  wrote : Bool
  page : Option Nat
  fail : Option Nat
  pend : Option (Nat × Nat)
  slots : Option Nat
  item : Option Nat
  afterW : List Nat
  afterR : List Nat
  relW : List Nat
  port : Bool
  ahead : List Byte
  deriving DecidableEq, Repr

/-- The state of a directory entry (R308); a free entry is not listed. -/
inductive DirState where
  | resident | movingOut | movingIn | stub
  deriving DecidableEq, Repr

/-- A stall-directory entry (R308). `pentry` is the entry's number
at `peer`, and `waits` holds the census slots outstanding at a stub's commit (R309). -/
structure DirEntry where
  key : W64
  length : Nat
  offset : Nat
  kernel : Nat
  state : DirState
  crew : Nat
  peer : Nat
  pentry : Nat
  clause : Nat
  answered : W64
  waits : W64
  dropping : Bool
  deriving DecidableEq, Repr

/-- A match accepted and not yet spawned (R317, R318), with the place of the entry that counted it. -/
structure Match where
  slot : Nat
  entry : Nat
  ccore : Nat
  centry : Nat
  deriving DecidableEq, Repr

/-- An answer a core has sent and keeps (R325): its census slot, the entry that counted it, and its words; none is a
null answer. -/
structure Answer where
  slot : Nat
  ccore : Nat
  centry : Nat
  words : Option (List W32)
  deriving DecidableEq, Repr

/-- An entry of a TLB (R223): the context it is tagged with, the VA and the level of the page, and its leaf entry. -/
structure TlbEntry where
  ctx : Nat
  va : Nat
  level : Nat
  leaf : W64
  deriving DecidableEq, Repr

/-- One core (R13, R102, R249). `owners` maps barrel positions to team positions; `items` the outstanding costed items;
`stalled` the stalled order of (team position, split). `heldPlots` names the waking plots that hold requests of the core,
since `heldFrom` (R236); `tlb` is the first-level TLB, oldest entry first (R223); `stopIn` counts the barrel positions left
until a context-wide stop (R167). -/
structure Core where
  ctx : Option Nat
  pos : Nat
  owners : Map Nat
  reassign : Bool
  teams : Map Team
  crews : Map Crew
  nextOrder : Nat
  shared : Regs 8
  tiles : Map Tile
  mats : Map MatOp
  chans : Map Chan
  asyncs : Map AsyncOp
  nextX : Nat
  allow : Nat
  items : Map Nat
  stalled : List (Nat × Nat)
  trbase : W64
  trsize : W64
  trhead : W64
  smpint : W64
  trlost : W64
  trPend : List (List Byte)
  pcCtl : W64
  pcIssue : W64
  pcIdle : W64
  pcBank : W64
  pcAdmit : W64
  pcAsync : W64
  pcPkt : W64
  pcSplit : W64
  wakens : W64
  heldPlots : List Nat
  heldFrom : W64
  breaks : Map W64
  dir : Map DirEntry
  spawnQ : List Match
  answers : List Answer
  staging : Map (List Byte)
  tlb : List TlbEntry
  stopIn : Option Nat
  deriving DecidableEq, Repr

/-- A core that belongs to no context: every register at its reset value (R169, R174, R190, R308). -/
def Core.init : Core where
  ctx := none
  pos := 0
  owners := []
  reassign := false
  teams := []
  crews := []
  nextOrder := 0
  shared := []
  tiles := []
  mats := []
  chans := []
  asyncs := []
  nextX := 0
  allow := 0
  items := []
  stalled := []
  trbase := 0
  trsize := 0
  trhead := 0
  smpint := 4096
  trlost := 0
  trPend := []
  pcCtl := 0
  pcIssue := 0
  pcIdle := 0
  pcBank := 0
  pcAdmit := 0
  pcAsync := 0
  pcPkt := 0
  pcSplit := 0
  wakens := 0
  heldPlots := []
  heldFrom := 0
  breaks := []
  dir := []
  spawnQ := []
  answers := []
  staging := []
  tlb := []
  stopIn := none

/-! ### Kernels and record queues (17) -/

/-- The states of a phase record (R286). -/
inductive RecState where
  | free | writing | waiting | ready | placed | final
  deriving DecidableEq, Repr

/-- A phase record (R286). `cond` and `commit` are pairs (counter VA, threshold or amount); `due` says that the adds of
the commit area have become due (R291); `held` lists the slots found to hold (R288), `readyNo` is the record's place in
the order in which the kernel's records became ready (R287), `settled` holds the costs of adds that are acknowledged before
the others of their commit (R290), and `after` the operations that the commit waits for (R291). -/
structure PhaseRec where
  state : RecState
  entry : W64
  team : Nat
  replay : Nat
  carry : Nat
  sregs : Nat
  init : Bool
  role : Nat
  readyts : W64
  lanes : Nat
  cond : Map (Nat × Nat)
  commit : List CommitAdd
  due : Bool
  core : Nat
  src : Option Nat
  s : Regs 64
  v : Regs 32
  held : List Nat
  readyNo : Nat
  settled : List (Nat × List Nat)
  after : List Nat
  deriving DecidableEq, Repr

/-- A free record; every pool record is free at load. -/
def PhaseRec.empty : PhaseRec :=
  ⟨.free, 0, 0, 0, 0, 0, false, 0, 0, 0, [], [], false, 0, none, [], [], [], 0, [], []⟩

/-- The states of a kernel that has a load number (R284). -/
inductive KernState where
  | loaded | closing | unloaded
  deriving DecidableEq, Repr

/-- A kernel (R284, R53): its image's shape and sections, its pool, the crews queued for placement (each with the
record queue whose binding queued it), the Ready records in ready order, and the next crew serial (R164). -/
structure Kern where
  state : KernState
  image : Nat
  codeVa : Nat
  constVa : Nat
  dataVa : Nat
  codewords : Nat
  constbytes : Nat
  databytes : Nat
  shared : Nat
  teams : Nat
  acc : Nat
  lanes : Nat
  vregs : Nat
  sregs : Nat
  roles : List Byte
  resp : List Nat
  pool : Nat
  records : Nat
  replays : Nat
  maxcarry : Nat
  recs : Map PhaseRec
  queued : List (Option Nat)
  readyQ : List Nat
  serial : Nat
  pid : Nat
  tid : Nat
  nextReady : Nat
  deriving DecidableEq, Repr

/-- A kernel with no code. -/
def Kern.blank : Kern where
  state := .loaded
  image := 0
  codeVa := 0
  constVa := 0
  dataVa := 0
  codewords := 0
  constbytes := 0
  databytes := 0
  shared := 0
  teams := 0
  acc := 0
  lanes := 0
  vregs := 0
  sregs := 0
  roles := []
  resp := []
  pool := 0
  records := 0
  replays := 0
  maxcarry := 0
  recs := []
  queued := []
  readyQ := []
  serial := 0
  pid := 0
  tid := 0
  nextReady := 0

/-- A pending pop at the queue engine (R293): the core and number of its operation, and its kernel. -/
structure PendPop where
  core : Nat
  x : Nat
  kernel : Nat
  deriving DecidableEq, Repr

/-- A record queue (R292), listed by its descriptor's VA. `acked` holds the numbers acknowledged and not yet published;
`credit` the kernel of each queued crew that counts as a pending pop (R294). -/
structure RecQueue where
  ring : Nat
  size : Nat
  head : Nat
  tail : Nat
  pub : Nat
  bind : Bool
  thresh : Nat
  kernel : Nat
  acked : List Nat
  pops : List PendPop
  credit : List Nat
  deriving DecidableEq, Repr

/-! ### Contexts (13, 14, 15, 19) -/

/-- The states of a context (R245, R246). -/
inductive CtxState where
  | created | running | yielding | vacating | saved | restoring | frozen | spoiled | destroyed
  deriving DecidableEq, Repr

/-- A fault-log entry (R273). -/
structure LogEntry where
  tstamp : W64
  kernel : Nat
  team : Nat
  act : Nat
  grade : Nat
  code : BitVec 16
  pc : W64
  info : W64
  pid : Nat
  tid : Nat
  deriving DecidableEq, Repr

/-- The stage of a census: the broadcast still counts, or the slot retires (R320, R324). -/
inductive CensusStage where
  | counting | retiring
  deriving DecidableEq, Repr

/-- An outstanding solicit (R313 to R325), by census slot: who asked, the run it read, the payload, the cores still to
pass, the counts (core, entry), the combined nodes (level, node, result), the cores still to clear the slot, and the asker's
reads that a `fence.m` puts before its passes (R327). -/
structure Census where
  ident : W64
  core : Nat
  team : Nat
  order : Nat
  crew : Nat
  key : W64
  mask : W64
  n : Nat
  op : Nat
  roff : Nat
  bar : Nat
  package : Bool
  width : Nat
  payload : List Byte
  toPass : List Nat
  counts : List (Nat × Nat)
  nodes : List (Nat × Nat × Option (List W32))
  stage : CensusStage
  toRetire : List Nat
  item : Option Nat
  afterR : List Nat
  deriving DecidableEq, Repr

/-- A forward in flight from a stub (R316): the census slot, the entry that counted it, and the target core and key
entry it follows. -/
structure Forward where
  slot : Nat
  ccore : Nat
  centry : Nat
  target : Nat
  tentry : Nat
  deriving DecidableEq, Repr

/-- An entry of a context's port table (R332), as its two words. -/
structure PortEntry where
  base : W64
  ctl : W64
  deriving DecidableEq, Repr

/-- A credit in flight (R255). -/
structure Credit where
  src : Nat
  dst : Nat
  k : Nat
  deriving DecidableEq, Repr

/-- A split whose `bwphase` write is not yet adopted (R233), with the level it writes. -/
structure BwWrite where
  level : BitVec 2
  core : Nat
  team : Nat
  split : Nat
  deriving DecidableEq, Repr

/-- A context (R245) with its record's fields (R246), its kernels, its queue objects, its fault service, its memory
phase and its census slots. -/
structure Ctx where
  state : CtxState
  before : CtxState
  draining : Bool
  pf : Bool
  vf : BitVec 8
  recVa : Nat
  root : Nat
  save : Nat
  fix : Nat
  bound : Nat
  srate : Nat
  tfCopy : W32
  tfDrain : W32
  tfCensus : W32
  tfCall : W32
  softdl : W64
  cores : List Nat
  touchTr : W64
  touchSt : W64
  touchFu : W64
  vstart : W64
  vmax : Nat
  vtime : Nat
  vcount : W64
  census : Nat
  grade : Nat
  fault : BitVec 16
  softEnd : Nat
  pendPre : Option W64
  destroyPend : Bool
  saved : Map Core
  savedDie : Map (Regs 8)
  frozenAt : W64
  frozenNs : W64
  nextLoad : Nat
  kernels : Map Kern
  recqs : Map RecQueue
  faulting : List Nat
  retiring : List (Nat × Nat)
  pins : Map Nat
  bwLevel : BitVec 2
  bwFell : Option W64
  bwWrites : List BwWrite
  touched : W64
  pool : Bool
  att : Bool
  dieWin : Map (Nat × Nat)
  log : List LogEntry
  ports : Map PortEntry
  credits : List Credit
  solicits : Nat
  censuses : Map Census
  forwards : List Forward
  deriving DecidableEq, Repr

/-- A context with the reset values of R246: Created, `bwphase` full (R233), nothing loaded. -/
def Ctx.blank : Ctx where
  state := .created
  before := .created
  draining := false
  pf := false
  vf := 0
  recVa := 0
  root := 0
  save := 0
  fix := 0
  bound := 0
  srate := 0
  tfCopy := 0
  tfDrain := 0
  tfCensus := 0
  tfCall := 0
  softdl := 0
  cores := []
  touchTr := 0
  touchSt := 0
  touchFu := 0
  vstart := 0
  vmax := 0
  vtime := 0
  vcount := 0
  census := 0
  grade := 0
  fault := 0
  softEnd := 0
  pendPre := none
  destroyPend := false
  saved := []
  savedDie := []
  frozenAt := 0
  frozenNs := 0
  nextLoad := 0
  kernels := []
  recqs := []
  faulting := []
  retiring := []
  pins := []
  bwLevel := 3
  bwFell := none
  bwWrites := []
  touched := 0
  pool := false
  att := false
  dieWin := []
  log := []
  ports := []
  credits := []
  solicits := 0
  censuses := []
  forwards := []

/-! ### Memory controllers (13) -/

/-- The states of a plot (R231). -/
inductive PlotState where
  | off | waking | warm | retention
  deriving DecidableEq, Repr

/-- A plot: its state, the last request's timestamp, the contexts with an allocated page, and the requests held by its wake
in their order of arrival, each a part's `id` (R231). -/
structure Plot where
  state : PlotState
  last : W64
  owners : List Nat
  queue : List Nat
  deriving DecidableEq, Repr

/-- An activation tracker of one (row, function) (R243): the row's PA, its count, its throttle, the time of the last
activation, whether a mitigation is due that has not run, and for one that runs the calendar slots that it takes and those that
it has had. -/
structure Tracker where
  row : Nat
  fn : Nat
  count : Nat
  throttled : Bool
  last : W64
  due : Bool
  slots : Option (Nat × Nat)
  deriving DecidableEq, Repr

/-- A request waiting for a slot of a shared unit (R19): the unit (0 to 7 the gather units of the stacks, 8 to 15 their memory
controllers, 16 to 19 the copy engines of the dies), the function, the context, and the part or engine operation it is for. -/
structure CalReq where
  unit : Nat
  fn : Nat
  ctx : Nat
  id : Nat
  deriving DecidableEq, Repr

/-- A slot of the calendar (R19): its owner and its gleaner, and the context of the owner that the slot is assigned to. -/
structure CalSlot where
  owner : Nat
  gleaner : Nat
  ctx : Option Nat
  deriving DecidableEq, Repr

/-- A frame in use (R230): its PA and level, its owner (a context, 4096 for the resident kernel), and the context, VA and
level of the entry that names it. `dead` says that the entry has been changed and its invalidation has not completed. -/
structure FrameHold where
  pa : Nat
  level : Nat
  owner : Nat
  ctx : Nat
  va : Nat
  elevel : Nat
  dead : Bool
  deriving DecidableEq, Repr

/-- Bytes that one key wrote or may write (R238): a range of PAs and the serial of the key. -/
structure KeyRange where
  pa : Nat
  size : Nat
  key : Nat
  deriving DecidableEq, Repr

/-- A posted write of a requester that waits for an earlier one, or for its plot (R209): the number of the step of its
arrival, the requester, the context, the VA, the bytes, and whether the last 8 of them are the timestamp at the write (R341). -/
structure Posted where
  no : Nat
  from' : Nat
  ctx : Nat
  va : Nat
  bytes : List Byte
  stamp : Bool
  deriving DecidableEq, Repr

/-! ### Queues (18) -/

/-- The states of a submission queue (R296, R298). -/
inductive QState where
  | unmapped | mapped | closing | faulted | broken
  deriving DecidableEq, Repr

/-- A submission queue (R296), listed as 256 fn + q: its descriptor's fields, its context (none for a privileged queue),
its lane and the packet in progress, with whether it has begun, whether it has acted and waits for a state to be reached,
the page it waits for, and whether that page was refused. `sweep` is the sweep that fetched it (R303), `fin` the status of a
completion whose entry is still to be written (R301), `bell` the number of the step of the last doorbell write (R300), and `copied` how far the packet has come by itself: bytes of a
COPY, accesses of a KLOAD. -/
structure Queue where
  ctx : Option Nat
  desc : Nat
  ring : Nat
  size : Nat
  cring : Nat
  head : BitVec 32
  tail : BitVec 32
  state : QState
  pending : Bool
  priv : Bool
  prio : Nat
  pid : Nat
  acc : BitVec 32
  accv : Bool
  fva : Nat
  wva : Nat
  wthr : Nat
  lane : Option Nat
  packet : Option (List W64)
  begun : Bool
  acted : Bool
  page : Option Nat
  refused : Bool
  started : W64
  grantedAt : W64
  eligibleAt : W64
  removing : Bool
  sweep : Nat
  fin : Option Nat
  bell : Nat
  copied : Nat
  deriving DecidableEq, Repr

/-- A queue with the reset values of R296. -/
def Queue.blank : Queue where
  ctx := none
  desc := 0
  ring := 0
  size := 0
  cring := 0
  head := 0
  tail := 0
  state := .unmapped
  pending := false
  priv := false
  prio := 0
  pid := 0
  acc := 0
  accv := false
  fva := 0
  wva := 0
  wthr := 0
  lane := none
  packet := none
  begun := false
  acted := false
  page := none
  refused := false
  started := 0
  grantedAt := 0
  eligibleAt := 0
  removing := false
  sweep := 0
  fin := none
  bell := 0
  copied := 0

/-- A function's queue slots and period, the time of its last boundary, its processes' weights, and the grants each process
has had in the current round of the round-robin (R305). -/
structure VfSlots where
  slots : Nat
  period : Nat
  last : W64
  weights : Map Nat
  used : Map Nat
  deriving DecidableEq, Repr

/-! ### Links (21) -/

/-- The states of a link (R330). -/
inductive LinkState where
  | down | training | up | degraded | retraining | failed
  deriving DecidableEq, Repr

/-- A link: its state, whether it last trained at half width, its recent retrainings, the counts ZMI reports,
and whether it began the third retraining within a second (R330). -/
structure Link where
  state : LinkState
  half : Bool
  recent : List W64
  replays : Nat
  retrains : Nat
  third : Bool
  deriving DecidableEq, Repr

def Link.init : Link := ⟨.down, false, [], 0, 0, false⟩

/-- A network memory region (R339). -/
structure Region where
  port : Nat
  key : Nat
  ctx : Nat
  va : Nat
  len : Nat
  r : Bool
  w : Bool
  deriving DecidableEq, Repr

/-- A send entry in progress (R340, R341). -/
structure SendOp where
  op : Nat
  sig : Bool
  lva : Nat
  len : Nat
  wrid : W64
  deriving DecidableEq, Repr

/-- A queue pair (R340): its rings, its doorbell word, the tails rung, the entries begun and completed, and whether it
is in the error state, and that its doorbell word has been written since the engine last had it. -/
structure QPair where
  ctx : Nat
  sring : Nat
  ssize : Nat
  rring : Nat
  rsize : Nat
  cring : Nat
  csize : Nat
  db : Nat
  stail : BitVec 32
  rtail : BitVec 32
  shead : BitVec 32
  rhead : BitVec 32
  chead : Nat
  cur : List SendOp
  error : Bool
  rung : Bool
  deriving DecidableEq, Repr

/-- A queue pair with no ring. -/
def QPair.blank : QPair where
  ctx := 0
  sring := 0
  ssize := 0
  rring := 0
  rsize := 0
  cring := 0
  csize := 0
  db := 0
  stail := 0
  rtail := 0
  shead := 0
  rhead := 0
  chead := 0
  cur := []
  error := false
  rung := false

/-- What leaves the package where the manual names it: the posted writes and the reads of a port entry, by its kind, link, peer's
context and address (R332, R333), replies to the host, to a peer, to a
requester of SPDM or ZMI, network requests, and the frames replayed to a port's receive path (R307). Observers outside read this list; nothing inside does. -/
inductive Output where
  | portWrite (kind link pctx addr : Nat) (bytes : List Byte)
  | portRead (kind link pctx addr len : Nat)
  | readData (bytes : List Byte)
  | unsupported
  | protection
  | nak
  | spdm (code : Nat) (payload : List Nat)
  | spdmError (code : Nat)
  | zmi (op : Nat) (rows : List (List Nat))
  | rdma (op : Nat) (imm : BitVec 32) (rva rkey : Nat) (bytes : List Byte)
  | rdmaReadReq (rva rkey len : Nat)
  | received (port : Nat) (frame : List Byte)
  | dropped
  deriving DecidableEq, Repr

/-- The SPDM responder's session state (R343): whether the version, the algorithms and the shared signature algorithm
are settled, and whether a session is open and finished. -/
structure Spdm where
  version : Bool
  algs : Bool
  shared : Bool
  session : Bool
  finished : Bool
  updates : Nat
  deriving DecidableEq, Repr

/-- The snapshots that ZMI serves (R344), refreshed every 10 ms. -/
structure Snapshot where
  topology : List (List Nat)
  health : List (List Nat)
  plots : List (List Nat)
  audit : List (List Nat)
  deriving DecidableEq, Repr

/-- The resident kernel (R276, R277). -/
inductive RkState where
  | up | crashed | givenUp
  deriving DecidableEq, Repr

/-! ### The machine -/

/-- A split that issues at a barrel position: its core, team position and entry, whether a debugger steps one word
(R167), the width of its gang (R12), and the team's round-robin pointer when the position came (R115). -/
structure Issue where
  core : Nat
  team : Nat
  split : Nat
  single : Bool
  width : Nat
  start : Nat
  deriving DecidableEq, Repr

/-- The word in issue: its split, how many words the instruction has, and the width of its gang (R12). -/
structure Cur where
  core : Nat
  team : Nat
  split : Nat
  n : Nat
  width : Nat
  deriving DecidableEq, Repr

/-- The package. `schedule` is the model's own: what happens next, in order, an event or (none) the next word of a
split; it takes the place of every order the manual leaves open. `ticks` is the model's own: the nanoseconds of the coming steps. `fresh` counts the steps, for free
values. `turn` is the core whose barrel moves when no event is scheduled and no word is due. `dieTlb` holds the last-level
TLBs by die (R223), `frameHolds` the frames in use (R230), `keys` the serial of the key in each slot and `keyed` the latest key
of memory's bytes (R238), `portOld` the bytes that the port engines still see where a write is not performed at port scope
(R209), `posted` the posted writes that wait (R209), `unitVf` and `unitCnt` the selection and the count of each shared unit's
counter (R175), `bar2Size` the size of a function's BAR2 in GiB (R335), `calUsed` the slots a context has had of a unit's round and `calLast` the unit's last slot (R233), `mgmtGated`
that the cores but the restored one are gated (R307), and `sweep` the number of sweeps of each firmware core (R303). `calGot` holds the slots of the calendar that requests outside the async engines have had
and not used, as (unit, request) (R19); `pcie6` says that the expander port is in PCIe 6.x mode, and `hdm` holds the ranges
that it decodes in CXL mode, as (base, bytes) (R337); `bar4` is the MSI-X table and PBA of each function (R335). -/
structure State where
  cores : Map Core
  ctxs : Map Ctx
  mem : Memory
  scratch : Map (Regs 8)
  plots : Map Plot
  lost : List Nat
  healed : List Nat
  failedCh : List Nat
  corrected : Nat
  trackers : List Tracker
  deferred : List (Nat × Nat)
  mitThresh : Nat
  thrThresh : Nat
  evBase : Nat
  evSize : Nat
  evHead : Nat
  rdslots : Map W64
  calendar : Map CalSlot
  calReqs : List CalReq
  queues : Map Queue
  vfSlots : Map VfSlots
  wake : Map (List Byte)
  gated : Bool
  frames : List (Nat × List Byte)
  frameDrops : Nat
  links : Map Link
  bar2 : Map (Nat × Nat)
  bar2Size : Map Nat
  regions : List Region
  qps : Map QPair
  meas : Regs 384
  spdm : Spdm
  snapshot : Snapshot
  partDraining : Bool
  peerBinds : List (Nat × Nat × Nat)
  rk : RkState
  rebootFails : Nat
  rkRoot : Nat
  outputs : List Output
  tstamp : W64
  ticks : List Nat
  fresh : Nat
  schedule : List (Option Instr)
  issueQ : List Issue
  cur : Option Cur
  turn : Nat
  dieTlb : Map (List TlbEntry)
  frameHolds : List FrameHold
  keys : Map Nat
  nextKey : Nat
  keyed : List KeyRange
  portOld : Memory
  posted : List Posted
  unitVf : Map Nat
  unitCnt : Map W64
  calUsed : Map Nat
  calLast : Map Nat
  mgmtGated : Bool
  sweep : Map Nat
  calGot : List (Nat × Nat)
  pcie6 : Bool
  hdm : List (Nat × Nat)
  bar4 : Map (Regs 8)
  deriving DecidableEq, Repr

/-- Why the machine stops. No instruction of the model ends in a fault: every fault of the manual is a trap, an engine
report or a log entry, and the machine goes on. -/
inductive Fault where
  /-- Raised by nobody: kept so that the type has a name for a stop the manual may add. Safe: it never occurs. -/
  | stopped
  deriving DecidableEq, Repr

/-- Why an instruction has no meaning here. -/
inductive Refusal where
  /-- Raised by `exec` for an instruction this model has not reached. Safe: no claim about it can be made. -/
  | notModelled (mnemonic : String)
  /-- Raised by `csr.rd`, `csr.wr`, `csr.set` and `csr.clr` from privileged code at an address from 0x800 on that the resident
  kernel's interface defines: the manual does not give that interface (R62). Safe: the machine stops there. -/
  | privilegedCsr (addr : Nat)
  deriving DecidableEq, Repr

/-- What an instruction answers. -/
abbrev Res := Host.Outcome State Fault Refusal

/-- The machine right after a reset of the part: no context exists, every plot is Off (R231), every link Down (R330),
every measurement slot zero (R343), every table empty. -/
def State.reset : State where
  cores := []
  ctxs := []
  mem := []
  scratch := []
  plots := []
  lost := []
  healed := []
  failedCh := []
  corrected := 0
  trackers := []
  deferred := []
  mitThresh := 0
  thrThresh := 0
  evBase := 0
  evSize := 0
  evHead := 0
  rdslots := []
  calendar := []
  calReqs := []
  queues := []
  vfSlots := []
  wake := []
  gated := false
  frames := []
  frameDrops := 0
  links := []
  bar2 := []
  bar2Size := []
  regions := []
  qps := []
  meas := []
  spdm := ⟨false, false, false, false, false, 0⟩
  snapshot := ⟨[], [], [], []⟩
  partDraining := false
  peerBinds := []
  rk := .up
  rebootFails := 0
  rkRoot := 0
  outputs := []
  tstamp := 0
  ticks := []
  fresh := 0
  schedule := []
  issueQ := []
  cur := none
  turn := 0
  dieTlb := []
  frameHolds := []
  keys := []
  nextKey := 1
  keyed := []
  portOld := []
  posted := []
  unitVf := []
  unitCnt := []
  calUsed := []
  calLast := []
  mgmtGated := false
  sweep := []
  calGot := []
  pcie6 := false
  hdm := []
  bar4 := []

end Sys2Proof.Machine
end

