-- ==== Sys2Proof/Machine/Ops.lean ====
section
/-! DEFINITION. The named operations over tables, registers, memories, cores, teams and splits; translation (13); barrier
objects (07); and taking a trap and returning from one (15), each as one shared operation. -/

namespace Sys2Proof.Machine

/-! ### Tables -/

def Map.get {α : Type} : Map α → Nat → Option α
  | [], _ => none
  | (j, a) :: m, k => if j = k then some a else Map.get m k

def Map.set {α : Type} : Map α → Nat → α → Map α
  | [], k, a => [(k, a)]
  | (j, b) :: m, k, a =>
    if k < j then (k, a) :: (j, b) :: m
    else if k = j then (k, a) :: m
    else (j, b) :: Map.set m k a

def Map.del {α : Type} : Map α → Nat → Map α
  | [], _ => []
  | (j, b) :: m, k => if j = k then Map.del m k else (j, b) :: Map.del m k

/-- Applies `f` to the entry of `k`, if there is one. -/
def Map.upd {α : Type} (m : Map α) (k : Nat) (f : α → α) : Map α :=
  match m.get k with
  | some a => m.set k (f a)
  | none => m

def Map.keys {α : Type} (m : Map α) : List Nat := m.map Prod.fst
def Map.has {α : Type} (m : Map α) (k : Nat) : Bool := (m.get k).isSome
def Map.mapVals {α : Type} (m : Map α) (f : α → α) : Map α := m.map fun e => (e.1, f e.2)

/-- The lowest number below `n`, counted from `i`, that is not listed. -/
def Map.lowestFree {α : Type} (m : Map α) : Nat → Nat → Option Nat
  | 0, _ => none
  | n + 1, i => if m.has i then Map.lowestFree m n (i + 1) else some i

/-- A table in its one form: numbers strictly rising. -/
def Map.wf {α : Type} : Map α → Bool
  | [] => true
  | [_] => true
  | (j, _) :: (k, b) :: m => decide (j < k) && Map.wf ((k, b) :: m)

/-- A register file reads zero where it lists nothing. -/
def Regs.get {w : Nat} (r : Regs w) (k : Nat) : BitVec w := (Map.get r k).getD 0

/-- Writing a register keeps the form: a zero is not listed. -/
def Regs.set {w : Nat} (r : Regs w) (k : Nat) (x : BitVec w) : Regs w :=
  if x = 0 then Map.del r k else Map.set r k x

def Regs.setMany {w : Nat} (r : Regs w) (xs : List (Nat × BitVec w)) : Regs w :=
  xs.foldl (fun r x => Regs.set r x.1 x.2) r

/-- The registers whose number satisfies `f` become zero. -/
def Regs.clear {w : Nat} (r : Regs w) (f : Nat → Bool) : Regs w := r.filter fun e => !f e.1

/-- The one form of a register file or an on-chip memory: rising, and no zero listed. -/
def Regs.wf {w : Nat} (r : Regs w) : Bool := Map.wf r && r.all fun e => e.2 != 0

/-- The one form of main memory: rising. An unlisted address has not been written, and no listed byte means that. -/
def Memory.wf (m : Memory) : Bool := Map.wf m

/-- What main memory reads as at a PA: the byte written there, or the free value of R234. -/
def Memory.get (m : Memory) (a : Nat) : Byte := (Map.get m a).getD (Config.unwritten a)

def Memory.set (m : Memory) (a : Nat) (b : Byte) : Memory := Map.set m a b

/-! ### Bytes (little-endian, 02 R35) -/

/-- The value of bytes, the first the lowest. -/
def ofBytes : List Byte → Nat
  | [] => 0
  | b :: bs => b.toNat + 256 * ofBytes bs

/-- The `n` low bytes of a value. -/
def toBytes : Nat → Nat → List Byte
  | 0, _ => []
  | n + 1, x => BitVec.ofNat 8 x :: toBytes n (x / 256)

/-- `n` bytes of a zero-default memory from `a`. -/
def Regs.bytes (r : Regs 8) (a n : Nat) : List Byte := (List.range n).map fun i => Regs.get r (a + i)

/-- A run of bytes written from `a`. -/
def Regs.setBytes (r : Regs 8) (a : Nat) : List Byte → Regs 8
  | [] => r
  | b :: bs => Regs.setBytes (Regs.set r a b) (a + 1) bs

def Memory.bytes (m : Memory) (a n : Nat) : List Byte := (List.range n).map fun i => Memory.get m (a + i)

def Memory.setBytes (m : Memory) (a : Nat) : List Byte → Memory
  | [] => m
  | b :: bs => Memory.setBytes (Memory.set m a b) (a + 1) bs

def ceilDiv (a b : Nat) : Nat := (a + b - 1) / b

/-- Bits [hi:lo] of a value as a number. -/
def bits (x : W64) (hi lo : Nat) : Nat := x.toNat / 2 ^ lo % 2 ^ (hi + 1 - lo)
def bitAt (x : W64) (i : Nat) : Bool := x.toNat.testBit i
/-- A number with bits [hi:lo] replaced. -/
def setBits (x : W64) (hi lo v : Nat) : W64 :=
  BitVec.ofNat 64 (x.toNat - bits x hi lo * 2 ^ lo + v % 2 ^ (hi + 1 - lo) * 2 ^ lo)

def b2n (b : Bool) : Nat := if b then 1 else 0

/-! ### Masks (R11) -/

def Mask.has (m : Mask) (l : Nat) : Bool := m.getLsbD l

/-- The mask of the lanes below `n` that satisfy `f`. -/
def maskWhere (n : Nat) (f : Nat → Bool) : Mask :=
  BitVec.ofNat 1024 ((List.range n).foldl (fun a l => if f l then a + 2 ^ l else a) 0)

def maskAll (n : Nat) : Mask := BitVec.ofNat 1024 (2 ^ n - 1)

/-- The lanes of a mask below `n`, in increasing order. -/
def lanesOf (m : Mask) (n : Nat) : List Nat := (List.range n).filter fun l => m.getLsbD l

/-- How many lanes a mask holds. -/
def Mask.count (m : Mask) : Nat := (lanesOf m 1024).length

/-- The summary word (R11): bit i is 1 when mask word i is not zero. -/
def summary (m : Mask) : Nat :=
  (List.range 32).foldl (fun a i => if m.extractLsb' (32 * i) 32 = 0 then a else a + 2 ^ i) 0

/-! ### Places: cores, contexts, teams, splits -/

def State.updCore (s : State) (k : Nat) (f : Core → Core) : State := { s with cores := s.cores.upd k f }
def State.updCtx (s : State) (c : Nat) (f : Ctx → Ctx) : State := { s with ctxs := s.ctxs.upd c f }
def State.core? (s : State) (k : Nat) : Option Core := s.cores.get k
def State.ctx? (s : State) (c : Nat) : Option Ctx := s.ctxs.get c
def State.team? (s : State) (k t : Nat) : Option Team := (s.core? k).bind fun c => c.teams.get t
def State.split? (s : State) (k t p : Nat) : Option Split := (s.team? k t).bind fun m => m.splits.get p
def State.updTeam (s : State) (k t : Nat) (f : Team → Team) : State :=
  s.updCore k fun c => { c with teams := c.teams.upd t f }
def State.updSplit (s : State) (k t p : Nat) (f : Split → Split) : State :=
  s.updTeam k t fun m => { m with splits := m.splits.upd p f }

/-- The context that a core belongs to (R10), with its number. -/
def State.ctxOf (s : State) (k : Nat) : Option (Nat × Ctx) := do
  let c ← s.core? k
  let n ← c.ctx
  let x ← s.ctx? n
  some (n, x)

/-- The hard stage of a vacate runs on core `k`: free work is abandoned at its restart points (R257). -/
def State.abandons (s : State) (k : Nat) : Bool :=
  match s.ctxOf k with
  | some (_, x) => x.state == .vacating || (x.state == .frozen && x.before == .vacating)
  | none => true

/-- The function of a context, 256 for the physical one (R23). -/
def Ctx.fn (x : Ctx) : Nat := if x.pf then 256 else x.vf.toNat

/-- A context's state stands on the package's cores (R245). -/
def Ctx.present (x : Ctx) : Bool :=
  match x.state with
  | .running | .yielding | .vacating | .restoring => true
  | .frozen => x.before != .saved
  | _ => false

/-- A context's solicits go on: not while a vacate abandons their askers' side (R257). -/
def Ctx.counts (x : Ctx) : Bool :=
  match x.state with
  | .running | .yielding => true
  | .frozen => x.before == .running || x.before == .yielding
  | _ => false

/-- The die of a core (R23). -/
def dieOf (k : Nat) : Nat := k / 80

/-- The crew that a team belongs to. -/
def Core.crewOf (c : Core) (tm : Team) : Option Crew := c.crews.get tm.crew

/-- The kernel that a team runs. -/
def Ctx.kernOf (x : Ctx) (tm : Team) : Option Kern := x.kernels.get tm.kernel

/-- The place of the word in issue: core, team position, entry, words of the instruction, what stands there, and the width of
its gang (R12). -/
structure At where
  k : Nat
  t : Nat
  p : Nat
  n : Nat
  core : Core
  team : Team
  split : Split
  cl : Clause
  width : Nat
  deriving DecidableEq, Repr

/-- The word in issue, if one is. -/
def State.at? (s : State) : Option At := do
  let u ← s.cur
  let c ← s.core? u.core
  let tm ← c.teams.get u.team
  let sp ← tm.splits.get u.split
  let cl ← sp.clause
  some ⟨u.core, u.team, u.split, u.n, c, tm, sp, cl, u.width⟩

/-- The VA of the word in issue. -/
def At.pc (a : At) : W64 := a.cl.h + BitVec.ofNat 64 (4 * a.cl.pos)
/-- `cnt` of a header word (R27). -/
def cntOf (h : W32) : Nat := (h.extractLsb' 28 4).toNat
/-- The header after a clause (R29). -/
def Clause.after (c : Clause) : W64 := c.h + BitVec.ofNat 64 (4 * (1 + cntOf c.hdr))
/-- The active, gated-on lanes (R30, R107). -/
def At.run (a : At) : Mask := a.split.exec &&& a.cl.gate
/-- The same lanes as a list, in increasing order. -/
def At.lanes (a : At) : List Nat := lanesOf a.run a.team.lanes

/-! ### Registers of a team -/

/-- v[r][L]; register r of lane L. -/
def Team.vreg (tm : Team) (r l : Nat) : W32 := Regs.get tm.v (1024 * r + l)
def Team.sreg (tm : Team) (r : Nat) : W64 := Regs.get tm.s r
/-- p[r]; `p0` reads as all true (R11). -/
def Team.preg (tm : Team) (r : Nat) : Mask := if r = 0 then maskAll tm.lanes else Regs.get tm.p r
def Team.setS (tm : Team) (r : Nat) (x : W64) : Team := { tm with s := Regs.set tm.s r x }
/-- Writes v[r] in the lanes listed. -/
def Team.setV (tm : Team) (r : Nat) (xs : List (Nat × W32)) : Team :=
  { tm with v := Regs.setMany tm.v (xs.map fun x => (1024 * r + x.1, x.2)) }
/-- Writes p[r] in the lanes listed; a write to `p0` is ignored (R11). -/
def Team.setP (tm : Team) (r : Nat) (xs : List (Nat × Bool)) : Team :=
  if r = 0 then tm
  else { tm with p := Regs.set tm.p r (xs.foldl (fun m x =>
    if x.2 then m ||| BitVec.ofNat 1024 (2 ^ x.1) else m &&& ~~~(BitVec.ofNat 1024 (2 ^ x.1))) (Regs.get tm.p r)) }

/-! ### Kernel-visible limits -/

/-- The bytes of the register file that a team holds (R102). -/
def Team.vBytes (tm : Team) : Nat := tm.lanes * tm.vcount * 4

/-- A team whose `phase` has issued. -/
def Team.isPhasing (tm : Team) : Bool := tm.state == .phasing

/-- The bytes of the registers that a team holds in the estimate (R103, R249): what it has claimed leaves as `phase` issues, what
it was placed with at its retire. A responder's are the pool's. -/
def Team.regHold (tm : Team) : Nat :=
  if tm.resp.isSome then 0
  else if tm.isPhasing then tm.lanes * min tm.vcount tm.placedV * 4 + 8 * min tm.scount tm.placedS
  else tm.vBytes + 8 * tm.scount

/-- The same for a tile that it holds. -/
def Team.tileHold (tm : Team) (e : Tile) : Nat :=
  if e.leaving || (tm.resp.isNone && (!tm.isPhasing || e.placed)) then 16384 else 0

def sumOf (l : List Nat) : Nat := l.foldl (· + ·) 0

/-- The hold bytes of a core (R103, R249). `pool` says whether its context has a responder pool. -/
def Core.holdBytes (c : Core) (pool : Bool) : Nat :=
  sumOf (c.teams.map fun e => e.2.regHold) +
  sumOf (c.tiles.map fun e => match c.teams.get e.2.team with
    | some tm => tm.tileHold e.2
    | none => 16384) +
  sumOf (c.crews.map fun e => e.2.size) + (if pool then 32768 else 0)

/-- A cost of bytes at the save rate (R248). -/
def costOf (srate bytes : Nat) : Nat := ceilDiv (bytes * 256) srate

/-- H_c of a core (R249). -/
def State.holdOf (s : State) (k : Nat) : Nat :=
  match s.core? k, s.ctxOf k with
  | some c, some (_, x) => costOf x.srate (c.holdBytes x.pool)
  | _, _ => 0

/-- E_c of a core (R249). -/
def State.estOf (s : State) (k : Nat) : Nat :=
  match s.core? k with
  | some c => s.holdOf k + sumOf (c.items.map Prod.snd)
  | none => 0

/-! ### Main memory and its plots (13) -/

def State.pa (s : State) (a n : Nat) : List Byte := Memory.bytes s.mem a n
def State.setPa (s : State) (a : Nat) (bs : List Byte) : State := { s with mem := Memory.setBytes s.mem a bs }
def State.pa64 (s : State) (a : Nat) : Nat := ofBytes (s.pa a 8)
def State.setPa64 (s : State) (a v : Nat) : State := s.setPa a (toBytes 8 v)

/-- The plot of an HBM PA (R228). -/
def plotOf (pa : Nat) : Nat := pa / 2 ^ 33
def isHbm (pa : Nat) : Bool := decide (pa < 2 ^ 39)
/-- Whether a PA is a backed HBM offset (R228). -/
def backed (pa : Nat) : Bool := isHbm pa && pa / 2 ^ 30 % 8 != 7
/-- The expander's decoded range (R228, R337). -/
def isFar (pa : Nat) : Bool := decide (0x10000000000 ≤ pa ∧ pa ≤ 0x8FFFFFFFFFF)
/-- The stack of an HBM PA (R229). -/
def stackOf (pa : Nat) : Nat := pa % 2 ^ 33 / 1792 % 64 / 8

def State.plot (s : State) (p : Nat) : Plot := (s.plots.get p).getD ⟨.off, 0, [], []⟩

/-- A request to a plot: it counts for R232 and for the context's touch set, and starts the wake of a plot in retention
(R231). -/
def State.touch (s : State) (c pa : Nat) : State :=
  if isHbm pa then
    let p := plotOf pa
    let x := s.plot p
    let x' : Plot := match x.state with
      | .off => x
      | .retention => { x with state := .waking, last := s.tstamp }
      | _ => { x with last := s.tstamp }
    { (s.updCtx c fun y => { y with touched := y.touched ||| BitVec.ofNat 64 (2 ^ p) }) with
      plots := s.plots.set p x' }
  else s

/-- A request of core `k`: the plot that makes it wait counts in `wakens` (R236). -/
def State.touchFrom (s : State) (k c pa : Nat) : State :=
  let s := s.touch c pa
  if isHbm pa ∧ (s.plot (plotOf pa)).state = .waking then
    s.updCore k fun c => if c.heldPlots.contains (plotOf pa) then c else
      { c with heldFrom := if c.heldPlots.isEmpty then s.tstamp else c.heldFrom, heldPlots := c.heldPlots ++ [plotOf pa] }
  else s

/-- Whether a request to a PA can be served now: its plot is Warm, or it is no HBM. -/
def State.servable (s : State) (pa : Nat) : Bool := !isHbm pa || (s.plot (plotOf pa)).state == .warm

/-! ### Requests at the shared units (R19, R231, R243) -/

/-- A request held by the wake of a plot stands in the plot's queue (R231). -/
def State.joinWake (s : State) (pa id : Nat) : State :=
  { s with plots := s.plots.upd (plotOf pa) fun y =>
      if y.state = .waking ∧ !y.queue.contains id then { y with queue := y.queue ++ [id] } else y }

/-- A request of a function in the counter of a shared unit (R175): 0 to 19 as the calendar numbers them, 20 the combining nodes,
21 the links of the hub die, 22 its copy engine, and 24 to 27 the links of the compute dies. Only those of the function selected there count; a control that nothing has written selects 0. -/
def State.countUnit (s : State) (u fn : Nat) : State :=
  if (s.unitVf.get u).getD 0 = fn then { s with unitCnt := s.unitCnt.set u ((s.unitCnt.get u).getD 0 + 1) } else s

/-- What the shared units know of a part goes with it. -/
def State.forgetPart (s : State) (id : Nat) : State :=
  { s with
    calReqs := s.calReqs.filter fun q => q.id != id
    calGot := s.calGot.filter fun e => e.2 != id
    plots := s.plots.mapVals fun y => if y.queue.contains id then { y with queue := y.queue.filter (· != id) } else y }

/-- The tracker of a row and function (R243): one that is not listed counts nothing. -/
def State.tracker (s : State) (row fn : Nat) : Tracker :=
  (s.trackers.find? fun t => Config.rowOf t.row == Config.rowOf row && t.fn == fn).getD ⟨row, fn, 0, false, 0, false, none⟩

def State.setTracker (s : State) (t : Tracker) : State :=
  { s with trackers := (s.trackers.filter fun u => !(Config.rowOf u.row == Config.rowOf t.row && u.fn == t.fn)) ++ [t] }

/-- An access of function `fn` to an HBM PA may activate a row, which its tracker counts (R243); whether the row was open is the
bank's own. When the count reaches the mitigation threshold a mitigation is due. A threshold of 0 has not been set. -/
def State.activate (s : State) (fn pa : Nat) : State :=
  if s.mitThresh = 0 ∨ !isHbm pa ∨ Config.report (s.fresh + 80) pa % 2 = 0 then s
  else
    let t := s.tracker pa fn
    s.setTracker { t with count := t.count + 1, last := s.tstamp, due := t.due || t.count + 1 == s.mitThresh }

/-- A row makes a function's activations wait (R243): for a mitigation that is due, for a throttle that is to start, or for the
next round of one. -/
def Tracker.holds (t : Tracker) (thr : Nat) (now : W64) : Bool :=
  t.due || (!t.throttled && thr != 0 && decide (thr ≤ t.count)) ||
    (t.throttled && decide ((now - t.last).toNat < 569))

/-- A request to a stack is served now: its plot is Warm, the requests that the wake held before it are served (R231), and no
row it needs waits for a mitigation or for the next round of a throttle (R243). -/
def State.stackReady (s : State) (fn id pa : Nat) : Bool :=
  s.servable pa &&
    (let q := (s.plot (plotOf pa)).queue
     !q.contains id || q.head? == some id) &&
    !s.trackers.any fun t => t.fn == fn && t.holds s.thrThresh s.tstamp && Config.rowOf t.row == Config.rowOf pa

/-- The identity at the shared units of a request that is no part of an async operation, no segment of a chain and none of the
matrix unit: its kind, and what it is for. -/
def agentId (kind a : Nat) : Nat := 2 ^ 128 * (kind + 1) + a
def idKind (id : Nat) : Nat := id / 2 ^ 128

/-- The requests: a trace record of a core, a channel's own accesses, a pop's record, a deferred add, the operands of a queue's packet,
the posted writes of a requester, its reads, the packets and completion entries of a queue, the refresh of a row's neighbours for a
function, and the row of a split's spill stack. -/
def traceId (k : Nat) : Nat := agentId 0 k
def chanId (id : Nat) : Nat := agentId 1 id
def popId (id : Nat) : Nat := agentId 2 id
def addId (c n r va : Nat) : Nat := agentId 3 (((c * 2 ^ 20 + n) * 2 ^ 30 + r) * 2 ^ 57 + va)
def packetId (key : Nat) : Nat := agentId 4 key
def postedId (from' : Nat) : Nat := agentId 5 from'
def readId (from' : Nat) : Nat := agentId 6 from'
def entryId (key : Nat) : Nat := agentId 7 key
def refreshId (row fn : Nat) : Nat := agentId 8 (fn * 2 ^ 64 + row)
def rowId (k t p : Nat) : Nat := agentId 9 ((k * 2 ^ 20 + t) * 2 ^ 4 + p)

/-- The core that a request belongs to, if it is one of a core's. -/
def idCore (id : Nat) : Option Nat :=
  let a := id % 2 ^ 128
  if id < 2 ^ 128 then some (a / 2 ^ 60)
  else if idKind id = idKind (traceId 0) then some a
  else if idKind id = idKind (chanId 0) then some (a / 2 ^ 62)
  else if idKind id = idKind (popId 0) then some (a / 2 ^ 60)
  else if idKind id = idKind (rowId 0 0 0) then some (a / 2 ^ 24)
  else none

/-- Who asks: a context (none for the resident kernel), the request, and the unit of the link that it comes by (R175). -/
structure Agent where
  ctx : Option Nat
  id : Nat
  link : Nat
  deriving DecidableEq, Repr

/-- The link that a core's requests leave its die by, in the numbering of the units; the hub's is 21. -/
def linkUnit (k : Nat) : Nat := 24 + dieOf k

/-- The function that a request is tagged with: its context's, or the physical one for the resident kernel. -/
def State.fnOfCtx (s : State) (c : Option Nat) : Nat :=
  match c.bind s.ctx? with
  | some x => x.fn
  | none => 256

/-- The memory controllers that `n` bytes at a PA need a slot of (R19): stacks change every 14,336 bytes (R229). -/
def memUnits (pa n : Nat) : List Nat :=
  let o := pa % 2 ^ 33 % 14336
  if isHbm pa then ((List.range ((o + n + 14335) / 14336)).map fun i => 8 + stackOf (pa - o + 14336 * i)).eraseDups
  else []

/-- The controllers that runs of bytes, by PA and length, need a slot of, each once. -/
def paUnits (runs : List (Nat × Nat)) : List Nat := (runs.flatMap fun r => memUnits r.1 r.2).eraseDups

/-- A request has had its slots of some units (R19). -/
def State.hasSlots (s : State) (id : Nat) (us : List Nat) : Bool := us.all fun u => s.calGot.contains (u, id)

/-- A request asks for the slots that it has not had and not asked for. -/
def State.wantSlots (s : State) (g : Agent) (us : List Nat) : State :=
  us.foldl (fun s u =>
    if s.calGot.contains (u, g.id) || s.calReqs.any (fun q => q.unit == u && q.id == g.id) then s
    else
      let q : CalReq := ⟨u, s.fnOfCtx g.ctx, g.ctx.getD 4096, g.id⟩
      { s with calReqs := s.calReqs ++ [q] }.countUnit g.link q.fn) s

/-- The PAs of a run at which a row may begin. -/
def paSteps (r : Nat × Nat) : List Nat := (List.range ((r.2 + 255) / 256)).map fun i => r.1 + 256 * i

/-- A request can be served: its stacks serve it, and it has had its slots of the controllers and of the units `us`. -/
def State.runsReady (s : State) (g : Agent) (us : List Nat) (runs : List (Nat × Nat)) : Bool :=
  (runs.all fun r => (paSteps r).all fun a => !isHbm a || s.stackReady (s.fnOfCtx g.ctx) g.id a) &&
    s.hasSlots g.id (us ++ paUnits runs)

/-- A request that cannot be served yet is made: it reaches its plots, waits in their queues (R231), and asks for its slots. -/
def State.askRuns (s : State) (g : Agent) (us : List Nat) (runs : List (Nat × Nat)) : State :=
  (runs.foldl (fun s r => if isHbm r.1 then (s.touch (g.ctx.getD 4096) r.1).joinWake r.1 g.id else s) s).wantSlots g
    (us ++ paUnits runs)

/-- A request is served: its plots are reached (R232), its rows may be activated (R243), and the shared units forget it. -/
def State.doneRuns (s : State) (g : Agent) (runs : List (Nat × Nat)) : State :=
  runs.foldl (fun s r => (paSteps r).foldl (fun s a => s.activate (s.fnOfCtx g.ctx) a) (s.touch (g.ctx.getD 4096) r.1))
    (s.forgetPart g.id)

/-- The parity group of a stripe of a plot, and the pseudo-channel of unit `u` (of 256 bytes) in its group (R229, R239). -/
def groupOf (u : Nat) : Nat := 256 * u % 2 ^ 33 / 1792 % 64
def channelOf (u : Nat) : Nat :=
  8 * groupOf u + (256 * u % 2 ^ 33 / 1792 / 64 % 8 + 1 + 256 * u % 2 ^ 33 % 1792 / 256) % 8

/-- A unit is lost (R240): it was found so, or its pseudo-channel has failed in a group that lost another one, and no
write has replaced it since. -/
def State.unitLost (s : State) (u : Nat) : Bool :=
  s.lost.contains u ||
    (s.failedCh.contains (channelOf u) && !s.healed.contains u &&
      s.failedCh.any fun ch => ch != channelOf u && ch / 8 == groupOf u)

/-- The units that `n` bytes from an HBM PA touch. -/
def unitsOf (pa n : Nat) : List Nat := (List.range ((pa % 256 + n + 255) / 256)).map fun i => pa / 256 + i

/-- A read of `n` bytes meets a lost unit (R240). -/
def State.isLost (s : State) (pa n : Nat) : Bool := (unitsOf pa n).any s.unitLost

/-! ### Links (21 R331, 15 R274) -/

/-- Link numbers: 0 the host port, 1 the expander port, 2 to 13 the chip links, 14 and 15 the network ports. -/
def State.link (s : State) (l : Nat) : Link := (s.links.get l).getD Link.init
def Link.serves (l : Link) : Bool := l.state == .up || l.state == .degraded
def Link.dead (l : Link) : Bool := l.state == .down || l.state == .failed
/-- The link that a port entry's kind uses (R332). -/
def portLink (kind link : Nat) : Nat := if kind ≤ 1 then kind else 2 + link

/-! ### Lost units (13 R240) -/

/-- The stripe of an HBM PA: its plot, and the stripe in it (R229). -/
def stripeOf (pa : Nat) : Nat × Nat := (plotOf pa, pa % 2 ^ 33 / 1792)

/-- The seven data units of the stripe of unit `u` (R229). -/
def stripeUnits (u : Nat) : List Nat :=
  let base := u * 256 / 2 ^ 33 * 2 ^ 25 + u % 2 ^ 25 / 7 * 7
  (List.range 7).map fun i => base + i

/-- A write meets a stripe with a lost unit that it does not replace in full (R240). -/
def State.writeLost (s : State) (pa n : Nat) : Bool :=
  (unitsOf pa n).any fun u => (stripeUnits u).any fun v =>
    s.unitLost v && !decide (pa ≤ 256 * v ∧ 256 * v + 256 ≤ pa + n)

/-- The units that a write replaced in full are no longer lost (R240). -/
def State.heal (s : State) (pa n : Nat) : State :=
  let us := (unitsOf pa n).filter fun u => s.unitLost u && decide (pa ≤ 256 * u ∧ 256 * u + 256 ≤ pa + n)
  if us.isEmpty then s else { s with lost := s.lost.filter fun u => !us.contains u, healed := s.healed ++ us }

/-! ### Translation (R219 to R222) -/

/-- The permissions an access needs (R222). -/
inductive Need where
  | r | w | rw | x
  deriving DecidableEq, Repr

def leafAllows (need : Need) (e : W64) : Bool :=
  match need with
  | .r => bitAt e 2
  | .w => bitAt e 3
  | .rw => bitAt e 2 && bitAt e 3
  | .x => bitAt e 4

/-- The low bit of the VA field that indexes a level (R220); a leaf there maps 2^this bytes. -/
def levelShift (l : Nat) : Nat := if l = 0 then 16 else 12 + 9 * l
/-- The bytes of a table of a level (R220). -/
def tableSize (l : Nat) : Nat := if l = 0 then 256 else 4096

/-- What a VA comes to. -/
inductive Tr where
  | pa (a : Nat)          -- mapped
  | absent                -- v = 0 on the walk: a recoverable fault (R225)
  | bad                   -- a malformed entry or no permission: protection (R222)
  deriving DecidableEq, Repr

/-- Bits [51:8] of an entry, as a PA (R221). -/
def entryPa (e : W64) : Nat := bits e 51 8 * 256

/-- The checks of R222 on a valid entry of a level, before the permission. DEDUCED: a table in the last GiB of a plot, which
has no storage behind it (R218), is malformed as one outside HBM is. -/
def entryOk (l : Nat) (e : W64) : Bool :=
  let pa := entryPa e
  let rsv := bits e 63 59 == 0 && bits e 7 6 == 0
  if bitAt e 1 then
    rsv && decide (l ≤ 2) && pa % 2 ^ levelShift l == 0 &&
      (if bitAt e 58 then isFar pa
       else isHbm pa && pa / 2 ^ 30 % 8 != 7 && bits e 57 52 == plotOf pa)
  else
    rsv && l != 0 && bits e 58 52 == 0 && bits e 5 2 == 0 && pa % tableSize (l - 1) == 0 && backed pa

/-- The walk from a table of level `l` down (R220, R222). -/
def walk (m : Memory) (need : Need) (va : Nat) : Nat → Nat → Tr
  | l, table =>
    let i := va / 2 ^ levelShift l % (if l = 0 then 32 else 512)
    let e := BitVec.ofNat 64 (ofBytes (Memory.bytes m (table + 8 * i) 8))
    if !bitAt e 0 then .absent
    else if !entryOk l e then .bad
    else if bitAt e 1 then
      if leafAllows need e then .pa (entryPa e + va % 2 ^ levelShift l) else .bad
    else match l with
      | 0 => .bad
      | l + 1 => walk m need va l (entryPa e)

/-- The window bits of a VA (R22, R332). -/
def winOf (va : Nat) : Nat := va / 2 ^ 48 % 512

/-- A VA that no walk is made for (R220, R22, R332): 2^57 or more, or in a window region. The walker never reads entries 510
and 511 of a root table. -/
def unwalked (va : Nat) : Bool := decide (2 ^ 57 ≤ va) || decide (0x1FE ≤ winOf va)

/-- The expander port decodes a PA (R337): in CXL mode, one of its HDM ranges; in PCIe 6.x mode there is no expander memory. -/
def State.decodes (s : State) (pa : Nat) : Bool :=
  !s.pcie6 && s.hdm.any fun r => decide (r.1 ≤ pa ∧ pa < r.1 + r.2)

/-- A leaf whose PA is in no decoded range is malformed (R222). -/
def State.decoded (s : State) (t : Tr) : Tr :=
  match t with
  | .pa pa => if isFar pa && !s.decodes pa then .bad else .pa pa
  | t => t

/-- Translates a VA of a context by a walk (R220). -/
def State.translate (s : State) (c va : Nat) (need : Need) : Tr :=
  match s.ctx? c with
  | some x => if unwalked va then .bad else s.decoded (walk s.mem need va 4 x.root)
  | none => .bad

/-! ### The TLBs (R223) -/

/-- The leaf that maps a VA, from the table of level `l`: its entry's PA, its level and itself. -/
def leafAt (m : Memory) (va : Nat) : Nat → Nat → Option (Nat × Nat × W64)
  | l, table =>
    let a := table + 8 * (va / 2 ^ levelShift l % (if l = 0 then 32 else 512))
    let e := BitVec.ofNat 64 (ofBytes (Memory.bytes m a 8))
    if !bitAt e 0 || !entryOk l e then none
    else if bitAt e 1 then some (a, l, e)
    else match l with
      | 0 => none
      | l + 1 => leafAt m va l (entryPa e)

/-- The leaf of a VA of a context. -/
def State.leaf (s : State) (c va : Nat) : Option (Nat × Nat × W64) :=
  match s.ctx? c with
  | some x => if unwalked va then none else leafAt s.mem va 4 x.root
  | none => none

/-- A TLB entry maps a VA of a context. -/
def TlbEntry.maps (e : TlbEntry) (c va : Nat) : Bool :=
  e.ctx == c && va / 2 ^ levelShift e.level == e.va / 2 ^ levelShift e.level

/-- What an entry makes of a VA it maps. -/
def TlbEntry.tr (e : TlbEntry) (va : Nat) (need : Need) : Tr :=
  if leafAllows need e.leaf then .pa (entryPa e.leaf + va % 2 ^ levelShift e.level) else .bad

/-- The entry of the issuing core's first-level TLB, else of its die's last-level TLB. -/
def State.tlbHit (s : State) (k c va : Nat) : Option TlbEntry :=
  match (s.core? k).bind fun co => co.tlb.find? fun e => e.maps c va with
  | some e => some e
  | none => ((s.dieTlb.get (dieOf k)).getD []).find? fun e => e.maps c va

/-- Translates a VA for core `k`: from its TLBs (where an entry may be older than the tables, R224), else by a walk. -/
def State.translateAt (s : State) (k c va : Nat) (need : Need) : Tr :=
  if unwalked va then .bad
  else match s.tlbHit k c va with
    | some e => s.decoded (e.tr va need)
    | none => s.translate c va need

/-- An entry put into a TLB of some entries; from a full one an entry leaves, which one is free (R223). -/
def tlbPut (cap : Nat) (t : List TlbEntry) (e : TlbEntry) (victim : Nat) : List TlbEntry :=
  (if t.length < cap then t else t.eraseIdx (victim % cap)) ++ [e]

/-- The PAs of the table entries that a walk from a table of level `l` reads (R220). -/
def walkPas (m : Memory) (va : Nat) : Nat → Nat → List Nat
  | l, table =>
    let a := table + 8 * (va / 2 ^ levelShift l % (if l = 0 then 32 else 512))
    let e := BitVec.ofNat 64 (ofBytes (Memory.bytes m a 8))
    a :: (if !bitAt e 0 || bitAt e 1 || !entryOk l e then []
      else match l with
        | 0 => []
        | l + 1 => walkPas m va l (entryPa e))

/-- A walk counts as accesses of the context (R232), and it may activate rows (R243). DESIGN CHOICE: the model makes no walk wait for
a slot or for a row. -/
def State.walkTouch (s : State) (c va : Nat) : State :=
  match s.ctx? c with
  | some x => if unwalked va then s else (walkPas s.mem va 4 x.root).foldl (fun s a => (s.touch c a).activate x.fn a) s
  | none => s

/-- What a translation of core `k` leaves in its TLBs: the leaf, of any size, tagged with the context (R223). -/
def State.fillTlb (s : State) (k c va : Nat) : State :=
  let near := fun (e : TlbEntry) (s : State) => s.updCore k fun co =>
    if co.tlb.any fun q => q.maps c va then co
    else { co with tlb := tlbPut 512 co.tlb e (Config.report (s.fresh + 48) 0) }
  match s.tlbHit k c va with
  | some e => near e s
  | none => match s.leaf c va with
    | none => s.walkTouch c va
    | some (_, l, e) =>
      let s := s.walkTouch c va
      let t : TlbEntry := ⟨c, va / 2 ^ levelShift l * 2 ^ levelShift l, l, e⟩
      let far := tlbPut 8192 ((s.dieTlb.get (dieOf k)).getD []) t (Config.report (s.fresh + 48) 1)
      near t { s with dieTlb := s.dieTlb.set (dieOf k) far }

/-- Every entry that satisfies `f` leaves every TLB. -/
def State.purgeTlbs (s : State) (f : TlbEntry → Bool) : State :=
  { s with
    cores := s.cores.mapVals fun co => { co with tlb := co.tlb.filter fun e => !f e }
    dieTlb := s.dieTlb.mapVals fun t => t.filter fun e => !f e }

/-- The service request of R225: one per (context, page), by its 64 KiB page number. -/
def State.pageFault (s : State) (c va : Nat) : State :=
  s.updCtx c fun x => if x.faulting.contains (va / 65536) then x else { x with faulting := x.faulting ++ [va / 65536] }

/-- Where an address lies: a core's shared store, a die scratchpad, main memory, or a port (R22, R332). -/
inductive Place where
  | shared (k a : Nat)
  | die (d a : Nat)
  | mem (pa : Nat)
  | port (kind link pctx : Nat) (addr : Nat)
  deriving DecidableEq, Repr

/-- What a VA names for an engine access of `len` bytes. `absent` is a recoverable fault; `bad` is class 0x3,
protection. -/
inductive Where where
  | at' (p : Place)
  | absent
  | bad
  deriving DecidableEq, Repr

def inCoreWin (va : Nat) : Bool := decide (va < 2 ^ 57) && winOf va == 0x1FF && va / 2 ^ 40 % 256 == 0
def inDieWin (va : Nat) : Bool := decide (va < 2 ^ 57) && winOf va == 0x1FF && va / 2 ^ 40 % 256 == 1
def inPortWin (va : Nat) : Bool := decide (va < 2 ^ 57) && winOf va == 0x1FE
/-- The core and die windows together: the addresses of R56 and R57 that make work local. -/
def inLocalWin (va : Nat) : Bool := inCoreWin va || inDieWin va

/-- Some of `len` bytes at a VA belong to the code of a loaded kernel, which is never writable (R40). -/
def Ctx.inCode (x : Ctx) (va len : Nat) : Bool :=
  x.kernels.any fun e => e.2.state != .unloaded &&
    decide (va < e.2.codeVa + 4 * e.2.codewords ∧ e.2.codeVa < va + len)

/-- Resolves an engine access of a team or channel of core `k` (R22, R222, R332). `region` is the base and size of the
crew's region; `port` says whether the form may use the port window, and for a write or a read (R333). DESIGN CHOICE: an entry
of kind 2 whose `link` names none of the chip links 0 to 11 is refused like one of a reserved kind. -/
def State.resolve (s : State) (k : Nat) (region : Nat × Nat) (va len : Nat) (need : Need) (port : Option Bool) : Where :=
  match s.ctxOf k with
  | none => .bad
  | some (c, x) =>
    if 2 ^ 57 ≤ va then .bad
    else if inCoreWin va then
      if va % 2 ^ 40 + len ≤ region.2 then .at' (.shared k (region.1 + va % 2 ^ 40)) else .bad
    else if inDieWin va then
      match x.dieWin.get (dieOf k) with
      | some (b, n) => if va % 2 ^ 40 + len ≤ n then .at' (.die (dieOf k) (b + va % 2 ^ 40)) else .bad
      | none => .bad
    else if winOf va = 0x1FF then .bad
    else if inPortWin va then
      match port, x.ports.get (va / 2 ^ 40 % 256) with
      | some w, some e =>
        let kind := bits e.ctl 6 4
        if bitAt e.ctl 0 && decide (kind ≤ 2) && (kind != 2 || decide (bits e.ctl 35 32 ≤ 11)) && e.ctl &&& 0x03FF0000FFFFFF88 == 0 && (if w then bitAt e.ctl 2 else bitAt e.ctl 1) &&
            decide (va % 2 ^ 40 + len ≤ 2 ^ bits e.ctl 63 58) then
          .at' (.port kind (bits e.ctl 35 32) (bits e.ctl 47 36) (e.base.toNat + va % 2 ^ 40))
        else .bad
      | _, _ => .bad
    else if need != .r && x.inCode va len then .bad
    else match s.translateAt k c va need with
      | .pa a => .at' (.mem a)
      | .absent => .absent
      | .bad => .bad

/-- The bytes at a place; a port's come from the device. -/
def State.readAt (s : State) (p : Place) (n : Nat) : List Byte :=
  match p with
  | .shared k a => match s.core? k with
    | some c => Regs.bytes c.shared a n
    | none => List.replicate n 0
  | .die d a => Regs.bytes ((s.scratch.get d).getD []) a n
  | .mem a => s.pa a n
  | .port _ _ _ _ => (List.range n).map fun j => Config.device s.fresh j

/-- Writes bytes at a place; a port's leave the package. -/
def State.writeAt (s : State) (p : Place) (bs : List Byte) : State :=
  match p with
  | .shared k a => s.updCore k fun c => { c with shared := Regs.setBytes c.shared a bs }
  | .die d a => { s with scratch := s.scratch.set d (Regs.setBytes ((s.scratch.get d).getD []) a bs) }
  | .mem a => s.setPa a bs
  | .port kind link pctx addr => { s with outputs := s.outputs ++ [.portWrite kind link pctx addr bs] }

/-- The queue pairs after a write of `n` bytes at PA `a`: the memory controllers forward one that meets a doorbell word (R340). -/
def State.rungBells (s : State) (a n : Nat) : Map QPair := s.qps.mapVals fun q =>
  match s.translate q.ctx q.db .r with
  | .pa p => if p < a + n ∧ a < p + 8 then { q with rung := true } else q
  | _ => q

def State.ringBells (s : State) (a n : Nat) : State := { s with qps := s.rungBells a n }

/-- A read of `n` bytes through a port leaves the package (R333); one at another place does not. -/
def State.askPort (s : State) (p : Place) (n : Nat) : State :=
  match p with
  | .port kind link pctx addr => { s with outputs := s.outputs ++ [.portRead kind link pctx addr n] }
  | _ => s

/-- The pieces of a run of bytes, cut at 64 KiB boundaries: (VA, offset, bytes). -/
def cutRun : Nat → Nat → Nat → Nat → List (Nat × Nat × Nat)
  | 0, _, _, _ => []
  | f + 1, va, off, n =>
    if n = 0 then []
    else
      let m := min n (65536 - va % 65536)
      (va, off, m) :: cutRun f (va + m) (off + m) (n - m)

/-- The PAs of a run of bytes of a context, piece by piece as they translate: (PA, offset, bytes). -/
def State.paRun (s : State) (c va n : Nat) (need : Need) : Option (List (Nat × Nat × Nat)) :=
  (cutRun (n / 65536 + 2) va 0 n).foldr (fun p acc => match acc, s.translate c p.1 need with
    | some ps, .pa a => some ((a, p.2.1, p.2.2) :: ps)
    | _, _ => none) (some [])

/-- Bytes of main memory that every agent has seen written: the port engines see no older ones (R209). -/
def State.portSees (s : State) (a n : Nat) : State :=
  { s with portOld := s.portOld.filter fun e => !decide (a ≤ e.1 ∧ e.1 < a + n) }

/-- Writes bytes at a VA of a context; answers nothing where a byte does not translate, or is code. Used by the agents
outside the cores, whose writes are performed at every scope at once. -/
def State.writeVa (s : State) (c va : Nat) (bs : List Byte) : Option State :=
  if (match s.ctx? c with | some x => x.inCode va bs.length | none => true) then none
  else (s.paRun c va bs.length .w).map fun ps => ps.foldl (fun s p =>
    ((s.setPa p.1 ((bs.drop p.2.1).take p.2.2)).portSees p.1 p.2.2).touch c p.1) s

def State.readVa (s : State) (c va n : Nat) : Option (List Byte) :=
  (s.paRun c va n .r).map fun ps => ps.flatMap fun p => s.pa p.1 p.2.2

/-! ### Trace and stop records (08) -/

/-- pid and tid of a kernel, joined (R164). -/
def Kern.pidtid (n : Kern) : Nat := n.pid * 2 ^ 32 + n.tid

/-- A 64-byte record (R171). -/
def recordBytes (tstamp kind split team kernel ctx : Nat) (pc : W64) (pidtid b0 b1 b2 : Nat) : List Byte :=
  toBytes 8 tstamp ++
  toBytes 8 (kind % 256 * 2 ^ 48 + split % 16 * 2 ^ 44 + team % 2 ^ 16 * 2 ^ 28 + kernel % 2 ^ 16 * 2 ^ 12 + ctx % 2 ^ 12) ++
  toBytes 8 pc.toNat ++ toBytes 8 pidtid ++ toBytes 8 b0 ++ toBytes 8 b1 ++ toBytes 8 b2 ++ toBytes 8 0

/-- pid and tid of a team (R164, R171): 0 for a crew that a launch binding placed, whose process part is `-`. -/
def Core.pidtidOf (c : Core) (tm : Team) (n : Option Kern) : Nat :=
  match n, c.crews.get tm.crew with
  | some n, some w => if w.bound then 0 else n.pidtid
  | some n, none => n.pidtid
  | none, _ => 0

/-- T of R164: the crew's serial and the team's index. -/
def Core.teamT (c : Core) (tm : Team) : Nat :=
  16 * (match c.crews.get tm.crew with | some w => w.serial | none => 0) + tm.index

/-- A record whose write faults is dropped and counted, and the ring disabled (R172); what still waits for the ring goes
with it. -/
def Core.traceFault (c : Core) : Core :=
  { c with trlost := c.trlost + BitVec.ofNat 64 c.trPend.length, trPend := [], trbase := 0 }

/-- Writes pending records into the ring in order (R171, R172), as far as their pages translate, their plots are Warm (R231)
and their slots of the calendar have come; an absent page is asked for (R225). -/
def drainTrace : Nat → Nat → State → State
  | 0, _, s => s
  | n + 1, k, s =>
    match s.core? k, s.ctxOf k with
    | some c, some (cn, _) =>
      match c.trPend with
      | [] => s
      | r :: rs =>
        if c.trsize = 0 then s
        else
          let va := c.trbase.toNat + 64 * (c.trhead.toNat % c.trsize.toNat)
          match s.translateAt k cn va .w with
          | .absent => s.pageFault cn va
          | .bad => s.updCore k (·.traceFault)
          | .pa a =>
            let g : Agent := ⟨some cn, traceId k, linkUnit k⟩
            if isHbm a && ((s.plot (plotOf a)).state == .off || s.writeLost a 64) then s.updCore k (·.traceFault)
            else if isFar a && !(s.link 1).serves then s.updCore k (·.traceFault)
            else if !s.runsReady g [] [(a, 64)] then (s.touchFrom k cn a).askRuns g [] [(a, 64)]
            else match s.writeVa cn va r with
              | some s' => drainTrace n k (((s'.fillTlb k cn va).doneRuns g [(a, 64)]).updCore k fun c =>
                  { c with trPend := rs, trhead := c.trhead + 1 })
              | none => s.updCore k (·.traceFault)
    | _, _ => s

/-- Every core writes the trace records that it can. -/
def State.drainTraces (s : State) : State :=
  s.cores.foldl (fun s e => if e.2.trPend.isEmpty || e.2.trbase == 0 then s else drainTrace (e.2.trPend.length + 1) e.1 s) s

/-- A record of core `k` (R171): none is written while `trbase` is 0, nor in a ring of no entries. -/
def State.emit (s : State) (k : Nat) (r : List Byte) : State :=
  match s.core? k with
  | some c =>
    if c.trbase = 0 || c.trsize = 0 then s
    else drainTrace (c.trPend.length + 1) k (s.updCore k fun c => { c with trPend := c.trPend ++ [r] })
  | none => s

/-- A record of a team's split. -/
def State.emitFor (s : State) (k t p kind : Nat) (pc : W64) (b0 b1 b2 : Nat) : State :=
  match s.core? k, s.team? k t, s.ctxOf k with
  | some c, some tm, some (cn, x) =>
    s.emit k (recordBytes s.tstamp.toNat kind p (c.teamT tm) tm.kernel cn pc
      (c.pidtidOf tm (x.kernOf tm)) b0 b1 b2)
  | _, _, _ => s

/-! ### Accesses of LOC words (11 R201, R206) -/

/-- The operation of an atomic on an old value, an operand and a compare value of `n` bytes, by the codes of R154. -/
def atomOp (op n w x c : Nat) : Nat :=
  let b := 8 * n
  let i := fun v => (BitVec.ofNat b v).toInt
  match op with
  | 0 => (w + x) % 2 ^ b
  | 1 => (fadd32 (BitVec.ofNat 32 w) (BitVec.ofNat 32 x)).toNat
  | 2 => if i x < i w then x else w
  | 3 => if i w < i x then x else w
  | 4 => min w x
  | 5 => max w x
  | 6 => (BitVec.ofNat b w &&& BitVec.ofNat b x).toNat
  | 7 => (BitVec.ofNat b w ||| BitVec.ofNat b x).toNat
  | 8 => (BitVec.ofNat b w ^^^ BitVec.ofNat b x).toNat
  | 9 => x
  | _ => if w = c then x else w

/-- The bytes of one lane's access. -/
def LocOp.size : LocOp → Nat
  | .none => 0
  | .load n _ => n
  | .store n => n
  | .atom _ n => n

/-- A loaded value of `n` bytes in a register (R137). -/
def loadExt (n : Nat) (signed : Bool) (v : Nat) : W32 :=
  if signed then (BitVec.ofNat (8 * n) v).signExtend 32 else BitVec.ofNat 32 v

/-- Where one lane's access lies. -/
def State.locPlace (s : State) (k : Nat) (e : LocAcc) : Place :=
  if e.die then
    .die (dieOf k) ((match (s.ctxOf k).bind fun x => x.2.dieWin.get (dieOf k) with | some w => w.1 | none => 0) + e.addr)
  else .shared k e.addr

/-- One lane's access is performed (R201): the state after it, and the word with what it has read. -/
def State.performAcc (s : State) (k : Nat) (w : Writeback) (e : LocAcc) : State × Writeback :=
  let pl := s.locPlace k e
  let n := w.op.size
  let old := ofBytes (s.readAt pl n)
  let w := { w with accs := w.accs.filter fun f => f.lane != e.lane }
  match w.op with
  | .none => (s, w)
  | .load _ sg => (s, { w with vals := Regs.set w.vals e.lane (loadExt n sg old) })
  | .store _ => (s.writeAt pl (toBytes n e.data), w)
  | .atom op _ => (s.writeAt pl (toBytes n (atomOp op n old e.data e.cmp)),
      { w with vals := Regs.set (Regs.set w.vals e.lane (BitVec.ofNat 32 old)) (1024 + e.lane) (BitVec.ofNat 32 (old / 2 ^ 32)) })

/-- Two accesses touch one 4-byte word. -/
def LocAcc.meets (e : LocAcc) (n : Nat) (f : LocAcc) (m : Nat) : Bool :=
  e.die == f.die && decide (e.addr / 4 ≤ (f.addr + m - 1) / 4 ∧ f.addr / 4 ≤ (e.addr + n - 1) / 4)

/-- Whether an access may be performed now: earlier accesses of the split to its words come first (R138, R202), and so do
those that a release, an acquire or a fence orders before it (R206); the lanes of one atomic that name one word go in
increasing order (R139, R140). -/
def Writeback.mayPerform (w : Writeback) (before : List Writeback) (e : LocAcc) : Bool :=
  (before.all fun b => b.accs.isEmpty ||
    (!b.hold && !w.after && b.accs.all fun f => !e.meets w.op.size f b.op.size)) &&
  (match w.op with
   | .atom _ n => w.accs.all fun f => !(decide (f.lane < e.lane) && e.meets n f n)
   | _ => true)

/-- An access lies in the slice of the die scratchpad that belongs to its core's aisle (R216). -/
def State.ownSlice (s : State) (k : Nat) (e : LocAcc) : Bool :=
  match s.locPlace k e with
  | .die _ a => Config.sliceOf a % 10 == k % 80 / 8
  | _ => false

/-- A store to the aisle's own slice comes after the split's earlier ones there, which arrive in order (R216). -/
def State.sliceOrder (s : State) (k : Nat) (before : List Writeback) (w : Writeback) (e : LocAcc) : Bool :=
  match w.op with
  | .store _ => !s.ownSlice k e || before.all fun b => (match b.op with
      | .store _ => b.accs.all fun f => !s.ownSlice k f
      | _ => true)
  | _ => true

/-- Accesses of a word performed one after another, as far as they may be. -/
def performLanes : List LocAcc → State → Nat → List Writeback → Writeback → State × Writeback
  | [], s, _, _, w => (s, w)
  | e :: es, s, k, before, w =>
    if w.mayPerform before e && s.sliceOrder k before w e then
      let r := s.performAcc k w e
      performLanes es r.1 k before r.2
    else performLanes es s k before w

/-- The accesses of word `i` of a split that `f` names are performed, as far as they may be. -/
def State.performWb (s : State) (k t p i : Nat) (f : LocAcc → Bool) : State :=
  match s.split? k t p with
  | none => s
  | some sp => match sp.wbs[i]? with
    | none => s
    | some w =>
      let r := performLanes (w.accs.filter f) s k (sp.wbs.take i) w
      r.1.updSplit k t p fun sp => { sp with wbs := sp.wbs.set i r.2 }

/-- A LOC word that writes a register (R31, R32), and one that writes memory. -/
def Writeback.writesReg (w : Writeback) : Bool :=
  match w.op with
  | .store _ => false
  | _ => true
def Writeback.writesMem (w : Writeback) : Bool :=
  match w.op with
  | .store _ | .atom _ _ => true
  | _ => false

/-- A LOC word with nothing left to perform or to write back. -/
def Writeback.done (w : Writeback) : Bool := w.accs.isEmpty && !w.uni && w.lanes == 0

/-- A split has accesses that are not performed. -/
def Split.pending (sp : Split) : Bool := sp.wbs.any fun w => !w.accs.isEmpty

/-- Bytes of the core's shared store, or of the context's window in the die scratchpad. -/
structure LocRange where
  die : Bool
  addr : Nat
  len : Nat
  deriving DecidableEq, Repr

/-- An access of `n` bytes touches a word of a range. -/
def LocRange.hits (r : LocRange) (n : Nat) (e : LocAcc) : Bool :=
  r.len != 0 && r.die == e.die && decide (e.addr / 4 ≤ (r.addr + r.len - 1) / 4 ∧ r.addr / 4 ≤ (e.addr + n - 1) / 4)

/-- A team has stores that its splits see and that are not performed for other agents. -/
def Team.hasSeen (tm : Team) : Bool := tm.splits.any fun e => e.2.wbs.any (·.seen)

/-- Stores that the splits of a team see already are performed where `f` names their accesses: an access of the team that meets
one comes after it (R211). -/
def State.showSeen (s : State) (k t : Nat) (f : Nat → LocAcc → Bool) : State :=
  match s.team? k t with
  | none => s
  | some tm =>
    if !tm.hasSeen then s
    else tm.splits.foldl (fun s e => (List.range e.2.wbs.length).foldl (fun s i => match e.2.wbs[i]? with
      | some w => if w.seen then s.performWb k t e.1 i (f w.op.size) else s
      | none => s) s) s

/-- The accesses of the first `n` LOC words of a split are performed, in program order; their results may still have to write
back. -/
def State.settleFirst (s : State) (k t p n : Nat) : State :=
  match s.split? k t p with
  | none => s
  | some sp =>
    if (sp.wbs.take n).any fun w => !w.accs.isEmpty then
      ((List.range n).foldl (fun s i => s.performWb k t p i fun _ => true) (s.showSeen k t fun _ _ => true)).updSplit k t p
        fun sp => { sp with wbs := sp.wbs.filter fun w => !w.done }
    else s

/-- Every access of a split is performed. -/
def State.settleSplit (s : State) (k t p : Nat) : State :=
  match s.split? k t p with
  | none => s
  | some sp => s.settleFirst k t p sp.wbs.length

/-- How many LOC words of a split come up to the last one before operation `x` that has accesses still to perform and that `f`
names. -/
def Split.upTo (sp : Split) (x : Nat) (f : Writeback → Bool) : Nat :=
  (sp.wbs.mapIdx fun i w => if decide (w.no ≤ x) && !w.accs.isEmpty && f w then i + 1 else 0).foldl max 0

/-- The LOC words of a split before operation `x`, up to the last that has accesses still to perform and that `f` names, are
performed. -/
def State.settleUpTo (s : State) (k t p x : Nat) (f : Writeback → Bool) : State :=
  match s.split? k t p with
  | some sp => s.settleFirst k t p (sp.upTo x f)
  | none => s

/-- Some access of a word touches one of some ranges. -/
def Writeback.meets (w : Writeback) (rs : List LocRange) : Bool := rs.any fun r => w.accs.any (r.hits w.op.size)

/-- What comes after the split's earlier accesses before operation `x` to some ranges (R138, R202, R208): those are performed, with
the stores there that the team sees. -/
def State.settleRanges (s : State) (k t p x : Nat) (rs : List LocRange) : State :=
  (s.showSeen k t fun n e => rs.any fun r => r.hits n e).settleUpTo k t p x (·.meets rs)

/-- An access of `n` bytes of the shared store comes after the split's earlier ones there (R138, R202). -/
def State.settleNear (s : State) (k t p a n : Nat) : State :=
  match s.core? k with
  | some c => s.settleRanges k t p c.nextX [⟨false, a, n⟩]
  | none => s

/-- Every access of a team is performed. -/
def State.settleTeam (s : State) (k t : Nat) : State :=
  match s.team? k t with
  | some tm => tm.splits.foldl (fun s e => s.settleSplit k t e.1) s
  | none => s

/-- What a split did before operation `x` is performed at team scope (R206, R211): its loads, and, for the team's splits alone, its
stores. -/
def State.teamRelease (s : State) (k t p x : Nat) : State :=
  let stores := fun w : Writeback => match w.op with
    | .store _ => true
    | _ => false
  match s.split? k t p with
  | none => s
  | some sp =>
    let n := sp.upTo x fun _ => true
    let s := (List.range n).foldl (fun s i => match sp.wbs[i]? with
      | some w => if stores w then s else s.performWb k t p i fun _ => true
      | none => s) s
    (s.settleUpTo k t p x fun w => !stores w).updSplit k t p fun sp => { sp with
      wbs := (sp.wbs.filter fun w => !w.done).map fun w =>
        if decide (w.no ≤ x) && !w.accs.isEmpty then { w with seen := true } else w }

/-- A release at a scope of what a split did before operation `x` (R206): nothing at lane scope (R216), at team scope for the team's
splits only, and at a wider one for every agent. -/
def State.releaseLocal (s : State) (k t p x scope : Nat) : State :=
  match scope with
  | 0 => s
  | 1 => s.teamRelease k t p x
  | _ => s.settleUpTo k t p x fun _ => true

/-- The lanes of a word that have an access still to perform. -/
def Writeback.waiting (w : Writeback) : Mask := w.accs.foldl (fun m e => m ||| BitVec.ofNat 1024 (2 ^ e.lane)) 0

/-- Writes back what a result of a LOC word still holds, in the lanes given (R32). -/
def Team.applyWb (tm : Team) (w : Writeback) (m : Mask) : Team :=
  if w.uni then tm.setS w.reg w.sval
  else
    let ls := lanesOf (w.lanes &&& m &&& ~~~w.waiting) tm.lanes
    let tm := tm.setV w.reg (ls.map fun l => (l, Regs.get w.vals l))
    match w.op with
    | .atom _ 8 => tm.setV (w.reg + 1) (ls.map fun l => (l, Regs.get w.vals (1024 + l)))
    | _ => tm

/-- Every performed result of a team written back, in issue order (R165). -/
def Team.flushWbs (tm : Team) : Team :=
  let all := tm.splits.flatMap fun e => e.2.wbs
  let tm := all.foldl (fun m w => m.applyWb w (maskAll 1024)) tm
  { tm with splits := tm.splits.mapVals fun sp => { sp with wbs := [] } }

/-- A debug stop of a team at a word (R165): accesses performed, results written back, issue halted, and a stop record with
the cause and the `brk` code (R171). -/
def State.stopHere (s : State) (k t p : Nat) (pc : W64) (cause brk : Nat) : State :=
  ((s.settleTeam k t).updTeam k t fun tm =>
    if tm.state = .stopped then tm.flushWbs else { tm.flushWbs with prev := tm.state, state := .stopped }).emitFor
    k t p 3 pc (cause % 2 ^ 16 + brk % 2 ^ 16 * 2 ^ 16) 0 0

/-- The same for a team that stops of itself: with `dbgctl.all` set, every team of the context is to stop within one rotation
(R167). -/
def State.stop (s : State) (k t p : Nat) (pc : W64) (cause brk : Nat) : State :=
  let s := match s.team? k t, s.core? k with
    | some tm, some co => if tm.dall then
        { s with cores := s.cores.mapVals fun c => if c.ctx = co.ctx ∧ c.stopIn = none then { c with stopIn := some 16 } else c }
      else s
    | _, _ => s
  s.stopHere k t p pc cause brk

/-- A stop at a breakpoint: the split passes it when it resumes (R168). -/
def State.stopBreak (s : State) (k t p : Nat) (pc : W64) : State :=
  (s.stop k t p pc 0 0).updSplit k t p fun sp => { sp with passBreak := true }

/-- A stop that a `brk` or a watched word causes: the split passes it, and a comparator there, when it resumes (R129, R170). -/
def State.stopPass (s : State) (k t p : Nat) (pc : W64) (cause brk : Nat) : State :=
  (s.stop k t p pc cause brk).updSplit k t p fun sp => { sp with passBreak := true, passWord := true }

/-! ### Taking a trap (15) -/

/-- A fault of a word: its code, `info`, `info2`, and for a code with a lane mask the lanes with reason and value
(R270), in increasing lane order. -/
structure Trap where
  code : Nat
  info : Nat := 0
  info2 : Nat := 0
  lanes : List (Nat × Nat × Nat) := []
  deriving DecidableEq, Repr

/-- The faulting lanes of a trap. -/
def Trap.mask (tr : Trap) : Mask := tr.lanes.foldl (fun m l => m ||| BitVec.ofNat 1024 (2 ^ l.1)) 0

/-- What is kept of a fault that holds or stops its team (R178, R266); the lanes of source lost are those of the side buffer
(R271). -/
def Trap.info' (tr : Trap) (side : SideBuf) (pc : W64) (p : Nat) (now : W64) : FaultInfo :=
  ⟨BitVec.ofNat 16 tr.code, p, pc, BitVec.ofNat 64 tr.info, if tr.code = 0x0303 then side.mask else tr.mask, now⟩

/-- The grade a code carries (R264). -/
def gradeOf (code : Nat) : BitVec 2 :=
  if code = 0x0302 ∨ code = 0x0303 ∨ code = 0x0304 ∨ code = 0x0604 then 1
  else if code = 0x0310 ∨ code = 0x0311 ∨ code = 0x0312 then 2
  else 0

/-- Whether a code is routed to the context's handler (R264). -/
def toHandler (code : Nat) : Bool := code != 0x0004 && code != 0x0301 && code != 0x0304

/-- A `detail` entry (R270). -/
def detailWord (reason value : Nat) : W64 := BitVec.ofNat 64 (reason % 16 * 2 ^ 60 + value % 2 ^ 57)

/-- The buffer a precise fault leaves: it replaces everything, and sets `over` when engine failures were recorded that
no 0x0303 trap had delivered (R271). -/
def SideBuf.precise (b : SideBuf) (p : Nat) (pc : W64) (tr : Trap) : SideBuf :=
  { SideBuf.zero with
    code := BitVec.ofNat 16 tr.code
    grade := gradeOf tr.code
    split := p
    overrun := b.fresh
    pc := pc
    info := BitVec.ofNat 64 tr.info
    info2 := BitVec.ofNat 64 tr.info2
    mask := tr.mask
    detail := (tr.lanes.take 32).map fun l => (l.1, detailWord l.2.1 l.2.2) }

/-- The buffer that a 0x0303 trap delivers: the failures recorded so far are kept (R271). -/
def SideBuf.deliver (b : SideBuf) (p : Nat) (pc : W64) (tr : Trap) : SideBuf :=
  { b with
    code := BitVec.ofNat 16 tr.code
    grade := gradeOf tr.code
    split := p
    fresh := false
    pc := pc
    info := BitVec.ofNat 64 tr.info }

/-- Takes a trap of split `p` (R265 to R267): at the word `pc`, with `resume` and the clause `h`, `hdr` and word position
`w` that `rett` goes back to. With a debugger attached the team stops instead (R178). Routed to the handler, it saves
the masks and the position, fills the side buffer and goes to the vector of its class; in every other case the team is
Held for the resident kernel (R266). -/
def State.trap (s : State) (k t p : Nat) (tr : Trap) (pc resume h : W64) (hdr : W32) (w : Nat) : State :=
  match s.team? k t with
  | none => s
  | some tm =>
    if tm.att then (s.stop k t p pc tr.code 0).updTeam k t fun tm => { tm with fault := some (tr.info' tm.side pc p s.tstamp) }
    else if tm.state = .active ∧ tm.tvec ≠ 0 ∧ toHandler tr.code then
      s.updTeam k t fun tm => { tm with
        state := .handler p
        tcause := BitVec.ofNat 16 tr.code
        tgrade := gradeOf tr.code
        tpc := resume
        side := if tr.code = 0x0303 then tm.side.deliver p pc tr else tm.side.precise p pc tr
        splits := tm.splits.upd p fun sp => { sp with
          pc := tm.tvec + BitVec.ofNat 64 (tr.code / 256 * 0x200)
          state := .ready
          wait := .none
          clause := none
          transfer := true
          waited := false
          popped := none
          frame := some ⟨sp.exec, sp.live, h, hdr, w, sp.popped⟩
          exec := if tr.code = 0x0303 ∧ tm.side.mask ≠ 0 then tm.side.mask &&& sp.exec
            else if tr.lanes.isEmpty then sp.exec
            else tr.mask &&& sp.exec } }
    else
      s.updTeam k t fun tm => { tm with
        state := .held
        fault := some (tr.info' tm.side pc p s.tstamp) }

/-- The gate a clause samples (R30): `pred` and `pneg` of its header, on the lanes of the split's mask. -/
def gateOf (tm : Team) (sp : Split) (hdr : W32) : Mask :=
  let pm := tm.preg (hdr.extractLsb' 17 3).toNat
  (if hdr.getLsbD 16 then ~~~pm else pm) &&& sp.exec

/-- Returns from the handler (R128, R268) in split `p`: the mask saved at entry, less the lanes killed since; the side
buffer cleared; and either the saved word position, with the gate sampled again, or the header that `tpc` names. -/
def State.rett (s : State) (k t p : Nat) (f : Frame) : State :=
  s.updTeam k t fun tm => { tm with
    state := .active
    side := SideBuf.zero
    splits := tm.splits.upd p fun sp =>
      let sp' := { sp with exec := f.exec &&& sp.live, frame := none, waited := false }
      if f.w ≠ 0 ∧ tm.tpc = f.h + BitVec.ofNat 64 (4 * f.w) then
        { sp' with clause := some ⟨f.h, f.hdr, gateOf tm sp' f.hdr, f.w⟩, popped := f.popped }
      else { sp' with pc := tm.tpc, clause := none, transfer := true } }

/-- Whether an entry is the handler's split or one that it formed. -/
def inHandler (tm : Team) (q : Nat) : Nat → Nat → Bool
  | 0, _ => false
  | n + 1, p => p == q || (match tm.splits.get p with
    | some sp => sp.parent != p && inHandler tm q n sp.parent
    | none => false)

/-- Whether a team's state lets an entry issue (R104). -/
def Team.mayIssue (tm : Team) (p : Nat) : Bool :=
  match tm.state with
  | .active => true
  | .handler q => inHandler tm q 16 p
  | _ => false

/-- A wait of an entry may come true: its team lets it issue, or would but for a debug stop (R166). -/
def Team.mayWake (tm : Team) (p : Nat) : Bool :=
  tm.mayIssue p || (tm.state == .stopped && { tm with state := tm.prev }.mayIssue p)

/-! ### The fault log (R273) -/

/-- Appends an entry to a context's fault log, for a fault at a time. -/
def State.logAt (s : State) (now : W64) (c : Nat) (kernel team act : Nat) (grade code : Nat) (pc info : W64) (pidtid : Nat) :
    State :=
  s.updCtx c fun x => { x with log := x.log ++ [⟨now, kernel % 2 ^ 16, team % 2 ^ 16, act, grade, BitVec.ofNat 16 code,
    pc, info, pidtid / 2 ^ 32, pidtid % 2 ^ 32⟩] }

/-- Appends an entry to a context's fault log, for a fault of now. -/
def State.log (s : State) (c : Nat) (kernel team act : Nat) (grade code : Nat) (pc info : W64) (pidtid : Nat) : State :=
  s.logAt s.tstamp c kernel team act grade code pc info pidtid

/-- The fault log as it can be read: a ring in the registry, whose size the spec does not give, holds the last entries
(R273). -/
def Ctx.logRing (x : Ctx) : List LogEntry := x.log.drop (x.log.length - (Config.logSize + 1))

/-- The 64 bytes of an entry of the log (R273). -/
def LogEntry.bytes (e : LogEntry) : List Byte :=
  toBytes 8 e.tstamp.toNat ++
  toBytes 8 (e.kernel % 2 ^ 16 * 2 ^ 48 + e.team % 2 ^ 16 * 2 ^ 32 + e.act % 4 * 2 ^ 24 + e.grade % 4 * 2 ^ 16 + e.code.toNat) ++
  toBytes 8 e.pc.toNat ++ toBytes 8 e.info.toNat ++ toBytes 8 (e.pid % 2 ^ 32 * 2 ^ 32 + e.tid % 2 ^ 32) ++ toBytes 24 0

/-! ### Barrier objects (R145, R146) -/

/-- A barrier object. -/
structure Bar where
  phase : Bool
  error : Bool
  reload : Nat
  bytes : Int
  expected : Nat
  pending : Nat
  deriving DecidableEq, Repr

/-- The shared store of a core. -/
def State.shared (s : State) (k : Nat) : Regs 8 :=
  match s.core? k with
  | some c => c.shared
  | none => []

/-- The object at an address of a shared store. -/
def Bar.read (m : Regs 8) (a : Nat) : Bar :=
  let top := ofBytes (Regs.bytes m (a + 12) 4)
  ⟨top / 2 ^ 31 % 2 == 1, top / 2 ^ 30 % 2 == 1, top % 2 ^ 30,
    (BitVec.ofNat 32 (ofBytes (Regs.bytes m (a + 8) 4))).toInt,
    ofBytes (Regs.bytes m (a + 4) 4), ofBytes (Regs.bytes m a 4)⟩

def Bar.write (m : Regs 8) (a : Nat) (b : Bar) : Regs 8 :=
  Regs.setBytes m a (toBytes 4 b.pending ++ toBytes 4 b.expected ++ toBytes 4 (wrap 32 b.bytes).toNat ++
    toBytes 4 (b2n b.phase * 2 ^ 31 + b2n b.error * 2 ^ 30 + b.reload % 2 ^ 30))

/-- The test that follows every change: with nothing pending and no bytes outstanding the phase ends (R146). -/
def Bar.test (b : Bar) : Bar :=
  if b.pending = 0 ∧ b.bytes = 0 then { b with phase := !b.phase, expected := b.reload, pending := b.reload } else b

/-- One event of a barrier object and its test, as one step. -/
def State.barEvent (s : State) (k a : Nat) (f : Bar → Bar) : State :=
  s.updCore k fun c => { c with shared := Bar.write c.shared a (f (Bar.read c.shared a)).test }

/-- Bytes added at issue or subtracted as they arrive (R146). -/
def State.barAdd (s : State) (k a : Nat) (n : Int) : State := s.barEvent k a fun b => { b with bytes := b.bytes + n }

/-- Bytes an engine failed on: subtracted, and `error` set (R146). -/
def State.barFail (s : State) (k a : Nat) (n : Int) : State :=
  s.barEvent k a fun b => { b with bytes := b.bytes - n, error := true }

end Sys2Proof.Machine
end

