-- ==== Sys2Proof/Machine/Frame.lean ====
section
/-! DEFINITION. How a word ends: what its meaning answers, and what that makes of the split (02 R29, 15 R267). Every
meaning of an encoded form is `onWord` of such an answer. -/

namespace Sys2Proof.Machine

/-- How a word ends. `adv`: it is done, and the clause goes on. `go`: it transfers control, which ends the clause.
`fall`: it ends the clause, and the next header follows. `sleep`: it has issued, and the split waits at it. `block`: it
has not issued, and the split waits to issue it. `trap`: it raises a fault, and nothing of it has taken effect. `trapTo`:
it raises a trap that resumes at a header. `left`: the split has ended, diverged or moved on. `stay`: it has not
issued, and its split stands at it (a debug stop). -/
inductive Out where
  | adv (s : State)
  | go (s : State) (pc : W64)
  | fall (s : State)
  | sleep (s : State) (w : Wait)
  | block (s : State) (w : Wait)
  | trap (s : State) (tr : Trap)
  | trapTo (s : State) (tr : Trap) (resume : W64)
  | left (s : State)
  | stay (s : State)
  deriving DecidableEq, Repr

/-- The words of an instruction counted in `pc.issue`, unless the counters are frozen (R174). -/
def Core.countIssue (c : Core) (n : Nat) : Core :=
  if c.pcCtl.getLsbD 0 then c else { c with pcIssue := c.pcIssue + BitVec.ofNat 64 n }

/-- One async instruction issued, in `pc.async` (R174). -/
def Core.countAsync (c : Core) : Core :=
  if c.pcCtl.getLsbD 0 then c else { c with pcAsync := c.pcAsync + 1 }

/-- A split leaves its clause for a header. -/
def Split.leave (sp : Split) (pc : W64) (transfer : Bool) : Split :=
  { sp with pc := pc, clause := none, transfer := transfer, waited := false, passBreak := false, passWord := false, prepaid := none, popped := none, heldAt := none,
            state := .ready, wait := .none }

/-- A split moves `n` words on in its clause; past the last word it reaches the next header (R29). -/
def Split.advance (sp : Split) (n : Nat) : Split :=
  match sp.clause with
  | none => sp
  | some c =>
    if cntOf c.hdr < c.pos + n then sp.leave c.after false
    else { sp with clause := some { c with pos := c.pos + n }, passBreak := false, passWord := false, prepaid := none, popped := none, heldAt := none,
                   state := .ready, wait := .none }

/-- `yld` (R33): a clause that has issued all its words gives up the team's next position. -/
def Team.yieldAt (tm : Team) (p : Nat) (hdr : W32) : Team :=
  if hdr.getLsbD 21 then { tm with yielded := p :: tm.yielded } else tm

/-- Moves split `p` on by `n` words. -/
def State.advance (s : State) (k t p n : Nat) : State :=
  s.updTeam k t fun tm =>
    let tm' := { tm with splits := tm.splits.upd p (·.advance n) }
    match (tm.splits.get p).bind (·.clause) with
    | some c => if cntOf c.hdr < c.pos + n then tm'.yieldAt p c.hdr else tm'
    | none => tm'

/-- Split `p` leaves its clause for the header at `pc`. -/
def State.leaveClause (s : State) (k t p : Nat) (hdr : W32) (pc : W64) (transfer : Bool) : State :=
  s.updTeam k t fun tm =>
    { tm with splits := tm.splits.upd p (·.leave pc transfer) }.yieldAt p hdr

/-- A split waits at its word of `n` words. -/
def State.waitAt (s : State) (k t p n : Nat) (w : Wait) : State :=
  s.updSplit k t p fun sp => { sp with state := .waiting, wait := w, wlen := n }

/-- A split is ready again at its word. -/
def State.release (s : State) (k t p : Nat) : State :=
  s.updSplit k t p fun sp => { sp with state := .ready, wait := .none }

/-- A cost item leaves the estimate of core `k` (R250). -/
def State.dropItem (s : State) (k : Nat) (item : Option Nat) : State :=
  match item with
  | some i => s.updCore k fun c => { c with items := c.items.del i }
  | none => s

/-- What an answer makes of the state. -/
def settle (a : At) : Out → State
  | .adv s => (s.updCore a.k (·.countIssue a.n)).advance a.k a.t a.p a.n
  | .go s pc => (s.updCore a.k (·.countIssue a.n)).leaveClause a.k a.t a.p a.cl.hdr pc true
  | .fall s => (s.updCore a.k (·.countIssue a.n)).leaveClause a.k a.t a.p a.cl.hdr a.cl.after false
  | .sleep s w => (s.updCore a.k (·.countIssue a.n)).waitAt a.k a.t a.p a.n w
  | .block s w => s.waitAt a.k a.t a.p a.n w
  | .trap s tr => ((s.dropItem a.k a.split.prepaid).updSplit a.k a.t a.p fun sp => { sp with prepaid := none }).trap
      a.k a.t a.p tr a.pc a.pc a.cl.h a.cl.hdr a.cl.pos
  | .trapTo s tr resume =>
    if a.team.att then s.trap a.k a.t a.p tr a.pc a.pc a.cl.h a.cl.hdr a.cl.pos
    else ((s.updCore a.k (·.countIssue a.n)).leaveClause a.k a.t a.p a.cl.hdr resume true).trap
      a.k a.t a.p tr a.pc resume a.cl.h a.cl.hdr 0
  | .left s => s.updCore a.k (·.countIssue a.n)
  | .stay s => s

/-- The meaning of an encoded form: without a word in issue nothing happens. -/
def onWord (s : State) (f : At → Out) : Res :=
  match s.at? with
  | none => .next s
  | some a => .next (settle a (f a))

/-- The meaning of a form that releases, or that names local memory in several ways when it issues: every access of the split has
been performed first (R205, R208). -/
def onLocal (s : State) (f : State → At → Out) : Res :=
  match s.at? with
  | none => .next s
  | some a =>
    let s := s.settleSplit a.k a.t a.p
    onWord s (f s)

/-- The word in issue as a state has it after what comes before its accesses. -/
def At.again (a : At) (s : State) : At := s.at?.getD a

/-- The meaning of a form that releases for its team: every access of the team has been performed first (R319). -/
def onTeam (s : State) (f : State → At → Out) : Res :=
  match s.at? with
  | none => .next s
  | some a =>
    let s := s.settleTeam a.k a.t
    onWord s (f s)

/-- The team of the word in issue replaced. -/
def At.put (a : At) (s : State) (tm : Team) : State := s.updTeam a.k a.t fun _ => tm

/-- Barrier misuse and the other plain faults of classes 0x0 to 0x2 (R264). -/
def illegalOperand : Trap := { code := 0x0003 }
def misaligned : Trap := { code := 0x0201 }
def outsideClaim : Trap := { code := 0x0202 }
def barrierMisuse : Trap := { code := 0x0203 }
def streamMisuse : Trap := { code := 0x0204 }
def protection : Trap := { code := 0x0301 }

end Sys2Proof.Machine
end

