-- ==== Sys2Proof/Machine/Operands.lean ====
section
/-! DEFINITION. The operand forms (02 R41 to R43, 05 R79): the check against the team's claim, the values in each column,
and the pops of stream registers. -/

namespace Sys2Proof.Machine

/-- A named register lies within the team's claim (R79). -/
def Team.claims (tm : Team) : Opnd → Bool
  | .v n => decide (n.val < tm.vcount)
  | .s n => decide (n.val < tm.scount)
  | _ => true

def Team.claimsAll (tm : Team) (os : List Opnd) : Bool := os.all tm.claims

/-- A run of `n` lane registers from an operand lies within the claim (R137). -/
def Team.claimsRun (tm : Team) (n : Nat) : Opnd → Bool
  | .v d => decide (d.val + n ≤ tm.vcount)
  | .s d => decide (d.val + n ≤ tm.scount)
  | _ => true

/-- The number an operand's code names: a register, predicate or stream. -/
def num : Opnd → Nat
  | .v n => n.val
  | .s n => n.val
  | .p n => n.val
  | .q n => n.val
  | _ => 0

/-- The UNI column (R79): 64 bits. -/
def At.u (a : At) : Opnd → W64
  | .s n => a.team.sreg n.val
  | .k n => BitVec.ofInt 64 ((n.val : Int) - 15)
  | .lit w => w.signExtend 64
  | .lanes => BitVec.ofNat 64 a.team.lanes
  | .role => a.team.role.zeroExtend 64
  | .team => BitVec.ofNat 64 a.team.index
  | .core => BitVec.ofNat 64 a.k
  | .replay => BitVec.ofNat 64 a.team.replay
  | _ => 0

/-- The LANE and LOC column (R79): 32 bits, per lane. -/
def At.v (a : At) (o : Opnd) (l : Nat) : W32 :=
  match o with
  | .v n => a.team.vreg n.val l
  | .lane => BitVec.ofNat 32 l
  | .lit w => w
  | o => (a.u o).truncate 32

/-- The FLT column (R79, R42): an inline constant is a floating-point value, in both halves for a packed format. -/
def At.f (a : At) (pk : Option Fmt) (o : Opnd) (l : Nat) : W32 :=
  match o with
  | .k n => fltConst pk ((n.val : Int) - 15)
  | o => a.v o l

/-- The low 32 bits of a uniform operand of a LOC word (R41, R42). -/
def At.u32 (a : At) (o : Opnd) : Nat := ((a.u o).truncate 32 : W32).toNat

/-- The same as 64 bits, with an `s` register whole (R148): a constant or a literal is a 32-bit integer (R42). -/
def At.uLoc (a : At) : Opnd → W64
  | .s n => a.team.sreg n.val
  | o => BitVec.ofNat 64 (a.u32 o)

/-- A predicate operand. -/
def At.pr (a : At) (o : Opnd) : Mask := a.team.preg (num o)

/-! ### Streams as operands (R43, R148, R149) -/

/-- The start of slot `j`. -/
def Stream.slot (q : Stream) (j : Nat) : Nat := q.base + j % q.slots * q.size

/-- How far a 32-bit counter is ahead of another. -/
def ahead (x y : Nat) : Nat := (x + 2 ^ 32 - y) % 2 ^ 32

/-- The stream numbers that operands pop, in the order given. -/
def popsOf : List Opnd → List Nat
  | [] => []
  | .q n :: os => n.val :: popsOf os
  | _ :: os => popsOf os

/-- What popping comes to: an unbound stream, a wait, or the streams after and the operands with each stream register
replaced by its slot's offset. -/
inductive Popped where
  | misuse
  | wait
  | done (streams : Map Stream) (ops : List Opnd)
  deriving DecidableEq, Repr

/-- Pops the operands in order; no pop takes effect until all can (R43). -/
def popAll (qs : Map Stream) : List Opnd → Popped
  | [] => .done qs []
  | .q n :: os =>
    match qs.get n.val with
    | none => .misuse
    | some q =>
      if q.popped = q.published then
        (match popAll qs os with | .misuse => .misuse | _ => .wait)
      else match popAll (qs.set n.val { q with popped := (q.popped + 1) % 2 ^ 32 }) os with
        | .done qs' os' => .done qs' (.lit (BitVec.ofNat 32 (q.slot q.popped)) :: os')
        | r => r
  | o :: os => match popAll qs os with
    | .done qs' os' => .done qs' (o :: os')
    | r => r

/-- The streams of the issuing team's crew. -/
def At.streams (a : At) : Map Stream :=
  match a.core.crewOf a.team with
  | some w => w.streams
  | none => []

def State.setStreams (s : State) (k crew : Nat) (qs : Map Stream) : State :=
  s.updCore k fun c => { c with crews := c.crews.upd crew fun w => { w with streams := qs } }

/-- The operands with each stream register replaced by the next of some offsets. -/
def putSlots : List Nat → List Opnd → List Opnd
  | js, .q n :: os => (match js with
    | j :: js => .lit (BitVec.ofNat 32 j) :: putSlots js os
    | [] => .q n :: putSlots [] os)
  | js, o :: os => o :: putSlots js os
  | _, [] => []

/-- Checks the claim of the named registers, then pops the operands `ops` (A, then B, then a D that is read), and goes on
with the operands and with a commit of the pops, which the word applies to its final state. A word whose wait has ended has
popped already (R217). -/
def At.withOps (a : At) (s : State) (named ops : List Opnd) (f : (State → State) → List Opnd → Out) : Out :=
  if !a.team.claimsAll named then .trap s outsideClaim
  else if (popsOf ops).isEmpty then f id ops
  else match a.split.popped with
    | some js => f id (putSlots js ops)
    | none => match popAll a.streams ops with
      | .misuse => .trap s streamMisuse
      | .wait => .block s (.stream (popsOf ops) false)
      | .done qs os => f (fun s => s.setStreams a.k a.team.crew qs) os

/-- The region of the issuing crew: its base and size (R134). -/
def At.region (a : At) : Nat × Nat :=
  match a.core.crewOf a.team with
  | some w => (w.base, w.size)
  | none => (0, 0)

/-- The staging buffer's offsets (R318). -/
def stagingBase : Nat := 0x80000

/-- Whether a responder's staging buffer covers `n` bytes at an offset (R318). -/
def At.inStaging (a : At) (off n : Nat) : Bool :=
  a.team.resp.isSome && decide (stagingBase ≤ off ∧ off + n ≤ stagingBase + 512)

/-- Bytes of the crew's region, or of a responder's staging buffer. -/
def At.local' (a : At) (off n : Nat) : List Byte :=
  if a.inStaging off n then
    ((((a.core.staging.get a.t).getD []).drop (off - stagingBase)) ++ List.replicate n 0).take n
  else Regs.bytes a.core.shared (a.region.1 + off) n

/-- The checks of R147 on a barrier offset: a multiple of 16 within `shared`. -/
def At.barCheck (a : At) (off : Nat) : Option Trap :=
  if off % 16 ≠ 0 then some misaligned
  else if a.region.2 < off + 16 then some outsideClaim
  else none

end Sys2Proof.Machine
end

