-- ==== Sys2Proof/Machine/Flags.lean ====
section
/-! DEFINITION. The flags: predicates written by compares (05 R88, R95), and the sticky `fflags.inv` (04 R73). The 4320
keeps no other flag. -/

namespace Sys2Proof.Machine

/-- The comparisons of R82 and R88 on words of any width. -/
def cmpEq {w : Nat} (a b : BitVec w) : Bool := a == b
def cmpNe {w : Nat} (a b : BitVec w) : Bool := a != b
def cmpLt {w : Nat} (a b : BitVec w) : Bool := BitVec.slt a b
def cmpLe {w : Nat} (a b : BitVec w) : Bool := BitVec.sle a b
def cmpLtu {w : Nat} (a b : BitVec w) : Bool := BitVec.ult a b
def cmpLeu {w : Nat} (a b : BitVec w) : Bool := BitVec.ule a b

/-- A comparison's value in a uniform register: 1 when true, 0 when false (R82). -/
def flag64 (b : Bool) : W64 := if b then 1 else 0

/-- `fflags.inv` is sticky: a conversion that meets a NaN for e2m1n sets it, nothing else changes it (R73). -/
def Team.orInv (tm : Team) (b : Bool) : Team := { tm with inv := tm.inv || b }

end Sys2Proof.Machine
end

