-- ==== Sys2Proof/Machine/Uni.lean ====
section
/-! DEFINITION. The uniform instructions (05 R81 to R85). Each takes full effect once per issue, whatever the mask. -/

namespace Sys2Proof.Machine

/-- The frame of a UNI word (R81): the claim of its registers (R79), then s[D] ← f(a, b, s[D]). -/
def uniWord (d x y : Opnd) (f : W64 → W64 → W64 → W64) (s : State) : Res :=
  onWord s fun a =>
    if !a.team.claimsAll [d, x, y] then .trap s outsideClaim
    else .adv (a.put s (a.team.setS (num d) (f (a.u x) (a.u y) (a.u d))))

/-- The number of 1 bits among the low `n` bits. -/
def popCount (x n : Nat) : Nat := (List.range n).foldl (fun c i => if x.testBit i then c + 1 else c) 0

/-- The number of leading 0 bits of an `n`-bit word. -/
def leadingZeros (x n : Nat) : Nat := if x = 0 then n else n - 1 - Nat.log2 x

/-- The field of R83 at `pos` of width `fw`, zero-extended; bits above the register's top read as 0. -/
def fieldGet (w pos fw : Nat) (x : BitVec w) : BitVec w := BitVec.ofNat w (x.toNat / 2 ^ pos % 2 ^ fw)

/-- The same field with its sign extended from its top bit (`vbfes`); a width of 0 gives 0. -/
def fieldGetS (w pos fw : Nat) (x : BitVec w) : BitVec w :=
  if fw = 0 then 0 else wrap w (fieldInt (x.toNat / 2 ^ pos) fw)

/-- `x` with the field replaced by the low bits of `y`; bits above the register's top are dropped (R83). -/
def fieldPut (w pos fw : Nat) (x y : BitVec w) : BitVec w :=
  let m := BitVec.ofNat w ((2 ^ fw - 1) * 2 ^ pos)
  (x &&& ~~~m) ||| (BitVec.ofNat w (y.toNat * 2 ^ pos) &&& m)

/-- R82. -/
def execSadd (d x y : Opnd) (s : State) : Res := uniWord d x y (fun a b _ => a + b) s

/-- R82. -/
def execSsub (d x y : Opnd) (s : State) : Res := uniWord d x y (fun a b _ => a - b) s

/-- R82. -/
def execSmul (d x y : Opnd) (s : State) : Res := uniWord d x y (fun a b _ => a * b) s

/-- R82. -/
def execSmulh (d x y : Opnd) (s : State) : Res := uniWord d x y (fun a b _ => wrap 64 (a.toInt * b.toInt / 2 ^ 64)) s

/-- R82. -/
def execSmulhu (d x y : Opnd) (s : State) : Res := uniWord d x y (fun a b _ => BitVec.ofNat 64 (a.toNat * b.toNat / 2 ^ 64)) s

/-- R82. -/
def execSand (d x y : Opnd) (s : State) : Res := uniWord d x y (fun a b _ => a &&& b) s

/-- R82. -/
def execSor (d x y : Opnd) (s : State) : Res := uniWord d x y (fun a b _ => a ||| b) s

/-- R82. -/
def execSxor (d x y : Opnd) (s : State) : Res := uniWord d x y (fun a b _ => a ^^^ b) s

/-- R82. -/
def execSandn (d x y : Opnd) (s : State) : Res := uniWord d x y (fun a b _ => a &&& ~~~b) s

/-- R82. -/
def execSshl (d x y : Opnd) (s : State) : Res := uniWord d x y (fun a b _ => a <<< (b.toNat % 64)) s

/-- R82. -/
def execSshr (d x y : Opnd) (s : State) : Res := uniWord d x y (fun a b _ => a >>> (b.toNat % 64)) s

/-- R82. -/
def execSsar (d x y : Opnd) (s : State) : Res := uniWord d x y (fun a b _ => a.sshiftRight (b.toNat % 64)) s

/-- R82. -/
def execSmin (d x y : Opnd) (s : State) : Res := uniWord d x y (fun a b _ => if cmpLt b a then b else a) s

/-- R82. -/
def execSmax (d x y : Opnd) (s : State) : Res := uniWord d x y (fun a b _ => if cmpLt a b then b else a) s

/-- R82. -/
def execSminu (d x y : Opnd) (s : State) : Res := uniWord d x y (fun a b _ => if cmpLtu b a then b else a) s

/-- R82. -/
def execSmaxu (d x y : Opnd) (s : State) : Res := uniWord d x y (fun a b _ => if cmpLtu a b then b else a) s

/-- R82. -/
def execSeq (d x y : Opnd) (s : State) : Res := uniWord d x y (fun a b _ => flag64 (cmpEq a b)) s

/-- R82. -/
def execSne (d x y : Opnd) (s : State) : Res := uniWord d x y (fun a b _ => flag64 (cmpNe a b)) s

/-- R82. -/
def execSlt (d x y : Opnd) (s : State) : Res := uniWord d x y (fun a b _ => flag64 (cmpLt a b)) s

/-- R82. -/
def execSle (d x y : Opnd) (s : State) : Res := uniWord d x y (fun a b _ => flag64 (cmpLe a b)) s

/-- R82. -/
def execSltu (d x y : Opnd) (s : State) : Res := uniWord d x y (fun a b _ => flag64 (cmpLtu a b)) s

/-- R82. -/
def execSleu (d x y : Opnd) (s : State) : Res := uniWord d x y (fun a b _ => flag64 (cmpLeu a b)) s

/-- R82. -/
def execScsel (d x y : Opnd) (s : State) : Res := uniWord d x y (fun a b old => if a != 0 then b else old) s

/-- R82. -/
def execSbfe (d x y : Opnd) (s : State) : Res := uniWord d x y (fun a b _ => fieldGet 64 (b.toNat % 64) (min (bits b 14 8) 64) a) s

/-- R82. -/
def execSbfi (d x y : Opnd) (s : State) : Res := uniWord d x y (fun a b old => fieldPut 64 (b.toNat % 64) (min (bits b 14 8) 64) old a) s

/-- R82. -/
def execSmov (d x : Opnd) (s : State) : Res := uniWord d x (.k 15) (fun a _ _ => a) s

/-- R82. -/
def execSpopc (d x : Opnd) (s : State) : Res := uniWord d x (.k 15) (fun a _ _ => BitVec.ofNat 64 (popCount a.toNat 64)) s

/-- R82. -/
def execSclz (d x : Opnd) (s : State) : Res := uniWord d x (.k 15) (fun a _ _ => BitVec.ofNat 64 (leadingZeros a.toNat 64)) s

/-- R84: s[D] ← sext(IMM16, 64). -/
def execSmovi (d : Opnd) (imm : BitVec 16) (s : State) : Res :=
  uniWord d (.k 15) (.k 15) (fun _ _ _ => imm.signExtend 64) s

/-- R84: s[D] shifted left by 16, with IMM16 as sixteen plain bits below. -/
def execSorhi (d : Opnd) (imm : BitVec 16) (s : State) : Res :=
  uniWord d (.k 15) (.k 15) (fun _ _ old => (old <<< 16) ||| imm.zeroExtend 64) s

/-- R84: s[D] + sext(IMM16, 64). -/
def execSaddi (d : Opnd) (imm : BitVec 16) (s : State) : Res :=
  uniWord d (.k 15) (.k 15) (fun _ _ old => old + imm.signExtend 64) s

/-- R85: the lane that b[31:0] names, zero-extended; 0 when b is not below `%lanes`. -/
def execSlane (d x y : Opnd) (s : State) : Res :=
  onWord s fun a =>
    if !a.team.claimsAll [d, x, y] then .trap s outsideClaim
    else
      let b := (a.u y).toNat
      let r := if b < a.team.lanes then (a.team.vreg (num x) b).zeroExtend 64 else 0
      .adv (a.put s (a.team.setS (num d) r))

end Sys2Proof.Machine
end

