-- ==== Sys2Proof/Machine/Lane.lean ====
section
/-! DEFINITION. The lane instructions (05 R86 to R90): each active, gated-on lane computes its own result; all reads of
a word come before its writes, and stream registers are popped whatever the mask. -/

namespace Sys2Proof.Machine

/-- The frame of a LANE word (R86): claims, pops, then v[D][L] ← f(a, b, v[D][L]) in each lane of the run. -/
def laneWord (d x y : Opnd) (f : W32 → W32 → W32 → W32) (s : State) : Res :=
  onWord s fun a =>
    a.withOps s [d, x, y] [x, y] fun commit os =>
      match os with
      | [x, y] => .adv (a.put (commit s) (a.team.setV (num d)
          (a.lanes.map fun l => (l, f (a.v x l) (a.v y l) (a.team.vreg (num d) l)))))
      | _ => .trap s illegalOperand

/-- The frame of a lane compare (R88): bit L of predicate D in each lane of the run. -/
def laneCmp (d x y : Opnd) (f : W32 → W32 → Bool) (s : State) : Res :=
  onWord s fun a =>
    a.withOps s [x, y] [x, y] fun commit os =>
      match os with
      | [x, y] => .adv (a.put (commit s) (a.team.setP (num d) (a.lanes.map fun l => (l, f (a.v x l) (a.v y l)))))
      | _ => .trap s illegalOperand

/-- The frame of a predicate operation (R88). -/
def predWord (d x y : Opnd) (f : Bool → Bool → Bool) (s : State) : Res :=
  onWord s fun a =>
    .adv (a.put s (a.team.setP (num d)
      (a.lanes.map fun l => (l, f (Mask.has (a.pr x) l) (Mask.has (a.pr y) l)))))

/-- The field width of a LANE word (R83). -/
def laneWidth (b : W32) : Nat := min (b.toNat / 256 % 64) 32

/-- Byte i of `vprm` (R90): the low three bits of the selector choose a byte of b:a, the fourth its sign instead. -/
def permuteByte (a b old : W32) (i : Nat) : Nat :=
  let c := old.toNat / 2 ^ (8 * i) % 16
  let x := (b.toNat * 2 ^ 32 + a.toNat) / 2 ^ (8 * (c % 8)) % 256
  if c < 8 then x else if 128 ≤ x then 255 else 0

def permute (a b old : W32) : W32 :=
  BitVec.ofNat 32 ((List.range 4).foldl (fun r i => r + permuteByte a b old i * 2 ^ (8 * i)) 0)

/-- R87. -/
def execVadd (d x y : Opnd) (s : State) : Res := laneWord d x y (fun a b _ => a + b) s

/-- R87. -/
def execVsub (d x y : Opnd) (s : State) : Res := laneWord d x y (fun a b _ => a - b) s

/-- R87. -/
def execVmul (d x y : Opnd) (s : State) : Res := laneWord d x y (fun a b _ => a * b) s

/-- R87. -/
def execVmulh (d x y : Opnd) (s : State) : Res := laneWord d x y (fun a b _ => wrap 32 (a.toInt * b.toInt / 2 ^ 32)) s

/-- R87. -/
def execVmulhu (d x y : Opnd) (s : State) : Res := laneWord d x y (fun a b _ => BitVec.ofNat 32 (a.toNat * b.toNat / 2 ^ 32)) s

/-- R87. -/
def execVmad (d x y : Opnd) (s : State) : Res := laneWord d x y (fun a b old => a * b + old) s

/-- R87. -/
def execVmin (d x y : Opnd) (s : State) : Res := laneWord d x y (fun a b _ => if cmpLt b a then b else a) s

/-- R87. -/
def execVmax (d x y : Opnd) (s : State) : Res := laneWord d x y (fun a b _ => if cmpLt a b then b else a) s

/-- R87. -/
def execVminu (d x y : Opnd) (s : State) : Res := laneWord d x y (fun a b _ => if cmpLtu b a then b else a) s

/-- R87. -/
def execVmaxu (d x y : Opnd) (s : State) : Res := laneWord d x y (fun a b _ => if cmpLtu a b then b else a) s

/-- R87. -/
def execVand (d x y : Opnd) (s : State) : Res := laneWord d x y (fun a b _ => a &&& b) s

/-- R87. -/
def execVor (d x y : Opnd) (s : State) : Res := laneWord d x y (fun a b _ => a ||| b) s

/-- R87. -/
def execVxor (d x y : Opnd) (s : State) : Res := laneWord d x y (fun a b _ => a ^^^ b) s

/-- R87. -/
def execVandn (d x y : Opnd) (s : State) : Res := laneWord d x y (fun a b _ => a &&& ~~~b) s

/-- R87. -/
def execVshl (d x y : Opnd) (s : State) : Res := laneWord d x y (fun a b _ => a <<< (b.toNat % 32)) s

/-- R87. -/
def execVshr (d x y : Opnd) (s : State) : Res := laneWord d x y (fun a b _ => a >>> (b.toNat % 32)) s

/-- R87. -/
def execVsar (d x y : Opnd) (s : State) : Res := laneWord d x y (fun a b _ => a.sshiftRight (b.toNat % 32)) s

/-- R87. -/
def execVrot (d x y : Opnd) (s : State) : Res := laneWord d x y (fun a b _ => a.rotateLeft (b.toNat % 32)) s

/-- R87. -/
def execVbfe (d x y : Opnd) (s : State) : Res := laneWord d x y (fun a b _ => fieldGet 32 (b.toNat % 32) (laneWidth b) a) s

/-- R87. -/
def execVbfes (d x y : Opnd) (s : State) : Res := laneWord d x y (fun a b _ => fieldGetS 32 (b.toNat % 32) (laneWidth b) a) s

/-- R87. -/
def execVbfi (d x y : Opnd) (s : State) : Res := laneWord d x y (fun a b old => fieldPut 32 (b.toNat % 32) (laneWidth b) old a) s

/-- R89. -/
def execVmulq (d x y : Opnd) (s : State) : Res := laneWord d x y (fun a b _ => wrap 32 (sat ((a.toInt * b.toInt + 2 ^ 30) / 2 ^ 31) (-2 ^ 31) (2 ^ 31 - 1))) s

/-- R89. -/
def execVrsh (d x y : Opnd) (s : State) : Res := laneWord d x y (fun a b _ => let n := b.toNat % 32; if n = 0 then a else wrap 32 ((a.toInt + 2 ^ (n - 1)) / 2 ^ n)) s

/-- R90. -/
def execVprm (d x y : Opnd) (s : State) : Res := laneWord d x y (fun a b old => permute a b old) s

/-- R87. -/
def execVabs (d x : Opnd) (s : State) : Res := laneWord d x (.k 15) (fun a _ _ => wrap 32 a.toInt.natAbs) s

/-- R87. -/
def execVneg (d x : Opnd) (s : State) : Res := laneWord d x (.k 15) (fun a _ _ => -a) s

/-- R87. -/
def execVnot (d x : Opnd) (s : State) : Res := laneWord d x (.k 15) (fun a _ _ => ~~~a) s

/-- R87. -/
def execVpopc (d x : Opnd) (s : State) : Res := laneWord d x (.k 15) (fun a _ _ => BitVec.ofNat 32 (popCount a.toNat 32)) s

/-- R87. -/
def execVclz (d x : Opnd) (s : State) : Res := laneWord d x (.k 15) (fun a _ _ => BitVec.ofNat 32 (leadingZeros a.toNat 32)) s

/-- R87. -/
def execVmov (d x : Opnd) (s : State) : Res := laneWord d x (.k 15) (fun a _ _ => a) s

/-- R89. -/
def execVsatI8 (d x : Opnd) (s : State) : Res := laneWord d x (.k 15) (fun a _ _ => wrap 32 (sat a.toInt (-128) 127)) s

/-- R89. -/
def execVsatUb (d x : Opnd) (s : State) : Res := laneWord d x (.k 15) (fun a _ _ => wrap 32 (sat a.toInt 0 255)) s

/-- R89. -/
def execVsatI16 (d x : Opnd) (s : State) : Res := laneWord d x (.k 15) (fun a _ _ => wrap 32 (sat a.toInt (-32768) 32767)) s

/-- R84. -/
def execVmovi (d : Opnd) (imm : BitVec 16) (s : State) : Res :=
  laneWord d (.k 15) (.k 15) (fun _ _ _ => imm.signExtend 32) s

/-- R84. -/
def execVorhi (d : Opnd) (imm : BitVec 16) (s : State) : Res :=
  laneWord d (.k 15) (.k 15) (fun _ _ old => (old <<< 16) ||| imm.zeroExtend 32) s

/-- R84. -/
def execVaddi (d : Opnd) (imm : BitVec 16) (s : State) : Res :=
  laneWord d (.k 15) (.k 15) (fun _ _ old => old + imm.signExtend 32) s

/-- R87: b where p[A][L] = 1, else v[D][L] unchanged. -/
def execVcmov (d x y : Opnd) (s : State) : Res :=
  onWord s fun a =>
    a.withOps s [d, y] [y] fun commit os =>
      match os with
      | [y] => .adv (a.put (commit s) (a.team.setV (num d)
          ((a.lanes.filter fun l => Mask.has (a.pr x) l).map fun l => (l, a.v y l))))
      | _ => .trap s illegalOperand

/-- R88. -/
def execVcmpEq (d x y : Opnd) (s : State) : Res := laneCmp d x y cmpEq s

/-- R88. -/
def execVcmpNe (d x y : Opnd) (s : State) : Res := laneCmp d x y cmpNe s

/-- R88. -/
def execVcmpLt (d x y : Opnd) (s : State) : Res := laneCmp d x y cmpLt s

/-- R88. -/
def execVcmpLe (d x y : Opnd) (s : State) : Res := laneCmp d x y cmpLe s

/-- R88. -/
def execVcmpLtu (d x y : Opnd) (s : State) : Res := laneCmp d x y cmpLtu s

/-- R88. -/
def execVcmpLeu (d x y : Opnd) (s : State) : Res := laneCmp d x y cmpLeu s

/-- R88. -/
def execPand (d x y : Opnd) (s : State) : Res := predWord d x y (· && ·) s

/-- R88. -/
def execPor (d x y : Opnd) (s : State) : Res := predWord d x y (· || ·) s

/-- R88. -/
def execPxor (d x y : Opnd) (s : State) : Res := predWord d x y (· != ·) s

/-- R88. -/
def execPnot (d x : Opnd) (s : State) : Res := predWord d x x (fun a _ => !a) s

end Sys2Proof.Machine
end

