-- ==== Sys2Proof/Machine/Costs.lean ====
section
/-! DEFINITION. The cost rule and admission (14 R248 to R254): costed items, the test at issue, the stalled order, and
the traps of class 0x5. -/

namespace Sys2Proof.Machine

/-- D, Y and C: the fixed parts of the tariff words (R248); W is the low half of `tf.copy`. -/
def fixedPart (w : W32) : Nat := (w.extractLsb' 16 16).toNat
def copyWindow (w : W32) : Nat := (w.extractLsb' 0 16).toNat

/-- The cost of a drain form of some bytes (R249). -/
def Ctx.drainCost (x : Ctx) (bytes : Nat) : Nat := fixedPart x.tfDrain + costOf x.srate bytes
/-- The cost of a memory chain (R249). -/
def Ctx.copyCost (x : Ctx) : Nat := fixedPart x.tfCopy + costOf x.srate (copyWindow x.tfCopy * 1024)
def Ctx.callCost (x : Ctx) : Nat := fixedPart x.tfCall
def Ctx.censusCost (x : Ctx) : Nat := fixedPart x.tfCensus

/-- The increase of H_c that holding `bytes` more would make (R252). -/
def State.holdIncrease (s : State) (k bytes : Nat) : Nat :=
  match s.core? k, s.ctxOf k with
  | some c, some (_, x) => costOf x.srate (c.holdBytes x.pool + bytes) - costOf x.srate (c.holdBytes x.pool)
  | _, _ => 0

/-- What the test of a costed instruction of increase `cost` answers (R252 to R254). -/
inductive Adm where
  | pass
  | stall
  | trap (code : Nat)
  deriving DecidableEq, Repr

/-- The test (R252), the stalled order (R253) and the traps (R254) for a new instruction of a team. -/
def State.admission (s : State) (k t cost : Nat) : Adm :=
  match s.core? k, s.team? k t with
  | some c, some tm =>
    let fails := decide (c.allow < s.estOf k + cost)
    if !fails && c.stalled.isEmpty then .pass
    else if fails && decide (c.allow < s.holdOf k + cost) then .trap 0x0502
    else if tm.vtrap then .trap 0x0501
    else .stall
  | _, _ => .stall

/-- `info2` of class 0x5: A_c − E_c, or 0 (R270). -/
def State.room (s : State) (k : Nat) : Nat :=
  match s.core? k with
  | some c => c.allow - s.estOf k
  | none => 0

/-- A trap of class 0x5: `info` is k (R270). -/
def State.admTrap (s : State) (k code cost : Nat) : Trap := { code := code, info := cost, info2 := s.room k }

/-- Enters an item of cost `cost` in the estimate of core `k`, under the core's next number. -/
def State.addItem (s : State) (k cost : Nat) : State × Nat :=
  match s.core? k with
  | some c => (s.updCore k fun c => { c with items := c.items.set c.nextX cost, nextX := c.nextX + 1 }, c.nextX)
  | none => (s, 0)

/-- A costed instruction of the issuing split: admitted with its item (which a retest may already have entered, R253),
or stalled in the order, or trapped. A cost class that charges nothing is not tested (R249). -/
def At.costed (a : At) (s : State) (cost : Option Nat) (f : State → Option Nat → Out) : Out :=
  match cost with
  | none => f (s.dropItem a.k a.split.prepaid) none
  | some cost =>
    match a.split.prepaid with
    | some i => f s (some i)
    | none =>
      match s.admission a.k a.t cost with
      | .pass =>
        let (s', i) := s.addItem a.k cost
        f s' (some i)
      | .stall => .block (s.updCore a.k fun c => { c with stalled := c.stalled ++ [(a.t, a.p)] }) (.admission cost none)
      | .trap code => .trap s (s.admTrap a.k code cost)

/-- A team holds a stalled split: the whole team stops issuing (R253). -/
def Core.teamStalled (c : Core) (t : Nat) : Bool := c.stalled.any fun e => e.1 == t

end Sys2Proof.Machine
end

