-- ==== Sys2Proof/Machine/Records.lean ====
section
/-! DEFINITION. Phase records and their bytes in the pool (17 R282, R286, R287), and record queues' descriptors. The
structures are the truth; the bytes in memory follow them. -/

namespace Sys2Proof.Machine

def State.updKern (s : State) (c n : Nat) (f : Kern → Kern) : State :=
  s.updCtx c fun x => { x with kernels := x.kernels.upd n f }

def State.kern? (s : State) (c n : Nat) : Option Kern := (s.ctx? c).bind fun x => x.kernels.get n

/-- rsize of R282. -/
def Kern.rsize (n : Kern) : Nat := ceilDiv (0x380 + 4 * n.lanes * n.maxcarry) 64 * 64

/-- The state code of R286. -/
def RecState.code : RecState → Nat
  | .free => 0
  | .writing => 1
  | .waiting => 2
  | .ready => 3
  | .placed => 4
  | .final => 5

/-- The first 32 bytes of a record (R286). -/
def PhaseRec.head (r : PhaseRec) (kernel : Nat) : List Byte :=
  toBytes 8 r.entry.toNat ++
  toBytes 8 (kernel % 2 ^ 16 * 2 ^ 48 + r.team % 2 ^ 16 * 2 ^ 32 + r.state.code * 2 ^ 28 + r.replay % 16 * 2 ^ 24 +
    r.carry % 256 * 2 ^ 16 + r.sregs % 256 * 2 ^ 8 + b2n r.init * 16 + r.role % 16) ++
  toBytes 8 r.readyts.toNat ++ toBytes 8 r.lanes

/-- A run of pairs (VA, value), padded with zero pairs to `n` (R286). -/
def pairBytes (ps : List (Nat × Nat)) : Nat → List Byte
  | 0 => []
  | n + 1 => match ps with
    | [] => toBytes 16 0 ++ pairBytes [] n
    | p :: ps => toBytes 8 p.1 ++ toBytes 8 p.2 ++ pairBytes ps n

/-- The condition slots in order, unused ones zero. -/
def PhaseRec.condPairs (r : PhaseRec) : List (Nat × Nat) := (List.range 4).map fun i => (r.cond.get i).getD (0, 0)

/-- The carry areas (R286). -/
def PhaseRec.carryBytes (r : PhaseRec) : List Byte :=
  ((List.range 64).flatMap fun i => toBytes 8 (if i < r.sregs then Regs.get r.s i else 0).toNat) ++
  ((List.range r.carry).flatMap fun i => (List.range r.lanes).flatMap fun l => toBytes 4 (Regs.get r.v (1024 * i + l)).toNat)

/-- Writes bytes at a VA of a context where it is mapped; the pool is pinned (R219). -/
def State.mirror (s : State) (c va : Nat) (bs : List Byte) : State := (s.writeVa c va bs).getD s

/-- Replaces a record, with its head, conditions and commit area in memory. A number beyond the pool stands for adds of a team
without a record, which have no bytes. -/
def State.setRec (s : State) (c n r : Nat) (rec : PhaseRec) : State :=
  match s.kern? c n with
  | none => s
  | some kn =>
    let va := kn.pool + r * kn.rsize
    let s := s.updKern c n fun kn => { kn with recs := kn.recs.set r rec }
    if kn.records ≤ r then s else
    let s := s.mirror c va (rec.head n)
    let s := s.mirror c (va + 0x20) (pairBytes rec.condPairs 4 ++ toBytes 32 0)
    s.mirror c (va + 0x80) (pairBytes (rec.commit.map fun a => (a.va, a.amt)) 16)

/-- Replaces a record with its carry areas, as `phase` writes them (R123). -/
def State.setRecFull (s : State) (c n r : Nat) (rec : PhaseRec) : State :=
  match s.kern? c n with
  | none => s
  | some kn => (s.setRec c n r rec).mirror c (kn.pool + r * kn.rsize + 0x180) rec.carryBytes

/-- A record that can be taken: Free, with no add of an earlier commit still to be performed from its area (R291). -/
def PhaseRec.isFree (r : PhaseRec) : Bool := r.state == .free && r.commit.isEmpty

/-- All the Free records of a pool, in order. -/
def Kern.freeRecs (n : Kern) : List Nat :=
  (n.recs.filter fun e => e.2.isFree && decide (e.1 < n.records)).map (·.1)

/-- The lowest Free record of a pool. -/
def Kern.freeRec (n : Kern) : Option Nat := n.freeRecs.head?

/-- Engine writes (R210, R327): what `fence.m rel` waits for. -/
def AKind.writes : AKind → Bool
  | .gather | .scatter | .atomM _ | .ldBlk | .stBlk | .portWr | .seqAdd _ | .recPush _ _ | .move _ _ _ _ => true
  | _ => false

/-- Engine reads (R210): what `fence.m acq` waits for. -/
def AKind.reads : AKind → Bool
  | .gather | .atomM _ | .ldBlk | .seqRd | .recPop _ => true
  | _ => false

/-- Whether an operation numbered `x` is still outstanding on a core; a solicit has the number of its cost item. -/
def Core.outstanding (c : Core) (x : Nat) : Bool :=
  c.asyncs.has x || c.mats.has x || c.items.has x || c.chans.any fun e => e.2.num == x && e.2.state != .idle

/-- The operations that a `fence.m` made an operation wait for are done (R144). -/
def Core.clear (c : Core) (xs : List Nat) : Bool := xs.all fun x => !c.outstanding x

/-- The outstanding async work of a team that satisfies `f` on the operations' kinds; loops read, stores write, and a chain
does both. -/
def Core.workOf (c : Core) (t order : Nat) (f : AKind → Bool) (loops stores : Bool) : List Nat :=
  ((c.asyncs.filter fun e => e.2.team == t && e.2.order == order && f e.2.kind).map (·.1)) ++
  ((c.mats.filter fun e => e.2.team == t && e.2.torder == order &&
    (match e.2.body with | .loop _ => loops | .store _ => stores)).map (·.1)) ++
  ((c.chans.filter fun e => e.2.team == t && e.2.order == order && e.2.state != .idle).map (·.2.num))

/-- The writes of a team that are outstanding, which its commit follows (R291). -/
def Core.writesOf (c : Core) (t order : Nat) : List Nat := c.workOf t order (·.writes) false true

/-- The commit of a team that has no record, a responder (R291): its adds are due under a number beyond the pool. -/
def State.looseCommit (s : State) (c k t : Nat) (tm : Team) : State :=
  match s.kern? c tm.kernel, s.core? k with
  | some kn, some co =>
    if tm.commit.isEmpty then s
    else
      let r := kn.recs.foldl (fun m e => max m (e.1 + 1)) kn.records
      s.updKern c tm.kernel fun kn => { kn with recs := kn.recs.set r { PhaseRec.empty with
        state := .final, team := co.teamT tm, commit := tm.commit, due := true, core := k,
        after := co.writesOf t tm.order } }
  | _, _ => s

/-- The counts of a record queue written to its descriptor (R292). -/
def State.mirrorQueue (s : State) (c q : Nat) : State :=
  match (s.ctx? c).bind fun x => x.recqs.get q with
  | some rq => s.mirror c (q + 0x10) (toBytes 8 rq.head ++ toBytes 8 rq.tail ++ toBytes 8 rq.pub)
  | none => s

def State.updRecq (s : State) (c q : Nat) (f : RecQueue → RecQueue) : State :=
  (s.updCtx c fun x => { x with recqs := x.recqs.upd q f }).mirrorQueue c q

def State.recq? (s : State) (c q : Nat) : Option RecQueue := (s.ctx? c).bind fun x => x.recqs.get q

/-- A pop of a team of the bound kernel is pending on the queue; a crew of it that the binding queued counts as one (R294). -/
def RecQueue.awaited (rq : RecQueue) : Bool :=
  rq.credit.contains rq.kernel || rq.pops.any fun y => y.kernel == rq.kernel

/-- The test of the launch binding (R294), made whenever `pub` or the pending pops change: it queues one crew. -/
def State.fireBinding (s : State) (c q : Nat) : State :=
  match s.recq? c q with
  | none => s
  | some rq =>
    if rq.bind && decide (rq.thresh ≤ rq.pub - rq.head) && !rq.awaited &&
        (match s.kern? c rq.kernel with | some n => n.state == .loaded | none => false) then
      (s.updKern c rq.kernel fun n => { n with queued := n.queued ++ [some q] }).updRecq c q fun rq =>
        { rq with credit := rq.credit ++ [rq.kernel] }
    else s

/-- A queue is full when `size` records are reserved and not popped (R292). -/
def RecQueue.room (rq : RecQueue) : Nat := rq.size - (rq.tail - rq.head)
/-- The VA of record `j` (R292). -/
def RecQueue.slot (rq : RecQueue) (j : Nat) : Nat := rq.ring + 64 * (j % rq.size)

/-- `pub` advances across consecutive acknowledged records (R293). -/
def RecQueue.publish (rq : RecQueue) : Nat → RecQueue
  | 0 => rq
  | n + 1 =>
    if rq.acked.contains rq.pub then
      { rq with pub := rq.pub + 1, acked := rq.acked.filter (· != rq.pub) }.publish n
    else rq

/-- Record `j` is acknowledged: `pub` advances, and the binding is tested. -/
def State.ackRecord (s : State) (c q j : Nat) : State :=
  (s.updRecq c q fun rq => { rq with acked := rq.acked ++ [j] }.publish (rq.acked.length + 1)).fireBinding c q

/-- Whether a condition slot (VA, threshold) holds now (R288). -/
def State.condHolds (s : State) (c : Nat) (slot : Nat × Nat) : Bool :=
  slot.1 == 0 || (match s.readVa c slot.1 8 with
    | some bs => decide (slot.2 ≤ ofBytes bs)
    | none => false)

/-- The read of a slot's counter: an absent page is asked for (R225), and a plot in Retention wakes (R231). -/
def State.condAsk (s : State) (c va : Nat) : State :=
  match s.translate c va .r with
  | .absent => s.pageFault c va
  | .pa a => s.touch c a
  | .bad => s

/-- A Waiting record: a slot that is found to hold keeps holding, and once all do the record becomes Ready and joins the ready
order (R287, R288). -/
def State.evalRec (s : State) (c n r : Nat) : State :=
  match s.kern? c n with
  | none => s
  | some kn => match kn.recs.get r with
    | none => s
    | some rec =>
      if rec.state ≠ .waiting then s
      else
        let open' := rec.cond.filter fun e => !rec.held.contains e.1 && e.2.1 != 0
        let now := open'.filter fun e => s.condHolds c e.2
        let rec' := { rec with held := rec.held ++ now.map (·.1) }
        let s := open'.foldl (fun s e => s.condAsk c e.2.1) s
        if now.length = open'.length then
          (s.setRec c n r { rec' with state := .ready, readyts := s.tstamp, readyNo := kn.nextReady }).updKern c n fun kn =>
            { kn with readyQ := kn.readyQ ++ [r], nextReady := kn.nextReady + 1 }
        else s.updKern c n fun kn => { kn with recs := kn.recs.set r rec' }

/-! ### Submission queues in memory (18 R296) -/

/-- The tables that an agent of a context walks; without a context, the resident kernel's (R296). -/
def State.rootOf (s : State) (c : Option Nat) : Nat :=
  match c with
  | some c => (match s.ctx? c with | some x => x.root | none => 0)
  | none => s.rkRoot

def QState.code : QState → Nat
  | .unmapped => 0
  | .mapped => 1
  | .closing => 2
  | .faulted => 3
  | .broken => 4

/-- The fields 0x18 to 0x47 of a queue's descriptor (R296). -/
def Queue.bytes (q : Queue) : List Byte :=
  toBytes 4 q.tail.toNat ++ toBytes 4 q.head.toNat ++
  toBytes 8 (q.state.code * 2 ^ 56 + b2n q.pending * 2 ^ 55 + b2n q.priv * 2 ^ 54 + q.prio % 8 * 2 ^ 51 + q.pid % 2 ^ 32) ++
  toBytes 4 (b2n q.accv) ++ toBytes 4 q.acc.toNat ++ toBytes 8 q.fva ++ toBytes 8 q.wva ++ toBytes 8 q.wthr

/-- A queue replaced, and its descriptor with it, which is pinned. -/
def State.setQueue (s : State) (key : Nat) (q : Queue) : State :=
  let s := { s with queues := s.queues.set key q }
  match walk s.mem .r (q.desc + 0x18) 4 (s.rootOf q.ctx) with
  | .pa a => s.setPa a q.bytes
  | _ => s

/-- A wake (R298): work is announced; a queue that becomes eligible has been so from now on. -/
def Queue.wake (q : Queue) (now : W64) : Queue :=
  if q.pending then q else { q with pending := true, eligibleAt := now }

/-- A state in which an add of a watched counter makes a queue pending (R298). -/
def QState.wakes : QState → Bool
  | .unmapped | .closing | .faulted => true
  | _ => false

/-- The value of a counter in the tables that a queue uses, whatever its plot does; none where it does not translate. -/
def State.counterAt (s : State) (c : Option Nat) (va : Nat) : Option Nat :=
  if unwalked va then none
  else match walk s.mem .r va 4 (s.rootOf c) with
    | .pa a => some (s.pa64 a)
    | _ => none

/-- A queue blocked on a counter that has reached its threshold becomes pending (R298). -/
def State.evalQueue (s : State) (key : Nat) : State :=
  match s.queues.get key with
  | some q =>
    if q.wva ≠ 0 ∧ q.state.wakes = true ∧ (s.counterAt q.ctx q.wva).any (fun v => decide (q.wthr ≤ v)) = true then
      s.setQueue key (q.wake s.tstamp)
    else s
  | none => s

/-- The queues blocked on the counter at `va` of some tables. -/
def State.queuesAt (s : State) (c : Option Nat) (va : Nat) : State :=
  s.queues.foldl (fun s e => if e.2.ctx = c ∧ e.2.wva = va then s.evalQueue e.1 else s) s

/-- After a change of the counter at `va`: the Waiting records that name it are evaluated, in increasing order of pool
index (R288), and a queue blocked on the counter becomes pending (R298). -/
def State.counterChanged (s : State) (c va : Nat) : State :=
  match s.ctx? c with
  | none => s
  | some x =>
    let s := x.kernels.foldl (fun s kn => kn.2.recs.foldl (fun s r =>
      if r.2.cond.any fun e => e.2.1 == va then s.evalRec c kn.1 r.1 else s) s) s
    s.queuesAt (some c) va

/-- A counter add at a PA (R288): saturating, performed for every reader at once and forwarded where it meets a doorbell word
(R340), then the records and queues that watch the counter. -/
def State.counterAddAt (s : State) (c va a amt : Nat) : State :=
  ((((s.touch c a).setPa64 a (min (s.pa64 a + amt) (2 ^ 64 - 1))).portSees a 8).ringBells a 8).counterChanged c va

/-- A counter add by an agent that translates the VA: none when the page does not translate for reading and writing. -/
def State.counterAdd (s : State) (c va amt : Nat) : Option State :=
  match s.translate c va .rw with
  | .pa a => some (s.counterAddAt c va a amt)
  | _ => none

end Sys2Proof.Machine
end

