-- ==== Sys2Proof/Machine/Group.lean ====
section
/-! DEFINITION. Splits and the life of a team (06 R107 to R114, R104): divergence, parking and joining, the end of a
split, and the retire of a team. -/

namespace Sys2Proof.Machine

/-- A null answer that core `k` sends for a match (R317, R319), kept until the census completes (R325). -/
def State.nullAnswer (s : State) (k slot ccore centry : Nat) : State :=
  s.updCore k fun c => { c with answers := c.answers ++ [⟨slot, ccore, centry, none⟩] }

/-- A tile's data and progress go back to zero and the tile is free (R104, R117). -/
def Core.freeTile (c : Core) (i : Nat) : Core := { c with tiles := c.tiles.del i }

/-- The tiles of a retiring team: freed at once, or once no matrix instruction uses them (R104, R181). -/
def Core.releaseTiles (c : Core) (t : Nat) : Core :=
  let kept := c.tiles.filter fun e => e.2.team != t || e.2.leaving || c.mats.any (fun m => m.2.tile == e.1)
  { c with tiles := Map.mapVals kept fun e => if e.team = t then { e with leaving := true } else e }

/-- A leaving tile that no matrix instruction uses any longer is freed (R104). -/
def Core.sweepTiles (c : Core) : Core :=
  { c with tiles := c.tiles.filter fun e => !e.2.leaving || c.mats.any (fun m => m.2.tile == e.1) }

/-- Pending pops of a team without a record are cancelled (R293): their bytes subtracted without `error`. -/
def State.cancelPops (s : State) (k t order : Nat) : State :=
  match s.core? k, s.ctxOf k with
  | some c, some (cn, _) =>
    (c.asyncs.filter fun e => decide (e.2.team = t ∧ e.2.order = order)).foldl (fun s e =>
      match e.2.kind with
      | .recPop q =>
        (((s.updRecq cn q fun rq => { rq with pops := rq.pops.filter fun y => !(y.core == k && y.x == e.1) }).fireBinding
          cn q).barAdd k e.2.bar (-64)).updCore k fun c => { c with asyncs := c.asyncs.del e.1 }
      | _ => s) s
  | _, _ => s

/-- Takes a team off its core: what its splits have issued is performed; registers, positions and holds go with it (a position
it owned stays empty until positions are assigned again, R13, R15); its tiles as R104 says; its stalled words are
forgotten. -/
def State.removeTeam (s : State) (k t : Nat) : State :=
  (s.settleTeam k t).updCore k fun c => { c.releaseTiles t with
    teams := c.teams.del t
    owners := c.owners.filter fun e => e.2 != t
    stalled := c.stalled.filter fun e => e.1 != t
    reassign := true }

/-- What a retiring responder leaves when it has not responded: a null answer and the log entry 0x0604 (R319). -/
def State.responderGone (s : State) (k : Nat) (tm : Team) : State :=
  match tm.resp, s.ctxOf k, s.core? k with
  | some r, some (cn, x), some c =>
    if r.responded then s
    else (s.nullAnswer k r.slot r.ccore r.centry).log cn tm.kernel (c.teamT tm) 0 1 0x0604 0 0
      (c.pidtidOf tm (x.kernOf tm))
  | _, _, _ => s

/-- The source record of a team that halts: Free, or Final with the team's deferred adds in its commit area, which follow
the team's outstanding writes (R287, R291). -/
def State.sourceHalted (s : State) (k t : Nat) (tm : Team) : State :=
  match s.ctxOf k, tm.source with
  | some (cn, x), some r =>
    match (x.kernOf tm).bind fun n => n.recs.get r with
    | some rec =>
      if tm.commit.isEmpty then s.setRec cn tm.kernel r { rec with state := .free }
      else
        let after := ((s.core? k).map fun co => co.writesOf t tm.order).getD []
        s.setRec cn tm.kernel r { rec with
          state := .final
          commit := rec.commit ++ tm.commit
          due := true
          core := k
          after := rec.after ++ after }
    | none => s
  | some (cn, _), none => s.looseCommit cn k t tm
  | _, _ => s

/-- The retire of a team whose root split has ended (R104). -/
def State.retireTeam (s : State) (k t : Nat) : State :=
  match s.team? k t with
  | none => s
  | some tm => (((s.cancelPops k t tm.order).responderGone k tm).sourceHalted k t tm).removeTeam k t

/-- The children of P are done: their entries are freed (with what their loads still hold passed to P), and P is ready
at its join with its mask (R113). -/
def Team.joinAt (tm : Team) (q : Nat) : Team :=
  let kids := tm.splits.filter fun e => e.2.parent == q && e.1 != q
  let rest : Map Split := tm.splits.filter fun e => !(e.2.parent == q && e.1 != q)
  { tm with splits := rest.upd q fun sp =>
      { sp with state := .ready, wait := .none, clause := none, transfer := true, waited := false,
                wbs := sp.wbs ++ kids.flatMap fun e => e.2.wbs } }

/-- A child of `q` has parked or ended: `children` falls by one, and at zero the parent joins. Answers also whether the
parent joined with no live lane, so that it ends in turn (R114). -/
def Team.childDone (tm : Team) (q : Nat) : Team × Bool :=
  match tm.splits.get q with
  | none => (tm, false)
  | some sp =>
    if sp.children ≤ 1 then
      (({ tm with splits := tm.splits.set q { sp with children := 0 } }).joinAt q, sp.live == 0)
    else ({ tm with splits := tm.splits.set q { sp with children := sp.children - 1 } }, false)

/-- The end of a split (R114): its entry is freed; the root's end retires the team. -/
def endSplit : Nat → State → Nat → Nat → Nat → State
  | 0, s, _, _, _ => s
  | n + 1, s, k, t, p =>
    let s := s.settleSplit k t p
    match s.team? k t, s.split? k t p with
    | some tm, some sp =>
      let tm := sp.wbs.foldl (fun m w => m.applyWb w (maskAll 1024)) tm
      if sp.parent = p then (s.updTeam k t fun _ => tm).retireTeam k t
      else
        let (tm, ends) := ({ tm with splits := tm.splits.del p }).childDone sp.parent
        let s := s.updTeam k t fun _ => tm
        if ends then endSplit n s k t sp.parent else s
    | _, _ => s

/-- A child whose `pc` is its `join` parks (R113). Its accesses come before the parent's after the join (R204). -/
def State.park (s : State) (k t p : Nat) : State :=
  let s := s.settleSplit k t p
  match s.team? k t, s.split? k t p with
  | some tm, some sp =>
    let (tm, ends) := ({ tm with splits := tm.splits.set p { sp with state := .parked, wait := .none } }).childDone sp.parent
    let s := s.updTeam k t fun _ => tm
    if ends then endSplit 16 s k t sp.parent else s
  | _, _ => s

/-- Whether a split stands at its join and must park. -/
def Split.atJoin (sp : Split) (p : Nat) : Bool := sp.parent != p && sp.clause.isNone && sp.pc == sp.join

/-- The ancestors of an entry, itself first. -/
def ancestors (tm : Team) : Nat → Nat → List Nat
  | 0, p => [p]
  | n + 1, p => match tm.splits.get p with
    | some sp => if sp.parent = p then [p] else p :: ancestors tm n sp.parent
    | none => [p]

/-- Lanes killed (R108): removed from the masks of the split and of every ancestor. -/
def Team.kill (tm : Team) (p : Nat) (m : Mask) : Team :=
  (ancestors tm 16 p).foldl (fun tm q => { tm with splits := tm.splits.upd q fun sp =>
    { sp with exec := sp.exec &&& ~~~m, live := sp.live &&& ~~~m } }) tm

/-- Free split-table entries. -/
def Team.freeSplits (tm : Team) : Nat := 16 - tm.splits.length

/-- One child of a divergence (R112). -/
def Team.spawn (tm : Team) (p : Nat) (m : Mask) (pc join : W64) (depth : Nat) : Team :=
  match tm.splits.lowestFree 16 0 with
  | none => tm
  | some e =>
    let sp : Split := { pc := pc, join := join, depth := depth, state := .ready, parent := p, children := 0,
                        wait := .none, wlen := 0, live := m, exec := m, clause := none, transfer := true,
                        waited := false, passBreak := false, passWord := false, prepaid := none, popped := none,
                        frame := none, wbs := [], heldAt := none }
    { tm with splits := tm.splits.set e sp, freeEntries := tm.freeEntries.del e }

/-- `diverge` (R112): the groups, in order, each with its target; P waits at J as their parent. None when too few
entries are free. -/
def Team.diverge (tm : Team) (p : Nat) (depth : Nat) (groups : List (Mask × W64)) (j : W64) : Option Team :=
  if tm.freeSplits < groups.length then none
  else
    let tm := groups.foldl (fun tm g => tm.spawn p g.1 g.2 j depth) tm
    some { tm with splits := tm.splits.upd p fun sp =>
      { sp with pc := j, state := .parent, children := groups.length, clause := none, transfer := true, waited := false,
                passBreak := false, passWord := false, prepaid := none, popped := none } }

/-- Splits formed, in `pc.split` (R174). -/
def Core.countSplits (c : Core) (n : Nat) : Core :=
  if c.pcCtl.getLsbD 0 then c else { c with pcSplit := c.pcSplit + BitVec.ofNat 64 n }

end Sys2Proof.Machine
end

