-- ==== Sys2Proof/Machine/Spill.lean ====
section
/-! DEFINITION. The spill stack (06 R119 to R121): rows of one word per lane, the top 16 KiB on the core and the rest in
pinned memory. -/

namespace Sys2Proof.Machine

/-- The most rows a stack holds (R119). -/
def Team.maxRows (tm : Team) : Nat := 524288 / (4 * tm.lanes)
/-- How many rows the core keeps. -/
def Team.coreRows (tm : Team) : Nat := 16384 / (4 * tm.lanes)
/-- Column L of row r; rows count from 1. -/
def Team.spillAt (tm : Team) (r l : Nat) : W32 := Regs.get tm.spill (1024 * r + l)
/-- Columns written in row r. -/
def Team.setSpill (tm : Team) (r : Nat) (xs : List (Nat × W32)) : Team :=
  { tm with spill := Regs.setMany tm.spill (xs.map fun x => (1024 * r + x.1, x.2)) }

/-- The PA of row r in the backing. -/
def Team.rowPa (tm : Team) (r : Nat) : Nat := tm.backing + (r - 1) * (4 * tm.lanes)

/-- A push to depth `d` that crosses the on-core top moves the lowest row on the core to the backing (R119). A responder has no
backing: it keeps all its rows. -/
def State.pushMove (s : State) (tm : Team) (d : Nat) : State :=
  if tm.coreRows < d ∧ tm.resp.isNone then
    s.setPa (tm.rowPa (d - tm.coreRows)) ((List.range tm.lanes).flatMap fun l => toBytes 4 (tm.spillAt (d - tm.coreRows) l).toNat)
  else s

/-- A pop from depth `d` brings a row back from the backing; it meets a lost unit there (R119, R240). -/
def State.popLost (s : State) (tm : Team) (d : Nat) : Bool :=
  decide (tm.coreRows < d) && tm.resp.isNone && s.isLost (tm.rowPa (d - tm.coreRows)) (4 * tm.lanes)

/-- The row of the backing that a push to depth `d`, or a pop from it, moves (R119). -/
def Team.rowRuns (tm : Team) (d : Nat) : List (Nat × Nat) :=
  if tm.coreRows < d ∧ tm.resp.isNone then [(tm.rowPa (d - tm.coreRows), 4 * tm.lanes)] else []

/-- The move of a split's row as it asks for slots, of those that its context owns (R119). -/
def At.rowAgent (a : At) (s : State) : Agent := ⟨(s.ctxOf a.k).map (·.1), rowId a.k a.t a.p, linkUnit a.k⟩

/-- A push to depth `d` or a pop from it: one that crosses the on-core top is held at issue until the move has its slots of the
calendar, which shows only as stall time (R119). -/
def At.withRow (a : At) (s : State) (d : Nat) (f : State → Out) : Out :=
  let runs := a.team.rowRuns d
  if runs.isEmpty then f s
  else if s.runsReady (a.rowAgent s) [] runs then f (s.doneRuns (a.rowAgent s) runs)
  else .block (s.askRuns (a.rowAgent s) [] runs) (.held .slots)

def spillBounds : Trap := { code := 0x0104 }

end Sys2Proof.Machine
end

