-- ==== Sys2Proof/Machine/Local.lean ====
section
/-! DEFINITION. Local memory (07 R134 to R140): addresses and their checks, the data watch (08 R170), bank conflicts, and
the loads, stores, spill forms and atomics of the LOC class. -/

namespace Sys2Proof.Machine

/-- How a LOC word touches the shared store (R170). -/
inductive Touch where
  | load | store | atomic
  deriving DecidableEq, Repr

/-- addr[L] for each lane of the run (R135). -/
def At.addrs (a : At) (x y : Opnd) (size : Nat) : List (Nat × Nat) :=
  a.lanes.map fun l => (l, (BitVec.ofInt 32 (((a.u x).truncate 32 : W32).toNat + (a.v y l).toInt * size)).toNat)

/-- Whether an access of the shared store lies in bounds: the crew's region, or, for a load of a responder, its staging
buffer (R135, R318). -/
def At.inShared (a : At) (t : Touch) (size : Nat) (e : Nat × Nat) : Bool :=
  decide (e.2 + size ≤ a.region.2) || (t == .load && a.inStaging e.2 size)

/-- The lanes that touch a watched byte in a matching way (R170). -/
def At.watched (a : At) (t : Touch) (size : Nat) (es : List (Nat × Nat)) : List (Nat × Nat) :=
  let m := match t with
    | .load => a.team.wprd
    | .store => a.team.wpwr
    | .atomic => a.team.wprd || a.team.wpwr
  if a.team.wpen && m then
    es.filter fun e => decide (e.2 < a.team.wpaddr.toNat + a.team.wplen.toNat ∧ a.team.wpaddr.toNat < e.2 + size)
  else []

/-- The checks of a shared-store word, in order: alignment, range (R135), watch (R170). None: the word takes effect. -/
def At.sharedCheck (a : At) (s : State) (t : Touch) (size : Nat) (es : List (Nat × Nat)) : Option Out :=
  let mis := es.filter fun e => e.2 % size != 0
  let out := es.filter fun e => !a.inShared t size e
  let hit := a.watched t size es
  if !mis.isEmpty then some (.trap s { code := 0x0201, lanes := mis.map fun e => (e.1, 5, e.2) })
  else if !out.isEmpty then some (.trap s { code := 0x0202, lanes := out.map fun e => (e.1, 6, e.2) })
  else if hit.isEmpty || (a.team.att && a.split.passWord) then none
  else if a.team.att then some (.stay (s.stopPass a.k a.t a.p a.pc 0x0701 0))
  else some (.trap s { code := 0x0701, lanes := hit.map fun e => (e.1, 8, e.2) })

/-- The context's window in the issuing core's die scratchpad: base and size (R22). -/
def At.window (a : At) (s : State) : Nat × Nat :=
  match s.ctxOf a.k with
  | some (_, x) => (x.dieWin.get (dieOf a.k)).getD (0, 0)
  | none => (0, 0)

/-- The checks of a scratchpad word (R135): its range fault is protection. -/
def At.dieCheck (a : At) (s : State) (size : Nat) (es : List (Nat × Nat)) : Option Out :=
  let mis := es.filter fun e => e.2 % size != 0
  let out := es.filter fun e => decide ((a.window s).2 < e.2 + size)
  if !mis.isEmpty then some (.trap s { code := 0x0201, lanes := mis.map fun e => (e.1, 5, e.2) })
  else if !out.isEmpty then some (.trap s { code := 0x0301, lanes := out.map fun e => (e.1, 2, e.2) })
  else none

/-- The most rows that one bank must serve (R136). -/
def worstBank (rows : List Nat) : Nat :=
  rows.foldl (fun m r => max m (rows.filter fun q => q % 256 == r % 256).length) 0

/-- The extra clk of a word's passes (R136): a pass takes the lanes of one gang, whose width its position fixed (R12). -/
def bankExtra (width size : Nat) (es : List (Nat × Nat)) : Nat :=
  let w := max width 1
  sumOf ((List.range (1024 / w)).map fun i =>
    let rows := ((es.filter fun e => e.1 / w == i).flatMap fun e =>
      (List.range ((size + 7) / 8)).map fun j => e.2 / 8 + j).eraseDups
    worstBank rows - 1)

/-- Extra clk added to `pc.bankstall` (R174). -/
def Core.countBank (c : Core) (n : Nat) : Core :=
  if c.pcCtl.getLsbD 0 then c else { c with pcBank := c.pcBank + BitVec.ofNat 64 n }

/-- LOC words that are not done (R32, R201), added to the issuing split. -/
def At.pend (a : At) (s : State) (ws : List Writeback) : State :=
  s.updSplit a.k a.t a.p fun sp => { sp with wbs := sp.wbs ++ ws }

/-- A result for a lane register. -/
def At.laneWb (a : At) (r : Nat) (xs : List (Nat × W32)) : Writeback :=
  ⟨false, r, a.run, Regs.setMany [] xs, 0, .none, [], false, false, 0, a.core.nextX, false⟩
/-- A result for a uniform register. -/
def uniWb (r : Nat) (x : W64) : Writeback := ⟨true, r, 0, [], x, .none, [], false, false, 0, 0, false⟩
/-- A load's word for a lane register: its accesses, and what lanes have read that need no access. -/
def At.loadWb (a : At) (r size : Nat) (signed : Bool) (accs : List LocAcc) (xs : List (Nat × W32)) : Writeback :=
  { a.laneWb r xs with op := .load size signed, accs := accs }
/-- A store's word. -/
def At.storeWb (a : At) (size : Nat) (accs : List LocAcc) : Writeback :=
  ⟨false, 0, 0, [], 0, .store size, accs, false, false, 0, a.core.nextX, false⟩
/-- An atomic's word for a lane register, or for two. -/
def At.atomWb (a : At) (r op size : Nat) (accs : List LocAcc) : Writeback :=
  { a.laneWb r [] with op := .atom op size, accs := accs }

/-- The 32-bit word of some bytes. -/
def word32 (bs : List Byte) : W32 := BitVec.ofNat 32 (ofBytes bs)

/-- The frame of the shared-store loads (R137): `n` registers, each of an access of its own of the low `size` bytes at 4-byte
steps (R201). What lies in a responder's staging buffer is read at once (R318). -/
def loadWord (size n : Nat) (signed : Bool) (d x y : Opnd) (s : State) : Res :=
  onWord s fun a =>
    if !a.team.claimsRun n d then .trap s outsideClaim
    else a.withOps s [x, y] [x, y] fun commit os =>
      match os with
      | [x, y] =>
        let es := a.addrs x y size
        let m := min size 4
        match a.sharedCheck s .load size es with
        | some o => o
        | none =>
          let s := (commit s).updCore a.k (·.countBank (bankExtra a.width size es))
          .adv (a.pend s ((List.range n).map fun i =>
            a.loadWb (num d + i) m signed
              ((es.filter fun e => !a.inStaging e.2 size).map fun e => ⟨e.1, false, a.region.1 + e.2 + 4 * i, 0, 0⟩)
              ((es.filter fun e => a.inStaging e.2 size).map fun e =>
                (e.1, loadExt m signed (ofBytes (a.local' (e.2 + 4 * i) m))))))
      | _ => .trap s illegalOperand

/-- R137. -/
def execLdB (d x y : Opnd) (s : State) : Res := loadWord 1 1 false d x y s
/-- R137. -/
def execLdBs (d x y : Opnd) (s : State) : Res := loadWord 1 1 true d x y s
/-- R137. -/
def execLdH (d x y : Opnd) (s : State) : Res := loadWord 2 1 false d x y s
/-- R137. -/
def execLdHs (d x y : Opnd) (s : State) : Res := loadWord 2 1 true d x y s
/-- R137. -/
def execLdW (d x y : Opnd) (s : State) : Res := loadWord 4 1 false d x y s
/-- R137. -/
def execLdD (d x y : Opnd) (s : State) : Res := loadWord 8 2 false d x y s
/-- R137. -/
def execLdQ (d x y : Opnd) (s : State) : Res := loadWord 16 4 false d x y s

/-- Word k of a stored value in lane l (R137). -/
def At.stored (a : At) (d : Opnd) (k l : Nat) : W32 :=
  match d with
  | .v n => a.team.vreg (n.val + k) l
  | .s n => ((a.team.sreg (n.val + k / 2)) >>> (32 * (k % 2))).truncate 32
  | d => a.v d l

/-- The registers a stored value of `size` bytes needs lie within the claim. -/
def Team.storeClaim (tm : Team) (size : Nat) : Opnd → Bool
  | .v n => decide (n.val + (size + 3) / 4 ≤ tm.vcount)
  | .s n => decide (n.val + (size + 7) / 8 ≤ tm.scount)
  | _ => true

/-- The lane whose store decides a byte (R138): no later lane of the word stores at the same place. -/
def lastAt (es : List (Nat × Nat)) (e : Nat × Nat) : Bool := es.all fun f => f.2 != e.2 || decide (f.1 ≤ e.1)

/-- The accesses of a store of `size` bytes (R201): one word for each 4 bytes, from a place `base`. -/
def At.storeWbs (a : At) (die : Bool) (base : Nat) (d : Opnd) (size : Nat) (es : List (Nat × Nat)) : List Writeback :=
  (List.range ((size + 3) / 4)).map fun i => a.storeWb (min size 4)
    ((es.filter (lastAt es)).map fun e => ⟨e.1, die, base + e.2 + 4 * i, (a.stored d i e.1).toNat % 2 ^ (8 * min size 4), 0⟩)

/-- The frame of the shared-store stores (R137, R138). -/
def storeWord (size : Nat) (d x y : Opnd) (s : State) : Res :=
  onWord s fun a =>
    if !a.team.storeClaim size d then .trap s outsideClaim
    else a.withOps s [x, y] [x, y, d] fun commit os =>
      match os with
      | [x, y, d] =>
        let es := a.addrs x y size
        match a.sharedCheck s .store size es with
        | some o => o
        | none =>
          .adv (a.pend ((commit s).updCore a.k (·.countBank (bankExtra a.width size es)))
            (a.storeWbs false a.region.1 d size es))
      | _ => .trap s illegalOperand

/-- R137. -/
def execStB (d x y : Opnd) (s : State) : Res := storeWord 1 d x y s
/-- R137. -/
def execStH (d x y : Opnd) (s : State) : Res := storeWord 2 d x y s
/-- R137. -/
def execStW (d x y : Opnd) (s : State) : Res := storeWord 4 d x y s
/-- R137. -/
def execStD (d x y : Opnd) (s : State) : Res := storeWord 8 d x y s
/-- R137. -/
def execStQ (d x y : Opnd) (s : State) : Res := storeWord 16 d x y s

/-- The frame of the scratchpad loads (R137). -/
def loadxWord (size n : Nat) (d x y : Opnd) (s : State) : Res :=
  onWord s fun a =>
    if !a.team.claimsRun n d then .trap s outsideClaim
    else a.withOps s [x, y] [x, y] fun commit os =>
      match os with
      | [x, y] =>
        let es := a.addrs x y size
        match a.dieCheck s size es with
        | some o => o
        | none => .adv (a.pend (commit s) ((List.range n).map fun i =>
            a.loadWb (num d + i) 4 false (es.map fun e => ⟨e.1, true, e.2 + 4 * i, 0, 0⟩) []))
      | _ => .trap s illegalOperand

/-- R137. -/
def execLdxW (d x y : Opnd) (s : State) : Res := loadxWord 4 1 d x y s
/-- R137. -/
def execLdxD (d x y : Opnd) (s : State) : Res := loadxWord 8 2 d x y s

/-- The frame of the scratchpad stores (R137). -/
def storexWord (size : Nat) (d x y : Opnd) (s : State) : Res :=
  onWord s fun a =>
    if !a.team.storeClaim size d then .trap s outsideClaim
    else a.withOps s [x, y] [x, y, d] fun commit os =>
      match os with
      | [x, y, d] =>
        let es := a.addrs x y size
        match a.dieCheck s size es with
        | some o => o
        | none => .adv (a.pend (commit s) (a.storeWbs true 0 d size es))
      | _ => .trap s illegalOperand

/-- R137. -/
def execStxW (d x y : Opnd) (s : State) : Res := storexWord 4 d x y s
/-- R137. -/
def execStxD (d x y : Opnd) (s : State) : Res := storexWord 8 d x y s

/-- R121: pushes one row; an `s` register goes to columns 0 and 1 whatever the mask. -/
def execSpillSt (d : Opnd) (s : State) : Res :=
  onWord s fun a =>
    let r := a.split.depth + 1
    if !a.team.claims d then .trap s outsideClaim
    else if a.team.maxRows < r then .trap s spillBounds
    else a.withRow s r fun s =>
      let cols := match d with
        | .s n => [(0, (a.team.sreg n.val).truncate 32), (1, ((a.team.sreg n.val) >>> 32).truncate 32)]
        | d => a.lanes.map fun l => (l, a.v d l)
      let tm := a.team.setSpill r cols
      let tm := { tm with splits := tm.splits.upd a.p fun sp => { sp with depth := r } }
      .adv ((a.put s tm).pushMove tm r)

/-- R121: pops one row; a register-writing LOC word (R32). -/
def execSpillLd (d : Opnd) (s : State) : Res :=
  onWord s fun a =>
    let r := a.split.depth
    if !a.team.claims d then .trap s outsideClaim
    else if r = 0 then .trap s spillBounds
    else if s.popLost a.team r then .trap s { code := 0x0304 }
    else a.withRow s r fun s =>
      let wb := match d with
        | .s n => uniWb n.val ((a.team.spillAt r 1).zeroExtend 64 <<< 32 ||| (a.team.spillAt r 0).zeroExtend 64)
        | d => a.laneWb (num d) (a.lanes.map fun l => (l, a.team.spillAt r l))
      .adv (a.pend (s.updSplit a.k a.t a.p fun sp => { sp with depth := r - 1 }) [wb])

/-! ### Atomics (R139, R140) -/

/-- The frame of the shared-store atomics (R139), by the operation codes of R154; `n` registers hold the operand and, for `cas`,
the compare value. -/
def atomWord (n op : Nat) (d x y : Opnd) (s : State) : Res :=
  onWord s fun a =>
    if !a.team.claimsRun n d then .trap s outsideClaim
    else a.withOps s [x, y] [x, y] fun commit os =>
      match os with
      | [x, y] =>
        let es := a.addrs x y 4
        match a.sharedCheck s .atomic 4 es with
        | some o => o
        | none =>
          .adv (a.pend ((commit s).updCore a.k (·.countBank (bankExtra a.width 4 es))) [a.atomWb (num d) op 4
            (es.map fun e => ⟨e.1, false, a.region.1 + e.2, (a.team.vreg (num d) e.1).toNat, (a.team.vreg (num d + 1) e.1).toNat⟩)])
      | _ => .trap s illegalOperand

/-- R139. -/
def execAtomAdd (d x y : Opnd) (s : State) : Res := atomWord 1 0 d x y s
/-- R139. -/
def execAtomFadd (d x y : Opnd) (s : State) : Res := atomWord 1 1 d x y s
/-- R139. -/
def execAtomMin (d x y : Opnd) (s : State) : Res := atomWord 1 2 d x y s
/-- R139. -/
def execAtomMax (d x y : Opnd) (s : State) : Res := atomWord 1 3 d x y s
/-- R139. -/
def execAtomMinu (d x y : Opnd) (s : State) : Res := atomWord 1 4 d x y s
/-- R139. -/
def execAtomMaxu (d x y : Opnd) (s : State) : Res := atomWord 1 5 d x y s
/-- R139. -/
def execAtomAnd (d x y : Opnd) (s : State) : Res := atomWord 1 6 d x y s
/-- R139. -/
def execAtomOr (d x y : Opnd) (s : State) : Res := atomWord 1 7 d x y s
/-- R139. -/
def execAtomXor (d x y : Opnd) (s : State) : Res := atomWord 1 8 d x y s
/-- R139. -/
def execAtomXchg (d x y : Opnd) (s : State) : Res := atomWord 1 9 d x y s
/-- R139: the compare value is v[D+1]. -/
def execAtomCas (d x y : Opnd) (s : State) : Res := atomWord 2 10 d x y s

/-- A lane's operand from `i` registers on: one word, or two with the low word first (R140). -/
def At.wideReg (a : At) (wide : Bool) (r l : Nat) : Nat :=
  if wide then (a.team.vreg r l).toNat + (a.team.vreg (r + 1) l).toNat * 2 ^ 32 else (a.team.vreg r l).toNat

/-- Whether an agent other than the split lies within a scope (R17, R211, R212, R216): one that could see its accesses out of
order. The issuing lane sees them in program order. -/
def At.observed (a : At) (scope : Nat) : Bool :=
  match scope with
  | 0 => false
  | 1 => decide (1 < a.team.splits.length)
  | _ => true

/-- The frame of the scratchpad atomics (R140): with `rel` every earlier access of the split comes before, with `acq` every later
one after (R205). -/
def atomxWord (cas : Bool) (op : Nat) (d x y : Opnd) (par : AxPar) (s : State) : Res :=
  onWord s fun a =>
    let size := if par.wide then 8 else 4
    let n := size / 4
    if !a.team.claimsRun (if cas then 2 * n else n) d then .trap s outsideClaim
    else a.withOps s [x, y] [x, y] fun commit os =>
      match os with
      | [x, y] =>
        let es := a.addrs x y size
        match a.dieCheck s size es with
        | some o => o
        | none =>
          let seen := a.observed par.scope.toNat
          let s := if par.rel && par.scope == 6 then { commit s with portOld := [] } else commit s
          let s := if par.rel && par.scope == 1 && seen then s.teamRelease a.k a.t a.p a.core.nextX else s
          .adv (a.pend s [{ a.atomWb (num d) op size (es.map fun e =>
              ⟨e.1, true, e.2, a.wideReg par.wide (num d) e.1, a.wideReg par.wide (num d + n) e.1⟩) with
            after := par.rel && seen && par.scope != 1, hold := par.acq && seen }])
      | _ => .trap s illegalOperand

/-- R140. -/
def execAtomxAdd (d x y : Opnd) (par : AxPar) (s : State) : Res := atomxWord false 0 d x y par s
/-- R140. -/
def execAtomxXchg (d x y : Opnd) (par : AxPar) (s : State) : Res := atomxWord false 9 d x y par s
/-- R140. -/
def execAtomxCas (d x y : Opnd) (par : AxPar) (s : State) : Res := atomxWord true 10 d x y par s

end Sys2Proof.Machine
end

