-- ==== Sys2Proof/Machine/Exchange.lean ====
section
/-! DEFINITION. Lane exchange, votes, reductions and scans (07 R141 to R143), fences (R144), barrier objects (R145 to
R147) and streams (R148, R149). -/

namespace Sys2Proof.Machine

/-- A lane of A as a lane exchange reads it: 0 at or beyond `%lanes` (R141). -/
def At.laneOr0 (a : At) (r l : Nat) : W32 := if l < a.team.lanes then a.team.vreg r l else 0

/-- The frame of the exchanges (R141): the source lane from the lane and its b. -/
def shflWord (src : Nat → Nat → Nat) (d x y : Opnd) (s : State) : Res :=
  onWord s fun a =>
    a.withOps s [d, x, y] [y] fun commit os =>
      match os with
      | [y] => .adv (a.pend (commit s) [a.laneWb (num d)
          (a.lanes.map fun l => (l, a.laneOr0 (num x) (src l (a.v y l).toNat)))])
      | _ => .trap s illegalOperand

/-- R141. -/
def execShflIdx (d x y : Opnd) (s : State) : Res := shflWord (fun l b => l / 32 * 32 + b % 32) d x y s
/-- R141. -/
def execShflXor (d x y : Opnd) (s : State) : Res := shflWord (fun l b => l ^^^ (b % 32)) d x y s
/-- R141. -/
def execShflUp (d x y : Opnd) (s : State) : Res :=
  shflWord (fun l b => if l % 32 < b % 32 then l else l - b % 32) d x y s
/-- R141. -/
def execShflDn (d x y : Opnd) (s : State) : Res :=
  shflWord (fun l b => if 31 < l % 32 + b % 32 then l else l + b % 32) d x y s
/-- R141: b[31:0] names any lane of the team. -/
def execBcast (d x y : Opnd) (s : State) : Res := shflWord (fun _ b => b) d x y s

/-- The frame of the forms that write an `s` register from the lanes (R142). -/
def redWord (d x : Opnd) (f : At → W64) (s : State) : Res :=
  onWord s fun a =>
    if !a.team.claimsAll [d, x] then .trap s outsideClaim
    else .adv (a.pend s [uniWb (num d) (f a)])

/-- R142. -/
def execVoteAny (d x : Opnd) (s : State) : Res := redWord d x (fun a => flag64 (a.run &&& a.pr x != 0)) s
/-- R142. -/
def execVoteAll (d x : Opnd) (s : State) : Res := redWord d x (fun a => flag64 (a.run &&& ~~~a.pr x == 0)) s
/-- R142: bit j is p[A] of lane 64b + j. -/
def execBallot (d x y : Opnd) (s : State) : Res :=
  onWord s fun a =>
    a.withOps s [d, y] [y] fun commit os =>
      match os with
      | [y] =>
        let b := a.u32 y
        let r : W64 := if 16 ≤ b then 0 else (a.run &&& a.pr x).extractLsb' (64 * b) 64
        .adv (a.pend (commit s) [uniWb (num d) r])
      | _ => .trap s illegalOperand

/-- One level of the tree of R76: adjacent positions, the lower on the left; a node with one contributing child passes it
on. -/
def pairUp {α : Type} (op : α → α → α) : List (Option α) → List (Option α)
  | some x :: some y :: r => some (op x y) :: pairUp op r
  | some x :: none :: r => some x :: pairUp op r
  | none :: y :: r => y :: pairUp op r
  | [x] => [x]
  | [] => []

/-- The tree over the positions (R76); ten levels cover 1,024. -/
def treeOf {α : Type} (op : α → α → α) : Nat → List (Option α) → Option α
  | 0, xs => xs.head?.join
  | n + 1, xs => treeOf op n (pairUp op xs)

/-- A reduction of a lane register over the active, gated-on lanes. -/
def At.reduce (a : At) (op : W32 → W32 → W32) (r : Nat) (empty : W32) : W32 :=
  (treeOf op 10 ((List.range a.team.lanes).map fun l =>
    if Mask.has a.run l then some (a.team.vreg r l) else none)).getD empty

/-- R142, R76. -/
def execRedAdd (d x : Opnd) (s : State) : Res :=
  redWord d x (fun a => (a.reduce (· + ·) (num x) 0).signExtend 64) s
/-- R142, R76. -/
def execRedFadd (d x : Opnd) (s : State) : Res :=
  redWord d x (fun a => (a.reduce fadd32 (num x) 0).zeroExtend 64) s
/-- R142: the signed maximum. -/
def execRedMax (d x : Opnd) (s : State) : Res :=
  redWord d x (fun a => (a.reduce (fun x y => if cmpLt x y then y else x) (num x) 0x80000000#32).signExtend 64) s
/-- R142, R76. -/
def execRedFmax (d x : Opnd) (s : State) : Res :=
  redWord d x (fun a => (a.reduce fmax32 (num x) 0xFF800000#32).zeroExtend 64) s
/-- R142, R76. -/
def execRedFmin (d x : Opnd) (s : State) : Res :=
  redWord d x (fun a => (a.reduce fmin32 (num x) 0x7F800000#32).zeroExtend 64) s

/-- Running sums over the lanes, in order (R143). -/
def prefixSums (f : Nat → W32) : W32 → List Nat → List (Nat × W32)
  | _, [] => []
  | t, l :: ls => (l, t + f l) :: prefixSums f (t + f l) ls

/-- R143. -/
def execScanAdd (d x : Opnd) (s : State) : Res :=
  onWord s fun a =>
    if !a.team.claimsAll [d, x] then .trap s outsideClaim
    else .adv (a.pend s [a.laneWb (num d) (prefixSums (a.team.vreg (num x)) 0 a.lanes)])

/-- R144, R206, R216: the split's next clause waits until its earlier accesses are performed, and its later accesses come after
them. At lane scope nothing is ordered, and a release waits until the earlier loads have written back. A release at port
scope performs there what is performed (R209). At team scope the earlier stores need only be seen by the team's splits (R211). -/
def execFence (scope : BitVec 3) (acq rel : Bool) (s : State) : Res :=
  onWord s fun a =>
    let s := if rel && scope == 6 then { s with portOld := [] } else s
    if scope == 1 && a.observed 1 then .adv (s.teamRelease a.k a.t a.p a.core.nextX)
    else
    let mark := fun w : Writeback =>
      if scope == 0 then (if rel && w.writesReg then { w with fence := 2 } else w)
      else if a.observed scope.toNat && !w.accs.isEmpty then { w with fence := max w.fence 1, hold := w.hold || acq || rel }
      else w
    .adv (s.updSplit a.k a.t a.p fun sp => { sp with wbs := sp.wbs.map mark })

/-! ### Barrier objects -/

/-- A barrier form on the word in issue: claims, pops, the checks of R147, then the event or barrier misuse (R146). Its operands
are 32-bit integers (R41, R42). -/
def At.barForm (a : At) (x y : Opnd) (f : Nat → Bar → Option Bar) (s : State) : Out :=
  a.withOps s [x, y] [x, y] fun commit os =>
    match os with
    | [x, y] =>
      match a.barCheck (a.u32 x) with
      | some tr => .trap s tr
      | none =>
        let o := a.region.1 + a.u32 x
        let s := s.settleNear a.k a.t a.p o 16
        match f (a.u32 y) (Bar.read (s.shared a.k) o) with
        | none => .trap s barrierMisuse
        | some b => .adv ((commit s).barEvent a.k o fun _ => b)
    | _ => .trap s illegalOperand

/-- The frame of the barrier forms that release nothing. -/
def barWord (x y : Opnd) (f : Nat → Bar → Option Bar) (s : State) : Res := onWord s fun a => a.barForm x y f s

/-- R145, R146. -/
def execBarInit (x y : Opnd) (s : State) : Res :=
  barWord x y (fun n _ => if n = 0 ∨ 2 ^ 30 ≤ n then none else some ⟨false, false, n, 0, n, n⟩) s

/-- R146. -/
def execBarExpect (x y : Opnd) (s : State) : Res :=
  barWord x y (fun n b =>
    let t := b.bytes + n
    if 2 ^ 31 - 1 < t then none else some { b with bytes := t }) s

/-- R146, R132: a release of the split's earlier accesses at core scope (R205). -/
def execBarArrive (x y : Opnd) (s : State) : Res :=
  onLocal s fun s a => a.barForm x y (fun n b =>
    if b.pending = 0 ∨ (n % 2 = 1 ∧ b.reload = 0) then none
    else some { b with pending := b.pending - 1, reload := if n % 2 = 1 then b.reload - 1 else b.reload }) s

/-- R147: read in one step. -/
def execBarTest (d x : Opnd) (s : State) : Res :=
  onWord s fun a =>
    a.withOps s [d, x] [x] fun commit os =>
      match os with
      | [x] =>
        match a.barCheck (a.u32 x) with
        | some tr => .trap s tr
        | none =>
          let s := s.settleNear a.k a.t a.p (a.region.1 + a.u32 x) 16
          let b := Bar.read (s.shared a.k) (a.region.1 + a.u32 x)
          .adv (a.pend (commit s) [uniWb (num d) (BitVec.ofNat 64 (b.pending * 2 ^ 32 + b2n b.error * 2 + b2n b.phase))])
      | _ => .trap s illegalOperand

/-! ### Streams -/

/-- The stream that `base` bytes and `b` describe, or a breach of R148. -/
def bindStream (a b : W64) (shared binding : Nat) : Option Stream :=
  let base := a.toNat % 2 ^ 32
  let n := bits b 11 0 + 1
  let z := bits b 31 16
  if bits b 15 12 ≠ 0 ∨ bits b 63 32 ≠ 0 ∨ base % 16 ≠ 0 ∨ z % 16 ≠ 0 ∨ z < 16 ∨ shared < base + n * z then none
  else some ⟨base, n, z, 0, 0, 0, 0, [], [], binding⟩

/-- R148. -/
def execStreamBind (d x y : Opnd) (s : State) : Res :=
  onWord s fun a =>
    a.withOps s [x, y] [x, y] fun commit os =>
      match os with
      | [x, y] =>
        match a.core.crewOf a.team with
        | none => .trap s streamMisuse
        | some w =>
          match bindStream (a.uLoc x) (a.uLoc y) w.size (w.bindings + 1) with
          | none => .trap s streamMisuse
          | some q => .adv ((commit s).updCore a.k fun c => { c with crews := c.crews.upd a.team.crew fun w =>
              { w with streams := w.streams.set (num d) q, bindings := w.bindings + 1 } })
      | _ => .trap s illegalOperand

/-- R149: waits while every slot is in use; once its wait has ended it has its slot (R217). -/
def execStreamFill (d x : Opnd) (s : State) : Res :=
  onWord s fun a =>
    if !a.team.claims d then .trap s outsideClaim
    else match a.streams.get (num x) with
      | none => .trap s streamMisuse
      | some q =>
        let done := fun (s : State) (off : Nat) => Out.adv (a.pend s [uniWb (num d) (BitVec.ofNat 64 off)])
        match a.split.popped with
        | some (j :: _) => done s j
        | _ =>
        if ahead q.issued q.freed = q.slots then .block s (.stream [num x] true)
        else done (s.setStreams a.k a.team.crew
            (a.streams.set (num x) { q with issued := (q.issued + 1) % 2 ^ 32 })) (q.slot q.issued)

/-- R149. -/
def execStreamFree (d : Opnd) (s : State) : Res :=
  onWord s fun a =>
    match a.streams.get (num d) with
    | none => .trap s streamMisuse
    | some q =>
      if q.freed = q.popped then .trap s streamMisuse
      else .adv (s.setStreams a.k a.team.crew (a.streams.set (num d) { q with freed := (q.freed + 1) % 2 ^ 32 }))

/-- The issued, unpublished slot that starts at an offset, not reserved (R149, R347). -/
def Stream.openSlot (q : Stream) (off : Nat) : Option Nat :=
  ((List.range (ahead q.issued q.published)).map fun i => (q.published + i) % 2 ^ 32).find? fun j =>
    q.slot j == off && !q.marks.contains j && !q.resv.contains j

/-- P advances across consecutive marked slots, clearing each mark (R149). -/
def Stream.settle : Nat → Stream → Stream
  | 0, q => q
  | n + 1, q =>
    if q.marks.contains q.published then
      Stream.settle n { q with marks := q.marks.filter (· != q.published), published := (q.published + 1) % 2 ^ 32 }
    else q

/-- Marks slot `j` published (R149). -/
def Stream.mark (q : Stream) (j : Nat) : Stream :=
  let q := { q with marks := q.marks ++ [j], resv := q.resv.filter (· != j) }
  q.settle q.marks.length

/-- R149. -/
def execStreamPub (d x : Opnd) (s : State) : Res :=
  onWord s fun a =>
    a.withOps s [x] [x] fun commit os =>
      match os with
      | [x] =>
        let s' := commit s
        let qs := match (s'.core? a.k).bind fun c => c.crewOf a.team with
          | some w => w.streams
          | none => []
        match qs.get (num d) with
        | none => .trap s streamMisuse
        | some q =>
          match q.openSlot (a.u32 x) with
          | none => .trap s streamMisuse
          | some j => .adv (s'.setStreams a.k a.team.crew (qs.set (num d) (q.mark j)))
      | _ => .trap s illegalOperand

end Sys2Proof.Machine
end

