-- ==== Sys2Proof/Machine/Engine.lean ====
section
/-! DEFINITION. The async engine of a core (07 R151 to R156, 13 R225, R226, 15 R271, R274): where an access goes, the
packets and segments of an operation, what a failure records, and how an operation completes. -/

namespace Sys2Proof.Machine

/-! ### Where an access goes -/

/-- Where an access is sent: its target (a stack 0 to 7, 8 a window, 9 expander memory, 10 a port, 11 nowhere), its state,
and its PA. -/
structure Route where
  target : Nat
  state : PartState
  pa : Nat
  deriving DecidableEq, Repr

/-- Reason codes of a `detail` entry (R270). -/
def whyRefused : Nat := 1
def whyProtection : Nat := 2
def whyLost : Nat := 3
def whySource : Nat := 4
def whyAlign : Nat := 5

/-- The fault code that a reason stands for (R264). -/
def codeOfWhy (r : Nat) : Nat :=
  if r = 1 then 0x0302 else if r = 2 then 0x0301 else if r = 3 then 0x0304 else 0x0303

/-- Routes an engine access: a request to an Off plot fails with protection (R231), one to the expander fails at once
while its link is not up (R274), as does one through its port (R331), one through another port's dead link fails as source lost
(R331), and an absent page holds it (R225). -/
def State.route (s : State) (k : Nat) (region : Nat × Nat) (need : Need) (port : Option Bool) (va len : Nat) : Route :=
  match s.resolve k region va len need port with
  | .at' (.shared _ _) => ⟨8, .sent, 0⟩
  | .at' (.die _ _) => ⟨8, .sent, 0⟩
  | .at' (.mem pa) =>
    if isHbm pa then
      ⟨stackOf pa, if (s.plot (plotOf pa)).state = .off then .failing whyProtection else .sent, pa⟩
    else ⟨9, if (s.link 1).serves then .sent else .failing whySource, pa⟩
  | .at' (.port kind link _ _) =>
    let l := s.link (portLink kind link)
    ⟨10, if (if kind = 1 then !l.serves else l.dead) then .failing whySource else .sent, 0⟩
  | .absent => ⟨11, .held (va / 65536), 0⟩
  | .bad => ⟨11, .failing whyProtection, 0⟩

/-- The same for one lane's element, which must be a multiple of its size (R153). -/
def State.laneRoute (s : State) (k : Nat) (region : Nat × Nat) (need : Need) (va size : Nat) : Route :=
  if va % size ≠ 0 then ⟨11, .failing whyAlign, 0⟩ else s.route k region need none va size

/-- The region of a crew slot of core `k`: its base and size (R134). -/
def State.regionOf (s : State) (k crew : Nat) : Nat × Nat :=
  match (s.core? k).bind fun c => c.crews.get crew with
  | some w => (w.base, w.size)
  | none => (0, 0)

/-- The slots of the calendar that a request to a stack needs (R19): one of its memory controller, and for a form with lanes
one of its gather unit. -/
def Route.slots (r : Route) (lanes : Bool) : Nat :=
  if r.target ≤ 7 ∧ r.state = .sent then (if lanes then 2 else 1) else 0

/-- Puts an access with those that go the same way (R153: one packet per stack, of at most 64 lane addresses, R1). -/
def addAcc (ps : List Part) (r : Route) (x : Acc) : List Part :=
  match ps with
  | [] => [⟨0, r.target, r.state, [{ x with pa := r.pa }], r.slots true, 0⟩]
  | p :: ps =>
    if p.target = r.target ∧ p.state = r.state ∧ p.accs.length < 64 then
      { p with accs := p.accs ++ [{ x with pa := r.pa }] } :: ps
    else p :: addAcc ps r x

/-- The identity of part `i` of operation `x` of core `k` at the shared units. -/
def partId (k x i : Nat) : Nat := (k * 2 ^ 40 + x) * 2 ^ 20 + i

/-- The identity of a channel's or the matrix unit's operation numbered `x`. -/
def engId (k x : Nat) : Nat := partId k x 0

/-- Parts of operation `x` of core `k` numbered from `n`. -/
def numberParts (k x n : Nat) : List Part → List Part
  | [] => []
  | p :: ps => { p with i := n, id := partId k x n } :: numberParts k x (n + 1) ps

/-- Requests sent (R174), counted unless the counters are frozen. DESIGN CHOICE: the packets that `pc.pkt` counts are the
parts of async operations; the segments of copy chains and the requests of the matrix unit are none of them. -/
def Core.countPkt (c : Core) (n : Nat) : Core :=
  if c.pcCtl.getLsbD 0 then c else { c with pcPkt := c.pcPkt + BitVec.ofNat 64 n }

/-- What sending a part does outside it: the plots it reaches (R231, R232), its place in their queues unless a `fence.m` holds
it back (`waits`), its requests for slots of the shared units (R19), the service request of a held page (R225), and the
packet count. -/
def State.sendPart (s : State) (k : Nat) (waits : Bool) (p : Part) : State :=
  match s.ctxOf k with
  | none => s
  | some (c, x) =>
    match p.state with
    | .sent =>
      let s := p.accs.foldl (fun s y => if p.target ≤ 7 then
          (let s := s.touchFrom k c y.pa
           if waits then s else s.joinWake y.pa p.id)
        else s) s
      let req := fun (u : Nat) => (⟨u, x.fn, c, p.id⟩ : CalReq)
      let s := { s with calReqs := s.calReqs ++ (if p.waits = 0 then [] else if p.waits = 1 then [req (8 + p.target)]
        else [req p.target, req (8 + p.target)]) }
      if p.target ≤ 7 ∨ p.target = 9 then (s.countUnit (linkUnit k) x.fn).updCore k (·.countPkt 1) else s
    | .held page => s.pageFault c (page * 65536)
    | .failing _ => s

/-- A sent part whose plot is in Retention again reaches it once more (R231). -/
def State.rewakePart (s : State) (k : Nat) (p : Part) : State :=
  match s.ctxOf k with
  | some (c, _) => if p.state = .sent ∧ p.target ≤ 7 then
      p.accs.foldl (fun s y => if y.done || s.servable y.pa then s else (s.touchFrom k c y.pa).joinWake y.pa p.id) s
    else s
  | none => s

/-- The permissions an operation's accesses need (R222). -/
def AKind.need : AKind → Need
  | .gather => .r
  | .scatter => .w
  | .atomM _ => .rw
  | .ldBlk => .r
  | .stBlk => .w
  | .portWr => .w
  | .seqAdd _ => .rw
  | .seqRd => .r
  | .recPush _ _ => .w
  | .recPop _ => .r
  | .scrub _ _ _ => .w
  | .move _ _ _ _ => .r

/-- Whether a form has lanes (R271). -/
def AKind.lanes : AKind → Bool
  | .gather => true
  | .scatter => true
  | .atomM _ => true
  | _ => false

/-- Forms whose parts write main memory by `Acc.pre` words (R201). -/
def AKind.writesMem : AKind → Bool
  | .scatter | .stBlk => true
  | _ => false

def AKind.isPop : AKind → Bool
  | .recPop _ => true
  | _ => false

/-- The record and counter forms, which name main memory only (R222). -/
def AKind.memOnly : AKind → Bool
  | .seqAdd _ | .seqRd | .recPush _ _ => true
  | _ => false

/-- Whether a form may use the port window, and for a write or a read (R333). -/
def AKind.port : AKind → Option Bool
  | .ldBlk => some false
  | .stBlk | .portWr => some true
  | _ => none

/-- The way an access of an operation goes now. The range of a scrub, which carries no bytes, stays within the controllers
(R241). -/
def State.accRoute (s : State) (k : Nat) (op : AsyncOp) (x : Acc) : Route :=
  let region := s.regionOf k op.crew
  if (match op.kind with | .scrub _ _ _ => x.data.isEmpty | _ => false) then ⟨8, .sent, 0⟩
  else if op.kind.memOnly && (inPortWin x.va || winOf x.va == 0x1FF) then ⟨11, .failing whyProtection, 0⟩
  else if op.kind.lanes then s.laneRoute k region op.kind.need x.va x.len
  else s.route k region op.kind.need op.kind.port x.va x.len

/-- The parts of the accesses of an operation: by target for a form with lanes, one each for the others. -/
def State.partsOf (s : State) (k : Nat) (op : AsyncOp) (xs : List Acc) : List Part :=
  if op.kind.lanes then xs.foldl (fun ps x => addAcc ps (s.accRoute k op x) x) []
  else xs.map fun x =>
    let r := s.accRoute k op x
    ⟨0, r.target, r.state, [{ x with pa := r.pa }], r.slots false, 0⟩

def State.updAsync (s : State) (k x : Nat) (f : AsyncOp → AsyncOp) : State :=
  s.updCore k fun c => { c with asyncs := c.asyncs.upd x f }

def State.async? (s : State) (k x : Nat) : Option AsyncOp := (s.core? k).bind fun c => c.asyncs.get x

/-- A `fence.m` makes an operation wait still (R144). -/
def Core.fenced (c : Core) (op : AsyncOp) : Bool :=
  (op.kind.reads && !c.clear op.afterR) || (op.kind.writes && !c.clear op.afterW)

/-- 32-byte sectors that sent parts touch at the base dies (R173), by number. -/
def sectorsOf (ps : List Part) : List Nat :=
  ((ps.filter fun p => p.state == .sent && decide (p.target ≤ 7)).flatMap fun p => p.accs.flatMap fun x =>
    (List.range ((x.pa % 32 + x.len + 31) / 32)).map fun i => x.pa / 32 + i).eraseDups

/-- Translations of some VAs leave their pages in the TLBs of the core (R223). -/
def State.fillTlbs (s : State) (k : Nat) (vas : List Nat) : State :=
  match s.ctxOf k with
  | some (c, _) => vas.foldl (fun s va => s.fillTlb k c va) s
  | none => s

/-- Parts sent, each in turn, as part of an operation (R151). -/
def State.sendParts (s : State) (k : Nat) (op : AsyncOp) (ps : List Part) : State :=
  let waits := (s.core? k).any fun c => c.fenced op
  ps.foldl (fun s p => s.sendPart k waits p) (s.fillTlbs k (ps.flatMap fun p => p.accs.map (·.va)))

/-- Translates a held part again (R225): its accesses go where they go now, and a pop looks at its record again. A part that
is held as before stays. -/
def State.retryPart (s : State) (k x : Nat) (op : AsyncOp) (p : Part) : State × AsyncOp × List Part :=
  match p.state with
  | .held _ =>
    let ps := s.partsOf k op p.accs
    if ps.all fun q => q.state == p.state then (s, op, [p])
    else if op.kind.isPop then (s, op, [{ p with state := .sent }])
    else
      let ps := numberParts k x op.nextPart ps
      (s.sendParts k op ps,
        { op with nextPart := op.nextPart + ps.length, sectors := (op.sectors ++ sectorsOf ps).eraseDups,
                  replays := op.replays + (ps.filter fun q => q.state == .sent).length }, ps)
  | _ => (s, op, [p])

/-- Translates the held parts of an operation again. -/
def State.retryOp (s : State) (k x : Nat) : State :=
  match s.async? k x with
  | none => s
  | some op =>
    let r := op.parts.foldl (fun (acc : State × AsyncOp × List Part) p =>
      let r := acc.1.retryPart k x acc.2.1 p
      (r.1, r.2.1, acc.2.2 ++ r.2.2)) (s, op, [])
    r.1.updAsync k x fun _ => { r.2.1 with parts := r.2.2 }

/-- The packets outstanding on a core (R151). DESIGN CHOICE: every part of an operation that is not complete counts, also a
segment of a block that has not been sent yet and a part that is held or has failed. -/
def Core.packets (c : Core) : Nat := sumOf (c.asyncs.map fun e => e.2.parts.length)

/-! ### Failures (R151, R271) -/

/-- The side buffer is frozen while its team is in Handler (R271). -/
def Team.frozen (tm : Team) : Bool :=
  match tm.state, tm.prev with
  | .handler _, _ => true
  | .stopped, .handler _ => true
  | _, _ => false

/-- A failed lane (R271): the lowest 32 lanes of the mask hold an entry each, and a lane keeps its first. -/
def SideBuf.failLane (b : SideBuf) (l reason va : Nat) : SideBuf :=
  let b := { b with grade := 1, fresh := true }
  if Mask.has b.mask l then b
  else { b with mask := b.mask ||| BitVec.ofNat 1024 (2 ^ l), detail := (b.detail.set l (detailWord reason va)).take 32 }

/-- A failure of a form without lanes (R271). -/
def SideBuf.failAccess (b : SideBuf) (reason va : Nat) : SideBuf :=
  { b with
    grade := 1
    fresh := true
    bdetail := if b.bfails = 0 then detailWord reason va else b.bdetail
    bfails := min (b.bfails + 1) 0xFFFFFFFF }

/-- Records a failure in the buffer of the team that issued the operation, unless it has retired; a frozen buffer takes
`late` only. -/
def State.recordFail (s : State) (k t order : Nat) (f : SideBuf → SideBuf) : State :=
  s.updTeam k t fun tm =>
    if tm.order ≠ order then tm
    else if tm.frozen then { tm with side := { tm.side with late := true } }
    else { tm with side := f tm.side }

/-- Records the failed accesses of an operation. -/
def State.recordAccs (s : State) (k : Nat) (op : AsyncOp) (reason : Nat) (xs : List Acc) : State :=
  s.recordFail k op.team op.order fun b => xs.foldl (fun b x =>
    if op.kind.lanes then b.failLane x.lane reason x.va else b.failAccess reason x.va) b

/-! ### Completion -/

/-- Marks the slot that an operation reserved, unless a bind has ended the reservation (R149, R347). -/
def State.publish (s : State) (k crew : Nat) (pub : Option (Nat × Nat × Nat)) : State :=
  match pub, (s.core? k).bind fun c => c.crews.get crew with
  | some (q, j, b), some w =>
    match w.streams.get q with
    | some st => if st.binding = b ∧ st.resv.contains j then s.setStreams k crew (w.streams.set q (st.mark j)) else s
    | none => s
  | _, _ => s

def sat16 (n : Nat) : Nat := min n 65535

/-- The sample record of a sampled instruction (R173). The queue times beyond the core are figures of the hardware's own
timing. -/
def State.sample (s : State) (k : Nat) (op : AsyncOp) (last : Nat) : State :=
  match s.team? k op.team with
  | some tm =>
    if op.sampled ∧ tm.smp ∧ tm.order = op.order then
      let q := fun j => if j = 3 then sat16 op.heldNs else sat16 (Config.report s.fresh j)
      s.emitFor k op.team op.split 2 op.pc
        (last % 65536 * 2 ^ 48 + sat16 op.replays * 2 ^ 32 + sat16 op.sectors.length * 2 ^ 16 + op.nlanes % 65536)
        (q 0 * 2 ^ 48 + q 1 * 2 ^ 32 + q 2 * 2 ^ 16 + q 3) (s.tstamp - op.issuedAt).toNat
    else s
  | none => s

/-- A release at port scope: every write performed before it is performed there too (R206, R209). -/
def State.portRelease (s : State) : State := { s with portOld := [] }

/-- The bytes of local memory at a place, as LOC words of core `k` name them. -/
def State.locRange (s : State) (k : Nat) (pl : Place) (n : Nat) : List LocRange :=
  match pl with
  | .shared j a => if j = k then [⟨false, a, n⟩] else []
  | .die _ a => match (s.ctxOf k).bind fun x => x.2.dieWin.get (dieOf k) with
    | some w => [⟨true, a - w.1, n⟩]
    | none => []
  | _ => []

/-- The same of a run of bytes at a VA. -/
def State.vaRange (s : State) (k : Nat) (region : Nat × Nat) (va n : Nat) : List LocRange :=
  if inLocalWin va then (match s.resolve k region va n .r none with
    | .at' pl => s.locRange k pl n
    | _ => [])
  else []

/-- The team at a position of a core is still the one that issued an operation. -/
def State.stillTeam (s : State) (k t order : Nat) : Bool := (s.team? k t).any fun tm => tm.order == order

/-- What comes before an access of operation `x` of a split to some ranges of local memory (R206, R208): the split's earlier
accesses to their words, those up to an acquire that it issued earlier, and, where `acq` says that the access follows the
operation's own acquire, its earlier writes at that scope. -/
def State.engBefore (s : State) (k t order p x : Nat) (acq : Bool) (scope : Nat) (rs : List LocRange) : State :=
  if !s.stillTeam k t order then s
  else
    let s := (s.settleRanges k t p x rs).settleUpTo k t p x (·.hold)
    if !acq || scope == 0 then s
    else if scope = 1 then s.teamRelease k t p x
    else (if scope = 6 then s.portRelease else s).settleUpTo k t p x (·.writesMem)

/-- A release of operation `x` of a split (R205, R206): of the split's earlier accesses, and at port scope of what is
performed. -/
def State.engRelease (s : State) (k t order p x : Nat) (rel : Bool) (scope : Nat) : State :=
  if !rel then s
  else
    let s := if s.stillTeam k t order then s.releaseLocal k t p x scope else s
    if scope = 6 then s.portRelease else s

/-- Forms whose results are placed in the shared store. -/
def AKind.places : AKind → Bool
  | .gather | .ldBlk | .atomM _ => true
  | _ => false

/-- What comes before a part of an operation is served. -/
def State.partBefore (s : State) (k x : Nat) (op : AsyncOp) (p : Part) : State :=
  let region := s.regionOf k op.crew
  let rs := p.accs.flatMap fun y => (if op.kind.places then [⟨false, y.loc, y.len⟩] else []) ++
    (if p.target = 8 then s.vaRange k region y.va y.len else [])
  s.engBefore k op.team op.order op.split x (op.acq && op.parts.length == op.nextPart) op.scope rs

/-- Another lane of a `scatter` that names an address of a part, and is lower, is still to be written (R153). -/
def AsyncOp.lowerLane (op : AsyncOp) (p : Part) : Bool :=
  op.kind == .scatter && op.parts.any fun q => q.i != p.i && q.target == p.target &&
    q.accs.any fun z => p.accs.any fun y => z.va == y.va && decide (z.lane < y.lane)

/-- An operation with no part left completes: its release at port scope takes effect, its cost leaves the estimate, its slot
is published, its sample is written. -/
def State.finishOp (s : State) (k x last : Nat) : State :=
  match s.async? k x with
  | none => s
  | some op =>
    if !op.parts.isEmpty then s
    else
      let s := (s.updCore k fun c => { c with asyncs := c.asyncs.del x }).dropItem k op.item
      let s := s.engRelease k op.team op.order op.split x op.rel op.scope
      (s.publish k op.crew op.pub).sample k op last

/-- Bytes of an operation are done: they leave its barrier, with `error` when some of them failed (R146). -/
def State.settleBytes (s : State) (k bar n : Nat) (failed : Bool) : State :=
  s.barEvent k bar fun b => { b with bytes := b.bytes - n, error := b.error || failed }

/-- The part numbered `i`. -/
def AsyncOp.part? (op : AsyncOp) (i : Nat) : Option Part := op.parts.find? fun p => p.i == i

def State.dropPart (s : State) (k x i : Nat) : State :=
  (s.updAsync k x fun op => { op with parts := op.parts.filter fun p => p.i != i }).forgetPart (partId k x i)

/-- The last lane of a part: 0xFFFF for a form without lanes (R173). -/
def lastLane (op : AsyncOp) (p : Part) : Nat :=
  if op.kind.lanes then (match p.accs.getLast? with | some x => x.lane | none => 0) else 65535

/-- The bytes of a part that have not left the barrier. -/
def Part.bytesLeft (p : Part) : Nat := sumOf (p.accs.map fun x => if x.done then 0 else x.len)

/-- A part fails (R151): its bytes are subtracted, `error` is set, the failure is recorded, and its local bytes stay. -/
def State.failPart (s : State) (k x : Nat) (op : AsyncOp) (p : Part) (reason : Nat) : State :=
  let s := s.recordAccs k op reason (p.accs.filter fun x => !x.done)
  ((s.dropPart k x p.i).settleBytes k op.bar p.bytesLeft true).finishOp k x (lastLane op p)

/-- The link that a place is reached by, if any. -/
def Place.link : Place → Option Nat
  | .mem pa => if isHbm pa then none else some 1
  | .port kind link _ _ => some (portLink kind link)
  | _ => none

/-- The port entry's kind, and the link, that an access of an operation goes by. -/
def State.portOf (s : State) (k : Nat) (op : AsyncOp) (x : Acc) : Option (Nat × Nat) :=
  match s.resolve k (s.regionOf k op.crew) x.va x.len op.kind.need op.kind.port with
  | .at' (.port kind link _ _) => some (kind, portLink kind link)
  | _ => none

/-- A part goes by link `l`. -/
def State.usesLink (s : State) (k : Nat) (op : AsyncOp) (p : Part) (l : Nat) : Bool :=
  (p.target == 9 && l == 1) ||
    (p.target == 10 && p.accs.any fun x => (s.portOf k op x).any fun e => e.2 == l)

/-- The link that a part needs, if any, serves. -/
def State.linkServes (s : State) (k : Nat) (op : AsyncOp) (p : Part) : Bool :=
  if p.target = 9 then (s.link 1).serves
  else if p.target = 10 then p.accs.all fun x => match s.portOf k op x with
    | some e => (s.link e.2).serves
    | none => true
  else true

/-- The function of the context that a core belongs to. -/
def State.fnOf (s : State) (k : Nat) : Nat :=
  match s.ctxOf k with
  | some (_, x) => x.fn
  | none => 0

/-- A sent part can be served: its slots of the calendar have come (R19), its stack serves it, its link serves, no `fence.m`
holds it back, and the last part of a release follows the releases before it (R211); free work of a context that is being
vacated is abandoned (R257). -/
def State.partReady (s : State) (k : Nat) (op : AsyncOp) (p : Part) : Bool :=
  p.state == .sent && p.waits == 0 && (op.item.isSome || !s.abandons k) && !op.lowerLane p &&
    (decide (7 < p.target) || p.accs.all fun x => s.stackReady (s.fnOf k) p.id x.pa) && s.linkServes k op p &&
    (match s.core? k with
     | some c => !c.fenced op && (!op.rel || decide (1 < op.parts.length) || c.clear op.relW)
     | none => false)

/-- The rows that the accesses of a part activate (R243). -/
def State.activatePart (s : State) (k : Nat) (p : Part) : State :=
  if p.target ≤ 7 then p.accs.foldl (fun s x => s.activate (s.fnOf k) x.pa) s else s

/-- The bytes an access of main memory reads: those of the words performed before a later write as they were (R201). -/
def State.readWords (s : State) (x : Acc) : List Byte :=
  (List.range x.len).map fun i => (Map.get x.pre (x.pa + i)).getD (Memory.get s.mem (x.pa + i))

/-- Before `n` bytes at a PA are written, an outstanding read that can be served may have read any of their words: which it
has is free (R201, R203). -/
def State.preRead (s : State) (a n : Nat) : State :=
  { s with cores := s.cores.map fun e => (e.1, { e.2 with asyncs := e.2.asyncs.mapVals fun op =>
      if op.kind = .gather ∨ op.kind = .ldBlk then { op with parts := op.parts.map fun p =>
        if (decide (p.target ≤ 7) || p.target == 9) && s.partReady e.1 op p then
          { p with accs := p.accs.map fun x : Acc =>
              { x with pre := ((List.range x.len).map fun i => x.pa + i).foldl (fun m b =>
                if decide (a / 4 ≤ b / 4 ∧ b / 4 ≤ (a + n - 1) / 4) && !Map.has m b &&
                    Config.report (s.fresh + 64) (p.id * 2 ^ 40 + b / 4) % 2 == 1 then
                  Map.set m b (Memory.get s.mem b)
                else m) x.pre } }
        else p }
      else op }) }

/-- A posted write of `n` bytes arrives in the memory (R345): a read that has seen some words of its 32-byte sectors as they were
sees the rest of them so too, in all its lanes. -/
def State.preSector (s : State) (a n : Nat) : State :=
  let near := fun (b : Nat) => decide (a / 32 ≤ b / 32 ∧ b / 32 ≤ (a + n - 1) / 32)
  { s with cores := s.cores.mapVals fun co => { co with asyncs := co.asyncs.mapVals fun op =>
      if op.kind.writesMem then op else { op with
        parts := op.parts.map fun p : Part =>
          let seen := fun (b : Nat) => near b && p.accs.any fun x => x.pre.any fun e => e.1 / 32 == b / 32
          { p with accs := p.accs.map fun x : Acc => { x with
              pre := ((List.range x.len).map fun i => x.pa + i).foldl (fun m b =>
                if seen b && !Map.has m b then Map.set m b (Memory.get s.mem b) else m) x.pre } } } } }

/-- The bytes that an access writes and that have not been performed before (R201). -/
def Acc.fresh (x : Acc) (bs : List Byte) : List (Nat × Byte) :=
  (bs.mapIdx fun i b => (x.pa + i, b)).filter fun e => !Map.has x.pre e.1

/-- An engine writes main memory: the write is performed at package scope (R208), and the port engines may see the older bytes
until a release at port scope (R209). -/
def State.engStore (s : State) (a : Nat) (bs : List Byte) : State :=
  let s := s.preRead a bs.length
  { s with
    portOld := ((List.range bs.length).map fun i => a + i).foldl (fun m b =>
      if Map.has m b then m else Map.set m b (Memory.get s.mem b)) s.portOld
    qps := s.rungBells a bs.length }.setPa a bs

/-- An access's write of main memory, but for the words of it that have been performed before (R201). -/
def State.engStoreAcc (s : State) (x : Acc) (bs : List Byte) : State :=
  if x.pre.isEmpty then s.engStore x.pa bs else (x.fresh bs).foldl (fun s e => s.engStore e.1 [e.2]) s

/-- Before `n` bytes at a PA are read or written, an outstanding write of lanes or of a block that can be served may have performed
any of its words there: which it has is free (R201, R203). `me` is the part that comes now. -/
def State.preWrite (s : State) (a n me : Nat) : State :=
  let words := (List.range ((a % 4 + n + 3) / 4)).map fun i => a / 4 + i
  let one := fun (k x : Nat) (op : AsyncOp) (p : Part) (s : State) (y : Acc) => words.foldl (fun s w =>
    let bs := (y.fresh y.data).filter fun e => e.1 / 4 == w
    if !bs.isEmpty && Config.report (s.fresh + 96) (p.id * 2 ^ 40 + w) % 2 == 1 && !s.writeLost y.pa y.len then
      (bs.foldl (fun s e => s.engStore e.1 [e.2]) (s.partBefore k x op p)).updAsync k x fun op => { op with
        parts := op.parts.map fun q : Part => if q.i = p.i then { q with accs := q.accs.map fun z : Acc =>
          if z.lane = y.lane then { z with pre := bs.foldl (fun m e => Map.set m e.1 e.2) z.pre } else z } else q }
    else s) s
  s.cores.foldl (fun s e => e.2.asyncs.foldl (fun s o =>
    if o.2.kind = .scatter ∨ o.2.kind = .stBlk then
      o.2.parts.foldl (fun s p =>
        if p.id != me && (decide (p.target ≤ 7) || p.target == 9) && s.partReady e.1 o.2 p then
          (p.accs.filter fun y => decide (y.pa < a + n ∧ a < y.pa + y.len)).foldl (one e.1 o.1 o.2 p) s
        else s) s
    else s) s) s

/-- The bytes an access reads: none where a unit is lost, or where a window or port refuses it. -/
def State.readAcc (s : State) (k : Nat) (op : AsyncOp) (target : Nat) (x : Acc) : Option (List Byte) :=
  if target ≤ 7 then (if s.isLost x.pa x.len then none else some (s.readWords x))
  else if target = 9 then some (s.readWords x)
  else match s.resolve k (s.regionOf k op.crew) x.va x.len .r (some false) with
    | .at' p => some (s.readAt p x.len)
    | _ => none

/-- An access's bytes written: none where they meet a lost unit, or where a window or port refuses them. -/
def State.writeAcc (s : State) (k : Nat) (op : AsyncOp) (target : Nat) (x : Acc) (bs : List Byte) : Option State :=
  let seen := fun (s : State) => if op.port then s.portSees x.pa x.len else s
  if target ≤ 7 then (if s.writeLost x.pa x.len then none else some (seen ((s.engStoreAcc x bs).heal x.pa x.len)))
  else if target = 9 then some (seen (s.engStoreAcc x bs))
  else match s.resolve k (s.regionOf k op.crew) x.va x.len .w (some true) with
    | .at' p => some (s.writeAt p bs)
    | _ => none

/-- The reason of an access that could not be served at its target. -/
def lateWhy (target : Nat) : Nat := if target ≤ 7 then whyLost else whyProtection

/-- The reads of a part that go through the port window leave the package (R333). -/
def State.askPorts (s : State) (k : Nat) (op : AsyncOp) (p : Part) : State :=
  if p.target = 10 then p.accs.foldl (fun s x => match s.resolve k (s.regionOf k op.crew) x.va x.len .r (some false) with
    | .at' pl => s.askPort pl x.len
    | _ => s) s
  else s

/-- The words that other writes perform before a part's accesses of main memory (R201). -/
def State.preWrites (s : State) (p : Part) : State :=
  if p.target ≤ 7 ∨ p.target = 9 then p.accs.foldl (fun s y => s.preWrite y.pa y.len p.id) s else s

/-- A read part's data is placed in the shared store and leaves the barrier (R152, R153); its lost lanes fail. -/
def State.deliver (s : State) (k x : Nat) (op : AsyncOp) (p : Part) : State :=
  let s := (s.preWrites p).partBefore k x op p
  let rs := p.accs.map fun y => (y, s.readAcc k op p.target y)
  let bad := (rs.filter fun r => r.2.isNone).map (·.1)
  let s := ((s.askPorts k op p).activatePart k p).updCore k fun c =>
    let m := rs.foldl (fun m r => match r.2 with
      | some bs => Regs.setBytes m r.1.loc bs
      | none => m) c.shared
    { c with shared := m }
  let s := if bad.isEmpty then s else s.recordAccs k op (lateWhy p.target) bad
  ((s.dropPart k x p.i).settleBytes k op.bar p.bytesLeft (!bad.isEmpty)).finishOp k x (lastLane op p)

/-- A write part is performed and acknowledged, its accesses in lane order (R152, R153). -/
def State.acknowledge (s : State) (k x : Nat) (op : AsyncOp) (p : Part) : State :=
  let s := (s.preWrites p).partBefore k x op p
  let r := p.accs.foldl (fun (acc : State × List Acc) y => match acc.1.writeAcc k op p.target y y.data with
    | some s => (s, acc.2)
    | none => (acc.1, acc.2 ++ [y])) (s.activatePart k p, [])
  let s := if r.2.isEmpty then r.1 else r.1.recordAccs k op (lateWhy p.target) r.2
  ((s.dropPart k x p.i).settleBytes k op.bar p.bytesLeft (!r.2.isEmpty)).finishOp k x (lastLane op p)

/-! ### Single accesses: channels, the matrix unit, records -/

/-- What one access of an engine comes to: a place, a hold for a page, a failure with its code, or a wait for a plot or a
link. `id` names the engine's operation at the shared units. -/
inductive EngTry where
  | ok (p : Place)
  | hold (page : Nat)
  | fail (code : Nat)
  | busy
  deriving DecidableEq, Repr

def State.engTry (s : State) (k id : Nat) (region : Nat × Nat) (need : Need) (port : Option Bool) (va len : Nat) : EngTry :=
  let r := s.route k region need port va len
  match r.state, s.resolve k region va len need port with
  | .held p, _ => .hold p
  | .failing w, _ => .fail (codeOfWhy w)
  | .sent, .at' (.mem pa) =>
    if !s.stackReady (s.fnOf k) id pa then .busy
    else if r.target = 9 then .ok (.mem pa)
    else if (if need = .w then s.writeLost pa len else s.isLost pa len) then .fail 0x0304
    else .ok (.mem pa)
  | .sent, .at' (.port kind link x y) => if (s.link (portLink kind link)).serves then .ok (.port kind link x y) else .busy
  | .sent, .at' p => .ok p
  | .sent, _ => .busy

/-- A write of an engine at a place that `engTry` gave. -/
def State.engWrite (s : State) (p : Place) (bs : List Byte) : State :=
  match p with
  | .mem pa => (s.engStore pa bs).heal pa bs.length
  | _ => s.writeAt p bs

/-- The same, performed at port scope as well where a `fence.m` asks for it (R209). -/
def State.engWritePort (s : State) (port : Bool) (p : Place) (bs : List Byte) : State :=
  let s := s.engWrite p bs
  match p with
  | .mem pa => if port then s.portSees pa bs.length else s
  | _ => s

/-- The request that an access makes of its plot (R231, R232). -/
def State.engTouch (s : State) (k : Nat) (p : Place) : State :=
  match p, s.ctxOf k with
  | .mem pa, some (c, _) => s.touchFrom k c pa
  | _, _ => s

/-- A wait for a plot: the request is made all the same, and keeps its place (R231). -/
def State.engAsk (s : State) (k id : Nat) (region : Nat × Nat) (need : Need) (va len : Nat) : State :=
  match s.resolve k region va len need none with
  | .at' (.mem pa) => (s.engTouch k (.mem pa)).joinWake pa id
  | _ => s

/-- An access of an engine is made: its page is left in the TLBs (R223), its plot is reached (R232), and it may activate a row
(R243). -/
def State.engDone (s : State) (k va : Nat) (p : Place) : State :=
  let s := (s.fillTlbs k [va]).engTouch k p
  match p with
  | .mem pa => s.activate (s.fnOf k) pa
  | _ => s

/-- Runs of bytes that an engine has used: its operation keeps no place in a plot's queue for them. -/
def State.runsDone (s : State) (k id : Nat) (region : Nat × Nat) (need : Need) (runs : List (Nat × Nat)) : State :=
  runs.foldl (fun s r => match s.resolve k region r.1 r.2 need none with
    | .at' p => s.engDone k r.1 p
    | _ => s) (s.forgetPart id)

/-- Runs of bytes that an engine waits for. -/
def State.runsAsk (s : State) (k id : Nat) (region : Nat × Nat) (need : Need) (runs : List (Nat × Nat)) : State :=
  runs.foldl (fun s r => s.engAsk k id region need r.1 r.2) s

/-- The controllers that a place needs a slot of (R19). -/
def Place.units : Place → List Nat
  | .mem pa => if isHbm pa then [8 + stackOf pa] else []
  | _ => []

/-- The controllers that runs of bytes need a slot of, each once. -/
def State.runUnits (s : State) (k : Nat) (region : Nat × Nat) (need : Need) (runs : List (Nat × Nat)) : List Nat :=
  (runs.flatMap fun r => match s.resolve k region r.1 r.2 need none with
    | .at' p => p.units
    | _ => []).eraseDups

/-- Requests of an engine's operation for slots of the calendar (R19); those of controllers count on the die's links (R175). -/
def State.askSlots (s : State) (k id : Nat) (units : List Nat) : State :=
  match s.ctxOf k with
  | some (c, x) =>
    let s := (units.filter fun u => 8 ≤ u ∧ u < 16).foldl (fun s _ => s.countUnit (linkUnit k) x.fn) s
    { s with calReqs := s.calReqs ++ units.map fun u => ⟨u, x.fn, c, id⟩ }
  | none => s

/-- The reason that a failing access is recorded with (R270). -/
def whyOfCode (c : Nat) : Nat := if c = 0x0302 then 1 else if c = 0x0301 then 2 else if c = 0x0304 then 3 else 4

/-- An access that would fail as a new one waits: its operation has asked for its slots, so it is outstanding, and what a link that
retrains has outstanding is held (R330, R331). -/
def State.linkHolds (s : State) (slots : Option Nat) (code : Nat) : Bool :=
  slots.isSome && code == 0x0303 && (s.link 1).state == .retraining

/-- Reads `n` bytes at a VA of an engine. -/
def State.engRead (s : State) (k id : Nat) (region : Nat × Nat) (va n : Nat) : Except EngTry (List Byte) :=
  match s.engTry k id region .r none va n with
  | .ok p => .ok (s.readAt p n)
  | r => .error r

/-- Reads several runs; the first that cannot be read decides. -/
def State.engReadAll (s : State) (k id : Nat) (region : Nat × Nat) : List (Nat × Nat) → Except EngTry (List (List Byte))
  | [] => .ok []
  | (va, n) :: xs =>
    match s.engRead k id region va n with
    | .error r => .error r
    | .ok b => match s.engReadAll k id region xs with
      | .error r => .error r
      | .ok bs => .ok (b :: bs)

/-! ### Chains as they stand in memory (R157) -/

/-- A transfer record read from its 64 bytes (R157). -/
def ChanRec.read (bs : List Byte) : ChanRec :=
  let w := fun o => ofBytes ((bs.drop o).take 8)
  let h := fun o => ofBytes ((bs.drop o).take 4)
  ⟨w 0, BitVec.ofNat 64 (w 8), w 0x10, w 0x18, h 0x20, h 0x24, h 0x28, h 0x2C, w 0x30, BitVec.ofNat 64 (w 0x38)⟩

def ChanRec.own (r : ChanRec) : Bool := bitAt r.ctl 0
def ChanRec.acq (r : ChanRec) : Bool := bitAt r.ctl 1
def ChanRec.rel (r : ChanRec) : Bool := bitAt r.ctl 2
def ChanRec.scope (r : ChanRec) : Nat := bits r.ctl 5 3

/-- Whether some record of a chain satisfies `f` with its VA, from the one at `va` on, as they stand in memory; one that cannot be
read now may do anything, and so may a chain of more than `n` records. -/
def State.chainAny (s : State) (k : Nat) (region : Nat × Nat) (f : Nat → ChanRec → Bool) : Nat → Nat → Bool
  | 0, _ => true
  | n + 1, va =>
    if va = 0 ∨ va / 2 % 32 ≠ 0 then false
    else match s.resolve k region (va / 64 * 64) 64 .r none with
      | .at' pl =>
        let r := ChanRec.read (s.readAt pl 64)
        r.own && (f (va / 64 * 64) r || s.chainAny k region f n r.next)
      | .absent => true
      | .bad => false

/-- Whether a running chain may still do what `f` says of a record: the current one, or one still to be read. -/
def State.chanMay (s : State) (k : Nat) (c : Chan) (f : Nat → ChanRec → Bool) : Bool :=
  let region := s.regionOf k c.crew
  c.state != .idle && (match c.cur with
    | some r => f c.recVa r || (c.state == .running && s.chainAny k region f 4096 r.next)
    | none => s.chainAny k region f 4096 c.recVa)

/-- The outstanding releases of a team's split, which a later release of it follows (R211 to R215). -/
def State.relsOf (s : State) (k t order p : Nat) : List Nat :=
  match s.core? k with
  | none => []
  | some c =>
    ((c.asyncs.filter fun e => e.2.rel && e.2.team == t && e.2.order == order && e.2.split == p).map (·.1)) ++
    ((c.mats.filter fun e => e.2.rel && e.2.team == t && e.2.torder == order && e.2.split == p).map (·.1)) ++
    ((c.chans.filter fun e => e.2.team == t && e.2.order == order && e.2.split == p && s.chanMay k e.2 fun _ r => r.rel).map (·.2.num))

/-! ### Issue -/

/-- Whether the register that holds the barrier offset lies within the claim (R79, R150). -/
def Team.claimsBar (tm : Team) (bar : BitVec 6) : Bool := decide (bar.toNat < tm.scount)
/-- The barrier offset that a parameter word names (R150). DESIGN CHOICE: all 64 bits of the register are the offset, so one
with a bit above 31 set is outside the claim, while the LANE-class `bar.*` read the low 32 (R41, log entry 72). -/
def At.barOff (a : At) (bar : BitVec 6) : Nat := (a.team.sreg bar.toNat).toNat
/-- A local offset of an async form: a[31:0], as R135. -/
def At.off32 (a : At) (d : Opnd) : Nat := ((a.u d).truncate 32 : W32).toNat

/-- Counts a sampled-class instruction (R173); answers whether it is sampled. -/
def Team.sampleNext (tm : Team) (interval : Nat) : Team × Bool :=
  if tm.smp then
    if interval ≤ tm.smpCount + 1 then ({ tm with smpCount := 0 }, true)
    else ({ tm with smpCount := tm.smpCount + 1 }, false)
  else (tm, false)

/-- A new operation of the issuing split, with nothing in it. -/
def At.newOp (a : At) (s : State) (kind : AKind) (bar size nlanes : Nat) (item : Option Nat) : AsyncOp where
  team := a.t
  order := a.team.order
  split := a.p
  crew := a.team.crew
  kind := kind
  bar := a.region.1 + bar
  size := size
  parts := []
  nextPart := 0
  pub := none
  item := item
  pc := a.pc
  afterW := a.team.fenceW
  afterR := a.team.fenceR
  sampled := false
  nlanes := nlanes
  sectors := []
  replays := 0
  issuedAt := s.tstamp
  acq := false
  rel := false
  scope := 0
  relW := []
  port := false
  heldNs := match a.split.heldAt with
    | some t => (s.tstamp - t).toNat
    | none => 0

/-- The flags of a parameter word (R150, R205). -/
def At.flagged (a : At) (s : State) (op : AsyncOp) (par : XPar) : AsyncOp :=
  { op with acq := par.acq, rel := par.rel, scope := par.scope.toNat
            relW := if par.rel then s.relsOf a.k a.t a.team.order a.p else [] }

/-- Starts an operation (R151): it is numbered, its bytes are added to its barrier, and its parts are sent. -/
def State.startOp (s : State) (k : Nat) (op : AsyncOp) (bytes : Nat) (xs : List Acc) : State :=
  match s.core? k with
  | none => s
  | some c =>
    let ps := numberParts k c.nextX 0 (s.partsOf k op xs)
    let s := s.updCore k fun c =>
      { c with asyncs := c.asyncs.set c.nextX { op with parts := ps, nextPart := ps.length, sectors := sectorsOf ps },
               nextX := c.nextX + 1 }.countAsync
    let s := s.barAdd k op.bar bytes
    (s.sendParts k op ps).finishOp k c.nextX 65535

end Sys2Proof.Machine
end

