-- ==== Sys2Proof/Machine/Async.lean ====
section
/-! DEFINITION. The transfer forms of the ASY class (07 R150 to R156), `fence.m` (R144), `plot.warm` (13 R237) and `scrub`
(13 R241), and the events of the engine that serve them. -/

namespace Sys2Proof.Machine

/-! ### Forms with lane addresses (R153, R154) -/

/-- The index of a lane (R153). -/
def At.index (a : At) (y : Opnd) (par : XPar) (l : Nat) : Int :=
  let v := a.v y l
  match par.w32, par.sx with
  | true, true => v.toInt
  | true, false => v.toNat
  | false, true => ((v.truncate 16 : BitVec 16)).toInt
  | false, false => v.toNat % 2 ^ 16

/-- va[L] (R153). -/
def At.laneVa (a : At) (base : W64) (y : Opnd) (par : XPar) (l : Nat) : Nat :=
  (base + BitVec.ofInt 64 (a.index y par l * 2 ^ par.sh.toNat)).toNat

/-- The slot that a form with `pub` set publishes (R347): none when it breaks a rule, `some none` without `pub`. -/
def pubSlot (qs : Map Stream) (po : BitVec 4) (off : Nat) : Option (Option (Nat × Nat × Nat)) :=
  if !po.getLsbD 3 then some none
  else
    let q := po.toNat % 8
    match qs.get q with
    | none => none
    | some st => match st.openSlot off with
      | none => none
      | some j => some (some (q, j, st.binding))

/-- The slot is reserved for its publication (R347). -/
def State.reserve (s : State) (k crew : Nat) (pub : Option (Nat × Nat × Nat)) : State :=
  match pub, (s.core? k).bind fun c => c.crews.get crew with
  | some (q, j, _), some w =>
    s.setStreams k crew (w.streams.upd q fun st => { st with resv := st.resv ++ [j] })
  | _, _ => s

/-- The streams of a crew as a state has them. -/
def State.streamsOf (s : State) (k crew : Nat) : Map Stream :=
  match (s.core? k).bind fun c => c.crews.get crew with
  | some w => w.streams
  | none => []

/-- A split is held at issue by the 512-packet limit (R151), since now or longer (R173). -/
def At.holdPackets (a : At) (s : State) : Out :=
  .block (s.updSplit a.k a.t a.p fun sp => { sp with heldAt := some (sp.heldAt.getD s.tstamp) }) (.held .packets)

/-- An operation that moves nothing completes at once, with its release and its publication (R131, R155). -/
def At.emptyXfer (a : At) (s : State) (par : XPar) (pub : Option (Nat × Nat × Nat)) : Out :=
  let s := s.engRelease a.k a.t a.team.order a.p a.core.nextX par.rel par.scope.toNat
  .adv (((s.reserve a.k a.team.crew pub).publish a.k a.team.crew pub).updCore a.k (·.countAsync))

/-- Starts a transfer that moves `bytes`: held while the core has 512 packets outstanding (R151), then admitted. -/
def At.startXfer (a : At) (s : State) (commit : State → State) (kind : AKind) (par : XPar) (cost : Bool)
    (pub : Option (Nat × Nat × Nat)) (nlanes bytes : Nat) (xs : List Acc) : Out :=
  if 512 ≤ a.core.packets then a.holdPackets s
  else
    let k := match s.ctxOf a.k with
      | some (_, x) => x.drainCost bytes
      | none => 0
    a.costed s (if cost then some k else none) fun s item =>
      let s := commit s
      let (tm, smp) := a.team.sampleNext a.core.smpint.toNat
      let s := (s.updTeam a.k a.t fun t => { t with smpCount := tm.smpCount }).reserve a.k a.team.crew pub
      let op := a.flagged s (a.newOp s kind (a.barOff par.bar) (2 ^ par.size.toNat) nlanes item) par
      .adv (s.startOp a.k { op with pub := pub, sampled := smp } bytes xs)

/-- An operation only reads its place in local memory (R153, R155), so that it may lie in a staging buffer (R318). -/
def AKind.localRead : AKind → Bool
  | .scatter => true
  | .stBlk => true
  | _ => false

/-- A form with lane addresses on the word in issue: claims, the checks of R151, then the operation, after the split's earlier
accesses to its local words (R208). An empty mask moves
nothing and completes at once (R131). `extra` is how many blocks of `%lanes` elements follow the first. -/
def At.laneForm (a : At) (kind : AKind) (cost : Bool) (extra : Nat) (d x y : Opnd) (par : XPar) (s : State) : Out :=
  if !a.team.claimsBar par.bar then .trap s outsideClaim
  else a.withOps s [d, x, y] [x, d] fun commit os =>
    match os with
    | [x, d] =>
      let size := 2 ^ par.size.toNat
      let off := a.off32 d
      let loc := fun l => off + l * size
      let mis := a.lanes.filter fun l => loc l % size != 0
      let out := a.lanes.filter fun l => decide (a.region.2 < loc (extra * a.team.lanes + l) + size) &&
        !(kind.localRead && a.inStaging (loc l) size)
      match a.barCheck (a.barOff par.bar) with
      | some tr => .trap s tr
      | none =>
        if !mis.isEmpty then .trap s { code := 0x0201, lanes := mis.map fun l => (l, 5, loc l) }
        else if !out.isEmpty then .trap s { code := 0x0202, lanes := out.map fun l => (l, 6, loc l) }
        else
          match (if kind = .gather then pubSlot ((commit s).streamsOf a.k a.team.crew) par.po off else some none) with
          | none => .trap s streamMisuse
          | some pub =>
            let s := s.settleRanges a.k a.t a.p a.core.nextX ((List.range (extra + 1)).flatMap fun i => a.lanes.map fun l =>
              ⟨false, a.region.1 + loc (i * a.team.lanes + l), size⟩)
            let src := fun l => (a.again s).local' (loc l) size
            let xs := a.lanes.map fun l => (⟨l, a.laneVa (a.u x) y par l, a.region.1 + loc l, size, 0,
              if kind = .gather then [] else if extra = 0 then src l else src l ++ src (a.team.lanes + l), false, []⟩ : Acc)
            if xs.isEmpty then a.emptyXfer (commit s) par pub
            else a.startXfer s commit kind par cost pub xs.length (xs.length * size) xs
    | _ => .trap s illegalOperand

/-- R153. -/
def execGather (d x y : Opnd) (par : XPar) (s : State) : Res :=
  onWord s fun a => a.laneForm .gather false 0 d x y par s
/-- R153: the local source is read at issue. -/
def execScatter (d x y : Opnd) (par : XPar) (s : State) : Res :=
  onWord s fun a => a.laneForm .scatter true 0 d x y par s
/-- R154: a compare value follows the operands for `cas`. -/
def execAtomM (d x y : Opnd) (par : XPar) (s : State) : Res :=
  onWord s fun a => a.laneForm (.atomM par.po.toNat) true (if par.po = 10 then 1 else 0) d x y par s

/-! ### Block forms (R155) -/

/-- Segments of up to 4 KiB that do not cross a 4 KiB boundary of the VA, in ascending order: (VA, offset, bytes). -/
def segments : Nat → Nat → Nat → Nat → List (Nat × Nat × Nat)
  | 0, _, _, _ => []
  | n + 1, va, off, len =>
    if len = 0 then []
    else
      let m := min len (4096 - va % 4096)
      (va, off, m) :: segments n (va + m) (off + m) (len - m)

/-- A block form on the word in issue, after the split's earlier accesses to its local words (R208). A length of 0 moves nothing and completes at once
(R155); DESIGN CHOICE: it is neither sampled nor counted for `smpint` (R173), since it has no packet. -/
def At.blkForm (a : At) (store : Bool) (d x y : Opnd) (par : XPar) (s : State) : Out :=
  if !a.team.claimsBar par.bar then .trap s outsideClaim
  else a.withOps s [d, x, y] [x, y, d] fun commit os =>
    match os with
    | [x, y, d] =>
      let va := (a.u x).toNat
      let off := a.off32 d
      let len := a.off32 y
      match a.barCheck (a.barOff par.bar) with
      | some tr => .trap s tr
      | none =>
        if len % 4 ≠ 0 ∨ va % 4 ≠ 0 ∨ off % 4 ≠ 0 then .trap s misaligned
        else if 524288 < len ∨ (a.region.2 < off + len ∧ !(store && a.inStaging off len)) then .trap s outsideClaim
        else
          match (if store then some none else pubSlot ((commit s).streamsOf a.k a.team.crew) par.po off) with
          | none => .trap s streamMisuse
          | some pub =>
            let s := s.settleNear a.k a.t a.p (a.region.1 + off) len
            let xs := (segments 130 va off len).map fun g => (⟨0, g.1, a.region.1 + g.2.1, g.2.2, 0,
              if store then (a.again s).local' g.2.1 g.2.2 else [], false, []⟩ : Acc)
            if len = 0 then a.emptyXfer (commit s) par pub
            else a.startXfer s commit (if store then .stBlk else .ldBlk) par (store && !inLocalWin va) pub 0 len xs
    | _ => .trap s illegalOperand

/-- R155. -/
def execLdBlk (d x y : Opnd) (par : XPar) (s : State) : Res := onWord s fun a => a.blkForm false d x y par s
/-- R155: the local source is read at issue; into a window it is free (R56). -/
def execStBlk (d x y : Opnd) (par : XPar) (s : State) : Res := onWord s fun a => a.blkForm true d x y par s

/-! ### One posted write (R156) -/

/-- R156, R333: kinds 0 and 1 only. -/
def execPortWr (d x : Opnd) (par : XPar) (s : State) : Res :=
  onWord s fun a =>
    if !a.team.claimsBar par.bar then .trap s outsideClaim
    else a.withOps s [d, x] [x, d] fun commit os =>
      match os with
      | [x, d] =>
        let va := (a.u x).toNat
        let size := 2 ^ par.size.toNat
        match a.barCheck (a.barOff par.bar) with
        | some tr => .trap s tr
        | none =>
          match s.resolve a.k a.region va size .w (some true) with
          | .at' (.port kind _ _ _) =>
            if 1 < kind then .trap s protection
            else if va % size ≠ 0 then .trap s misaligned
            else
              let cost := match s.ctxOf a.k with
                | some (_, x) => x.drainCost size
                | none => 0
              if 512 ≤ a.core.packets then a.holdPackets s
              else a.costed s (some cost) fun s item =>
                .adv ((commit s).startOp a.k (a.flagged s (a.newOp s .portWr (a.barOff par.bar) size 0 item) par) size
                  [⟨0, va, 0, size, 0, toBytes size (a.u d).toNat, false, []⟩])
          | _ => .trap s protection
      | _ => .trap s illegalOperand

/-! ### Ordering, hints and scrubbing -/

/-- The solicits of a team that go on, by their numbers (R327: their passes read the directories). -/
def State.solicitsOf (s : State) (k t order : Nat) : List Nat :=
  match s.ctxOf k with
  | some (_, x) => x.censuses.filterMap fun e =>
      if e.2.core = k ∧ e.2.team = t ∧ e.2.order = order ∧ e.2.stage = .counting then e.2.item else none
  | none => []

/-- A team's outstanding writes are to be performed at port scope as well (R144, R209). -/
def Core.toPort (c : Core) (t order : Nat) : Core :=
  { c with
    asyncs := c.asyncs.mapVals fun o => if o.team = t ∧ o.order = order ∧ o.kind.writes then { o with port := true } else o
    mats := c.mats.mapVals fun o => if o.team = t ∧ o.torder = order then { o with port := true } else o
    chans := c.chans.mapVals fun o => if o.team = t ∧ o.order = order then { o with port := true } else o }

/-- R144, R206: what the team issues later waits for the work outstanding now; the split goes on. Lane scope
orders nothing (R216); a release at port scope performs there what is performed, and what is outstanding (R209). -/
def execFenceM (scope : BitVec 3) (acq rel : Bool) (s : State) : Res :=
  onWord s fun a =>
    if scope == 0 then .adv s
    else
      let w := if rel then a.core.workOf a.t a.team.order (·.writes) false true else []
      let r := if acq then a.core.workOf a.t a.team.order (·.reads) true true ++ s.solicitsOf a.k a.t a.team.order else []
      let s := if rel && scope == 6 then s.portRelease.updCore a.k (·.toPort a.t a.team.order) else s
      .adv (s.updTeam a.k a.t fun tm => { tm with
        fenceW := (tm.fenceW.filter a.core.outstanding) ++ w, fenceR := (tm.fenceR.filter a.core.outstanding) ++ r })

/-- A hint (R237): a plot in retention starts to wake, and the access counts for R232; no request waits. -/
def State.hint (s : State) (c pa : Nat) : State :=
  if isHbm pa then
    let p := plotOf pa
    let x := s.plot p
    if x.state = .off then s
    else
      { (s.updCtx c fun y => { y with touched := y.touched ||| BitVec.ofNat 64 (2 ^ p) }) with
        plots := s.plots.set p { x with last := s.tstamp, state := if x.state = .retention then .waking else x.state } }
  else s

/-- The PA of a VA, whatever its leaf permits (R237). -/
def State.anyPa (s : State) (c va : Nat) : Option Nat :=
  match s.leaf c va with
  | some (_, l, e) => some (entryPa e + va % 2 ^ levelShift l)
  | none => none

/-- R237: an absent, malformed, far or window address makes it do nothing. -/
def execPlotWarm (x : Opnd) (s : State) : Res :=
  onWord s fun a =>
    a.withOps s [x] [x] fun commit os =>
      match os, s.ctxOf a.k with
      | [x], some (c, _) =>
        let va := (a.u x).toNat
        match s.anyPa c va with
        | some pa => .adv (((commit s).walkTouch c va).hint c pa)
        | none => .adv (commit s)
      | _, _ => .adv (commit s)

/-- The range that a scrub may take (R241). -/
def scrubRange (lo n : Nat) : Bool :=
  lo % 256 == 0 && n % 256 == 0 && decide (256 ≤ n ∧ n ≤ 2 ^ 30) && isHbm lo && decide (lo % 2 ^ 33 + n ≤ 7 * 2 ^ 30)

/-- A plot in Retention wakes for a scrub; its idle timer is not reset (R241). -/
def State.scrubWake (s : State) (lo : Nat) : State :=
  { s with plots := s.plots.upd (plotOf lo) fun x => if x.state = .retention then { x with state := .waking } else x }

/-- R241: privileged (its decoding refuses a context's code). The pass over the range is one part, and the writes of the report
follow it. -/
def execScrub (d x y : Opnd) (s : State) : Res :=
  onWord s fun a =>
    if !a.team.claimsRun 2 d then .trap s outsideClaim
    else a.withOps s [x, y] [x, y] fun commit os =>
      match os with
      | [x, y] =>
        let lo := (a.u x).toNat
        let n := (a.u y).toNat
        let va := (a.team.sreg (num d)).toNat
        let off := (a.team.sreg (num d + 1)).toNat
        if 62 < num d ∨ !scrubRange lo n ∨ va % 8 ≠ 0 then .trap s illegalOperand
        else match a.barCheck off with
          | some tr => .trap s tr
          | none => .adv (((commit s).startOp a.k (a.newOp s (.scrub va lo n) off 0 0 none) n
            [⟨0, va, 0, n, 0, [], false, []⟩]).scrubWake lo)
      | _ => .trap s illegalOperand

/-- One bit per unit, eight to a byte, in whole words of 64 units (R241). -/
def unitBits (f : Nat → Bool) (n : Nat) : List Byte :=
  toBytes (ceilDiv n 64 * 8) ((List.range n).foldl (fun v i => if f i then v + 2 ^ i else v) 0)

/-- The report of a scrub (R241). Which units on-die ECC had to correct is the memory's own. -/
def State.scrubReport (s : State) (lo n : Nat) : List Byte :=
  let m := n / 256
  if (s.plot (plotOf lo)).state = .off then toBytes 16 0
  else
    let lost := fun i => s.unitLost (lo / 256 + i)
    let fixed := fun i => !lost i && Config.report (s.fresh + 16) i % 2 == 1
    toBytes 4 m ++ toBytes 4 ((List.range m).filter fixed).length ++ toBytes 4 ((List.range m).filter lost).length ++
      toBytes 4 (Config.report (s.fresh + 16) m) ++ unitBits fixed m ++ unitBits lost m

/-- Whether a scrub of a range meets a lost unit (R241). -/
def State.scrubLost (s : State) (lo n : Nat) : Bool :=
  (s.plot (plotOf lo)).state != .off && s.isLost lo n

/-! ### Events of the engine -/

/-- An event on part `i` of operation `x`, if it is there and `ok` holds; else what the part asks for is asked for again. -/
def onPart (s : State) (k x i : Nat) (ok : AsyncOp → Part → Bool) (f : AsyncOp → Part → State) : Res :=
  match s.async? k x with
  | none => .next s
  | some op => match op.part? i with
    | none => .next s
    | some p => .next (if ok op p then f op p else s.rewakePart k p)

/-- The first part of a block operation is the one in progress: bytes go in ascending order (R155). -/
def isFirst (op : AsyncOp) (p : Part) : Bool := op.parts.head?.any fun q => q.i == p.i

/-- R153. -/
def execGatherPacketDeliver (k x i : Nat) (s : State) : Res :=
  onPart s k x i (fun op p => op.kind == .gather && s.partReady k op p) (s.deliver k x)

/-- The units that a scrub's report says were corrected, by on-die ECC and by parity, are counted (R240). -/
def State.scrubCounts (s : State) (report : List Byte) : State :=
  { s with corrected := s.corrected + ofBytes ((report.drop 4).take 4) + ofBytes ((report.drop 12).take 4) }

/-- The pass of a scrub over its range (R241): its bytes but the last 256 leave the barrier, what was corrected is counted (R240),
and the report's writes are sent, cut at 64 KiB. The operation's `size` says from here on whether a unit was lost. -/
def State.scrubPass (s : State) (k x : Nat) (op : AsyncOp) (p : Part) (va lo n : Nat) : State :=
  let bytes := s.scrubReport lo n
  let xs := (cutRun (bytes.length / 65536 + 2) va 0 bytes.length).map fun c =>
    (⟨0, c.1, 0, c.2.2, 0, (bytes.drop c.2.1).take c.2.2, true, []⟩ : Acc)
  let op := { op with size := b2n (s.scrubLost lo n) }
  let ps := numberParts k x op.nextPart (s.partsOf k op xs)
  let s := s.scrubCounts bytes
  let s := (s.forgetPart p.id).updAsync k x fun _ => { op with parts := ps, nextPart := op.nextPart + ps.length }
  (s.sendParts k op ps).settleBytes k op.bar (n - 256) false

/-- A write of the report is done, or has failed: with the last one the last 256 bytes leave the barrier (R241). -/
def State.scrubPiece (s : State) (k x : Nat) (op : AsyncOp) (p : Part) (why : Option Nat) : State :=
  let s := match why with
    | some r => (s.recordAccs k op r p.accs).updAsync k x fun o => { o with size := 1 }
    | none => s
  let last := decide (op.parts.length ≤ 1)
  let s := s.dropPart k x p.i
  if last then (s.settleBytes k op.bar 256 (op.size == 1 || why.isSome)).finishOp k x 65535 else s

/-- The report's bytes written, piece by piece. -/
def State.scrubDone (s : State) (k x : Nat) (op : AsyncOp) (p : Part) (va lo n : Nat) : State :=
  match p.accs with
  | y :: _ =>
    if y.data.isEmpty then s.scrubPass k x op p va lo n
    else match s.writeAcc k op p.target y y.data with
      | some s => s.scrubPiece k x op p none
      | none => s.scrubPiece k x op p (some (lateWhy p.target))
  | [] => s

/-- R241: a scrub that has not passed over its range wakes its plot, which may be in Retention again. -/
def State.scrubRewake (s : State) (k x : Nat) : State :=
  match s.async? k x with
  | some op => match op.kind with
    | .scrub _ lo _ => if op.parts.any fun p => p.accs.any fun y => y.data.isEmpty then s.scrubWake lo else s
    | _ => s
  | none => s

/-- R152: a packet of a `scatter` or a segment of an `st.blk` is acknowledged; a `scrub` has passed over its range, or has a
piece of its report acknowledged (R241). -/
def execWriteAcknowledge (k x i : Nat) (s : State) : Res :=
  let s := s.scrubRewake k x
  onPart s k x i (fun op p => s.partReady k op p && (match op.kind with
    | .scatter => true
    | .stBlk => isFirst op p
    | .scrub _ lo _ => p.accs.any (!·.data.isEmpty) || s.servable lo || (s.plot (plotOf lo)).state == .off
    | _ => false))
    (fun op p => match op.kind with
      | .scrub va lo n => s.scrubDone k x op p va lo n
      | _ => s.acknowledge k x op p)

/-- One lane's atomic (R154): the memory afterwards and the old value. None: its data is lost, or a window refuses it. -/
def State.atomAcc (s : State) (k : Nat) (op : AsyncOp) (code target : Nat) (x : Acc) : Option (State × List Byte) :=
  match s.readAcc k op target x with
  | none => none
  | some old =>
    let r := atomOp code x.len (ofBytes old) (ofBytes (x.data.take x.len)) (ofBytes (x.data.drop x.len))
    match s.writeAcc k op target x (toBytes x.len r) with
    | some s => some (s, old)
    | none => none

/-- A lane of an `atom.m` is done: its bytes leave the barrier, and its part and its operation end with their last lane. -/
def State.laneDone (s : State) (k x : Nat) (op : AsyncOp) (p : Part) (y : Acc) (failed : Bool) : State :=
  let p' := { p with accs := p.accs.map fun z : Acc => if z.lane = y.lane then { z with done := true } else z }
  let s := if p'.accs.all (·.done) then s.dropPart k x p.i
    else s.updAsync k x fun op => { op with parts := op.parts.map fun q : Part => if q.i = p.i then p' else q }
  (s.settleBytes k op.bar y.len failed).finishOp k x y.lane

/-- R154: lanes that name one address in increasing lane order; the old value is written back before its bytes leave the
barrier. -/
def execAtomMPerform (k x lane : Nat) (s : State) : Res :=
  match s.async? k x with
  | none => .next s
  | some op =>
    match op.kind, op.parts.find? fun p => p.accs.any fun y => y.lane == lane && !y.done with
    | .atomM code, some p =>
      match p.accs.find? fun y => y.lane == lane && !y.done with
      | none => .next s
      | some y =>
        if s.partReady k op p && !op.parts.any fun q => q.accs.any fun z => z.va == y.va && !z.done && decide (z.lane < lane) then
          let s := (if p.target ≤ 7 ∨ p.target = 9 then s.preWrite y.pa y.len p.id else s).partBefore k x op p
          match s.atomAcc k op code p.target y with
          | some (s', old) => .next (((if p.target ≤ 7 then s'.activate (s'.fnOf k) y.pa else s').updCore k fun c =>
              { c with shared := Regs.setBytes c.shared y.loc old }).laneDone k x op p y false)
          | none => .next ((s.recordAccs k op (lateWhy p.target) [y]).laneDone k x op p y true)
        else .next (s.rewakePart k p)
    | _, _ => .next s

/-- R155: the segment in progress of an `ld.blk` is placed, or that of an `st.blk` acknowledged. -/
def execBlkSegmentComplete (k x i : Nat) (s : State) : Res :=
  onPart s k x i (fun op p => s.partReady k op p && isFirst op p && (op.kind == .ldBlk || op.kind == .stBlk))
    (fun op p => if op.kind = .ldBlk then s.deliver k x op p else s.acknowledge k x op p)

/-- R156: the port has sent the write. -/
def execPortWrSent (k x : Nat) (s : State) : Res :=
  match s.async? k x with
  | none => .next s
  | some op => match op.parts with
    | p :: _ => .next (if op.kind = .portWr ∧ s.partReady k op p then s.acknowledge k x op p else s)
    | [] => .next s

/-- A pop fails (R151): it leaves the queue, and the record stays at the head. -/
def State.failPop (s : State) (c k x q : Nat) (op : AsyncOp) (p : Part) (why : Nat) : State :=
  ((s.updRecq c q fun rq => { rq with pops := rq.pops.filter fun o => !(o.core == k && o.x == x) }).failPart k x op p
    why).fireBinding c q

/-- R151: a part whose translation failed without recovery, or whose link is gone, fails. A segment of a block form does so in its
turn (R155, R272). -/
def execAsyncPartFail (k x i : Nat) (s : State) : Res :=
  onPart s k x i (fun op p => (match p.state with | .failing _ => true | _ => false) &&
      (isFirst op p || !(op.kind == .ldBlk || op.kind == .stBlk)))
    (fun op p => match p.state, op.kind with
      | .failing r, .scrub _ _ _ => s.scrubPiece k x op p (some r)
      | .failing r, .recPop q => match s.ctxOf k with
        | some (c, _) => s.failPop c k x q op p r
        | none => s
      | .failing r, _ => s.failPart k x op p r
      | _, _ => s)

end Sys2Proof.Machine
end

