-- ==== Sys2Proof/Machine/Channels.lean ====
section
/-! DEFINITION. Copy chains (07 R157 to R161, R348), `ring.wait` (R162), and the events that serve them. -/

namespace Sys2Proof.Machine

def channelBusy : Trap := { code := 0x0205 }

def State.updChan (s : State) (k ch : Nat) (f : Chan → Chan) : State :=
  s.updCore k fun c => { c with chans := c.chans.upd ch f }

def State.chan? (s : State) (k ch : Nat) : Option Chan := (s.core? k).bind fun c => c.chans.get ch

def ChanState.code : ChanState → Nat
  | .idle => 0
  | .running => 1
  | .stopping => 2

/-- R160, R57: bit 0 of the head declares the chain local and free. -/
def execChanGo (n : BitVec 8) (x : Opnd) (s : State) : Res :=
  onWord s fun a =>
    a.withOps s [x] [x] fun commit os =>
      match os with
      | [x] =>
        let head := a.u x
        if (a.core.chans.get n.toNat).any fun c => c.state != .idle then .trap s channelBusy
        else
          let cost := if bitAt head 0 then none else (s.ctxOf a.k).map fun c => c.2.copyCost
          a.costed s cost fun s item =>
            .adv ((commit s).updCore a.k fun c =>
              let ch : Chan := ⟨.running, c.nextX, (head &&& ~~~1#64).toNat, bitAt head 0, a.t, a.p, a.team.order, a.team.crew,
                a.team.kernel, c.teamT a.team, none, 0, false, none, none, none, none, item, a.team.fenceW, a.team.fenceR,
                s.relsOf a.k a.t a.team.order a.p, false, []⟩
              { c with chans := c.chans.set n.toNat ch, nextX := c.nextX + 1 }.countAsync)
      | _ => .trap s illegalOperand

/-- R160: requests a stop of a running channel. -/
def execChanStop (n : BitVec 8) (s : State) : Res :=
  onWord s fun a => .adv (s.updChan a.k n.toNat fun c => if c.state = .running then { c with state := .stopping } else c)

/-- R161: the current record's VA and the state. -/
def execChanState (n : BitVec 8) (x : Opnd) (s : State) : Res :=
  onWord s fun a =>
    if !a.team.claims x then .trap s outsideClaim
    else
      let r := match a.core.chans.get n.toNat with
        | some c => BitVec.ofNat 64 c.recVa ||| BitVec.ofNat 64 c.state.code
        | none => 0
      .adv (a.put s (a.team.setS (num x) r))

/-! ### The walk (R159) -/

/-- An access of a channel, through the region of the crew that started it. -/
def State.chanTry (s : State) (k : Nat) (c : Chan) (need : Need) (port : Option Bool) (va len : Nat) : EngTry :=
  s.engTry k (engId k c.num) (s.regionOf k c.crew) need port va len

def State.chanAsk (s : State) (k : Nat) (c : Chan) (need : Need) (va len : Nat) : State :=
  s.engAsk k (engId k c.num) (s.regionOf k c.crew) need va len

/-- Main memory that `n` bytes at a place lie in. -/
def Place.runs (p : Place) (n : Nat) : List (Nat × Nat) :=
  match p with
  | .mem pa => [(pa, n)]
  | _ => []

/-- A channel as it asks the shared units for accesses beside its segments (R19): 0 the record's or its slot's, 1 those of the next record,
2 the one that clears `own`. -/
def State.chanAgent (s : State) (k : Nat) (c : Chan) (i : Nat) : Agent :=
  ⟨(s.ctxOf k).map (·.1), chanId (4 * engId k c.num + i), linkUnit k⟩

/-- Such an access: it waits for its plot and for its slots. -/
def State.chanOwnTry (s : State) (k : Nat) (c : Chan) (i : Nat) (need : Need) (va len : Nat) : EngTry :=
  match s.chanTry k c need none va len with
  | .ok p => if s.runsReady (s.chanAgent k c i) [] (p.runs len) then .ok p else .busy
  | r => r

/-- Such an access is asked for. -/
def State.chanOwnAsk (s : State) (k : Nat) (c : Chan) (i : Nat) (need : Need) (va len : Nat) : State :=
  match s.resolve k (s.regionOf k c.crew) va len need none with
  | .at' p => (s.engTouch k p).askRuns (s.chanAgent k c i) [] (p.runs len)
  | _ => s

/-- What comes before a channel's access of `n` bytes at a place (R206, R208), and before the first of a record with `acq`. -/
def State.chanBefore (s : State) (k : Nat) (c : Chan) (acq : Bool) (scope : Nat) (p : Place) (n : Nat) : State :=
  s.engBefore k c.team c.order c.split c.num acq scope (s.locRange k p n)

/-- A write of a channel at a place that it may write now. -/
def State.chanWrite (s : State) (k : Nat) (c : Chan) (va : Nat) (p : Place) (bs : List Byte) : State :=
  (((s.forgetPart (engId k c.num)).engDone k va p).chanBefore k c false 0 p bs.length).engWritePort c.port p bs

/-- A write of a channel beside its segments. -/
def State.chanPut (s : State) (k : Nat) (c : Chan) (i va : Nat) (p : Place) (bs : List Byte) : State :=
  (s.chanWrite k c va p bs).forgetPart (s.chanAgent k c i).id

/-- A record releases after its last write (R157, R206). -/
def State.chanRelease (s : State) (k : Nat) (c : Chan) (r : ChanRec) : State :=
  s.engRelease k c.team c.order c.split c.num r.rel r.scope

def ChanRec.twod (r : ChanRec) : Bool := bitAt r.ctl 6
/-- The rows that a record copies. -/
def ChanRec.count (r : ChanRec) : Nat := if r.twod then r.rows else 1
/-- n of R159. -/
def ChanRec.total (r : ChanRec) : Nat := r.count * r.length

/-- Some byte lies both in a source row and in a destination row (R159): for each source row, the first destination row
that ends above its start. -/
def ChanRec.overlaps (r : ChanRec) : Bool :=
  r.length != 0 && (List.range r.count).any fun i =>
    let a := r.src + i * r.sstride
    let j := if r.dstride = 0 then 0 else (a + 1 - r.length - r.dst + r.dstride - 1) / r.dstride
    let b := r.dst + j * r.dstride
    decide (j < r.count ∧ a < b + r.length ∧ b < a + r.length)

/-- A record that breaks R157 (status 3). -/
def ChanRec.bad (r : ChanRec) : Bool :=
  bits r.ctl 63 7 != 0 || (bits r.ctl 2 1 == 0 && bits r.ctl 5 3 != 0) || bits r.ctl 5 3 == 7 ||
    (!r.twod && r.rows != 0) || decide (2 ^ 32 ≤ r.total) || r.cpl % 32 != 0 || r.overlaps

/-- What a channel asked the shared units for is withdrawn. -/
def State.chanForget (s : State) (k : Nat) (c : Chan) : State :=
  (List.range 3).foldl (fun s i => s.forgetPart (s.chanAgent k c i).id) (s.forgetPart (engId k c.num))

/-- The channel goes idle; the copy cost leaves the estimate (R159). -/
def State.chanIdle (s : State) (k ch : Nat) : State :=
  match s.chan? k ch with
  | none => s
  | some c => ((s.dropItem k c.item).chanForget k c).updChan k ch fun c =>
      { c with state := .idle, cur := none, done := 0, wrote := false, page := none, fail := none, pend := none, slots := none,
               item := none, ahead := [] }

/-- A channel is held for a page (R225, R226): what it asked the shared units for is withdrawn. -/
def State.chanHold (s : State) (k ch page : Nat) : State :=
  let s := match s.chan? k ch with
    | some c => s.chanForget k c
    | none => s
  let s := s.updChan k ch fun c => { c with page := some page, slots := none }
  match s.ctxOf k with
  | some (c, _) => s.pageFault c (page * 65536)
  | none => s

/-- The completion slot of a record (R158): the grade is bruised when a fault left bytes written (R159, R264). -/
def slotBytes (status code done : Nat) (wrote : Bool) (recVa : Nat) (tag tstamp : W64) : List Byte :=
  let grade := if status = 1 ∧ wrote = true then 1 else 0
  toBytes 4 (code * 2 ^ 16 + grade * 2 ^ 14 + status * 2 ^ 8 + 1) ++ toBytes 4 done ++ toBytes 8 recVa ++
    toBytes 8 tag.toNat ++ toBytes 8 tstamp.toNat

/-- After a completion of this status the chain goes on at the next record (R159): not where `next` names none. Mark DESIGN CHOICE: a
channel that is told to stop while a completion of status 0 is pending ends with that completion and has no complete(2, 0). -/
def Chan.goesOn (c : Chan) (status : Nat) (r : ChanRec) : Bool :=
  status == 0 && c.state == .running && r.next != 0 && r.next / 2 % 32 == 0

/-- After a completion: the chain goes on, or stops. -/
def State.chanAfter (s : State) (k ch status : Nat) (c : Chan) (r : ChanRec) : State :=
  if c.goesOn status r then
    s.updChan k ch fun c => { c with recVa := r.next, cur := none, done := 0, wrote := false, page := none, pend := none,
                                     slots := none, ahead := [] }
  else s.chanIdle k ch

/-- Clears `own` of the current record (R159), the second write of complete(). -/
def State.chanOwn (s : State) (k ch status code : Nat) (c : Chan) (r : ChanRec) : State :=
  match s.chanOwnTry k c 2 .w (c.recVa + 8) 8 with
  | .ok p => ((s.chanPut k c 2 (c.recVa + 8) p (toBytes 8 (r.ctl &&& ~~~1#64).toNat)).chanAfter k ch status c r)
  | .hold page => (s.updChan k ch fun c => { c with pend := some (status + 16, code) }).chanHold k ch page
  | .busy => (s.updChan k ch fun c => { c with pend := some (status + 16, code) }).chanOwnAsk k c 2 .w (c.recVa + 8) 8
  | .fail _ => s.updChan k ch fun c => { c with pend := some (status + 16, code) }

/-- The slot is written, and then `own` is cleared. Where the chain stops here its item leaves the estimate with the slot (R250). -/
def State.chanSlot (s : State) (k ch status code : Nat) (c : Chan) (r : ChanRec) (p : Place) : State :=
  let s := if c.goesOn status r then s
    else (s.dropItem k c.item).updChan k ch fun c => { c with item := none }
  (s.chanPut k c 0 r.cpl p (slotBytes status code c.done c.wrote c.recVa r.tag s.tstamp)).chanOwn k ch status code c r

/-- The slot of a record with a next one: that one is looked at first, so that a chain whose next record is not handed over stops
here (R250). Its plot or link is waited for under the status 8; where its page is absent, or it cannot be read, the channel meets that
at the next record (R348). -/
def State.chanNext (s : State) (k ch code : Nat) (c : Chan) (r : ChanRec) (p : Place) : State :=
  match s.chanOwnTry k c 1 .r (r.next / 64 * 64 + 8) 8 with
  | .ok q =>
    let s := s.doneRuns (s.chanAgent k c 1) (q.runs 8)
    if bitAt (BitVec.ofNat 64 (ofBytes (s.readAt q 8))) 0 then s.chanSlot k ch 0 code c r p
    else
      let r := { r with next := 0 }
      (s.updChan k ch fun c => { c with cur := some r }).chanSlot k ch 0 code c r p
  | .hold _ => s.chanSlot k ch 0 code c r p
  | .busy => (s.updChan k ch fun c => { c with pend := some (8, code) }).chanOwnAsk k c 1 .r (r.next / 64 * 64 + 8) 8
  | .fail _ => s.chanSlot k ch 0 code c r p

/-- complete() of R159: the slot at `cpl` if it is not zero, then `own`. What cannot be written yet stays pending, with a
status of 16 or more once the slot is written. -/
def State.chanComplete (s : State) (k ch status code : Nat) : State :=
  match s.chan? k ch with
  | none => s
  | some c =>
    match c.cur with
    | none => s.chanIdle k ch
    | some r =>
      if 16 ≤ status then s.chanOwn k ch (status - 16) code c r
      else
        let status := status % 8
        if r.cpl = 0 then s.chanOwn k ch status code c r
        else
          match s.chanOwnTry k c 0 .w r.cpl 32 with
          | .ok p => if c.goesOn status r then s.chanNext k ch code c r p else s.chanSlot k ch status code c r p
          | .hold page => (s.updChan k ch fun c => { c with pend := some (status, code) }).chanHold k ch page
          | .busy => (s.updChan k ch fun c => { c with pend := some (status, code) }).chanOwnAsk k c 0 .w r.cpl 32
          | .fail _ => s.updChan k ch fun c => { c with pend := some (status, code) }

/-- A record that has failed is completed with its code (R159). -/
def State.chanFailed (s : State) (k ch code : Nat) : State :=
  (s.updChan k ch fun c => { c with fail := none }).chanComplete k ch 1 code

/-- The segment in progress: source VA, destination VA and bytes. Mark DESIGN CHOICE: R159 gives segments of up to 4 KiB and
not their places; a segment ends at the row's end and at a 4 KiB boundary of either VA. -/
def ChanRec.segment (r : ChanRec) (done : Nat) : Nat × Nat × Nat :=
  let row := done / r.length
  let off := done % r.length
  let a := r.src + row * r.sstride + off
  let b := r.dst + row * r.dstride + off
  (a, b, min (r.length - off) (min (4096 - a % 4096) (4096 - b % 4096)))

/-- A segment whose places can be served waits for its slots of the calendar first (R19): of the die's copy engine and of the
controllers. -/
def State.chanSlots (s : State) (k ch : Nat) (c : Chan) (p q : Place) : State :=
  let us := (16 + dieOf k) :: (p.units ++ q.units)
  (s.updChan k ch fun c => { c with slots := some us.length }).askSlots k (engId k c.num) us

/-- How much of a source row is left after a segment in the 32-byte sector that the segment ends in: a sector is read in one step
(R345). -/
def ChanRec.sectorLeft (r : ChanRec) (done a n : Nat) : Nat :=
  min (r.length - done % r.length - n) ((32 - (a + n) % 32) % 32)

/-- The bytes of a run in main memory that a segment reads with its own. -/
def Place.after (p : Place) (n : Nat) : Option Place :=
  match p with
  | .mem pa => some (.mem (pa + n))
  | _ => none

/-- A segment is copied and acknowledged; with the last one a release at port scope takes effect. -/
def State.chanCopy (s : State) (k ch : Nat) (stop : Bool) (c : Chan) (r : ChanRec) (a b n : Nat) (p q : Place) : State :=
  let s := (s.chanBefore k c (r.acq && c.done == 0) r.scope p n).chanBefore k c false 0 q n
  let bs := c.ahead.take n ++ (s.readAt p n).drop c.ahead.length
  let left := r.sectorLeft c.done a n
  let ahead := if n < c.ahead.length then c.ahead.drop n else match p.after n with
    | some p' => s.readAt p' left
    | none => []
  let s := ((s.askPort p n).engDone k a p).chanWrite k c b q bs
  let s := s.updChan k ch fun c => { c with done := c.done + n, wrote := true, page := none, slots := none, ahead := ahead }
  if stop then s.chanComplete k ch 2 0
  else if c.done + n = r.total then (s.chanRelease k c r).chanComplete k ch 0 0
  else s

/-- The segment in progress, as far as it can go. `stop` says that the channel is stopping after it; mark DESIGN CHOICE: a segment
that an absent page holds does not finish then, and the record is complete(2, 0) at once. The last segment of a record
that releases follows the releases of the split before it (R211). -/
def State.chanSegment (s : State) (k ch : Nat) (stop : Bool) : State :=
  match s.core? k, s.chan? k ch with
  | some co, some c =>
    match c.cur, c.fail with
    | none, _ => s
    | some _, some code => s.chanFailed k ch code
    | some r, none =>
      let (a, b, n) := r.segment c.done
      match s.chanTry k c .r (some false) a n, s.chanTry k c .w (some true) b n with
      | .fail code, _ => if s.linkHolds c.slots code then s else s.chanFailed k ch code
      | _, .fail code => if s.linkHolds c.slots code then s else s.chanFailed k ch code
      | .hold page, _ => if stop then s.chanComplete k ch 2 0 else s.chanHold k ch page
      | _, .hold page => if stop then s.chanComplete k ch 2 0 else s.chanHold k ch page
      | .ok p, .ok q =>
        if c.slots = none then s.chanSlots k ch c p q
        else if c.slots ≠ some 0 ∨ (c.done + n = r.total ∧ r.rel = true ∧ co.clear c.relW = false) then s
        else s.chanCopy k ch stop c r a b n p q
      | _, _ => (s.chanAsk k c .r a n).chanAsk k c .w b n
  | _, _ => s

/-- A channel's event, when its `fence.m` lets it go on and no vacate has abandoned it. -/
def onChan (s : State) (k ch : Nat) (f : Chan → State) : Res :=
  match s.core? k, s.chan? k ch with
  | some co, some c => .next (if co.clear c.afterR && co.clear c.afterW && !s.abandons k then f c else s)
  | _, _ => .next s

/-- The record that the channel stands at is read, after its acquire, and checked (R159); an absent page holds it there (R348). What
a record wrote before a vacate stays written (R160), so that `wrote` is kept. A record that
is to be copied is left to `go`. -/
def State.chanStart (s : State) (k ch : Nat) (c : Chan) (go : State → State) : State :=
  if c.recVa = 0 ∨ c.recVa / 2 % 32 ≠ 0 then s.chanIdle k ch
  else
    let va := c.recVa / 64 * 64
    match s.chanOwnTry k c 0 .r va 64 with
    | .fail _ => s
    | .hold page => s.chanHold k ch page
    | .busy => s.chanOwnAsk k c 0 .r va 64
    | .ok p =>
      let s := s.chanBefore k c false 0 p 64
      let acq := ChanRec.read (s.readAt p 64)
      let s := s.chanBefore k c acq.acq acq.scope p 64
      let r := ChanRec.read (s.readAt p 64)
      let s := ((s.forgetPart (engId k c.num)).forgetPart (s.chanAgent k c 0).id).engDone k va p
      if !r.own then s.chanIdle k ch
      else
        let s := s.updChan k ch fun c => { c with recVa := va, cur := some r, done := 0, page := none, slots := none, ahead := [] }
        if r.bad then s.chanComplete k ch 3 0
        else if c.isLocal && !inLocalWin r.dst then s.chanComplete k ch 1 0x0301
        else if r.total = 0 then (s.chanRelease k c r).chanComplete k ch 0 0
        else go s

/-- R159: reads and checks the record that the channel stands at. -/
def execChanRecordStart (k ch : Nat) (s : State) : Res :=
  onChan s k ch fun c =>
    if c.state ≠ .running ∨ c.cur.isSome ∨ c.fail.isSome then s else s.chanStart k ch c id

/-- R159: a segment asks for its slots of the calendar, or has them and is acknowledged; or a completion that was held is
written. -/
def execChanSegmentAck (k ch : Nat) (s : State) : Res :=
  onChan s k ch fun c =>
    match c.pend with
    | some (status, code) =>
      if status = 8 then (s.updChan k ch fun c => { c with fail := none }).chanComplete k ch status code
      else if c.fail.isSome then s
      else s.chanComplete k ch status code
    | none => if c.state = .running ∧ c.cur.isSome then s.chanSegment k ch false else s

/-- R160: the last segment of a stopping channel is acknowledged, its completion is written, and it is idle. A channel
stopped before it has read its record reads it now, and completes it with no bytes done. Mark DEDUCED: R160 gives every
stop of a running channel its complete(2, 0). -/
def execChanStopDone (k ch : Nat) (s : State) : Res :=
  onChan s k ch fun c =>
    if c.state ≠ .stopping ∨ c.pend.isSome then s
    else if c.cur.isSome then s.chanSegment k ch true
    else if c.fail.isSome then s
    else s.chanStart k ch c (·.chanComplete k ch 2 0)

/-- The log entry of R348, and the channel is idle. -/
def State.chanLost (s : State) (k ch : Nat) (c : Chan) (code info : Nat) (grade : Nat) : State :=
  match s.ctxOf k with
  | none => s
  | some (cn, x) =>
    let pt := match s.core? k, x.kernels.get c.kernel with
      | some co, some n => (match co.teams.get c.team with
        | some tm => if tm.order = c.order then co.pidtidOf tm (some n) else n.pidtid
        | none => n.pidtid)
      | _, _ => 0
    (s.log cn c.kernel c.teamT 0 grade code 0 (BitVec.ofNat 64 info) pt).chanIdle k ch

/-- The code an access fails with: what the kernel refused or a link lost, else what it meets now. -/
def EngTry.code (t : EngTry) (fail : Option Nat) : Option Nat :=
  match fail, t with
  | some code, _ => some code
  | none, .fail code => some code
  | none, _ => none

/-- R348: a record that cannot be read, or a completion that cannot be written. -/
def execChanRecordUnreadable (k ch : Nat) (s : State) : Res :=
  onChan s k ch fun c =>
    if c.state = .idle then s
    else match c.cur, c.pend with
      | none, _ =>
        let va := c.recVa / 64 * 64
        if c.recVa = 0 ∨ c.recVa / 2 % 32 ≠ 0 then s
        else match (s.chanTry k c .r none va 64).code c.fail with
          | some code => s.chanLost k ch c code va 0
          | none => s
      | some r, some (status, _) =>
        if status = 8 then s else
        let va := if 16 ≤ status ∨ r.cpl = 0 then c.recVa + 8 else r.cpl
        match (s.chanTry k c .w none va (if va = r.cpl then 32 else 8)).code c.fail with
        | some code => s.chanLost k ch c code va (if c.wrote then 1 else 0)
        | none => s
      | some _, none => s

/-- The reason that a request to a port entry completes in error with (R333, R338): a read of kind 0 or 1 as source lost, and a
request to a peer that has not bound it as protection. -/
def portWhy (kind : Nat) (write : Bool) : Option Nat :=
  if kind = 2 then some whyProtection else if write then none else some whySource

/-- The port entry's kind that an access of a channel uses. -/
def State.chanKind (s : State) (k : Nat) (c : Chan) (write : Bool) (va len : Nat) : Option Nat :=
  match s.resolve k (s.regionOf k c.crew) va len (if write then .w else .r) (some write) with
  | .at' (.port kind _ _ _) => some kind
  | _ => none

/-- R333, R338: a request to a port entry completes in error: the segment in progress of a block form, or the record of a chain. -/
def execPortReadFail (k x i : Nat) (s : State) : Res :=
  match s.async? k x with
  | some op => match op.part? i with
    | some p =>
      let why := if p.target = 10 ∧ p.state = .sent ∧ isFirst op p = true ∧ (op.kind = .ldBlk ∨ op.kind = .stBlk) then
          (p.accs.head?.bind fun y => s.portOf k op y).bind fun e => portWhy e.1 (op.kind == .stBlk)
        else none
      .next (match why with
        | some r => s.failPart k x op p r
        | none => s)
    | none => .next s
  | none =>
    match (s.core? k).bind fun c => c.chans.find? fun e => e.2.num == x && e.2.state != .idle with
    | some (ch, c) =>
      let why := match c.cur, c.pend with
        | some r, none =>
          let g := r.segment c.done
          match (s.chanKind k c false g.1 g.2.2).bind (portWhy · false) with
          | some w => some w
          | none => (s.chanKind k c true g.2.1 g.2.2).bind (portWhy · true)
        | _, _ => none
      .next (match why with
        | some w => s.updChan k ch fun c => { c with fail := some (codeOfWhy w) }
        | none => s)
    | none => .next s

/-! ### `ring.wait` (R162) -/

/-- Whether the slot at a place shows `done`. -/
def State.slotDone (s : State) (p : Place) : Bool := (s.readAt p 1).any fun b => b.getLsbD 0

/-- A place can be read now: its plot is Warm, or it is not in main memory. -/
def State.placeReady (s : State) (p : Place) : Bool :=
  match p with
  | .mem pa => s.servable pa
  | _ => true

/-- R162: the slot is read at issue. -/
def execRingWait (x : Opnd) (s : State) : Res :=
  onWord s fun a =>
    a.withOps s [x] [x] fun commit os =>
      match os with
      | [x] =>
        let va := (a.u x).toNat
        if va % 32 ≠ 0 then .trap s misaligned
        else match s.route a.k a.region .r none va 32 with
          | ⟨_, .failing _, _⟩ => .trap s protection
          | ⟨_, .held page, _⟩ =>
            .block (match s.ctxOf a.k with
              | some (c, _) => s.pageFault c (page * 65536)
              | none => s) (.ringPage va false)
          | ⟨_, .sent, _⟩ =>
            let s := commit s
            match s.resolve a.k a.region va 32 .r none with
            | .at' p =>
              let s := (s.fillTlbs a.k [va]).engTouch a.k p
              if s.placeReady p && s.slotDone p then .adv s else .sleep s (.ring va)
            | _ => .sleep s (.ring va)
      | _ => .trap s illegalOperand

/-- R162: a write to the slot is performed and the slot is read again; or the page that a `ring.wait` is held for has been
mapped, and the word issues, or has been refused, and the word traps. A wait that comes true while its team does not issue is
satisfied (R166). -/
def execRingWaitRecheck (k t p : Nat) (s : State) : Res :=
  match s.team? k t, s.split? k t p with
  | some tm, some sp =>
    if sp.state != .waiting then .next s
    else match sp.wait, sp.clause with
      | .ring va, _ =>
        .next (match s.resolve k (s.regionOf k tm.crew) va 32 .r none with
          | .at' pl =>
            if s.placeReady pl && s.slotDone pl then s.advance k t p sp.wlen else s
          | _ => s)
      | .ringPage _ true, some cl =>
        let pc := cl.h + BitVec.ofNat 64 (4 * cl.pos)
        .next (if tm.mayIssue p then (s.release k t p).trap k t p protection pc pc cl.h cl.hdr cl.pos else s)
      | .ringPage va false, some _ =>
        .next (match s.resolve k (s.regionOf k tm.crew) va 32 .r none with
          | .absent => s
          | _ => s.release k t p)
      | _, _ => .next s
  | _, _ => .next s

end Sys2Proof.Machine
end

