-- ==== Sys2Proof/Machine/Hash.lean ====
section
/-! DEFINITION. SHA-384 as FIPS 180-4 gives it, and the extension of a measurement slot (21 R343). -/

namespace Sys2Proof.Machine

/-- The largest r below 2^b + `r` with r^k at most `n`. -/
def iroot (k n : Nat) : Nat → Nat → Nat
  | 0, r => r
  | b + 1, r => if (r + 2 ^ b) ^ k ≤ n then iroot k n b (r + 2 ^ b) else iroot k n b r

/-- The first 80 primes. -/
def shaPrimes : List Nat := (List.range 410).filter fun n => decide (2 ≤ n) && (List.range n).all fun d => d < 2 || n % d != 0

/-- The 80 constants: fractions of cube roots. -/
def shaK : List W64 := shaPrimes.map fun p => BitVec.ofNat 64 (iroot 3 (p * 2 ^ 192) 68 0)
/-- The initial value of SHA-384: fractions of the square roots of the 9th to 16th primes. -/
def sha384Init : List W64 := ((shaPrimes.drop 8).take 8).map fun p => BitVec.ofNat 64 (iroot 2 (p * 2 ^ 128) 68 0)

/-- Big-endian words of 8 bytes. -/
def beWords : Nat → List Byte → List W64
  | 0, _ => []
  | n + 1, bs => BitVec.ofNat 64 (ofBytes (bs.take 8).reverse) :: beWords n (bs.drop 8)

def beBytes (w : W64) : List Byte := (toBytes 8 w.toNat).reverse

/-- The message schedule, from the 16 words of a block; the list grows at its end. -/
def shaSchedule : Nat → List W64 → List W64
  | 0, ws => ws
  | n + 1, ws =>
    let at' := fun i => ws.getD (ws.length - i) 0
    let x := at' 15
    let y := at' 2
    let s0 := x.rotateRight 1 ^^^ x.rotateRight 8 ^^^ x >>> 7
    let s1 := y.rotateRight 19 ^^^ y.rotateRight 61 ^^^ y >>> 6
    shaSchedule n (ws ++ [at' 16 + s0 + at' 7 + s1])

/-- One round on the eight working words. -/
def shaRound (v : List W64) (kw : W64 × W64) : List W64 :=
  match v with
  | [a, b, c, d, e, f, g, h] =>
    let s1 := e.rotateRight 14 ^^^ e.rotateRight 18 ^^^ e.rotateRight 41
    let t1 := h + s1 + (e &&& f ^^^ ~~~e &&& g) + kw.1 + kw.2
    let s0 := a.rotateRight 28 ^^^ a.rotateRight 34 ^^^ a.rotateRight 39
    let t2 := s0 + (a &&& b ^^^ a &&& c ^^^ b &&& c)
    [t1 + t2, a, b, c, d + t1, e, f, g]
  | _ => v

/-- One block. -/
def shaBlock (v : List W64) (bs : List Byte) : List W64 :=
  let ws := shaSchedule 64 (beWords 16 bs)
  List.zipWith (· + ·) v ((List.zip shaK ws).foldl shaRound v)

def shaBlocks : Nat → List W64 → List Byte → List W64
  | 0, v, _ => v
  | n + 1, v, bs => shaBlocks n (shaBlock v (bs.take 128)) (bs.drop 128)

/-- SHA-384 of some bytes: 48 bytes. -/
def sha384 (bs : List Byte) : List Byte :=
  let zeros := (239 - bs.length % 128) % 128
  let m := bs ++ [0x80] ++ List.replicate zeros 0 ++ (toBytes 16 (8 * bs.length)).reverse
  ((shaBlocks (m.length / 128) sha384Init m).flatMap beBytes).take 48

/-- A measurement as its 48 bytes, and back. -/
def measBytes (m : BitVec 384) : List Byte := (toBytes 48 m.toNat).reverse
def ofMeas (bs : List Byte) : BitVec 384 := BitVec.ofNat 384 (ofBytes bs.reverse)

/-- A slot is extended with the digest of a component (R343). -/
def State.extend (s : State) (i : Nat) (digest : List Byte) : State :=
  { s with meas := Regs.set s.meas i (ofMeas (sha384 (measBytes (Regs.get s.meas i) ++ digest))) }

end Sys2Proof.Machine
end

