-- ==== Sys2Proof/Machine/Matrix.lean ====
section
/-! DEFINITION. The matrix unit (10): loops, tile preparation, stores, and the events that perform them. -/

namespace Sys2Proof.Machine

def matrixMisuse : Trap := { code := 0x0206 }

/-- Whether a team holds a tile (R180, R117). -/
def Core.holdsTile (c : Core) (t tile : Nat) : Bool :=
  match c.tiles.get tile with
  | some x => x.team == t && !x.leaving
  | none => false

def State.updTile (s : State) (k tile : Nat) (f : Tile → Tile) : State :=
  s.updCore k fun c => { c with tiles := c.tiles.upd tile f }

/-! ### The registers of the loops (R183, R184) -/

/-- K of a legal pair of formats: elements per step; none for a pair that is not legal (R184). -/
def stepLen (fmt : W64) : Option Nat :=
  let a := bits fmt 3 0
  let b := bits fmt 7 4
  let acc := bitAt fmt 11
  let scaled := bitAt fmt 9 || bitAt fmt 10
  if a = b ∧ a ≤ 1 then (if !acc && !scaled then some 16 else none)
  else if (a = 2 ∨ a = 3) ∧ (b = 2 ∨ b = 3) then (if !acc then some 32 else none)
  else if a = 4 ∧ b = 4 then (if !acc then some 64 else none)
  else if a = 5 ∧ b = 5 then (if acc && !scaled then some 32 else none)
  else if a = 6 ∧ b = 6 then (if acc && !scaled then some 64 else none)
  else none

/-- The format block is legal (R184). -/
def fmtLegal (fmt : W64) : Bool :=
  bits fmt 63 12 == 0 && (bitAt fmt 9 || bitAt fmt 10 || !bitAt fmt 8) && (stepLen fmt).isSome

/-- Reads the run of a loop (R183): none when a register breaks its rule. -/
def Team.loopPar (tm : Team) (n : Nat) (gather : Bool) : Option LoopPar :=
  let r := fun i => tm.sreg (n + i)
  let ok := bits (r 0) 4 0 == 0 && bits (r 1) 4 0 == 0 && bits (r 2) 4 0 == 0 && bits (r 2) 36 32 == 0 &&
    bits (r 3) 31 16 == 0 && bits (r 3) 36 32 == 0 && bits (r 4) 63 32 == 0 && bits (r 4) 4 0 == 0 && fmtLegal (r 5) &&
    (!gather || bits (r 8) 1 0 == 0)
  if ok then
    some { abase := (r 0).toNat, bbase := (r 1).toNat, astride := bits (r 2) 31 0, bstride := bits (r 2) 63 32,
           ainc := bits (r 3) 63 32, binc := bits (r 4) 31 0, count := bits (r 3) 15 0, fmt := r 5,
           ascale := (r 6).toNat, bscale := (r 7).toNat, index := if gather then some (r 8).toNat else none }
  else none

/-- Bytes of one element of `mstore`'s output, doubled (R196). -/
def outHalfBytes (ofmt : Nat) : Nat := if ofmt = 8 then 8 else fmtBits ofmt / 4
def StorePar.ofmt (p : StorePar) : Nat := bits p.mode 3 0
def StorePar.rowBytes (p : StorePar) : Nat := 32 * outHalfBytes p.ofmt
def StorePar.indexed (p : StorePar) : Bool := bitAt p.mode 11
/-- Whether the destination lies in a window, which makes the store free (R197). -/
def StorePar.free (p : StorePar) : Bool := inLocalWin p.dst

/-- Reads the run of `mstore` (R194, R195): none when a register breaks its rule. -/
def Team.storePar (tm : Team) (n : Nat) : Option StorePar :=
  let r := fun i => tm.sreg (n + i)
  let f := bits (r 2) 3 0
  let ok := bits (r 0) 4 0 == 0 && bits (r 1) 63 32 == 0 && bits (r 1) 4 0 == 0 && bits (r 2) 31 13 == 0 &&
    bits (r 2) 6 4 == 0 && decide (f ≤ 6 ∨ f = 8) && (!bitAt (r 2) 11 || bits (r 3) 1 0 == 0)
  if ok then some { dst := (r 0).toNat, ostride := bits (r 1) 31 0, mode := r 2, index := (r 3).toNat } else none

/-! ### Issue (R188, R189) -/

/-- A new held instruction, at the end of the queue. -/
def At.matOp (a : At) (s : State) (x tile bar : Nat) (body : MatBody) (item : Option Nat) (par : MPar) : MatOp where
  order := x
  team := a.t
  split := a.p
  torder := a.team.order
  crew := a.team.crew
  tile := tile
  body := body
  started := false
  begun := false
  step := 0
  group := 0
  row := 0
  paid := 0
  rowsRead := none
  tileRead := none
  page := none
  fail := none
  failVa := 0
  nan := false
  bar := a.region.1 + bar
  item := item
  afterW := a.team.fenceW
  afterR := a.team.fenceR
  pc := a.pc
  acq := par.acq
  rel := par.rel
  scope := par.scope.toNat
  relW := if par.rel then s.relsOf a.k a.t a.team.order a.p else []
  port := false
  slots := none

/-- Queues a held instruction of the issuing split, with `bytes` added to its barrier. -/
def At.queueMat (a : At) (s : State) (tile : Nat) (par : MPar) (body : MatBody) (item : Option Nat) (bytes : Nat) : State :=
  match s.core? a.k with
  | none => s
  | some c =>
    (s.updCore a.k fun co => { co with
      mats := co.mats.set c.nextX (a.matOp s c.nextX tile (a.barOff par.bar) body item par), nextX := c.nextX + 1 }.countAsync).barAdd a.k
      (a.region.1 + a.barOff par.bar) bytes

/-- The checks of R189 in their order, for a run of `n` registers that must start at or below `top`. -/
def At.matCheck (a : At) (tile : Nat) (x : Opnd) (n top : Nat) (bar : BitVec 6) : Option Trap :=
  if top < num x then some illegalOperand
  else if !a.core.holdsTile a.t tile || !a.team.claimsRun n x || !a.team.claimsBar bar then some outsideClaim
  else a.barCheck (a.barOff bar)

/-- The frame of the loops. A count of 0 does nothing (R189); eight held instructions hold the split (R182). DEDUCED: a loop
whose request is held for a page counts among the eight until it completes; and one of count 0 passes while eight are
held, for R189 gives the unit nothing to hold. -/
def loopWord (gather : Bool) (n : BitVec 8) (x : Opnd) (par : MPar) (s : State) : Res :=
  onWord s fun a =>
    match a.matCheck n.toNat x (if gather then 9 else 8) (if gather then 55 else 56) par.bar with
    | some tr => .trap s tr
    | none =>
      match a.team.loopPar (num x) gather with
      | none => .trap s matrixMisuse
      | some l =>
        if l.count = 0 then .adv (s.updCore a.k (·.countAsync))
        else if 8 ≤ a.core.mats.length then .block s (.held .matrix)
        else .adv (a.queueMat (s.updTile a.k n.toNat fun t => { t with run := true }) n.toNat par (.loop l)
          none 16384)

/-- R183 to R189. -/
def execMloop (n : BitVec 8) (x : Opnd) (par : MPar) (s : State) : Res := loopWord false n x par s
/-- R187: the rows of A come through an index list. -/
def execMgloop (n : BitVec 8) (x : Opnd) (par : MPar) (s : State) : Res := loopWord true n x par s

/-- R194 to R197: drain, or free into a window. -/
def execMstore (n : BitVec 8) (x : Opnd) (par : MPar) (s : State) : Res :=
  onWord s fun a =>
    match a.matCheck n.toNat x 4 60 par.bar with
    | some tr => .trap s tr
    | none =>
      match a.team.storePar (num x) with
      | none => .trap s matrixMisuse
      | some p =>
        if 8 ≤ a.core.mats.length then .block s (.held .matrix)
        else
          let bytes := 64 * p.rowBytes
          let cost := if p.free then none else (s.ctxOf a.k).map fun c => c.2.drainCost bytes
          a.costed s cost fun s item => .adv (a.queueMat s n.toNat par (.store p) item bytes)

/-- An earlier instruction on a tile lets a later loop go on (R181): it is done, or an `mstore` to memory that has read
the whole tile. -/
def MatOp.lets (m : MatOp) : Bool :=
  match m.body with
  | .loop _ => false
  | .store p => !p.free && m.tileRead.isSome

/-- Whether the instructions on a tile issued before number `x` let a loop, `mzero` or `mload` go on (R181). -/
def Core.tileFree (c : Core) (tile x : Nat) : Bool :=
  c.mats.all fun m => m.2.tile != tile || decide (x ≤ m.1) || m.2.lets

/-- A tile's progress register (R190). -/
def Tile.progress (t : Tile) : Nat := t.step % 65536 * 65536 + b2n t.run * 32768 + b2n t.err * 16384 + t.group % 8

/-- R193. -/
def execMzero (n : BitVec 8) (s : State) : Res :=
  onWord s fun a =>
    if !a.core.holdsTile a.t n.toNat then .trap s outsideClaim
    else if !a.core.tileFree n.toNat a.core.nextX then .block s (.held .tile)
    else .adv (s.updTile a.k n.toNat fun t => { t with data := [], step := 0, group := 0, run := false, err := false })

/-- R193: the source is read at issue, after the split's earlier accesses (R208). -/
def execMload (n : BitVec 8) (x y : Opnd) (s : State) : Res :=
  onWord s fun a =>
    if !a.core.holdsTile a.t n.toNat then .trap s outsideClaim
    else a.withOps s [x, y] [x, y] fun commit os =>
      match os with
      | [x, y] =>
        let off := (a.u x).toNat
        let st := (a.u y).toNat
        if off % 16 ≠ 0 ∨ st % 16 ≠ 0 then .trap s misaligned
        else if a.region.2 < off + 63 * st + 256 then .trap s outsideClaim
        else if !a.core.tileFree n.toNat a.core.nextX then .block s (.held .tile)
        else
          let s := s.settleRanges a.k a.t a.p a.core.nextX
            ((List.range 64).map fun i => ⟨false, a.region.1 + off + i * st, 256⟩)
          let data := Regs.setMany ([] : Regs 32) ((List.range 4096).map fun e =>
            (e, word32 (Regs.bytes (s.shared a.k) (a.region.1 + off + e / 64 * st + 4 * (e % 64)) 4)))
          .adv ((commit s).updTile a.k n.toNat fun t =>
            { t with data := data, step := 0, group := 0, run := false, err := false })
      | _ => .trap s illegalOperand

/-- R192. -/
def execMrows (d x : Opnd) (s : State) : Res :=
  onWord s fun a =>
    if !a.team.claimsAll [d, x] then .trap s outsideClaim
    else
      let t := (a.u x).toNat
      if 32 ≤ t then .trap s matrixMisuse
      else if !a.core.holdsTile a.t t then .trap s outsideClaim
      else
        let r := match a.core.tiles.get t with
          | some x => x.progress
          | none => 0
        .adv (a.put s (a.team.setS (num d) (BitVec.ofNat 64 r)))

/-! ### The unit (R182, R186, R190, R191) -/

def MatOp.isLoop (m : MatOp) : Bool :=
  match m.body with
  | .loop _ => true
  | .store _ => false

/-- The loop in the unit. -/
def Core.inUnit (c : Core) : Option (Nat × MatOp) := c.mats.find? fun m => m.2.isLoop && m.2.started

/-- The loop in the unit of core `k`, unless a vacate has abandoned it at its progress (R191). -/
def State.loopAt (s : State) (k : Nat) : Option (Nat × MatOp) :=
  if s.abandons k then none else (s.core? k).bind (·.inUnit)

/-- The oldest held loop in the queue: those that wait for a page have left it (R182). -/
def Core.oldestLoop (c : Core) : Option (Nat × MatOp) :=
  (c.mats.filter fun m => m.2.isLoop && m.2.page.isNone && m.2.fail.isNone).foldl (fun b m => match b with
    | none => some m
    | some x => if m.2.order < x.2.order then some m else some x) none

/-- The loop that the unit takes next (R182): the oldest in the queue, but of the loops in the queue that name its tile the one
issued first (R181), which may have come back behind it. -/
def Core.nextLoop (c : Core) : Option (Nat × MatOp) :=
  c.oldestLoop.map fun b => (c.mats.find? fun m =>
    m.2.isLoop && m.2.page.isNone && m.2.fail.isNone && m.2.tile == b.2.tile).getD b

def State.updMat (s : State) (k x : Nat) (f : MatOp → MatOp) : State :=
  s.updCore k fun c => { c with mats := c.mats.upd x f }

/-- R190, R182: the unit takes the next held loop, unless an earlier instruction on its tile or a `fence.m` keeps it. -/
def execMloopStart (k : Nat) (s : State) : Res :=
  match s.core? k with
  | none => .next s
  | some c =>
    match c.inUnit, c.nextLoop with
    | none, some (x, m) =>
      if c.tileFree m.tile x && c.clear m.afterR && !s.abandons k then
        let s := s.updMat k x fun m => { m with started := true, begun := true }
        .next (if m.begun then s else s.updTile k m.tile fun t => { t with step := 0, group := 0, err := false })
      else .next s
    | _, _ => .next s

/-- Four-byte entries of an index list. -/
def indexRuns (va : Nat) : List (Nat × Nat) := (List.range 64).map fun i => (va + 4 * i, 4)

/-- What a loop reads for row group `g` of step `k`: index list (none for `mloop`), then 8 rows of A, 64 columns of B, and
the scales of both (R185). -/
structure GroupIn where
  rows : List Nat
  a : List (List Byte)
  b : List (List Byte)
  sa : List (List Nat)
  sb : List (List Nat)
  deriving DecidableEq, Repr

/-- Scale bytes of a row (R185), one per block of the step. -/
def scaleRuns (base row stride epb bl kk n : Nat) : List (Nat × Nat) :=
  (List.range (ceilDiv n bl)).map fun j => (base + row * (stride * epb / bl) + (kk * n + j * bl) / bl, 1)

/-- Rows of one scale byte each, as numbers. -/
def scaleVals (bs : List (List Byte)) : List Nat := bs.map fun b => ofBytes b

/-- Cuts a list into rows of `n`. -/
def rowsOf {α : Type} (n : Nat) : Nat → List α → List (List α)
  | 0, _ => []
  | k + 1, xs => xs.take n :: rowsOf n k (xs.drop n)

/-- The reads of a row group (R185), as VA and length: A, B, the scales of A and the scales of B. -/
structure GroupRuns where
  a : List (Nat × Nat)
  b : List (Nat × Nat)
  sa : List (Nat × Nat)
  sb : List (Nat × Nat)
  deriving DecidableEq, Repr

def LoopPar.stepElems (l : LoopPar) : Nat := (stepLen l.fmt).getD 0
def LoopPar.blockLen (l : LoopPar) : Nat := if bitAt l.fmt 8 then 32 else 16

def MatOp.groupRuns (m : MatOp) (l : LoopPar) (rows : List Nat) : GroupRuns :=
  let n := l.stepElems
  let bl := l.blockLen
  let epb := if n = 64 then 2 else 1
  let mine := (rows.drop (8 * m.group)).take 8
  { a := mine.map fun r => (l.abase + m.step * l.ainc + r * l.astride, 32)
    b := (List.range 64).map fun c => (l.bbase + m.step * l.binc + c * l.bstride, 32)
    sa := if bitAt l.fmt 9 then mine.flatMap fun r => scaleRuns l.ascale r l.astride epb bl m.step n else []
    sb := if bitAt l.fmt 10 then (List.range 64).flatMap fun c => scaleRuns l.bscale c l.bstride epb bl m.step n else [] }

/-- The rows of A that a loop names (R185, R187): the list it has read, or the one it reads now, or rows 0 to 63. -/
def State.loopRows (s : State) (k x : Nat) (m : MatOp) (l : LoopPar) : Except EngTry (List Nat) :=
  match m.rowsRead, l.index with
  | some r, _ => .ok r
  | none, none => .ok (List.range 64)
  | none, some va => match s.engReadAll k (engId k x) (s.regionOf k m.crew) (indexRuns va) with
    | .ok bs => .ok (bs.map ofBytes)
    | .error e => .error e

/-- The operand reads of a row group, in the order A, B, scales. -/
def State.groupIn (s : State) (k x : Nat) (m : MatOp) (l : LoopPar) : Except EngTry GroupIn :=
  let region := s.regionOf k m.crew
  match s.loopRows k x m l with
  | .error e => .error e
  | .ok rows =>
    let q := m.groupRuns l rows
    let w := ceilDiv l.stepElems l.blockLen
    let id := engId k x
    match s.engReadAll k id region q.a, s.engReadAll k id region q.b, s.engReadAll k id region q.sa,
        s.engReadAll k id region q.sb with
    | .ok a, .ok b, .ok u, .ok v => .ok ⟨rows, a, b, rowsOf w 8 (scaleVals u), rowsOf w 64 (scaleVals v)⟩
    | .error e, _, _, _ => .error e
    | _, .error e, _, _ => .error e
    | _, _, .error e, _ => .error e
    | _, _, _, .error e => .error e

/-- The runs that a loop reads now: its index list until it has that, then those of its row group. -/
def State.loopRuns (s : State) (k x : Nat) (m : MatOp) (l : LoopPar) : List (Nat × Nat) :=
  match s.loopRows k x m l with
  | .error _ => indexRuns (l.index.getD 0)
  | .ok rows =>
    let q := m.groupRuns l rows
    (if m.rowsRead.isNone && l.index.isSome then indexRuns (l.index.getD 0) else []) ++ q.a ++ q.b ++ q.sa ++ q.sb

/-- The VA of the access that an engine fails on (R271): the first of some runs in the refused page, or that cannot be served. -/
def State.failVa (s : State) (k id : Nat) (region : Nat × Nat) (page : Option Nat) (runs : List (Nat × Nat)) : Option Nat :=
  let bad := fun r : Nat × Nat => match page with
    | some p => decide (p = r.1 / 65536 ∨ p = (r.1 + r.2 - 1) / 65536)
    | none => match s.engTry k id region .r none r.1 r.2 with
      | .fail _ => true
      | _ => false
  (runs.find? bad).map (·.1)

/-- The same for a loop. -/
def State.loopFailVa (s : State) (k x : Nat) (m : MatOp) (l : LoopPar) : Nat :=
  (s.failVa k (engId k x) (s.regionOf k m.crew) m.page (s.loopRuns k x m l)).getD (l.abase + m.step * l.ainc)

/-- The `n` element codes of a 32-byte run (R71). -/
def codes (bitsPer n : Nat) (run : List Byte) : List Nat :=
  let x := ofBytes run
  (List.range n).map fun j => elem bitsPer j x

/-- The values of a run with its scales (R185, R70). -/
def scaledVals (fmt n : Nat) (bl : Nat) (scaled : Bool) (run : List Byte) (sc : List Nat) : List FVal :=
  (codes (fmtBits fmt) n run).mapIdx fun j c =>
    if scaled then (readElem fmt c).mul (e8 (sc.getD (j / bl) 0)) else readElem fmt c

/-- One output element of a step (R186). -/
def stepElem (fmt : W64) (n : Nat) (acc : W32) (xs ys : List FVal) (xi yi : List Nat) : W32 :=
  if bitAt fmt 11 then
    let b := fmtBits (bits fmt 3 0)
    wrap 32 (acc.toInt + (List.range n).foldl (fun t j => t + fieldInt (xi.getD j 0) b * fieldInt (yi.getD j 0) b) 0)
  else windowSum (f32 acc :: List.zipWith FVal.mul xs ys)

/-- The 512 elements that a row group commits (R186). -/
def groupOut (t : Tile) (g : Nat) (fmt : W64) (x : GroupIn) : List (Nat × W32) :=
  let n := (stepLen fmt).getD 0
  let bl := if bitAt fmt 8 then 32 else 16
  let fa := bits fmt 3 0
  let fb := bits fmt 7 4
  let cols := (List.range 64).map fun c =>
    (scaledVals fb n bl (bitAt fmt 10) (x.b.getD c []) (x.sb.getD c []), codes (fmtBits fb) n (x.b.getD c []))
  (List.range 8).flatMap fun i =>
    let xs := scaledVals fa n bl (bitAt fmt 9) (x.a.getD i []) (x.sa.getD i [])
    let xi := codes (fmtBits fa) n (x.a.getD i [])
    cols.mapIdx fun c y =>
      let e := 64 * (8 * g + i) + c
      (e, stepElem fmt n (Regs.get t.data e) xs y.1 xi y.2)

/-- A tile that no outstanding loop names is no longer running (R190). -/
def Core.settleRun (c : Core) (tile : Nat) : Core :=
  { c with tiles := c.tiles.upd tile fun t => { t with run := c.mats.any fun m => m.2.tile == tile && m.2.isLoop } }

/-- A held instruction is done: its cost leaves, its place is free, and a leaving tile may be free. -/
def State.matDone (s : State) (k x : Nat) (m : MatOp) : State :=
  ((s.dropItem k m.item).forgetPart (engId k x)).updCore k fun c =>
    (({ c with mats := c.mats.del x }).settleRun m.tile).sweepTiles

/-- Requests that a row group makes of its plots (R185, R187, R231). -/
def State.groupAsk (s : State) (k x : Nat) (m : MatOp) (l : LoopPar) : State :=
  s.runsAsk k (engId k x) (s.regionOf k m.crew) .r (s.loopRuns k x m l)

/-- A held instruction asks for its slots of the calendar (R19). -/
def State.matSlots (s : State) (k x : Nat) (us : List Nat) : State :=
  (s.updMat k x fun m => { m with slots := some us.length }).askSlots k (engId k x) us

/-- What comes before some accesses of a held instruction (R206, R208): its own acquire too, before the first of them. -/
def State.matBefore (s : State) (k x : Nat) (m : MatOp) (first : Bool) (runs : List (Nat × Nat)) : State :=
  s.engBefore k m.team m.torder m.split x (m.acq && first) m.scope
    (runs.flatMap fun r => s.vaRange k (s.regionOf k m.crew) r.1 r.2)

/-- The row group that a loop stands at commits (R186), and its progress moves on; with its last one the loop completes and its
16,384 bytes leave the barrier. -/
def State.groupCommit (s : State) (k x : Nat) (m : MatOp) (l : LoopPar) (t : Tile) (i : GroupIn) : State :=
  let s := s.runsDone k (engId k x) (s.regionOf k m.crew) .r (s.loopRuns k x m l)
  let out := groupOut t m.group l.fmt i
  let step := if m.group = 7 then m.step + 1 else m.step
  let group := if m.group = 7 then 0 else m.group + 1
  let s := s.updTile k m.tile fun t => { t with data := Regs.setMany t.data out, step := step, group := group }
  let s := s.updMat k x fun m => { m with step := step, group := group, rowsRead := some i.rows, slots := none }
  if step = l.count then (s.settleBytes k m.bar 16384 false).matDone k x m else s

/-- R186: the loop in the unit asks for its slots, and with them commits its row group. -/
def execMloopRowGroupCommit (k : Nat) (s : State) : Res :=
  match s.loopAt k with
  | none => .next s
  | some (x, m) =>
    match m.body, (s.core? k).bind fun c => c.tiles.get m.tile with
    | .loop l, some t =>
      let s0 := s
      let s := if m.slots = some 0 then s.matBefore k x m (m.step == 0 && m.group == 0) (s.loopRuns k x m l) else s
      match s.groupIn k x m l with
      | .error .busy => .next (s0.groupAsk k x m l)
      | .error _ => .next s0
      | .ok i =>
        .next (if m.slots = none then s.matSlots k x (s.runUnits k (s.regionOf k m.crew) .r (s.loopRuns k x m l))
          else if m.slots = some 0 then s.groupCommit k x m l t i
          else s)
    | _, _ => .next s

/-- R191, R182: a loop that meets an absent page leaves the unit; it rejoins the queue behind the loops held now. -/
def execMloopPageFault (k : Nat) (s : State) : Res :=
  match s.loopAt k, s.ctxOf k, s.core? k with
  | some (x, m), some (c, _), some co =>
    match m.body with
    | .loop l =>
      match s.groupIn k x m l with
      | .error (.hold page) =>
        let va := s.loopFailVa k x { m with page := some page } l
        .next ((((s.forgetPart (engId k x)).updMat k x fun m =>
            { m with started := false, page := some page, order := co.nextX, slots := none, failVa := va }).updCore k fun c =>
          { c with nextX := c.nextX + 1 }).pageFault c (page * 65536))
      | _ => .next s
    | .store _ => .next s
  | _, _, _ => .next s

/-- A loop stops on a failure at a VA (R191, R271): `err` in the tile and the barrier, and its bytes subtracted. -/
def State.loopFails (s : State) (k x : Nat) (m : MatOp) (code va : Nat) : State :=
  let s := s.recordFail k m.team m.torder fun b => b.failAccess (whyOfCode code) va
  ((s.updTile k m.tile fun t => { t with err := true }).settleBytes k m.bar 16384 true).matDone k x m

/-- R191: the loop in the unit meets a failure that service cannot mend, or the kernel has refused the page of a loop that
left. -/
def execMloopFailure (k : Nat) (s : State) : Res :=
  match s.core? k with
  | none => .next s
  | some c =>
    match c.mats.find? fun m => m.2.isLoop && m.2.fail.isSome && !s.abandons k with
    | some (x, m) => match m.body, m.fail with
      | .loop _, some code => .next (s.loopFails k x m code m.failVa)
      | _, _ => .next s
    | none =>
      match s.loopAt k with
      | none => .next s
      | some (x, m) => match m.body with
        | .store _ => .next s
        | .loop l => match s.groupIn k x m l with
          | .error (.fail code) => .next (if s.linkHolds m.slots code then s else s.loopFails k x m code (s.loopFailVa k x m l))
          | _ => .next s

/-! ### The store path (R196 to R198) -/

/-- An exact value rounded to an integer and then limited or wrapped (R196). -/
def intOut (r : Rnd) (limit : Bool) (n : Nat) : FVal → Nat
  | .nan => 0
  | .inf neg => (wrap n (if neg then -(2 ^ (n - 1)) else 2 ^ (n - 1) - 1)).toNat
  | .fin neg m e =>
    let y := roundInt r neg m e
    (wrap n (if limit then sat y (-(2 ^ (n - 1))) (2 ^ (n - 1) - 1) else y)).toNat

/-- A value rounded into a format; with `lim`, an overflow gives the largest finite value of its sign (R196). -/
def floatOut (f : Fmt) (r : Rnd) (lim : Bool) (x : FVal) : Nat :=
  let c := f.write r x
  match x with
  | .fin neg _ _ => if lim && c % f.signCode true == f.infCode then f.signCode neg + f.infCode - 1 else c
  | _ => c

/-- The value that `mstore` converts (R196). -/
def storeValue (mode : W64) (w : W32) : FVal :=
  let x := if bitAt mode 12 then FVal.ofInt w.toInt 0 else f32 w
  if bitAt mode 10 then x.mul (f32 (BitVec.ofNat 32 (bits mode 63 32))) else x

/-- convert(x) of R196: the element's code. -/
def storeCode (mode : W64) (w : W32) : Nat :=
  let f := bits mode 3 0
  let r := Rnd.ofCode (bits mode 8 7)
  let lim := bitAt mode 9
  let x := storeValue mode w
  if f = 0 then floatOut .f16 r lim x
  else if f = 1 then floatOut .bf16 r lim x
  else if f ≤ 4 then writeElem r f x
  else if f = 5 then intOut r lim 8 x
  else if f = 6 then intOut r lim 4 x
  else if !bitAt mode 10 then w.toNat
  else if bitAt mode 12 then intOut r lim 32 x
  else floatOut .f32 r lim x

/-- The bytes of row i (R196). -/
def storeRow (mode : W64) (data : Regs 32) (i : Nat) : List Byte :=
  let w := if bits mode 3 0 = 8 then 32 else fmtBits (bits mode 3 0)
  toBytes (8 * w) ((List.range 64).foldl (fun v c => v + storeCode mode (Regs.get data (64 * i + c)) * 2 ^ (w * c)) 0)

/-- Whether a row converts a NaN to e2m1n (R73). -/
def rowNan (mode : W64) (data : Regs 32) (i : Nat) : Bool :=
  (List.range 64).any fun c => setsInv (bits mode 3 0) (storeValue mode (Regs.get data (64 * i + c)))

/-- The rows' indices of a store: its list, once read. -/
def State.storeRows (s : State) (k x : Nat) (m : MatOp) (p : StorePar) : Except EngTry (List Nat) :=
  match m.rowsRead with
  | some r => .ok r
  | none =>
    if p.indexed then
      match s.engReadAll k (engId k x) (s.regionOf k m.crew) (indexRuns p.index) with
      | .ok bs => .ok (bs.map ofBytes)
      | .error e => .error e
    else .ok (List.range 64)

/-- The VA of a store's next row (R195). -/
def MatOp.rowVa (m : MatOp) (p : StorePar) (rows : List Nat) : Nat := p.dst + rows.getD m.row 0 * p.ostride

/-- The places of a row's pieces with their VAs, in ascending order. A free store stays within its destination's window (R197). -/
def State.rowPlaces (s : State) (k x : Nat) (m : MatOp) (p : StorePar) (rows : List Nat) :
    Except EngTry (List (Place × Nat × Nat × Nat)) :=
  let va := m.rowVa p rows
  if p.free && winOf va * 256 + va / 2 ^ 40 % 256 != winOf p.dst * 256 + p.dst / 2 ^ 40 % 256 then
    .error (.fail 0x0301)
  else (segments 3 va 0 p.rowBytes).foldr (fun g r => match r with
    | .error e => .error e
    | .ok ps => match s.engTry k (engId k x) (s.regionOf k m.crew) .w none g.1 g.2.2 with
      | .ok pl => .ok ((pl, g.1, g.2.1, g.2.2) :: ps)
      | e => .error e) (.ok [])

/-- A store may write its next row: the earlier instructions on its tile are done (R181), no `fence.m` keeps it, and its last row
follows the releases before its own (R211). -/
def Core.storeReady (c : Core) (x : Nat) (m : MatOp) : Bool :=
  (c.mats.all fun y => y.2.tile != m.tile || decide (x ≤ y.1)) && c.clear m.afterW && c.clear m.afterR &&
    (!m.rel || m.row != 63 || c.clear m.relW)

/-- The bytes of a store's row leave its barrier, once (R197). -/
def State.settleRow (s : State) (k : Nat) (m : MatOp) (n : Nat) (failed : Bool) : State :=
  s.settleBytes k m.bar (if m.paid ≤ m.row then n else 0) failed

/-- The next row of a store is done. After the last the instruction completes: `fflags.inv` follows (R73), and a release at port
scope (R188, R209). -/
def State.rowDone (s : State) (k x : Nat) (m : MatOp) : State :=
  if m.row = 63 then
    ((s.engRelease k m.team m.torder m.split x m.rel m.scope).updTeam k m.team fun tm =>
      if tm.order = m.torder then tm.orInv m.nan else tm).matDone k x m
  else (s.forgetPart (engId k x)).updMat k x fun _ =>
    { m with row := m.row + 1, paid := max m.paid (m.row + 1), page := none, fail := none, slots := none }

/-- What a store converts: the tile as it read it, or the tile it holds (R181). -/
def MatOp.source (m : MatOp) (t : Tile) : Regs 32 := m.tileRead.getD t.data

/-- What a store needs to write its next row: its list of rows and the row's places. -/
def State.rowIn (s : State) (k x : Nat) (m : MatOp) (p : StorePar) :
    Except EngTry (List Nat × List (Place × Nat × Nat × Nat)) :=
  match s.storeRows k x m p with
  | .error e => .error e
  | .ok rows => match s.rowPlaces k x m p rows with
    | .error e => .error e
    | .ok ps => .ok (rows, ps)

/-- Requests that a store makes of its plots (R231): for its index list, or for its row. -/
def State.rowAsk (s : State) (k x : Nat) (m : MatOp) (p : StorePar) : State :=
  let region := s.regionOf k m.crew
  match s.storeRows k x m p with
  | .error _ => s.runsAsk k (engId k x) region .r (indexRuns p.index)
  | .ok rows => s.runsAsk k (engId k x) region .w ((segments 3 (m.rowVa p rows) 0 p.rowBytes).map fun g => (g.1, g.2.2))

/-- The controllers that a row needs a slot of (R19): those of its pieces, and of the index list where it is to be read. -/
def State.rowUnits (s : State) (k : Nat) (m : MatOp) (p : StorePar) (ps : List (Place × Nat × Nat × Nat)) : List Nat :=
  ((if m.rowsRead.isNone && p.indexed then s.runUnits k (s.regionOf k m.crew) .r (indexRuns p.index) else []) ++
    ps.flatMap fun g => g.1.units).eraseDups

/-- A row is converted, written and acknowledged (R196). -/
def State.rowWrite (s : State) (k x : Nat) (m : MatOp) (p : StorePar) (t : Tile) (rows : List Nat)
    (ps : List (Place × Nat × Nat × Nat)) : State :=
  let data := m.source t
  let row := storeRow p.mode data m.row
  let s := if m.rowsRead.isNone && p.indexed then s.runsDone k (engId k x) (s.regionOf k m.crew) .r (indexRuns p.index) else s
  let s := ps.foldl (fun s g => (s.engDone k g.2.1 g.1).engWritePort m.port g.1 ((row.drop g.2.2.1).take g.2.2.2)) s
  let m := { m with rowsRead := some rows, tileRead := if p.free then none else some data,
                    nan := m.nan || rowNan p.mode data m.row }
  (s.settleRow k m p.rowBytes false).rowDone k x m

/-- The VA that a failed row is recorded with (R271): the row's, or that of the entry of its index list that cannot be read. -/
def State.rowFailVa (s : State) (k x : Nat) (m : MatOp) (p : StorePar) : Nat :=
  match s.storeRows k x m p with
  | .ok rows => m.rowVa p rows
  | .error _ => (s.failVa k (engId k x) (s.regionOf k m.crew) m.page (indexRuns p.index)).getD p.index

/-- R196: a store asks for its slots of the calendar, and with them writes its row; an absent page holds it there (R198). -/
def execMstoreRowAck (k x : Nat) (s : State) : Res :=
  match s.core? k, (s.core? k).bind fun c => c.mats.get x, s.ctxOf k with
  | some c, some m, some (cn, _) =>
    match m.body, c.tiles.get m.tile with
    | .store p, some t =>
      if !c.storeReady x m || m.fail.isSome || (m.item.isNone && s.abandons k) then .next s
      else
        match s.rowIn k x m p with
        | .error (.hold page) =>
          let va := s.rowFailVa k x { m with page := some page } p
          .next (((s.forgetPart (engId k x)).updMat k x fun m =>
            { m with page := some page, slots := none, failVa := va }).pageFault cn (page * 65536))
        | .error .busy => .next (s.rowAsk k x m p)
        | .error _ => .next s
        | .ok (rows, ps) =>
          .next (if m.slots = none then s.matSlots k x (s.rowUnits k m p ps)
            else if m.slots = some 0 then
              (s.matBefore k x m (m.row == 0) ((if m.rowsRead.isNone && p.indexed then indexRuns p.index else []) ++
                (ps.map fun g => (g.2.1, g.2.2.2)))).rowWrite k x m p t rows ps
            else s)
    | _, _ => .next s
  | _, _, _ => .next s

/-- R198: a row fails; its bytes are subtracted and `err` is set in the barrier and in the tile. Mark DESIGN CHOICE: R73 does
not say whether a NaN of a row that fails sets `fflags.inv`; only rows that were written count here. -/
def execMstoreRowFail (k x : Nat) (s : State) : Res :=
  match s.core? k, (s.core? k).bind fun c => c.mats.get x with
  | some c, some m =>
    match m.body, c.tiles.get m.tile with
    | .store p, some t =>
      if !c.storeReady x m || (m.item.isNone && s.abandons k) then .next s
      else
        let code := match m.fail, s.rowIn k x m p with
          | some code, _ => some code
          | none, .error (.fail code) => if s.linkHolds m.slots code then none else some code
          | none, _ => none
        match code with
        | none => .next s
        | some code =>
          let va := if m.fail.isSome then m.failVa else s.rowFailVa k x m p
          let s := s.recordFail k m.team m.torder fun b => b.failAccess (whyOfCode code) va
          let s := s.updTile k m.tile fun t => { t with err := true }
          let m := { m with tileRead := if p.free then none else some (m.source t) }
          .next ((s.settleRow k m p.rowBytes true).rowDone k x m)
    | _, _ => .next s
  | _, _ => .next s

end Sys2Proof.Machine
end

