-- ==== Sys2Proof/Machine/Save.lean ====
section
/-! DEFINITION. What a vacate saves in a layout that the manual gives (06 R109, 19 R308), the size of the save area (14 R246), and the
runs of bytes that stay pinned for a context (13 R219). -/

namespace Sys2Proof.Machine

/-- The codes of the states of an entry (R308). -/
def DirState.code : DirState → Nat
  | .resident => 1
  | .movingOut => 2
  | .movingIn => 3
  | .stub => 4

/-- The 32 bytes of an entry, as a vacate saves them (R308). -/
def DirEntry.bytes (d : DirEntry) : List Byte :=
  toBytes 8 d.key.toNat ++ toBytes 8 (d.length % 2 ^ 32 * 2 ^ 32 + d.offset % 2 ^ 32) ++
  toBytes 8 (d.kernel % 2 ^ 16 * 2 ^ 48 + d.state.code * 2 ^ 45 + d.crew % 16 * 2 ^ 41 + d.peer % 512 * 2 ^ 32 + d.clause % 2 ^ 32) ++
  toBytes 8 d.answered.toNat

/-- A directory as a vacate saves it: 256 entries, a free one all zero (R308). -/
def Core.dirBytes (c : Core) : List Byte := (List.range 256).flatMap fun e =>
  match c.dir.get e with
  | some d => d.bytes
  | none => toBytes 32 0

/-! ### The save area (R106, R109, R308) -/

/-- The code of a wait (R109). -/
def Wait.code : Wait → Nat
  | .none => 0
  | .bar _ _ => 1
  | .ring _ => 2
  | .ringPage _ _ => 2
  | .sys _ _ _ => 3
  | .claim _ => 4
  | .stream _ _ => 5
  | .admission _ _ => 6
  | .header => 7
  | .held _ => 8
  | .recPush _ _ _ _ => 8
  | .drop _ => 9
  | .phasing => 10
  | .coded n => n

/-- The code of a split's state (R109); a free entry's is 0. -/
def SplitState.code : SplitState → Nat
  | .ready => 1
  | .waiting => 2
  | .parked => 3
  | .parent => 4

/-- A split-table entry as a vacate saves it, followed by its live mask and its execute mask (R109). -/
def Split.bytes (sp : Split) : List Byte :=
  toBytes 8 sp.pc.toNat ++ toBytes 8 sp.join.toNat ++ toBytes 4 sp.depth ++ toBytes 1 sp.state.code ++ toBytes 1 sp.parent ++
    toBytes 1 sp.children ++ toBytes 1 0 ++ toBytes 4 sp.wait.code ++ toBytes 4 0 ++ toBytes 128 sp.live.toNat ++
    toBytes 128 sp.exec.toNat

/-- The split table of a team: 16 entries, a free one all zero (R109). -/
def Team.splitBytes (tm : Team) : List Byte := (List.range 16).flatMap fun e =>
  match tm.splits.get e with
  | some sp => sp.bytes
  | none => toBytes 288 0

/-- What the save of a core holds in a layout that the manual gives: its teams' split tables (R109) and its directory (R308).
The rest of the save area is private (R246) and is kept in `Ctx.saved`. -/
def Core.saveBytes (co : Core) : List Byte := (co.teams.flatMap fun e => e.2.splitBytes) ++ co.dirBytes

/-- The bytes of a context's save: what its cores hold, their control state (4,608 bytes of split table for each team and 8,192 of
directory), and its die windows. -/
def Ctx.saveSize (x : Ctx) (cores : Map Core) : Nat :=
  sumOf (cores.map fun e => e.2.holdBytes x.pool + 4608 * e.2.teams.length + 8192) + sumOf (x.dieWin.map fun w => w.2.2) +
    1024 * x.censuses.length

/-- The cores that a save of the context would hold: those on the package, or the saved ones. -/
def State.saveCores (s : State) (c : Nat) (x : Ctx) : Map Core :=
  (s.cores.filter fun e => e.2.ctx == some c) ++ x.saved

/-- The image bytes of a loaded kernel: its header, code, `const` and `data` (R52). -/
def Kern.imageBytes (kn : Kern) : Nat :=
  let c := ceilDiv (0x40 + 4 * kn.codewords) 64 * 64
  let d := ceilDiv (c + kn.constbytes) 64 * 64
  d + kn.databytes
def Kern.poolBytes (kn : Kern) : Nat := kn.records * kn.rsize

/-- The runs of bytes that stay pinned for a context (R219), but for those of kernel `n` if it is named: the sections and pools of its
loaded kernels, its record queues, its submission queues, its queue pairs, and its save area. -/
def State.pinnedRuns (s : State) (c : Nat) (n : Option Nat) (x : Ctx) : List (Nat × Nat) :=
  ((x.kernels.filter fun e => some e.1 != n && e.2.state != .unloaded).flatMap fun e =>
    [(e.2.image, e.2.imageBytes), (e.2.pool, e.2.poolBytes)]) ++
  (x.recqs.flatMap fun e => [(e.1, 64), (e.2.ring, 64 * e.2.size)]) ++
  ((s.queues.filter fun e => e.2.ctx == some c).flatMap fun e => [(e.2.desc, 128), (e.2.cring, 16 * e.2.size)]) ++
  ((s.qps.filter fun e => e.2.ctx == c).flatMap fun e =>
    [(e.2.sring, 64 * e.2.ssize), (e.2.rring, 32 * e.2.rsize), (e.2.cring, 32 * e.2.csize)]) ++
  [(x.save, max 1 (x.saveSize (s.saveCores c x)))]

end Sys2Proof.Machine
end

