-- ==== Sys2Proof/Machine/Pages.lean ====
section
/-! DEFINITION. The pages of a context and the plots of memory (13 R219 to R244): the resident kernel's writes of table
entries, fault service, invalidation, the states of plots, and row disturbance. -/

namespace Sys2Proof.Machine

/-- The firmware cores and the management core are gated: all cores are, or only one has been restored (R307). -/
def State.asleep (s : State) : Bool := s.gated || s.mgmtGated

/-- The resident kernel runs: it has not crashed (R276), and its cores are not gated (R307). -/
def State.rkUp (s : State) : Bool := s.rk == .up && !s.gated

/-! ### Table entries -/

/-- The PA of a VA's entry at level `target`, from the table of level `l` (R220): none where the path is not there. -/
def entryAt (m : Memory) (va target : Nat) : Nat → Nat → Option Nat
  | 0, table => if target = 0 then some (table + 8 * (va / 2 ^ levelShift 0 % 32)) else none
  | l + 1, table =>
    let a := table + 8 * (va / 2 ^ levelShift (l + 1) % 512)
    if l + 1 = target then some a
    else
      let e := BitVec.ofNat 64 (ofBytes (Memory.bytes m a 8))
      if bitAt e 0 && !bitAt e 1 && entryOk (l + 1) e then entryAt m va target l (entryPa e) else none

/-- The first VA of the region that an entry of a level covers, and its bytes (R220). -/
def regionBase (va level : Nat) : Nat := va / 2 ^ levelShift level * 2 ^ levelShift level
def regionSize (level : Nat) : Nat := 2 ^ levelShift level

/-- The plot of a leaf, 64 for expander memory. -/
def leafPlot (e : W64) : Nat := if bitAt e 58 then 64 else bits e 57 52

/-- The pinned pages of a context after an entry for `va` at a level has been written (R219): pages are known by the number
of their first 64 KiB. -/
def Ctx.repin (x : Ctx) (va level : Nat) (e : W64) : Ctx :=
  let lo := regionBase va level / 65536
  let rest : Map Nat := x.pins.filter fun p => !decide (lo ≤ p.1 ∧ p.1 < lo + regionSize level / 65536)
  { x with pins := if bitAt e 0 && bitAt e 1 && bitAt e 5 then rest.set lo (leafPlot e) else rest }

/-! ### Frames and their owners (R230), and keys (R238) -/

/-- The bytes that must belong to one owner with a frame (R230): its frame group in HBM, itself in expander memory. -/
def frameSpan (pa level : Nat) : Nat × Nat :=
  let n := regionSize level
  if isHbm pa then (plotOf pa * 2 ^ 33 + pa % 2 ^ 33 / (7 * n) * (7 * n), 7 * n) else (pa / n * n, n)

/-- Two runs of bytes meet. -/
def overlap (a b : Nat × Nat) : Bool := decide (a.1 < b.1 + b.2 ∧ b.1 < a.1 + a.2)

/-- The first VA of each 64 KiB that a run of bytes touches. -/
def pageVas (va len : Nat) : List Nat :=
  if len = 0 then [] else (List.range ((va + len - 1) / 65536 - va / 65536 + 1)).map fun i => (va / 65536 + i) * 65536

/-- The VAs of the resident kernel that the 4320 uses: the registry's records (R246) and the rings of privileged queues (R296). -/
def State.rkVas (s : State) : List Nat :=
  ((s.ctxs.filter fun e => e.2.state != .destroyed).map fun e => e.2.recVa) ++
    (s.queues.filter fun e => e.2.ctx.isNone).flatMap fun e =>
      pageVas e.2.desc 128 ++ pageVas e.2.ring (64 * e.2.size) ++ pageVas e.2.cring (16 * e.2.size)

/-- The frames of the resident kernel's own (R230): the pages of those VAs, the tables that map them from its root, and its event
ring (R244). -/
def State.rkFrames (s : State) : List FrameHold :=
  let own := fun (pa level : Nat) => (⟨pa, level, 4096, 4096, 0, 5, false⟩ : FrameHold)
  (s.rkVas.flatMap fun va =>
    (match leafAt s.mem va 4 s.rkRoot with
     | some (_, l, e) => [own (entryPa e) l]
     | none => []) ++ (walkPas s.mem va 4 s.rkRoot).map fun a => own (a / 65536 * 65536) 0) ++
  if s.evSize = 0 then [] else (pageVas s.evBase (32 * s.evSize)).map fun a => own a 0

/-- The frames in use: those that entries name, those of the contexts' root tables, which are the resident kernel's, and its own. -/
def State.holds (s : State) : List FrameHold :=
  s.frameHolds ++ (s.ctxs.filterMap fun e =>
    if e.2.state = .destroyed then none else some ⟨e.2.root / 65536 * 65536, 0, 4096, e.1, 0, 5, false⟩) ++ s.rkFrames

/-- A frame may be given to an owner (R219, R230): nobody else has a frame of its group. -/
def State.grantable (s : State) (owner pa level : Nat) : Bool :=
  s.holds.all fun h => h.owner == owner || !overlap (frameSpan h.pa h.level) (frameSpan pa level)

/-- What is left of a range outside `n` bytes from `pa`. -/
def KeyRange.cut (r : KeyRange) (pa n : Nat) : List KeyRange :=
  (if r.pa < pa then [⟨r.pa, min r.size (pa - r.pa), r.key⟩] else []) ++
    (if pa + n < r.pa + r.size then [⟨max r.pa (pa + n), r.pa + r.size - max r.pa (pa + n), r.key⟩] else [])

/-- A range is encrypted under a key from now on (R238): what another key wrote there is lost. -/
def State.rekey (s : State) (pa n key : Nat) : State :=
  let others := s.keyed.filter fun r => r.key != key
  let gone := fun e : Host.Cell => decide (pa ≤ e.1 ∧ e.1 < pa + n) && others.any fun r => decide (r.pa ≤ e.1 ∧ e.1 < r.pa + r.size)
  { s with
    mem := s.mem.filter fun e => !gone e
    portOld := s.portOld.filter fun e => !gone e
    keyed := s.keyed.flatMap (fun r => r.cut pa n) ++ [⟨pa, n, key⟩] }

/-- The serial of the key of an owner: 0 is the resident kernel's. -/
def State.keyOf (s : State) (owner : Nat) : Nat := if owner = 4096 then 0 else (s.keys.get owner).getD (2 ^ 32 + owner)

/-- The frame that a valid entry names: its PA, its level and its owner. A table is the resident kernel's. -/
def entryFrame (c level : Nat) (e : W64) : Nat × Nat × Nat :=
  if bitAt e 1 then (entryPa e, level, c) else (entryPa e / 65536 * 65536, 0, 4096)

/-- An entry may be written: it is not valid, or its frame may be given to its owner. -/
def State.entryGrant (s : State) (c level : Nat) (e : W64) : Bool :=
  !bitAt e 0 || (let f := entryFrame c level e; s.grantable f.2.2 f.1 f.2.1)

/-- The frame of an entry written is in use, and under its owner's key. -/
def State.holdFrame' (s : State) (c va level : Nat) (e : W64) : State :=
  if !bitAt e 0 then s
  else
    let f := entryFrame c level e
    { s.rekey f.1 (regionSize f.2.1) (s.keyOf f.2.2) with
      frameHolds := s.frameHolds ++ [⟨f.1, f.2.1, f.2.2, c, regionBase va level, level, false⟩] }

/-- The frames that an entry and those below it name are the context's until the invalidation has completed (R224). -/
def State.killFrames (s : State) (c va level : Nat) : State :=
  { s with frameHolds := s.frameHolds.map fun h =>
      if h.ctx = c ∧ h.elevel ≤ level ∧ regionBase va level ≤ h.va ∧ h.va < regionBase va level + regionSize level then
        { h with dead := true }
      else h }

/-- A table entry written, and the pins with it. -/
def State.putEntry (s : State) (c a va level : Nat) (e : W64) : State :=
  (s.setPa64 a e.toNat).updCtx c fun x => x.repin va level e

/-- A plot that must stay Warm leaves Retention (R232). -/
def State.wakePlot (s : State) (p : Nat) : State :=
  { s with plots := s.plots.upd p fun x => if x.state = .retention then { x with state := .waking } else x }

/-- The page of a VA pinned, and executable as well when `x` is set (R219, R40). -/
def State.pinPage (s : State) (c va : Nat) (x : Bool) : State :=
  match s.leaf c va with
  | none => s
  | some (a, l, e) =>
    let e' := e ||| 0x20#64 ||| (if x then 0x10#64 else 0)
    (s.putEntry c a va l e').wakePlot (leafPlot e)

/-- The page of a VA no longer pinned. -/
def State.unpinPage (s : State) (c va : Nat) : State :=
  match s.leaf c va with
  | none => s
  | some (a, l, e) => s.putEntry c a va l (e &&& ~~~0x20#64)

/-! ### Accesses of agents outside the cores (R296, R301, R336) -/

/-- What an access of an agent outside the cores comes to. `busy`: its plot is waking. One to expander memory fails at once where
that link does not serve (R331). -/
inductive VaTry where
  | ok (pa : Nat)
  | absent (va : Nat)
  | bad
  | busy (pa : Nat)
  deriving DecidableEq, Repr

/-- One access within a 64 KiB page, in the tables of a context or of the resident kernel (R296, R222). -/
def State.vaTry (s : State) (c : Option Nat) (va len : Nat) (need : Need) : VaTry :=
  let code := match c.bind s.ctx? with
    | some x => x.inCode va len
    | none => false
  if 2 ^ 57 ≤ va ∨ 0x1FE ≤ winOf va ∨ (need ≠ .r ∧ code = true) then .bad
  else match s.decoded (walk s.mem need va 4 (s.rootOf c)) with
    | .absent => .absent va
    | .bad => .bad
    | .pa pa =>
      if isHbm pa then
        match (s.plot (plotOf pa)).state with
        | .off => .bad
        | .warm => if (need != .r && s.writeLost pa len) || (need != .w && s.isLost pa len) then .bad else .ok pa
        | _ => .busy pa
      else if (s.link 1).serves then .ok pa
      else .bad

/-- A run of bytes cut at 64 KiB boundaries: VA and length of each piece, in order. -/
def vaPieces (va len : Nat) : List (Nat × Nat) :=
  (pageVas va len).map fun p => (max va p, min (va + len) (p + 65536) - max va p)

/-- The first piece of some runs that cannot be served decides; `ok` has no place of its own. -/
def State.vaTryAll (s : State) (c : Option Nat) : List (Nat × Nat × Need) → VaTry
  | [] => .ok 0
  | (va, len, need) :: rs =>
    match (vaPieces va len).findSome? fun p => match s.vaTry c p.1 p.2 need with
      | .ok _ => none
      | r => some r with
    | some r => r
    | none => s.vaTryAll c rs

/-- The main memory that some accesses reach, piece by piece: PA and bytes. -/
def State.vaRuns (s : State) (c : Option Nat) (runs : List (Nat × Nat × Need)) : List (Nat × Nat) :=
  runs.flatMap fun r => (vaPieces r.1 r.2.1).filterMap fun p => match s.vaTry c p.1 p.2 r.2.2 with
    | .ok pa => some (pa, p.2)
    | .busy pa => some (pa, p.2)
    | _ => none

/-- What some accesses come to with the slots of the calendar that they need: `us` beside those of the controllers (R19). -/
inductive AgentTry where
  | go
  | later (s : State)
  | absent (va : Nat)
  | bad
  deriving DecidableEq, Repr

def State.agentTry (s : State) (g : Agent) (us : List Nat) (runs : List (Nat × Nat × Need)) : AgentTry :=
  match s.vaTryAll g.ctx runs with
  | .bad => .bad
  | .absent va => .absent va
  | _ =>
    let ps := s.vaRuns g.ctx runs
    if s.runsReady g us ps then .go else .later (s.askRuns g us ps)

/-- Some accesses have been made: their walks and their plots are reached (R232), and the shared units forget the request. -/
def State.agentDone (s : State) (g : Agent) (runs : List (Nat × Nat × Need)) : State :=
  let ps := s.vaRuns g.ctx runs
  let walked := match g.ctx with
    | some c => (runs.flatMap fun (r : Nat × Nat × Need) => pageVas r.1 r.2.1).foldl (fun (s : State) va => s.walkTouch c va) s
    | none => s
  walked.doneRuns g ps

/-- A request of the front end: it is counted for its context, if it has one (R231). -/
def State.askFor (s : State) (c : Option Nat) (pa : Nat) : State := s.touch (c.getD 4096) pa

/-- Bytes read by an agent whose access is `ok`. -/
def State.vaRead (s : State) (c : Option Nat) (va len : Nat) : List Byte :=
  (vaPieces va len).flatMap fun p => match s.vaTry c p.1 p.2 .r with
    | .ok pa => s.pa pa p.2
    | _ => List.replicate p.2 0

/-- Bytes written by an agent whose access is `ok`, piece by piece with `f`. -/
def State.vaPut (f : State → Nat → List Byte → State) (s : State) (c : Option Nat) (va : Nat) (bs : List Byte) : State :=
  (vaPieces va bs.length).foldl (fun s p => match s.vaTry c p.1 p.2 .w with
    | .ok pa => (((f s pa ((bs.drop (p.1 - va)).take p.2)).heal pa p.2).ringBells pa p.2).askFor c pa
    | _ => s) s

/-- Bytes written and performed at port scope. -/
def State.vaWrite (s : State) (c : Option Nat) (va : Nat) (bs : List Byte) : State :=
  s.vaPut (fun s a bs => (s.setPa a bs).portSees a bs.length) c va bs

/-- The same for a posted write: each 32-byte sector is written in one step for every read (R345). -/
def State.postedWrite (s : State) (c : Option Nat) (va : Nat) (bs : List Byte) : State :=
  s.vaPut (fun s a bs => ((s.preSector a bs.length).setPa a bs).portSees a bs.length) c va bs

/-! ### Posted writes through the ports (R209) -/

/-- The requesters: a function's BAR2 by its number, a context of a peer over a chip link, and the other side of a network port.
DESIGN CHOICE: a network port is one requester, so that its writes keep one order. -/
def peerFrom (l rctx : Nat) : Nat := 2 ^ 20 * (2 + l) + rctx
def netFrom (port : Nat) : Nat := 2 ^ 20 * (14 + port)

def State.out (s : State) (o : Output) : State := { s with outputs := s.outputs ++ [o] }

/-- A port's requester as it asks the shared units: for its posted writes, or for its reads. -/
def postedAgent (c from' : Nat) : Agent := ⟨some c, postedId from', 21⟩
def readAgent (c from' : Nat) : Agent := ⟨some c, readId from', 21⟩

/-- The bytes that a posted write writes now. -/
def Posted.now (w : Posted) (t : W64) : List Byte :=
  if w.stamp then w.bytes.take (w.bytes.length - 8) ++ toBytes 8 t.toNat else w.bytes

/-- A posted write that has its slots is performed, and one that has not asks for them and is kept. -/
def State.servePosted (s : State) (w : Posted) : State :=
  let g := postedAgent w.ctx w.from'
  let runs : List (Nat × Nat × Need) := [(w.va, w.bytes.length, .w)]
  let ps := s.vaRuns (some w.ctx) runs
  if s.runsReady g [] ps then (s.postedWrite (some w.ctx) w.va (w.now s.tstamp)).agentDone g runs
  else { s.askRuns g [] ps with posted := s.posted ++ [w] }

/-- The oldest posted write of a requester: performed, kept until it can be, or refused. A BAR2 write drops its bytes in absent
pages and in pages without `w` (R336); any other asks for an absent page (R225). -/
def State.tryPosted (s : State) (w : Posted) : State :=
  let keep := fun s : State => { s with posted := s.posted ++ [w] }
  if s.posted.any fun v => v.from' == w.from' then keep s
  else if w.from' < 2 ^ 20 then s.servePosted w
  else match s.vaTryAll (some w.ctx) [(w.va, w.bytes.length, .w)] with
    | .absent a => keep (s.pageFault w.ctx a)
    | .bad => s.out (if w.from' < 2 ^ 20 * 14 then .protection else .nak)
    | _ => s.servePosted w

/-- The posted writes that can be are performed, those of one requester in the order of their arrival (R209). -/
def State.drainPosted (s : State) : State := s.posted.foldl (fun s w => s.tryPosted w) { s with posted := [] }

/-- A posted write arrives; one with a stamp ends with the time at which it is written (R341). -/
def State.postAs (s : State) (stamp : Bool) (from' c va : Nat) (bs : List Byte) : State :=
  { s with posted := s.posted ++ [(⟨s.fresh, from', c, va, bs, stamp⟩ : Posted)] }.drainPosted
def State.post (s : State) (from' c va : Nat) (bs : List Byte) : State := s.postAs false from' c va bs

/-- A port engine looks at some bytes: of the words that are performed at package scope only, it may see each from now on, or
still see it as it was (R209). -/
def State.portLook (s : State) (c : Option Nat) (va n : Nat) : State :=
  let seen := fun (a : Nat) => Config.report (s.fresh + 72) (a / 4) % 2 == 1
  (vaPieces va n).foldl (fun s p => match s.vaTry c p.1 p.2 .r with
    | .ok pa => { s with portOld := s.portOld.filter fun e => !(decide (pa ≤ e.1 ∧ e.1 < pa + p.2) && seen e.1) }
    | _ => s) s

/-- The bytes that a port engine reads (R209). -/
def State.portRead (s : State) (c : Option Nat) (va n : Nat) : List Byte :=
  (vaPieces va n).flatMap fun p => match s.vaTry c p.1 p.2 .r with
    | .ok pa => (List.range p.2).map fun i => (Map.get s.portOld (pa + i)).getD (Memory.get s.mem (pa + i))
    | _ => List.replicate p.2 0

/-- A run of bytes pinned. -/
def State.pinRun (s : State) (c va len : Nat) (x : Bool) : State :=
  (pageVas va len).foldl (fun s va => s.pinPage c va x) s

/-- Every plot that a run of bytes lies in is Warm (R231). -/
def State.runWarm (s : State) (c va len : Nat) : Bool :=
  (pageVas va len).all fun va => match s.leaf c va with
    | some (_, _, e) => bitAt e 58 || (s.plot (leafPlot e)).state == .warm
    | none => false

/-- The plots of a run of bytes that are in Retention start to wake. -/
def State.runWake (s : State) (c va len : Nat) : State :=
  (pageVas va len).foldl (fun s va => match s.leaf c va with
    | some (_, _, e) => s.wakePlot (leafPlot e)
    | none => s) s

/-! ### Fault service -/

/-- Whether a page, by its 64 KiB number, lies in a region. -/
def inRegion (va level page : Nat) : Bool :=
  decide (regionBase va level ≤ page * 65536 ∧ page * 65536 < regionBase va level + regionSize level)

/-- A channel held for a mapped page goes on: a copy restarts its record from the start (R226). -/
def Chan.retry (h : Chan) (f : Nat → Bool) : Chan :=
  if h.page.any f then { h with page := none, done := if h.pend.isNone then 0 else h.done, ahead := [] } else h

/-- What the engines of a core hold for pages that `f` names translates again (R225): parts of async operations, channels
and matrix instructions, and records not yet in the trace ring. -/
def State.retryCore (s : State) (k : Nat) (f : Nat → Bool) : State :=
  match s.core? k with
  | none => s
  | some co =>
    let s := co.asyncs.foldl (fun s e => s.retryOp k e.1) s
    let s := s.updCore k fun co => { co with
      chans := co.chans.mapVals (·.retry f)
      mats := co.mats.mapVals fun m => if m.page.any f && m.fail.isNone then { m with page := none } else m }
    if co.trbase = 0 then s else drainTrace (co.trPend.length + 1) k s

/-- The cores of a context that stand on the package. -/
def State.coresOf (s : State) (c : Nat) : List Nat := (s.cores.filter fun e => e.2.ctx == some c).map (·.1)

/-- What waits for a mapped page reads its counters again: the Waiting records and the queues that name one there (R288). -/
def State.evalRegion (s : State) (c : Nat) (f : Nat → Bool) : State :=
  match s.ctx? c with
  | none => s
  | some x =>
    let s := x.kernels.foldl (fun s kn => kn.2.recs.foldl (fun s r =>
      if r.2.cond.any fun e => e.2.1 != 0 && f (e.2.1 / 65536) then s.evalRec c kn.1 r.1 else s) s) s
    s.queues.foldl (fun s e => if e.2.ctx == some c && e.2.wva != 0 && f (e.2.wva / 65536) then s.evalQueue e.1 else s) s

/-- What the engines of a saved core hold for a mapped page is translated again at the restore (R227). -/
def Core.retrySaved (co : Core) (f : Nat → Bool) : Core :=
  { co with
    chans := co.chans.mapVals (·.retry f)
    mats := co.mats.mapVals fun m => if m.page.any f && m.fail.isNone then { m with page := none } else m }

/-- An entry has been written: the faults of the pages that it makes present end, and what they held translates again (R219, R225);
a pinned page's plot leaves Retention (R232). -/
def State.pageServed (s : State) (c va level : Nat) (entry : W64) : State :=
  let f := fun p => inRegion va level p && s.translate c (p * 65536) .r != .absent
  let s := s.updCtx c fun x => { x with
    faulting := x.faulting.filter fun p => !f p
    saved := x.saved.mapVals (·.retrySaved f) }
  let go := fun q : Queue => if q.ctx = some c ∧ q.page.any f then { q with page := none } else q
  let s := { s with queues := s.queues.mapVals go }
  let s := if bitAt entry 0 && bitAt entry 1 && bitAt entry 5 then s.wakePlot (leafPlot entry) else s
  (((s.coresOf c).foldl (fun s k => s.retryCore k f) s).evalRegion c f).drainPosted

/-- A leaf with `far` set names memory that the expander port decodes (R222, R337). -/
def State.farKnown (s : State) (e : W64) : Bool := !(bitAt e 0 && bitAt e 1 && bitAt e 58) || s.decodes (entryPa e)

/-- R219, R225: the resident kernel writes a valid entry where none was, never in a window region (R220) and never for a frame of
another owner's group (R230). -/
def execPageMap (c va level : Nat) (entry : BitVec 64) (s : State) : Res :=
  match s.ctx? c with
  | none => .next s
  | some x =>
    match entryAt s.mem va level 4 x.root with
    | none => .next s
    | some a =>
      if !s.rkUp || !bitAt entry 0 || !entryOk level entry || bitAt (BitVec.ofNat 64 (s.pa64 a)) 0 || unwalked va ||
          !s.entryGrant c level entry || !s.farKnown entry then
        .next s
      else .next (((s.holdFrame' c va level entry).putEntry c a va level entry).pageServed c va level entry)

/-- A part held for a page fails as refused (R225). -/
def Part.refuse (p : Part) (page : Nat) : Part :=
  if p.state = .held page then { p with state := .failing whyRefused } else p

/-- A record that waits for the trace ring has its place in a page (R171). -/
def Core.traceIn (co : Core) (page : Nat) : Bool :=
  !co.trPend.isEmpty && decide ((co.trbase.toNat + 64 * (co.trhead.toNat % co.trsize.toNat)) / 65536 = page)

/-- What one core holds for a refused page (R225, R198, R348, R162, R172). -/
def Core.refuse (co : Core) (page : Nat) : Core :=
  let co := if co.traceIn page then co.traceFault else co
  { co with
    asyncs := co.asyncs.mapVals fun op => { op with parts := op.parts.map (·.refuse page) }
    chans := co.chans.mapVals fun h => if h.page = some page then { h with page := none, fail := some 0x0302 } else h
    mats := co.mats.mapVals fun m => if m.page = some page then { m with fail := some 0x0302 } else m
    teams := co.teams.mapVals fun tm => { tm with splits := tm.splits.mapVals fun sp =>
      match sp.wait with
      | .ringPage va false => if va / 65536 = page then { sp with wait := .ringPage va true } else sp
      | _ => sp } }

/-- A due add of a refused page is to be dropped (R291). -/
def PhaseRec.refuse (r : PhaseRec) (page : Nat) : PhaseRec :=
  if r.due then { r with commit := r.commit.map fun a => if a.va / 65536 = page then { a with refused := true } else a }
  else r

/-- R225: the resident kernel refuses the fault of the page of `va`; what is held for it fails, saved or not. -/
def execPageFaultRefuse (c va : Nat) (s : State) : Res :=
  match s.ctx? c with
  | none => .next s
  | some x =>
    let page := va / 65536
    if !s.rkUp || !x.faulting.contains page then .next s
    else
      let s := s.updCtx c fun x => { x with
        faulting := x.faulting.filter (· != page)
        saved := x.saved.mapVals (·.refuse page)
        kernels := x.kernels.mapVals fun n => { n with recs := n.recs.mapVals (·.refuse page) } }
      let go := fun q : Queue => if q.ctx = some c ∧ q.page = some page then { q with refused := true } else q
      let s := { s with queues := s.queues.mapVals go }
      let off := s.posted.filter fun w => w.ctx == c && (pageVas w.va w.bytes.length).any fun v => v / 65536 == page
      let s := { s with posted := s.posted.filter fun w => !off.contains w }
      let s := off.foldl (fun s w => s.out (if w.from' < 2 ^ 20 * 14 then .protection else .nak)) s
      .next ((s.coresOf c).foldl (fun s k => s.updCore k (·.refuse page)) s)

/-- R219: Mapped to Pinned. -/
def execPagePin (c va : Nat) (s : State) : Res := .next (if s.rkUp then s.pinPage c va false else s)

/-- An entry's region begins to retire (R224). -/
def State.retire (s : State) (c va level : Nat) : State :=
  let e := (regionBase va level, regionSize level)
  s.updCtx c fun x => if x.retiring.contains e then x else { x with retiring := x.retiring ++ [e] }

/-- A region of a context holds bytes that the resident kernel keeps pinned (R219). -/
def State.mustPin (s : State) (c va level : Nat) : Bool :=
  match s.ctx? c with
  | some x => (s.pinnedRuns c none x).any fun r => decide (0 < r.2) && overlap r (regionBase va level, regionSize level)
  | none => false

/-- R219: Pinned to Mapped, followed by an invalidation; never for bytes that stay pinned. -/
def execPageUnpin (c va : Nat) (s : State) : Res :=
  match s.leaf c va with
  | none => .next s
  | some (_, l, e) => .next (if s.rkUp && bitAt e 5 && !s.mustPin c va l then (s.unpinPage c va).retire c va l else s)

/-- R224: the resident kernel clears or changes an entry, but leaves pinned what stays pinned (R219). Until the invalidation completes a TLB may still hold the old one. -/
def execLeafChange (c va level : Nat) (entry : BitVec 64) (s : State) : Res :=
  match s.ctx? c with
  | none => .next s
  | some x =>
    match entryAt s.mem va level 4 x.root with
    | none => .next s
    | some a =>
      if !s.rkUp || !bitAt (BitVec.ofNat 64 (s.pa64 a)) 0 || (bitAt entry 0 && !entryOk level entry) || unwalked va ||
          !s.entryGrant c level entry || !s.farKnown entry ||
          (s.mustPin c va level && !(bitAt entry 0 && bitAt entry 1 && bitAt entry 5)) then
        .next s
      else
        let s := (s.killFrames c va level).holdFrame' c va level entry
        .next (((s.putEntry c a va level entry).retire c va level).pageServed c va level entry)

/-- Some sent part of a core was translated within a region (R224). -/
def Core.uses (co : Core) (base size : Nat) : Bool :=
  co.asyncs.any fun e => e.2.parts.any fun p => p.state == .sent && (decide (p.target ≤ 7) || p.target == 9) &&
    p.accs.any fun x => !x.done && decide (x.va < base + size ∧ base < x.va + x.len)

/-- The old frames of a region are free, and no TLB holds its old entries (R224). -/
def State.invalidate (s : State) (c base size : Nat) : State :=
  let s := s.purgeTlbs fun e => e.ctx == c && overlap (e.va, regionSize e.level) (base, size)
  { s with frameHolds := s.frameHolds.filter fun h => !(h.dead && h.ctx == c && overlap (h.va, regionSize h.elevel) (base, size)) }

/-- R224: every access under the old entry has been performed. -/
def execInvalidationComplete (c va : Nat) (s : State) : Res :=
  match s.ctx? c with
  | none => .next s
  | some x =>
    match x.retiring.find? fun r => decide (r.1 ≤ va ∧ va < r.1 + r.2) with
    | none => .next s
    | some (base, size) =>
      if (s.cores.any fun e => e.2.ctx == some c && e.2.uses base size) then .next s
      else .next ((s.invalidate c base size).updCtx c fun x => { x with retiring := x.retiring.erase (base, size) })

/-! ### Plots (R231, R232) -/

/-- R231: the resident kernel allocates a page of the plot for context `c` (4096: for itself). -/
def execPlotAllocate (c plot : Nat) (s : State) : Res :=
  let x := s.plot plot
  .next (if !s.rkUp || decide (64 ≤ plot) then s
    else if x.state = .off then { s with plots := s.plots.set plot ⟨.waking, s.tstamp, [c], []⟩ }
    else if x.owners.contains c then s
    else { s with plots := s.plots.set plot { x with owners := x.owners ++ [c] } })

/-- The time that the requests of a core were held ends when no waking plot holds one any longer (R236). -/
def Core.plotAwake (co : Core) (plot : Nat) (now : W64) : Core :=
  if co.heldPlots.contains plot then
    let rest := co.heldPlots.filter (· != plot)
    { co with heldPlots := rest, wakens := if rest.isEmpty then co.wakens + (now - co.heldFrom) else co.wakens }
  else co

/-- R231: Waking to Warm; trace records and posted writes that waited are served where it is their turn, and the other requests by
their own events. -/
def execPlotWakeComplete (plot : Nat) (s : State) : Res :=
  .next (if (s.plot plot).state = .waking then
      { s with plots := s.plots.upd plot fun x => { x with state := .warm }
               cores := s.cores.mapVals fun co => co.plotAwake plot s.tstamp }.drainTraces.drainPosted
    else s)

/-- A context permits the retention of a plot (R232). -/
def Ctx.permits (x : Ctx) (plot : Nat) (now : W64) : Bool :=
  (x.bwLevel == 0 || !bitAt x.touched plot) &&
    (match x.bwFell with
     | some t => decide (200000 ≤ (now - t).toNat)
     | none => true)

/-- The PA of a VA of the resident kernel. -/
def State.rkPa (s : State) (va : Nat) : Option Nat :=
  match walk s.mem .r va 4 s.rkRoot with
  | .pa a => some a
  | _ => none

/-- Some team of a core, but a responder, has its backing in a plot (R119). -/
def Core.backs (co : Core) (plot : Nat) : Bool := co.teams.any fun t => t.2.resp.isNone && plotOf t.2.backing == plot

/-- The pages of a context that the resident kernel pins, beside those with `pin` set (R219): its root table, its registry entry,
its save area; and the backing of its saved teams. -/
def State.ctxPins (s : State) (c plot : Nat) (x : Ctx) : Bool :=
  x.state != .destroyed &&
    (x.pins.any (fun p => p.2 == plot) || plotOf x.root == plot || (s.rkPa x.recVa).any (fun a => isHbm a && plotOf a == plot) ||
     (pageVas x.save (max 1 (x.saveSize (s.saveCores c x)))).any (fun va => (s.leaf c va).any fun e => leafPlot e.2.2 == plot) ||
     x.saved.any fun e => e.2.backs plot)

/-- A privileged queue has its descriptor or its completion ring in a plot (R296). -/
def State.queuePins (s : State) (plot : Nat) (q : Queue) : Bool :=
  q.ctx.isNone && ((pageVas q.desc 128 ++ pageVas q.cring (16 * q.size)).any fun va =>
    (s.rkPa va).any fun a => isHbm a && plotOf a == plot)

/-- A plot holds a pinned page (R219): of a context, a page table, the backing of a team, or of a privileged queue. -/
def State.plotPinned (s : State) (plot : Nat) : Bool :=
  (s.ctxs.any fun e => s.ctxPins e.1 plot e.2) || (s.frameHolds.any fun h => h.owner == 4096 && isHbm h.pa && plotOf h.pa == plot) ||
    (s.cores.any fun e => e.2.backs plot) || s.queues.any fun e => s.queuePins plot e.2

/-- R232. -/
def execPlotRetentionEntry (plot : Nat) (s : State) : Res :=
  let x := s.plot plot
  .next (if x.state = .warm ∧ !s.plotPinned plot ∧ 200000 ≤ (s.tstamp - x.last).toNat ∧
      x.owners.all fun c => (s.ctx? c).all fun y => y.permits plot s.tstamp then
      { s with plots := s.plots.set plot { x with state := .retention } }
    else s)

/-- The contents of a plot are lost (R231, R234). -/
def State.losePlot (s : State) (plot : Nat) : State :=
  { s with mem := s.mem.filter fun e => !decide (isHbm e.1 = true ∧ plotOf e.1 = plot) }

/-- The pages of context `c` in a plot are freed: with the last allocated page the plot goes Off (R231). -/
def State.freePlot (s : State) (c plot : Nat) : State :=
  let x := s.plot plot
  let rest := x.owners.filter (· != c)
  if !x.owners.contains c then s
  else if !rest.isEmpty then { s with plots := s.plots.set plot { x with owners := rest } }
  else if x.state = .warm ∨ x.state = .retention then
    { s.losePlot plot with plots := s.plots.set plot ⟨.off, x.last, [], []⟩ }
  else s

/-- R231: no page of the context is left in the plot. -/
def execPlotPowerDown (c plot : Nat) (s : State) : Res :=
  .next (if s.rkUp && !(s.frameHolds.any fun h => h.owner == c && isHbm h.pa && plotOf h.pa == plot) then s.freePlot c plot else s)

/-! ### Failures of the memory (R240) -/

/-- Another pseudo-channel of a unit's group has failed (R240). -/
def State.degraded (s : State) (u : Nat) : Bool := s.failedCh.any fun ch => ch != channelOf u && ch / 8 == groupOf u

/-- Units are lost. -/
def State.loseUnits (s : State) (us : List Nat) : State := { s with lost := s.lost ++ us.filter fun u => !s.lost.contains u }

/-- R240: a failure of the memory. Below 512 the pseudo-channel `n` fails until the next reset; with a second one of its group
gone, units are lost again that a write had replaced. From 512 on `n` is 512 + 3 u + j for a unit u: a die corrects a bit error
(j = 0), or finds a unit that it cannot correct (j = 1), which the controller rebuilds, both of which are counted; or a second unit
of its stripe cannot be read either, which one is free, and both are lost (j = 2), as a unit that its die cannot correct is with the
failed channel's in a degraded group. The numbering is the model's own. -/
def execPseudoChannelFail (n : Nat) (s : State) : Res :=
  .next (if n < 512 then
      (if s.failedCh.contains n then s
       else { s with failedCh := s.failedCh ++ [n], healed := s.healed.filter fun u => groupOf u != n / 8 })
    else
      let u := (n - 512) / 3
      if !isHbm (256 * u) then s
      else if (n - 512) % 3 = 2 then
        s.loseUnits (u :: (((stripeUnits u).filter (· != u))[Config.report (s.fresh + 128) u % 7]?).toList)
      else if (n - 512) % 3 = 1 ∧ s.degraded u = true then
        s.loseUnits (u :: (stripeUnits u).filter fun v => v != u && s.failedCh.contains (channelOf v))
      else { s with corrected := s.corrected + 1 })

/-! ### Row disturbance (R243, R244) -/

/-! ### MSI-X (R335) -/

/-- Bytes of a function's BAR4: its MSI-X table at 0, and its PBA at 0x8000. PRESUMED: the layout of an entry is that of PCI Express. -/
def State.bar4At (s : State) (fn off n : Nat) : Nat := ofBytes (Regs.bytes ((s.bar4.get fn).getD []) off n)
def State.bar4Set (s : State) (fn off : Nat) (bs : List Byte) : State :=
  { s with bar4 := s.bar4.set fn (Regs.setBytes ((s.bar4.get fn).getD []) off bs) }

/-- Vector `v` of a function is pending or not. -/
def State.pending? (s : State) (fn v : Nat) : Bool := s.bar4At fn (0x8000 + v / 8) 1 / 2 ^ (v % 8) % 2 == 1
def State.setPending (s : State) (fn v : Nat) (on : Bool) : State :=
  let b := s.bar4At fn (0x8000 + v / 8) 1
  let rest := if b / 2 ^ (v % 8) % 2 = 1 then b - 2 ^ (v % 8) else b
  s.bar4Set fn (0x8000 + v / 8) (toBytes 1 (if on then rest + 2 ^ (v % 8) else rest))

/-- A vector of a function is raised: its message leaves by the host port, or it is pending while it is masked. -/
def State.raise (s : State) (fn v : Nat) : State :=
  if s.bar4At fn (16 * v + 12) 4 % 2 = 1 then s.setPending fn v true
  else { s.setPending fn v false with
    outputs := s.outputs ++ [.portWrite 0 0 0 (s.bar4At fn (16 * v) 8) (toBytes 4 (s.bar4At fn (16 * v + 8) 4))] }

/-- A write to a function's BAR4; a pending vector that it unmasks is raised. -/
def State.bar4Put (s : State) (fn off : Nat) (bs : List Byte) : State :=
  let s := s.bar4Set fn off bs
  ((List.range (bs.length / 16 + 2)).map fun i => off / 16 + i).foldl (fun s v =>
    if v < 2048 ∧ s.pending? fn v = true then s.raise fn v else s) s

/-- The physical function uses its vectors for ZMI and for its event rings (R335). DESIGN CHOICE: whether an answer or a record raises
one, and which, is a free value. -/
def State.notify (s : State) (kind : Nat) : State :=
  if Config.report (s.fresh + 144) kind % 2 = 1 then s.raise 256 (Config.report (s.fresh + 144) (kind + 2) % 2048) else s

/-- The 32-byte event record (R244), written at the next entry of the physical function's event ring. -/
def State.rowEvent (s : State) (act row fn slots count : Nat) : State :=
  if s.evSize = 0 then s
  else
    let r := toBytes 8 s.tstamp.toNat ++ toBytes 8 (2 ^ 56 + act * 2 ^ 48 + (if fn = 256 then 256 else fn % 256)) ++
      toBytes 8 row ++ toBytes 8 (slots % 2 ^ 32 * 2 ^ 32 + count % 2 ^ 32)
    { s.setPa (s.evBase + 32 * (s.evHead % s.evSize)) r with evHead := s.evHead + 1 }.notify 1

/-- Slots charged to a function (R236, R243). -/
def State.chargeSlots (s : State) (fn n : Nat) : State :=
  { s with rdslots := s.rdslots.set fn ((s.rdslots.get fn).getD 0 + BitVec.ofNat 64 n) }

/-- Some context of a function is being vacated. -/
def State.vacatingFn (s : State) (fn : Nat) : Bool :=
  s.ctxs.any fun e => e.2.fn == fn &&
    (e.2.state == .vacating || (e.2.state == .frozen && e.2.before == .vacating))

/-- The refresh of a row's neighbours as it asks for the slots of its controller that the function owns (R243). -/
def refreshAgent (row fn : Nat) : Agent := ⟨none, refreshId row fn, 21⟩
def State.wantRefresh (s : State) (row fn : Nat) : State :=
  let q : CalReq := ⟨8 + stackOf row, fn, 4096, refreshId row fn⟩
  if s.calReqs.contains q then s else { s with calReqs := s.calReqs ++ [q] }

/-- A refresh is done: its record, and the row is free again. -/
def State.refreshed (s : State) (row fn n : Nat) : State :=
  let t := s.tracker row fn
  (s.setTracker { t with due := false, slots := none }).rowEvent 1 row fn n t.count

/-- One move of a refresh that is due (R243): it begins, and then issues one command in each slot of the calendar that it has had,
which is charged to the function. How many it takes is the controller's own. -/
def State.refreshStep (s : State) (row fn : Nat) : State :=
  let t := s.tracker row fn
  match t.slots with
  | none =>
    let n := Config.report (s.fresh + 32) row
    if n = 0 then s.refreshed row fn 0 else (s.setTracker { t with slots := some (n, 0) }).wantRefresh row fn
  | some (n, i) =>
    if !s.hasSlots (refreshId row fn) [8 + stackOf row] then s.wantRefresh row fn
    else
      let s := (s.forgetPart (refreshId row fn)).chargeSlots fn 1
      if n ≤ i + 1 then s.refreshed row fn n else (s.setTracker { t with slots := some (n, i + 1) }).wantRefresh row fn

/-- R243: a mitigation is due, and goes on. During a vacate of the function it is deferred. -/
def execRowMitigation (row fn : Nat) (s : State) : Res :=
  if 256 < fn ∨ !isHbm row ∨ !(s.tracker row fn).due then .next s
  else .next (if s.vacatingFn fn then
      (if s.deferred.contains (fn, row) then s else { s with deferred := s.deferred ++ [(fn, row)] })
    else if s.deferred.contains (fn, row) then s
    else (s.refreshStep row fn).drainTraces.drainPosted)

/-- R243: the count has reached the throttle threshold. -/
def execRowThrottleStart (row fn : Nat) (s : State) : Res :=
  let t := s.tracker row fn
  if 256 < fn ∨ !isHbm row ∨ t.throttled ∨ s.thrThresh = 0 ∨ t.count < s.thrThresh then .next s
  else
    let t := { t with throttled := true }
    let n := Config.report (s.fresh + 32) row
    .next (((s.setTracker t).chargeSlots fn n).rowEvent 2 row fn n t.count)

/-- R243: the refresh window ends, and with it the count. -/
def execRowThrottleEnd (row fn : Nat) (s : State) : Res :=
  let t := s.tracker row fn
  if !t.throttled then .next s
  else .next ({ s with trackers := s.trackers.filter fun u => !(Config.rowOf u.row == Config.rowOf row && u.fn == fn) }.rowEvent 3 row fn 0 t.count |>.drainTraces.drainPosted)

/-- R243: the mitigations that a vacate deferred run once it is complete. -/
def execDeferredMitigationRun (fn : Nat) (s : State) : Res :=
  if s.vacatingFn fn then .next s
  else
    let due := s.deferred.filter fun d => d.1 == fn
    .next (due.foldl (fun s d => s.refreshStep d.2 fn) { s with deferred := s.deferred.filter fun d => d.1 != fn })

end Sys2Proof.Machine
end

