-- ==== Sys2Proof/Machine/Claims.lean ====
section
/-! DEFINITION. Register and tile claims (06 R117, R118): the limits, the free resources, and the completion of a claim. -/

namespace Sys2Proof.Machine

/-- The limit of R117. -/
def Team.claimInLimit (tm : Team) : Claim → Bool
  | .v n => decide (tm.vcount + n ≤ 128)
  | .s n => decide (tm.scount + n ≤ 64)
  | .a _ n => decide (1 ≤ n)

/-- The bytes that the placed teams of a core hold of its register file (R102, R14). -/
def Core.regBytes (c : Core) : Nat := sumOf (c.teams.map fun e => if e.2.resp.isSome then 0 else e.2.vBytes)
/-- The register file's bytes for placed teams (R14). -/
def regFile (pool : Bool) : Nat := if pool then 491520 else 524288
/-- The free tiles of a core, lowest first. -/
def Core.freeTiles (c : Core) : List Nat := (List.range 32).filter fun i => !c.tiles.has i

/-- Whether the resource of a claim is free (R118). -/
def Core.claimFree (c : Core) (tm : Team) (pool : Bool) : Claim → Bool
  | .v n => decide (c.regBytes + tm.lanes * n * 4 ≤ regFile pool)
  | .s _ => true
  | .a _ n => decide (n ≤ c.freeTiles.length)

/-- The bytes a claim adds to the hold (R249). -/
def Team.claimBytes (tm : Team) : Claim → Nat
  | .v n => tm.lanes * n * 4
  | .s n => 8 * n
  | .a _ n => 16384 * n

/-- The tiles a team holds, as a 32-bit bitmap (R117). -/
def Core.tileMap (c : Core) (t : Nat) : Nat :=
  sumOf (c.tiles.map fun e => if e.2.team = t ∧ !e.2.leaving then 2 ^ e.1 else 0)

/-- A claim completes: what it hands out is zero (R117), and its hold enters. -/
def State.completeClaim (s : State) (k t : Nat) : Claim → State
  | .v n => s.updTeam k t fun tm => { tm with
      v := Regs.clear tm.v fun i => decide (1024 * tm.vcount ≤ i ∧ i < 1024 * (tm.vcount + n))
      vcount := tm.vcount + n }
  | .s n => s.updTeam k t fun tm => { tm with
      s := Regs.clear tm.s fun i => decide (tm.scount ≤ i ∧ i < tm.scount + n)
      scount := tm.scount + n }
  | .a d n => s.updCore k fun c =>
      let tiles := (c.freeTiles.take n).foldl (fun m i => Map.set m i ⟨t, false, [], 0, false, false, 0, false⟩) c.tiles
      let c := { c with tiles := tiles }
      { c with teams := c.teams.upd t fun tm => tm.setS d (BitVec.ofNat 64 (c.tileMap t)) }

/-- What a claim comes to once its limit has passed: a wait for the resource, the test of R252, or completion (R118).
`joins` says whether a failed test puts the split in the stalled order. -/
inductive ClaimOut where
  | noRoom
  | stall (cost : Nat)
  | trap (tr : Trap)
  | done (s : State)
  deriving DecidableEq, Repr

def State.tryClaim (s : State) (k t : Nat) (cl : Claim) : ClaimOut :=
  match s.core? k, s.team? k t, s.ctxOf k with
  | some c, some tm, some (_, x) =>
    if !c.claimFree tm x.pool cl then .noRoom
    else
      let cost := s.holdIncrease k (tm.claimBytes cl)
      match s.admission k t cost with
      | .pass => .done (s.completeClaim k t cl)
      | .stall => .stall cost
      | .trap code => .trap (s.admTrap k code cost)
  | _, _, _ => .noRoom

/-- The split joins the stalled order (R253). -/
def State.joinStalled (s : State) (k t p : Nat) : State :=
  s.updCore k fun c => { c with stalled := c.stalled ++ [(t, p)] }

def responderMisuse : Trap := { code := 0x0602 }

/-- The frame of the claims (R117, R118); a responder must not claim (R318). -/
def claimWord (c : Claim) (named : List Opnd) (s : State) : Res :=
  onWord s fun a =>
    if a.team.resp.isSome then .trap s responderMisuse
    else if !a.team.claimsAll named || !a.team.claimInLimit c then .trap s outsideClaim
    else match s.tryClaim a.k a.t c with
      | .noRoom => .block s (.claim c)
      | .stall cost => .block (s.joinStalled a.k a.t a.p) (.admission cost (some c))
      | .trap tr => .trap s tr
      | .done s' => .adv s'

end Sys2Proof.Machine
end

