-- ==== Sys2Proof/Machine/Issue.lean ====
section
/-! DEFINITION. Issue (02 R28 to R34, 06 R115): the header's checks and waits, breakpoints, the fetch of a word through
the context's tables, and what follows a word. -/

namespace Sys2Proof.Machine

/-- A context whose cores issue (R245). -/
def CtxState.issues : CtxState → Bool
  | .running | .yielding => true
  | _ => false

/-- Whether core `k` may issue at all. -/
def State.coreIssues (s : State) (k : Nat) : Bool :=
  match s.ctxOf k with
  | some (_, x) => x.state.issues
  | none => false

/-- Fetches the instruction word at a VA (R29): none where it is not mapped executable. -/
def State.fetch (s : State) (k : Nat) (va : Nat) : Option W32 :=
  match s.ctxOf k with
  | none => none
  | some (c, _) => match s.translateAt k c va .x with
    | .pa a => some (BitVec.ofNat 32 (ofBytes (s.pa a 4)))
    | _ => none

/-- Up to `n` words from a VA, as far as they can be fetched. -/
def State.fetchRun (s : State) (k : Nat) (va : Nat) : Nat → List W32
  | 0 => []
  | n + 1 => match s.fetch k va with
    | some w => w :: s.fetchRun k (va + 4) n
    | none => []

/-- The address in the core's shared store of an offset in a team's region. -/
def Core.localAddr (c : Core) (tm : Team) (off : Nat) : Nat :=
  (match c.crewOf tm with | some w => w.base | none => 0) + off

/-- The fences of a split let its next clause issue (R144, R216). -/
def Split.fencesHold (sp : Split) : Bool :=
  sp.wbs.all fun w => w.fence == 0 || (w.fence == 1 && w.accs.isEmpty)

/-- Every LOC word that writes a register has written back, of a split and of the splits it came from (R31). -/
def Team.loadsBack (tm : Team) (p : Nat) : Bool :=
  (ancestors tm 16 p).all fun q => (tm.splits.get q).all fun sp => sp.wbs.all fun w => !w.writesReg

/-- The waits of a header (R31), with its split's fences (R144) and the adoption of its `bwphase` write (R233). -/
def State.waitsHold (s : State) (k t p : Nat) (hdr : Header) : Bool :=
  match s.core? k, s.team? k t, s.split? k t p, s.ctxOf k with
  | some c, some tm, some sp, some (_, x) =>
    (!hdr.ldw || tm.loadsBack p) && (!hdr.stv || sp.wbs.all fun w => w.accs.isEmpty || !w.writesMem) &&
    sp.fencesHold &&
    (!hdr.xw || (match tm.watch with
      | some (off, ph) => (Bar.read c.shared (c.localAddr tm off)).phase == ph
      | none => true)) &&
    !x.bwWrites.any fun w => w.core == k && w.team == t && w.split == p
  | _, _, _, _ => true

/-- A comparator of the core names a VA while a debugger is attached (R168). -/
def Core.breakAt (c : Core) (tm : Team) (sp : Split) (va : W64) : Bool :=
  tm.att && !sp.passBreak && c.breaks.any fun b => b.2 == va

/-- The code of a decoding fault (R60). -/
def decodeCode : DecodeErr → Nat
  | .illegalClause => 0x0001
  | .illegalInstruction => 0x0002
  | .illegalOperand => 0x0003
  | .privilege => 0x0004

/-- What the front of issue comes to: a state with nothing to perform, or an instruction to perform in a state whose
`cur` names it. -/
inductive Prep where
  | done (s : State)
  | word (s : State) (i : Instr)
  deriving DecidableEq, Repr

/-- The oldest entry of the issue queue is dropped. -/
def State.dropIssue (s : State) : State := { s with issueQ := s.issueQ.drop 1 }

/-- The word at the split's position: breakpoint, fetch and decoding (R168, R29, R39). A single step issues the word all the same,
unless the word itself stops the team (R167). -/
def prepareWord (s : State) (u : Issue) (c : Core) (tm : Team) (sp : Split) (cl : Clause) : Prep :=
  let pc := cl.h + BitVec.ofNat 64 (4 * cl.pos)
  let fault := fun (code : Nat) => Prep.done
    (s.trap u.core u.team u.split { code := code } pc pc cl.h cl.hdr cl.pos).dropIssue
  if c.breakAt tm sp pc && !u.single then .done (s.stopBreak u.core u.team u.split pc).dropIssue
  else
    let left := cntOf cl.hdr + 1 - cl.pos
    let ws := s.fetchRun u.core pc.toNat (min maxWords left)
    match ws with
    | [] => fault 0x0301
    | w :: ws =>
      match (headerOf cl.hdr).eng with
      | none => fault 0x0001
      | some eng =>
        match decode tm.priv eng (w :: ws) with
        | .ok (i, n) => .word { s with cur := some ⟨u.core, u.team, u.split, n, u.width⟩ } i
        | .error e =>
          fault (if e = .illegalClause ∧ ws.length + 1 < min maxWords left then 0x0301 else decodeCode e)

/-- A split enters the clause of the header `h` at its `pc` (R28): the gate is sampled (R30) and the trace record written (R34). -/
def State.enterClause (s : State) (k t p : Nat) (tm : Team) (sp : Split) (h : W32) : State × Split :=
  let sp' := { sp with clause := some ⟨sp.pc, h, gateOf tm sp h, 1⟩, transfer := false, waited := false, passBreak := false, passWord := false }
  let s := s.updSplit k t p fun _ => sp'
  (if (headerOf h).trc && tm.tre then
      s.emitFor k t p 1 sp.pc (summary sp.exec + Mask.count sp.exec * 2 ^ 32) 0 0
    else s, sp')

/-- The page of a fetch is left in the core's TLBs (R223). -/
def State.fetchFill (s : State) (k : Nat) (va : Nat) : State :=
  match s.ctxOf k with
  | some (c, _) => s.fillTlb k c va
  | none => s

/-- The watched object of a header with `xw` has failed (R31): its offset. -/
def Core.watchError (c : Core) (tm : Team) (hd : Header) : Option Nat :=
  if !hd.xw then none
  else match tm.watch with
    | some (off, _) => if (Bar.read c.shared (c.localAddr tm off)).error then some off else none
    | none => none

/-- The header at the split's `pc` (R28), its waits (R31), the gate (R30) and the trace record (R34). -/
def prepareHeader (s : State) (u : Issue) (c : Core) (tm : Team) (sp : Split) : Prep :=
  let pc := sp.pc
  let fault := fun (s : State) (code info : Nat) => Prep.done
    (s.trap u.core u.team u.split { code := code, info := info } pc pc pc 0 0).dropIssue
  let word := s.fetch u.core pc.toNat
  let s := s.fetchFill u.core pc.toNat
  match word with
  | none => fault s 0x0301 0
  | some h =>
    let hd := headerOf h
    if hd.sig != signature then fault s (if sp.transfer then 0x0101 else 0x0001) 0
    else if hd.eng.isNone || hd.cnt == 0 then fault s 0x0001 0
    else if !sp.waited && !s.waitsHold u.core u.team u.split hd then
      .done (s.waitAt u.core u.team u.split 0 .header).dropIssue
    else
      match c.watchError tm hd with
      | some off => fault s 0x0303 off
      | none =>
        if c.breakAt tm sp pc && !u.single then .done (s.stopBreak u.core u.team u.split pc).dropIssue
        else
          let r := s.enterClause u.core u.team u.split tm sp h
          prepareWord r.1 u c tm r.2 ⟨pc, h, gateOf tm sp h, 1⟩

/-- A team whose single step has issued nothing is Stopped again, while a debugger is attached (R281); the step stays due while its
split waits to issue. -/
def State.restop (s : State) (u : Issue) : State :=
  s.updTeam u.core u.team fun tm =>
    if tm.state = .stopped ∨ tm.att = false then tm
    else { tm with
      prev := tm.state
      state := .stopped
      step := if (tm.splits.get u.split).any fun sp => sp.state == .waiting then some u.split else none }

/-- Takes the oldest entry of the issue queue as far as an instruction to perform. An entry whose split cannot issue any
longer is dropped and issues again later (R265). A stepped team leaves Stopped for its one word (R167). -/
def prepare (s : State) : Prep :=
  match s.issueQ with
  | [] => .done s
  | u :: _ =>
    let s := if u.single then
        s.updTeam u.core u.team fun tm => if tm.state = .stopped then { tm with state := tm.prev } else tm
      else s
    match s.core? u.core, s.team? u.core u.team, s.split? u.core u.team u.split with
    | some c, some tm, some sp =>
      let r :=
        if !tm.mayIssue u.split || c.teamStalled u.team || sp.state != .ready || !s.coreIssues u.core then
          .done s.dropIssue
        else if sp.atJoin u.split then .done (s.park u.core u.team u.split).dropIssue
        else match sp.clause with
          | some cl => prepareWord s u c tm sp cl
          | none => prepareHeader s u c tm sp
      match r with
      | .done s' => .done (if u.single then s'.restop u else s')
      | r => r
    | _, _, _ => .done s.dropIssue

/-- A stepped split that stands at a header enters its clause, when the header is good, its waits hold and its watched object has no
error, so that the step ends at the clause's first word (R167); any other split stays where it is. -/
def State.stepInto (s : State) (k t p : Nat) : State :=
  let s := s.settleSplit k t p
  match s.core? k, s.team? k t, s.split? k t p with
  | some c, some tm, some sp =>
    if sp.clause.isSome || sp.state != .ready || sp.atJoin p then s
    else match s.fetch k sp.pc.toNat with
      | none => s
      | some h =>
        let hd := headerOf h
        if hd.sig != signature || hd.eng.isNone || hd.cnt == 0 || !s.waitsHold k t p { hd with ldw := false } ||
            (c.watchError tm hd).isSome then s
        else (s.enterClause k t p tm sp h).1
  | _, _, _ => s

/-- The end of a single step (R167): with a debugger attached still (R281) the team stops again at the next word, or at 0 where
its split has ended, unless the word itself has stopped it (R165, R178) or was its `phase` (R104). -/
def State.stepEnd (s : State) (u : Issue) : State :=
  match s.team? u.core u.team with
  | none => s
  | some tm =>
    if !tm.att || tm.state == .stopped || tm.state == .phasing then s
    else
      let s := s.stepInto u.core u.team u.split
      let pc := match s.split? u.core u.team u.split with
        | some sp => (match sp.clause with
          | some cl => cl.h + BitVec.ofNat 64 (4 * cl.pos)
          | none => sp.pc)
        | none => 0
      s.stop u.core u.team u.split pc 0 0

/-- A word of a split has not issued: it is held, or stalled, or waits for what it needs to issue (R118, R151, R253). -/
def Split.unissued (sp : Split) : Bool :=
  sp.state == .waiting && (match sp.wait with
    | .claim _ | .stream _ _ | .admission _ _ | .held _ | .recPush _ _ _ _ | .ringPage _ _ | .drop _ => true
    | _ => false)

/-- The round-robin pointer of a team once split `p` has issued, at a position that came with the pointer at `start` (R115): past
the last of the splits that have issued there. -/
def Team.issuedAt (tm : Team) (start p : Nat) : Team :=
  { tm with rr := max tm.rr (start + (p + 16 - start) % 16 + 1) }

/-- What a word that has been tried makes of its team's pointer. -/
def State.moveRr (s : State) (u : Issue) : State :=
  if (s.split? u.core u.team u.split).any (·.unissued) then s
  else s.updTeam u.core u.team (·.issuedAt u.start u.split)

/-- After a word: the entry stays while its clause goes on and its split may issue; a single step ends. -/
def finish (s : State) : State :=
  let s := { s with cur := none }
  match s.issueQ with
  | [] => s
  | u :: _ =>
    let s := s.moveRr u
    if u.single then (s.stepEnd u).dropIssue
    else
      match s.core? u.core, s.team? u.core u.team, s.split? u.core u.team u.split with
      | some c, some tm, some sp =>
        if tm.mayIssue u.split && !c.teamStalled u.team && sp.state == .ready && sp.clause.isSome then s else s.dropIssue
      | _, _, _ => s.dropIssue

end Sys2Proof.Machine
end

