-- ==== Sys2Proof/Machine/Solicit.lean ====
section
/-! DEFINITION. Stall directories, the crier network and the census (19): `tile.put`, `tile.drop`, `tile.move`, `solicit`,
`respond`, and the events of broadcasts, responders and answers. -/

namespace Sys2Proof.Machine

def noPool : Trap := { code := 0x0603 }
def badScope : Trap := { code := 0x0601 }

/-- Whether the context of core `k` has a responder pool (R14). -/
def State.hasPool (s : State) (k : Nat) : Bool :=
  match s.ctxOf k with
  | some (_, x) => x.pool
  | none => false

def State.updDir (s : State) (k e : Nat) (f : DirEntry → DirEntry) : State :=
  s.updCore k fun c => { c with dir := c.dir.upd e f }

def State.dirEntry? (s : State) (k e : Nat) : Option DirEntry := (s.core? k).bind fun c => c.dir.get e

/-! ### Tiles (R310 to R312) -/

/-- R310: a release of the split's earlier accesses. -/
def execTilePut (d x : Opnd) (s : State) : Res :=
  onLocal s fun s a =>
    let r := fun i => a.team.sreg (num x + i)
    let off := bits (r 1) 31 0
    let len := bits (r 1) 63 32
    let resp := (match (s.ctxOf a.k).bind fun c => c.2.kernOf a.team with
      | some n => n.resp
      | none => [])
    if 61 < num x then .trap s illegalOperand
    else if !a.team.claims d || !a.team.claimsRun 3 x then .trap s outsideClaim
    else if !s.hasPool a.k then .trap s noPool
    else match resp[bits (r 2) 15 0]?, a.core.dir.lowestFree 256 0 with
      | some clause, some e =>
        if a.team.resp.isSome ∨ bits (r 2) 63 16 ≠ 0 then .trap s responderMisuse
        else if off % 4 ≠ 0 ∨ len % 4 ≠ 0 ∨ len = 0 then .trap s misaligned
        else if a.region.2 < off + len then .trap s outsideClaim
        else
          let entry : DirEntry := ⟨r 0, len, off, a.team.kernel, .resident, a.team.crew, 0, 0, clause, 0, 0, false⟩
          let s := s.updCore a.k fun c => { c with dir := c.dir.set e entry }
          .adv (s.updTeam a.k a.t fun tm => tm.setS (num d) (BitVec.ofNat 64 e))
      | _, _ => .trap s responderMisuse

/-- Matches accepted on an entry and not yet spawned are answered null (R311). -/
def State.nullQueued (s : State) (k e : Nat) : State :=
  match s.core? k with
  | none => s
  | some c => (c.spawnQ.filter fun m => m.entry == e).foldl (fun s m => s.nullAnswer k m.slot m.ccore m.centry)
      (s.updCore k fun c => { c with spawnQ := c.spawnQ.filter fun m => m.entry != e })

/-- A responder runs on an entry of core `k`. -/
def Core.respondersOn (c : Core) (e : Nat) : Bool :=
  c.teams.any fun t => t.2.resp.any fun r => r.entry == e

/-- A stub of another core forwards to an entry (R309, R311). -/
def State.stubTo (s : State) (k e : Nat) : Bool :=
  s.cores.any fun c => c.2.dir.any fun d => d.2.state == .stub && d.2.peer == k && d.2.pentry == e

/-- A forward to an entry is in flight (R311, R316). -/
def State.forwardTo (s : State) (k e : Nat) : Bool :=
  match s.ctxOf k with
  | some (_, x) => x.forwards.any fun f => f.target == k && f.tentry == e
  | none => false

/-- Nothing holds a dropping entry any longer (R311): no responder, no stub, no forward. -/
def State.dropFree (s : State) (k e : Nat) : Bool :=
  (match s.core? k with
   | some c => !c.respondersOn e
   | none => true) && !s.stubTo k e && !s.forwardTo k e

/-- Stubs that no solicit outstanding at their commit needs, and that no other stub and no forward in flight names, are Free (R309,
R311); freeing one may free another. -/
def State.sweepStubs : Nat → State → State
  | 0, s => s
  | n + 1, s =>
    let done := fun (k : Nat) (e : Nat × DirEntry) => e.2.state == .stub && e.2.waits == 0 && !s.stubTo k e.1 && !s.forwardTo k e.1
    if s.cores.any fun c => c.2.dir.any (done c.1) then
      State.sweepStubs n { s with cores := s.cores.map fun c => (c.1, { c.2 with dir := c.2.dir.filter fun e => !done c.1 e }) }
    else s

/-- Drops an entry (R311): queued matches are answered null, and the entry is Free now or once nothing holds it. -/
def State.dropEntry (s : State) (k e : Nat) : State :=
  let s := s.nullQueued k e
  if s.dropFree k e then s.updCore k fun c => { c with dir := c.dir.del e }
  else s.updDir k e fun d => { d with dropping := true }

/-- R311. -/
def execTileDrop (x : Opnd) (s : State) : Res :=
  onWord s fun a =>
    a.withOps s [x] [x] fun commit os =>
      match os with
      | [x] =>
        let e := (a.u x).toNat
        match a.core.dir.get e with
        | none => .trap s responderMisuse
        | some d =>
          if d.state ≠ .resident ∨ d.crew ≠ a.team.crew ∨ a.team.resp.isSome then .trap s responderMisuse
          else
            let s := (commit s).dropEntry a.k e
            if (s.dirEntry? a.k e).isNone then .adv s else .sleep s (.drop e)
      | _ => .trap s illegalOperand

/-- R311: the entry is Free, and the splits that wait for it go on. -/
def execTileDropComplete (k t p : Nat) (s : State) : Res :=
  match s.split? k t p with
  | none => .next s
  | some sp =>
    match sp.state, sp.wait with
    | .waiting, .drop e =>
      match s.dirEntry? k e with
      | none => .next (s.advance k t p sp.wlen)
      | some d =>
        if !d.dropping then .next (s.advance k t p sp.wlen)
        else if s.dropFree k e then
          .next ((s.updCore k fun c => { c with dir := c.dir.del e }).advance k t p sp.wlen)
        else .next s
    | _, _ => .next s

/-- The lowest-serial crew of a kernel on a core: its slot and itself (R312). -/
def Core.lowestCrew (c : Core) (kernel : Nat) : Option (Nat × Crew) :=
  (c.crews.filter fun w => w.2.kernel == kernel).foldl (fun b w => match b with
    | none => some w
    | some x => if w.2.serial < x.2.serial then some w else some x) none

/-- The two entries of a move as it begins (R312); none when there is no target region or no Free entry there. -/
def State.beginMove (s : State) (k e target toff : Nat) (d : DirEntry) : Option (State × Nat) :=
  match s.core? target with
  | none => none
  | some c =>
    match c.lowestCrew d.kernel, c.dir.lowestFree 256 0 with
    | some (slot, w), some te =>
      if w.size < toff + d.length then none
      else
        let entry : DirEntry :=
          { d with offset := toff, state := .movingIn, crew := slot, peer := k, pentry := e, answered := 0, waits := 0 }
        let s := s.updCore target fun c => { c with dir := c.dir.set te entry }
        some (s.updDir k e fun d => { d with state := .movingOut, peer := target, pentry := te }, te)
    | _, _ => none

/-- R312. -/
def execTileMove (x y : Opnd) (s : State) : Res :=
  onLocal s fun s a =>
    if !a.team.claimsRun 2 x then .trap s outsideClaim
    else a.withOps s [x, y] [y] fun commit os =>
      match os with
      | [y] =>
        let e := (a.team.sreg (num x)).toNat
        let r := a.team.sreg (num x + 1)
        let target := bits r 31 0
        let toff := bits r 63 32
        match a.core.dir.get e with
        | none => .trap s responderMisuse
        | some d =>
          if 62 < num x then .trap s illegalOperand
          else if d.state ≠ .resident ∨ d.dropping ∨ d.crew ≠ a.team.crew ∨ a.team.resp.isSome then .trap s responderMisuse
          else if target = a.k ∨ !((s.ctxOf a.k).any fun c => c.2.cores.contains target) then .trap s badScope
          else if toff % 4 ≠ 0 then .trap s misaligned
          else match a.barCheck (a.u y).toNat with
            | some tr => .trap s tr
            | none =>
              let bar := a.region.1 + (a.u y).toNat
              let s := ((commit s).updCore a.k (·.countAsync)).barAdd a.k bar d.length
              match s.beginMove a.k e target toff d with
              | none => .adv (s.settleBytes a.k bar d.length true)
              | some (s, te) =>
                let op := { a.newOp s (.move e target te toff) (a.u y).toNat d.length 0 none with
                  rel := true
                  scope := 5
                  relW := s.relsOf a.k a.t a.team.order a.p }
                .adv (s.updCore a.k fun c => { c with
                  asyncs := c.asyncs.set c.nextX { op with
                    parts := [⟨0, 8, .sent, [⟨0, 0, 0, d.length, 0, [], false, []⟩], 0, partId a.k c.nextX 0⟩] }
                  nextX := c.nextX + 1 })
      | _ => .trap s illegalOperand

/-- Every match accepted at an entry has been answered (R312). -/
def Core.answeredAll (c : Core) (e : Nat) : Bool :=
  !c.spawnQ.any (fun m => m.entry == e) && !c.teams.any fun t => t.2.resp.any fun r => r.entry == e && !r.responded

/-- The census slots outstanding for core `k` (R309, R320): those whose retire has not reached it. -/
def Ctx.slotsAt (x : Ctx) (k : Nat) : W64 :=
  x.censuses.foldl (fun m e => match e.2.stage with
    | .counting => m ||| BitVec.ofNat 64 (2 ^ e.1)
    | .retiring => if e.2.toRetire.contains k then m ||| BitVec.ofNat 64 (2 ^ e.1) else m) 0

/-- The outstanding move of an operation, with its kernel's source and target entries. -/
def AKind.moveOf : AKind → Option (Nat × Nat × Nat × Nat)
  | .move e target te toff => some (e, target, te, toff)
  | _ => none

/-- R312: the copy is done, the accepted matches are answered, and the writes that a `fence.m`, and the releases that its own release
at package scope, put before it are performed (R327, R214); source and target change in one step. A retire that has
reached the target already clears its bit on arrival (R320). -/
def execTileMoveCommit (k x : Nat) (s : State) : Res :=
  match s.async? k x, s.core? k, s.ctxOf k with
  | some op, some c, some (_, cx) =>
    match op.kind.moveOf with
    | none => .next s
    | some (e, target, te, toff) =>
      match c.dir.get e, s.dirEntry? target te with
      | some d, some td =>
        let region := s.regionOf target td.crew
        if d.state ≠ .movingOut ∨ td.state ≠ .movingIn ∨ td.peer ≠ k ∨ td.pentry ≠ e ∨ !c.answeredAll e ∨ region.2 < toff + d.length ∨
            !c.clear op.afterW ∨ !c.clear op.relW ∨ s.abandons k = true then .next s
        else
          let src := s.regionOf k d.crew
          let bs := Regs.bytes c.shared (src.1 + d.offset) d.length
          let s := s.updCore target fun c =>
            let m := Regs.setBytes c.shared (region.1 + toff) bs
            { c with shared := m }
          let s := s.updDir target te fun t => { t with state := .resident, answered := d.answered &&& cx.slotsAt target }
          let s := (s.updDir k e fun t => { t with state := .stub, waits := cx.slotsAt k }).sweepStubs 256
          .next (((s.updCore k fun c => { c with asyncs := c.asyncs.del x }).settleBytes k op.bar d.length false))
      | _, _ => .next s
  | _, _, _ => .next s

/-- The move fails: the target entry is freed and the source is resident again, with `error` (R312). -/
def State.failMove (s : State) (k x : Nat) (op : AsyncOp) (e target te : Nat) (d : DirEntry) : State :=
  let s := s.updCore target fun c => { c with dir := match c.dir.get te with
    | some t => if t.state = .movingIn ∧ t.peer = k ∧ t.pentry = e then c.dir.del te else c.dir
    | none => c.dir }
  let s := s.updDir k e fun t => { t with state := .resident, peer := 0, pentry := 0 }
  (s.updCore k fun c => { c with asyncs := c.asyncs.del x }).settleBytes k op.bar d.length true

/-- R312: the crew that was to receive the tile has retired, or no region took it again after a restore. -/
def execTileMoveFail (k x : Nat) (s : State) : Res :=
  match s.async? k x with
  | none => .next s
  | some op =>
    match op.kind.moveOf with
    | none => .next s
    | some (e, target, te, toff) =>
      match s.dirEntry? k e with
      | none => .next s
      | some d =>
        let gone : Bool := match s.dirEntry? target te with
          | some t => t.state != .movingIn || t.peer != k || t.pentry != e || decide ((s.regionOf target t.crew).2 < toff + d.length)
          | none => true
        .next (if gone && !s.abandons k then s.failMove k x op e target te d else s)

/-! ### `solicit` (R313 to R315) -/

/-- w: the words of an answer (R313). -/
def answerWords (op n : Nat) : Nat := if op = 0 then 0 else if op = 5 then n + 2 else n

/-- The fields of a solicit's run are legal (R313, step 5 of R314). -/
def solicitLegal (r : Nat → W64) : Bool :=
  let op := bits (r 3) 7 0
  let n := bits (r 3) 23 16
  let w := (r 7).toNat
  bits (r 2) 63 48 == 0 && bits (r 3) 63 24 == 0 && bits (r 3) 15 8 == 0 && decide (op ≤ 6) &&
    (if op = 0 then n == 0 else if op = 5 then decide (1 ≤ n ∧ n ≤ 126) else decide (1 ≤ n ∧ n ≤ 128)) &&
    (w == 16 || w == 32 || w == 64) && decide (bits (r 2) 47 32 ≤ 512)

/-- The cores that a solicit of core `k` reaches (R316). -/
def Ctx.solicitScope (x : Ctx) (k : Nat) (package : Bool) : List Nat :=
  if package then x.cores else x.cores.filter fun j => dieOf j == dieOf k

/-- R313 to R315. The payload is read at issue, after the split's earlier accesses, as `rel` asks. -/
def execSolicit (x : Opnd) (_rel : Bool) (s : State) : Res :=
  onLocal s fun s a =>
    let r := fun i => a.team.sreg (num x + i)
    let off := (r 5).toNat
    let w := answerWords (bits (r 3) 7 0) (bits (r 3) 23 16)
    let bytes := 16 + 4 * w
    let plen := bits (r 2) 47 32
    let poff := bits (r 2) 31 0
    let roff := (r 4).toNat
    if 56 < num x then .trap s illegalOperand
    else if !a.team.claimsRun 8 x then .trap s outsideClaim
    else if !s.hasPool a.k then .trap s noPool
    else if (r 6).toNat ≠ 4 ∧ (r 6).toNat ≠ 5 then .trap s badScope
    else if a.team.resp.isSome ∨ !solicitLegal r then .trap s responderMisuse
    else match a.barCheck off with
      | some tr => .trap s tr
      | none =>
        if plen % 4 ≠ 0 ∨ poff % 4 ≠ 0 ∨ roff % 16 ≠ 0 then .trap s misaligned
        else if a.region.2 < poff + plen ∨ a.region.2 < roff + bytes then .trap s outsideClaim
        else match s.ctxOf a.k with
          | none => .stay s
          | some (cn, cx) =>
            match cx.censuses.lowestFree 64 0 with
            | none => .block s (.held .census)
            | some slot =>
              a.costed s (some cx.censusCost) fun s item =>
                let package := (r 6).toNat == 5
                let z : Census := {
                  ident := BitVec.ofNat 64 (cx.solicits * 2 ^ 16 + slot), core := a.k, team := a.t, order := a.team.order,
                  crew := a.team.crew, key := r 0, mask := r 1, n := bits (r 3) 23 16, op := bits (r 3) 7 0,
                  roff := a.region.1 + roff, bar := a.region.1 + off, package := package, width := (r 7).toNat,
                  payload := Regs.bytes a.core.shared (a.region.1 + poff) plen, toPass := cx.solicitScope a.k package,
                  counts := [], nodes := [], stage := .counting, toRetire := [], item := item, afterR := a.team.fenceR }
                .adv (((s.updCtx cn fun y =>
                  { y with censuses := y.censuses.set slot z, solicits := y.solicits + 1 }).updCore a.k
                    (·.countAsync)).barAdd a.k (a.region.1 + off) bytes)

/-! ### The counting wave (R316, R317) -/

/-- An entry accepts a match (R317): null when its bit was set or while a drop waits (R311), else it joins the spawn
queue. -/
def State.accept (s : State) (k e slot ccore centry : Nat) : State :=
  match s.dirEntry? k e with
  | none => s.nullAnswer k slot ccore centry
  | some d =>
    if d.dropping || bitAt d.answered slot then s.nullAnswer k slot ccore centry
    else (s.updDir k e fun d => { d with answered := d.answered ||| BitVec.ofNat 64 (2 ^ slot) }).updCore k fun c =>
      { c with spawnQ := c.spawnQ ++ [⟨slot, e, ccore, centry⟩] }

def State.updCensus (s : State) (c i : Nat) (f : Census → Census) : State :=
  s.updCtx c fun x => { x with censuses := x.censuses.upd i f }

/-- One entry as a solicit passes (R316). -/
def State.passEntry (s : State) (c i k e : Nat) (d : DirEntry) : State :=
  let count := fun (s : State) => s.updCensus c i fun z => { z with counts := z.counts ++ [(k, e)] }
  match d.state with
  | .resident => (count s).accept k e i k e
  | .movingOut => (count s).accept k e i k e
  | .movingIn => s
  | .stub => (count s).updCtx c fun x => { x with forwards := x.forwards ++ [⟨i, k, e, d.peer, d.pentry⟩] }

/-- The reads that the asker put before a solicit's passes with a `fence.m` are done (R144, R327). -/
def State.mayPass (s : State) (z : Census) : Bool := (s.core? z.core).all fun c => c.clear z.afterR

/-- R316: the solicit of slot `i` passes the directory of core `k`, in one step. -/
def execSolicitDirectoryPass (c i k : Nat) (s : State) : Res :=
  match (s.ctx? c).bind fun x => x.censuses.get i, s.core? k with
  | some z, some co =>
    if z.stage ≠ .counting ∨ !z.toPass.contains k ∨ co.ctx ≠ some c ∨ !s.mayPass z then .next s
    else
      let hits := co.dir.filter fun e => e.2.key &&& z.mask == z.key &&& z.mask
      let s := hits.foldl (fun s e => s.passEntry c i k e.1 e.2) s
      .next (s.updCensus c i fun z => { z with toPass := z.toPass.filter (· != k) })
  | _, _ => .next s

/-- R316: the forward at place `j` of those in flight reaches its target entry. -/
def execSolicitForwardArrive (c j : Nat) (s : State) : Res :=
  match (s.ctx? c).bind fun x => if x.present then x.forwards[j]? else none with
  | none => .next s
  | some f =>
    let s := s.updCtx c fun x => { x with forwards := x.forwards.eraseIdx j }
    match s.dirEntry? f.target f.tentry with
    | none => .next (s.nullAnswer f.target f.slot f.ccore f.centry)
    | some d =>
      .next (State.sweepStubs 256 <| match d.state with
        | .resident => s.accept f.target f.tentry f.slot f.ccore f.centry
        | .movingOut => s.accept f.target f.tentry f.slot f.ccore f.centry
        | .stub => s.updCtx c fun x =>
            { x with forwards := x.forwards ++ [{ f with target := d.peer, tentry := d.pentry }] }
        | .movingIn => s.nullAnswer f.target f.slot f.ccore f.centry)

/-! ### Responders (R318, R319) -/

/-- The lane registers of a responder (R318). -/
def responderRegs (width : Nat) : Nat := min 128 (4096 / width)

/-- The responder of a match (R318). -/
def responder (m : Match) (d : DirEntry) (z : Census) (pos order codeVa : Nat) : Team :=
  { Team.blank with
    crew := d.crew
    kernel := d.kernel
    index := pos
    role := 0xFF
    lanes := z.width
    order := order
    vcount := responderRegs z.width
    scount := 64
    s := Regs.setMany [] [(0, d.key), (1, BitVec.ofNat 64 d.offset), (2, BitVec.ofNat 64 d.length),
      (3, BitVec.ofNat 64 stagingBase), (4, z.ident), (5, BitVec.ofNat 64 z.core)]
    splits := [(0, { Split.blank with pc := BitVec.ofNat 64 (codeVa + 4 * d.clause)
                                      live := maskAll z.width, exec := maskAll z.width })]
    resp := some ⟨m.slot, z.ident, m.entry, m.ccore, m.centry, answerWords z.op z.n, false⟩ }

/-- R318: the oldest match of the spawn queue spawns at position 14 or 15. -/
def execResponderSpawn (k pos : Nat) (s : State) : Res :=
  match s.core? k, s.ctxOf k with
  | some c, some (_, x) =>
    match c.spawnQ with
    | [] => .next s
    | m :: ms =>
      match c.dir.get m.entry, x.censuses.get m.slot with
      | some d, some z =>
        match x.kernels.get d.kernel with
        | none => .next s
        | some n =>
          if (pos = 14 ∨ pos = 15) ∧ x.pool ∧ x.state.issues ∧ !c.teams.has pos then
            .next (s.updCore k fun c => { c with
              spawnQ := ms
              teams := c.teams.set pos { responder m d z pos c.nextOrder n.codeVa with att := x.att }
              staging := c.staging.set pos z.payload
              nextOrder := c.nextOrder + 1 })
          else .next s
      | _, _ => .next s
  | _, _ => .next s

/-- R319: a release of every access of the team. -/
def execRespond (x : Opnd) (s : State) : Res :=
  onTeam s fun s a =>
    a.withOps s [x] [x] fun commit os =>
      match os, a.team.resp with
      | [x], some r =>
        let off := a.off32 x
        let n := 4 * r.words
        if r.responded then .trap s responderMisuse
        else if off % 4 ≠ 0 then .trap s misaligned
        else if a.region.2 < off + n ∧ !a.inStaging off n then .trap s outsideClaim
        else if 32 ≤ a.core.answers.length then .block s (.held .answer)
        else
          let words := (List.range r.words).map fun i => word32 (a.local' (off + 4 * i) 4)
          let s := (commit s).updCore a.k fun c => { c with answers := c.answers ++ [⟨r.slot, r.ccore, r.centry, some words⟩] }
          .adv ((s.updTeam a.k a.t fun tm => { tm with resp := some { r with responded := true } }).updCore a.k (·.countAsync))
      | _, _ => .trap s responderMisuse

/-! ### Combining (R321 to R323) -/

/-- Two `merge.sm` records (R322). -/
def mergeSm (x y : List W32) : List W32 :=
  match x, y with
  | m1 :: l1 :: v1, m2 :: l2 :: v2 =>
    if isNan32 m1 || isNan32 m2 then List.replicate (v1.length + 2) 0x7FC00000#32
    else
      let m := fmax32 m1 m2
      let f1 := if feq32 m1 m then 0x3F800000#32 else fexp232 (fsub32 m1 m)
      let f2 := if feq32 m2 m then 0x3F800000#32 else fexp232 (fsub32 m2 m)
      let mix := fun a b => fadd32 (fmul32 a f1) (fmul32 b f2)
      m :: mix l1 l2 :: List.zipWith mix v1 v2
  | _, _ => x

/-- Two answers combined (R321). -/
def combine2 (op : Nat) (x y : List W32) : List W32 :=
  match op with
  | 0 => []
  | 1 => List.zipWith fadd32 x y
  | 2 => List.zipWith fmax32 x y
  | 3 => List.zipWith fmin32 x y
  | 4 => List.zipWith (· + ·) x y
  | 5 => mergeSm x y
  | _ => x

/-- The result of a census with no real answer (R321). -/
def emptyResult (op n : Nat) : List W32 :=
  match op with
  | 0 => []
  | 2 => List.replicate n 0xFF800000#32
  | 3 => List.replicate n 0x7F800000#32
  | 5 => 0xFF800000#32 :: List.replicate (n + 1) 0
  | _ => List.replicate n 0

/-- The answer that a count has received. -/
def State.answerOf (s : State) (c slot ccore centry : Nat) : Option Answer :=
  match s.ctx? c with
  | none => none
  | some x => (x.cores.flatMap fun k => match s.core? k with
      | some co => co.answers
      | none => []).find? fun a => a.slot == slot && a.ccore == ccore && a.centry == centry

/-- The cores below a node (R323): level 0 is a core, 1 an aisle (by number across dies), 2 a die, 3 the package. -/
def underNode (level node k : Nat) : Bool :=
  match level with
  | 0 => k == node
  | 1 => k / 8 == node
  | 2 => k / 80 == node
  | _ => true

/-- The numbers of the children of a node above the cores (R323). -/
def childNodes (level node : Nat) : List Nat :=
  match level with
  | 1 => (List.range 8).map fun i => 8 * node + i
  | 2 => (List.range 10).map fun i => 10 * node + i
  | _ => List.range 4

/-- The result that a node has stored; a node with no counts below it contributes nothing. -/
def Census.nodeResult (z : Census) (level node : Nat) : Option (List W32) :=
  match z.nodes.find? fun e => e.1 == level && e.2.1 == node with
  | some e => e.2.2
  | none => none

/-- The counts below a node. -/
def Census.countsUnder (z : Census) (level node : Nat) : List (Nat × Nat) :=
  z.counts.filter fun e => underNode level node e.1

/-- A node can combine (R323): every core below it has been passed, every count there is answered, and every child with
counts has combined. -/
def State.nodeReady (s : State) (c i : Nat) (z : Census) (level node : Nat) : Bool :=
  !z.toPass.any (underNode level node) &&
  (if level = 0 then (z.countsUnder 0 node).all fun e => (s.answerOf c i e.1 e.2).isSome
   else (childNodes level node).all fun m =>
     (z.countsUnder (level - 1) m).isEmpty || z.nodes.any fun e => e.1 == level - 1 && e.2.1 == m)

/-- The children of a node as leaves of its tree, in order (R323). -/
def State.nodeLeaves (s : State) (c i : Nat) (z : Census) (level node : Nat) : List (Option (List W32)) :=
  if level = 0 then (List.range 256).map fun e =>
    if z.counts.contains (node, e) then (s.answerOf c i node e).bind (·.words) else none
  else (childNodes level node).map fun m => z.nodeResult (level - 1) m

/-- R323: a node whose subtree is answered combines its children. -/
def execCombineNode (c i level node : Nat) (s : State) : Res :=
  match (s.ctx? c).bind fun x => if x.counts then x.censuses.get i else none with
  | none => .next s
  | some z =>
    if z.stage = .counting ∧ level ≤ (if z.package then 3 else 2) ∧ s.nodeReady c i z level node ∧
        !(z.countsUnder level node).isEmpty ∧ !z.nodes.any fun e => e.1 == level && e.2.1 == node then
      .next ((s.countUnit 20 (match s.ctx? c with | some x => x.fn | none => 0)).updCensus c i fun z => { z with nodes := z.nodes ++
        [(level, node, treeOf (combine2 z.op) 8 (s.nodeLeaves c i z level node))] })
    else .next s

/-- The root of a census's tree. -/
def Census.root (z : Census) : Nat × Nat := if z.package then (3, 0) else (2, dieOf z.core)

/-- The result area (R324). -/
def resultBytes (real count : Nat) (words : List W32) : List Byte :=
  toBytes 4 count ++ toBytes 4 real ++ toBytes 8 (count - real) ++ words.flatMap fun w => toBytes 4 w.toNat

/-- R324: the answers equal the count; the result is written, and the slot begins to retire. -/
def execCensusComplete (c i : Nat) (s : State) : Res :=
  match s.ctx? c, (s.ctx? c).bind fun x => if x.counts then x.censuses.get i else none with
  | some x, some z =>
    let (level, node) := z.root
    let got := z.counts.map fun e => s.answerOf c i e.1 e.2
    if z.stage = .counting ∧ z.toPass.isEmpty ∧ got.all (·.isSome) ∧
        (z.counts.isEmpty ∨ z.nodes.any fun e => e.1 == level && e.2.1 == node) then
      let real := (got.filter fun a => a.any fun a => a.words.isSome).length
      let words := (z.nodeResult level node).getD (emptyResult z.op z.n)
      let s := s.updCore z.core fun co =>
        let m := Regs.setBytes co.shared z.roff (resultBytes real z.counts.length words)
        { co with shared := m }
      .next (s.updCensus c i fun z => { z with stage := .retiring, toRetire := x.cores })
    else .next s
  | _, _ => .next s

/-- The last directory has cleared a slot (R324): the census cost leaves, then its bytes leave the barrier. -/
def State.censusDone (s : State) (c i : Nat) (z : Census) : State :=
  let s := s.updCtx c fun x => { x with censuses := x.censuses.del i }
  (s.dropItem z.core z.item).settleBytes z.core z.bar (16 + 4 * answerWords z.op z.n) false

/-- R320: the retire of slot `i` reaches core `k`: its bits are cleared, its answers forgotten, and stubs that waited for
it alone, and that nothing forwards to, are freed (R309, R311). -/
def execCensusSlotRetireArrive (c i k : Nat) (s : State) : Res :=
  match (s.ctx? c).bind fun x => if x.present then x.censuses.get i else none with
  | none => .next s
  | some z =>
    if z.stage ≠ .retiring ∨ !z.toRetire.contains k then .next s
    else
      let off : W64 := ~~~(BitVec.ofNat 64 (2 ^ i))
      let s := (s.updCore k fun co => { co with
        dir := co.dir.mapVals fun d => { d with answered := d.answered &&& off, waits := d.waits &&& off }
        answers := co.answers.filter fun a => a.slot != i }).sweepStubs 256
      let s := s.updCensus c i fun z => { z with toRetire := z.toRetire.filter (· != k) }
      .next (if z.toRetire.filter (· != k) = [] then s.censusDone c i z else s)

end Sys2Proof.Machine
end

