-- ==== Sys2Proof/Machine/Kernels.lean ====
section
/-! DEFINITION. Kernels (17): sequence counters, record queues, phase records and their commits, the placement of crews and
phases, and the retire of crews and kernels. -/

namespace Sys2Proof.Machine

/-! ### Sequence counters (R290, R288) -/

def counterDecrease : Trap := { code := 0x0401 }
def queueOverflow : Trap := { code := 0x0402 }

/-- The commit list of a team after one more add (R290): none when it would hold more than 16 counters. -/
def Team.addCommit (tm : Team) (va amt : Nat) : Option Team :=
  match tm.commit.find? fun a => a.va == va with
  | some _ => some { tm with commit := tm.commit.map fun a : CommitAdd =>
      if a.va = va then { a with amt := min (a.amt + amt) (2 ^ 64 - 1) } else a }
  | none => if 16 ≤ tm.commit.length then none else some { tm with commit := tm.commit ++ [⟨va, amt, [], false, 0⟩] }

/-- The cost item that a deferred add carries, in the estimate of core `k` (R290). -/
def Team.itemCommit (tm : Team) (k va : Nat) (item : Option Nat) : Team :=
  { tm with commit := tm.commit.map fun a : CommitAdd =>
      if a.va = va then { a with items := a.items ++ item.toList, core := k } else a }

/-- The drain cost of `n` bytes in the context of core `k` (R249). -/
def State.drainOn (s : State) (k n : Nat) : Nat :=
  match s.ctxOf k with
  | some (_, x) => x.drainCost n
  | none => 0

/-- R290. -/
def execSeqAdd (x y : Opnd) (par : SeqPar) (s : State) : Res :=
  onLocal s fun s a =>
    let va := (a.u x).toNat
    let amt := (a.u y).toNat
    if !a.team.claimsAll [x, y] || (!par.cmt && !a.team.claimsBar par.bar) then .trap s outsideClaim
    else if va % 8 ≠ 0 then .trap s misaligned
    else if 2 ^ 63 ≤ amt then .trap s counterDecrease
    else if amt = 0 then .adv (s.updCore a.k (·.countAsync))
    else if par.cmt then
      match a.team.addCommit va amt with
      | none => .trap s outsideClaim
      | some tm => a.costed s (some (s.drainOn a.k 8)) fun s item =>
          .adv ((a.put s (tm.itemCommit a.k va item)).updCore a.k (·.countAsync))
    else match a.barCheck (a.barOff par.bar) with
      | some tr => .trap s tr
      | none =>
        if 512 ≤ a.core.packets then .block s (.held .packets)
        else a.costed s (some (s.drainOn a.k 8)) fun s item =>
          let op := a.newOp s (.seqAdd amt) (a.barOff par.bar) 8 0 item
          let op := { op with rel := par.rel, scope := par.scope.toNat
                              relW := if par.rel then s.relsOf a.k a.t a.team.order a.p else [] }
          .adv (s.startOp a.k op 8 [⟨0, va, 0, 8, 0, [], false, []⟩])

/-- R290: free. -/
def execSeqRd (d x y : Opnd) (s : State) : Res :=
  onLocal s fun s a =>
    let dst := a.off32 d
    let va := (a.u x).toNat
    let bar := (a.u y).toNat
    if !a.team.claimsAll [d, x, y] then .trap s outsideClaim
    else match a.barCheck bar with
      | some tr => .trap s tr
      | none =>
        if dst % 8 ≠ 0 then .trap s misaligned
        else if a.region.2 < dst + 8 then .trap s outsideClaim
        else if va % 8 ≠ 0 then .trap s misaligned
        else if 512 ≤ a.core.packets then .block s (.held .packets)
        else .adv (s.startOp a.k (a.newOp s .seqRd bar 8 0 none) 8 [⟨0, va, a.region.1 + dst, 8, 0, [], false, []⟩])

/-- The one part of a form that has one. -/
def onFirst (s : State) (k x : Nat) (f : AsyncOp → Part → State) : Res :=
  match s.async? k x with
  | none => .next s
  | some op => match op.parts with
    | p :: _ => .next (if s.partReady k op p then f op p else s.rewakePart k p)
    | [] => .next s

/-- R288, R290: the add, saturating, where it was translated to when it was sent, then its acknowledgement. Its read and its
write meet lost units as any (R240). -/
def execSeqAddPerform (k x : Nat) (s : State) : Res :=
  onFirst s k x fun op p =>
    match op.kind, p.accs, s.ctxOf k with
    | .seqAdd amt, [y], some (c, _) =>
      if p.target ≤ 7 ∧ (s.isLost y.pa 8 ∨ s.writeLost y.pa 8) then s.failPart k x op p whyLost
      else
        let s := s.preRead y.pa 8
        let s := if op.rel && op.scope == 6 then s.portRelease else s
        (((s.counterAddAt c y.va y.pa amt).dropPart k x p.i).settleBytes k op.bar 8 false).finishOp k x 65535
    | _, _, _ => s

/-- R290: the counter, read whole, is placed in the shared store. -/
def execSeqRdComplete (k x : Nat) (s : State) : Res :=
  onFirst s k x fun op p => if op.kind = .seqRd then s.deliver k x op p else s

/-! ### Record queues (R292 to R294) -/

/-- The checks of R293 on an operand run: the offset (for a push that of a source, which a responder may have in its staging
buffer, R318), the descriptor, the barrier. -/
def At.recCheck (a : At) (push : Bool) (off va bar : Nat) : Option Trap :=
  if off % 16 ≠ 0 then some misaligned
  else if a.region.2 < off + 64 ∧ !(push && a.inStaging off 64) then some outsideClaim
  else if va % 64 ≠ 0 then some misaligned
  else a.barCheck bar

/-- A crew's first `rec.pop` on the queue whose binding queued it (R294): the crew no longer counts as a pop. -/
def State.spendCredit (s : State) (k c crew q : Nat) : State :=
  match (s.core? k).bind fun co => co.crews.get crew with
  | some w =>
    if w.credit = some q then
      (s.updCore k fun co => { co with crews := co.crews.upd crew fun w => { w with credit := none } }).updRecq c q fun rq =>
        { rq with credit := rq.credit.erase w.kernel }
    else s
  | none => s

/-- R293: joins the queue's pending pops. -/
def execRecPop (d x y : Opnd) (s : State) : Res :=
  onLocal s fun s a =>
    let off := a.off32 d
    let q := (a.u x).toNat
    let bar := (a.u y).toNat
    if !a.team.claimsAll [d, x, y] then .trap s outsideClaim
    else match a.recCheck false off q bar, s.ctxOf a.k with
      | some tr, _ => .trap s tr
      | none, none => .stay s
      | none, some (c, _) =>
        if (s.recq? c q).isNone then .trap s protection
        else if 512 ≤ a.core.packets then .block s (.held .packets)
        else
          let op := a.newOp s (.recPop q) bar 64 0 none
          let op := { op with parts := [⟨0, 8, .sent, [⟨0, 0, a.region.1 + off, 64, 0, [], false, []⟩], 0, partId a.k a.core.nextX 0⟩]
                              nextPart := 1 }
          let n := a.core.nextX
          let s := s.updCore a.k fun co => { co with asyncs := co.asyncs.set n op, nextX := n + 1 }.countAsync
          let s := (s.barAdd a.k op.bar 64).spendCredit a.k c a.team.crew q
          .adv ((s.updRecq c q fun rq => { rq with pops := rq.pops ++ [⟨a.k, n, a.team.kernel⟩] }).fireBinding c q)

/-- R293: the split is held until the queue engine answers; the drain cost enters at once. -/
def execRecPush (d x y : Opnd) (s : State) : Res :=
  onLocal s fun s a =>
    let off := a.off32 d
    let q := (a.u x).toNat
    let bar := (a.u y).toNat
    if !a.team.claimsAll [d, x, y] then .trap s outsideClaim
    else match a.recCheck true off q bar, s.ctxOf a.k with
      | some tr, _ => .trap s tr
      | none, none => .stay s
      | none, some (c, _) =>
        if (s.recq? c q).isNone then .trap s protection
        else if 512 ≤ a.core.packets then .block s (.held .packets)
        else a.costed s (some (s.drainOn a.k 64)) fun s item => .block s (.recPush q off bar item)

/-- The operation that writes a pushed record (R293). -/
def pushOp (s : State) (t p : Nat) (tm : Team) (q j bar : Nat) (item : Option Nat) (pc : W64) : AsyncOp where
  team := t
  order := tm.order
  split := p
  crew := tm.crew
  kind := .recPush q j
  bar := bar
  size := 64
  parts := []
  nextPart := 0
  pub := none
  item := item
  pc := pc
  afterW := tm.fenceW
  afterR := tm.fenceR
  sampled := false
  nlanes := 0
  sectors := []
  replays := 0
  issuedAt := s.tstamp
  acq := false
  rel := true
  scope := 5
  relW := []
  port := false
  heldNs := 0

/-- R293: the engine answers a held `rec.push`: a slot is reserved and the record is read and sent, or the queue is full. -/
def execRecPushEngineAnswer (k t p : Nat) (s : State) : Res :=
  match s.team? k t, s.split? k t p, s.ctxOf k with
  | some tm, some sp, some (c, _) =>
    match sp.state, sp.wait, sp.clause with
    | .waiting, .recPush q off bar item, some cl =>
      let pc := cl.h + BitVec.ofNat 64 (4 * cl.pos)
      let fault := fun tr => ((s.release k t p).dropItem k item).trap k t p tr pc pc cl.h cl.hdr cl.pos
      if !tm.mayWake p || !s.coreIssues k then .next s
      else match s.recq? c q with
        | none => .next (if tm.mayIssue p then fault protection else s)
        | some rq =>
          if rq.room = 0 then .next (if tm.mayIssue p then fault queueOverflow else s)
          else
            let base := (s.regionOf k tm.crew).1
            let bs := match s.core? k with
              | some co => if tm.resp.isSome ∧ stagingBase ≤ off then
                  ((((co.staging.get t).getD []).drop (off - stagingBase)) ++ List.replicate 64 0).take 64
                else Regs.bytes co.shared (base + off) 64
              | none => []
            let op := { pushOp s t p tm q rq.tail (base + bar) item pc with
              relW := s.relsOf k t tm.order p }
            let s := s.updRecq c q fun rq => { rq with tail := rq.tail + 1 }
            let s := s.startOp k op 64 [⟨0, rq.slot rq.tail, 0, 64, 0, bs, false, []⟩]
            .next ((s.updCore k (·.countIssue sp.wlen)).advance k t p sp.wlen)
    | _, _, _ => .next s
  | _, _, _ => .next s

/-- R293: the record is written and acknowledged, and `pub` advances. -/
def execRecPushAck (k x : Nat) (s : State) : Res :=
  onFirst s k x fun op p =>
    match op.kind, p.accs, s.ctxOf k with
    | .recPush q j, [y], some (c, _) =>
      match s.writeAcc k op p.target y y.data with
      | none => s.failPart k x op p (lateWhy p.target)
      | some s' => (((s'.dropPart k x p.i).settleBytes k op.bar 64 false).finishOp k x 65535).ackRecord c q j
    | _, _, _ => s

/-- R293: the oldest pending pop receives the record at `head`. Where the record cannot be read the pop fails (R151, R271), and
the record stays at the head of the queue; where its page is absent the pop is held for it (R225). -/
def execRecPopPlace (k x : Nat) (s : State) : Res :=
  onFirst s k x fun op p =>
    match op.kind, p.accs, s.ctxOf k with
    | .recPop q, [y], some (c, _) =>
      match s.recq? c q with
      | none => s
      | some rq =>
        match rq.pops with
        | o :: os =>
          if o.core ≠ k ∨ o.x ≠ x ∨ rq.pub ≤ rq.head then s
          else
            let va := rq.slot rq.head
            let atRec := { p with accs := [{ y with va := va }] }
            let fails := fun why => s.failPop c k x q op atRec why
            match s.translate c va .r with
            | .bad => fails whyProtection
            | .absent => (s.updAsync k x fun op => { op with parts := [{ atRec with state := .held (va / 65536) }] }).pageFault
                c va
            | .pa a =>
              let g : Agent := ⟨some c, popId p.id, linkUnit k⟩
              if isFar a && !(s.link 1).serves then fails whySource
              else if isHbm a && (s.plot (plotOf a)).state == .off then fails whyProtection
              else if isHbm a && s.isLost a 64 then fails whyLost
              else if !s.runsReady g [] [(a, 64)] then s.askRuns g [] [(a, 64)]
              else
                let s := ((s.walkTouch c va).doneRuns g [(a, 64)]).updCore k fun co => { co with shared := Regs.setBytes co.shared y.loc (s.pa a 64) }
                let s := s.updRecq c q fun rq => { rq with head := rq.head + 1, pops := os }
                (((s.dropPart k x p.i).settleBytes k op.bar 64 false).finishOp k x 65535).fireBinding c q
        | _ => s
    | _, _, _ => s

/-- The fields of a record-queue descriptor that keep their limits (R292). -/
def recqLegal (w : Nat → W64) : Bool :=
  let size := bits (w 1) 31 0
  bits (w 0) 5 0 == 0 && bits (w 1) 63 32 == 0 && decide (2 ≤ size ∧ size ≤ 2 ^ 24) &&
    ((w 1) &&& ((w 1) - 1)) == 0 && bits (w 5) 63 33 == 0 && decide (1 ≤ bits (w 5) 31 16) && w 6 == 0 && w 7 == 0

/-- 64-bit words of a run of bytes. -/
def word64s (bs : List Byte) (i : Nat) : W64 := BitVec.ofNat 64 (ofBytes ((bs.drop (8 * i)).take 8))

/-- R292: the resident kernel registers the descriptor at `desc`, or writes the fields it may write in one that is
registered; the descriptor and the ring are pinned. -/
def execRecordQueueRegister (c desc : Nat) (s : State) : Res :=
  match s.ctx? c, s.readVa c desc 64 with
  | some x, some bs =>
    let w := word64s bs
    let size := bits (w 1) 31 0
    if !s.rkUp || desc % 64 != 0 || !recqLegal w || !s.runWarm c desc 64 || !s.runWarm c (w 0).toNat (64 * size) then .next s
    else
      let bind := bitAt (w 5) 32
      let thresh := bits (w 5) 31 16
      let kernel := bits (w 5) 15 0
      match x.recqs.get desc with
      | some _ =>
        let s := s.pinRun c (w 0).toNat (64 * size) false
        .next (s.updRecq c desc fun rq => { rq with
          ring := (w 0).toNat, size := size, bind := bind, thresh := thresh, kernel := kernel })
      | none =>
        let s := (s.pinRun c desc 64 false).pinRun c (w 0).toNat (64 * size) false
        .next ((s.updCtx c fun x => { x with
          recqs := x.recqs.set desc ⟨(w 0).toNat, size, 0, 0, 0, bind, thresh, kernel, [], [], []⟩ }).mirrorQueue c desc)
  | _, _ => .next s

/-! ### Placement (R102, R285, R16) -/

/-- Where a region of `n` bytes fits in a core's shared store: from 0, or from the end of another region rounded up to 2 KiB
(R134); the lowest place that is free. -/
def Core.findRegion (co : Core) (n : Nat) : Option Nat :=
  let fits := fun b : Nat => decide (b + n ≤ 524288) &&
    co.crews.all fun w => w.2.size == 0 || decide (b + n ≤ w.2.base ∨ w.2.base + w.2.size ≤ b)
  (0 :: co.crews.map fun w => ceilDiv (w.2.base + w.2.size) 2048 * 2048).foldl (fun r b =>
    if fits b then (match r with
      | some a => some (min a b)
      | none => some b)
    else r) none

/-- The free positions for placed teams: the lowest first (R14). -/
def Core.freePositions (co : Core) (pool : Bool) : List Nat :=
  (List.range (if pool then 14 else 16)).filter fun i => !co.teams.has i

/-- What a placement asks of a core. -/
structure Shape where
  teams : Nat
  lanes : Nat
  vregs : Nat
  sregs : Nat
  acc : Nat
  shared : Nat
  deriving DecidableEq, Repr

/-- Whether a core can hold a crew of a shape (R102, R14). -/
def Core.canHold (co : Core) (pool : Bool) (h : Shape) : Bool :=
  decide (h.teams ≤ (co.freePositions pool).length) &&
    decide (co.regBytes + h.teams * h.lanes * h.vregs * 4 ≤ regFile pool) &&
    decide (h.acc ≤ co.freeTiles.length) && (co.findRegion h.shared).isSome && (co.crews.lowestFree 16 0).isSome

/-- The lowest-indexed core of a context that can hold a shape (R285). -/
def State.coreFor (s : State) (c : Nat) (x : Ctx) (h : Shape) : Option Nat :=
  (s.coresOf c).find? fun k => (s.core? k).any fun co => co.canHold x.pool h

/-- A place for the backing of `n` spill stacks (R119): backed HBM of one plot, 512 KiB to a team. -/
def backFits (back n : Nat) : Bool :=
  back % 16 == 0 && backed back && backed (back + n * 524288 - 1) && plotOf back == plotOf (back + n * 524288 - 1)

/-- The plot of a backing is Warm: until it is, the placement that pins it waits (R231). -/
def State.backWarm (s : State) (back : Nat) : Bool := (s.plot (plotOf back)).state == .warm

/-- A team as it is placed (R102): every lane live, the split at `entry`, its source record `src`. -/
def freshTeam (x : Ctx) (kn : Kern) (h : Shape) (n crew serial order index back : Nat) (entry : W64) (src : Nat) : Team :=
  { Team.blank with
    crew := crew
    kernel := n
    serial := serial
    index := index
    role := (kn.roles[index]?).getD 0
    lanes := h.lanes
    order := order
    vcount := h.vregs
    scount := h.sregs
    placedV := h.vregs
    placedS := h.sregs
    splits := [(0, { Split.blank with pc := entry, live := maskAll h.lanes, exec := maskAll h.lanes })]
    backing := back
    att := x.att
    source := some src }

/-- A crew slot is taken: its region reads as zero (R102), its tiles belong to the team at `pos`, and the positions are to
be assigned again (R15). `bound` says that a launch binding queued it (R164). -/
def Core.openCrew (co : Core) (n serial slot base : Nat) (h : Shape) (pos : Nat) (credit : Option Nat) (bound : Bool) : Core :=
  { co with
    crews := co.crews.set slot ⟨n, serial, base, h.shared, [], 0, credit, bound⟩
    shared := Regs.clear co.shared fun i => decide (base ≤ i ∧ i < base + h.shared)
    tiles := (co.freeTiles.take h.acc).foldl (fun m i => Map.set m i ⟨pos, false, [], 0, false, false, 0, true⟩) co.tiles
    reassign := true }

/-- The next crew serial of a kernel (R164). -/
def Kern.nextSerial (n : Kern) : Kern := { n with serial := (n.serial + 1) % 2 ^ 28 }

/-- An initial record (R286). -/
def initialRec (kn : Kern) (serial index : Nat) : PhaseRec :=
  { PhaseRec.empty with
    state := .placed
    entry := BitVec.ofNat 64 kn.codeVa
    team := 16 * serial + index
    init := true
    role := index
    lanes := kn.lanes }

def Kern.shape (kn : Kern) : Shape := ⟨kn.teams, kn.lanes, kn.vregs, kn.sregs, kn.acc, kn.shared⟩

/-- R102, R285: the oldest queued crew of kernel `n` is placed, its teams' spill backings from PA `back`. -/
def execCrewPlace (c n back : Nat) (s : State) : Res :=
  match s.ctx? c, s.kern? c n with
  | some x, some kn =>
    let h := kn.shape
    let srcs := kn.freeRecs.take kn.teams
    match kn.queued, s.coreFor c x h with
    | credit :: rest, some k =>
      match s.core? k with
      | none => .next s
      | some co =>
        match co.crews.lowestFree 16 0, co.findRegion h.shared with
        | some slot, some base =>
          if !s.rkUp || x.state != .running || kn.state == .unloaded || srcs.length != kn.teams || !backFits back kn.teams then
            .next s
          else if !s.backWarm back then .next (s.wakePlot (plotOf back))
          else
            let ps := (co.freePositions x.pool).take kn.teams
            let tms := (List.range kn.teams).map fun i => ((ps[i]?).getD 0,
              freshTeam x kn h n slot kn.serial (co.nextOrder + i) i (back + i * 524288) (BitVec.ofNat 64 kn.codeVa)
                ((srcs[i]?).getD 0))
            let s := s.updCore k fun co =>
              let co := co.openCrew n kn.serial slot base h ((ps[0]?).getD 0) credit credit.isSome
              { co with teams := tms.foldl (fun m e => Map.set m e.1 e.2) co.teams, nextOrder := co.nextOrder + kn.teams }
            let s := (List.range kn.teams).foldl (fun s i => s.setRecFull c n ((srcs[i]?).getD 0) (initialRec kn kn.serial i)) s
            .next (s.updKern c n fun kn => { kn.nextSerial with queued := rest })
        | _, _ => .next s
    | _, _ => .next s
  | _, _ => .next s

/-- The shape a record is placed in (R285): an initial record has its place in its crew again, any other its carry set and
no tiles. -/
def Kern.recShape (kn : Kern) (r : PhaseRec) : Shape :=
  if r.init then ⟨1, kn.lanes, kn.vregs, kn.sregs, if r.role = 0 then kn.acc else 0, kn.shared⟩
  else ⟨1, r.lanes, r.carry, r.sregs, 0, kn.shared⟩

/-- R285, R289, R16: the oldest Ready record of kernel `n` is placed as a crew of one team. -/
def execPhasePlace (c n back : Nat) (s : State) : Res :=
  match s.ctx? c, s.kern? c n with
  | some x, some kn =>
    match kn.readyQ with
    | [] => .next s
    | ri :: rest =>
      match kn.recs.get ri with
      | none => .next s
      | some r =>
        let h := kn.recShape r
        match s.coreFor c x h with
        | none => .next s
        | some k =>
          match s.core? k with
          | none => .next s
          | some co =>
            match co.crews.lowestFree 16 0, co.findRegion h.shared, co.freePositions x.pool with
            | some slot, some base, pos :: _ =>
              if !s.rkUp || x.state != .running || kn.state == .unloaded || !backFits back 1 then .next s
              else if !s.backWarm back then .next (s.wakePlot (plotOf back))
              else
                let tm := freshTeam x kn h n slot kn.serial co.nextOrder r.role back r.entry ri
                let tm := if r.init then tm else { tm with v := r.v, s := r.s }
                let s := s.updCore k fun co =>
                  let co := co.openCrew n kn.serial slot base h pos none false
                  { co with teams := co.teams.set pos { tm with replay := r.replay }, nextOrder := co.nextOrder + 1 }
                let s := s.setRec c n ri { r with state := .placed }
                .next (s.updKern c n fun kn => { kn.nextSerial with readyQ := rest })
            | _, _, _ => .next s
  | _, _ => .next s

/-! ### Phases and their commits (R123, R287, R291) -/

/-- No async work of a team is outstanding (R123): operations, matrix instructions, chains and solicits. -/
def State.teamIdle (s : State) (k t : Nat) (tm : Team) : Bool :=
  match s.core? k, s.ctxOf k with
  | some co, some (_, x) => (co.workOf t tm.order (fun _ => true) true true).isEmpty &&
      !x.censuses.any fun z => z.2.core == k && z.2.team == t && z.2.order == tm.order
  | _, _ => false

/-- The record that a phasing team writes (R286, R123). -/
def phaseRec (tm : Team) (teamT k n : Nat) (entry : W64) : PhaseRec :=
  { PhaseRec.empty with
    state := .writing
    entry := entry
    team := teamT
    carry := n
    sregs := tm.scount
    role := tm.index
    lanes := tm.lanes
    cond := tm.conds
    commit := tm.commit
    core := k
    src := tm.source
    s := tm.s.filter fun e => decide (e.1 < tm.scount)
    v := tm.v.filter fun e => decide (e.1 < 1024 * n) }

/-- R123, R287: the record of a Phasing team whose work is done is written into the lowest Free record, and the team
retires. Nothing of the record can be seen in memory before its commit. -/
def execPhaseRecordWrite (k t : Nat) (s : State) : Res :=
  match s.core? k, s.team? k t, s.ctxOf k with
  | some co, some tm, some (c, x) =>
    match tm.phase, (x.kernOf tm).bind (·.freeRec) with
    | some (n, entry), some r =>
      if tm.state ≠ .phasing ∨ !s.teamIdle k t tm then .next s
      else
        let s := s.updKern c tm.kernel fun kn => { kn with recs := kn.recs.set r (phaseRec tm (co.teamT tm) k n entry) }
        .next (s.removeTeam k t)
    | _, _ => .next s
  | _, _, _ => .next s

/-- The source of a committed record is freed (R287). -/
def State.freeSource (s : State) (c n : Nat) (src : Option Nat) : State :=
  match src, s.kern? c n with
  | some i, some kn => match kn.recs.get i with
    | some r => s.setRec c n i { r with state := .free }
    | none => s
  | _, _ => s

/-- R287, R291: every byte of a Writing record is acknowledged: its adds become due, the source is freed, and the record
waits for its conditions. -/
def execPhaseCommit (c n r : Nat) (s : State) : Res :=
  match (s.kern? c n).bind fun kn => kn.recs.get r with
  | none => .next s
  | some rec =>
    if rec.state ≠ .writing then .next s
    else
      let s := s.setRecFull c n r { rec with state := .waiting, due := true, src := none }
      .next ((s.freeSource c n rec.src).evalRec c n r)

/-- Cost items leave the estimate of a core of a context, where the context stands or is saved (R250). -/
def State.dropItemsOf (s : State) (c k : Nat) (items : List Nat) : State :=
  let drop := fun co : Core => { co with items := co.items.filter fun e => !items.contains e.1 }
  match s.core? k with
  | some co =>
    if co.ctx = some c then s.updCore k drop else s.updCtx c fun x => { x with saved := x.saved.upd k drop }
  | none => s.updCtx c fun x => { x with saved := x.saved.upd k drop }

/-- The costs that adds settled earlier still carry leave with the last of their commit (R290). -/
def State.dropSettled (s : State) (c : Nat) (es : List (Nat × List Nat)) : State :=
  es.foldl (fun s e => s.dropItemsOf c e.1 e.2) s

/-- Add `i` of a record is settled: it leaves the commit area, and a Final record with none left is Free. The costs of the
adds leave when all of the commit are settled (R290). -/
def State.settleAdd (s : State) (c n r i : Nat) (a : CommitAdd) : State :=
  match s.kern? c n with
  | none => s
  | some kn => match kn.recs.get r with
    | none => s
    | some rec =>
      let rest := rec.commit.eraseIdx i
      let st := if rec.state = .final ∧ rest.isEmpty then .free else rec.state
      let done := rec.settled ++ [(a.core, a.items)]
      if !rest.isEmpty then s.setRec c n r { rec with commit := rest, settled := done }
      else
        let s := if kn.records ≤ r then s.updKern c n fun kn => { kn with recs := kn.recs.del r }
          else s.setRec c n r { rec with commit := [], state := st, due := false, settled := [], after := [] }
        s.dropSettled c done

/-- The writes that a commit follows are acknowledged, on the team's core or where it is saved (R291). -/
def State.commitClear (s : State) (c : Nat) (rec : PhaseRec) : Bool :=
  match s.core? rec.core with
  | some co => if co.ctx = some c then co.clear rec.after
    else ((s.ctx? c).bind fun x => x.saved.get rec.core).all (·.clear rec.after)
  | none => true

/-- R291: a due add is performed, after every write of its team; one whose page is absent asks for service and stays, and one
whose expander link is down waits for it. -/
def execDeferredAddPerform (c n r i : Nat) (s : State) : Res :=
  match (s.kern? c n).bind fun kn => kn.recs.get r with
  | none => .next s
  | some rec =>
    match rec.commit[i]? with
    | none => .next s
    | some a =>
      if !rec.due || a.refused || !s.commitClear c rec then .next s
      else match s.translate c a.va .rw with
        | .bad => .next s
        | .absent => .next (s.pageFault c a.va)
        | .pa pa =>
          let g : Agent := ⟨some c, addId c n r a.va, 21⟩
          if isFar pa && !(s.link 1).serves then .next s
          else if isHbm pa && (s.isLost pa 8 || s.writeLost pa 8) then .next s
          else if !s.runsReady g [] [(pa, 8)] then .next (s.askRuns g [] [(pa, 8)])
          else .next (((((s.walkTouch c a.va).doneRuns g [(pa, 8)]).preRead pa 8).counterAddAt c a.va pa a.amt).settleAdd c n r i a)

/-- R291: an add whose page was refused, or lacks a permission, or whose counter can no longer be read or written (R240, R231), is
dropped alone and logged. -/
def execDeferredAddDrop (c n r i : Nat) (s : State) : Res :=
  match s.kern? c n with
  | none => .next s
  | some kn =>
    match (kn.recs.get r).bind fun rec => (rec.commit[i]?).map fun a => (rec, a) with
    | none => .next s
    | some (rec, a) =>
      let bad := s.translate c a.va .rw == .bad
      let off := match s.translate c a.va .rw with
        | .pa pa => isHbm pa && (s.plot (plotOf pa)).state == .off
        | _ => bad
      let lost := match s.translate c a.va .rw with
        | .pa pa => isHbm pa && (s.isLost pa 8 || s.writeLost pa 8)
        | _ => false
      if !rec.due || !s.commitClear c rec || !(a.refused || off || lost) then .next s
      else .next ((s.settleAdd c n r i a).log c n rec.team 0 1 (if a.refused then 0x0302 else if off then 0x0301 else 0x0304) 0
        (BitVec.ofNat 64 a.va) kn.pidtid)

/-! ### The retire of crews and kernels (R105, R284) -/

/-- A record of a chain names the core window, where its region is written (R157): by a destination row, a completion slot, or the
record's own `own`. -/
def ChanRec.writesCore (va : Nat) (r : ChanRec) : Bool :=
  let base := 0x1FF * 2 ^ 48
  inCoreWin va || inCoreWin r.cpl ||
    decide (r.dst < base + 2 ^ 40 ∧ base < r.dst + (r.count - 1) * r.dstride + r.length)

/-- Something still writes the region of crew `r`, or will (R105): the work that a barrier of it counts, and the chains that
name the core window. -/
def State.crewBusy (s : State) (k r : Nat) (co : Core) : Bool :=
  co.teams.any (fun e => e.2.crew == r) || co.asyncs.any (fun e => e.2.crew == r) || co.mats.any (fun e => e.2.crew == r) ||
    co.chans.any (fun e => e.2.crew == r && s.chanMay k e.2 ChanRec.writesCore) ||
    (match s.ctxOf k with
     | some (_, x) => x.censuses.any fun z => z.2.core == k && z.2.crew == r
     | none => false)

/-- The queued crew that a binding counts as a pop retires without having popped (R294). -/
def State.loseCredit (s : State) (c : Nat) (w : Crew) : State :=
  match w.credit with
  | some q => (s.updRecq c q fun rq => { rq with credit := rq.credit.erase w.kernel }).fireBinding c q
  | none => s

/-- R105, R309: a crew all of whose teams have retired drops its directory entries; when nothing writes its region and no
entry is left, the region is free. -/
def execCrewRetire (k r : Nat) (s : State) : Res :=
  match s.core? k, s.ctxOf k with
  | some co, some (c, _) =>
    match co.crews.get r with
    | none => .next s
    | some w =>
      if co.teams.any fun e => e.2.crew == r && e.2.resp.isNone then .next s
      else
        let mine := co.dir.filter fun d => d.2.crew == r && d.2.state == .resident && !d.2.dropping
        if !mine.isEmpty then .next (mine.foldl (fun s d => s.dropEntry k d.1) s)
        else
          let gone := co.dir.filter fun d => d.2.crew == r && d.2.dropping && s.dropFree k d.1
          if !gone.isEmpty then .next (s.updCore k fun co => { co with dir := gone.foldl (fun m d => Map.del m d.1) co.dir })
          else if s.crewBusy k r co ||
              co.dir.any (fun d => d.2.crew == r && (d.2.state == .resident || d.2.state == .movingOut)) then .next s
          else
            let s := s.updCore k fun co => { co with
              crews := co.crews.del r
              dir := co.dir.filter fun d => !(d.2.crew == r && d.2.state == .movingIn)
              reassign := true }
            .next (s.loseCredit c w)
  | _, _ => .next s

/-- The page of a VA is unpinned, unless one of some runs lies in it. -/
def State.unpinUnless (s : State) (c va : Nat) (runs : List (Nat × Nat)) : State :=
  match s.leaf c va with
  | none => s
  | some (_, l, e) =>
    if !bitAt e 5 || runs.any fun r => decide (0 < r.2 ∧ r.1 < regionBase va l + regionSize l ∧ regionBase va l < r.1 + r.2) then s
    else (s.unpinPage c va).retire c va l

/-- A kernel is Unloaded: its records are Free, its queued crews are forgotten with their credit (R294), and its pool and
sections are unpinned. Adds that are due are still performed (R291), and a list discarded with its record loses its costs
(R290). -/
def State.unload (s : State) (c n : Nat) : State :=
  match s.ctx? c, s.kern? c n with
  | some x, some kn =>
    let due := fun r : PhaseRec => r.due && !r.commit.isEmpty
    let s := kn.recs.foldl (fun s e => if due e.2 then s.setRec c n e.1 { e.2 with state := .final }
      else
        let s := s.dropSettled c (e.2.settled ++ e.2.commit.map fun a => (a.core, a.items))
        s.setRec c n e.1 { e.2 with state := .free, commit := [], settled := [] }) s
    let s := kn.queued.foldl (fun s e => match e with
      | some q => s.updRecq c q fun rq => { rq with credit := rq.credit.erase n }
      | none => s) s
    let s := (pageVas kn.image kn.imageBytes ++ pageVas kn.pool kn.poolBytes).foldl (fun s va =>
      s.unpinUnless c va (s.pinnedRuns c (some n) x)) s
    s.updKern c n fun kn => { kn with state := .unloaded, recs := kn.recs.filter fun e => due e.2, queued := [], readyQ := [] }
  | _, _ => s

/-- A team of kernel `n` stands on a core of the context, or is saved with it. -/
def State.kernelRuns (s : State) (c n : Nat) (x : Ctx) : Bool :=
  (s.cores.any fun e => e.2.ctx == some c && e.2.teams.any fun t => t.2.kernel == n) ||
    x.saved.any fun e => e.2.teams.any fun t => t.2.kernel == n

/-- R284: a Closing kernel's last team has retired and no accepted work is left. -/
def execKernelCloseComplete (c n : Nat) (s : State) : Res :=
  match s.ctx? c, s.kern? c n with
  | some x, some kn =>
    let open' := kn.recs.any fun e => match e.2.state with
      | .ready | .placed | .writing => true
      | _ => false
    .next (if kn.state = .closing ∧ kn.queued.isEmpty ∧ !open' ∧ !s.kernelRuns c n x then s.unload c n else s)
  | _, _ => .next s

/-- Items of a team's splits and of its deferred adds, which leave as the resident kernel retires it (R290). -/
def Team.heldItems (tm : Team) : List Nat :=
  (tm.splits.flatMap fun e => e.2.prepaid.toList ++ (match e.2.wait with
    | .recPush _ _ _ item => item.toList
    | .sys _ _ item => [item]
    | _ => [])) ++ tm.commit.flatMap (·.items)

/-- The resident kernel retires a team: its waiting costs and its commit list go with it (R291, R266). -/
def State.killTeam (s : State) (c k t : Nat) : State :=
  match s.team? k t with
  | none => s
  | some tm => (((s.dropItemsOf c k tm.heldItems).cancelPops k t tm.order).responderGone k tm).removeTeam k t

/-- A record of the pool is freed by the resident kernel, with its entry in the log (R284). -/
def State.endRec (s : State) (c n : Nat) (kn : Kern) (e : Nat × PhaseRec) (code : BitVec 16) (grade : Nat) : State :=
  if kn.records ≤ e.1 ∨ e.2.state = .free then s else s.log c n e.2.team 3 grade code.toNat 0 0 kn.pidtid

/-- A Held team of kernel `n` with the fault it is held for. -/
def State.heldFault (s : State) (c n : Nat) : Option FaultInfo :=
  (s.cores.filter fun e => e.2.ctx == some c).findSome? fun e =>
    e.2.teams.findSome? fun t => if t.2.kernel = n ∧ t.2.state = .held then t.2.fault else none

/-- R284, R266: the resident kernel ends a kernel for the fault of one of its Held teams: every team is retired and every
record freed, each logged, a team that is Held with its own fault and the others with the fault that ends them. -/
def execKernelEndAfterFault (c n : Nat) (s : State) : Res :=
  match s.kern? c n, s.heldFault c n with
  | some kn, some f =>
    if !s.rkUp || kn.state == .unloaded then .next s
    else
      let g := (gradeOf f.code.toNat).toNat
      let s := (s.coresOf c).foldl (fun s k => match s.core? k with
        | some co => (co.teams.filter fun e => e.2.kernel == n).foldl (fun s e =>
            let own := if e.2.state = .held then e.2.fault.getD f else { f with pc := 0 }
            (s.logAt own.tstamp c n (co.teamT e.2) 3 (gradeOf own.code.toNat).toNat own.code.toNat own.pc own.info
              (co.pidtidOf e.2 kn)).killTeam c k e.1) s
        | none => s) s
      let s := kn.recs.foldl (fun s e => s.endRec c n kn e f.code g) s
      .next (s.unload c n)
  | _, _ => .next s

end Sys2Proof.Machine
end

