-- ==== Sys2Proof/Machine/Queue.lean ====
section
/-! DEFINITION. Submission queues (18 R296 to R306): registration, doorbells, slots, the front end's sweeps, the packets
that need no other unit, completion entries, and arbitration. A queue is listed as 256 fn + q; function 256 is the
physical function. -/

namespace Sys2Proof.Machine

def queueKey (fn q : Nat) : Nat := 256 * fn + q
def State.queue? (s : State) (fn q : Nat) : Option Queue := s.queues.get (queueKey fn q)

/-- Bytes written by an engine, which the port engines need not see before a release (R209). -/
def State.vaStore (s : State) (c : Option Nat) (va : Nat) (bs : List Byte) : State := s.vaPut State.engStore c va bs

/-! ### The packet in progress (R300, R301) -/

/-- Word `i` of a packet. -/
def pkWord (p : List W64) (i : Nat) : W64 := (p[i]?).getD 0
def pkOp (p : List W64) : Nat := bits (pkWord p 0) 63 56

/-- Whether the reserved bits are 0, and the payload words from `n` on, which the packet does not use (R300). -/
def pkPlain (p : List W64) (n : Nat) : Bool := bits (pkWord p 0) 55 32 == 0 && (p.drop n).all (· == 0)

/-- A packet that the draining mark refuses (R306): its index is `acc` or later, modulo 2³². -/
def Queue.refuses (q : Queue) : Bool := q.accv && decide ((q.head - q.acc).toNat < 2 ^ 31)

/-- The 16-byte completion entry (R301). -/
def entryBytes (q : Queue) (p : List W64) (status : Nat) (now : W64) : List Byte :=
  toBytes 8 (bits (pkWord p 0) 31 0 * 2 ^ 32 + (q.head.toNat / q.size + 1) % 2 * 2 ^ 16 + pkOp p * 2 ^ 8 + status % 256) ++
    toBytes 8 now.toNat

/-- The status of the packet in progress is settled, and its entry is still to be written. -/
def State.settleStatus (s : State) (key status : Nat) : State :=
  { s with queues := s.queues.upd key fun q => { q with fin := some status } }

/-- A queue as it asks the shared units (R19): for its packets and completion entries, and for a packet's operands. -/
def Queue.entryAgent (q : Queue) (key : Nat) : Agent := ⟨q.ctx, entryId key, 21⟩
def Queue.operandAgent (q : Queue) (key : Nat) : Agent := ⟨q.ctx, packetId key, 21⟩

/-- The packet at the head completes: its entry, which is pinned, and then `head`, which waits while the entry cannot be
written (R301). -/
def State.complete (s : State) (key : Nat) (status : Nat) : State :=
  match s.queues.get key with
  | none => s
  | some q =>
    match q.packet with
    | none => s
    | some p =>
      let va := q.cring + 16 * (q.head.toNat % q.size)
      let runs : List (Nat × Nat × Need) := [(va, 16, .w)]
      match s.agentTry (q.entryAgent key) [] runs with
      | .go =>
        ((s.vaWrite q.ctx va (entryBytes q p status s.tstamp)).agentDone (q.entryAgent key) runs).setQueue key { q with
          head := q.head + 1, packet := none, begun := false, acted := false, page := none, refused := false, fin := none
          copied := 0 }
      | .later s => s.settleStatus key status
      | _ => s.settleStatus key status

/-- How a packet goes on: it completes with a status, it is done by an engine and completes in a later sweep, or it stays in
progress. -/
inductive PkOut where
  | done (s : State) (status : Nat)
  | later (s : State) (status : Nat)
  | wait (s : State)
  deriving DecidableEq, Repr

/-- What an engine has done completes in a later sweep (R303). -/
def PkOut.hand : PkOut → PkOut
  | .done s status => .later s status
  | r => r

/-- The page that the packet waited for was refused (R225), and some of the runs lie in it. -/
def Queue.refusedIn (q : Queue) (runs : List (Nat × Nat × Need)) : Bool :=
  q.refused && runs.any fun r => (pageVas r.1 r.2.1).any fun p => q.page == some (p / 65536)

/-- An access of a packet's operands (R301) in slots of the calendar (R19), of the units `us` beside the controllers': a page that is
absent is asked for and the lane waits; an access without recovery gives status 3. A page of the resident kernel's own tables is
looked for again at each event. -/
def Queue.onAccessBy (q : Queue) (us : List Nat) (s : State) (key : Nat) (runs : List (Nat × Nat × Need)) (f : State → PkOut) :
    PkOut :=
  let g := q.operandAgent key
  if q.refusedIn runs then .done s 3
  else match s.agentTry g us runs with
    | .go => f (s.agentDone g runs)
    | .bad => .done s 3
    | .later s => .wait s
    | .absent va => match q.ctx with
      | some c => .wait { s.pageFault c va with queues := s.queues.upd key fun q => { q with page := some (va / 65536), refused := false } }
      | none => .wait s

def Queue.onAccess (q : Queue) (s : State) (key : Nat) (runs : List (Nat × Nat × Need)) (f : State → PkOut) : PkOut :=
  q.onAccessBy [] s key runs f

/-- Access `n`, from 0, of a packet that makes several in one event. One that has had its slots keeps them until the packet
completes. -/
def Queue.onStage (q : Queue) (n : Nat) (s : State) (key : Nat) (runs : List (Nat × Nat × Need)) (f : State → PkOut) : PkOut :=
  match decide (n < q.copied), s.vaTryAll q.ctx runs with
  | true, .ok _ => f s
  | _, _ => q.onAccess s key runs fun s => f { s with queues := s.queues.upd key fun q => { q with copied := n + 1 } }

/-- The packet in progress has acted. -/
def State.act (s : State) (key : Nat) : State := { s with queues := s.queues.upd key fun q => { q with acted := true } }

/-- The firmware core of a lane (R303). -/
def fcOf (lane : Nat) : Nat := lane / 64

/-- The packets that are handed to engines and complete in a later sweep (R303); a WAITSEQ may also complete in its own, as the
table of R303 allows. -/
def isHanded (op : Nat) : Bool := op == 0x04 || op == 0x07 || op == 0x09 || op == 0x0A

/-- A sweep has run since the packet in progress was fetched (R303). -/
def State.swept (s : State) (q : Queue) : Bool :=
  match q.lane with
  | some l => decide (q.sweep < (s.sweep.get (fcOf l)).getD 0)
  | none => false

/-- A packet may begin (R303): no packet of the same sweep with a lower opcode, or with the same one in a lower lane, is
still to begin. -/
def State.mayBegin (s : State) (lane op : Nat) : Bool :=
  s.queues.all fun e => match e.2.lane, e.2.packet with
    | some l, some p => fcOf l != fcOf lane || e.2.begun || decide (op < pkOp p ∨ (op = pkOp p ∧ lane ≤ l))
    | _, _ => true

/-- An event of a packet of opcode `op`: the first begins it, at its place in the sweep; a packet that waits for a page
waits on; a refused submission completes with status 1 (R306); one whose status is settled only completes. The last argument says that the packet has acted. -/
def onPacket (s : State) (fn n op : Nat) (f : State → Nat → Queue → List W64 → Bool → PkOut) : Res :=
  let key := queueKey fn n
  match s.queues.get key with
  | none => .next s
  | some q =>
    match q.lane, q.packet with
    | some lane, some p =>
      if s.asleep = true ∨ pkOp p ≠ op ∨ (!q.begun && !s.mayBegin lane op) = true ∨ (q.page.isSome && !q.refused) = true then .next s
      else if let some status := q.fin then .next (if isHanded op && !s.swept q then s else s.complete key status)
      else
        let q' := if q.begun then q else { q with begun := true, started := s.tstamp }
        let s' := { s with queues := s.queues.set key q' }
        if !q.begun && q.refuses then .next (s'.complete key 1)
        else match f s' key q' p q.acted with
          | .done s status => .next (s.complete key status)
          | .later s status => .next (if s.swept q then s.complete key status else s.settleStatus key status)
          | .wait s => .next s
    | _, _ => .next s

/-- The acquire of APPEND, SIGNAL and ACQUIRE (R300): every write that arrived through a port before the doorbell is
performed first. -/
def Queue.acquired (q : Queue) (s : State) (f : State → PkOut) : PkOut :=
  if s.posted.any fun w => decide (w.no < q.bell) then .wait s else f s

/-! ### Packets (R300) -/

def execNopPacket (fn q : Nat) (s : State) : Res :=
  onPacket s fn q 0x00 fun s _ _ p _ => if pkPlain p 1 then .done s 0 else .done s 2

/-- Records written and published as `rec.push` would (R293, R294): each is reserved, written and acknowledged. -/
def appendAll (c rq : Nat) : List (List Byte) → State → State
  | [], s => s
  | bs :: rest, s =>
    match s.recq? c rq with
    | none => s
    | some x =>
      let j := x.tail
      let s := s.updRecq c rq fun x => { x with tail := x.tail + 1 }
      appendAll c rq rest ((s.vaStore (some c) (x.slot j) bs).ackRecord c rq j)

/-- The runs of the slots of `n` records from `tail` on. -/
def RecQueue.slotRuns (x : RecQueue) (n : Nat) : List (Nat × Nat × Need) :=
  (List.range n).map fun i => (x.slot (x.tail + i), 64, .w)

/-- 0x01 APPEND: all or none. -/
def execAppend (fn q : Nat) (s : State) : Res :=
  onPacket s fn q 0x01 fun s key qu p _ =>
    let rq := (pkWord p 1).toNat
    let src := (pkWord p 2).toNat
    let n := (pkWord p 3).toNat
    if !pkPlain p 4 || rq % 64 != 0 || src % 64 != 0 || n == 0 || decide (2 ^ 32 ≤ n) then .done s 2
    else match qu.ctx with
      | none => .done s 3
      | some c => match s.recq? c rq with
        | none => .done s 3
        | some x =>
          if x.size < n then .done s 2
          else if x.room < n then .done s 4
          else qu.acquired s fun s => qu.onAccess s key ((src, 64 * n, .r) :: x.slotRuns n) fun s =>
            let bs := s.vaRead qu.ctx src (64 * n)
            .done (appendAll c rq ((List.range n).map fun i => (bs.drop (64 * i)).take 64) s) 0

/-- A counter add of the front end (R288); in the resident kernel's tables no record watches. -/
def State.signalAdd (s : State) (c : Option Nat) (va amt : Nat) : State :=
  match c with
  | some c => (s.counterAdd c va amt).getD s
  | none => match s.vaTry none va 8 .rw with
    | .ok pa => ((s.setPa64 pa (min (s.pa64 pa + amt) (2 ^ 64 - 1))).portSees pa 8).queuesAt none va
    | _ => s

/-- 0x02 SIGNAL. -/
def execSignal (fn q : Nat) (s : State) : Res :=
  onPacket s fn q 0x02 fun s key qu p _ =>
    let va := (pkWord p 1).toNat
    let amt := (pkWord p 2).toNat
    if !pkPlain p 3 || va % 8 != 0 || decide (2 ^ 63 ≤ amt) then .done s 2
    else if amt = 0 then .done s 0
    else qu.acquired s fun s => qu.onAccess s key [(va, 8, .rw)] fun s => .done (s.signalAdd qu.ctx va amt) 0

/-- A counter that the front end reads. -/
def State.counterOf (s : State) (c : Option Nat) (va : Nat) : Nat := ofBytes (s.vaRead c va 8)

/-- 0x03 WAITSEQ begins; it completes at once when the counter has reached its threshold. -/
def execWaitseq (fn q : Nat) (s : State) : Res :=
  onPacket s fn q 0x03 fun s key qu p _ =>
    let va := (pkWord p 1).toNat
    if !pkPlain p 3 || va % 8 != 0 then .done s 2
    else qu.onAccess s key [(va, 8, .r)] fun s =>
      if (pkWord p 2).toNat ≤ s.counterOf qu.ctx va then .done s 0 else .wait s

/-- 0x03 WAITSEQ in progress: the counter has reached its threshold. -/
def execWaitseqSatisfied (fn q : Nat) (s : State) : Res :=
  match s.queue? fn q with
  | some y => if !y.begun then .next s
    else onPacket s fn q 0x03 fun s key qu p _ =>
      let va := (pkWord p 1).toNat
      qu.onAccess s key [(va, 8, .r)] fun s =>
        if (pkWord p 2).toNat ≤ s.counterOf qu.ctx va then .done s 0 else .wait s
  | none => .next s

/-- The checks of COPY: its reserved fields, and ranges that overlap (R300). -/
def copyLegal (p : List W64) : Bool :=
  let src := (pkWord p 1).toNat
  let dst := (pkWord p 2).toNat
  let n := (pkWord p 3).toNat
  pkPlain p 4 && decide (n < 2 ^ 32) && !decide (0 < n ∧ src < dst + n ∧ dst < src + n)

/-- 0x04 COPY begins: it is handed to a copy engine. -/
def execCopy (fn q : Nat) (s : State) : Res :=
  onPacket s fn q 0x04 fun s _ _ p _ =>
    if !copyLegal p then .done s 2
    else if (pkWord p 3).toNat = 0 then .done s 0
    else .wait s

/-- The hub die's copy engine, in the numbering of the shared units. -/
def hubCopy : Nat := 22

/-- Copies in ascending order, piece by piece, none across a 64 KiB boundary, each in slots of the hub's copy engine and of the
controllers; what is written before a piece that fails stays written (R301). -/
def copyRun : Nat → State → Nat → Queue → Nat → Nat → Nat → PkOut
  | 0, s, _, _, _, _, _ => .done s 0
  | f + 1, s, key, q, src, dst, len =>
    if len = 0 then .done s 0
    else
      let n := min len (min (65536 - src % 65536) (65536 - dst % 65536))
      match q.onAccessBy [hubCopy] s key [(src, n, .r), (dst, n, .w)] fun s =>
          .done { s.vaStore q.ctx dst (s.vaRead q.ctx src n) with
            queues := s.queues.upd key fun q => { q with copied := q.copied + n } } 0 with
      | .done s 0 => copyRun f s key q (src + n) (dst + n) (len - n)
      | r => r

/-- 0x04 COPY: every byte is copied. A page asked for, and a piece that waits for its slots, make it go on at that piece. -/
def execCopyComplete (fn q : Nat) (s : State) : Res :=
  match s.queue? fn q with
  | some y => if !y.begun then .next s
    else onPacket s fn q 0x04 fun s key qu p _ =>
      let len := (pkWord p 3).toNat
      let off := qu.copied
      (copyRun (2 * (len / 65536) + 4) s key qu ((pkWord p 1).toNat + off) ((pkWord p 2).toNat + off) (len - off)).hand
  | none => .next s

/-- 0x05 RELEASE: everything released is performed at port scope, and then the timestamp is written there. -/
def execRelease (fn q : Nat) (s : State) : Res :=
  onPacket s fn q 0x05 fun s key qu p _ =>
    let va := (pkWord p 1).toNat
    if !pkPlain p 2 || va % 8 != 0 then .done s 2
    else qu.onAccess s key [(va, 8, .w)] fun s => .done (s.portRelease.vaWrite qu.ctx va (toBytes 8 s.tstamp.toNat)) 0

/-- 0x06 ACQUIRE. -/
def execAcquire (fn q : Nat) (s : State) : Res :=
  onPacket s fn q 0x06 fun s _ qu p _ => if pkPlain p 1 then qu.acquired s fun s => .done s 0 else .done s 2

/-- 0x08 TSTAMP: the timestamp at the start of the packet. -/
def execTstampPacket (fn q : Nat) (s : State) : Res :=
  onPacket s fn q 0x08 fun s key qu p _ =>
    let va := (pkWord p 1).toNat
    if !pkPlain p 2 || va % 8 != 0 then .done s 2
    else qu.onAccess s key [(va, 8, .w)] fun s => .done (s.vaWrite qu.ctx va (toBytes 8 qu.started.toNat)) 0

/-- 0x0A SCRUB (R302, R241): begun by its first event, which wakes the plot, and performed by a later one. -/
def execScrubPacket (fn q : Nat) (s : State) : Res :=
  onPacket s fn q 0x0A fun s key qu p acted =>
    let lo := (pkWord p 1).toNat
    let n := (pkWord p 2).toNat
    let va := (pkWord p 3).toNat
    if !qu.priv then .done s 5
    else if !pkPlain p 4 || !scrubRange lo n || va % 8 != 0 then .done s 2
    else if !acted then .wait ((s.scrubWake lo).act key)
    else if !(s.servable lo || (s.plot (plotOf lo)).state == .off) then .wait s
    else
      let r := s.scrubReport lo n
      qu.onAccess s key [(va, r.length, .w)] fun s => .later ((s.scrubCounts r).vaStore qu.ctx va r) 0

/-- 0x0B to 0xFF. -/
def execUnknownPacket (fn q : Nat) (s : State) : Res :=
  match (s.queue? fn q).bind (·.packet) with
  | some p => if pkOp p ≤ 0x0A then .next s else onPacket s fn q (pkOp p) fun s _ _ _ _ => .done s 7
  | none => .next s

/-! ### Sweeps (R303, R304) -/

/-- A lane fetches the packet at the head of its queue. A fetch that fails masks the lane: the queue is Faulted and gives
up its lane (R304). -/
def State.fetchPacket (s : State) (key : Nat) (q : Queue) : State :=
  let va := q.ring + 64 * (q.head.toNat % q.size)
  let fault := fun s : State => s.setQueue key { q with state := .faulted, fva := va, lane := none }
  let now := (q.lane.bind fun l => s.sweep.get (fcOf l)).getD 0
  let runs : List (Nat × Nat × Need) := [(va, 64, .r)]
  match s.agentTry (q.entryAgent key) [] runs with
  | .go =>
    let p := (List.range 8).map (word64s (s.vaRead q.ctx va 64))
    { s.agentDone (q.entryAgent key) runs with
      queues := s.queues.set key { q with packet := some p, begun := false, fin := none, sweep := now } }
  | .later s => s
  | .bad => fault s
  | .absent va => fault (match q.ctx with
    | some c => s.pageFault c va
    | none => s)

/-! ### The states of a queue (R297 to R299) -/

/-- The fields of a queue descriptor that keep their limits (R296). -/
def queueLegal (fn : Nat) (priv : Bool) (w : Nat → W64) : Bool :=
  let size := bits (w 1) 31 0
  bits (w 0) 11 0 == 0 && bits (w 1) 63 32 == 0 && decide (16 ≤ size ∧ size ≤ 65536) && ((w 1) &&& ((w 1) - 1)) == 0 &&
    (w 2).toNat % (16 * size) == 0 && bits (w 4) 50 32 == 0 && (!priv || fn == 256) &&
    ((List.range 7).all fun i => w (9 + i) == 0)

/-- Every plot of a run of bytes in the resident kernel's tables is Warm. -/
def State.rkRunWarm (s : State) (va len : Nat) : Bool :=
  (vaPieces va len).all fun p => match s.vaTry none p.1 p.2 .rw with
    | .ok _ => true
    | _ => false

/-- R296: the resident kernel registers the descriptor at `desc`; context 4096 stands for none, for a privileged queue. The
descriptor and the completion ring are pinned, and the queue is Unmapped. -/
def execQueueRegister (fn q c desc : Nat) (s : State) : Res :=
  let ctx := if c = 4096 then none else some c
  let bs := s.vaRead ctx desc 128
  let w := word64s bs
  let size := bits (w 1) 31 0
  let priv := bitAt (w 4) 54
  let owns := match ctx with
    | none => priv
    | some c => !priv && ((s.ctx? c).any fun x => x.state != .destroyed && (if x.pf then 256 else x.vf.toNat) == fn)
  let warm := match ctx with
    | none => s.rkRunWarm desc 128 && s.rkRunWarm (w 2).toNat (16 * size)
    | some c => s.runWarm c desc 128 && s.runWarm c (w 2).toNat (16 * size)
  if !s.rkUp || decide (256 < fn) || decide (256 ≤ q) || desc % 128 != 0 || !owns || !warm || !queueLegal fn priv w ||
      (s.queue? fn q).isSome then .next s
  else
    let qu : Queue := { Queue.blank with
      ctx := ctx
      desc := desc
      ring := (w 0).toNat
      size := size
      cring := (w 2).toNat
      priv := priv
      prio := bits (w 4) 53 51
      pid := bits (w 4) 31 0 }
    let s := match ctx with
      | some c => (s.pinRun c desc 128 false).pinRun c (w 2).toNat (16 * size) false
      | none => s
    let drain := match ctx.bind s.ctx? with
      | some x => x.draining
      | none => false
    .next (s.setQueue (queueKey fn q) { qu with accv := drain })

/-- Nothing of a queue is on a lane any longer. -/
def Queue.offLane (q : Queue) : Queue :=
  { q with lane := none, packet := none, begun := false, acted := false, page := none, refused := false, copied := 0 }

/-- R297: a 32-bit write to a queue's doorbell, which arrives through the host port while that serves (R331). -/
def execDoorbellWrite (fn q : Nat) (tail : BitVec 32) (s : State) : Res :=
  let key := queueKey fn q
  match (if (s.link 0).serves then s.queue? fn q else none) with
  | none => .next s
  | some y =>
    let y' := { y with tail := tail, bell := s.fresh }
    if y.size < (tail - y.head).toNat then
      if y.removing then .next { s with queues := s.queues.del key }
      else .next (s.setQueue key { y'.offLane with state := .broken, fva := 0 })
    else
      let woken := tail != y.head && y.wva == 0
      match y.state with
      | .mapped | .broken => .next (s.setQueue key y')
      | .closing | .faulted | .unmapped => .next (s.setQueue key (if woken then y'.wake s.tstamp else y'))

/-- The slots and the period of a function (R305). -/
def State.slotsOf (s : State) (fn : Nat) : VfSlots := (s.vfSlots.get fn).getD ⟨0, 1000000, 0, [], []⟩

/-- The context of a queue lets its packets run (R349): it has not been pre-empted. -/
def State.queueRuns (s : State) (q : Queue) : Bool :=
  match q.ctx with
  | none => true
  | some c => match s.ctx? c with
    | some x => (match x.state with
      | .created | .running => true
      | .frozen => x.before == .running
      | _ => false)
    | none => false

/-- An Unmapped queue with work announced is eligible for a slot (R298). -/
def State.eligible (s : State) (q : Queue) : Bool := q.state == .unmapped && q.pending && !q.removing && s.queueRuns q

/-- The slots taken by a function's queues, or by privileged queues (R305). -/
def State.usedSlots (s : State) (fn : Nat) (priv : Bool) : Nat :=
  (s.queues.filter fun e => e.2.lane.isSome && e.2.priv == priv && (priv || e.1 / 256 == fn)).length

/-- A queue goes before another of its process (R305). -/
def Queue.goesBefore (a b : Queue) : Bool :=
  decide (b.prio < a.prio) || (a.prio == b.prio && decide (a.eligibleAt.toNat < b.eligibleAt.toNat))

/-- The process that the weighted round-robin serves next (R305): in each round a process has as many grants as its weight, 1
where the hypervisor sets none. DESIGN CHOICE: within a round the processes are taken by number. The second part says that
its grant begins a round. -/
def VfSlots.nextPid (v : VfSlots) (pids : List Nat) : Option (Nat × Bool) :=
  let weight := fun p => (v.weights.get p).getD 1
  match (pids.filter fun p => decide ((v.used.get p).getD 0 < weight p)).min? with
  | some p => some (p, false)
  | none => (pids.filter fun p => decide (0 < weight p)).min?.map fun p => (p, true)

/-- The eligible queues that compete with a queue: those of its function, or every privileged one. -/
def State.rivals (s : State) (fn : Nat) (priv : Bool) : Map Queue :=
  s.queues.filter fun e => s.eligible e.2 && e.2.priv == priv && (priv || e.1 / 256 == fn)

/-- The queue that gets the next free slot (R305): of the process that the round-robin serves, the highest priority first, and
then the one eligible longest. -/
def State.nextQueue (s : State) (fn : Nat) (priv : Bool) : Option (Nat × Bool) :=
  let rs := s.rivals fn priv
  let pid := if priv then some (0, false) else (s.slotsOf fn).nextPid (rs.map fun e => e.2.pid)
  match pid with
  | none => none
  | some (p, fresh) =>
    let of := rs.filter fun e => priv || e.2.pid == p
    (of.find? fun e => of.all fun g => !g.2.goesBefore e.2).map fun e => (e.1, fresh)

/-- A queue is given a lane at a time (R298), and the grant counts for its process. -/
def State.grantSlot (s : State) (fn key lane : Nat) (fresh : Bool) (at' : W64) (y : Queue) : State :=
  let s := s.setQueue key { y with
    state := .mapped, pending := false, wva := 0, wthr := 0, lane := some lane, grantedAt := at' }
  if y.priv then s
  else
    let v := s.slotsOf fn
    let used : Map Nat := if fresh then [] else v.used
    { s with vfSlots := s.vfSlots.set fn { v with used := Map.set used y.pid ((Map.get used y.pid).getD 0 + 1) } }

/-- R298, R305: a free slot is given to the eligible queue whose turn it is. -/
def execQueueSlotGrant (fn q lane : Nat) (s : State) : Res :=
  let key := queueKey fn q
  match s.queue? fn q with
  | none => .next s
  | some y =>
    let free := decide (lane < 256) && s.queues.all fun e => e.2.lane != some lane
    let room := decide (s.usedSlots fn y.priv < if y.priv then 8 else (s.slotsOf fn).slots)
    match s.nextQueue fn y.priv with
    | some (k, fresh) => .next (if k = key ∧ free = true ∧ room = true then s.grantSlot fn key lane fresh s.tstamp y else s)
    | none => .next s

/-- Free slots of a function go to its eligible queues, one after another, and count as held from a time on (R305). -/
def grantAll (fn : Nat) (at' : W64) : Nat → State → State
  | 0, s => s
  | n + 1, s =>
    match s.nextQueue fn false with
    | none => s
    | some (key, fresh) =>
      match s.queues.get key, (List.range 256).find? fun l => s.queues.all fun e => e.2.lane != some l with
      | some y, some lane =>
        if s.usedSlots fn false < (s.slotsOf fn).slots then grantAll fn at' n (s.grantSlot fn key lane fresh at' y) else s
      | _, _ => s

/-- A Mapped queue begins to be unmapped (R299 step 1). -/
def Queue.close (q : Queue) : Queue := if q.state = .mapped then { q with state := .closing } else q

/-- The context of a queue is being vacated, its soft stage over (R256). -/
def State.vacated (s : State) (q : Queue) : Bool :=
  (q.ctx.bind s.ctx?).any fun x => match x.state with
    | .vacating => true
    | .frozen => x.before == .vacating
    | _ => false

/-- The packet in progress of a Closing queue is settled (R299 step 2): none, a WAITSEQ, or a COPY of a context that is
being vacated. Any other, and one that has not begun or whose status is settled, runs on. -/
def State.settled (s : State) (q : Queue) : Bool :=
  match q.packet with
  | none => true
  | some p => q.begun && q.fin.isNone && (pkOp p == 0x03 || (pkOp p == 0x04 && s.vacated q))

/-- R299: the last steps: an abandoned WAITSEQ leaves its operands, the lane is freed, and the queue is Unmapped, or removed
if the resident kernel deletes it. Work left in the ring is announced again, and no wake since the first step is lost. -/
def State.unmap (s : State) (fn q : Nat) : State :=
  let key := queueKey fn q
  match s.queue? fn q with
  | none => s
  | some y =>
    if y.state ≠ .closing ∨ !s.settled y then s
    else if y.removing then { s with queues := s.queues.del key }
    else
      let wait := match y.packet with
        | some p => if pkOp p == 0x03 then some ((pkWord p 1).toNat, (pkWord p 2).toNat) else none
        | none => none
      let y' := { y.offLane with state := .unmapped }
      match wait with
      | some (va, thr) =>
        let s := s.setQueue key { y' with wva := va, wthr := thr, eligibleAt := s.tstamp }
        s.evalQueue key
      | none => s.setQueue key (if y.pending || y.tail != y.head then
          { y' with pending := true, eligibleAt := s.tstamp } else y')

/-- A Closing queue is unmapped, and its slot goes to the eligible queue whose turn it is (R305). A slot that the end of a period has
taken from a queue counts as held from that end on, also where a packet in progress has kept it longer. -/
def State.unmapGrant (s : State) (fn q : Nat) (y : Queue) : State :=
  if y.priv then s.unmap fn q
  else grantAll fn (if s.queueRuns y && !y.removing then (s.slotsOf fn).last else s.tstamp) 1 (s.unmap fn q)

/-- R299; the slot that it frees goes to the eligible queue whose turn it is (R305). -/
def execQueueUnmap (fn q : Nat) (s : State) : Res :=
  match s.queue? fn q with
  | none => .next s
  | some y => .next (if y.state ≠ .closing ∨ !s.settled y then s
    else s.unmapGrant fn q y)

/-- R298: the resident kernel has mapped the page of a Faulted queue's ring. -/
def execQueueFaultMapped (fn q : Nat) (s : State) : Res :=
  match s.queue? fn q with
  | none => .next s
  | some y =>
    let mapped := match walk s.mem .r y.fva 4 (s.rootOf y.ctx) with
      | .pa _ => true
      | _ => false
    .next (if s.rkUp && y.state == .faulted && mapped then
        s.setQueue (queueKey fn q) { y with state := .unmapped, pending := true, eligibleAt := s.tstamp }
      else s)

/-- R298: the resident kernel refuses the page. -/
def execQueueFaultRefused (fn q : Nat) (s : State) : Res :=
  match s.queue? fn q with
  | none => .next s
  | some y => .next (if s.rkUp && y.state == .faulted then s.setQueue (queueKey fn q) { y with state := .broken } else s)

/-- R298: the resident kernel deletes a queue; a Mapped one is closed first. -/
def execQueueDelete (fn q : Nat) (s : State) : Res :=
  let key := queueKey fn q
  match s.queue? fn q with
  | none => .next s
  | some y =>
    .next (if !s.rkUp then s
      else match y.state with
        | .mapped | .closing => s.setQueue key { y with state := .closing, removing := true }
        | _ => { s with queues := s.queues.del key })

/-! ### Arbitration (R305) -/

/-- A period of a function has passed since its last boundary. -/
def State.boundaryDue (s : State) (fn : Nat) : Bool :=
  decide ((s.slotsOf fn).period ≤ (s.tstamp - (s.slotsOf fn).last).toNat)

/-- The Closing queues of a function whose packet is settled are unmapped, and their slots given away (R299, R305). -/
def State.unmapSettled (s : State) (fn : Nat) : State :=
  (s.queues.filter fun e => e.1 / 256 == fn && e.2.state == .closing && s.settled e.2).foldl (fun s e =>
    s.unmapGrant fn (e.1 % 256) e.2) s

/-- The queues of a function as its period ends: those that have held a slot for a period are closed while others wait, and
those with nothing to do as far as their slots are needed; what can be unmapped at once is, and free slots are granted. -/
def State.boundary (s : State) (fn : Nat) : State :=
  let s := s.unmapSettled fn
  let mine := s.queues.filter fun e => e.1 / 256 == fn && !e.2.priv
  let waiting := (mine.filter fun e => s.eligible e.2).length
  let v := s.slotsOf fn
  let idle := mine.filter fun e => e.2.state == .mapped && e.2.packet.isNone && e.2.tail == e.2.head
  let held := mine.filter fun e => e.2.state == .mapped && (e.2.packet.isSome || e.2.tail != e.2.head) &&
    decide (v.period ≤ (s.tstamp - e.2.grantedAt).toNat)
  let free := v.slots - s.usedSlots fn false
  let go := if waiting = 0 then [] else held ++ idle.take (waiting - free)
  let s := { s with vfSlots := s.vfSlots.set fn { v with last := s.tstamp } }
  let s := go.foldl (fun s e => match s.queues.get e.1 with
    | some y => s.setQueue e.1 y.close
    | none => s) s
  grantAll fn s.tstamp v.slots (s.unmapSettled fn)

/-- R305: a period's end. -/
def execArbitrationPeriodBoundary (fn : Nat) (s : State) : Res := .next (if s.boundaryDue fn then s.boundary fn else s)

/-- A setting takes effect, within the limits that the spec gives it: chip links 0 to 11 (R338), 1,024 slots of the calendar (R19), BAR2s of
1 to 256 GiB and BAR4s of 64 KiB (R335), and at most two HDM ranges within the range of R337. -/
def State.setting (s : State) : RkSetting → State
  | .peerBind l rctx c on =>
    let rest := s.peerBinds.filter (· != (l, rctx, c))
    if decide (l < 12) && (s.ctx? c).any (·.state != .destroyed) then { s with peerBinds := if on then rest ++ [(l, rctx, c)] else rest } else s
  | .unitSelect u fn => if u < 28 ∧ fn ≤ 256 then { s with unitVf := s.unitVf.set u fn } else s
  | .calendarSlot i owner gleaner c =>
    if i < 1024 ∧ owner ≤ 256 ∧ gleaner ≤ 256 then { s with calendar := s.calendar.set i ⟨owner, gleaner, c⟩ } else s
  | .thresholds m t => if 0 < m ∧ m < t then { s with mitThresh := m, thrThresh := t } else s
  | .eventRing base size => { s with evBase := base, evSize := size, evHead := 0 }
  | .bar2Size fn n => if fn ≤ 256 ∧ 1 ≤ n ∧ n ≤ 256 then { s with bar2Size := s.bar2Size.set fn n } else s
  | .expander pcie6 hdm =>
    if hdm.length ≤ 2 ∧ hdm.all (fun r => decide (0 < r.2) && isFar r.1 && isFar (r.1 + r.2 - 1)) then
      { s with pcie6 := pcie6, hdm := hdm }
    else s
  | .bar4Write fn off bytes => if fn ≤ 256 ∧ off + bytes.length ≤ 65536 then s.bar4Put fn off bytes else s

/-- R305: the hypervisor gives a VF its slots and its period, and its processes their weights: at most 248 slots together,
and 100 µs to 100 ms. -/
def execVfSlotConfig (fn m : Nat) (share : VfShare) (s : State) : Res :=
  let others := sumOf ((s.vfSlots.filter fun e => e.1 != fn).map fun e => e.2.slots)
  let weights : Map Nat := share.weights.foldl (fun w e => Map.set w e.1 e.2) []
  .next (if s.rkUp && decide (fn ≤ 256) && decide (others + m ≤ 248) &&
      decide (100000 ≤ share.period ∧ share.period ≤ 100000000) then
    share.more.foldl State.setting { s with vfSlots := s.vfSlots.set fn ⟨m, share.period, s.tstamp, weights, []⟩ }
    else s)

/-! ### Sweeps (R303) -/

/-- The functions whose period has ended have their slots reassigned: no sweep runs past a boundary (R305), nor past a Closing queue
that can be unmapped. -/
def State.dueBoundaries (s : State) : State :=
  s.vfSlots.foldl (fun s e => if s.boundaryDue e.1 then s.boundary e.1 else s.unmapSettled e.1) s

/-- R303: every Mapped lane of the firmware core with nothing in progress and work in its ring fetches, in lane order. A
sweep follows once every packet of the one before has begun; none runs while the firmware cores are gated (R307). -/
def execFrontEndSweep (fc : Nat) (s : State) : Res :=
  let mine := fun (s : State) => s.queues.filter fun e => e.2.lane.any fun l => fcOf l == fc
  if s.asleep || (mine s).any fun e => e.2.packet.isSome && !e.2.begun then .next s
  else
    let s := { s with sweep := s.sweep.set fc ((s.sweep.get fc).getD 0 + 1) }.dueBoundaries.drainPosted
    let ready := (mine s).filter fun e => e.2.state == .mapped && e.2.packet.isNone && e.2.tail != e.2.head
    let order := ready.foldl (fun m e => Map.set m (e.2.lane.getD 0) e.1) ([] : Map Nat)
    .next (order.foldl (fun s e => match s.queues.get e.2 with
      | some q => s.fetchPacket e.2 q
      | none => s) s)

end Sys2Proof.Machine
end

