-- ==== Sys2Proof/Machine/Load.lean ====
section
/-! DEFINITION. The KLOAD packet (17 R282 to R284; 02 R52 to R54): loading and unloading a kernel. -/

namespace Sys2Proof.Machine

/-- The fields of a kernel descriptor (R282). -/
structure KDesc where
  image : Nat
  size : Nat
  pool : Nat
  op : Nat
  crews : Nat
  replays : Nat
  maxcarry : Nat
  records : Nat
  load : Nat
  plain : Bool
  deriving DecidableEq, Repr

/-- The descriptor as 64-bit words; `plain` says that its reserved bits are 0. -/
def kdescOf (w : Nat → W64) : KDesc where
  image := (w 0).toNat
  size := bits (w 1) 31 0
  pool := (w 2).toNat
  op := bits (w 3) 63 56
  crews := bits (w 3) 47 40
  replays := bits (w 3) 35 32
  maxcarry := bits (w 3) 31 24
  records := bits (w 3) 23 0
  load := bits (w 4) 63 48
  plain := bits (w 1) 63 32 == 0 && bits (w 3) 55 48 == 0 && bits (w 3) 39 36 == 0 && bits (w 4) 47 32 == 0 &&
    w 5 == 0 && w 6 == 0 && w 7 == 0

/-- A field of `n` bytes of an image header (R53). -/
def hdrField (h : List Byte) (off n : Nat) : Nat := ofBytes ((h.drop off).take n)

def roundUp64 (n : Nat) : Nat := ceilDiv n 64 * 64

/-- Offsets of an image's parts (R52). -/
def constOff (h : List Byte) : Nat := roundUp64 (0x40 + 4 * hdrField h 0x08 4)
def dataOff (h : List Byte) : Nat := roundUp64 (constOff h + hdrField h 0x0C 4)
def respOff (h : List Byte) : Nat := roundUp64 (dataOff h + hdrField h 0x10 4)
def exportOff (h : List Byte) : Nat := roundUp64 (respOff h + 4 * hdrField h 0x1E 2)
/-- An image's bytes (R52, R283). DESIGN CHOICE: the zero bytes that fill out the export table, the last part, are not counted. -/
def imageSize (h : List Byte) : Nat := exportOff h + 16 * hdrField h 0x38 2

/-- The image is refused (R54): a field of the header outside its limits, a reserved byte, the version, or a shape too
large for the cores of its context. DESIGN CHOICE: a section code of 3 in an entry of the export table and a responder offset
past the code refuse no image, since R54 does not say that entries of the tables count among the fields. -/
def imageRefused (h : List Byte) (pool : Bool) : Bool :=
  let f := hdrField h
  let teams := f 0x18 1
  let lanes := f 0x1A 2
  let vregs := f 0x1C 1
  let ok := f 0x00 4 == 0x50484953 && f 0x04 2 == 1 && f 0x06 2 == 0 && f 0x3A 6 == 0 &&
    decide (2 ≤ f 0x08 4 ∧ f 0x08 4 ≤ 4194304) && decide (f 0x14 4 ≤ 524288) && decide (1 ≤ teams ∧ teams ≤ 16) &&
    decide (f 0x19 1 ≤ 32) && decide (16 ≤ lanes ∧ lanes ≤ 1024) && lanes % 16 == 0 &&
    decide (1 ≤ vregs ∧ vregs ≤ 128) && decide (1 ≤ f 0x1D 1 ∧ f 0x1D 1 ≤ 64) && decide (f 0x1E 2 ≤ 256) &&
    ((h.drop (0x20 + teams)).take (16 - teams)).all (· == 0) && decide (1 ≤ f 0x38 2) &&
    f 0x30 4 == (if f 0x1E 2 = 0 then 0 else respOff h) && f 0x34 4 == exportOff h
  !ok || decide ((if pool then 491520 else 524288) < teams * lanes * vregs * 4) || (pool && decide (14 < teams))

/-- The kernel that a descriptor and its image describe. -/
def loadedKern (d : KDesc) (h : List Byte) (resp : List Nat) (pid tid : Nat) : Kern :=
  { Kern.blank with
    image := d.image
    codeVa := d.image + 0x40
    constVa := if hdrField h 0x0C 4 = 0 then 0 else d.image + constOff h
    dataVa := if hdrField h 0x10 4 = 0 then 0 else d.image + dataOff h
    codewords := hdrField h 0x08 4
    constbytes := hdrField h 0x0C 4
    databytes := hdrField h 0x10 4
    shared := hdrField h 0x14 4
    teams := hdrField h 0x18 1
    acc := hdrField h 0x19 1
    lanes := hdrField h 0x1A 2
    vregs := hdrField h 0x1C 1
    sregs := hdrField h 0x1D 1
    roles := (h.drop 0x20).take 16
    resp := resp
    pool := d.pool
    records := d.records
    replays := d.replays
    maxcarry := d.maxcarry
    recs := (List.range d.records).map fun i => (i, PhaseRec.empty)
    queued := List.replicate d.crews none
    nextReady := 1
    pid := pid
    tid := tid }

/-- The descriptor's own limits (R282, R283). -/
def KDesc.legal (d : KDesc) : Bool :=
  d.image % 64 == 0 && d.pool % 4096 == 0 && decide (d.maxcarry ≤ 128) && decide (1 ≤ d.records)

/-- `status` of the descriptor written; the packet's status is 0, or 6 for a failure (R283, R301). It completes in a later
sweep (R303). -/
def State.kstatus (s : State) (c va status : Nat) : PkOut :=
  .later (s.vaWrite (some c) (va + 0x20) (toBytes 4 status)) (if status = 0 then 0 else 6)

/-- The frame of a KLOAD packet: its own checks, then its descriptor, read and written whole. It waits while the resident
kernel is down (R276). -/
def onKload (s : State) (fn q : Nat) (unload : Bool) (f : State → Nat → Nat → Queue → Nat → KDesc → PkOut) : Res :=
  onPacket s fn q 0x07 fun s key qu p _ =>
    let va := (pkWord p 1).toNat
    if !pkPlain p 2 || va % 64 != 0 then .done s 2
    else match qu.ctx with
      | none => .done s 3
      | some c => if !s.rkUp then .wait s else qu.onStage 0 s key [(va, 64, .rw)] fun s =>
        let d := kdescOf (word64s (s.vaRead qu.ctx va 64))
        if (d.op == 1) != unload then .wait s
        else if 1 < d.op ∨ !d.plain ∨ !d.legal then s.kstatus c va 2
        else f s key c qu va d

/-- The header of an image, as the loader reads it: every page of the image must be readable, and the pool's readable and
writable (R283). -/
def State.kcheck (s : State) (c : Nat) (x : Ctx) (d : KDesc) (h : List Byte) : Option Nat :=
  if imageRefused h x.pool then some 1
  else if d.size < imageSize h then some 2
  else
    let rsize := ceilDiv (0x380 + 4 * hdrField h 0x1A 2 * d.maxcarry) 64 * 64
    let reads := s.vaTryAll (some c) [(d.image, imageSize h, .r), (d.pool, d.records * rsize, .rw)]
    match reads with
    | .bad => some 3
    | _ => if 65536 ≤ x.nextLoad then some 5 else none

/-- The image and the pool are no operands of the packet: where they cannot be read or written, the descriptor's status is
3 (R283). -/
def Queue.onImage (q : Queue) (n : Nat) (s : State) (key c va : Nat) (runs : List (Nat × Nat × Need)) (f : State → PkOut) : PkOut :=
  if q.refusedIn runs then s.kstatus c va 3
  else match s.vaTryAll (some c) runs with
    | .bad => s.kstatus c va 3
    | _ => q.onStage n s key runs f

/-- R284: a kernel is loaded. Its first event checks it and wakes its plots; it completes once its sections and its pool lie
in Warm plots, with them pinned and the code executable (R231, R40), a load number, and its crews queued. -/
def execKloadLoad (fn q tid : Nat) (s : State) : Res :=
  onKload s fn q false fun s key c qu va d =>
    match s.ctx? c with
    | none => .done s 3
    | some x =>
      qu.onImage 1 s key c va [(d.image, 64, .r)] fun s =>
        let h := s.vaRead (some c) d.image 64
        match s.kcheck c x d h with
        | some st => s.kstatus c va st
        | none =>
          let rsize := ceilDiv (0x380 + 4 * hdrField h 0x1A 2 * d.maxcarry) 64 * 64
          qu.onImage 2 s key c va [(d.image, imageSize h, .r), (d.pool, d.records * rsize, .rw)] fun s =>
          let resp := (List.range (hdrField h 0x1E 2)).map fun i =>
            ofBytes (s.vaRead (some c) (d.image + respOff h + 4 * i) 4)
          let kn := loadedKern d h resp qu.pid tid
          let n := x.nextLoad
          let s := ((s.pinRun c d.image kn.imageBytes false).pinRun c kn.codeVa (4 * kn.codewords) true).pinRun c d.pool
            (d.records * rsize) false
          let s := s.updCtx c fun x => { x with kernels := x.kernels.set n kn, nextLoad := n + 1 }
          let s := (List.range d.records).foldl (fun s i => s.setRec c n i PhaseRec.empty) s
          let s := s.vaWrite (some c) (va + 0x26) (toBytes 2 n)
          s.kstatus c va 0

/-- The Waiting records of a kernel are freed, each with its entry in the log (R284). -/
def State.freeWaiting (s : State) (c n : Nat) (kn : Kern) : State :=
  (kn.recs.filter fun e => e.2.state == .waiting).foldl (fun s e =>
    (s.setRec c n e.1 { e.2 with state := .free }).log c n e.2.team 3 0 0 0 0 kn.pidtid) s

/-- The bindings of a context that name a kernel are disarmed (R284). -/
def State.disarm (s : State) (c n : Nat) : State :=
  match s.ctx? c with
  | none => s
  | some x => x.recqs.foldl (fun s e => if e.2.kernel = n then
      let s := s.updRecq c e.1 fun rq => { rq with bind := false }
      match s.recq? c e.1 with
      | some rq => s.mirror c (e.1 + 0x28) (toBytes 8 (b2n rq.bind * 2 ^ 32 + rq.thresh * 2 ^ 16 + rq.kernel))
      | none => s
    else s) s

/-- R284: a Loaded kernel closes. -/
def execKloadUnload (fn q : Nat) (s : State) : Res :=
  onKload s fn q true fun s _ c _ va d =>
    match s.kern? c d.load with
    | some kn =>
      if kn.state ≠ .loaded then s.kstatus c va 4
      else
        let s := (s.disarm c d.load).freeWaiting c d.load kn
        (s.updKern c d.load fun kn => { kn with state := .closing }).kstatus c va 0
    | none => s.kstatus c va 4

end Sys2Proof.Machine
end

