-- ==== Sys2Proof/Machine/Ctl.lean ====
section
/-! DEFINITION. The CTL instructions (06). -/

namespace Sys2Proof.Machine

/-- The address `words` words from the clause's header (R36). -/
def At.target (a : At) (words : Int) : W64 := a.cl.h + BitVec.ofInt 64 (4 * words)

/-- R126. -/
def execNop (s : State) : Res := onWord s fun _ => .adv s

/-- R116: always taken. -/
def execBr (off : BitVec 24) (s : State) : Res := onWord s fun a => .go s (a.target off.toInt)

/-- The condition of `bz` (R116): a uniform value of 0, or a predicate set in no lane of the execute mask. -/
def At.isZero (a : At) (d : Opnd) : Bool :=
  match d with
  | .p n => a.team.preg n.val &&& a.split.exec == 0
  | d => a.u d == 0

/-- R116. -/
def execBz (d : Opnd) (imm : BitVec 16) (s : State) : Res :=
  onWord s fun a =>
    if !a.team.claims d then .trap s outsideClaim
    else if a.isZero d then .go s (a.target imm.toInt) else .adv s

/-- R116: the negation of `bz`. -/
def execBnz (d : Opnd) (imm : BitVec 16) (s : State) : Res :=
  onWord s fun a =>
    if !a.team.claims d then .trap s outsideClaim
    else if a.isZero d then .adv s else .go s (a.target imm.toInt)

/-- R116. -/
def execBrS (x : Opnd) (s : State) : Res :=
  onWord s fun a => if !a.team.claims x then .trap s outsideClaim else .go s (a.u x)

/-- A divergence, or the fault of a full split table (R112). What the parent has issued comes before what its children issue
(R204). -/
def At.diverge (a : At) (s : State) (groups : List (Mask × W64)) (j : W64) : Out :=
  match a.team.diverge a.p a.split.depth groups j with
  | none => .trap s { code := 0x0103 }
  | some tm => .left (((a.put s (tm.yieldAt a.p a.cl.hdr)).updCore a.k (·.countSplits groups.length)).settleSplit a.k a.t a.p)

/-- R110. The gate is ignored. -/
def execBdiv (d : Opnd) (imm : BitVec 16) (join : BitVec 32) (s : State) : Res :=
  onWord s fun a =>
    let m := a.split.exec
    let t := m &&& a.pr d
    let f := m &&& ~~~t
    let j := a.target join.toInt
    if m = 0 then .go s j
    else if t = 0 then .go s a.cl.after
    else if f = 0 then .go s (a.target imm.toInt)
    else a.diverge s [(f, a.cl.after), (t, a.target imm.toInt)] j

/-- Adds lanes to the group of a target, groups in order of first appearance (R111). -/
def addGroup (gs : List (Mask × W64)) (m : Mask) (t : W64) : List (Mask × W64) :=
  match gs with
  | [] => [(m, t)]
  | g :: gs => if g.2 = t then (g.1 ||| m, t) :: gs else g :: addGroup gs m t

/-- Whether `n` words at a VA lie in the kernel's code or const section (R111). -/
def Kern.holdsTable (kn : Kern) (va n : Nat) : Bool :=
  decide (kn.codeVa ≤ va ∧ va + 4 * n ≤ kn.codeVa + 4 * kn.codewords) ||
    decide (kn.constVa ≤ va ∧ va + 4 * n ≤ kn.constVa + kn.constbytes)

/-- The groups of `jtab`: the indices in increasing order, each with its lanes and its target. None when a table word
cannot be read through the code path (R111). -/
def State.jtabGroups (s : State) (k codeVa b : Nat) (idx : List (Nat × Nat)) : Nat → Option (List (Mask × W64))
  | 0 => some []
  | n + 1 => do
    let gs ← s.jtabGroups k codeVa b idx n
    let ls := idx.filter fun e => e.2 == n
    if ls.isEmpty then some gs
    else
      let w ← s.fetch k (b + 4 * n)
      some (addGroup gs (ls.foldl (fun m e => m ||| BitVec.ofNat 1024 (2 ^ e.1)) 0) (BitVec.ofNat 64 (codeVa + 4 * w.toNat)))

/-- R111. The gate is ignored; the range check comes before anything else. -/
def execJtab (n : BitVec 8) (x y : Opnd) (join : BitVec 32) (s : State) : Res :=
  onWord s fun a =>
    let j := a.target join.toInt
    let idx := (lanesOf a.split.exec a.team.lanes).map fun l => (l, (a.v x l).toNat)
    let bad := idx.filter fun e => decide (n.toNat ≤ e.2)
    if !a.team.claimsAll [x, y] then .trap s outsideClaim
    else if a.split.exec = 0 then .go s j
    else if !bad.isEmpty then
      .trap s { code := 0x0102, info := n.toNat, lanes := bad.map fun e => (e.1, 7, e.2) }
    else match (s.ctxOf a.k).bind fun x => x.2.kernOf a.team with
      | none => .trap s protection
      | some kn =>
        let b := (a.u y).toNat
        if !kn.holdsTable b n.toNat then .trap s protection
        else match s.jtabGroups a.k kn.codeVa b idx n.toNat with
          | none => .trap s protection
          | some [g] => .go s g.2
          | some gs => a.diverge s gs j

/-- R108: the active, gated-on lanes leave the split and its ancestors; the clause ends. -/
def execKill (s : State) : Res :=
  onWord s fun a =>
    let tm := a.team.kill a.p a.run
    let s := a.put s tm
    if a.split.live &&& ~~~a.run = 0 then .left (endSplit 17 s a.k a.t a.p) else .fall s

/-- The word offset of the next header from clause 0, for the lanes of the live mask (R120). -/
def At.callTo (a : At) (s : State) (pc : W64) : Out :=
  let d := a.split.depth + 1
  let base := match (s.ctxOf a.k).bind fun x => x.2.kernOf a.team with
    | some kn => kn.codeVa
    | none => 0
  let w : W32 := BitVec.ofInt 32 (((a.cl.after.toNat : Int) - base) / 4)
  if a.team.maxRows < d then .trap s spillBounds
  else
    a.withRow s d fun s =>
      let tm := a.team.setSpill d ((lanesOf a.split.live a.team.lanes).map fun l => (l, w))
      let tm := { tm with splits := tm.splits.upd a.p fun sp => { sp with depth := d } }
      .go ((a.put s tm).pushMove tm d) pc

/-- R120. -/
def execCall (off : BitVec 24) (s : State) : Res := onWord s fun a => a.callTo s (a.target off.toInt)

/-- R120. -/
def execCallS (x : Opnd) (s : State) : Res :=
  onWord s fun a => if !a.team.claims x then .trap s outsideClaim else a.callTo s (a.u x)

/-- R120: back to the offset of the lowest live lane. -/
def execRet (s : State) : Res :=
  onWord s fun a =>
    let d := a.split.depth
    if d = 0 then .trap s spillBounds
    else if s.popLost a.team d then .trap s { code := 0x0304 }
    else
      let base := match (s.ctxOf a.k).bind fun x => x.2.kernOf a.team with
        | some kn => kn.codeVa
        | none => 0
      let w := match lanesOf a.split.live a.team.lanes with
        | l :: _ => a.team.spillAt d l
        | [] => 0
      a.withRow s d fun s =>
        .go (s.updSplit a.k a.t a.p fun sp => { sp with depth := d - 1 }) (BitVec.ofNat 64 (base + 4 * w.toNat))

/-- R126: as `yld` set on the clause. -/
def execYield (s : State) : Res :=
  onWord s fun a => .adv (s.updSplit a.k a.t a.p fun sp =>
    { sp with clause := some { a.cl with hdr := a.cl.hdr ||| 0x200000#32 } })

/-- R114: every live lane killed, whatever the gate and the mask, and the split ends. -/
def execHalt (s : State) : Res :=
  onWord s fun a => .left (endSplit 17 (a.put s (a.team.kill a.p a.split.live)) a.k a.t a.p)

/-- R108. -/
def execMaskGet (d x : Opnd) (s : State) : Res :=
  onWord s fun a =>
    if !a.team.claimsAll [d, x] then .trap s outsideClaim
    else
      let i := (a.u x).toNat
      let r := if i ≤ 31 then (a.split.exec.extractLsb' (32 * i) 32).toNat
        else if i = 32 then summary a.split.exec else 0
      .adv (a.put s (a.team.setS (num d) (BitVec.ofNat 64 r)))

/-- R108: the lanes of the execute mask without the predicate are parked. -/
def execMaskAnd (x : Opnd) (s : State) : Res :=
  onWord s fun a => .adv (s.updSplit a.k a.t a.p fun sp => { sp with exec := sp.exec &&& a.pr x })

/-- R108: one execute-mask word, within the live mask. -/
def execMaskSet (x y : Opnd) (s : State) : Res :=
  onWord s fun a =>
    if !a.team.claimsAll [x, y] then .trap s outsideClaim
    else
      let i := (a.u x).toNat % 32
      let w : Mask := (BitVec.ofNat 1024 (2 ^ 32 - 1)) <<< (32 * i)
      let b : Mask := ((a.u y).truncate 32).zeroExtend 1024 <<< (32 * i)
      .adv (s.updSplit a.k a.t a.p fun sp => { sp with exec := (sp.exec &&& ~~~w) ||| (b &&& w &&& sp.live) })

/-- R117. -/
def execClaimV (imm : BitVec 16) (s : State) : Res := claimWord (.v imm.toNat) [] s
/-- R117. -/
def execClaimS (imm : BitVec 16) (s : State) : Res := claimWord (.s imm.toNat) [] s
/-- R117. -/
def execClaimA (d : Opnd) (imm : BitVec 16) (s : State) : Res := claimWord (.a (num d) imm.toNat) [d] s

/-- R117, R118: the top `n` lane registers go back; their hold leaves at issue. -/
def execGiveV (imm : BitVec 16) (s : State) : Res :=
  onWord s fun a =>
    if a.team.resp.isSome then .trap s responderMisuse
    else if a.team.vcount < imm.toNat then .trap s outsideClaim
    else .adv (s.updTeam a.k a.t fun tm => { tm with
        vcount := tm.vcount - imm.toNat, placedV := min tm.placedV (tm.vcount - imm.toNat) })

/-- R117, R118. -/
def execGiveS (imm : BitVec 16) (s : State) : Res :=
  onWord s fun a =>
    if a.team.resp.isSome then .trap s responderMisuse
    else if a.team.scount < imm.toNat then .trap s outsideClaim
    else .adv (s.updTeam a.k a.t fun tm => { tm with
        scount := tm.scount - imm.toNat, placedS := min tm.placedS (tm.scount - imm.toNat) })

/-- The tiles a team holds, highest first. -/
def Core.heldTiles (c : Core) (t : Nat) : List Nat :=
  ((c.tiles.filter fun e => e.2.team == t && !e.2.leaving).map (·.1)).reverse

/-- R117, R118: the `n` highest-numbered tiles go back, once no matrix instruction uses one of them. -/
def execGiveA (imm : BitVec 16) (s : State) : Res :=
  onWord s fun a =>
    let held := a.core.heldTiles a.t
    let out := held.take imm.toNat
    if a.team.resp.isSome then .trap s responderMisuse
    else if held.length < imm.toNat then .trap s outsideClaim
    else if a.core.mats.any fun m => out.contains m.2.tile then .block s (.held .giveTiles)
    else .adv (s.updCore a.k fun c => out.foldl (fun c i => c.freeTile i) c)

/-- R122: a condition slot of the next phase. -/
def execReady (n : BitVec 8) (x y : Opnd) (s : State) : Res :=
  onWord s fun a =>
    let va := (a.u x).toNat
    if !a.team.claimsAll [x, y] then .trap s outsideClaim
    else if va % 8 ≠ 0 then .trap s misaligned
    else .adv (s.updTeam a.k a.t fun tm => { tm with
      conds := if va = 0 then tm.conds.del n.toNat else tm.conds.set n.toNat (va, (a.u y).toNat) })

/-- R123, R287: the team stops issuing, its pending pops are cancelled, and its record is written once its async work is
done (PHASE_RECORD_WRITE). A team in Handler has no such event (R104): its state is unchanged, and
the clause ends (R29). -/
def execPhase (imm : BitVec 16) (entry : BitVec 32) (s : State) : Res :=
  onWord s fun a =>
    let maxcarry := match (s.ctxOf a.k).bind fun x => x.2.kernOf a.team with
      | some kn => kn.maxcarry
      | none => 0
    if a.team.resp.isSome then .trap s responderMisuse
    else if maxcarry < imm.toNat then .trap s outsideClaim
    else if a.team.splits.length ≠ 1 then .trap s { code := 0x0105 }
    else if a.team.vcount < imm.toNat then .trap s outsideClaim
    else if a.team.state != .active then .fall s
    else .left (((s.settleTeam a.k a.t).updTeam a.k a.t fun tm => { tm.flushWbs with
        state := .phasing
        phase := some (imm.toNat, a.target entry.toInt)
        splits := tm.flushWbs.splits.upd a.p fun sp =>
          { sp.leave a.cl.after false with state := .waiting, wait := .phasing } }).cancelPops a.k a.t a.team.order)

/-- The address of a barrier object of the issuing crew in its core's shared store. -/
def At.barAddr (a : At) (off : Nat) : Nat := a.region.1 + off

/-- The trap of a `wait` whose object shows an error (R124): it resumes after the word (R267). -/
def State.waitFault (s : State) (k t p : Nat) (cl : Clause) (n off : Nat) : State :=
  let pc := cl.h + BitVec.ofNat 64 (4 * cl.pos)
  let last := decide (cntOf cl.hdr < cl.pos + n)
  let resume := if last then cl.after else cl.h + BitVec.ofNat 64 (4 * (cl.pos + n))
  let tr : Trap := { code := 0x0303, info := off }
  if (s.team? k t).any (·.att) then (s.release k t p).trap k t p tr pc pc cl.h cl.hdr cl.pos
  else (s.advance k t p n).trap k t p tr pc resume cl.h cl.hdr (if last then 0 else cl.pos + n)

/-- R124. -/
def execWait (x y : Opnd) (s : State) : Res :=
  onWord s fun a =>
    let off := (a.u x).toNat
    let ph := bitAt (a.u y) 0
    if !a.team.claimsAll [x, y] then .trap s outsideClaim
    else match a.barCheck off with
      | some tr => .trap s tr
      | none =>
        let b := Bar.read a.core.shared (a.barAddr off)
        if b.phase != ph then .sleep s (.bar off ph)
        else if b.error then .left (s.waitFault a.k a.t a.p a.cl a.n off)
        else .adv s

/-- R125. -/
def execWatch (x y : Opnd) (s : State) : Res :=
  onWord s fun a =>
    let off := (a.u x).toNat
    if !a.team.claimsAll [x, y] then .trap s outsideClaim
    else if bitAt (a.u y) 1 then .adv (s.updTeam a.k a.t fun tm => { tm with watch := none })
    else match a.barCheck off with
      | some tr => .trap s tr
      | none => .adv (s.updTeam a.k a.t fun tm => { tm with watch := some (off, bitAt (a.u y) 0) })

/-- R127: class 0x8; `tpc` receives the next header. -/
def execTrap (imm : BitVec 16) (s : State) : Res :=
  onWord s fun a => .trapTo s { code := 0x0800, info := imm.toNat } a.cl.after

/-- R130: a call of the resident kernel, of the call class; the clause ends and the split waits for the reply. -/
def execSys (d : Opnd) (imm : BitVec 16) (s : State) : Res :=
  onWord s fun a =>
    if !a.team.claimsRun 4 d then .trap s outsideClaim
    else
      let cost := match s.ctxOf a.k with
        | some (_, x) => x.callCost
        | none => 0
      a.costed s (some cost) fun s item => .sleep s (.sys (num d) imm.toNat (item.getD 0))

/-- R128, R268. DESIGN CHOICE: only the trapped split returns; in a child that a handler's divergence formed, which the manual does
not speak of, `rett` is 0x0106. -/
def execRett (s : State) : Res :=
  onWord s fun a =>
    match a.team.state, a.split.frame with
    | .handler _, some f => .left (s.rett a.k a.t a.p f)
    | _, _ => .trap s { code := 0x0106 }

/-- R129: a stop when a debugger is attached and breakpoints are enabled; resuming goes on at the next word. -/
def execBrk (imm : BitVec 16) (s : State) : Res :=
  onWord s fun a =>
    if a.team.att && a.team.bke && !a.split.passWord then
      .stay (s.stopPass a.k a.t a.p a.pc 0 imm.toNat)
    else .adv s

end Sys2Proof.Machine
end

