-- ==== Sys2Proof/Machine/Waits.lean ====
section
/-! DEFINITION. The barrel (01 R12 to R15) and the events that end a split's waits: header waits, write-backs, barriers,
streams, claims, holds at issue, admission (14 R253, R254), replies of the resident kernel, and its decisions about Held
teams (15 R266, R275). -/

namespace Sys2Proof.Machine

/-! ### The barrel -/

/-- The order of placed teams (R15): by placement, and by index within one. -/
def Core.placedOrder (co : Core) : List Nat :=
  let ts := (co.teams.filter fun e => e.2.resp.isNone).map fun e => (e.2.order, e.1)
  (ts.foldl (fun m e => Map.set m e.1 e.2) ([] : Map Nat)).map (·.2)

/-- R15: position i goes to the team at place i mod n. -/
def Core.assign (co : Core) (pool : Bool) : Core :=
  let ts := co.placedOrder
  { co with
    reassign := false
    owners := (List.range (if pool then 14 else 16)).filterMap fun i =>
      if ts.isEmpty then none else (ts[i % ts.length]?).map fun t => (i, t) }

/-- R15: at the start of the rotation after a placement or a retire. -/
def execPositionReassign (k : Nat) (s : State) : Res :=
  match s.core? k, s.ctxOf k with
  | some co, some (_, x) => .next (if co.reassign && co.pos == 0 then s.updCore k (·.assign x.pool) else s)
  | _, _ => .next s

/-- The first ready split that stands at its join parks (R113), and so on while there is one. -/
def parkAll : Nat → State → Nat → Nat → State
  | 0, s, _, _ => s
  | n + 1, s, k, t =>
    match s.team? k t with
    | none => s
    | some tm =>
      match tm.splits.find? fun e => e.2.state == .ready && e.2.atJoin e.1 && tm.mayIssue e.1 with
      | some e => parkAll n (s.park k t e.1) k t
      | none => s

/-- Ready splits at a header whose waits do not hold begin to wait (R31), so that the round-robin passes over them. -/
def State.holdHeaders (s : State) (k t : Nat) : State :=
  match s.team? k t with
  | none => s
  | some tm => tm.splits.foldl (fun s e =>
      if e.2.state == .ready && e.2.clause.isNone && !e.2.waited && tm.mayIssue e.1 then
        match s.fetch k e.2.pc.toNat with
        | some h =>
          let hd := headerOf h
          if hd.sig == signature && hd.eng.isSome && hd.cnt != 0 && !s.waitsHold k t e.1 hd then s.waitAt k t e.1 0 .header else s
        | none => s
      else s) s

/-- How wide the gangs of a team are that issues now (R12). -/
def Team.gangWidth (tm : Team) : Nat :=
  match (tm.splits.filter fun e => e.2.state == .ready && tm.mayIssue e.1).length with
  | 1 => 64
  | 2 => 32
  | _ => 16

/-- The ready splits of a team in round-robin order from its pointer (R115). Splits that yielded are passed over, unless no
other is ready (R33). -/
def Team.readyOrder (tm : Team) : List Nat :=
  let order := (List.range 16).map fun i => (tm.rr + i) % 16
  let ready := order.filter fun e => tm.mayIssue e &&
    (match tm.splits.get e with
     | some sp => sp.state == .ready
     | none => false)
  let others := ready.filter fun e => !tm.yielded.contains e
  if others.isEmpty then ready else others

/-- An owned position passes empty (R174); what the team's splits yielded is over (R33). -/
def State.idlePosition (s : State) (k t : Nat) : State :=
  (s.updTeam k t fun tm => { tm with yielded := [] }).updCore k fun co =>
    if co.pcCtl.getLsbD 0 then co else { co with pcIdle := co.pcIdle + 1 }

/-- The single step of a Stopped team issues at the team's position (R13, R167), once its split is ready. -/
def State.takeStep (s : State) (k t p : Nat) (co : Core) (tm : Team) : State :=
  if co.teamStalled t || !((tm.splits.get p).any fun sp => sp.state == .ready) then s.idlePosition k t
  else
    let s := s.updTeam k t fun tm => { tm with step := none, rr := tm.rr % 16 }
    { s with issueQ := s.issueQ ++ [⟨k, t, p, true, { tm with state := tm.prev }.gangWidth, tm.rr % 16⟩] }

/-- Up to four splits of a team issue at a position (R115), in split-table order (R265), in gangs of a width that the ready splits at
this issue give (R12). -/
def State.takePosition (s : State) (k t : Nat) : State :=
  let s := (parkAll 16 s k t).holdHeaders k t
  match s.core? k, s.team? k t with
  | some co, some tm =>
    match tm.state, tm.step with
    | .stopped, some p => s.takeStep k t p co tm
    | _, _ =>
      let chosen := if co.teamStalled t then [] else tm.readyOrder.take 4
      if chosen.isEmpty then s.idlePosition k t
      else
        let s := s.updTeam k t fun tm => { tm with rr := tm.rr % 16, yielded := [] }
        { s with issueQ := s.issueQ ++ ((List.range 16).filter chosen.contains).map fun p =>
            ⟨k, t, p, false, tm.gangWidth, tm.rr % 16⟩ }
  | _, _ => s

/-- The VA of the word that a split stands at. -/
def Split.here (sp : Split) : W64 :=
  match sp.clause with
  | some cl => cl.h + BitVec.ofNat 64 (4 * cl.pos)
  | none => sp.pc

/-- A team stops at its lowest split's word by `f` (R165); one that is Phasing has no debug stop (R104). -/
def State.stopTeamBy (s : State) (f : State → Nat → W64 → State) (k t : Nat) : State :=
  match s.team? k t with
  | none => s
  | some tm =>
    if tm.state = .stopped ∨ tm.state = .phasing then s
    else match tm.splits with
      | e :: _ => f s e.1 e.2.here
      | [] => s

/-- The teams of core `k` stop with another team of their context (R167). -/
def State.stopCore (s : State) (k : Nat) : State :=
  let s := s.updCore k fun co => { co with stopIn := none }
  match s.core? k with
  | some co => co.teams.foldl (fun s e => s.stopTeamBy (fun s p pc => s.stopHere k e.1 p pc 0 0) k e.1) s
  | none => s

/-- One position of the rotation of a context-wide stop has passed (R167): after sixteen the core's teams stop. -/
def State.stopClock (s : State) (k : Nat) : State :=
  match (s.core? k).bind (·.stopIn) with
  | some 0 => s.stopCore k
  | some (n + 1) => s.updCore k fun co => { co with stopIn := some n }
  | none => s

/-- R13: the rotation of core `k` advances by one position, whose owner issues if it has a ready split; not before what the
position before took has issued (R16). The splits stalled on admission count this clk (R174). -/
def execBarrelIssue (k : Nat) (s : State) : Res :=
  let s := if s.issueQ.any fun u => u.core == k then s else s.stopClock k
  match s.core? k, s.ctxOf k with
  | some co, some (_, x) =>
    if !x.state.issues || s.issueQ.any fun u => u.core == k then .next s
    else
      let co' := if co.reassign && co.pos == 0 then co.assign x.pool else co
      let s := s.updCore k fun _ => { co' with
        pos := (co.pos + 1) % 16
        pcAdmit := if co.pcCtl.getLsbD 0 then co.pcAdmit else co.pcAdmit + BitVec.ofNat 64 co.stalled.length }
      let owner := if x.pool && decide (14 ≤ co.pos) then (if (co.teams.get co.pos).any (·.resp.isSome) then some co.pos else none)
        else co'.owners.get co.pos
      match owner with
      | some t => .next (s.takePosition k t)
      | none => .next (s.updCore k fun co => if co.pcCtl.getLsbD 0 then co else { co with pcIdle := co.pcIdle + 1 })
  | _, _ => .next s

/-! ### The responder pool and the calendar -/

/-- R14: only while the context is Created or Saved. -/
def Ctx.poolOpen (x : Ctx) : Bool :=
  match x.state with
  | .created | .saved => true
  | _ => false

/-- A saved team takes position `b` for position `a` of its core. -/
def Core.moveTeam (co : Core) (a b : Nat) : Core :=
  let to' := fun t => if t = a then b else t
  { co with
    teams := match co.teams.get a with
      | some tm => (co.teams.del a).set b tm
      | none => co.teams
    owners := co.owners.mapVals to'
    tiles := co.tiles.mapVals fun e => { e with team := to' e.team }
    mats := co.mats.mapVals fun e => { e with team := to' e.team }
    chans := co.chans.mapVals fun e => { e with team := to' e.team }
    asyncs := co.asyncs.mapVals fun e => { e with team := to' e.team }
    stalled := co.stalled.map fun e => (to' e.1, e.2) }

/-- The placed teams of a core, and the bytes of their registers (R14). -/
def Core.placed (co : Core) : Map Team := co.teams.filter fun e => e.2.resp.isNone

/-- A saved team leaves a position that the responder pool takes (R14). -/
def State.clearPosition (s : State) (c k a : Nat) : State :=
  match (s.ctx? c).bind fun x => x.saved.get k with
  | some co =>
    match co.teams.has a, co.teams.lowestFree 14 0 with
    | true, some b => s.updCtx c fun x => { x with
        saved := x.saved.set k (co.moveTeam a b)
        censuses := x.censuses.mapVals fun z => if z.core = k ∧ z.team = a then { z with team := b } else z
        bwWrites := x.bwWrites.map fun w => if w.core = k ∧ w.team = a then { w with team := b } else w }
    | _, _ => s
  | none => s

/-- R14: positions 14 and 15 and 32 KiB of registers on every core; refused while a loaded kernel has more than 14 teams.
DESIGN CHOICE: it is refused as well while a saved core holds more than 14 placed teams or more than 480 KiB of their
registers, which the rule has none do; saved teams at positions 14 and 15 take the lowest free ones, and the positions are
assigned again at the next rotation. -/
def execResponderPoolEnable (c : Nat) (s : State) : Res :=
  match s.ctx? c with
  | some x =>
    let big := x.kernels.any fun e => e.2.state != .unloaded && decide (14 < e.2.teams)
    let full := x.saved.any fun e => decide (14 < e.2.placed.length) ||
      decide (491520 < sumOf (e.2.placed.map fun t => t.2.vBytes))
    .next (if s.rkUp && x.poolOpen && !x.pool && !big && !full then
        (x.saved.foldl (fun s e => (s.clearPosition c e.1 14).clearPosition c e.1 15) s).updCtx c fun x =>
          { x with pool := true, saved := x.saved.mapVals fun co => { co with reassign := true } }
      else s)
  | none => .next s

/-- R14. DESIGN CHOICE: a Saved context that holds saved responders keeps them at their positions, where they issue no longer,
and positions 14 and 15 stay empty until positions are next assigned. -/
def execResponderPoolDisable (c : Nat) (s : State) : Res :=
  match s.ctx? c with
  | some x => .next (if s.rkUp && x.poolOpen then s.updCtx c fun x => { x with pool := false } else s)
  | none => .next s

/-- The key of a context's slots of a unit's round. -/
def calKey (u c : Nat) : Nat := 8192 * u + c

/-- A context's level of `bwphase` lets it have another slot of unit `u`'s round (R233): 102 of 1,024 command slots of a
controller at trickle, 512 at steady. -/
def State.mayServe (s : State) (u c : Nat) : Bool :=
  let used := (s.calUsed.get (calKey u c)).getD 0
  match s.ctx? c with
  | some x =>
    if u < 8 ∨ 16 ≤ u then true
    else if x.bwLevel = 1 then decide (used < 102)
    else if x.bwLevel = 2 then decide (used < 512)
    else true
  | none => true

/-- The slot that a request waited for has come (R19): a part of an async instruction, a matrix instruction, or a copy
chain waits for one slot fewer. -/
def Core.granted (co : Core) (x i : Nat) : Core :=
  { co with
    asyncs := co.asyncs.upd x fun op => { op with parts := op.parts.map fun p => if p.i = i then { p with waits := p.waits - 1 } else p }
    mats := co.mats.upd x fun m => { m with slots := m.slots.map (· - 1) }
    chans := co.chans.mapVals fun h => if h.num = x ∧ h.state ≠ .idle then { h with slots := h.slots.map (· - 1) } else h }

/-- A new round of unit `u` begins with a slot that is not later than the last (R19). -/
def State.calRound (s : State) (u slot : Nat) : State :=
  let s := if (s.calLast.get u).all fun l => decide (slot ≤ l) then
      { s with calUsed := s.calUsed.filter fun e => e.1 / 8192 != u }
    else s
  { s with calLast := s.calLast.set u slot }

/-- A request that is served only in slots of its context's own (R172, R119): a trace record's, or a spill row's. -/
def CalReq.ownCtx (q : CalReq) : Bool := idKind q.id == idKind (traceId 0) || idKind q.id == idKind (rowId 0 0 0)
/-- The refresh of a row's neighbours, which is served only in slots that its function owns (R243). -/
def CalReq.isRefresh (q : CalReq) : Bool := idKind q.id == idKind (refreshId 0 0)

/-- The request that unit `u` serves for a function in a slot: refreshes first (R243), in slots that it owns; then those of the
context that the slot is assigned to, and then the others. -/
def State.calPick (s : State) (u fn : Nat) (owned : Bool) (c : Option Nat) : Option CalReq :=
  let mine := s.calReqs.filter fun q => q.unit == u && q.fn == fn && s.mayServe u q.ctx && (owned || !q.isRefresh) &&
    (!q.ownCtx || (owned && some q.ctx == c))
  match mine.find? (·.isRefresh), mine.find? fun q => some q.ctx == c with
  | some q, _ => some q
  | none, some q => some q
  | none, none => mine.head?

/-- A slot has come for a request (R19): an engine's waits for one fewer, and any other has it now. A trace record or a posted write
that waited for it goes on. -/
def State.grantReq (s : State) (q : CalReq) : State :=
  if idKind q.id = 0 then s.updCore (q.id / 2 ^ 60) (·.granted (q.id / 2 ^ 20 % 2 ^ 40) (q.id % 2 ^ 20))
  else
    let s := { s with calGot := s.calGot ++ [(q.unit, q.id)] }
    if idKind q.id = idKind (traceId 0) then s.drainTraces
    else if idKind q.id = idKind (postedId 0) then s.drainPosted
    else s

/-- R19, R20: in each slot a unit serves a waiting request of the owner, those of the context that the slot is assigned to first,
else of the gleaner, else nothing. -/
def execCalendarSlotServe (u slot : Nat) (s : State) : Res :=
  let i := slot % 1024
  match s.calendar.get i with
  | none => .next s
  | some e =>
    let s := s.calRound u i
    let r := match s.calPick u e.owner true e.ctx with
      | some q => some q
      | none => s.calPick u e.gleaner false none
    match r with
    | some q =>
      let key := calKey u q.ctx
      let s := ({ s with
        calReqs := s.calReqs.erase q
        calUsed := s.calUsed.set key ((s.calUsed.get key).getD 0 + 1) }).countUnit u q.fn
      .next (s.grantReq q)
    | none => .next s

/-! ### Waits of splits -/

/-- R31: the waits of the header that a split stands at hold. -/
def execClauseWaitsSatisfied (k t p : Nat) (s : State) : Res :=
  match s.split? k t p with
  | none => .next s
  | some sp =>
    match sp.state, sp.wait, s.fetch k sp.pc.toNat with
    | .waiting, .header, some h =>
      .next (if s.waitsHold k t p (headerOf h) then
          s.updSplit k t p fun sp => { sp with state := .ready, wait := .none, waited := true }
        else s)
    | .waiting, .header, none => .next (s.release k t p)
    | _, _, _ => .next s

/-- R32, R201: what word `i` of a split's LOC words still does in some lanes: its accesses are performed, as far as what comes
before them lets them and after the stores that the team sees there, and its results are written back where they are. -/
def execLocWriteback (k t p i : Nat) (lanes : BitVec 1024) (s : State) : Res :=
  let mine := match (s.split? k t p).bind fun sp => sp.wbs[i]? with
    | some w => (w.accs.filter fun (e : LocAcc) => Mask.has lanes e.lane).map fun (e : LocAcc) => (⟨e.die, e.addr, w.op.size⟩ : LocRange)
    | none => []
  let s := (s.showSeen k t fun n e => mine.any fun r => r.hits n e).performWb k t p i fun (e : LocAcc) => Mask.has lanes e.lane
  match s.split? k t p with
  | none => .next s
  | some sp =>
    match sp.wbs[i]? with
    | none => .next s
    | some w =>
      let w' := if w.uni then { w with uni := false } else { w with lanes := w.lanes &&& ~~~(lanes &&& ~~~w.waiting) }
      let wbs := if w'.done then sp.wbs.eraseIdx i else sp.wbs.set i w'
      .next ((s.updTeam k t fun tm => tm.applyWb w lanes).updSplit k t p fun sp => { sp with wbs := wbs })

/-- A blocked word of a split completes: its words count, and the split goes on (R174). -/
def State.completeWord (s : State) (k t p n : Nat) : State := (s.updCore k (·.countIssue n)).advance k t p n

/-- R118: the resource of a waiting claim is free; admission is tested, and the claim completes, stalls or traps. DESIGN CHOICE:
the limit of R117, which held at issue, is not tested again. A claim whose resource comes free while its team is stopped completes
(R166); one that would stall or trap waits for the team. -/
def execClaimGranted (k t p : Nat) (s : State) : Res :=
  match s.team? k t, s.split? k t p with
  | some tm, some sp =>
    match sp.state, sp.wait, sp.clause with
    | .waiting, .claim c, some cl =>
      if !tm.mayWake p || !s.coreIssues k then .next s
      else match s.tryClaim k t c with
        | .noRoom => .next s
        | .done s' => .next (s'.completeWord k t p sp.wlen)
        | .stall cost => if !tm.mayIssue p then .next s else .next ((s.joinStalled k t p).updSplit k t p fun sp => { sp with wait := .admission cost (some c) })
        | .trap tr => if !tm.mayIssue p then .next s else
          let pc := cl.h + BitVec.ofNat 64 (4 * cl.pos)
          .next ((s.release k t p).trap k t p tr pc pc cl.h cl.hdr cl.pos)
    | _, _, _ => .next s
  | _, _ => .next s

/-- R124: the barrier that a split sleeps on shows the phase; with `error` set the split takes source lost. A wait that comes
true while its team is stopped is satisfied (R166). -/
def execWaitWake (k t p : Nat) (s : State) : Res :=
  match s.core? k, s.team? k t, s.split? k t p with
  | some co, some tm, some sp =>
    match sp.state, sp.wait, sp.clause with
    | .waiting, .bar off ph, some cl =>
      let b := Bar.read co.shared (co.localAddr tm off)
      .next (if b.phase != ph then s
        else if !b.error then s.advance k t p sp.wlen
        else if tm.mayIssue p && s.coreIssues k then s.waitFault k t p cl sp.wlen off
        else s)
    | _, _, _ => .next s
  | _, _, _ => .next s

/-- Pops streams by number, in order: none until each has a published slot (R43); the slots' offsets. -/
def popNums (qs : Map Stream) : List Nat → Option (Map Stream × List Nat)
  | [] => some (qs, [])
  | n :: ns => do
    let q ← qs.get n
    if q.popped = q.published then none
    else
      let r ← popNums (qs.set n { q with popped := (q.popped + 1) % 2 ^ 32 }) ns
      some (r.1, q.slot q.popped :: r.2)

/-- What the end of a wait for streams gives its word: the slots popped, or the slot that a `stream.fill` returns. -/
def takeSlots (qs : Map Stream) (ns : List Nat) (fill : Bool) : Option (Map Stream × List Nat) :=
  if fill then do
    let n ← ns.head?
    let q ← qs.get n
    if ahead q.issued q.freed = q.slots then none
    else some (qs.set n { q with issued := (q.issued + 1) % 2 ^ 32 }, [q.slot q.issued])
  else popNums qs ns

/-- R149, R217: the streams that a split waits for can all be popped, or filled: the pops or the fill are performed, and the
word issues again with its slots. -/
def execStreamWaitRelease (k t p : Nat) (s : State) : Res :=
  match s.core? k, s.team? k t, s.split? k t p with
  | some co, some tm, some sp =>
    match sp.state, sp.wait, co.crewOf tm with
    | .waiting, .stream ns fill, some w =>
      match takeSlots w.streams ns fill with
      | some (qs, js) =>
        .next (((s.setStreams k tm.crew qs).release k t p).updSplit k t p fun sp => { sp with popped := some js })
      | none => .next s
    | _, _, _ => .next s
  | _, _, _ => .next s

/-- Whether what holds a split at issue has room (R151, R182, R118, R181, R314, R325). A word that finds it taken again is
held again. -/
def Core.holdFree (co : Core) (x : Ctx) : Hold → Bool
  | .packets => decide (co.packets < 512)
  | .matrix => decide (co.mats.length < 8)
  | .tile => true
  | .giveTiles => true
  | .census => (x.censuses.lowestFree 64 0).isSome
  | .answer => decide (co.answers.length < 32)
  | .slots => true

/-- R151: a word held by an engine or a resource issues once the limit frees; one held for its row, once its slots have come (R119). -/
def execIssueHoldRelease (k t p : Nat) (s : State) : Res :=
  match s.core? k, s.split? k t p, s.ctxOf k with
  | some co, some sp, some (_, x) =>
    match sp.state, sp.wait with
    | .waiting, .held h =>
      .next (if co.holdFree x h && (h != .slots || !s.calReqs.any fun q => q.id == rowId k t p) then s.release k t p else s)
    | _, _ => .next s
  | _, _, _ => .next s

/-! ### Admission again (R253, R254) -/

def State.unstall (s : State) (k t p : Nat) : State :=
  s.updCore k fun co => { co with stalled := co.stalled.filter (· != (t, p)) }

/-- What a stalled word would add now: a claim's increase of H is taken anew. -/
def State.stalledCost (s : State) (k : Nat) (tm : Team) (cost : Nat) : Option Claim → Nat
  | some c => s.holdIncrease k (tm.claimBytes c)
  | none => cost

/-- A stalled word that nothing can relieve any longer traps (R254). -/
def State.trapUnrelieved (s : State) (k t p : Nat) : State :=
  match s.core? k, s.team? k t, s.split? k t p with
  | some co, some tm, some sp =>
    match sp.wait, sp.clause with
    | .admission cost c, some cl =>
      let n := s.stalledCost k tm cost c
      let pc := cl.h + BitVec.ofNat 64 (4 * cl.pos)
      if co.allow < s.holdOf k + n ∧ tm.mayIssue p then
        ((s.unstall k t p).release k t p).trap k t p (s.admTrap k 0x0502 n) pc pc cl.h cl.hdr cl.pos
      else s
    | _, _ => s.unstall k t p
  | _, _, _ => s.unstall k t p

/-- Admits the first of the stalled order, and the next, while they pass (R253). -/
def admitStalled : Nat → State → Nat → State
  | 0, s, _ => s
  | n + 1, s, k =>
    match s.core? k, s.ctxOf k with
    | some co, some (_, x) =>
      match co.stalled with
      | [] => s
      | (t, p) :: _ =>
        match s.team? k t, s.split? k t p with
        | some tm, some sp =>
          match sp.wait with
          | .admission cost c =>
            let need := s.stalledCost k tm cost c
            if co.allow < s.estOf k + need then s
            else match c with
              | none =>
                let (s, i) := s.addItem k need
                admitStalled n (((s.unstall k t p).release k t p).updSplit k t p fun sp => { sp with prepaid := some i }) k
              | some cl =>
                if !tm.mayWake p then s
                else if co.claimFree tm x.pool cl then
                  admitStalled n (((s.unstall k t p).completeClaim k t cl).completeWord k t p sp.wlen) k
                else admitStalled n ((s.unstall k t p).updSplit k t p fun sp => { sp with wait := .claim cl }) k
          | _ => admitStalled n (s.unstall k t p) k
        | _, _ => admitStalled n (s.unstall k t p) k
    | _, _ => s

/-- R253, R254: E, H or A of a core has changed: what can no longer be relieved traps, then as many as pass are admitted in
order. -/
def execAdmissionRetest (k : Nat) (s : State) : Res :=
  match s.core? k with
  | none => .next s
  | some co =>
    if !s.coreIssues k then .next s
    else .next (admitStalled co.stalled.length (co.stalled.foldl (fun s e => s.trapUnrelieved k e.1 e.2) s) k)

/-! ### The resident kernel's answers -/

/-- The VAs that service 1 answers with (R177). -/
def Kern.imageBases (kn : Kern) : List W64 :=
  [0, BitVec.ofNat 64 kn.codeVa, BitVec.ofNat 64 (if kn.constbytes = 0 then 0 else kn.constVa),
    BitVec.ofNat 64 (if kn.databytes = 0 then 0 else kn.dataVa)]

/-- Reply registers written from s[d], as far as the team's claim goes (R130). -/
def Team.reply (tm : Team) (d : Nat) (vs : List W64) : Team :=
  (List.range vs.length).foldl (fun tm i =>
    if d + i < tm.scount then tm.setS (d + i) ((vs[i]?).getD 0) else tm) tm

/-- A `sys` is answered: its registers are written, its call cost leaves, and the split goes on at the next header. -/
def State.answerSys (s : State) (k t p : Nat) (sp : Split) (cl : Clause) (d item : Nat) (vs : List W64) : State :=
  let s := (s.updTeam k t fun tm => tm.reply d vs).dropItem k (some item)
  if sp.state = .waiting then s.leaveClause k t p cl.hdr cl.after false else s

/-- R130, R177: the resident kernel's reply; `known` says that it offers the service, and the four values are the service's
own, but for service 1. -/
def execSysReply (k t p : Nat) (known : Bool) (r0 r1 r2 r3 : BitVec 64) (s : State) : Res :=
  match s.team? k t, s.split? k t p, s.ctxOf k with
  | some tm, some sp, some (_, x) =>
    match sp.wait, sp.clause with
    | .sys d service item, some cl =>
      if !s.rkUp then .next s
      else
        let vs := match service, x.kernOf tm with
          | 1, some kn => kn.imageBases
          | _, _ => if known then [r0, r1, r2, r3] else [BitVec.allOnes 64]
        .next (s.answerSys k t p sp cl d item vs)
    | _, _ => .next s
  | _, _, _ => .next s

/-- R104: a Held team goes on; its fault is logged (R273). -/
def execRkResumeTeam (k t : Nat) (s : State) : Res :=
  match s.core? k, s.team? k t, s.ctxOf k with
  | some co, some tm, some (c, x) =>
    if !s.rkUp || tm.state != .held then .next s
    else
      let s := match tm.fault with
        | some f => s.logAt f.tstamp c tm.kernel (co.teamT tm) 0 (gradeOf f.code.toNat).toNat f.code.toNat f.pc f.info
            (co.pidtidOf tm (x.kernOf tm))
        | none => s
      .next (s.updTeam k t fun tm => { tm with state := .active, fault := none })
  | _, _, _ => .next s

/-- A replayed record goes ahead of the phases that became ready later (R287), in the kernel's ready order. -/
def requeue (recs : Map PhaseRec) (r no : Nat) : List Nat → List Nat
  | [] => [r]
  | q :: qs =>
    if (recs.get q).any fun rec => decide (no < rec.readyNo) then r :: q :: qs else q :: requeue recs r no qs

/-- R275, R287: the phase of a retired team is replayed from its record, as long as the grade and the limit allow. -/
def Kern.replay (kn : Kern) (rec : PhaseRec) (grade : BitVec 2) : Bool :=
  kn.state != .unloaded && rec.state == .placed && grade.toNat ≤ 1 && decide (rec.replay < kn.replays)

/-- R266, R275: the resident kernel logs the fault of a Held team, retires it, and replays its phase or ends its work. -/
def execRkRetireTeam (k t : Nat) (s : State) : Res :=
  match s.core? k, s.team? k t, s.ctxOf k with
  | some co, some tm, some (c, x) =>
    match tm.fault, x.kernOf tm with
    | some f, some kn =>
      if !s.rkUp || tm.state != .held then .next s
      else
        let grade := gradeOf f.code.toNat
        let log := fun (s : State) (act : Nat) =>
          s.logAt f.tstamp c tm.kernel (co.teamT tm) act grade.toNat f.code.toNat f.pc f.info (co.pidtidOf tm kn)
        match tm.source.bind fun r => (kn.recs.get r).map fun rec => (r, rec) with
        | none => .next ((log s 1).killTeam c k t)
        | some (r, rec) =>
          if kn.replay rec grade then
            let s := (log s 2).setRec c tm.kernel r { rec with state := .ready, replay := rec.replay + 1 }
            let s := s.updKern c tm.kernel fun kn => { kn with readyQ := requeue kn.recs r rec.readyNo kn.readyQ }
            .next (s.killTeam c k t)
          else
            .next (((log s 1).setRec c tm.kernel r { rec with state := .free }).killTeam c k t)
    | _, _ => .next s
  | _, _, _ => .next s

end Sys2Proof.Machine
end

