-- ==== Sys2Proof/Machine/Contexts.lean ====
section
/-! DEFINITION. The life of a context (14 R245 to R247, R257 to R260; 15 R276, R277): creation from its record,
pre-emption, the vacate, the restore, the end, and the crash and re-adoption of the resident kernel; and the CTXOP packets
(18 R302, R306, R349) that ask for them. -/

namespace Sys2Proof.Machine

/-! ### The context record (R246) -/

def CtxState.code : CtxState → Nat
  | .created => 0
  | .running => 1
  | .yielding => 2
  | .vacating => 3
  | .saved => 4
  | .restoring => 5
  | .frozen => 6
  | .spoiled => 7
  | .destroyed => 8

/-- Bytes written in the resident kernel's registry, which is pinned. -/
def State.rkWrite (s : State) (va : Nat) (bs : List Byte) : State :=
  match walk s.mem .r va 4 s.rkRoot with
  | .pa a => s.setPa a bs
  | _ => s

/-- The byte at a VA of the resident kernel's registry. -/
def State.rkByte (s : State) (va : Nat) : Byte :=
  match walk s.mem .r va 4 s.rkRoot with
  | .pa a => Memory.get s.mem a
  | _ => 0

/-- The RO fields of a context's record are written, the reserved ones beside `pf` with zeros (R246). -/
def State.mirrorCtx (s : State) (c : Nat) : State :=
  match s.ctx? c with
  | none => s
  | some x =>
    let s := s.rkWrite (x.recVa + 5) ((s.rkByte (x.recVa + 5) &&& 1) :: toBytes 2 (x.state.code * 2 ^ 8 + b2n x.draining))
    s.rkWrite (x.recVa + 0x68) (toBytes 8 x.touchTr.toNat ++ toBytes 8 x.touchSt.toNat ++ toBytes 8 x.touchFu.toNat ++
      toBytes 8 x.vstart.toNat ++ toBytes 4 x.vtime ++ toBytes 4 x.vmax ++ toBytes 8 x.vcount.toNat ++
      toBytes 8 x.census ++ toBytes 8 (x.grade % 4 * 2 ^ 16 + x.fault.toNat))

/-- A context changed, and its record with it. -/
def State.setCtx (s : State) (c : Nat) (f : Ctx → Ctx) : State := (s.updCtx c f).mirrorCtx c

/-- The cores that a record names (R246). -/
def recordCores (bs : List Byte) : List Nat :=
  (List.range 320).filter fun i => ((bs[0x40 + i / 8]?).getD 0).getLsbD (i % 8)

/-- The RW fields of a record, for context number `c` (R246): none when a reserved bit is set or a limit is broken. -/
def Ctx.ofRecord (x : Ctx) (c : Nat) (bs : List Byte) : Option Ctx :=
  let w := word64s bs
  if bits (w 0) 31 12 ≠ 0 ∨ bits (w 0) 11 0 ≠ c ∨ bits (w 4) 63 32 ≠ 0 ∨ bits (w 4) 31 0 = 0 ∨
      !(bs.drop 0xA8).all (· == 0) then none
  else some { x with
    pf := bitAt (w 0) 40
    vf := BitVec.ofNat 8 (bits (w 0) 39 32)
    root := (w 1).toNat
    save := (w 2).toNat
    fix := bits (w 3) 63 32
    bound := bits (w 3) 31 0
    srate := bits (w 4) 31 0
    tfCopy := BitVec.ofNat 32 (bits (w 5) 63 32)
    tfDrain := BitVec.ofNat 32 (bits (w 5) 31 0)
    tfCensus := BitVec.ofNat 32 (bits (w 6) 63 32)
    tfCall := BitVec.ofNat 32 (bits (w 6) 31 0)
    softdl := w 7
    cores := recordCores bs }

/-! ### Cores given and taken -/

/-- The plots of a context's pinned pages, of its tables, of its save area and of its saved teams' backings are Warm (R245, R231,
R219, R119). -/
def State.pinsWarm (s : State) (c : Nat) (x : Ctx) : Bool :=
  (List.range 64).all (fun p => (s.plot p).state == .warm || !(s.ctxPins c p x ||
    s.frameHolds.any fun h => h.ctx == c && h.owner == 4096 && isHbm h.pa && plotOf h.pa == p)) &&
  s.servable x.root && x.saved.all fun e => e.2.teams.all fun t => t.2.resp.isSome || s.servable t.2.backing

/-- None of some cores is given to a context. -/
def State.coresFree (s : State) (ks : List Nat) : Bool := ks.all fun k => !s.cores.has k

/-- F + Σ A_c ≤ B over saved cores (R247). -/
def Ctx.withinBound (x : Ctx) : Bool := decide (x.fix + sumOf (x.saved.map fun e => e.2.allow) ≤ x.bound)

/-- The bytes of a die's scratchpad (R1). -/
def dieLimit : Nat := 41943040

/-- Some context on the package has a window that meets `w` in a die. -/
def State.windowTaken (s : State) (die : Nat) (w : Nat × Nat) : Bool :=
  s.ctxs.any fun e => e.2.present && (e.2.dieWin.get die).any fun v => overlap v w

/-- The scratchpad window that the resident kernel gives a context in a die, where it takes no other context's bytes
(R22). -/
def State.giveWindow (s : State) (c die : Nat) : Nat × Nat :=
  let b := Config.dieWindow s.fresh (2 * (4 * c + die)) % dieLimit
  let w := (b, min (Config.dieWindow s.fresh (2 * (4 * c + die) + 1)) (dieLimit - b))
  if s.windowTaken die w then (0, 0) else w

/-- Nothing of a context runs or waits on a core: it may leave the context. -/
def Core.idle (co : Core) : Bool :=
  co.teams.isEmpty && co.crews.isEmpty && co.items.isEmpty && co.asyncs.isEmpty && co.mats.isEmpty && co.dir.isEmpty &&
    co.spawnQ.isEmpty && co.answers.isEmpty && co.chans.all fun h => h.2.state == .idle

/-- The record read again, before a start or a restore (R246): none when it is malformed, or leaves out a core that holds work.
Cores that it adds join the context, and idle ones that it leaves out leave it (R247). -/
def State.rereadCtx (s : State) (c : Nat) (x : Ctx) : Option Ctx :=
  match x.ofRecord c (s.vaRead none x.recVa 1024) with
  | none => none
  | some y =>
    if y.saved.all fun e => y.cores.contains e.1 || e.2.idle then
      let stay : Map Core := y.saved.filter fun e => y.cores.contains e.1
      some { y with saved := y.cores.foldl (fun m k =>
        if Map.has m k then m else Map.set m k { Core.init with ctx := some c }) stay }
    else none

/-- A context as its record names its cores now, where core `k` is one that it adds (R247). -/
def State.joined (s : State) (c k : Nat) (x : Ctx) : Ctx := if x.saved.has k then x else (s.rereadCtx c x).getD x

/-- R247: the resident kernel gives core `k` of context `c` the allowance `a`, only while the context is Created, Saved or
being restored, and under F + Σ A ≤ B. A core that the record has added since joins with it. -/
def execAllowanceWrite (c k a : Nat) (s : State) : Res :=
  match s.ctx? c with
  | none => .next s
  | some x =>
    match x.state with
    | .created | .saved =>
      let y := s.joined c k x
      let others := sumOf ((y.saved.filter fun e => e.1 != k).map fun e => e.2.allow)
      .next (if s.rkUp && y.saved.has k && decide (y.fix + others + a ≤ y.bound) then
          s.updCtx c fun _ => { y with saved := y.saved.upd k fun co => { co with allow := a } }
        else s)
    | .restoring =>
      let others := sumOf ((s.cores.filter fun e => e.2.ctx == some c && e.1 != k).map fun e => e.2.allow)
      .next (if s.rkUp && (s.coresOf c).contains k && decide (x.fix + others + a ≤ x.bound) then
          s.updCore k fun co => { co with allow := a }
        else s)
    | _ => .next s

/-- R245: a Created context whose record, allowances and pinned pages are ready gets its cores. -/
def execContextStart (c : Nat) (s : State) : Res :=
  match s.ctx? c with
  | none => .next s
  | some x =>
    if !s.rkUp || x.state != .created then .next s
    else match s.rereadCtx c x with
      | none => .next s
      | some y =>
        if !s.coresFree y.cores || !s.pinsWarm c y || !y.withinBound then .next s
        else
          let give := fun (s : State) (e : Nat × Core) => { s with cores := s.cores.set e.1 { e.2 with ctx := some c } }
          let wins := (List.range 4).map fun d => (d, s.giveWindow c d)
          let s := s.updCtx c fun _ => y
          .next ((y.saved.foldl give s).setCtx c fun x => { x with state := .running, saved := [], dieWin := wins })

/-- What the shared units and the TLBs hold of a context's cores goes with them: requests for slots and places in plots'
queues (R19, R231), and TLB entries (R223). -/
def State.forgetCores (s : State) (c : Nat) (ks : List Nat) : State :=
  let mine := fun (id : Nat) => (idCore id).any fun k => ks.contains k
  let s := { s with
    calReqs := s.calReqs.filter fun q => !mine q.id
    calGot := s.calGot.filter fun e => !mine e.2
    plots := s.plots.mapVals fun y => { y with queue := y.queue.filter fun i => !mine i } }
  s.purgeTlbs fun e => e.ctx == c

/-- A context's cores are reset and released (R245): nothing of it is left on the package. -/
def State.dropCores (s : State) (c : Nat) : State :=
  let ks := s.coresOf c
  let queue := s.issueQ.filter fun u => !ks.contains u.core
  let s := { s with cores := s.cores.filter fun e => e.2.ctx != some c, issueQ := queue }.forgetCores c ks
  s.updCtx c fun x => { x with
    saved := []
    savedDie := []
    dieWin := []
    credits := []
    censuses := []
    forwards := []
    bwWrites := [] }

/-- The context is spoiled (R245): its fault and grade are written, and logged (R273). -/
def State.spoil (s : State) (c : Nat) (code : BitVec 16) : State :=
  ((s.dropCores c).setCtx c fun x => { x with state := .spoiled, fault := code, grade := 2, pendPre := none }).log
    c 0 0 0 2 code.toNat 0 0 0

/-- The queues of a context begin to be unmapped (R349, R299). -/
def State.closeQueues (s : State) (c : Nat) : State :=
  s.queues.foldl (fun s e => if e.2.ctx = some c then s.setQueue e.1 e.2.close else s) s

/-- The context is destroyed (R245): its pages go back, its key slot is cleared, what the outside bound to it is removed, and
its record is written for the last time. -/
def State.destroy (s : State) (c : Nat) : State :=
  let s := (s.dropCores c).setCtx c fun x => { x with state := .destroyed }
  let s := (List.range 64).foldl (fun s p => s.freePlot c p) s
  { s with
    ctxs := s.ctxs.upd c fun x => { Ctx.blank with state := .destroyed, recVa := x.recVa, pf := x.pf, vf := x.vf }
    queues := s.queues.filter fun e => e.2.ctx != some c
    bar2 := s.bar2.filter fun e => e.2.1 != c
    regions := s.regions.filter fun g => g.ctx != c
    qps := s.qps.filter fun q => q.2.ctx != c
    posted := s.posted.filter fun w => w.ctx != c
    calReqs := s.calReqs.filter fun q => q.ctx != c
    keys := s.keys.del c
    frameHolds := s.frameHolds.filter fun h => h.ctx != c
    peerBinds := s.peerBinds.filter fun b => b.2.2 != c }

/-! ### Pre-emption and the vacate (R257 to R260) -/

/-- Every team of a core has its accesses performed and its results written back. -/
def State.settleCore (s : State) (k : Nat) : State :=
  match s.core? k with
  | none => s
  | some co => (co.teams.foldl (fun s e => s.settleTeam k e.1) s).updCore k fun co =>
      { co with teams := co.teams.mapVals (·.flushWbs) }

/-- The hard stage begins (R257 step 1): the timestamp is taken, and issue stops at word granularity with every earlier
word written back. From here free work is abandoned at its restart points (step 2): `State.abandons` holds it there. -/
def State.hardStage (s : State) (c : Nat) : State :=
  let ks := s.coresOf c
  let s := { s with issueQ := s.issueQ.filter fun u => !ks.contains u.core }
  let s := ks.foldl (fun s k => s.settleCore k) s
  s.setCtx c fun x => { x with state := .vacating, vstart := s.tstamp, frozenNs := 0 }

/-- R245: a pre-emption with soft deadline `d`, in each state that has one. -/
def State.preempt (s : State) (c : Nat) (d : W64) : State :=
  match s.ctx? c with
  | none => s
  | some x =>
    match x.state with
    | .running =>
      let s := s.closeQueues c
      if d = 0 then s.hardStage c else s.setCtx c fun x => { x with
        state := .yielding, softEnd := s.tstamp.toNat + d.toNat }
    | .yielding =>
      if d = 0 then s.hardStage c
      else s.updCtx c fun x => { x with softEnd := min x.softEnd (s.tstamp.toNat + d.toNat) }
    | .frozen => s.updCtx c fun x => { x with pendPre := some (match x.pendPre with
        | some e => if e.toNat ≤ d.toNat then e else d
        | none => d) }
    | _ => s

def State.inState (s : State) (c : Nat) (f : CtxState → Bool) : Bool := (s.ctx? c).any fun x => f x.state

/-- R245: Running to Yielding; a Frozen context's pre-emption starts at its re-adoption (R276). -/
def execPreemptSoft (c : Nat) (d : BitVec 64) (s : State) : Res :=
  .next (if d ≠ 0 ∧ s.inState c (fun t => t == .running || t == .frozen) then s.preempt c d else s)

/-- R257: Running to Vacating at once. -/
def execPreemptHard (c : Nat) (s : State) : Res :=
  .next (if s.inState c (fun t => t == .running || t == .frozen) then s.preempt c 0 else s)

/-- R259: the soft deadline has passed. -/
def execSoftDeadlineExpire (c : Nat) (s : State) : Res :=
  match s.ctx? c with
  | none => .next s
  | some x => .next (if x.state = .yielding ∧ x.softEnd ≤ s.tstamp.toNat then s.hardStage c else s)

/-- R245: no team remains on the context's cores. -/
def execYieldingEmpty (c : Nat) (s : State) : Res :=
  match s.ctx? c with
  | none => .next s
  | some x =>
    let empty := s.cores.all fun e => e.2.ctx != some c || e.2.teams.isEmpty
    .next (if x.state = .yielding ∧ empty = true then s.hardStage c else s)

/-- R245: a second pre-emption ends the soft stage at the earlier of the two deadlines. -/
def execPreemptAgain (c : Nat) (d : BitVec 64) (s : State) : Res :=
  .next (if s.inState c (· == .yielding) then s.preempt c d else s)

/-- Every part of an operation is held for fault service (R227). -/
def AsyncOp.allHeld (op : AsyncOp) : Bool := op.parts.all fun p => match p.state with
  | .held _ => true
  | _ => false

/-- The last part of a release waits for the releases before it (R211). -/
def Core.relHeld (co : Core) (op : AsyncOp) : Bool := op.rel && decide (op.parts.length ≤ 1) && !co.clear op.relW

/-- Step 3 of R257 is done on a core: costed writes are acknowledged, but those held for fault service, and those that a
`fence.m` or a release keeps behind work that is abandoned. Mark DESIGN CHOICE: so is a costed `mstore` that waits for a loop, or for a
free `mstore`, of its tile that the vacate abandons (R181); the save holds it unfinished. -/
def Core.drained (co : Core) : Bool :=
  (co.asyncs.all fun e => e.2.item.isNone || e.2.allHeld || !(co.clear e.2.afterW && co.clear e.2.afterR) || co.relHeld e.2) &&
    co.mats.all fun e => e.2.item.isNone || (e.2.page.isSome && e.2.fail.isNone) || !co.storeReady e.1 e.2

/-- A core as it is saved (R257, R172): requests that waited for a plot have stopped waiting, records not yet in the trace
ring are lost, loops are out of the unit at their progress, copy records start again, what was held for a page translates again
at the restore (R227), and the TLB is not saved (R223). -/
def Core.toSave (co : Core) (now : W64) : Core :=
  { co with
    wakens := if co.heldPlots.isEmpty then co.wakens else co.wakens + (now - co.heldFrom)
    heldPlots := []
    trlost := co.trlost + BitVec.ofNat 64 co.trPend.length
    trPend := []
    tlb := []
    mats := co.mats.mapVals fun m => { m with started := false, page := none, slots := none }
    chans := co.chans.mapVals fun h =>
      if h.pend.isSome || h.fail.isSome then { h with page := none, slots := none }
      else { h with cur := none, done := 0, page := none, slots := none, ahead := [] } }

/-- The moves of a core that have not committed are abandoned to resident (R325). -/
def State.undoMoves (s : State) (k : Nat) : State :=
  match s.core? k with
  | none => s
  | some co => co.asyncs.foldl (fun s e => match e.2.kind.moveOf with
    | some (n, target, te, _) =>
      let s := s.updCore target fun co => { co with dir := match co.dir.get te with
        | some t => if t.state = .movingIn ∧ t.peer = k ∧ t.pentry = n then co.dir.del te else co.dir
        | none => co.dir }
      s.updDir k n fun d => if d.state = .movingOut then { d with state := .resident, peer := 0, pentry := 0 } else d
    | none => s) s

/-- A free store runs again in full (R197); the bytes that have left its barrier do not leave it twice. -/
def Core.restartStores (co : Core) : Core :=
  { co with mats := co.mats.mapVals fun m => if m.isLoop || m.item.isSome then m else { m with row := 0, page := none } }

/-- The measured time of a vacate in 1/256 vu (R260), less the time spent Frozen (R276), saturating. -/
def State.vacateTime (s : State) (x : Ctx) : Nat :=
  let frozen := x.frozenNs + (if x.state = .frozen then s.tstamp - x.frozenAt else 0)
  min ((s.tstamp - x.vstart - frozen).toNat * 256 / 1000) (2 ^ 32 - 1)

/-- What the vacate has still to wait for (R257 step 3, R325): costed work, credits, and broadcasts and forwards in
flight. A broadcast that a `fence.m` holds back has not been sent. -/
def State.vacateReady (s : State) (c : Nat) (x : Ctx) : Bool :=
  x.credits.isEmpty && x.forwards.isEmpty && (x.censuses.all fun z => z.2.toPass.isEmpty || !s.mayPass z.2) &&
    s.cores.all fun e => e.2.ctx != some c || e.2.drained

/-- The die windows' bytes as saved (R257 step 4). -/
def State.dieSaves (s : State) (x : Ctx) : Map (Regs 8) :=
  x.dieWin.map fun w => (w.1, (((s.scratch.get w.1).getD []).filter fun b =>
    decide (w.2.1 ≤ b.1 ∧ b.1 < w.2.1 + w.2.2)).map fun b => (b.1 - w.2.1, b.2))

/-! ### The save area (R106, R109, R308) -/

/-- The save is written (R257 step 4): its pages' plots are reached (R232), and the tables that have a layout stand in it, one
core after another. DESIGN CHOICE: they stand at its start. -/
def State.writeSave (s : State) (c : Nat) (x : Ctx) (cores : Map Core) : State :=
  let bs := cores.flatMap fun e => e.2.saveBytes
  let s := (s.writeVa c x.save bs).getD s
  (pageVas x.save (x.saveSize cores)).foldl (fun s va => match s.leaf c va with
    | some (_, _, e) => if bitAt e 58 then s else s.touch c (entryPa e)
    | none => s) s

/-- The VA of the saved census records (R246): where in the save area is free, as its layout is private. -/
def Ctx.censusVa (x : Ctx) (cores : Map Core) (free : Nat) : Nat :=
  if x.censuses.isEmpty then 0 else x.save + max 1 (free % x.saveSize cores)

/-- The pending pops of some cores are abandoned (R293), to be issued again at the restore. -/
def Ctx.dropPops (x : Ctx) (ks : List Nat) : Ctx :=
  { x with recqs := x.recqs.mapVals fun q => { q with pops := q.pops.filter fun y => !ks.contains y.core } }

/-- Whether a context is in a state, or Frozen from it with its sequence going on under hardware control (R245). -/
def Ctx.inSeq (x : Ctx) (t : CtxState) : Bool := x.state == t || (x.state == .frozen && x.before == t)

/-- R257 steps 4 and 5, R260: the save is written, the record's figures with it, and the last core is released. A destroy that
waited takes effect now. -/
def execVacateComplete (c : Nat) (s : State) : Res :=
  match s.ctx? c with
  | none => .next s
  | some x =>
    if !x.inSeq .vacating || !s.vacateReady c x then .next s
    else
      let ks := s.coresOf c
      let s := ks.foldl (fun s k => s.undoMoves k) s
      let saved := Map.mapVals (s.cores.filter fun e => e.2.ctx == some c) fun co => (co.toSave s.tstamp).restartStores
      let t := s.vacateTime x
      let die := s.dieSaves x
      let s := s.writeSave c x saved
      let s := { s with cores := s.cores.filter fun e => e.2.ctx != some c }.forgetCores c ks
      let s := s.setCtx c fun x => { x.dropPops ks with
        state := if x.state = .frozen then .frozen else .saved
        before := .saved
        saved := saved
        savedDie := die
        vtime := t
        vmax := max x.vmax t
        vcount := x.vcount + 1
        census := x.censusVa saved (Config.report (s.fresh + 64) 0)
        censuses := x.censuses.mapVals fun z => { z with nodes := [] } }
      .next (if x.destroyPend then s.destroy c else s)

/-- R260: a hardware failure during step 4 or step 5 stops the save. -/
def execSaveFailure (c : Nat) (s : State) : Res :=
  match s.ctx? c with
  | none => .next s
  | some x =>
    if !x.inSeq .vacating || !s.vacateReady c x then .next s
    else
      let s := s.spoil c 0x0310
      .next (if x.destroyPend then s.destroy c else s)

/-! ### Restore (R258) -/

/-- The parts of an operation that has not failed are sent again in full (R152, R227), each in its place (R272): of those that were
sent before, the requests count as sent again (R173). A pop joins its queue again (R293). -/
def State.resendOp (s : State) (c k x : Nat) : State :=
  match s.async? k x with
  | none => s
  | some op =>
    match op.kind with
    | .recPop q =>
      let again := fun (p : Part) => match p.state with
        | .held _ => { p with state := .sent }
        | _ => p
      (s.updAsync k x fun op => { op with parts := op.parts.map again }).updCtx c fun y =>
        { y with recqs := y.recqs.upd q fun rq =>
          { rq with pops := rq.pops ++ [⟨k, x, ((s.team? k op.team).map fun tm => tm.kernel).getD rq.kernel⟩] } }
    | .move _ _ _ _ => s
    | _ =>
      let again := fun (p : Part) => s.partsOf k op (p.accs.map fun y => { y with pre := [] })
      let fails := fun (p : Part) => match p.state with
        | .failing _ => true
        | _ => false
      let ps := numberParts k x op.nextPart (op.parts.flatMap fun p => if fails p then [p] else again p)
      (s.sendParts k op (ps.filter fun p => !fails p)).updAsync k x fun op => { op with
        parts := ps
        nextPart := op.nextPart + ps.length
        sectors := (op.sectors ++ sectorsOf ps).eraseDups
        replays := op.replays +
          (((op.parts.filter fun p => p.state == .sent).flatMap again).filter fun p => p.state == .sent).length }

/-- A move is issued again (R325); one that finds no region or entry fails, as at its first issue. -/
def State.redoMove (s : State) (k x : Nat) (op : AsyncOp) : State :=
  match op.kind.moveOf with
  | none => s
  | some (n, target, _, toff) =>
    match s.dirEntry? k n with
    | none => s
    | some d => match s.beginMove k n target toff d with
      | some (s, te) => s.updAsync k x fun op => { op with kind := .move n target te toff }
      | none => s.failMove k x op n target 256 d

/-- The saved state stands on its cores again (R258). -/
def State.placeBack (s : State) (c : Nat) (x : Ctx) : State :=
  let s := x.saved.foldl (fun (s : State) e => { s with cores := s.cores.set e.1 e.2 }) s
  let s := x.savedDie.foldl (fun (s : State) e => match x.dieWin.get e.1 with
    | some w => { s with scratch := s.scratch.set e.1 (Regs.setMany
        (Regs.clear ((s.scratch.get e.1).getD []) fun i => decide (w.1 ≤ i ∧ i < w.1 + w.2))
        (e.2.map fun b => (w.1 + b.1, b.2))) }
    | none => s) s
  let s := s.setCtx c fun x => { x with state := .restoring, saved := [], savedDie := [] }
  (s.coresOf c).foldl (fun s k => match s.core? k with
    | some co => co.asyncs.foldl (fun s e => (s.resendOp c k e.1).redoMove k e.1 e.2) s
    | none => s) s

/-- A restore can begin: its cores and its die windows are free (R258). -/
def State.restoreRoom (s : State) (c : Nat) (x : Ctx) : Bool :=
  s.coresFree x.cores && s.pinsWarm c x && x.dieWin.all fun w => !s.windowTaken w.1 w.2

/-- R258: the saved state is placed back on the same cores. -/
def execContextRestore (c : Nat) (s : State) : Res :=
  match s.ctx? c with
  | none => .next s
  | some x =>
    match s.rereadCtx c x with
    | none => .next s
    | some y =>
      if !s.rkUp || x.state != .saved || !y.withinBound || !s.restoreRoom c y then .next s
      else .next ((s.updCtx c fun _ => y).placeBack c y)

/-- R258: the last core resumes issue. -/
def execRestoreComplete (c : Nat) (s : State) : Res :=
  match s.ctx? c with
  | none => .next s
  | some x =>
    if !x.inSeq .restoring then .next s
    else
      let s := s.setCtx c fun x => { x with
        state := if x.state = .frozen then .frozen else .running
        before := .running }
      match x.state, x.pendPre with
      | .restoring, some d => .next ((s.updCtx c fun x => { x with pendPre := none }).preempt c d)
      | _, _ => .next s

/-- R245: the hypervisor destroys a context; during a vacate the destroy waits for its end. -/
def execContextDestroy (c : Nat) (s : State) : Res :=
  match s.ctx? c with
  | none => .next s
  | some x =>
    .next (if x.state = .destroyed then s
      else if x.inSeq .vacating then s.updCtx c fun x => { x with destroyPend := true }
      else s.destroy c)

/-! ### Crash and re-adoption (R276, R277) -/

/-- A context as the resident kernel crashes. -/
def Ctx.freeze (x : Ctx) (now : W64) : Ctx :=
  match x.state with
  | .running | .yielding | .vacating | .restoring => { x with before := x.state, state := .frozen, frozenAt := now }
  | _ => x

/-- The resident kernel has crashed (R276): contexts freeze, and issue stops at word granularity. -/
def State.crash (s : State) : State :=
  let s := { s with rk := .crashed, ctxs := s.ctxs.mapVals fun x => x.freeze s.tstamp, issueQ := [] }
  s.ctxs.foldl (fun s e => if e.2.state = .frozen then s.mirrorCtx e.1 else s) s

/-- R276: three heartbeats in a row are missed. -/
def execRkHeartbeatTimeout (s : State) : Res := .next (if s.rkUp then s.crash else s)

/-- R276: a fault on a system core. -/
def execRkSystemCoreFault (s : State) : Res := .next (if s.rk = .up then s.crash else s)

/-- A call that was outstanding is answered "service interrupted" (R277), on a core wherever it stands. -/
def Core.interruptSys (co : Core) : Core :=
  let items := co.teams.flatMap fun e => e.2.splits.filterMap fun sp => match sp.2.wait with
    | .sys _ _ i => some i
    | _ => none
  { co with
    items := co.items.filter fun e => !items.contains e.1
    teams := co.teams.mapVals fun tm => tm.splits.foldl (fun (tm : Team) e => match e.2.wait, e.2.clause with
      | .sys d _ _, some cl =>
        let tm := tm.reply d [0xFFFFFFFFFFFFFFFE]
        let tm := { tm with splits := tm.splits.upd e.1 (·.leave cl.after false) }
        tm.yieldAt e.1 cl.hdr
      | _, _ => tm) tm }

/-- The resident kernel runs again after a warm reboot, which extends m6 with its image and m7 with its configuration (R343): the
manual gives neither, so their digests are free. -/
def State.rkBack (s : State) : State :=
  if s.rk = .up then s
  else
    let digest := fun i => (List.range 48).map fun j => BitVec.ofNat 8 (Config.report (s.fresh + 112) (48 * i + j))
    { (s.extend 6 (digest 0)).extend 7 (digest 1) with rk := .up }

/-- The warm reboot is complete (R277): it is so as the first Frozen context is looked at, or at once when no context is
Frozen. -/
def State.rebooted (s : State) : State :=
  if s.rk = .crashed ∧ (s.ctxs.all fun e => e.2.state != .frozen) = true then s.rkBack else s

/-- R277: the rebooted kernel re-adopts a context: its interrupted calls are answered, and it is in the state it had before
the crash, or has reached since. A pre-emption that waited starts. With no Frozen context the reboot only completes. -/
def execRkReadopt (c : Nat) (s : State) : Res :=
  match s.ctx? c with
  | none => .next s.rebooted
  | some x =>
    if s.rk = .givenUp ∨ x.state ≠ .frozen then .next s.rebooted
    else
      let s := s.rkBack
      let s := { s with cores := s.cores.mapVals fun co => if co.ctx = some c then co.interruptSys else co }
      let s := s.setCtx c fun x => { x with
        state := x.before
        saved := x.saved.mapVals (·.interruptSys)
        frozenNs := if x.before = .vacating then x.frozenNs + (s.tstamp - x.frozenAt) else x.frozenNs }
      match x.before, x.pendPre with
      | .running, some d => .next ((s.updCtx c fun x => { x with pendPre := none }).preempt c d)
      | .yielding, some d => .next ((s.updCtx c fun x => { x with pendPre := none }).preempt c d)
      | .restoring, _ => .next s
      | _, _ => .next (s.updCtx c fun x => { x with pendPre := none })

/-- R277: the registry entry of a Frozen context cannot be read, or does not match its cores. -/
def execReadoptFail (c : Nat) (s : State) : Res :=
  match s.ctx? c with
  | none => .next s
  | some x =>
    if s.rk = .givenUp ∨ x.state ≠ .frozen then .next s
    else
      let s := s.rkBack.spoil c 0x0311
      .next (if x.destroyPend then s.destroy c else s)

/-- R277: a warm reboot fails; after the third the contexts stay Frozen. -/
def execWarmRebootFail (s : State) : Res :=
  .next (if s.rk = .crashed then
      { s with rebootFails := s.rebootFails + 1, rk := if 3 ≤ s.rebootFails + 1 then .givenUp else .crashed }
    else s)

/-- R277, R245: the part is reset: every context that is not Saved, Spoiled or Destroyed is spoiled; the registers of links,
ports, the front end and the responder go back to their reset values; memory and Saved contexts stay. -/
def execPartReset (s : State) : Res :=
  let s := s.ctxs.foldl (fun s e => match e.2.state with
    | .saved | .spoiled | .destroyed => s
    | _ =>
      let s := s.spoil e.1 0x0312
      if e.2.destroyPend then s.destroy e.1 else s) s
  let unmap := fun q : Queue => match q.state with
    | .mapped | .closing => { q.offLane with state := .unmapped, pending := q.tail != q.head, eligibleAt := s.tstamp }
    | _ => q
  .next { State.reset with
    ctxs := s.ctxs
    mem := s.mem
    plots := s.plots
    lost := s.lost
    bar2Size := s.bar2Size
    queues := s.queues.mapVals unmap
    vfSlots := s.vfSlots
    calendar := s.calendar
    mitThresh := s.mitThresh
    thrThresh := s.thrThresh
    evBase := s.evBase
    evSize := s.evSize
    evHead := s.evHead
    rkRoot := s.rkRoot
    frameHolds := s.frameHolds
    keys := s.keys
    nextKey := s.nextKey
    keyed := s.keyed
    outputs := s.outputs
    tstamp := s.tstamp
    ticks := s.ticks
    fresh := s.fresh
    schedule := s.schedule
    turn := s.turn }

/-! ### CTXOP (R302, R306, R349) -/

/-- The frame of a CTXOP packet: privilege, then its fields. A value of `op` that names nothing is the event of create's to
refuse. -/
def onCtxop (s : State) (fn q op : Nat) (f : State → Nat → Queue → Nat → W64 → Bool → PkOut) : Res :=
  onPacket s fn q 0x09 fun s key qu p acted =>
    let w := pkWord p 1
    let o := bits w 63 56
    if o ≠ op ∧ !(op = 0 ∧ 5 < o) then .wait s
    else if !qu.priv then .done s 5
    else if !pkPlain p 3 || bits w 55 12 != 0 || decide (5 < o) || (decide (2 ≤ o) && pkWord p 2 != 0) then .done s 2
    else if !s.rkUp then .wait s
    else (f s key qu (bits w 11 0) (pkWord p 2) acted).hand

/-- A context number is in use (R349). -/
def State.inUse (s : State) (c : Nat) : Bool := s.inState c (· != .destroyed)

/-- CTXOP 0: the context is Created from its record, with a key of its own in its slot (R238); the packet completes once it runs. -/
def execCtxopCreate (fn q : Nat) (s : State) : Res :=
  onCtxop s fn q 0 fun s key qu c arg acted =>
    if acted then
      match (s.ctx? c).map (fun x : Ctx => x.state) with
      | some .created => .wait s
      | some .spoiled => .done s 8
      | some .destroyed => .done s 8
      | none => .done s 8
      | _ => .done s 0
    else if s.inUse c then .done s 8
    else if arg.toNat % 1024 ≠ 0 then .done s 2
    else qu.onAccess s key [(arg.toNat, 1024, .rw)] fun s =>
      match Ctx.ofRecord { Ctx.blank with recVa := arg.toNat, draining := s.partDraining } c (s.vaRead none arg.toNat 1024) with
      | none => .done s 2
      | some x =>
        let x := { x with saved := x.cores.map fun k => (k, { Core.init with ctx := some c }) }
        if x.bound < x.fix then .done s 2
        else .wait (({ s with
          ctxs := s.ctxs.set c x
          keys := s.keys.set c s.nextKey
          nextKey := s.nextKey + 1 }.mirrorCtx c).act key)

/-- CTXOP 1: pre-empts a context; the packet completes once it is Saved. -/
def execCtxopPreempt (fn q : Nat) (s : State) : Res :=
  onCtxop s fn q 1 fun s key _ c arg acted =>
    match s.ctx? c with
    | none => .done s 8
    | some x =>
      if acted then
        match x.state with
        | .yielding | .vacating | .frozen => .wait s
        | .spoiled | .destroyed => .done s 8
        | _ => if x.pendPre.isSome then .wait s else .done s 0
      else
        match x.state with
        | .running | .yielding | .frozen =>
          .wait ((s.preempt c (if arg = BitVec.allOnes 64 then x.softdl else arg)).act key)
        | _ => .done s 8

/-- CTXOP 2: restores a Saved context once its cores are free; the packet completes once it runs. -/
def execCtxopRestore (fn q : Nat) (s : State) : Res :=
  onCtxop s fn q 2 fun s key _ c _ acted =>
    match s.ctx? c with
    | none => .done s 8
    | some x =>
      if acted then
        match x.state with
        | .restoring | .frozen => .wait s
        | .spoiled | .destroyed => .done s 8
        | _ => .done s 0
      else if x.state ≠ .saved then .done s 8
      else match s.rereadCtx c x with
        | none => .done s 2
        | some y =>
          if !y.withinBound then .done s 2
          else if !s.restoreRoom c y then .wait s
          else .wait (((s.updCtx c fun _ => y).placeBack c y).act key)

/-- CTXOP 3: destroys a context; during a vacate the packet waits for its end. -/
def execCtxopDestroy (fn q : Nat) (s : State) : Res :=
  onCtxop s fn q 3 fun s key _ c _ acted =>
    match s.ctx? c with
    | none => .done s 8
    | some x =>
      if acted then (if x.destroyPend then .wait s else .done s 0)
      else if x.state = .destroyed then .done s 8
      else if x.inSeq .vacating then .wait ((s.updCtx c fun x => { x with destroyPend := true }).act key)
      else .done (s.destroy c) 0

/-- The draining flag of a context set, with the mark in every queue of it (R306). -/
def State.drain (s : State) (c : Nat) : State :=
  match s.ctx? c with
  | none => s
  | some x =>
    if x.draining then s
    else
      let s := s.setCtx c fun x => { x with draining := true }
      s.queues.foldl (fun s e => if e.2.ctx = some c then s.setQueue e.1 { e.2 with acc := e.2.tail, accv := true } else s) s

/-- The draining flag cleared (R306). -/
def State.undrain (s : State) (c : Nat) : State :=
  let s := s.setCtx c fun x => { x with draining := false }
  s.queues.foldl (fun s e => if e.2.ctx = some c then s.setQueue e.1 { e.2 with accv := false } else s) s

/-- A context whose draining flag can change (R349). -/
def State.drainable (s : State) (c : Nat) : Bool := s.inState c fun t => t != .destroyed && t != .spoiled

/-- CTXOP 4. -/
def execCtxopSetDraining (fn q : Nat) (s : State) : Res :=
  onCtxop s fn q 4 fun s _ _ c _ _ => if s.drainable c then .done (s.drain c) 0 else .done s 8

/-- CTXOP 5. -/
def execCtxopClearDraining (fn q : Nat) (s : State) : Res :=
  onCtxop s fn q 5 fun s _ _ c _ _ => if s.drainable c then .done (s.undrain c) 0 else .done s 8

end Sys2Proof.Machine
end

