-- ==== Sys2Proof/Machine/Links.lean ====
section
/-! DEFINITION. The states of the links (21 R330, R331, R338; 15 R274), what a link that goes takes with it, and the
network's queue pairs (21 R339 to R341). Link 0 is the host port, 1 the expander port, 2 to 13 the chip links, and 14 and 15
the network ports. -/

namespace Sys2Proof.Machine

/-! ### Completion entries of a queue pair (R341) -/

def qpKey (port qp : Nat) : Nat := 65536 * port + qp
def State.qp? (s : State) (port qp : Nat) : Option QPair := s.qps.get (qpKey port qp)
def State.setQp (s : State) (key : Nat) (q : QPair) : State := { s with qps := s.qps.set key q }
def State.updQp (s : State) (key : Nat) (f : QPair → QPair) : State := { s with qps := s.qps.upd key f }

/-- The 32-byte completion entry (R341). -/
def QPair.entry (q : QPair) (key op status bytes : Nat) (wrid : W64) (imm : BitVec 32) (now : W64) : List Byte :=
  toBytes 8 wrid.toNat ++
  toBytes 8 (op % 256 * 2 ^ 56 + status % 256 * 2 ^ 48 + (q.chead / q.csize + 1) % 2 * 2 ^ 32 + bytes % 2 ^ 32) ++
  toBytes 8 (imm.toNat * 2 ^ 32 + key % 65536) ++ toBytes 8 now.toNat

/-- A completion entry is written at the completion ring's head, in the context's pinned memory, after what the port has placed
before, with the time of that write (R341). -/
def State.qpComplete (s : State) (key op status bytes : Nat) (wrid : W64) (imm : BitVec 32) : State :=
  match s.qps.get key with
  | none => s
  | some q =>
    let s := s.postAs true (netFrom (key / 65536)) q.ctx (q.cring + 32 * (q.chead % q.csize))
      (q.entry key op status bytes wrid imm s.tstamp)
    s.updQp key fun q => { q with chead := q.chead + 1 }

/-- The send entry `j` as 64-bit words, and the receive entry `j`, as the port engine sees them (R340, R209). -/
def State.sendEntry (s : State) (q : QPair) (j : BitVec 32) : Nat → W64 :=
  word64s (s.portRead (some q.ctx) (q.sring + 64 * (j.toNat % q.ssize)) 64)
def State.recvEntry (s : State) (q : QPair) (j : BitVec 32) : Nat → W64 :=
  word64s (s.portRead (some q.ctx) (q.rring + 32 * (j.toNat % q.rsize)) 32)

/-- Send entries rung and not begun complete flushed. -/
def flushSends : Nat → Nat → State → State
  | 0, _, s => s
  | n + 1, key, s =>
    match s.qps.get key with
    | none => s
    | some q =>
      if q.shead = q.stail then s
      else
        let w := s.sendEntry q q.shead
        let s := s.setQp key { q with shead := q.shead + 1 }
        flushSends n key (s.qpComplete key (bits (w 0) 63 56) 4 0 (w 5) 0)

/-- Receive entries rung and not consumed complete flushed. -/
def flushRecvs : Nat → Nat → State → State
  | 0, _, s => s
  | n + 1, key, s =>
    match s.qps.get key with
    | none => s
    | some q =>
      if q.rhead = q.rtail then s
      else
        let w := s.recvEntry q q.rhead
        let s := s.setQp key { q with rhead := q.rhead + 1 }
        flushRecvs n key (s.qpComplete key 0x80 4 0 (w 2) 0)

/-- A queue pair enters the error state, and every outstanding entry completes with status 4 (R341). -/
def State.qpError (s : State) (key : Nat) : State :=
  match s.qps.get key with
  | none => s
  | some q =>
    if q.error then s
    else
      let s := s.setQp key { q with error := true, cur := [] }
      let s := q.cur.foldl (fun s e => s.qpComplete key e.op 4 0 e.wrid 0) s
      flushRecvs q.rsize key (flushSends q.ssize key s)

/-! ### What a link takes with it (R331, R274) -/

/-- A sent part that goes by link `l`, which no longer carries it, fails as source lost. -/
def State.latchPart (s : State) (l k : Nat) (op : AsyncOp) (p : Part) : Part :=
  if p.state = .sent ∧ s.usesLink k op p l = true then { p with state := .failing whySource } else p

/-- An access of a channel goes by link `l`. -/
def State.chanUses (s : State) (l k : Nat) (c : Chan) (need : Need) (port : Option Bool) (va len : Nat) : Bool :=
  match s.resolve k (s.regionOf k c.crew) va len need port with
  | .at' p => p.link == some l
  | _ => false

/-- The access a channel is at goes by link `l`. -/
def State.chanLoses (s : State) (l k : Nat) (c : Chan) : Bool :=
  match c.cur, c.pend with
  | none, _ => s.chanUses l k c .r none (c.recVa / 64 * 64) 64
  | some r, some (status, _) => s.chanUses l k c .w none (if 16 ≤ status ∨ r.cpl = 0 then c.recVa + 8 else r.cpl) 8
  | some r, none =>
    let g := r.segment c.done
    s.chanUses l k c .r (some false) g.1 g.2.2 || s.chanUses l k c .w (some true) g.2.1 g.2.2

/-- Whether what the matrix unit tries fails as source lost. -/
def Except.lost {α : Type} (r : Except EngTry α) : Bool :=
  match r with
  | .error t => t == .fail 0x0303
  | .ok _ => false

/-- The accesses a matrix instruction is at: of the links it knows the expander's only (R333). -/
def State.matLoses (s : State) (k x : Nat) (m : MatOp) : Bool :=
  match m.body with
  | .loop l => m.started && Except.lost (s.groupIn k x m l)
  | .store p => match s.storeRows k x m p with
    | .error t => t == .fail 0x0303
    | .ok rows => Except.lost (s.rowPlaces k x m p rows)

/-- The VA that such an instruction fails on (R271). -/
def State.matFailVa (s : State) (k x : Nat) (m : MatOp) : Nat :=
  match m.body with
  | .loop l => s.loopFailVa k x m l
  | .store p => s.rowFailVa k x m p

/-- What the engines of a core have outstanding by link `l`, which is gone, fails (R331, R274). -/
def State.latchCore (s : State) (l k : Nat) : State :=
  match s.core? k with
  | none => s
  | some _ => s.updCore k fun co => { co with
      asyncs := co.asyncs.mapVals fun op => { op with parts := op.parts.map (s.latchPart l k op) }
      chans := co.chans.mapVals fun c =>
        if c.state != .idle && c.fail.isNone && s.chanLoses l k c then { c with fail := some 0x0303 } else c
      mats := co.mats.map fun e =>
        if l == 1 && e.2.fail.isNone && s.matLoses k e.1 e.2 then
          (e.1, { e.2 with fail := some 0x0303, failVa := s.matFailVa k e.1 e.2 })
        else e }

/-- Bytes of a write to expander memory that fails: each may have been written or not (R274), which is free. -/
def State.maybeStore (s : State) (id : Nat) (bs : List (Nat × Byte)) : State :=
  bs.foldl (fun s e => if Config.report (s.fresh + 160) (id * 2 ^ 60 + e.1) % 2 = 1 then s.engStore e.1 [e.2] else s) s

/-- The bytes of a run from a PA on. -/
def bytesFrom (pa : Nat) (bs : List Byte) : List (Nat × Byte) := bs.mapIdx fun i b => (pa + i, b)

/-- A part's writes to expander memory may have been performed. -/
def State.halfPart (s : State) (k : Nat) (op : AsyncOp) (p : Part) : State :=
  if p.state != .sent || p.target != 9 then s
  else p.accs.foldl (fun s x => match op.kind with
    | .scatter | .stBlk => s.maybeStore p.id (x.fresh x.data)
    | .recPush _ _ => s.maybeStore p.id (bytesFrom x.pa x.data)
    | .atomM code => if x.done then s else
        let r := atomOp code x.len (ofBytes (s.pa x.pa x.len)) (ofBytes (x.data.take x.len)) (ofBytes (x.data.drop x.len))
        s.maybeStore p.id (bytesFrom x.pa (toBytes x.len r))
    | .seqAdd amt => match s.ctxOf k with
      | some (c, _) => if Config.report (s.fresh + 160) (p.id * 2 ^ 60 + x.pa) % 2 = 1 then s.counterAddAt c x.va x.pa amt else s
      | none => s
    | _ => s) s

/-- A write of a channel or of the matrix unit at a VA, if it goes to expander memory. -/
def State.halfAt (s : State) (k crew id va : Nat) (bs : List Byte) : State :=
  match s.resolve k (s.regionOf k crew) va bs.length .w (some true) with
  | .at' (.mem pa) => if isHbm pa then s else s.maybeStore id (bytesFrom pa bs)
  | _ => s

/-- The write that a channel has outstanding: of its segment, of its completion slot, or of `own`. -/
def State.halfChan (s : State) (k : Nat) (c : Chan) : State :=
  match c.cur, c.pend with
  | some r, none =>
    let g := r.segment c.done
    if c.slots.isNone then s
    else match s.resolve k (s.regionOf k c.crew) g.1 g.2.2 .r (some false) with
      | .at' p => s.halfAt k c.crew (engId k c.num) g.2.1 (c.ahead.take g.2.2 ++ (s.readAt p g.2.2).drop c.ahead.length)
      | _ => s
  | some r, some (status, code) =>
    if 16 ≤ status ∨ r.cpl = 0 then
      s.halfAt k c.crew (engId k c.num) (c.recVa + 8) (toBytes 8 (r.ctl &&& ~~~1#64).toNat)
    else s.halfAt k c.crew (engId k c.num) r.cpl (slotBytes (status % 8) code c.done c.wrote c.recVa r.tag s.tstamp)
  | none, _ => s

/-- The row that a store has outstanding. -/
def State.halfRow (s : State) (k x : Nat) (m : MatOp) : State :=
  match m.body, (s.core? k).bind fun co => co.tiles.get m.tile with
  | .store p, some t =>
    if m.slots.isNone then s
    else match s.storeRows k x m p with
      | .ok rows =>
        let row := storeRow p.mode (m.source t) m.row
        (segments 3 (m.rowVa p rows) 0 p.rowBytes).foldl (fun s g =>
          s.halfAt k m.crew (engId k x) g.1 ((row.drop g.2.1).take g.2.2)) s
      | .error _ => s
  | _, _ => s

/-- The writes that a core has outstanding to expander memory as that fails may have been written or not (R274). -/
def State.halfWritten (s : State) (k : Nat) : State :=
  match s.core? k with
  | none => s
  | some co =>
    let s := co.asyncs.foldl (fun s e => e.2.parts.foldl (fun s p => s.halfPart k e.2 p) s) s
    let s := co.chans.foldl (fun s e => if e.2.state == .idle || e.2.fail.isSome then s else s.halfChan k e.2) s
    co.mats.foldl (fun s e => if e.2.fail.isSome then s else s.halfRow k e.1 e.2) s

/-- Every outstanding request by link `l` fails: of the engines, and of the queue pairs of a network port. -/
def State.failLink (s : State) (l : Nat) : State :=
  let s := s.cores.foldl (fun s e => (if l = 1 then s.halfWritten e.1 else s).latchCore l e.1) s
  s.qps.foldl (fun s e => if l = 14 + e.1 / 65536 then s.qpError e.1 else s) s

/-! ### The events of R330 -/

def State.setLink (s : State) (l : Nat) (f : Link → Link) : State :=
  { s with links := s.links.set l (f (s.link l)) }

/-- Down or Failed to Training. -/
def execLinkEnable (l : Nat) (s : State) : Res :=
  .next (if l < 16 ∧ (s.link l).dead = true then s.setLink l fun x => { x with state := .training } else s)

/-- Training to Up. -/
def execLinkTrainedFull (l : Nat) (s : State) : Res :=
  .next (if (s.link l).state = .training then s.setLink l fun x => { x with state := .up, half := false } else s)

/-- Training to Degraded. -/
def execLinkTrainedHalf (l : Nat) (s : State) : Res :=
  .next (if (s.link l).state = .training then s.setLink l fun x => { x with state := .degraded, half := true } else s)

/-- Training to Failed. -/
def execLinkTrainingTimeout (l : Nat) (s : State) : Res :=
  .next (if (s.link l).state = .training then (s.setLink l fun x => { x with state := .failed }).failLink l else s)

/-- The third retraining within one second (R330). -/
def Link.thrice (x : Link) (now : W64) : Bool :=
  decide (3 ≤ (x.recent.filter fun t => decide ((now - t).toNat < 1000000000)).length)

/-- A link begins to retrain, which is counted; the third time within one second it will fail (R330). -/
def Link.retrain (x : Link) (now : W64) : Link :=
  let y := { x with state := .retraining, recent := x.recent ++ [now], retrains := x.retrains + 1 }
  { y with third := y.thrice now }

/-- Up or Degraded to Retraining: outstanding requests are held, and nothing is lost. -/
def execLinkErrorRetrain (l : Nat) (s : State) : Res :=
  .next (if (s.link l).serves then s.setLink l fun x => x.retrain s.tstamp else s)

/-- The packets that link `l` held are sent again (R330, R173). -/
def State.resent (s : State) (l : Nat) : State :=
  { s with cores := s.cores.map fun e => (e.1, { e.2 with asyncs := e.2.asyncs.mapVals fun op =>
      { op with replays := op.replays + (op.parts.filter fun p => p.state == .sent && s.usesLink e.1 op p l).length } }) }

/-- R274: outstanding parts fail, and the expander link retrains. -/
def execExpanderCompletionTimeout (s : State) : Res :=
  .next (if (s.link 1).serves then (s.setLink 1 fun x => x.retrain s.tstamp).failLink 1 else s)

/-- Retraining to Up or Degraded; held requests resume. -/
def execLinkRetrained (l : Nat) (half : Bool) (s : State) : Res :=
  let x := s.link l
  .next (if x.state = .retraining ∧ x.third = false then
      let s := s.setLink l fun x => { x with state := if half then .degraded else .up, half := half }
      (s.resent l).drainPosted
    else s)

/-- Retraining to Failed. -/
def execLinkRetrainTimeout (l : Nat) (s : State) : Res :=
  .next (if (s.link l).state = .retraining then (s.setLink l fun x => { x with state := .failed }).failLink l else s)

/-- Any to Down. -/
def execLinkDisable (l : Nat) (s : State) : Res :=
  .next (if l < 16 then (s.setLink l fun x => { x with state := .down }).failLink l else s)

/-- R338: a flit that fails its CRC is sent again from the replay buffer, and nothing is lost. -/
def execFlitCrcReplay (l : Nat) (s : State) : Res :=
  .next (if 2 ≤ l ∧ l ≤ 13 ∧ (s.link l).serves = true then s.setLink l fun x => { x with replays := x.replays + 1 } else s)

/-! ### Network memory (R339) -/

/-- R339: the resident kernel registers a region and its key for one context. -/
def execMemoryRegionRegister (port key c va len : Nat) (r w : Bool) (s : State) : Res :=
  let taken := s.regions.any fun g => g.port == port && g.key == key
  .next (if s.rkUp && decide (port < 2 ∧ key < 2 ^ 32) && !taken && s.inUse c then
      { s with regions := s.regions ++ [⟨port, key, c, va, len, r, w⟩] }
    else s)

/-- Some accesses outside the cores: served, refused, or not yet. -/
inductive OutTry where
  | go
  | refuse
  | later (s : State)
  deriving DecidableEq, Repr

/-- Whether an agent outside may write or read a run in a context's tables; an absent page is asked for (R225). -/
def State.outTry (s : State) (c va len : Nat) (need : Need) : OutTry :=
  match s.vaTryAll (some c) [(va, len, need)] with
  | .bad => .refuse
  | .absent a => .later (s.pageFault c a)
  | _ => .go

/-- A read of an agent outside, which waits for its plots and for its slots of the calendar (R231, R19). -/
def State.outRead (s : State) (g : Agent) (va len : Nat) : OutTry :=
  match g.ctx.map (fun c => s.outTry c va len .r), s.agentTry g [] [(va, len, .r)] with
  | some .refuse, _ => .refuse
  | some (.later s), _ => .later s
  | _, .later s => .later s
  | _, _ => .go

/-- A link that carries requests. -/
def State.up (s : State) (l : Nat) : Bool := (s.link l).serves

/-- A read of a requester through a port: after its posted writes, with what the port engine sees (R209). -/
def State.portAnswer (s : State) (from' c va n : Nat) : State :=
  let s := s.drainPosted
  if s.posted.any fun w => w.from' == from' then s
  else match s.outRead (readAgent c from') va n with
    | .go =>
      let s := (s.portLook (some c) va n).agentDone (readAgent c from') [(va, n, .r)]
      s.out (.readData (s.portRead (some c) va n))
    | .later s => s
    | .refuse => s

/-- R339: an incoming access is checked against its region, and performed or refused with a NAK. -/
def execIncomingRdmaAccess (port key va len : Nat) (write : Bool) (bytes : List (BitVec 8)) (s : State) : Res :=
  let n := if write then bytes.length else len
  if !s.up (14 + port) || decide (1 < port) then .next s
  else match s.regions.find? fun g => g.port == port && g.key == key with
    | none => .next (s.out .nak)
    | some g =>
      if !(if write then g.w else g.r) || !decide (g.va ≤ va ∧ va + n ≤ g.va + g.len) then .next (s.out .nak)
      else match s.outTry g.ctx va n (if write then .w else .r) with
        | .refuse => .next (s.out .nak)
        | .later s' => .next (if write then s.post (netFrom port) g.ctx va bytes else s')
        | .go => .next (if write then s.post (netFrom port) g.ctx va bytes else s.portAnswer (netFrom port) g.ctx va n)

/-! ### Queue pairs (R340, R341) -/

/-- R340: the resident kernel gives a queue pair its rings, which are pinned, and its doorbell word. -/
def execQueuePairSetup (port qp c sring ssize rring rsize cring csize db : Nat) (s : State) : Res :=
  let ok := decide (port < 2 ∧ qp < 65536 ∧ 0 < ssize ∧ 0 < rsize ∧ 0 < csize) && db % 8 == 0 && s.inUse c &&
    s.runWarm c sring (64 * ssize) && s.runWarm c rring (32 * rsize) && s.runWarm c cring (32 * csize)
  .next (if s.rkUp && ok then
      let s := ((s.pinRun c sring (64 * ssize) false).pinRun c rring (32 * rsize) false).pinRun c cring (32 * csize) false
      s.setQp (qpKey port qp) { QPair.blank with
        ctx := c, sring := sring, ssize := ssize, rring := rring, rsize := rsize, cring := cring, csize := csize, db := db }
    else s)

/-- R340: a write to the doorbell word that has been acknowledged is forwarded: its halves are the tails. -/
def execQpDoorbell (port qp : Nat) (s : State) : Res :=
  match s.qp? port qp with
  | none => .next s
  | some q =>
    if !q.rung then .next s else
    match s.vaTry (some q.ctx) q.db 8 .r with
    | .ok pa =>
      let v := BitVec.ofNat 64 (s.pa64 pa)
      .next (if q.error then s.setQp (qpKey port qp) { q with rung := false }
        else s.setQp (qpKey port qp) { q with rung := false, stail := v.extractLsb' 0 32, rtail := v.extractLsb' 32 32 })
    | _ => .next s

/-- A queue pair as it asks the shared units: for its send entries, its receive entries, and the bytes that it sends. -/
def sendAgent (key : Nat) (q : QPair) : Agent := ⟨some q.ctx, agentId 10 (4 * key), 21⟩
def recvAgent (key : Nat) (q : QPair) : Agent := ⟨some q.ctx, agentId 10 (4 * key + 1), 21⟩
def bytesAgent (key : Nat) (q : QPair) : Agent := ⟨some q.ctx, agentId 10 (4 * key + 2), 21⟩

/-- The engine of a port reads an entry of a ring, as it sees it (R209), in its slots of the calendar. -/
def State.withEntry (s : State) (g : Agent) (va n : Nat) (f : State → Res) : Res :=
  match s.outRead g va n with
  | .go => f ((s.portLook g.ctx va n).agentDone g [(va, n, .r)])
  | .later s => .next s
  | .refuse => .next s

/-- A send entry is well formed (R340). -/
def sendLegal (w : Nat → W64) : Bool :=
  bits (w 0) 55 50 == 0 && bits (w 0) 47 32 == 0 && decide ((w 2).toNat ≤ 2 ^ 31) && bits (w 4) 63 32 == 0 &&
    w 6 == 0 && w 7 == 0

/-- A send entry that completes at once with an error. A completion with an error is written whatever `sig` says. -/
def State.sendBad (s : State) (key : Nat) (q : QPair) (w : Nat → W64) : State :=
  (s.setQp key { q with shead := q.shead + 1 }).qpComplete key (bits (w 0) 63 56) 1 0 (w 5) 0

/-- The next send entry of a queue pair, if it has op `ok`: begun in ring order, after earlier READs where `fence` asks. A
malformed entry completes with status 1; with its port down every entry is flushed (R331). -/
def onSend (s : State) (port qp : Nat) (ok : Nat → Bool) (f : State → Nat → QPair → (Nat → W64) → State) : Res :=
  match s.qp? port qp with
  | none => .next s
  | some q =>
    let key := qpKey port qp
    if q.error || q.shead == q.stail then .next s
    else if (s.link (14 + port)).dead then .next (s.qpError key)
    else
      let va := q.sring + 64 * (q.shead.toNat % q.ssize)
      if !s.up (14 + port) then .next s
      else s.withEntry (sendAgent key q) va 64 fun s =>
      let w := s.sendEntry q q.shead
      if !ok (bits (w 0) 63 56) || (bitAt (w 0) 49 && q.cur.any fun e => e.op == 4) then .next s
      else if !sendLegal w then .next (s.sendBad key q w)
      else .next (f s key q w)

/-- An entry is in progress until the other side answers. -/
def State.sendBegun (s : State) (key : Nat) (q : QPair) (w : Nat → W64) : State :=
  s.setQp key { q with
    shead := q.shead + 1
    cur := q.cur ++ [⟨bits (w 0) 63 56, bitAt (w 0) 48, (w 1).toNat, (w 2).toNat, w 5⟩] }

/-- An entry that sends its local bytes: they are read and leave the port. -/
def State.sendData (s : State) (key : Nat) (q : QPair) (w : Nat → W64) (imm : BitVec 32) (rva rkey : Nat) : State :=
  let n := (w 2).toNat
  match s.outRead (bytesAgent key q) (w 1).toNat n with
  | .refuse => s.sendBad key q w
  | .later s => s
  | .go =>
    let s := (s.portLook (some q.ctx) (w 1).toNat n).agentDone (bytesAgent key q) [((w 1).toNat, n, .r)]
    (s.out (.rdma (bits (w 0) 63 56) imm rva rkey (s.portRead (some q.ctx) (w 1).toNat n))).sendBegun key q w

/-- op 0. -/
def execSend (port qp : Nat) (s : State) : Res :=
  onSend s port qp (· == 0) fun s key q w => s.sendData key q w 0 0 0

/-- op 1. -/
def execSendWithImmediate (port qp : Nat) (s : State) : Res :=
  onSend s port qp (· == 1) fun s key q w => s.sendData key q w ((w 0).extractLsb' 0 32) 0 0

/-- op 2. -/
def execRdmaWrite (port qp : Nat) (s : State) : Res :=
  onSend s port qp (· == 2) fun s key q w => s.sendData key q w 0 (w 3).toNat (w 4).toNat

/-- op 3. -/
def execRdmaWriteWithImmediate (port qp : Nat) (s : State) : Res :=
  onSend s port qp (· == 3) fun s key q w => s.sendData key q w ((w 0).extractLsb' 0 32) (w 3).toNat (w 4).toNat

/-- op 4: the local bytes must be writable; they arrive with the response. -/
def execRdmaRead (port qp : Nat) (s : State) : Res :=
  onSend s port qp (· == 4) fun s key q w =>
    match s.outTry q.ctx (w 1).toNat (w 2).toNat .w with
    | .refuse => s.sendBad key q w
    | .later s => s
    | .go => (s.out (.rdmaReadReq (w 3).toNat (w 4).toNat (w 2).toNat)).sendBegun key q w

/-- op 5 to 255 complete with status 1. -/
def execSendEntryBadOp (port qp : Nat) (s : State) : Res :=
  onSend s port qp (fun op => decide (5 ≤ op)) fun s key q w => s.sendBad key q w

/-- R341: the oldest entry in progress completes as the other side answered: `status` 0 or 2, or 3 where its retries have run out,
which puts the pair in the error state; a READ's bytes are placed before its completion entry. -/
def execSendEntryComplete (port qp status : Nat) (bytes : List (BitVec 8)) (s : State) : Res :=
  match s.qp? port qp with
  | none => .next s
  | some q =>
    let key := qpKey port qp
    match q.cur with
    | [] => .next s
    | e :: rest =>
      if !(status == 0 || status == 2 || status == 3) || !s.up (14 + port) then .next s
      else
        let done := fun (s : State) (st moved : Nat) =>
          let s := s.updQp key fun q => { q with cur := rest }
          let s := if e.sig || st != 0 then s.qpComplete key e.op st moved e.wrid 0 else s
          if st = 3 then s.qpError key else s
        if status = 0 ∧ e.op = 4 then
          if bytes.length ≠ e.len then .next s
          else match s.outTry q.ctx e.lva e.len .w with
            | .refuse => .next (done s 1 0)
            | .later s => .next s
            | .go => .next (done (s.post (netFrom port) q.ctx e.lva bytes) 0 e.len)
        else .next (done s status (if status = 0 then e.len else 0))

/-- R340, R341: an incoming SEND (op 0, 1) or WRITE with immediate (op 3) consumes the next receive entry: a SEND's bytes are
placed there, and the completion entry follows. -/
def execReceiveConsume (port qp op : Nat) (imm : BitVec 32) (bytes : List (BitVec 8)) (s : State) : Res :=
  match s.qp? port qp with
  | none => .next s
  | some q =>
    let key := qpKey port qp
    if q.error || q.rhead == q.rtail || !s.up (14 + port) || !(op == 0 || op == 1 || op == 3) then .next s
    else
      s.withEntry (recvAgent key q) (q.rring + 32 * (q.rhead.toNat % q.rsize)) 32 fun s =>
      let w := s.recvEntry q q.rhead
      let n := bytes.length
      let done := fun (s : State) (st moved : Nat) =>
        (s.updQp key fun q => { q with rhead := q.rhead + 1 }).qpComplete key (0x80 + op) st moved (w 2) (if op = 0 then 0 else imm)
      if bits (w 1) 63 32 ≠ 0 ∨ w 3 ≠ 0 then .next (done s 1 0)
      else if op = 3 then .next (done s 0 n)
      else if (w 1).toNat < n then .next (done s 1 0)
      else match s.outTry q.ctx (w 0).toNat n .w with
        | .refuse => .next (done s 1 0)
        | .later s => .next s
        | .go => .next (done (s.post (netFrom port) q.ctx (w 0).toNat bytes) 0 n)

/-- R341: the retries of a queue pair run out. -/
def execQpRetriesExhausted (port qp : Nat) (s : State) : Res := .next (s.qpError (qpKey port qp))

end Sys2Proof.Machine
end

