-- ==== Sys2Proof/Machine/Outside.lean ====
section
/-! DEFINITION. What reaches the package from outside its cores: BAR2 (21 R336), peers over the chip links (21 R338), and
the port table (21 R332). -/

namespace Sys2Proof.Machine

/-- R332: the resident kernel writes entry `i` of a context's port table. -/
def execPortTableWrite (c i : Nat) (w0 w1 : BitVec 64) (s : State) : Res :=
  .next (if s.rkUp && decide (i < 256) && s.inUse c then s.updCtx c fun x => { x with ports := x.ports.set i ⟨w0, w1⟩ }
    else s)

/-- R336: the resident kernel binds the BAR2 of a VF. -/
def execBar2Bind (fn c wbase : Nat) (s : State) : Res :=
  .next (if s.rkUp && decide (fn < 256) && wbase % 2 ^ 30 == 0 && s.inUse c then
      { s with bar2 := s.bar2.set fn (c, wbase) }
    else s)

/-- The bytes of a function's BAR2 (R335): 1 to 256 GiB, as the hypervisor has set it. -/
def State.bar2Bytes (s : State) (fn : Nat) : Nat := (s.bar2Size.get fn).getD 1 * 2 ^ 30

/-- The 128 bytes of a queue's descriptor (R296). -/
def Queue.descBytes (q : Queue) : List Byte :=
  toBytes 8 q.ring ++ toBytes 8 q.size ++ toBytes 8 q.cring ++ q.bytes ++ toBytes 56 0

/-- What a read of BAR0 returns (R335, R297): a queue's descriptor at 0x800 of its page, and zero everywhere else. -/
def State.bar0Read (s : State) (fn off n : Nat) : List Byte :=
  (List.range n).map fun i =>
    let a := off + i
    match s.queue? fn (a / 4096) with
    | some y => if a % 4096 < 0x800 then 0 else y.descBytes.getD (a % 4096 - 0x800) 0
    | none => 0

/-- R336: a posted write through BAR2 is performed after the earlier ones of its function (R209). -/
def execBar2PostedWrite (fn off : Nat) (bytes : List (BitVec 8)) (s : State) : Res :=
  if !s.up 0 || decide (s.bar2Bytes fn < off + bytes.length) then .next s
  else match s.bar2.get fn with
    | none => .next (s.out .unsupported)
    | some (c, wbase) => .next (s.post fn c (wbase + off) bytes)

/-- R336: a read through BAR2: one that touches an absent page, or one without `r`, completes with Unsupported Request. -/
def execBar2Read (fn off len : Nat) (s : State) : Res :=
  if !s.up 0 || decide (s.bar2Bytes fn < off + len) then .next s
  else match s.bar2.get fn with
    | none => .next (s.out .unsupported)
    | some (c, wbase) =>
      match s.vaTryAll (some c) [(wbase + off, len, .r)] with
      | .bad => .next (s.out .unsupported)
      | .absent _ => .next (s.out .unsupported)
      | _ => .next (s.portAnswer fn c (wbase + off) len)

/-- R338: an access over chip link `l` from context `rctx` of the peer, translated in context `c` if it is bound to both. -/
def execPeerAccessArrive (l rctx c va len : Nat) (write : Bool) (bytes : List (BitVec 8)) (s : State) : Res :=
  let n := if write then bytes.length else len
  if !decide (l < 12) || !s.up (2 + l) then .next s
  else if !s.peerBinds.contains (l, rctx, c) then .next (s.out .protection)
  else match s.outTry c va n (if write then .w else .r) with
    | .refuse => .next (s.out .protection)
    | .later s' => .next (if write then s.post (peerFrom l rctx) c va bytes else s')
    | .go => .next (if write then s.post (peerFrom l rctx) c va bytes else s.portAnswer (peerFrom l rctx) c va n)

end Sys2Proof.Machine
end

