-- ==== Sys2Proof/Machine/Sys.lean ====
section
/-! DEFINITION. The SYS instructions (14 R255, R261, R262; 08 R176) and the CSRs (03 R62) that they reach. -/

namespace Sys2Proof.Machine

/-! ### Reading a CSR -/

/-- Σ E_c over the cores of a context, saturated (R256). -/
def State.sumEst (s : State) (x : Ctx) : Nat := min (sumOf (x.cores.map s.estOf)) 0xFFFFFFFF

def PlotState.code : PlotState → Nat
  | .off => 0
  | .retention => 1
  | .waking => 2
  | .warm => 3

/-- 32 plots of the map from plot `lo` (R235): 00 where the context has no allocated page. -/
def State.plotMap (s : State) (c lo : Nat) : Nat :=
  (List.range 32).foldl (fun v i =>
    let p := s.plot (lo + i)
    v + (if p.owners.contains c then p.state.code else 0) * 4 ^ i) 0

/-- Word `i` of a side buffer (R270). -/
def SideBuf.word (b : SideBuf) (i : Nat) : W64 :=
  if i = 0 then BitVec.ofNat 64 (Mask.count b.mask * 2 ^ 32 + b.split % 16 * 2 ^ 20 + b2n b.late * 2 ^ 19 +
    b2n b.overrun * 2 ^ 18 + b.grade.toNat * 2 ^ 16 + b.code.toNat)
  else if i = 1 then b.pc
  else if i = 2 then b.info
  else if i = 3 then b.info2
  else if i = 4 then b.bdetail
  else if i = 5 then BitVec.ofNat 64 b.bfails
  else if i < 16 then 0
  else if i < 32 then b.mask.extractLsb' (64 * (i - 16)) 64
  else match b.detail[i - 32]? with
    | some e => e.2
    | none => 0

/-- `coreid` (R23). -/
def coreId (k : Nat) : Nat := dieOf k * 2 ^ 16 + k % 80 / 8 * 2 ^ 12 + k % 8 * 2 ^ 9 + k

/-- The fields of a team's `dbgctl` and `wpctl` as words (R169). -/
def Team.dbgctl (tm : Team) : Nat :=
  b2n tm.dall * 16 + b2n tm.smp * 8 + b2n tm.tre * 4 + b2n tm.bke * 2 + b2n tm.att
def Team.wpctl (tm : Team) : Nat :=
  tm.wplen.toNat * 2 ^ 16 + b2n tm.wprd * 4 + b2n tm.wpwr * 2 + b2n tm.wpen

/-- The CSRs of the context and of the package, and the core's (R2, R23, R256, R235, R236, R326). -/
def State.csrShared (s : State) (k : Nat) (co : Core) (c : Nat) (x : Ctx) (n : Nat) : W64 :=
  let w := fun v : Nat => BitVec.ofNat 64 v
  match n with
  | 0x000 => w 0x43201000
  | 0x001 => w (coreId k)
  | 0x002 => w c
  | 0x003 => w (b2n x.pf * 256 + (if x.pf then 0 else x.vf.toNat))
  | 0x010 => w x.bound
  | 0x011 => w (co.allow % 2 ^ 32)
  | 0x012 => w (s.estOf k % 2 ^ 32)
  | 0x013 => w (s.sumEst x)
  | 0x015 => w x.srate
  | 0x016 => w x.fix
  | 0x01A => x.tfDrain.zeroExtend 64
  | 0x01B => x.tfCopy.zeroExtend 64
  | 0x01C => x.tfCall.zeroExtend 64
  | 0x01D => x.tfCensus.zeroExtend 64
  | 0x020 => x.bwLevel.zeroExtend 64
  | 0x021 => w (s.plotMap c 0)
  | 0x022 => w (s.plotMap c 32)
  | 0x023 => if co.heldPlots.isEmpty then co.wakens else co.wakens + (s.tstamp - co.heldFrom)
  | 0x024 => (s.rdslots.get x.fn).getD 0
  | 0x041 => co.trbase
  | 0x042 => co.trsize
  | 0x043 => co.trhead
  | 0x044 => co.smpint
  | 0x045 => co.trlost
  | 0x060 => co.pcCtl
  | 0x061 => co.pcIssue
  | 0x062 => co.pcIdle
  | 0x063 => co.pcBank
  | 0x064 => co.pcAdmit
  | 0x065 => co.pcAsync
  | 0x066 => co.pcPkt
  | 0x067 => co.pcSplit
  | 0x080 => w (sumOf (x.censuses.map fun e => 2 ^ e.1))
  | 0x081 => w (256 - co.dir.length)
  | 0x082 => w (co.spawnQ.length % 2 ^ 16)
  | 0x083 => w (32 - co.answers.length)
  | _ => 0

/-- The CSRs of a team (R256, R269, R73, R169). -/
def Team.csr (tm : Team) (n : Nat) : Option W64 :=
  match n with
  | 0x014 => some (flag64 tm.vtrap)
  | 0x030 => some tm.tvec
  | 0x031 => some (tm.tcause.zeroExtend 64)
  | 0x032 => some tm.tpc
  | 0x033 => some (tm.tslot.zeroExtend 64)
  | 0x034 => some (tm.tgrade.zeroExtend 64)
  | 0x035 => some (tm.side.word tm.tslot.toNat)
  | 0x03E => some (flag64 tm.inv)
  | 0x040 => some (BitVec.ofNat 64 tm.dbgctl)
  | 0x046 => some tm.wpaddr
  | 0x047 => some (BitVec.ofNat 64 tm.wpctl)
  | _ => none

/-- What a read of CSR `n` by a team of core `k` gives. -/
def State.csr (s : State) (k t n : Nat) : W64 :=
  match s.core? k, s.team? k t, s.ctxOf k with
  | some co, some tm, some (c, x) => (tm.csr n).getD (s.csrShared k co c x n)
  | _, _, _ => 0

/-- A read of `tword` advances `tslot` modulo 64 (R269). -/
def Team.nextWord (tm : Team) : Team := { tm with tslot := tm.tslot + 1 }

/-! ### Writing a CSR -/

/-- The level that the next write of `bwphase` in the order of adoption meets (R233, R261). -/
def Ctx.bwNext (x : Ctx) : BitVec 2 :=
  match x.bwWrites.getLast? with
  | some w => w.level
  | none => x.bwLevel

/-- The limits of the CSRs' maps on a new value `v` (R169, R174, R269): a value outside them is an illegal operand. -/
def csrLimit (n : Nat) (v : W64) : Bool :=
  match n with
  | 0x030 => bits v 8 0 == 0
  | 0x041 => bits v 5 0 == 0
  | 0x042 => decide (16 ≤ v.toNat ∧ v.toNat ≤ 2 ^ 20) && (v &&& (v - 1)) == 0
  | 0x044 => decide (1 ≤ v.toNat ∧ v.toNat ≤ 2 ^ 32)
  | 0x046 => bits v 1 0 == 0
  | 0x047 => !bitAt v 0 || (bits v 31 16 % 4 == 0 && bits v 31 16 != 0)
  | 0x060 => bits v 63 1 == 0
  | _ => true

/-- The writable bits of a CSR: the others are reserved or read-only and ignore what is written (R8). -/
def csrMask (n : Nat) : W64 :=
  match n with
  | 0x014 => 1
  | 0x020 => 3
  | 0x033 => 0x3F
  | 0x03E => 1
  | 0x040 => 0x1E
  | 0x047 => 0xFFFF0007
  | _ => BitVec.allOnes 64

/-- A team CSR written. -/
def Team.setCsr (tm : Team) (n : Nat) (v : W64) : Team :=
  match n with
  | 0x014 => { tm with vtrap := bitAt v 0 }
  | 0x030 => { tm with tvec := v }
  | 0x032 => { tm with tpc := v }
  | 0x033 => { tm with tslot := v.truncate 6 }
  | 0x03E => { tm with inv := bitAt v 0 }
  | 0x040 => { tm with dall := bitAt v 4, smp := bitAt v 3, tre := bitAt v 2, bke := bitAt v 1 }
  | 0x046 => { tm with wpaddr := v }
  | 0x047 => { tm with wplen := v.extractLsb' 16 16, wprd := bitAt v 2, wpwr := bitAt v 1, wpen := bitAt v 0 }
  | _ => tm

/-- A core CSR written at a time. A write of `trbase` restarts the count of records (R169); records not yet in the ring it
replaces are given up. A write of `wakens` counts from then on (R236). -/
def Core.setCsr (c : Core) (now : W64) (n : Nat) (v : W64) : Core :=
  match n with
  | 0x023 => { c with wakens := v, heldFrom := now }
  | 0x041 => { c with trbase := v, trhead := 0, trPend := [] }
  | 0x042 => { c with trsize := v }
  | 0x044 => { c with smpint := v }
  | 0x060 => { c with pcCtl := v }
  | 0x061 => { c with pcIssue := v }
  | 0x062 => { c with pcIdle := v }
  | 0x063 => { c with pcBank := v }
  | 0x064 => { c with pcAdmit := v }
  | 0x065 => { c with pcAsync := v }
  | 0x066 => { c with pcPkt := v }
  | 0x067 => { c with pcSplit := v }
  | _ => c

/-- CSR `n` written by split `p` of a team. -/
def State.setCsr (s : State) (k t p n : Nat) (v : W64) : State :=
  if n = 0x020 then
    match s.ctxOf k with
    | some (c, _) => s.updCtx c fun x => { x with bwWrites := x.bwWrites ++ [⟨v.truncate 2, k, t, p⟩] }
    | none => s
  else (s.updTeam k t fun tm => tm.setCsr n v).updCore k fun c => c.setCsr s.tstamp n v

/-- What a write, set or clear starts from: for `bwphase` the last value in the order of adoption. -/
def State.csrBase (s : State) (k t n : Nat) : W64 :=
  if n = 0x020 then
    match s.ctxOf k with
    | some (_, x) => x.bwNext.zeroExtend 64
    | none => 0
  else s.csr k t n

/-- Privileged code at an address that the resident kernel's interface defines, which the manual does not give. -/
def privileged (addr : BitVec 12) (s : State) : Option Refusal :=
  match s.at? with
  | some a => if a.team.priv && decide (0x800 ≤ addr.toNat) && Config.rkCsr addr.toNat then some (.privilegedCsr addr.toNat) else none
  | none => none

/-- The fault at an address of 0x800 or above: privilege from a context's code (R59), and illegal operand from privileged code
where the interface defines none (R62). -/
def farCsr (priv : Bool) : Trap := if priv then illegalOperand else { code := 0x0004 }

/-- The frame of `csr.wr`, `csr.set` and `csr.clr` (R261): `f` makes the new value of the writable bits. A write sets the
value of `pc.issue` after its own words have counted (R174). -/
def csrWord (d : Opnd) (addr : BitVec 12) (f : W64 → W64 → W64) (s : State) : Res :=
  match privileged addr s with
  | some r => .refused r
  | none => onWord s fun a =>
    let n := addr.toNat
    let old := s.csrBase a.k a.t n
    let v := (old &&& ~~~csrMask n) ||| (f old (a.u d) &&& csrMask n)
    if !a.team.claims d then .trap s outsideClaim
    else if 0x800 ≤ n then .trap s (farCsr a.team.priv)
    else if !csrLimit n v then .trap s illegalOperand
    else .adv (s.setCsr a.k a.t a.p n (if n = 0x061 ∧ !a.core.pcCtl.getLsbD 0 then v - BitVec.ofNat 64 a.n else v))

/-! ### The instructions -/

/-- R261. -/
def execCsrRd (d : Opnd) (addr : BitVec 12) (s : State) : Res :=
  match privileged addr s with
  | some r => .refused r
  | none => onWord s fun a =>
    if !a.team.claims d then .trap s outsideClaim
    else if 0x800 ≤ addr.toNat then .trap s (farCsr a.team.priv)
    else
      let v := s.csr a.k a.t addr.toNat
      .adv (s.updTeam a.k a.t fun tm => (if addr = 0x035 then tm.nextWord else tm).setS (num d) v)

/-- R261. -/
def execCsrWr (d : Opnd) (addr : BitVec 12) (s : State) : Res := csrWord d addr (fun _ x => x) s
/-- R261. -/
def execCsrSet (d : Opnd) (addr : BitVec 12) (s : State) : Res := csrWord d addr (fun o x => o ||| x) s
/-- R261. -/
def execCsrClr (d : Opnd) (addr : BitVec 12) (s : State) : Res := csrWord d addr (fun o x => o &&& ~~~x) s

/-- R269: the `csr.rd` of `tword`, as a step of its own name. -/
def execTwordRead (d : Opnd) (s : State) : Res :=
  onWord s fun a =>
    if !a.team.claims d then .trap s outsideClaim
    else .adv (s.updTeam a.k a.t fun tm => tm.nextWord.setS (num d) (tm.side.word tm.tslot.toNat))

/-- R169: the `csr.wr` of `trbase`, as a step of its own name. -/
def execTrbaseWrite (d : Opnd) (s : State) : Res :=
  onWord s fun a =>
    if !a.team.claims d then .trap s outsideClaim
    else if bits (a.u d) 5 0 ≠ 0 then .trap s illegalOperand
    else .adv (s.updCore a.k fun c => c.setCsr s.tstamp 0x041 (a.u d))

/-- R176: the package timestamp at issue. -/
def execTstamp (d : Opnd) (s : State) : Res :=
  onWord s fun a =>
    if !a.team.claims d then .trap s outsideClaim
    else .adv (s.updTeam a.k a.t fun tm => tm.setS (num d) s.tstamp)

/-- R255: the credit leaves at issue and arrives by CEDE_CREDIT_ARRIVE. -/
def execCede (x y : Opnd) (s : State) : Res :=
  onWord s fun a =>
    let t := bits (a.u x) 31 0
    let k := bits (a.u y) 31 0
    if !a.team.claimsAll [x, y] then .trap s outsideClaim
    else match s.ctxOf a.k with
      | none => .adv s
      | some (c, cx) =>
        if 320 ≤ t ∨ !cx.cores.contains t then .trap s (s.admTrap a.k 0x0503 k)
        else if k = 0 ∨ t = a.k then .adv s
        else if (a.core.allow : Int) - s.estOf a.k < k then .trap s (s.admTrap a.k 0x0504 k)
        else .adv ((s.updCore a.k fun co => { co with allow := co.allow - k }).updCtx c fun cx =>
          { cx with credits := cx.credits ++ [⟨a.k, t, k⟩] })

/-- A credit reaches its core (R255): the oldest in flight from `src` to `dst`. The core's stalled order is tested again by
ADMISSION_RETEST. -/
def execCedeCreditArrive (c src dst : Nat) (s : State) : Res :=
  match (s.ctx? c).bind fun x => x.credits.find? fun e => e.src == src && e.dst == dst with
  | none => .next s
  | some e =>
    .next ((s.updCtx c fun x => { x with credits := x.credits.erase e }).updCore dst fun co =>
      { co with allow := co.allow + e.k })

/-! ### `bwphase` (13 R233, R234) -/

/-- The saved touch set of a level (R234); rest keeps none. -/
def Ctx.touchSet (x : Ctx) (l : BitVec 2) : W64 :=
  if l = 1 then x.touchTr else if l = 2 then x.touchSt else if l = 3 then x.touchFu else 0

/-- The interval at the present level ends: its touch set is saved (R234). -/
def Ctx.endInterval (x : Ctx) : Ctx :=
  if x.bwLevel = 1 then { x with touchTr := x.touched }
  else if x.bwLevel = 2 then { x with touchSt := x.touched }
  else if x.bwLevel = 3 then { x with touchFu := x.touched }
  else x

/-- The plots of a set that are in Retention start to wake for context `c` (R234). The wake restarts the idle time of R232
and counts as an access of the context. Mark DEDUCED: the declared phase of R237 has plot 9, which only the wake reached,
stay Warm and stand in the new touch set. -/
def State.wakeSet (s : State) (c : Nat) (m : W64) : State :=
  let woken := (s.plots.filter fun e => bitAt m e.1 && e.2.state == .retention).map (·.1)
  { (s.updCtx c fun x => { x with touched := woken.foldl (fun v p => v ||| BitVec.ofNat 64 (2 ^ p)) x.touched }) with
    plots := s.plots.map fun e =>
      (e.1, if bitAt m e.1 && e.2.state == .retention then { e.2 with state := .waking, last := s.tstamp } else e.2) }

/-- The level of a context becomes `l` (R234): only a change starts an interval, and only a rise wakes plots. -/
def State.adopt (s : State) (c : Nat) (x : Ctx) (l : BitVec 2) : State :=
  if l = x.bwLevel then s
  else
    let s' := s.updCtx c fun x => { x.endInterval with
      touched := 0
      bwLevel := l
      bwFell := if l < x.bwLevel then some s.tstamp else x.bwFell }
    if x.bwLevel < l then s'.wakeSet c (x.touchSet l) else s'

/-- R233: every controller has adopted the oldest write of `bwphase`. -/
def execBwphaseWrite (c : Nat) (s : State) : Res :=
  match s.ctx? c with
  | none => .next s
  | some x =>
    match x.bwWrites with
    | [] => .next s
    | w :: ws => .next ((s.adopt c x w.level).updCtx c fun x => { x with bwWrites := ws })

end Sys2Proof.Machine
end

