-- ==== Sys2Proof/Machine/Manage.lean ====
section
/-! DEFINITION. The management side: the wake filter (18 R307), SPDM and the measurement slots (21 R343), and ZMI (21 R344,
18 R306). -/

namespace Sys2Proof.Machine

/-! ### Sleep and wake (R307) -/

/-- The restored core hands the held frames to their ports' receive paths, in arrival order, and the other cores come back. -/
def State.replay (s : State) : State :=
  { s with outputs := s.outputs ++ s.frames.map fun f => .received f.1 f.2, frames := [], mgmtGated := false }

/-- R307: the management core gates every core, once held frames have been replayed; the network ports go on matching frames. -/
def execCoreGating (s : State) : Res := .next (if s.gated then s else { s.replay with gated := true })

/-- The fields of a wake-filter entry (R307). -/
def wakeOff (bs : List Byte) : Nat := bits (word64s bs 0) 56 48
def wakeLen (bs : List Byte) : Nat := bits (word64s bs 0) 42 38

/-- An entry keeps its limits: reserved bits 0, `off` at most 496, `len` from 1 to 16. -/
def wakeLegal (bs : List Byte) : Bool :=
  let w := word64s bs 0
  bs.length == 48 && bits w 63 57 == 0 && bits w 47 43 == 0 && bits w 37 2 == 0 && word64s bs 5 == 0 &&
    decide (wakeOff bs ≤ 496) && decide (1 ≤ wakeLen bs ∧ wakeLen bs ≤ 16)

/-- R307: the management core writes entry `i` before it gates; after a wake it runs again once the held frames have been
replayed. -/
def execWakeFilterWrite (i : Nat) (bytes : List (BitVec 8)) (s : State) : Res :=
  if s.gated then .next s
  else
    let s := s.replay
    .next (if decide (i < 16) && wakeLegal bytes then { s with wake := s.wake.set i bytes } else s)

/-- A frame of a port matches an entry. -/
def wakeMatch (bs : List Byte) (port : Nat) (frame : List Byte) : Bool :=
  bitAt (word64s bs 0) port && (List.range (wakeLen bs)).all fun i =>
    match frame[wakeOff bs + i]?, bs[8 + i]?, bs[0x18 + i]? with
    | some f, some v, some m => f &&& m == v
    | _, _, _ => false

/-- The bytes that a port holds. -/
def State.heldBytes (s : State) (port : Nat) : Nat := sumOf ((s.frames.filter fun f => f.1 == port).map fun f => f.2.length)

/-- A frame is held, in arrival order, within the port's 256 KiB; beyond them it is dropped and counted. -/
def State.holdFrame (s : State) (port : Nat) (frame : List Byte) : State :=
  if s.heldBytes port + frame.length ≤ 262144 then { s with frames := s.frames ++ [(port, frame)] }
  else { s with frameDrops := s.frameDrops + 1 }

/-- The restored core has come up by this step, a time the manual only calls typical (R307). -/
def State.restored (s : State) : Bool := Config.report (s.fresh + 80) 0 % 2 == 1

/-- R307: a frame arrives while the part sleeps: one that matches is held and restores a system core, and the others are
dropped and counted. Frames after the match are held behind it, until the restored core has come up and replays them. -/
def execWakeFrameMatch (port : Nat) (frame : List (BitVec 8)) (s : State) : Res :=
  if 1 < port then .next s
  else if s.gated then
    if s.wake.any fun e => wakeMatch e.2 port frame then
      .next ({ s with gated := false, mgmtGated := true }.holdFrame port frame)
    else .next { s with frameDrops := s.frameDrops + 1 }
  else if !s.mgmtGated then .next s
  else
    let s := s.holdFrame port frame
    .next (if s.restored then s.replay else s)

/-! ### SPDM (R343) -/

/-- R343: m ← SHA-384(m ‖ SHA-384(component)). -/
def execMeasurementExtend (i : Nat) (component : List (BitVec 8)) (s : State) : Res :=
  .next (if i < 16 then s.extend i (sha384 component) else s)

/-- A request reaches the responder, which the firmware cores run. -/
def onSpdm (s : State) (f : Spdm → State) : Res := .next (if s.asleep then s else f s.spdm)

/-- An answer that carries `n` bytes the manual does not give: certificates, digests, nonces, signatures. -/
def State.spdmAnswer (s : State) (code : Nat) (known : List Nat) (n : Nat) : State :=
  s.out (.spdm code (known ++ (List.range n).map fun j => Config.spdm code s.fresh j % 256))

/-- ERROR codes of DSP0274: invalid request, unexpected request. -/
def spdmInvalid : Nat := 0x01
def spdmUnexpected : Nat := 0x04
def State.spdmFail (s : State) (code : Nat) : State := s.out (.spdmError code)

/-- The sixteen measurement slots, byte by byte. -/
def State.measAll (s : State) : List Nat := (List.range 16).flatMap fun i => (measBytes (Regs.get s.meas i)).map (·.toNat)

/-- VERSION; it starts a negotiation anew. -/
def execGetVersion (s : State) : Res :=
  onSpdm s fun x => { s.spdmAnswer 0x04 [0x13] 0 with spdm := ⟨true, false, false, false, false, x.updates⟩ }

/-- CAPABILITIES. -/
def execGetCapabilities (s : State) : Res :=
  onSpdm s fun x => if x.version then s.spdmAnswer 0x61 [] 16 else s.spdmFail spdmUnexpected

/-- What ALGORITHMS selects (R343): BaseAsymAlgo 0; one ExtAsym entry, with its registry, VendorID and AlgorithmID 0x0001; SHA-384 for
both hashes, the group secp384r1, and AES-256-GCM. PRESUMED: the numbers of DSP0274 for IANA (4), for SHA-384 (bit 1 of BaseHashAlgo,
bit 2 of MeasurementHashAlgo), for secp384r1 (bit 4) and for AES-256-GCM (bit 1). -/
def spdmAlgorithms : List Nat := [0, 1, 4, Config.vendor % 2 ^ 32, 0x0001, 2, 4, 16, 2]

/-- ALGORITHMS; `offered` says that the requester offers the same ExtAsym entry. -/
def execNegotiateAlgorithms (offered : Bool) (s : State) : Res :=
  onSpdm s fun x =>
    if x.version then { s.spdmAnswer 0x63 spdmAlgorithms 0 with spdm := { x with algs := true, shared := offered } }
    else s.spdmFail spdmUnexpected

/-- DIGESTS of slots 0 and 1. -/
def execGetDigests (s : State) : Res :=
  onSpdm s fun x => if x.algs then s.spdmAnswer 0x01 [] 96 else s.spdmFail spdmUnexpected

/-- CERTIFICATE: slot 0 holds the device identity chain and slot 1 an alias chain. -/
def execGetCertificate (slot : Nat) (s : State) : Res :=
  onSpdm s fun x =>
    if !x.algs then s.spdmFail spdmUnexpected
    else if slot ≤ 1 then s.spdmAnswer 0x02 [slot] 1024
    else s.spdmFail spdmInvalid

/-- CHALLENGE_AUTH, which needs the signature. -/
def execChallenge (s : State) : Res :=
  onSpdm s fun x =>
    if !x.algs then s.spdmFail spdmUnexpected
    else if x.shared then s.spdmAnswer 0x03 [] 176
    else s.spdmFail spdmInvalid

/-- MEASUREMENTS: the slots, signed where the requester asks for it. -/
def execGetMeasurements (signed : Bool) (s : State) : Res :=
  onSpdm s fun x =>
    if !x.algs then s.spdmFail spdmUnexpected
    else if !signed then s.spdmAnswer 0x60 s.measAll 0
    else if x.shared then s.spdmAnswer 0x60 s.measAll 128
    else s.spdmFail spdmInvalid

/-- KEY_EXCHANGE_RSP, which needs the signature; a session begins. -/
def execKeyExchange (s : State) : Res :=
  onSpdm s fun x =>
    if !x.algs then s.spdmFail spdmUnexpected
    else if x.shared then { s.spdmAnswer 0x64 [] 240 with spdm := { x with session := true, finished := false } }
    else s.spdmFail spdmInvalid

/-- FINISH_RSP. -/
def execFinish (s : State) : Res :=
  onSpdm s fun x =>
    if x.session && !x.finished then { s.spdmAnswer 0x65 [] 0 with spdm := { x with finished := true } }
    else s.spdmFail spdmUnexpected

/-- KEY_UPDATE_ACK. -/
def execKeyUpdate (s : State) : Res :=
  onSpdm s fun x =>
    if x.session && x.finished then { s.spdmAnswer 0x69 [] 0 with spdm := { x with updates := x.updates + 1 } }
    else s.spdmFail spdmUnexpected

/-- HEARTBEAT_ACK. -/
def execHeartbeat (s : State) : Res :=
  onSpdm s fun x => if x.session && x.finished then s.spdmAnswer 0x68 [] 0 else s.spdmFail spdmUnexpected

/-- END_SESSION_ACK. -/
def execEndSession (s : State) : Res :=
  onSpdm s fun x =>
    if x.session && x.finished then { s.spdmAnswer 0x6C [] 0 with spdm := { x with session := false, finished := false } }
    else s.spdmFail spdmUnexpected

/-! ### ZMI (R344) -/

def LinkState.code : LinkState → Nat
  | .down => 0
  | .training => 1
  | .up => 2
  | .degraded => 3
  | .retraining => 4
  | .failed => 5

/-- Cores with their die, aisle, context and VF, plots with their state, links with their width and peer, and the fitted
expander and the vendor number (R343): a peer, the expander and the number are the part's own. -/
def State.topologyRows (s : State) : List (List Nat) :=
  ((List.range 320).map fun k => match s.ctxOf k with
    | some (c, x) => [k, dieOf k, k / 8, c + 1, x.fn]
    | none => [k, dieOf k, k / 8, 0, 0]) ++
    ((List.range 64).map fun p => [p, (s.plot p).state.code]) ++
    ((List.range 16).map fun l => [l, (s.link l).state.code, b2n (s.link l).half, Config.report s.fresh (160 + l)]) ++
    [[Config.report s.fresh 176, Config.vendor % 2 ^ 32]]

/-- Each link's state and counts, then failed channels, corrections, dropped wake frames, and figures of the part's own. -/
def State.healthRows (s : State) : List (List Nat) :=
  ((List.range 16).map fun l => [(s.link l).state.code, (s.link l).replays, (s.link l).retrains]) ++
    [s.failedCh, [s.corrected, s.frameDrops, b2n (s.rk == .givenUp)], (List.range 4).map fun j => Config.report s.fresh (128 + j)]

/-- Every plot's state, with the functions that own pages in it. -/
def State.plotRows (s : State) : List (List Nat) :=
  (List.range 64).map fun p => (s.plot p).state.code :: (s.plot p).owners.map fun c => match s.ctx? c with
    | some x => x.fn
    | none => 256

/-- B, `vtime`, `vmax` and `vcount` of each context (R260). -/
def State.auditRows (s : State) : List (List Nat) :=
  s.ctxs.map fun e => [e.1, e.2.bound, e.2.vtime, e.2.vmax, e.2.vcount.toNat]

/-- R344: the management core takes its snapshots. -/
def execZmiSnapshotRefresh (s : State) : Res :=
  .next (if s.asleep then s
    else { s with snapshot := ⟨s.topologyRows, s.healthRows, s.plotRows, s.auditRows⟩ })

/-- An operation of ZMI, which the management core serves, and which may raise a vector of the physical function (R335). -/
def onZmi (s : State) (f : State) : Res := .next (if s.asleep then s else f.notify 0)

def execZmiReadTopology (s : State) : Res := onZmi s (s.out (.zmi 0 s.snapshot.topology))
def execZmiReadHealth (s : State) : Res := onZmi s (s.out (.zmi 1 s.snapshot.health))

/-- R245, R306: one context is set draining. -/
def execZmiSetDraining (c : Nat) (s : State) : Res := onZmi s (if s.drainable c then s.drain c else s)
/-- R306. -/
def execZmiClearDraining (c : Nat) (s : State) : Res := onZmi s (if s.drainable c then s.undrain c else s)
/-- R344: every context, and those created later. -/
def execZmiSetPartDraining (s : State) : Res :=
  onZmi s (s.ctxs.foldl (fun s e => if s.drainable e.1 then s.drain e.1 else s) { s with partDraining := true })

/-- R344, R273: the entries of a context's fault log, each as its 64 bytes. -/
def execZmiReadFaultLog (c : Nat) (s : State) : Res :=
  onZmi s (s.out (.zmi 2 (match s.ctx? c with
    | some x => x.logRing.map fun e => e.bytes.map (·.toNat)
    | none => [])))

def execZmiReadPlotMap (s : State) : Res := onZmi s (s.out (.zmi 3 s.snapshot.plots))
def execZmiReadVacateAudit (s : State) : Res := onZmi s (s.out (.zmi 4 s.snapshot.audit))
/-- R344, R175: each shared unit's counter, with the function that its control selects. -/
def execZmiReadUnitCounters (s : State) : Res :=
  onZmi s (s.out (.zmi 5 ((List.range 28).map fun u => [u, (s.unitVf.get u).getD 0, ((s.unitCnt.get u).getD 0).toNat])))
/-- R344, R243. -/
def execZmiReadRdThresholds (s : State) : Res := onZmi s (s.out (.zmi 6 [[s.mitThresh, s.thrThresh]]))

end Sys2Proof.Machine
end

