-- ==== Sys2Proof/Machine/Debug.lean ====
section
/-! DEFINITION. The debugger (08 R165 to R172; 16 R281): attaching, stops, steps, writes, breakpoints, and the fault of a
trace write. -/

namespace Sys2Proof.Machine

/-- R165: the debugger asks for a stop. -/
def execDebuggerStopRequest (k t : Nat) (s : State) : Res :=
  match s.team? k t with
  | some tm => .next (if tm.att then s.stopTeamBy (fun s p pc => s.stop k t p pc 0 0) k t else s)
  | none => .next s

/-- R167: the context-wide stop that a team with `dbgctl.all` has begun reaches every core of its context now. -/
def execContextWideStop (c : Nat) (s : State) : Res :=
  .next ((s.cores.filter fun e => e.2.ctx == some c && e.2.stopIn.isSome).foldl (fun s e => s.stopCore e.1) s)

/-- A stopped team goes on from where it stopped. -/
def Team.resume (tm : Team) : Team := if tm.state = .stopped then { tm with state := tm.prev, step := none } else tm

/-- R167. -/
def execDebuggerResume (k t : Nat) (s : State) : Res := .next (s.updTeam k t (·.resume))

/-- R167: one word of the named split is due at a position of its team, and then the team stops again. DESIGN CHOICE: a step of a
`brk` or of a watched word that has not stopped the team yet ends in that stop, before the word issues. -/
def execDebuggerSingleStep (k t p : Nat) (s : State) : Res :=
  match s.team? k t, s.split? k t p with
  | some tm, some _ =>
    .next (if tm.att && tm.state == .stopped then s.updTeam k t fun tm => { tm with step := some p } else s)
  | _, _ => .next s

/-- A mask with its 64-bit word `w` replaced. -/
def setMaskWord (m : Mask) (w : Nat) (v : W64) : Mask :=
  (m &&& ~~~(BitVec.ofNat 1024 ((2 ^ 64 - 1) * 2 ^ (64 * w)))) ||| BitVec.ofNat 1024 (v.toNat * 2 ^ (64 * w))

/-- The state of a split-table entry by its code (R109); a free entry is none. -/
def SplitState.ofCode : Nat → Option SplitState
  | 1 => some .ready
  | 2 => some .waiting
  | 3 => some .parked
  | 4 => some .parent
  | _ => none

/-- A field of a split-table entry written (R165), of one of the 16 that is free as well. -/
def Team.writeEntry (tm : Team) (q : Nat) (f : Split → Split) : Team :=
  if tm.splits.has q then { tm with splits := tm.splits.upd q f }
  else if q < 16 then { tm with freeEntries := tm.freeEntries.set q (f ((tm.freeEntries.get q).getD Split.blank)) }
  else tm

/-- The state written in a split-table entry: 0 frees it, and the other codes name it (R109); an entry that was free keeps what has
been written in its fields. -/
def Team.writeState (tm : Team) (q n : Nat) : Team :=
  if n = 0 then { tm with
    splits := tm.splits.filter fun e => e.1 != q
    freeEntries := match tm.splits.get q with
      | some sp => tm.freeEntries.set q sp
      | none => tm.freeEntries }
  else match SplitState.ofCode n with
    | some st =>
      if tm.splits.has q then { tm with splits := tm.splits.upd q fun sp => { sp with state := st } }
      else if q < 16 then { tm with
        splits := tm.splits.set q { (tm.freeEntries.get q).getD Split.blank with state := st }
        freeEntries := tm.freeEntries.del q }
      else tm
    | none => tm

/-- A cause written over that of a wait (R109): the wait stays where its cause is the same. DESIGN CHOICE: one that names another
wait, whose operands an entry does not hold, is kept as a code that nothing ends but a debugger. -/
def Wait.recode (w : Wait) (n : Nat) : Wait :=
  if n = w.code then w else if n = 0 then .none else if n = 7 then .header else .coded n

/-- A split at a new `pc` (R165): it has left its clause. DESIGN CHOICE: the wait of the word that it stood at is over. -/
def Split.movePc (sp : Split) (pc : W64) : Split :=
  { sp with pc := pc, clause := none, transfer := false, waited := false, passBreak := false, passWord := false, prepaid := none,
            popped := none, heldAt := none, wait := .none, state := if sp.state = .waiting then .ready else sp.state }

/-- A field of a stopped team that the debugger writes; registers above the claim and lanes above `%lanes` do not exist. -/
def Team.debugWrite (tm : Team) (target : DbgTarget) (v : W64) : Team :=
  match target with
  | .v r l => if r < tm.vcount ∧ l < tm.lanes then tm.setV r [(l, v.truncate 32)] else tm
  | .s r => if r < tm.scount then tm.setS r v else tm
  | .p r l => if r < 8 ∧ l < tm.lanes then tm.setP r [(l, bitAt v 0)] else tm
  | .pc q => tm.writeEntry q (·.movePc v)
  | .exec q w => tm.writeEntry q fun sp => { sp with exec := setMaskWord sp.exec w v &&& maskAll tm.lanes }
  | .live q w => tm.writeEntry q fun sp => { sp with live := setMaskWord sp.live w v &&& maskAll tm.lanes }
  | .join q => tm.writeEntry q fun sp => { sp with join := v }
  | .depth q => tm.writeEntry q fun sp => { sp with depth := v.toNat % 2 ^ 32 }
  | .state q => tm.writeState q (v.toNat % 256)
  | .parent q => tm.writeEntry q fun sp => { sp with parent := v.toNat % 16 }
  | .children q => tm.writeEntry q fun sp => { sp with children := v.toNat % 256 }
  | .cause q => tm.writeEntry q fun sp => { sp with wait := sp.wait.recode (v.toNat % 2 ^ 32) }
  | .shared _ => tm
  | .die _ => tm
  | .csr _ => tm

/-- The word that a split waits at is given up: its cost items leave the estimate, and the stalled order forgets it. -/
def State.abandonWord (s : State) (k t p : Nat) : State :=
  match s.split? k t p with
  | none => s
  | some sp =>
    let s := (s.dropItem k sp.prepaid).unstall k t p
    match sp.wait with
    | .recPush _ _ _ item => s.dropItem k item
    | .sys _ _ item => s.dropItem k (some item)
    | _ => s

/-- R165: a write in a stopped team: a register, a field of a split-table entry, a byte of its crew's region or of its context's
bytes of the die scratchpad (R166), or a CSR with the limits of its map. -/
def execDebuggerWrite (k t : Nat) (target : DbgTarget) (value : BitVec 64) (s : State) : Res :=
  match s.team? k t with
  | none => .next s
  | some tm =>
    if !tm.att || tm.state != .stopped then .next s
    else match target with
      | .shared off =>
        let r := s.regionOf k tm.crew
        .next (if off < r.2 then s.updCore k fun co => { co with shared := Regs.set co.shared (r.1 + off) (value.truncate 8) }
          else s)
      | .die off =>
        let w := (s.ctxOf k).bind fun e => e.2.dieWin.get (dieOf k)
        .next (match w with
          | some (b, n) => if off < n then s.writeAt (.die (dieOf k) (b + off)) [value.truncate 8] else s
          | none => s)
      | .csr addr =>
        let n := addr.toNat
        let v := (s.csr k t n &&& ~~~csrMask n) ||| (value &&& csrMask n)
        .next (if n < 0x800 ∧ csrLimit n v = true then s.setCsr k t 0 n v else s)
      | .pc q => .next ((s.abandonWord k t q).updTeam k t fun tm => tm.debugWrite (.pc q) value)
      | f => .next (s.updTeam k t fun tm => tm.debugWrite f value)

/-- R168: the debugger programs comparator `i` of a core through the resident kernel. -/
def execBreakpointProgram (k i : Nat) (va : BitVec 64) (s : State) : Res :=
  match s.ctxOf k with
  | some (_, x) => .next (if s.rkUp && x.att && decide (i < 8) then
      s.updCore k fun co => { co with breaks := co.breaks.set i va } else s)
  | none => .next s

/-- `att` in every team of a core, with no comparators. -/
def Core.attach (co : Core) (att : Bool) : Core :=
  { co with breaks := [], teams := co.teams.mapVals fun tm => { tm with att := att } }

/-- A context and its cores, wherever they stand. -/
def State.setAtt (s : State) (c : Nat) (att : Bool) (f : Core → Core) : State :=
  let s := s.updCtx c fun x => { x with att := att, saved := x.saved.mapVals f }
  (s.coresOf c).foldl (fun s k => s.updCore k f) s

/-- The steps still due in a core are dropped (R281). -/
def State.dropSteps (s : State) (k : Nat) : State :=
  { s with issueQ := s.issueQ.filter fun u => !(u.core == k && u.single) }.updCore k fun co =>
    { co with teams := co.teams.mapVals fun tm => { tm with step := none } }

/-- R281: the resident kernel clears `att` and the comparators, and stopped teams resume: no step is due any longer. -/
def execDebuggerDetach (c : Nat) (s : State) : Res :=
  .next (if s.rkUp && s.inUse c then ((s.coresOf c).foldl State.dropSteps s).setAtt c false fun co =>
      let co := { co.attach false with stopIn := none }
      { co with teams := co.teams.mapVals (·.resume) }
    else s)

/-- R281: a debugger attaches. -/
def execDebuggerAttach (c : Nat) (s : State) : Res :=
  .next (if s.rkUp && s.inUse c then s.setAtt c true (·.attach true) else s)

/-- R172: the write of the oldest record that waits for the ring faults, for its page is absent and its service does not map it:
what waits is dropped and counted, and the ring is disabled. -/
def execTraceWriteFault (k : Nat) (s : State) : Res :=
  match s.core? k with
  | none => .next s
  | some co =>
    let s := drainTrace (co.trPend.length + 1) k s
    match s.core? k, s.ctxOf k with
    | some co, some (c, _) =>
      let va := co.trbase.toNat + 64 * (co.trhead.toNat % co.trsize.toNat)
      .next (if !co.trPend.isEmpty && s.translate c va .w == .absent then s.updCore k (·.traceFault) else s)
    | _, _ => .next s

end Sys2Proof.Machine
end

