-- ==== Sys2Proof/Machine/Flt.lean ====
section
/-! DEFINITION. The floating-point instructions (05 R91 to R100) on the exact arithmetic of Numbers. -/

namespace Sys2Proof.Machine

/-- The frame of a FLT word (R91): the lane frame of R86 with the FLT column of R79. `pk` names the packed format that
inline constants take (R42). -/
def fltWord (pk : Option Fmt) (d x y : Opnd) (f : W32 → W32 → W32 → W32) (s : State) : Res :=
  onWord s fun a =>
    if !a.team.claimsAll [d, x, y] then .trap s outsideClaim
    else .adv (a.put s (a.team.setV (num d)
      (a.lanes.map fun l => (l, f (a.f pk x l) (a.f pk y l) (a.team.vreg (num d) l)))))

/-- The frame of a floating-point compare (R95). -/
def fltCmp (d x y : Opnd) (f : W32 → W32 → Bool) (s : State) : Res :=
  onWord s fun a =>
    if !a.team.claimsAll [x, y] then .trap s outsideClaim
    else .adv (a.put s (a.team.setP (num d) (a.lanes.map fun l => (l, f (a.f none x l) (a.f none y l)))))

/-- The frame of a conversion: a value per lane, and whether it sets `fflags.inv` (R91). DESIGN CHOICE: an inline constant in A
of `funpack`, and of `fcvt` from F16 or BF16, is the F32 pattern of R79, not the packed form of R42; the manual does not say
which of the two such an operand is. -/
def cvtWord (d x : Opnd) (f : W32 → W32 → W32) (inv : W32 → Bool) (s : State) : Res :=
  onWord s fun a =>
    if !a.team.claimsAll [d, x] then .trap s outsideClaim
    else .adv (a.put s ((a.team.setV (num d)
      (a.lanes.map fun l => (l, f (a.f none x l) (a.team.vreg (num d) l)))).orInv
        (a.lanes.any fun l => inv (a.f none x l))))

/-- R92. -/
def execFadd (d x y : Opnd) (s : State) : Res := fltWord none d x y (fun a b _ => fadd32 a b) s

/-- R92. -/
def execFsub (d x y : Opnd) (s : State) : Res := fltWord none d x y (fun a b _ => fsub32 a b) s

/-- R92. -/
def execFmul (d x y : Opnd) (s : State) : Res := fltWord none d x y (fun a b _ => fmul32 a b) s

/-- R92. -/
def execFfma (d x y : Opnd) (s : State) : Res := fltWord none d x y (fun a b old => ffma32 a b old) s

/-- R93. -/
def execFmin (d x y : Opnd) (s : State) : Res := fltWord none d x y (fun a b _ => fmin32 a b) s

/-- R93. -/
def execFmax (d x y : Opnd) (s : State) : Res := fltWord none d x y (fun a b _ => fmax32 a b) s

/-- R98. -/
def execFscale (d x y : Opnd) (s : State) : Res := fltWord none d x y (fun a b _ => fscale32 a b) s

/-- R99. -/
def execHadd2 (d x y : Opnd) (s : State) : Res := fltWord (some .f16) d x y (fun a b old => packed2 .f16 (fun x y _ => x.add y) a b old) s

/-- R99. -/
def execHmul2 (d x y : Opnd) (s : State) : Res := fltWord (some .f16) d x y (fun a b old => packed2 .f16 (fun x y _ => x.mul y) a b old) s

/-- R99. -/
def execHfma2 (d x y : Opnd) (s : State) : Res := fltWord (some .f16) d x y (fun a b old => packed2 .f16 (fun x y z => (x.mul y).add z) a b old) s

/-- R99. -/
def execBadd2 (d x y : Opnd) (s : State) : Res := fltWord (some .bf16) d x y (fun a b old => packed2 .bf16 (fun x y _ => x.add y) a b old) s

/-- R99. -/
def execBmul2 (d x y : Opnd) (s : State) : Res := fltWord (some .bf16) d x y (fun a b old => packed2 .bf16 (fun x y _ => x.mul y) a b old) s

/-- R99. -/
def execBfma2 (d x y : Opnd) (s : State) : Res := fltWord (some .bf16) d x y (fun a b old => packed2 .bf16 (fun x y z => (x.mul y).add z) a b old) s

/-- R100. -/
def execDot2F16 (d x y : Opnd) (s : State) : Res := fltWord (some .f16) d x y (fun a b old => dotF 2 0 0 a b old) s

/-- R100. -/
def execDot2Bf16 (d x y : Opnd) (s : State) : Res := fltWord (some .bf16) d x y (fun a b old => dotF 2 1 1 a b old) s

/-- R100. -/
def execDot4E4m3n (d x y : Opnd) (s : State) : Res := fltWord none d x y (fun a b old => dotF 4 2 2 a b old) s

/-- R100. -/
def execDot4E5m2n (d x y : Opnd) (s : State) : Res := fltWord none d x y (fun a b old => dotF 4 3 3 a b old) s

/-- R100. -/
def execDot8E2m1n (d x y : Opnd) (s : State) : Res := fltWord none d x y (fun a b old => dotF 8 4 4 a b old) s

/-- R100. -/
def execDot4I8 (d x y : Opnd) (s : State) : Res := fltWord none d x y (fun a b old => dotI 4 8 a b old) s

/-- R100. -/
def execDot4Mx8 (d x y : Opnd) (s : State) : Res := fltWord none d x y (fun a b old => dotF 4 2 3 a b old) s

/-- R100. -/
def execDot8I4 (d x y : Opnd) (s : State) : Res := fltWord none d x y (fun a b old => dotI 8 4 a b old) s

/-- R92. -/
def execFabs (d x : Opnd) (s : State) : Res := fltWord none d x (.k 15) (fun a _ _ => fabs32 a) s

/-- R92. -/
def execFneg (d x : Opnd) (s : State) : Res := fltWord none d x (.k 15) (fun a _ _ => fneg32 a) s

/-- R94. -/
def execFrcp (d x : Opnd) (s : State) : Res := fltWord none d x (.k 15) (fun a _ _ => frcp32 a) s

/-- R94. -/
def execFrsq (d x : Opnd) (s : State) : Res := fltWord none d x (.k 15) (fun a _ _ => frsq32 a) s

/-- R92. -/
def execFsqrt (d x : Opnd) (s : State) : Res := fltWord none d x (.k 15) (fun a _ _ => fsqrt32 a) s

/-- R94. -/
def execFexp2 (d x : Opnd) (s : State) : Res := fltWord none d x (.k 15) (fun a _ _ => fexp232 a) s

/-- R94. -/
def execFlog2 (d x : Opnd) (s : State) : Res := fltWord none d x (.k 15) (fun a _ _ => flog232 a) s

/-- R92. -/
def execFrnd (d x : Opnd) (s : State) : Res := fltWord none d x (.k 15) (fun a _ _ => frnd32 a) s

/-- R95. -/
def execFcmpEq (d x y : Opnd) (s : State) : Res := fltCmp d x y feq32 s

/-- R95. -/
def execFcmpLt (d x y : Opnd) (s : State) : Res := fltCmp d x y flt32 s

/-- R95. -/
def execFcmpLe (d x y : Opnd) (s : State) : Res := fltCmp d x y fle32 s

/-- R95. -/
def execFcmpUn (d x y : Opnd) (s : State) : Res := fltCmp d x y fun32 s

/-- The value a `fcvt` writes (R96), by `kind` and `fmt` of its mode byte. -/
def cvtValue (mode : BitVec 8) (a : W32) : W32 :=
  let m := mode.toNat
  let r := Rnd.ofCode (m / 32)
  let fmt := m % 8
  if m / 8 % 4 = 0 then BitVec.ofNat 32 (writeElem r fmt (f32 a))
  else if m / 8 % 4 = 1 then toF32 (readElem fmt (a.toNat % 2 ^ fmtBits fmt))
  else if m / 8 % 4 = 2 then wrap 32 (toIntSat r 32 (f32 a))
  else BitVec.ofNat 32 (Fmt.f32.write r (.ofInt a.toInt 0))

/-- R96. -/
def execFcvt (d x : Opnd) (mode : BitVec 8) (s : State) : Res :=
  cvtWord d x (fun a _ => cvtValue mode a) (fun a => mode.toNat / 8 % 4 == 0 && setsInv (mode.toNat % 8) (f32 a)) s

/-- R97: element `idx` of v[D][L] replaced by the converted value. -/
def execFpack (d x : Opnd) (mode : BitVec 8) (s : State) : Res :=
  let fmt := mode.toNat % 8
  cvtWord d x (fun a old => BitVec.ofNat 32 (setElem (fmtBits fmt) (mode.toNat / 32) old.toNat
    (writeElem (Rnd.ofCode (mode.toNat / 8)) fmt (f32 a)))) (fun a => setsInv fmt (f32 a)) s

/-- R97: element `idx` of a widened to F32. -/
def execFunpack (d x : Opnd) (mode : BitVec 8) (s : State) : Res :=
  let fmt := mode.toNat % 8
  cvtWord d x (fun a _ => toF32 (readElem fmt (elem (fmtBits fmt) (mode.toNat / 32) a.toNat))) (fun _ => false) s

end Sys2Proof.Machine
end

