-- ==== Sys2Proof/Machine/Dispatch.lean ====
section
/-! DEFINITION. One arm per instruction of the opcode table, in its order: each a direct call of its meaning. -/

namespace Sys2Proof.Machine

def exec (i : Instr) (s : State) : Host.Outcome State Fault Refusal :=
  match i with
  | .nop => Sys2Proof.Machine.execNop s
  | .br off => Sys2Proof.Machine.execBr off s
  | .bz d imm => Sys2Proof.Machine.execBz d imm s
  | .bnz d imm => Sys2Proof.Machine.execBnz d imm s
  | .brS a => Sys2Proof.Machine.execBrS a s
  | .bdiv d imm join => Sys2Proof.Machine.execBdiv d imm join s
  | .jtab n a b join => Sys2Proof.Machine.execJtab n a b join s
  | .kill => Sys2Proof.Machine.execKill s
  | .call off => Sys2Proof.Machine.execCall off s
  | .callS a => Sys2Proof.Machine.execCallS a s
  | .ret => Sys2Proof.Machine.execRet s
  | .yield => Sys2Proof.Machine.execYield s
  | .halt => Sys2Proof.Machine.execHalt s
  | .maskGet d a => Sys2Proof.Machine.execMaskGet d a s
  | .maskAnd a => Sys2Proof.Machine.execMaskAnd a s
  | .maskSet a b => Sys2Proof.Machine.execMaskSet a b s
  | .claimV imm => Sys2Proof.Machine.execClaimV imm s
  | .giveV imm => Sys2Proof.Machine.execGiveV imm s
  | .claimS imm => Sys2Proof.Machine.execClaimS imm s
  | .giveS imm => Sys2Proof.Machine.execGiveS imm s
  | .claimA d imm => Sys2Proof.Machine.execClaimA d imm s
  | .giveA imm => Sys2Proof.Machine.execGiveA imm s
  | .ready n a b => Sys2Proof.Machine.execReady n a b s
  | .phase imm entry => Sys2Proof.Machine.execPhase imm entry s
  | .wait a b => Sys2Proof.Machine.execWait a b s
  | .watch a b => Sys2Proof.Machine.execWatch a b s
  | .trap imm => Sys2Proof.Machine.execTrap imm s
  | .sys d imm => Sys2Proof.Machine.execSys d imm s
  | .rett => Sys2Proof.Machine.execRett s
  | .brk imm => Sys2Proof.Machine.execBrk imm s
  | .sadd d a b => Sys2Proof.Machine.execSadd d a b s
  | .ssub d a b => Sys2Proof.Machine.execSsub d a b s
  | .smul d a b => Sys2Proof.Machine.execSmul d a b s
  | .smulh d a b => Sys2Proof.Machine.execSmulh d a b s
  | .smulhu d a b => Sys2Proof.Machine.execSmulhu d a b s
  | .sand d a b => Sys2Proof.Machine.execSand d a b s
  | .sor d a b => Sys2Proof.Machine.execSor d a b s
  | .sxor d a b => Sys2Proof.Machine.execSxor d a b s
  | .sandn d a b => Sys2Proof.Machine.execSandn d a b s
  | .sshl d a b => Sys2Proof.Machine.execSshl d a b s
  | .sshr d a b => Sys2Proof.Machine.execSshr d a b s
  | .ssar d a b => Sys2Proof.Machine.execSsar d a b s
  | .smin d a b => Sys2Proof.Machine.execSmin d a b s
  | .smax d a b => Sys2Proof.Machine.execSmax d a b s
  | .sminu d a b => Sys2Proof.Machine.execSminu d a b s
  | .smaxu d a b => Sys2Proof.Machine.execSmaxu d a b s
  | .seq d a b => Sys2Proof.Machine.execSeq d a b s
  | .sne d a b => Sys2Proof.Machine.execSne d a b s
  | .slt d a b => Sys2Proof.Machine.execSlt d a b s
  | .sle d a b => Sys2Proof.Machine.execSle d a b s
  | .sltu d a b => Sys2Proof.Machine.execSltu d a b s
  | .sleu d a b => Sys2Proof.Machine.execSleu d a b s
  | .scsel d a b => Sys2Proof.Machine.execScsel d a b s
  | .smov d a => Sys2Proof.Machine.execSmov d a s
  | .smovi d imm => Sys2Proof.Machine.execSmovi d imm s
  | .sorhi d imm => Sys2Proof.Machine.execSorhi d imm s
  | .saddi d imm => Sys2Proof.Machine.execSaddi d imm s
  | .spopc d a => Sys2Proof.Machine.execSpopc d a s
  | .sclz d a => Sys2Proof.Machine.execSclz d a s
  | .sbfe d a b => Sys2Proof.Machine.execSbfe d a b s
  | .sbfi d a b => Sys2Proof.Machine.execSbfi d a b s
  | .slane d a b => Sys2Proof.Machine.execSlane d a b s
  | .vadd d a b => Sys2Proof.Machine.execVadd d a b s
  | .vsub d a b => Sys2Proof.Machine.execVsub d a b s
  | .vmul d a b => Sys2Proof.Machine.execVmul d a b s
  | .vmulh d a b => Sys2Proof.Machine.execVmulh d a b s
  | .vmulhu d a b => Sys2Proof.Machine.execVmulhu d a b s
  | .vmad d a b => Sys2Proof.Machine.execVmad d a b s
  | .vmin d a b => Sys2Proof.Machine.execVmin d a b s
  | .vmax d a b => Sys2Proof.Machine.execVmax d a b s
  | .vminu d a b => Sys2Proof.Machine.execVminu d a b s
  | .vmaxu d a b => Sys2Proof.Machine.execVmaxu d a b s
  | .vabs d a => Sys2Proof.Machine.execVabs d a s
  | .vneg d a => Sys2Proof.Machine.execVneg d a s
  | .vand d a b => Sys2Proof.Machine.execVand d a b s
  | .vor d a b => Sys2Proof.Machine.execVor d a b s
  | .vxor d a b => Sys2Proof.Machine.execVxor d a b s
  | .vandn d a b => Sys2Proof.Machine.execVandn d a b s
  | .vnot d a => Sys2Proof.Machine.execVnot d a s
  | .vshl d a b => Sys2Proof.Machine.execVshl d a b s
  | .vshr d a b => Sys2Proof.Machine.execVshr d a b s
  | .vsar d a b => Sys2Proof.Machine.execVsar d a b s
  | .vrot d a b => Sys2Proof.Machine.execVrot d a b s
  | .vpopc d a => Sys2Proof.Machine.execVpopc d a s
  | .vclz d a => Sys2Proof.Machine.execVclz d a s
  | .vbfe d a b => Sys2Proof.Machine.execVbfe d a b s
  | .vbfes d a b => Sys2Proof.Machine.execVbfes d a b s
  | .vbfi d a b => Sys2Proof.Machine.execVbfi d a b s
  | .vmov d a => Sys2Proof.Machine.execVmov d a s
  | .vmovi d imm => Sys2Proof.Machine.execVmovi d imm s
  | .vorhi d imm => Sys2Proof.Machine.execVorhi d imm s
  | .vaddi d imm => Sys2Proof.Machine.execVaddi d imm s
  | .vcmov d a b => Sys2Proof.Machine.execVcmov d a b s
  | .vcmpEq d a b => Sys2Proof.Machine.execVcmpEq d a b s
  | .vcmpNe d a b => Sys2Proof.Machine.execVcmpNe d a b s
  | .vcmpLt d a b => Sys2Proof.Machine.execVcmpLt d a b s
  | .vcmpLe d a b => Sys2Proof.Machine.execVcmpLe d a b s
  | .vcmpLtu d a b => Sys2Proof.Machine.execVcmpLtu d a b s
  | .vcmpLeu d a b => Sys2Proof.Machine.execVcmpLeu d a b s
  | .pand d a b => Sys2Proof.Machine.execPand d a b s
  | .por d a b => Sys2Proof.Machine.execPor d a b s
  | .pxor d a b => Sys2Proof.Machine.execPxor d a b s
  | .pnot d a => Sys2Proof.Machine.execPnot d a s
  | .vmulq d a b => Sys2Proof.Machine.execVmulq d a b s
  | .vrsh d a b => Sys2Proof.Machine.execVrsh d a b s
  | .vsatI8 d a => Sys2Proof.Machine.execVsatI8 d a s
  | .vsatUb d a => Sys2Proof.Machine.execVsatUb d a s
  | .vsatI16 d a => Sys2Proof.Machine.execVsatI16 d a s
  | .vprm d a b => Sys2Proof.Machine.execVprm d a b s
  | .fadd d a b => Sys2Proof.Machine.execFadd d a b s
  | .fsub d a b => Sys2Proof.Machine.execFsub d a b s
  | .fmul d a b => Sys2Proof.Machine.execFmul d a b s
  | .ffma d a b => Sys2Proof.Machine.execFfma d a b s
  | .fmin d a b => Sys2Proof.Machine.execFmin d a b s
  | .fmax d a b => Sys2Proof.Machine.execFmax d a b s
  | .fabs d a => Sys2Proof.Machine.execFabs d a s
  | .fneg d a => Sys2Proof.Machine.execFneg d a s
  | .frcp d a => Sys2Proof.Machine.execFrcp d a s
  | .frsq d a => Sys2Proof.Machine.execFrsq d a s
  | .fsqrt d a => Sys2Proof.Machine.execFsqrt d a s
  | .fexp2 d a => Sys2Proof.Machine.execFexp2 d a s
  | .flog2 d a => Sys2Proof.Machine.execFlog2 d a s
  | .frnd d a => Sys2Proof.Machine.execFrnd d a s
  | .fcmpEq d a b => Sys2Proof.Machine.execFcmpEq d a b s
  | .fcmpLt d a b => Sys2Proof.Machine.execFcmpLt d a b s
  | .fcmpLe d a b => Sys2Proof.Machine.execFcmpLe d a b s
  | .fcmpUn d a b => Sys2Proof.Machine.execFcmpUn d a b s
  | .fcvt d a mode => Sys2Proof.Machine.execFcvt d a mode s
  | .fpack d a mode => Sys2Proof.Machine.execFpack d a mode s
  | .funpack d a mode => Sys2Proof.Machine.execFunpack d a mode s
  | .fscale d a b => Sys2Proof.Machine.execFscale d a b s
  | .hadd2 d a b => Sys2Proof.Machine.execHadd2 d a b s
  | .hmul2 d a b => Sys2Proof.Machine.execHmul2 d a b s
  | .hfma2 d a b => Sys2Proof.Machine.execHfma2 d a b s
  | .badd2 d a b => Sys2Proof.Machine.execBadd2 d a b s
  | .bmul2 d a b => Sys2Proof.Machine.execBmul2 d a b s
  | .bfma2 d a b => Sys2Proof.Machine.execBfma2 d a b s
  | .dot2F16 d a b => Sys2Proof.Machine.execDot2F16 d a b s
  | .dot2Bf16 d a b => Sys2Proof.Machine.execDot2Bf16 d a b s
  | .dot4E4m3n d a b => Sys2Proof.Machine.execDot4E4m3n d a b s
  | .dot4E5m2n d a b => Sys2Proof.Machine.execDot4E5m2n d a b s
  | .dot8E2m1n d a b => Sys2Proof.Machine.execDot8E2m1n d a b s
  | .dot4I8 d a b => Sys2Proof.Machine.execDot4I8 d a b s
  | .dot4Mx8 d a b => Sys2Proof.Machine.execDot4Mx8 d a b s
  | .dot8I4 d a b => Sys2Proof.Machine.execDot8I4 d a b s
  | .ldB d a b => Sys2Proof.Machine.execLdB d a b s
  | .ldBs d a b => Sys2Proof.Machine.execLdBs d a b s
  | .ldH d a b => Sys2Proof.Machine.execLdH d a b s
  | .ldHs d a b => Sys2Proof.Machine.execLdHs d a b s
  | .ldW d a b => Sys2Proof.Machine.execLdW d a b s
  | .ldD d a b => Sys2Proof.Machine.execLdD d a b s
  | .ldQ d a b => Sys2Proof.Machine.execLdQ d a b s
  | .stB d a b => Sys2Proof.Machine.execStB d a b s
  | .stH d a b => Sys2Proof.Machine.execStH d a b s
  | .stW d a b => Sys2Proof.Machine.execStW d a b s
  | .stD d a b => Sys2Proof.Machine.execStD d a b s
  | .stQ d a b => Sys2Proof.Machine.execStQ d a b s
  | .ldxW d a b => Sys2Proof.Machine.execLdxW d a b s
  | .ldxD d a b => Sys2Proof.Machine.execLdxD d a b s
  | .stxW d a b => Sys2Proof.Machine.execStxW d a b s
  | .stxD d a b => Sys2Proof.Machine.execStxD d a b s
  | .spillSt d => Sys2Proof.Machine.execSpillSt d s
  | .spillLd d => Sys2Proof.Machine.execSpillLd d s
  | .atomAdd d a b => Sys2Proof.Machine.execAtomAdd d a b s
  | .atomFadd d a b => Sys2Proof.Machine.execAtomFadd d a b s
  | .atomMin d a b => Sys2Proof.Machine.execAtomMin d a b s
  | .atomMax d a b => Sys2Proof.Machine.execAtomMax d a b s
  | .atomMinu d a b => Sys2Proof.Machine.execAtomMinu d a b s
  | .atomMaxu d a b => Sys2Proof.Machine.execAtomMaxu d a b s
  | .atomAnd d a b => Sys2Proof.Machine.execAtomAnd d a b s
  | .atomOr d a b => Sys2Proof.Machine.execAtomOr d a b s
  | .atomXor d a b => Sys2Proof.Machine.execAtomXor d a b s
  | .atomXchg d a b => Sys2Proof.Machine.execAtomXchg d a b s
  | .atomCas d a b => Sys2Proof.Machine.execAtomCas d a b s
  | .atomxAdd d a b par => Sys2Proof.Machine.execAtomxAdd d a b par s
  | .atomxXchg d a b par => Sys2Proof.Machine.execAtomxXchg d a b par s
  | .atomxCas d a b par => Sys2Proof.Machine.execAtomxCas d a b par s
  | .shflIdx d a b => Sys2Proof.Machine.execShflIdx d a b s
  | .shflXor d a b => Sys2Proof.Machine.execShflXor d a b s
  | .shflUp d a b => Sys2Proof.Machine.execShflUp d a b s
  | .shflDn d a b => Sys2Proof.Machine.execShflDn d a b s
  | .bcast d a b => Sys2Proof.Machine.execBcast d a b s
  | .voteAny d a => Sys2Proof.Machine.execVoteAny d a s
  | .voteAll d a => Sys2Proof.Machine.execVoteAll d a s
  | .ballot d a b => Sys2Proof.Machine.execBallot d a b s
  | .redAdd d a => Sys2Proof.Machine.execRedAdd d a s
  | .redFadd d a => Sys2Proof.Machine.execRedFadd d a s
  | .redMax d a => Sys2Proof.Machine.execRedMax d a s
  | .redFmax d a => Sys2Proof.Machine.execRedFmax d a s
  | .redFmin d a => Sys2Proof.Machine.execRedFmin d a s
  | .scanAdd d a => Sys2Proof.Machine.execScanAdd d a s
  | .fence scope acq rel => Sys2Proof.Machine.execFence scope acq rel s
  | .barInit a b => Sys2Proof.Machine.execBarInit a b s
  | .barExpect a b => Sys2Proof.Machine.execBarExpect a b s
  | .barArrive a b => Sys2Proof.Machine.execBarArrive a b s
  | .barTest d a => Sys2Proof.Machine.execBarTest d a s
  | .streamBind d a b => Sys2Proof.Machine.execStreamBind d a b s
  | .streamFill d a => Sys2Proof.Machine.execStreamFill d a s
  | .streamFree d => Sys2Proof.Machine.execStreamFree d s
  | .streamPub d a => Sys2Proof.Machine.execStreamPub d a s
  | .chanGo n a => Sys2Proof.Machine.execChanGo n a s
  | .chanStop n => Sys2Proof.Machine.execChanStop n s
  | .chanState n a => Sys2Proof.Machine.execChanState n a s
  | .ringWait a => Sys2Proof.Machine.execRingWait a s
  | .gather d a b par => Sys2Proof.Machine.execGather d a b par s
  | .scatter d a b par => Sys2Proof.Machine.execScatter d a b par s
  | .ldBlk d a b par => Sys2Proof.Machine.execLdBlk d a b par s
  | .stBlk d a b par => Sys2Proof.Machine.execStBlk d a b par s
  | .atomM d a b par => Sys2Proof.Machine.execAtomM d a b par s
  | .mloop n a par => Sys2Proof.Machine.execMloop n a par s
  | .mgloop n a par => Sys2Proof.Machine.execMgloop n a par s
  | .mzero n => Sys2Proof.Machine.execMzero n s
  | .mload n a b => Sys2Proof.Machine.execMload n a b s
  | .mstore n a par => Sys2Proof.Machine.execMstore n a par s
  | .mrows d a => Sys2Proof.Machine.execMrows d a s
  | .solicit a rel => Sys2Proof.Machine.execSolicit a rel s
  | .respond a => Sys2Proof.Machine.execRespond a s
  | .tilePut d a => Sys2Proof.Machine.execTilePut d a s
  | .tileDrop a => Sys2Proof.Machine.execTileDrop a s
  | .tileMove a b => Sys2Proof.Machine.execTileMove a b s
  | .seqAdd a b par => Sys2Proof.Machine.execSeqAdd a b par s
  | .seqRd d a b => Sys2Proof.Machine.execSeqRd d a b s
  | .recPop d a b => Sys2Proof.Machine.execRecPop d a b s
  | .recPush d a b => Sys2Proof.Machine.execRecPush d a b s
  | .portWr d a par => Sys2Proof.Machine.execPortWr d a par s
  | .fenceM scope acq rel => Sys2Proof.Machine.execFenceM scope acq rel s
  | .plotWarm a => Sys2Proof.Machine.execPlotWarm a s
  | .scrub d a b => Sys2Proof.Machine.execScrub d a b s
  | .csrRd d addr => Sys2Proof.Machine.execCsrRd d addr s
  | .csrWr d addr => Sys2Proof.Machine.execCsrWr d addr s
  | .csrSet d addr => Sys2Proof.Machine.execCsrSet d addr s
  | .csrClr d addr => Sys2Proof.Machine.execCsrClr d addr s
  | .tstamp d => Sys2Proof.Machine.execTstamp d s
  | .cede a b => Sys2Proof.Machine.execCede a b s
  | .bwphaseWrite c => Sys2Proof.Machine.execBwphaseWrite c s
  | .twordRead d => Sys2Proof.Machine.execTwordRead d s
  | .trbaseWrite d => Sys2Proof.Machine.execTrbaseWrite d s
  | .barrelIssue k => Sys2Proof.Machine.execBarrelIssue k s
  | .clauseWaitsSatisfied k t p => Sys2Proof.Machine.execClauseWaitsSatisfied k t p s
  | .locWriteback k t p idx lanes => Sys2Proof.Machine.execLocWriteback k t p idx lanes s
  | .positionReassign k => Sys2Proof.Machine.execPositionReassign k s
  | .responderPoolEnable c => Sys2Proof.Machine.execResponderPoolEnable c s
  | .responderPoolDisable c => Sys2Proof.Machine.execResponderPoolDisable c s
  | .calendarSlotServe u slot => Sys2Proof.Machine.execCalendarSlotServe u slot s
  | .crewPlace c n back => Sys2Proof.Machine.execCrewPlace c n back s
  | .crewRetire k r => Sys2Proof.Machine.execCrewRetire k r s
  | .phaseRecordWrite k t => Sys2Proof.Machine.execPhaseRecordWrite k t s
  | .claimGranted k t p => Sys2Proof.Machine.execClaimGranted k t p s
  | .rkResumeTeam k t => Sys2Proof.Machine.execRkResumeTeam k t s
  | .rkRetireTeam k t => Sys2Proof.Machine.execRkRetireTeam k t s
  | .sysReply k t p known r0 r1 r2 r3 => Sys2Proof.Machine.execSysReply k t p known r0 r1 r2 r3 s
  | .issueHoldRelease k t p => Sys2Proof.Machine.execIssueHoldRelease k t p s
  | .gatherPacketDeliver k x idx => Sys2Proof.Machine.execGatherPacketDeliver k x idx s
  | .writeAcknowledge k x idx => Sys2Proof.Machine.execWriteAcknowledge k x idx s
  | .atomMPerform k x lane => Sys2Proof.Machine.execAtomMPerform k x lane s
  | .blkSegmentComplete k x idx => Sys2Proof.Machine.execBlkSegmentComplete k x idx s
  | .portWrSent k x => Sys2Proof.Machine.execPortWrSent k x s
  | .asyncPartFail k x idx => Sys2Proof.Machine.execAsyncPartFail k x idx s
  | .waitWake k t p => Sys2Proof.Machine.execWaitWake k t p s
  | .streamWaitRelease k t p => Sys2Proof.Machine.execStreamWaitRelease k t p s
  | .chanRecordStart k ch => Sys2Proof.Machine.execChanRecordStart k ch s
  | .chanSegmentAck k ch => Sys2Proof.Machine.execChanSegmentAck k ch s
  | .chanStopDone k ch => Sys2Proof.Machine.execChanStopDone k ch s
  | .chanRecordUnreadable k ch => Sys2Proof.Machine.execChanRecordUnreadable k ch s
  | .ringWaitRecheck k t p => Sys2Proof.Machine.execRingWaitRecheck k t p s
  | .mloopStart k => Sys2Proof.Machine.execMloopStart k s
  | .mloopRowGroupCommit k => Sys2Proof.Machine.execMloopRowGroupCommit k s
  | .mloopPageFault k => Sys2Proof.Machine.execMloopPageFault k s
  | .mloopFailure k => Sys2Proof.Machine.execMloopFailure k s
  | .mstoreRowAck k x => Sys2Proof.Machine.execMstoreRowAck k x s
  | .mstoreRowFail k x => Sys2Proof.Machine.execMstoreRowFail k x s
  | .pageMap c va level entry => Sys2Proof.Machine.execPageMap c va level entry s
  | .pageFaultRefuse c va => Sys2Proof.Machine.execPageFaultRefuse c va s
  | .pagePin c va => Sys2Proof.Machine.execPagePin c va s
  | .pageUnpin c va => Sys2Proof.Machine.execPageUnpin c va s
  | .leafChange c va level entry => Sys2Proof.Machine.execLeafChange c va level entry s
  | .invalidationComplete c va => Sys2Proof.Machine.execInvalidationComplete c va s
  | .plotAllocate c plot => Sys2Proof.Machine.execPlotAllocate c plot s
  | .plotWakeComplete plot => Sys2Proof.Machine.execPlotWakeComplete plot s
  | .plotRetentionEntry plot => Sys2Proof.Machine.execPlotRetentionEntry plot s
  | .plotPowerDown c plot => Sys2Proof.Machine.execPlotPowerDown c plot s
  | .pseudoChannelFail ch => Sys2Proof.Machine.execPseudoChannelFail ch s
  | .rowMitigation row fn => Sys2Proof.Machine.execRowMitigation row fn s
  | .rowThrottleStart row fn => Sys2Proof.Machine.execRowThrottleStart row fn s
  | .rowThrottleEnd row fn => Sys2Proof.Machine.execRowThrottleEnd row fn s
  | .deferredMitigationRun fn => Sys2Proof.Machine.execDeferredMitigationRun fn s
  | .contextStart c => Sys2Proof.Machine.execContextStart c s
  | .preemptSoft c d => Sys2Proof.Machine.execPreemptSoft c d s
  | .preemptHard c => Sys2Proof.Machine.execPreemptHard c s
  | .softDeadlineExpire c => Sys2Proof.Machine.execSoftDeadlineExpire c s
  | .yieldingEmpty c => Sys2Proof.Machine.execYieldingEmpty c s
  | .preemptAgain c d => Sys2Proof.Machine.execPreemptAgain c d s
  | .vacateComplete c => Sys2Proof.Machine.execVacateComplete c s
  | .saveFailure c => Sys2Proof.Machine.execSaveFailure c s
  | .contextRestore c => Sys2Proof.Machine.execContextRestore c s
  | .restoreComplete c => Sys2Proof.Machine.execRestoreComplete c s
  | .contextDestroy c => Sys2Proof.Machine.execContextDestroy c s
  | .allowanceWrite c k a => Sys2Proof.Machine.execAllowanceWrite c k a s
  | .cedeCreditArrive c src dst => Sys2Proof.Machine.execCedeCreditArrive c src dst s
  | .admissionRetest k => Sys2Proof.Machine.execAdmissionRetest k s
  | .rkHeartbeatTimeout => Sys2Proof.Machine.execRkHeartbeatTimeout s
  | .rkSystemCoreFault => Sys2Proof.Machine.execRkSystemCoreFault s
  | .rkReadopt c => Sys2Proof.Machine.execRkReadopt c s
  | .readoptFail c => Sys2Proof.Machine.execReadoptFail c s
  | .warmRebootFail => Sys2Proof.Machine.execWarmRebootFail s
  | .partReset => Sys2Proof.Machine.execPartReset s
  | .kloadLoad fn q tid => Sys2Proof.Machine.execKloadLoad fn q tid s
  | .kloadUnload fn q => Sys2Proof.Machine.execKloadUnload fn q s
  | .kernelCloseComplete c n => Sys2Proof.Machine.execKernelCloseComplete c n s
  | .kernelEndAfterFault c n => Sys2Proof.Machine.execKernelEndAfterFault c n s
  | .phasePlace c n back => Sys2Proof.Machine.execPhasePlace c n back s
  | .phaseCommit c n r => Sys2Proof.Machine.execPhaseCommit c n r s
  | .seqAddPerform k x => Sys2Proof.Machine.execSeqAddPerform k x s
  | .deferredAddPerform c n r idx => Sys2Proof.Machine.execDeferredAddPerform c n r idx s
  | .deferredAddDrop c n r idx => Sys2Proof.Machine.execDeferredAddDrop c n r idx s
  | .seqRdComplete k x => Sys2Proof.Machine.execSeqRdComplete k x s
  | .recPushEngineAnswer k t p => Sys2Proof.Machine.execRecPushEngineAnswer k t p s
  | .recPushAck k x => Sys2Proof.Machine.execRecPushAck k x s
  | .recPopPlace k x => Sys2Proof.Machine.execRecPopPlace k x s
  | .doorbellWrite fn q tail => Sys2Proof.Machine.execDoorbellWrite fn q tail s
  | .queueSlotGrant fn q lane => Sys2Proof.Machine.execQueueSlotGrant fn q lane s
  | .queueUnmap fn q => Sys2Proof.Machine.execQueueUnmap fn q s
  | .queueFaultMapped fn q => Sys2Proof.Machine.execQueueFaultMapped fn q s
  | .queueFaultRefused fn q => Sys2Proof.Machine.execQueueFaultRefused fn q s
  | .queueDelete fn q => Sys2Proof.Machine.execQueueDelete fn q s
  | .frontEndSweep fc => Sys2Proof.Machine.execFrontEndSweep fc s
  | .nopPacket fn q => Sys2Proof.Machine.execNopPacket fn q s
  | .append fn q => Sys2Proof.Machine.execAppend fn q s
  | .signal fn q => Sys2Proof.Machine.execSignal fn q s
  | .waitseq fn q => Sys2Proof.Machine.execWaitseq fn q s
  | .waitseqSatisfied fn q => Sys2Proof.Machine.execWaitseqSatisfied fn q s
  | .copy fn q => Sys2Proof.Machine.execCopy fn q s
  | .copyComplete fn q => Sys2Proof.Machine.execCopyComplete fn q s
  | .release fn q => Sys2Proof.Machine.execRelease fn q s
  | .acquire fn q => Sys2Proof.Machine.execAcquire fn q s
  | .tstampPacket fn q => Sys2Proof.Machine.execTstampPacket fn q s
  | .scrubPacket fn q => Sys2Proof.Machine.execScrubPacket fn q s
  | .unknownPacket fn q => Sys2Proof.Machine.execUnknownPacket fn q s
  | .ctxopCreate fn q => Sys2Proof.Machine.execCtxopCreate fn q s
  | .ctxopPreempt fn q => Sys2Proof.Machine.execCtxopPreempt fn q s
  | .ctxopRestore fn q => Sys2Proof.Machine.execCtxopRestore fn q s
  | .ctxopDestroy fn q => Sys2Proof.Machine.execCtxopDestroy fn q s
  | .ctxopSetDraining fn q => Sys2Proof.Machine.execCtxopSetDraining fn q s
  | .ctxopClearDraining fn q => Sys2Proof.Machine.execCtxopClearDraining fn q s
  | .arbitrationPeriodBoundary fn => Sys2Proof.Machine.execArbitrationPeriodBoundary fn s
  | .vfSlotConfig fn m share => Sys2Proof.Machine.execVfSlotConfig fn m share s
  | .wakeFilterWrite idx bytes => Sys2Proof.Machine.execWakeFilterWrite idx bytes s
  | .wakeFrameMatch port frame => Sys2Proof.Machine.execWakeFrameMatch port frame s
  | .solicitDirectoryPass c idx k => Sys2Proof.Machine.execSolicitDirectoryPass c idx k s
  | .solicitForwardArrive c j => Sys2Proof.Machine.execSolicitForwardArrive c j s
  | .responderSpawn k pos => Sys2Proof.Machine.execResponderSpawn k pos s
  | .combineNode c idx level node => Sys2Proof.Machine.execCombineNode c idx level node s
  | .censusComplete c idx => Sys2Proof.Machine.execCensusComplete c idx s
  | .censusSlotRetireArrive c idx k => Sys2Proof.Machine.execCensusSlotRetireArrive c idx k s
  | .tileMoveCommit k x => Sys2Proof.Machine.execTileMoveCommit k x s
  | .tileMoveFail k x => Sys2Proof.Machine.execTileMoveFail k x s
  | .tileDropComplete k t p => Sys2Proof.Machine.execTileDropComplete k t p s
  | .linkEnable l => Sys2Proof.Machine.execLinkEnable l s
  | .linkTrainedFull l => Sys2Proof.Machine.execLinkTrainedFull l s
  | .linkTrainedHalf l => Sys2Proof.Machine.execLinkTrainedHalf l s
  | .linkTrainingTimeout l => Sys2Proof.Machine.execLinkTrainingTimeout l s
  | .linkErrorRetrain l => Sys2Proof.Machine.execLinkErrorRetrain l s
  | .expanderCompletionTimeout => Sys2Proof.Machine.execExpanderCompletionTimeout s
  | .linkRetrained l half => Sys2Proof.Machine.execLinkRetrained l half s
  | .linkRetrainTimeout l => Sys2Proof.Machine.execLinkRetrainTimeout l s
  | .linkDisable l => Sys2Proof.Machine.execLinkDisable l s
  | .flitCrcReplay l => Sys2Proof.Machine.execFlitCrcReplay l s
  | .portReadFail k x idx => Sys2Proof.Machine.execPortReadFail k x idx s
  | .bar2Bind fn c wbase => Sys2Proof.Machine.execBar2Bind fn c wbase s
  | .bar2PostedWrite fn off bytes => Sys2Proof.Machine.execBar2PostedWrite fn off bytes s
  | .bar2Read fn off len => Sys2Proof.Machine.execBar2Read fn off len s
  | .peerAccessArrive l rctx c va len write bytes => Sys2Proof.Machine.execPeerAccessArrive l rctx c va len write bytes s
  | .qpDoorbell port qp => Sys2Proof.Machine.execQpDoorbell port qp s
  | .send port qp => Sys2Proof.Machine.execSend port qp s
  | .sendWithImmediate port qp => Sys2Proof.Machine.execSendWithImmediate port qp s
  | .rdmaWrite port qp => Sys2Proof.Machine.execRdmaWrite port qp s
  | .rdmaWriteWithImmediate port qp => Sys2Proof.Machine.execRdmaWriteWithImmediate port qp s
  | .rdmaRead port qp => Sys2Proof.Machine.execRdmaRead port qp s
  | .sendEntryBadOp port qp => Sys2Proof.Machine.execSendEntryBadOp port qp s
  | .incomingRdmaAccess port key va len write bytes => Sys2Proof.Machine.execIncomingRdmaAccess port key va len write bytes s
  | .receiveConsume port qp op imm bytes => Sys2Proof.Machine.execReceiveConsume port qp op imm bytes s
  | .qpRetriesExhausted port qp => Sys2Proof.Machine.execQpRetriesExhausted port qp s
  | .getVersion => Sys2Proof.Machine.execGetVersion s
  | .getCapabilities => Sys2Proof.Machine.execGetCapabilities s
  | .negotiateAlgorithms offered => Sys2Proof.Machine.execNegotiateAlgorithms offered s
  | .getDigests => Sys2Proof.Machine.execGetDigests s
  | .getCertificate slot => Sys2Proof.Machine.execGetCertificate slot s
  | .challenge => Sys2Proof.Machine.execChallenge s
  | .getMeasurements signed => Sys2Proof.Machine.execGetMeasurements signed s
  | .keyExchange => Sys2Proof.Machine.execKeyExchange s
  | .finish => Sys2Proof.Machine.execFinish s
  | .keyUpdate => Sys2Proof.Machine.execKeyUpdate s
  | .heartbeat => Sys2Proof.Machine.execHeartbeat s
  | .endSession => Sys2Proof.Machine.execEndSession s
  | .measurementExtend idx component => Sys2Proof.Machine.execMeasurementExtend idx component s
  | .zmiReadTopology => Sys2Proof.Machine.execZmiReadTopology s
  | .zmiReadHealth => Sys2Proof.Machine.execZmiReadHealth s
  | .zmiSetDraining c => Sys2Proof.Machine.execZmiSetDraining c s
  | .zmiClearDraining c => Sys2Proof.Machine.execZmiClearDraining c s
  | .zmiSetPartDraining => Sys2Proof.Machine.execZmiSetPartDraining s
  | .zmiReadFaultLog c => Sys2Proof.Machine.execZmiReadFaultLog c s
  | .zmiReadPlotMap => Sys2Proof.Machine.execZmiReadPlotMap s
  | .zmiReadVacateAudit => Sys2Proof.Machine.execZmiReadVacateAudit s
  | .zmiReadUnitCounters => Sys2Proof.Machine.execZmiReadUnitCounters s
  | .zmiReadRdThresholds => Sys2Proof.Machine.execZmiReadRdThresholds s
  | .zmiSnapshotRefresh => Sys2Proof.Machine.execZmiSnapshotRefresh s
  | .debuggerStopRequest k t => Sys2Proof.Machine.execDebuggerStopRequest k t s
  | .contextWideStop c => Sys2Proof.Machine.execContextWideStop c s
  | .debuggerResume k t => Sys2Proof.Machine.execDebuggerResume k t s
  | .debuggerSingleStep k t p => Sys2Proof.Machine.execDebuggerSingleStep k t p s
  | .debuggerWrite k t target value => Sys2Proof.Machine.execDebuggerWrite k t target value s
  | .breakpointProgram k idx va => Sys2Proof.Machine.execBreakpointProgram k idx va s
  | .debuggerDetach c => Sys2Proof.Machine.execDebuggerDetach c s
  | .debuggerAttach c => Sys2Proof.Machine.execDebuggerAttach c s
  | .traceWriteFault k => Sys2Proof.Machine.execTraceWriteFault k s
  | .queueRegister fn q c desc => Sys2Proof.Machine.execQueueRegister fn q c desc s
  | .recordQueueRegister c desc => Sys2Proof.Machine.execRecordQueueRegister c desc s
  | .portTableWrite c idx w0 w1 => Sys2Proof.Machine.execPortTableWrite c idx w0 w1 s
  | .memoryRegionRegister port key c va len r w => Sys2Proof.Machine.execMemoryRegionRegister port key c va len r w s
  | .queuePairSetup port qp c sring ssize rring rsize cring csize db => Sys2Proof.Machine.execQueuePairSetup port qp c sring ssize rring rsize cring csize db s
  | .sendEntryComplete port qp status bytes => Sys2Proof.Machine.execSendEntryComplete port qp status bytes s
  | .coreGating => Sys2Proof.Machine.execCoreGating s

end Sys2Proof.Machine
end

