-- ==== Sys2Proof/Machine/Step.lean ====
section
/-! DEFINITION. One step of the package. The schedule says whether an event happens or a word issues; with nothing
scheduled, the words due issue one after another, and then the next core's barrel moves. -/

namespace Sys2Proof.Machine

/-- Time goes on by the step's nanoseconds, and the counter of free values by one. -/
def State.pass (s : State) : State :=
  { s with
    tstamp := s.tstamp + BitVec.ofNat 64 (match s.ticks with | n :: _ => n | [] => Config.tick s.fresh)
    ticks := s.ticks.drop 1
    fresh := s.fresh + 1 }

/-- The next word of the issue queue, if one can issue. -/
def issueStep (s : State) : Res :=
  match prepare s with
  | .done s' => .next s'
  | .word s' i =>
    match exec i s' with
    | .next s'' => .next (finish s'')
    | .fault f => .fault f
    | .refused r => .refused r

def step (s : State) : Host.Outcome State Fault Refusal :=
  let s := s.pass
  match s.schedule with
  | some i :: is => exec i { s with schedule := is }
  | none :: is => issueStep { s with schedule := is }
  | [] =>
    match s.issueQ with
    | [] => exec (.barrelIssue s.turn) { s with turn := (s.turn + 1) % 320 }
    | _ => issueStep s

/-! ### A first instruction

The 4320 loads its programs itself: a context is created, a KLOAD packet loads an image, and the scheduler places its
crews. `withFetchWord` stands for all of that: context 0 runs on core 0 with a kernel of one clause, and one team of 16
lanes is about to issue it. -/

/-- The VA and PA of the clause. -/
def fetchVa : Nat := 0x40000000

/-- The clause: a header of the class that reads the words, then the words. -/
def fetchClause (nbits w : Nat) : List W32 :=
  let ws := tableWords nbits w
  let e := match firstClass ws classes with
    | some (e, _) => e
    | none => .ctl
  headerWord e maxWords :: ws

/-- Three tables that map the gigabyte at `fetchVa` onto itself, executable (R220, R221), then the clause. -/
def fetchMem (m : Memory) (nbits w : Nat) : Memory :=
  let m := Memory.setBytes m 0x1000 (toBytes 8 0x2001)
  let m := Memory.setBytes m 0x2000 (toBytes 8 0x3001)
  let m := Memory.setBytes m 0x3008 (toBytes 8 (fetchVa + 0x13))
  Memory.setBytes m fetchVa ((fetchClause nbits w).flatMap fun x => toBytes 4 x.toNat)

def fetchKern : Kern :=
  { Kern.blank with codeVa := fetchVa, codewords := 6, shared := 4096, teams := 1, lanes := 16, vregs := 128, sregs := 64 }

def fetchCtx : Ctx :=
  { Ctx.blank with state := .running, root := 0x1000, bound := 0x6400, fix := 0x400, srate := 0x4000,
                   cores := [0], kernels := [(0, fetchKern)], nextLoad := 1 }

def fetchTeam : Team :=
  { Team.blank with
    lanes := 16
    vcount := 128
    scount := 64
    splits := [(0, { Split.blank with pc := BitVec.ofNat 64 fetchVa, live := maskAll 16, exec := maskAll 16 })] }

def fetchCore : Core :=
  { Core.init with
    ctx := some 0
    owners := (List.range 16).map fun i => (i, 0)
    teams := [(0, fetchTeam)]
    crews := [(0, ⟨0, 0, 0, 4096, [], 0, none, false⟩)]
    nextOrder := 1
    allow := 0x6000 }

def State.withFetchWord (s : State) (nbits w : Nat) : State :=
  { s with
    mem := fetchMem s.mem nbits w
    ctxs := s.ctxs.set 0 fetchCtx
    cores := s.cores.set 0 fetchCore
    schedule := []
    issueQ := [⟨0, 0, 0, false, 64, 0⟩] }

end Sys2Proof.Machine
end

