-- ==== Sys2Proof/Certificates/Slice0/Obligations.lean ====
section
/-! DEFINITION. The statements for the provers. `Sys2Proof.Claims` holds the shapes they are written with and, where one
statement has several parts, its parts; the statements themselves follow at the end. -/

namespace Sys2Proof.Claims

open Sys2Proof.Machine

/-! ### What a word that is done leaves (02 R29, R174) -/

/-- The split of a word that is done (R29): it stands at the clause's next word, or, past the last one, at the next
header. `w` is the split with the word's own effect. -/
def Onward (a : At) (w sp : Split) : Prop :=
  sp = { w with pc := sp.pc, clause := sp.clause, transfer := sp.transfer, waited := sp.waited, passBreak := false, passWord := false,
                prepaid := none, popped := none, heldAt := none, state := .ready, wait := .none } ∧
  (a.cl.pos + a.n ≤ cntOf a.cl.hdr → sp.clause = some { a.cl with pos := a.cl.pos + a.n } ∧ sp.pc = w.pc) ∧
  (cntOf a.cl.hdr < a.cl.pos + a.n → sp.clause = none ∧ sp.pc = a.cl.after ∧ sp.transfer = false)

/-- The split of a word that transfers control to `pc` (R28, R29): the clause ends. -/
def Gone (w sp : Split) (pc : W64) : Prop :=
  sp = { w with pc := pc, clause := none, transfer := true, waited := false, passBreak := false, passWord := false, prepaid := none,
                popped := none, heldAt := none, state := .ready, wait := .none }

/-- Everything but team `a.t` of core `a.k` is as in `s`, but for what `core` holds of that core; `pc.issue` counts the
words (R174); the team is `tm` with its split `a.p` as `f` says and, where the clause is done and has `yld`, on the
yielded list (R33). -/
def Leaves (a : At) (s t : State) (core : Core) (tm : Team) (f : Split → Prop) : Prop :=
  t = { s with cores := t.cores } ∧ (∀ j, j ≠ a.k → t.core? j = s.core? j) ∧
  ∃ c m sp, t.core? a.k = some c ∧
    c = { core with teams := c.teams,
                    pcIssue := if core.pcCtl.getLsbD 0 then core.pcIssue else core.pcIssue + BitVec.ofNat 64 a.n } ∧
    (∀ u, u ≠ a.t → c.teams.get u = core.teams.get u) ∧
    c.teams.get a.t = some m ∧ m = { tm with splits := m.splits, yielded := m.yielded } ∧
    (∀ q, q ≠ a.p → m.splits.get q = tm.splits.get q) ∧ m.splits.get a.p = some sp ∧ f sp

/-- A word that is done, with its effect on its core (`core`) and on its team (`tm`). -/
def Done (a : At) (s t : State) (core : Core) (tm : Team) : Prop := Leaves a s t core tm (Onward a a.split)

/-- A word that transfers control to `pc`. -/
def Goes (a : At) (s t : State) (core : Core) (tm : Team) (pc : W64) : Prop :=
  Leaves a s t core tm fun sp => Gone a.split sp pc

/-! ### Uniform instructions (05 R81 to R85) -/

/-- Destination, named registers and result of a uniform instruction. -/
def uniResult (a : At) : Instr → Option (Opnd × List Opnd × W64)
  | .sadd d x y => some (d, [d, x, y], a.u x + a.u y)
  | .ssub d x y => some (d, [d, x, y], a.u x - a.u y)
  | .smul d x y => some (d, [d, x, y], BitVec.ofInt 64 ((a.u x).toInt * (a.u y).toInt))
  | .smulh d x y => some (d, [d, x, y], BitVec.ofInt 64 ((a.u x).toInt * (a.u y).toInt / 2 ^ 64))
  | .smulhu d x y => some (d, [d, x, y], BitVec.ofNat 64 ((a.u x).toNat * (a.u y).toNat / 2 ^ 64))
  | .sand d x y => some (d, [d, x, y], a.u x &&& a.u y)
  | .sor d x y => some (d, [d, x, y], a.u x ||| a.u y)
  | .sxor d x y => some (d, [d, x, y], a.u x ^^^ a.u y)
  | .sandn d x y => some (d, [d, x, y], a.u x &&& ~~~(a.u y))
  | .sshl d x y => some (d, [d, x, y], a.u x <<< ((a.u y).toNat % 64))
  | .sshr d x y => some (d, [d, x, y], a.u x >>> ((a.u y).toNat % 64))
  | .ssar d x y => some (d, [d, x, y], BitVec.ofInt 64 ((a.u x).toInt / 2 ^ ((a.u y).toNat % 64)))
  | .smin d x y => some (d, [d, x, y], BitVec.ofInt 64 (min (a.u x).toInt (a.u y).toInt))
  | .smax d x y => some (d, [d, x, y], BitVec.ofInt 64 (max (a.u x).toInt (a.u y).toInt))
  | .sminu d x y => some (d, [d, x, y], BitVec.ofNat 64 (min (a.u x).toNat (a.u y).toNat))
  | .smaxu d x y => some (d, [d, x, y], BitVec.ofNat 64 (max (a.u x).toNat (a.u y).toNat))
  | .seq d x y => some (d, [d, x, y], if a.u x = a.u y then 1 else 0)
  | .sne d x y => some (d, [d, x, y], if a.u x = a.u y then 0 else 1)
  | .slt d x y => some (d, [d, x, y], if (a.u x).toInt < (a.u y).toInt then 1 else 0)
  | .sle d x y => some (d, [d, x, y], if (a.u x).toInt ≤ (a.u y).toInt then 1 else 0)
  | .sltu d x y => some (d, [d, x, y], if (a.u x).toNat < (a.u y).toNat then 1 else 0)
  | .sleu d x y => some (d, [d, x, y], if (a.u x).toNat ≤ (a.u y).toNat then 1 else 0)
  | .scsel d x y => some (d, [d, x, y], if a.u x = 0 then a.u d else a.u y)
  | .smov d x => some (d, [d, x], a.u x)
  | .smovi d imm => some (d, [d], BitVec.ofInt 64 imm.toInt)
  | .sorhi d imm => some (d, [d], BitVec.ofNat 64 ((a.u d).toNat * 2 ^ 16 + imm.toNat))
  | .saddi d imm => some (d, [d], a.u d + BitVec.ofInt 64 imm.toInt)
  | .spopc d x => some (d, [d, x], BitVec.ofNat 64 (((List.range 64).filter fun i => (a.u x).getLsbD i).length))
  | .sclz d x => some (d, [d, x], BitVec.ofNat 64 (((List.range 64).filter fun i => decide ((a.u x).toNat < 2 ^ i)).length))
  | .sbfe d x y => some (d, [d, x, y], fieldGet 64 ((a.u y).toNat % 64) (min (bits (a.u y) 14 8) 64) (a.u x))
  | .sbfi d x y => some (d, [d, x, y], fieldPut 64 ((a.u y).toNat % 64) (min (bits (a.u y) 14 8) 64) (a.u d) (a.u x))
  | .slane d x y => some (d, [d, x, y],
      if (a.u y).toNat < a.team.lanes then (a.team.vreg (num x) (a.u y).toNat).zeroExtend 64 else 0)
  | _ => none

/-! ### Lane instructions (05 R86 to R90) -/

/-- The operands `os` of a word are read as `os'`, leaving the streams `qs`: its stream registers are popped (R43), or were when
its wait for them ended (R217). -/
def Takes (a : At) (os : List Opnd) (qs : Map Stream) (os' : List Opnd) : Prop :=
  match a.split.popped with
  | none => popAll a.streams os = .done qs os'
  | some js => os' = putSlots js os ∧ qs = a.streams

/-- The core once the stream registers among `os` are popped (R43): its streams are `qs`, where one is popped now. -/
def popped (a : At) (os : List Opnd) (qs : Map Stream) : Core :=
  if (popsOf os).isEmpty || a.split.popped.isSome then a.core
  else { a.core with crews := a.core.crews.upd a.team.crew fun w => { w with streams := qs } }

/-- Destination, sources and function of a lane instruction: what v[D][L] becomes from a, b and v[D][L]. -/
def laneFun : Instr → Option (Opnd × Opnd × Opnd × (W32 → W32 → W32 → W32))
  | .vadd d x y => some (d, x, y, fun a b _ => a + b)
  | .vsub d x y => some (d, x, y, fun a b _ => a - b)
  | .vmul d x y => some (d, x, y, fun a b _ => BitVec.ofInt 32 (a.toInt * b.toInt))
  | .vmulh d x y => some (d, x, y, fun a b _ => BitVec.ofInt 32 (a.toInt * b.toInt / 2 ^ 32))
  | .vmulhu d x y => some (d, x, y, fun a b _ => BitVec.ofNat 32 (a.toNat * b.toNat / 2 ^ 32))
  | .vmad d x y => some (d, x, y, fun a b z => a * b + z)
  | .vmin d x y => some (d, x, y, fun a b _ => BitVec.ofInt 32 (min a.toInt b.toInt))
  | .vmax d x y => some (d, x, y, fun a b _ => BitVec.ofInt 32 (max a.toInt b.toInt))
  | .vminu d x y => some (d, x, y, fun a b _ => BitVec.ofNat 32 (min a.toNat b.toNat))
  | .vmaxu d x y => some (d, x, y, fun a b _ => BitVec.ofNat 32 (max a.toNat b.toNat))
  | .vabs d x => some (d, x, .k 15, fun a _ _ => if a.toInt < 0 then -a else a)
  | .vneg d x => some (d, x, .k 15, fun a _ _ => 0 - a)
  | .vand d x y => some (d, x, y, fun a b _ => a &&& b)
  | .vor d x y => some (d, x, y, fun a b _ => a ||| b)
  | .vxor d x y => some (d, x, y, fun a b _ => a ^^^ b)
  | .vandn d x y => some (d, x, y, fun a b _ => a &&& ~~~b)
  | .vnot d x => some (d, x, .k 15, fun a _ _ => ~~~a)
  | .vshl d x y => some (d, x, y, fun a b _ => a <<< (b.toNat % 32))
  | .vshr d x y => some (d, x, y, fun a b _ => a >>> (b.toNat % 32))
  | .vsar d x y => some (d, x, y, fun a b _ => BitVec.ofInt 32 (a.toInt / 2 ^ (b.toNat % 32)))
  | .vrot d x y => some (d, x, y, fun a b _ => a <<< (b.toNat % 32) ||| a >>> (32 - b.toNat % 32))
  | .vpopc d x => some (d, x, .k 15, fun a _ _ => BitVec.ofNat 32 ((List.range 32).filter fun i => a.getLsbD i).length)
  | .vclz d x => some (d, x, .k 15, fun a _ _ =>
      BitVec.ofNat 32 ((List.range 32).filter fun i => decide (a.toNat < 2 ^ i)).length)
  | .vbfe d x y => some (d, x, y, fun a b _ => fieldGet 32 (b.toNat % 32) (min (b.toNat / 256 % 64) 32) a)
  | .vbfes d x y => some (d, x, y, fun a b _ => fieldGetS 32 (b.toNat % 32) (min (b.toNat / 256 % 64) 32) a)
  | .vbfi d x y => some (d, x, y, fun a b z => fieldPut 32 (b.toNat % 32) (min (b.toNat / 256 % 64) 32) z a)
  | .vmov d x => some (d, x, .k 15, fun a _ _ => a)
  | .vmovi d imm => some (d, .k 15, .k 15, fun _ _ _ => BitVec.ofInt 32 imm.toInt)
  | .vorhi d imm => some (d, .k 15, .k 15, fun _ _ z => z <<< 16 ||| imm.zeroExtend 32)
  | .vaddi d imm => some (d, .k 15, .k 15, fun _ _ z => z + BitVec.ofInt 32 imm.toInt)
  | .vmulq d x y => some (d, x, y, fun a b _ =>
      BitVec.ofInt 32 (max (-2 ^ 31) (min (2 ^ 31 - 1) ((a.toInt * b.toInt + 2 ^ 30) / 2 ^ 31))))
  | .vrsh d x y => some (d, x, y, fun a b _ =>
      if b.toNat % 32 = 0 then a else BitVec.ofInt 32 ((a.toInt + 2 ^ (b.toNat % 32 - 1)) / 2 ^ (b.toNat % 32)))
  | .vsatI8 d x => some (d, x, .k 15, fun a _ _ => BitVec.ofInt 32 (max (-128) (min 127 a.toInt)))
  | .vsatUb d x => some (d, x, .k 15, fun a _ _ => BitVec.ofInt 32 (max 0 (min 255 a.toInt)))
  | .vsatI16 d x => some (d, x, .k 15, fun a _ _ => BitVec.ofInt 32 (max (-32768) (min 32767 a.toInt)))
  | .vprm d x y => some (d, x, y, permute)
  | _ => none

/-- Destination, sources and relation of a lane compare (R88). -/
def compareFun : Instr → Option (Opnd × Opnd × Opnd × (W32 → W32 → Bool))
  | .vcmpEq d x y => some (d, x, y, fun a b => decide (a = b))
  | .vcmpNe d x y => some (d, x, y, fun a b => decide (a ≠ b))
  | .vcmpLt d x y => some (d, x, y, fun a b => decide (a.toInt < b.toInt))
  | .vcmpLe d x y => some (d, x, y, fun a b => decide (a.toInt ≤ b.toInt))
  | .vcmpLtu d x y => some (d, x, y, fun a b => decide (a.toNat < b.toNat))
  | .vcmpLeu d x y => some (d, x, y, fun a b => decide (a.toNat ≤ b.toNat))
  | _ => none

/-- Destination, sources and function of a predicate operation (R88). -/
def predicateFun : Instr → Option (Opnd × Opnd × Opnd × (Bool → Bool → Bool))
  | .pand d x y => some (d, x, y, fun a b => a && b)
  | .por d x y => some (d, x, y, fun a b => a || b)
  | .pxor d x y => some (d, x, y, fun a b => xor a b)
  | .pnot d x => some (d, x, x, fun a _ => !a)
  | _ => none

/-! ### Floating-point instructions (05 R91 to R100) -/

/-- The packed format of inline constants, the destination, the sources and the function of a floating-point
instruction: exact values, one rounding (R64, R91 to R100). -/
def floatFun : Instr → Option (Option Fmt × Opnd × Opnd × Opnd × (W32 → W32 → W32 → W32))
  | .fadd d x y => some (none, d, x, y, fun a b _ => toF32 ((f32 a).add (f32 b)))
  | .fsub d x y => some (none, d, x, y, fun a b _ => toF32 ((f32 a).add (f32 b).neg))
  | .fmul d x y => some (none, d, x, y, fun a b _ => toF32 ((f32 a).mul (f32 b)))
  | .ffma d x y => some (none, d, x, y, fun a b c => toF32 (((f32 a).mul (f32 b)).add (f32 c)))
  | .fmin d x y => some (none, d, x, y, fun a b _ =>
      if isNan32 a then (if isNan32 b then 0x7FC00000 else b) else if isNan32 b then a
      else if orderKey a ≤ orderKey b then a else b)
  | .fmax d x y => some (none, d, x, y, fun a b _ =>
      if isNan32 a then (if isNan32 b then 0x7FC00000 else b) else if isNan32 b then a
      else if orderKey b ≤ orderKey a then a else b)
  | .fabs d x => some (none, d, x, .k 15, fun a _ _ => if isNan32 a then 0x7FC00000 else a &&& 0x7FFFFFFF)
  | .fneg d x => some (none, d, x, .k 15, fun a _ _ => if isNan32 a then 0x7FC00000 else a ^^^ 0x80000000)
  | .frcp d x => some (none, d, x, .k 15, fun a _ _ => frcp32 a)
  | .frsq d x => some (none, d, x, .k 15, fun a _ _ => frsq32 a)
  | .fsqrt d x => some (none, d, x, .k 15, fun a _ _ => fsqrt32 a)
  | .fexp2 d x => some (none, d, x, .k 15, fun a _ _ => fexp232 a)
  | .flog2 d x => some (none, d, x, .k 15, fun a _ _ => flog232 a)
  | .frnd d x => some (none, d, x, .k 15, fun a _ _ => frnd32 a)
  | .fscale d x y => some (none, d, x, y, fun a b _ => fscale32 a b)
  | .hadd2 d x y => some (some .f16, d, x, y, packed2 .f16 fun a b _ => a.add b)
  | .hmul2 d x y => some (some .f16, d, x, y, packed2 .f16 fun a b _ => a.mul b)
  | .hfma2 d x y => some (some .f16, d, x, y, packed2 .f16 fun a b c => (a.mul b).add c)
  | .badd2 d x y => some (some .bf16, d, x, y, packed2 .bf16 fun a b _ => a.add b)
  | .bmul2 d x y => some (some .bf16, d, x, y, packed2 .bf16 fun a b _ => a.mul b)
  | .bfma2 d x y => some (some .bf16, d, x, y, packed2 .bf16 fun a b c => (a.mul b).add c)
  | .dot2F16 d x y => some (some .f16, d, x, y, fun a b c => windowSum (f32 c :: dotTerms 2 0 0 a b))
  | .dot2Bf16 d x y => some (some .bf16, d, x, y, fun a b c => windowSum (f32 c :: dotTerms 2 1 1 a b))
  | .dot4E4m3n d x y => some (none, d, x, y, fun a b c => windowSum (f32 c :: dotTerms 4 2 2 a b))
  | .dot4E5m2n d x y => some (none, d, x, y, fun a b c => windowSum (f32 c :: dotTerms 4 3 3 a b))
  | .dot8E2m1n d x y => some (none, d, x, y, fun a b c => windowSum (f32 c :: dotTerms 8 4 4 a b))
  | .dot4Mx8 d x y => some (none, d, x, y, fun a b c => windowSum (f32 c :: dotTerms 4 2 3 a b))
  | .dot4I8 d x y => some (none, d, x, y, fun a b c => dotI 4 8 a b c)
  | .dot8I4 d x y => some (none, d, x, y, fun a b c => dotI 8 4 a b c)
  | _ => none

/-- Destination, sources and relation of a floating-point compare (R95). -/
def floatCompareFun : Instr → Option (Opnd × Opnd × Opnd × (W32 → W32 → Bool))
  | .fcmpEq d x y => some (d, x, y, fun a b => !isNan32 a && !isNan32 b && decide (fcmpKey a = fcmpKey b))
  | .fcmpLt d x y => some (d, x, y, fun a b => !isNan32 a && !isNan32 b && decide (fcmpKey a < fcmpKey b))
  | .fcmpLe d x y => some (d, x, y, fun a b => !isNan32 a && !isNan32 b && decide (fcmpKey a ≤ fcmpKey b))
  | .fcmpUn d x y => some (d, x, y, fun a b => isNan32 a || isNan32 b)
  | _ => none

/-- Destination, source, value and invalid flag of a conversion (R96, R97). -/
def convertFun : Instr → Option (Opnd × Opnd × (W32 → W32 → W32) × (W32 → Bool))
  | .fcvt d x mode => some (d, x, fun a _ => cvtValue mode a, fun a =>
      decide (mode.extractLsb' 3 2 = 0 ∧ mode.extractLsb' 0 3 = 4 ∧ f32 a = .nan))
  | .fpack d x mode => some (d, x, fun a old =>
      BitVec.ofNat 32 (setElem (fmtBits (mode.toNat % 8)) (mode.toNat / 32) old.toNat
        (writeElem (Rnd.ofCode (mode.toNat / 8)) (mode.toNat % 8) (f32 a))),
      fun a => decide (mode.extractLsb' 0 3 = 4 ∧ f32 a = .nan))
  | .funpack d x mode => some (d, x, fun a _ =>
      toF32 (readElem (mode.toNat % 8) (elem (fmtBits (mode.toNat % 8)) (mode.toNat / 32) a.toNat)), fun _ => false)
  | _ => none

/-! ### Values of the number formats (04), as rationals -/

/-- The magnitude of a rational. -/
def mag (x : Rat) : Rat := if x < 0 then -x else x

/-- The value of (−1)^neg × m × 2^e. -/
def valueOf (neg : Bool) (m : Nat) (e : Int) : Rat := (if neg then -1 else 1) * (m : Rat) * (2 : Rat) ^ e

/-- The value of a finite code of a binary format with `eb` exponent bits and `mb` fraction bits (R63). -/
def codeValue (eb mb c : Nat) : Rat :=
  valueOf (c / 2 ^ (eb + mb) % 2 == 1) (if c / 2 ^ mb % 2 ^ eb = 0 then c % 2 ^ mb else 2 ^ mb + c % 2 ^ mb)
    ((max (c / 2 ^ mb % 2 ^ eb) 1 : Nat) - (2 ^ (eb - 1) - 1) - mb)

/-- A code of that format that is neither an infinity nor a NaN. -/
def finiteCode (eb mb c : Nat) : Prop := c < 2 ^ (1 + eb + mb) ∧ c / 2 ^ mb % 2 ^ eb ≠ 2 ^ eb - 1

/-- A finite value `x` of sign `neg` rounded once into that format (R64): to the nearest code, of two as near to the even one; toward
zero; or toward −∞ or +∞. What rounds past the largest finite value is an infinity, but stays finite toward zero. -/
def RoundedTo (eb mb : Nat) (r : Rnd) (neg : Bool) (x : Rat) (c : Nat) : Prop :=
  c < 2 ^ (1 + eb + mb) ∧ (c / 2 ^ (eb + mb) = 1 ↔ neg = true) ∧
  match r with
  | .rne =>
    (mag x < (2 - (2 : Rat) ^ (-(mb + 1 : Int))) * (2 : Rat) ^ (2 ^ (eb - 1) - 1 : Nat) → finiteCode eb mb c ∧
      (∀ d, finiteCode eb mb d → mag (x - codeValue eb mb c) ≤ mag (x - codeValue eb mb d)) ∧
      (∀ d, finiteCode eb mb d → codeValue eb mb d ≠ codeValue eb mb c →
        mag (x - codeValue eb mb d) = mag (x - codeValue eb mb c) → c % 2 = 0)) ∧
    ((2 - (2 : Rat) ^ (-(mb + 1 : Int))) * (2 : Rat) ^ (2 ^ (eb - 1) - 1 : Nat) ≤ mag x →
      c % 2 ^ (eb + mb) = (2 ^ eb - 1) * 2 ^ mb)
  | .rtz => finiteCode eb mb c ∧ mag (codeValue eb mb c) ≤ mag x ∧
    ∀ d, finiteCode eb mb d → mag (codeValue eb mb d) ≤ mag x → mag (codeValue eb mb d) ≤ mag (codeValue eb mb c)
  | .rdn =>
    ((∃ d, finiteCode eb mb d ∧ codeValue eb mb d ≤ x) → finiteCode eb mb c ∧ codeValue eb mb c ≤ x ∧
      ∀ d, finiteCode eb mb d → codeValue eb mb d ≤ x → codeValue eb mb d ≤ codeValue eb mb c) ∧
    ((∀ d, finiteCode eb mb d → x < codeValue eb mb d) → c % 2 ^ (eb + mb) = (2 ^ eb - 1) * 2 ^ mb)
  | .rup =>
    ((∃ d, finiteCode eb mb d ∧ x ≤ codeValue eb mb d) → finiteCode eb mb c ∧ x ≤ codeValue eb mb c ∧
      ∀ d, finiteCode eb mb d → x ≤ codeValue eb mb d → codeValue eb mb c ≤ codeValue eb mb d) ∧
    ((∀ d, finiteCode eb mb d → codeValue eb mb d < x) → c % 2 ^ (eb + mb) = (2 ^ eb - 1) * 2 ^ mb)

/-- The value of a code of a narrow format that is not its NaN (R67). -/
def narrowValue (f : Narrow) (c : Nat) : Rat :=
  if c = 0 then 0
  else valueOf (c / 2 ^ (f.eb + f.mb) % 2 == 1) (2 ^ f.mb + c % 2 ^ f.mb) ((c / 2 ^ f.mb % 2 ^ f.eb : Nat) - f.bias - f.mb)

/-- A code of a narrow format but its NaN. -/
def narrowCode (f : Narrow) (c : Nat) : Prop := c < 2 ^ (1 + f.eb + f.mb) ∧ c ≠ 2 ^ (f.eb + f.mb)

/-- The nearest code of a narrow format to a finite value of sign `neg` (R72): limited to the largest magnitude, and of two as near the
one whose code is even, or of two even ones the one nearer zero. -/
def NarrowTo (f : Narrow) (neg : Bool) (x : Rat) (c : Nat) : Prop :=
  (narrowValue f (2 ^ (f.eb + f.mb) - 1) ≤ mag x → c = (if neg then 2 ^ (f.eb + f.mb) else 0) + (2 ^ (f.eb + f.mb) - 1)) ∧
  (mag x < narrowValue f (2 ^ (f.eb + f.mb) - 1) → narrowCode f c ∧
    (∀ d, narrowCode f d → mag (x - narrowValue f c) ≤ mag (x - narrowValue f d)) ∧
    ∀ d, narrowCode f d → d ≠ c → mag (x - narrowValue f d) = mag (x - narrowValue f c) →
      c % 2 = 0 ∧ (d % 2 = 0 → mag (narrowValue f c) < mag (narrowValue f d)))

/-- A value rounded to an integer (R96, R64). -/
def IntegerOf (r : Rnd) (x : Rat) (k : Int) : Prop :=
  match r with
  | .rne => mag (x - k) ≤ 1 / 2 ∧ (mag (x - k) = 1 / 2 → k % 2 = 0)
  | .rtz => mag k ≤ mag x ∧ mag x < mag k + 1 ∧ 0 ≤ k * x
  | .rdn => k ≤ x ∧ x < k + 1
  | .rup => x ≤ k ∧ k - 1 < x

/-- A term of a sum in units of `q`, truncated toward zero (R74). -/
def unitsOf (q : Rat) : FVal → Int
  | .fin neg m e => if neg then -(valueOf false m e / q).floor else (valueOf false m e / q).floor
  | _ => 0

/-! ### Control (06) -/

/-- The clause header `words` words after the header of the word's own clause (R36). -/
def headerAt (a : At) (words : Int) : W64 := a.cl.h + BitVec.ofInt 64 (4 * words)

/-- What `bz` and `bdiv` test: the lanes of the execute mask whose predicate bit is set. -/
def setLanes (a : At) (d : Opnd) : Mask := a.split.exec &&& a.pr d

/-- Where a branch of R110, R116 and R126 leads, given the operand it tests: none for the next word, `some (some pc)` for
a transfer. -/
def branch (a : At) : Instr → Option (List Opnd × Option W64)
  | .nop => some ([], none)
  | .br off => some ([], some (headerAt a off.toInt))
  | .bz (.p n) imm => some ([], if setLanes a (.p n) = 0 then some (headerAt a imm.toInt) else none)
  | .bz d imm => some ([d], if a.u d = 0 then some (headerAt a imm.toInt) else none)
  | .bnz (.p n) imm => some ([], if setLanes a (.p n) = 0 then none else some (headerAt a imm.toInt))
  | .bnz d imm => some ([d], if a.u d = 0 then none else some (headerAt a imm.toInt))
  | .brS x => some ([x], some (a.u x))
  | .bdiv d imm join =>
    if a.split.exec = 0 then some ([], some (headerAt a join.toInt))
    else if setLanes a d = 0 then some ([], some a.cl.after)
    else if setLanes a d = a.split.exec then some ([], some (headerAt a imm.toInt))
    else none
  | _ => none

/-- A child that a divergence forms (R112). -/
def Child (a : At) (sp : Split) (m : Mask) (pc join : W64) : Prop :=
  sp = { Split.blank with pc := pc, join := join, depth := a.split.depth, parent := a.p, live := m, exec := m,
                          transfer := true }

/-- A split but for what its LOC words still hold (R32, R201). -/
def bareSplit (sp : Split) : Split := { sp with wbs := [] }

/-- The team `m` holds a child of the split for each group, in the lowest free entries in order, the split waits for them at `join`,
and nothing else of the split table differs but LOC words that are performed (R112, R204). -/
def Diverged (a : At) (m : Team) (groups : List (Mask × W64)) (join : W64) : Prop :=
  ∃ (es : List Nat) (p : Split), es.length = groups.length ∧ es.Pairwise (· < ·) ∧ (∀ e ∈ es, e < 16 ∧ a.team.splits.get e = none) ∧
    (∀ e, e < 16 → a.team.splits.get e = none → e ∈ es ∨ ∀ x ∈ es, x < e) ∧
    (∀ (i e : Nat) (g : Mask × W64), es[i]? = some e → groups[i]? = some g →
      ∃ c, m.splits.get e = some c ∧ Child a c g.1 g.2 join) ∧
    m.splits.get a.p = some p ∧
    p = { a.split with pc := join, state := .parent, children := groups.length, clause := none, transfer := true,
                       waited := false, passBreak := false, passWord := false, prepaid := none, popped := none, wbs := p.wbs } ∧
    ∀ q, q ∉ es → q ≠ a.p → (m.splits.get q).map bareSplit = (a.team.splits.get q).map bareSplit

/-- The parent of a split whose last child is done (R113): ready at its join, with its masks less the lanes of `k`. -/
def Joined (par par' : Split) (k : Mask) : Prop :=
  par' = { par with state := .ready, wait := .none, clause := none, transfer := true, waited := false, children := 0,
                    exec := par.exec &&& ~~~k, live := par.live &&& ~~~k, wbs := par'.wbs }

/-- No entry of a team but `q` itself names `q` as its parent. -/
def Childless (m : Team) (q : Nat) : Prop := ∀ e sp, m.splits.get e = some sp → e ≠ q → sp.parent ≠ q

/-- `halt` or `kill` ends the split, and `k` are the lanes that it kills (R108, R114). -/
def EndsWith (a : At) (i : Instr) (k : Mask) : Prop :=
  (i = .halt ∧ k = a.split.live) ∨ (i = .kill ∧ k = a.run ∧ a.split.live &&& ~~~a.run = 0)

/-- The state from which a row of the spill stack is pushed to depth `d` or popped from it: where that moves a row of the backing,
the request is done (R119). -/
def rowMoved (a : At) (s : State) (d : Nat) : State :=
  if a.team.rowRuns d = [] then s else s.doneRuns (a.rowAgent s) (a.team.rowRuns d)

/-- A row that moves has had its slots of the calendar, and its stacks serve it (R119, R19, R231). -/
def RowReady (a : At) (s : State) (d : Nat) : Prop :=
  a.team.rowRuns d = [] ∨ s.runsReady (a.rowAgent s) [] (a.team.rowRuns d) = true

/-- A team whose end leaves nothing else behind (R104): no responder, no source record, no deferred add, no pending pop. -/
def Plain (a : At) : Prop :=
  a.team.resp = none ∧ a.team.source = none ∧ a.team.commit = [] ∧
    ∀ e ∈ a.core.asyncs, e.2.team = a.t → e.2.order = a.team.order → ∀ q, e.2.kind ≠ .recPop q

/-- The split waits at its word, which has issued (R109). -/
def Waits (a : At) (w : Wait) (sp : Split) : Prop :=
  sp = { a.split with state := .waiting, wait := w, wlen := a.n }

/-- The team is gone, and everything of its core but that team, its positions and one counter is as before, the local memories
too unless an access of the team is still to be performed (R201). -/
def TeamGone (a : At) (s t : State) : Prop :=
  t = { s with cores := t.cores, scratch := t.scratch } ∧ (∀ j, j ≠ a.k → t.core? j = s.core? j) ∧
  ∃ c, t.core? a.k = some c ∧ c.teams.get a.t = none ∧ (∀ u, u ≠ a.t → c.teams.get u = a.core.teams.get u) ∧
    c.reassign = true ∧ (∀ e ∈ c.stalled, e.1 ≠ a.t) ∧ (∀ e ∈ c.owners, e.2 ≠ a.t) ∧ c.crews = a.core.crews ∧
    ((∀ e ∈ a.team.splits, e.2.pending = false) → t.scratch = s.scratch ∧ c.shared = a.core.shared) ∧
    (∀ i tile, c.tiles.get i = some tile → tile.team = a.t → tile.leaving = true)

/-- The state of a word that traps in place of its effect (R178, R267): nothing that the word prepaid is left, and `rett` comes back to the
word itself. `TrapEntry` says what taking a trap does. -/
def trapped (a : At) (s : State) (tr : Trap) : State :=
  ((s.dropItem a.k a.split.prepaid).updSplit a.k a.t a.p fun sp => { sp with prepaid := none }).trap
    a.k a.t a.p tr a.pc a.pc a.cl.h a.cl.hdr a.cl.pos

/-- Fewer than `n` of the sixteen entries of a team's split table are free (R109). -/
def FewFree (tm : Team) (n : Nat) : Prop :=
  ∀ es : List Nat, es.Nodup → (∀ e ∈ es, e < 16 ∧ tm.splits.get e = none) → es.length < n

/-- With no event due, the oldest entry `u` of the issue queue names a split `sp` that may issue; `b` is the state once the step's time
has gone by. -/
def Front (s b : State) (u : Issue) (c : Core) (tm : Team) (sp : Split) : Prop :=
  (∃ sch, (s.schedule = none :: sch ∨ s.schedule = [] ∧ sch = []) ∧ b = { s.pass with schedule := sch }) ∧
  s.issueQ.head? = some u ∧ u.single = false ∧ s.core? u.core = some c ∧ c.teams.get u.team = some tm ∧
  tm.splits.get u.split = some sp ∧ tm.mayIssue u.split = true ∧ c.teamStalled u.team = false ∧ sp.state = .ready ∧
  s.coreIssues u.core = true ∧ sp.atJoin u.split = false

/-! ### Local memory (07 R134 to R149) -/

/-- A load of the LOC class (R137): whether it reads the die scratchpad, the bytes of a lane's access, the registers written,
whether it sign-extends, and the operands. -/
def loadForm : Instr → Option (Bool × Nat × Nat × Bool × Opnd × Opnd × Opnd)
  | .ldB d x y => some (false, 1, 1, false, d, x, y)
  | .ldBs d x y => some (false, 1, 1, true, d, x, y)
  | .ldH d x y => some (false, 2, 1, false, d, x, y)
  | .ldHs d x y => some (false, 2, 1, true, d, x, y)
  | .ldW d x y => some (false, 4, 1, false, d, x, y)
  | .ldD d x y => some (false, 8, 2, false, d, x, y)
  | .ldQ d x y => some (false, 16, 4, false, d, x, y)
  | .ldxW d x y => some (true, 4, 1, false, d, x, y)
  | .ldxD d x y => some (true, 8, 2, false, d, x, y)
  | _ => none

/-- A store of the LOC class (R137): whether it writes the die scratchpad, the bytes of an access, and the operands. -/
def storeForm : Instr → Option (Bool × Nat × Opnd × Opnd × Opnd)
  | .stB d x y => some (false, 1, d, x, y)
  | .stH d x y => some (false, 2, d, x, y)
  | .stW d x y => some (false, 4, d, x, y)
  | .stD d x y => some (false, 8, d, x, y)
  | .stQ d x y => some (false, 16, d, x, y)
  | .stxW d x y => some (true, 4, d, x, y)
  | .stxD d x y => some (true, 8, d, x, y)
  | _ => none

/-- An atomic of the shared store (R139): how many registers it reads, and the new word from the old one, the operand and
the compare value. -/
def atomForm : Instr → Option (Nat × (W32 → W32 → W32 → W32) × Opnd × Opnd × Opnd)
  | .atomAdd d x y => some (1, fun w x _ => w + x, d, x, y)
  | .atomFadd d x y => some (1, fun w x _ => toF32 ((f32 w).add (f32 x)), d, x, y)
  | .atomMin d x y => some (1, fun w x _ => BitVec.ofInt 32 (min w.toInt x.toInt), d, x, y)
  | .atomMax d x y => some (1, fun w x _ => BitVec.ofInt 32 (max w.toInt x.toInt), d, x, y)
  | .atomMinu d x y => some (1, fun w x _ => BitVec.ofNat 32 (min w.toNat x.toNat), d, x, y)
  | .atomMaxu d x y => some (1, fun w x _ => BitVec.ofNat 32 (max w.toNat x.toNat), d, x, y)
  | .atomAnd d x y => some (1, fun w x _ => w &&& x, d, x, y)
  | .atomOr d x y => some (1, fun w x _ => w ||| x, d, x, y)
  | .atomXor d x y => some (1, fun w x _ => w ^^^ x, d, x, y)
  | .atomXchg d x y => some (1, fun _ x _ => x, d, x, y)
  | .atomCas d x y => some (2, fun w x c => if w = c then x else w, d, x, y)
  | _ => none

/-- An atomic of the die scratchpad (R140): whether it compares, and the new word of `b` bits. -/
def atomxForm : Instr → Option (Bool × (Nat → Nat → Nat → Nat → Nat) × Opnd × Opnd × Opnd × AxPar)
  | .atomxAdd d x y par => some (false, fun b w x _ => (w + x) % 2 ^ b, d, x, y, par)
  | .atomxXchg d x y par => some (false, fun _ _ x _ => x, d, x, y, par)
  | .atomxCas d x y par => some (true, fun _ w x c => if w = c then x else w, d, x, y, par)
  | _ => none

/-- An agent other than the split stands within a scope (R17): a sibling split at team scope, always one from core scope on. -/
def Others (a : At) (scope : Nat) : Bool := decide (2 ≤ scope) || (decide (scope = 1) && decide (1 < a.team.splits.length))

/-- What `fence` makes of a word that is not done (R144, R216): at lane scope a release waits for the register results; at a
scope with another agent in it the accesses not performed hold the next clause and come before every later access. -/
def fenced (a : At) (scope : Nat) (rel : Bool) (w : Writeback) : Writeback :=
  if scope = 0 then (if rel && w.writesReg then { w with fence := 2 } else w)
  else if Others a scope && !w.accs.isEmpty then { w with fence := max w.fence 1, hold := true }
  else w

/-- Every lane's access of a shared-store word is aligned, lies in the crew's region (or, for a load
of a responder, in its staging buffer) and touches no watched byte (R135,
R170). -/
def SharedOk (a : At) (t : Touch) (size : Nat) (es : List (Nat × Nat)) : Prop :=
  (∀ e ∈ es, e.2 % size = 0 ∧ a.inShared t size e = true) ∧ a.watched t size es = []

/-- Every lane's access of a scratchpad word is aligned and lies in the context's window (R135). -/
def DieOk (a : At) (s : State) (size : Nat) (es : List (Nat × Nat)) : Prop :=
  ∀ e ∈ es, e.2 % size = 0 ∧ e.2 + size ≤ (a.window s).2

/-- The split with results that have not written back yet (R32). -/
def Owes (a : At) (ws : List Writeback) : Split → Prop :=
  Onward a { a.split with wbs := a.split.wbs ++ ws }

/-- The word that an atomic of the die scratchpad owes: what comes before it (`rel`) and after it (`acq`) is ordered. -/
def atomWord (a : At) (op size : Nat) (d : Opnd) (es : List (Nat × Nat)) (wide rel acq : Bool) : Writeback :=
  ⟨false, num d, a.run, [], 0, .atom op size,
    es.map fun e => ⟨e.1, true, e.2, a.wideReg wide (num d) e.1, a.wideReg wide (num d + size / 4) e.1⟩,
    rel, acq, 0, a.core.nextX, false⟩

/-- A release at team scope (R206, R211): what the split did is performed for its team, a store that is still to be performed for
others is one that its splits see, and then the word is done, owing `ws`; `f` is its effect on its core. -/
def Released (a : At) (s t : State) (f : Core → Core) (ws : List Writeback) : Prop :=
  ∃ s1 c tm sp, s1 = s.teamRelease a.k a.t a.p a.core.nextX ∧ s1.core? a.k = some c ∧ s1.team? a.k a.t = some tm ∧
    s1.split? a.k a.t a.p = some sp ∧ (∀ w ∈ sp.wbs, w.no ≤ a.core.nextX → w.accs ≠ [] → w.seen = true) ∧
    Leaves a s1 t (f c) tm (Onward a { sp with wbs := sp.wbs ++ ws })

/-- The source lane of a lane exchange (R141). -/
def exchangeForm : Instr → Option ((Nat → Nat → Nat) × Opnd × Opnd × Opnd)
  | .shflIdx d x y => some (fun l b => l / 32 * 32 + b % 32, d, x, y)
  | .shflXor d x y => some (fun l b => l ^^^ (b % 32), d, x, y)
  | .shflUp d x y => some (fun l b => if b % 32 ≤ l % 32 then l - b % 32 else l, d, x, y)
  | .shflDn d x y => some (fun l b => if l % 32 + b % 32 ≤ 31 then l + b % 32 else l, d, x, y)
  | .bcast d x y => some (fun _ b => b, d, x, y)
  | _ => none

/-- What a vote or a reduction writes to its uniform register (R142, R76). -/
def reduceForm (a : At) : Instr → Option (W64 × Opnd × Opnd)
  | .voteAny d x => some (if a.run &&& a.pr x = 0 then 0 else 1, d, x)
  | .voteAll d x => some (if a.run &&& ~~~a.pr x = 0 then 1 else 0, d, x)
  | .redAdd d x => some ((a.reduce (· + ·) (num x) 0).signExtend 64, d, x)
  | .redFadd d x => some ((a.reduce (fun u v => toF32 ((f32 u).add (f32 v))) (num x) 0).zeroExtend 64, d, x)
  | .redMax d x => some ((a.reduce (fun u v => BitVec.ofInt 32 (max u.toInt v.toInt)) (num x) 0x80000000).signExtend 64, d, x)
  | .redFmax d x => some ((a.reduce fmax32 (num x) 0xFF800000).zeroExtend 64, d, x)
  | .redFmin d x => some ((a.reduce fmin32 (num x) 0x7F800000).zeroExtend 64, d, x)
  | _ => none

/-- The barrier event of a barrier form that is no misuse (R146), from its b and the object. -/
def barForm (n : W64) (b : Bar) : Instr → Option (Opnd × Opnd × Bar)
  | .barInit x y => if 1 ≤ n.toNat ∧ n.toNat < 2 ^ 30 then
      some (x, y, ⟨false, false, n.toNat, 0, n.toNat, n.toNat⟩) else none
  | .barExpect x y => if b.bytes + (n.toNat % 2 ^ 32 : Nat) ≤ 2 ^ 31 - 1 then
      some (x, y, { b with bytes := b.bytes + (n.toNat % 2 ^ 32 : Nat) }) else none
  | .barArrive x y => if 0 < b.pending ∧ (n.getLsbD 0 = true → 0 < b.reload) then
      some (x, y, { b with pending := b.pending - 1, reload := b.reload - (if n.getLsbD 0 then 1 else 0) }) else none
  | _ => none

/-! ### Async words (07, 10, 13, 17, 19) -/

/-- A costed word passes the test (R252): its cost class charges nothing, a retest has entered its item, or the test
admits it. -/
def Admits (a : At) (s : State) (cost : Option Nat) : Prop :=
  match cost with
  | none => a.split.prepaid = none
  | some k => a.split.prepaid.isSome = true ∨ s.admission a.k a.t k = .pass

/-- The item of an admitted word, in the estimate of its core (R250). -/
def itemOf (a : At) (cost : Option Nat) : Option Nat := cost.map fun _ => a.split.prepaid.getD a.core.nextX

/-- The number that the next operation of the core gets, once the word's item has its own. -/
def nextOf (a : At) (cost : Option Nat) : Nat :=
  if cost.isSome && a.split.prepaid.isNone then a.core.nextX + 1 else a.core.nextX

/-- The outstanding items once the word is admitted. -/
def itemsOf (a : At) (cost : Option Nat) : Map Nat :=
  match cost with
  | some k => if a.split.prepaid.isNone then a.core.items.set a.core.nextX k else a.core.items
  | none => a.core.items

/-- The crew's shared store once `n` bytes are added to the barrier at `off` and the barrier is tested (R146). -/
def charged (a : At) (off : Nat) (n : Int) : Regs 8 :=
  Bar.write a.core.shared (a.region.1 + off) (Bar.test
    { Bar.read a.core.shared (a.region.1 + off) with
      bytes := (Bar.read a.core.shared (a.region.1 + off)).bytes + n })

/-- The streams of a crew once a transfer has reserved the slot it publishes (R347). -/
def reserved (qs : Map Stream) : Option (Nat × Nat × Nat) → Map Stream
  | none => qs
  | some (q, j, _) => qs.upd q fun st => { st with resv := st.resv ++ [j] }

/-- What an async word leaves on its core (R151, R131): its split goes on; the core has the operation `op`, of the issuing
team, with `n` bytes added to its barrier at `off`, and its item; its crew's streams are `qs`; no register, tile, local
byte but the barrier's, or other team has changed. -/
def Starts (a : At) (t : State) (cost : Option Nat) (off n : Nat) (qs : Map Stream) (f : AsyncOp → Prop) : Prop :=
  ∃ c m sp op, t.core? a.k = some c ∧ c.items = itemsOf a cost ∧ c.asyncs = a.core.asyncs.set (nextOf a cost) op ∧
    op.team = a.t ∧ op.order = a.team.order ∧ op.crew = a.team.crew ∧ op.bar = a.region.1 + off ∧
    op.item = itemOf a cost ∧ f op ∧ c.shared = charged a off n ∧ c.tiles = a.core.tiles ∧ c.mats = a.core.mats ∧
    c.chans = a.core.chans ∧ c.allow = a.core.allow ∧ c.stalled = a.core.stalled ∧
    (∀ u, c.crews.get u = (a.core.crews.get u).map fun w => if u = a.team.crew then { w with streams := qs } else w) ∧
    (∀ u, u ≠ a.t → c.teams.get u = a.core.teams.get u) ∧ c.teams.get a.t = some m ∧
    m = { a.team with splits := m.splits, yielded := m.yielded, smpCount := m.smpCount } ∧
    (∀ q, q ≠ a.p → m.splits.get q = a.team.splits.get q) ∧ m.splits.get a.p = some sp ∧ Onward a a.split sp

/-- The same, with main memory, the scratchpads and every other core as before. -/
def Started (a : At) (s t : State) (cost : Option Nat) (off n : Nat) (qs : Map Stream) (f : AsyncOp → Prop) : Prop :=
  t.mem = s.mem ∧ t.scratch = s.scratch ∧ t.queues = s.queues ∧ t.outputs = s.outputs ∧
  (∀ j, j ≠ a.k → t.core? j = s.core? j) ∧ Starts a t cost off n qs f

/-- The accesses of an operation, in packets (R151, R153): each of `xs` is in one packet, and a packet goes where its
accesses go. -/
def Carries (a : At) (s : State) (op : AsyncOp) (xs : List Acc) : Prop :=
  ((op.parts.flatMap (·.accs)).map fun y => { y with pa := 0 }).Perm xs ∧
  ∀ p ∈ op.parts, ∀ y ∈ p.accs, s.accRoute a.k op y = ⟨p.target, p.state, y.pa⟩

/-- A form with lane addresses (R153, R154): its kind, whether it is costed, how many blocks of `%lanes` elements follow
the first, and its operands. -/
def xferForm : Instr → Option (AKind × Bool × Nat × Opnd × Opnd × Opnd × XPar)
  | .gather d x y par => some (.gather, false, 0, d, x, y, par)
  | .scatter d x y par => some (.scatter, true, 0, d, x, y, par)
  | .atomM d x y par => some (.atomM par.po.toNat, true, if par.po = 10 then 1 else 0, d, x, y, par)
  | _ => none

/-- The address of lane l (R153): the base and its index, 16 or 32 bits wide, signed or not, shifted. -/
def laneVa (a : At) (base : W64) (y : Opnd) (par : XPar) (l : Nat) : Nat :=
  let v := a.v y l
  let i : Int := if par.w32 then (if par.sx then v.toInt else v.toNat)
    else if par.sx then (v.extractLsb' 0 16).toInt else (v.extractLsb' 0 16).toNat
  ((base.toInt + i * 2 ^ par.sh.toNat) % 2 ^ 64).toNat

/-- The access of lane l of a form with lane addresses: the local source is read at issue (R153, R154). -/
def laneAcc (a : At) (kind : AKind) (extra : Nat) (base : W64) (y : Opnd) (par : XPar) (off l : Nat) : Acc :=
  let size := 2 ^ par.size.toNat
  let src := fun j => a.local' (off + j * size) size
  { lane := l, va := laneVa a base y par l, loc := a.region.1 + (off + l * size), len := size, pa := 0,
    data := if kind = .gather then [] else if extra = 0 then src l else src l ++ src (a.team.lanes + l), done := false,
    pre := [] }

/-- A block form (R155): whether it stores. -/
def blkForm : Instr → Option (Bool × Opnd × Opnd × Opnd × XPar)
  | .ldBlk d x y par => some (false, d, x, y, par)
  | .stBlk d x y par => some (true, d, x, y, par)
  | _ => none

/-- The operation carries the flags of its parameter word (R150, R205). -/
def Flags (op : AsyncOp) (par : XPar) : Prop := op.acq = par.acq ∧ op.rel = par.rel ∧ op.scope = par.scope.toNat

/-- The state once a release at port scope has taken effect (R209): port engines see every write performed before. -/
def portDone (s : State) (rel : Bool) (scope : Nat) : State :=
  if rel = true ∧ scope = 6 then { s with portOld := [] } else s

/-- A transfer that moves nothing is done at once (R131, R155), with its release of what the split did before (R206). -/
def EmptyXfer (a : At) (s t : State) (crews : Map Crew) (par : XPar) : Prop :=
  ∃ s1 c tm sp core, s1 = s.engRelease a.k a.t a.team.order a.p a.core.nextX par.rel par.scope.toNat ∧
    s1.core? a.k = some c ∧ s1.team? a.k a.t = some tm ∧ s1.split? a.k a.t a.p = some sp ∧
    core = { c with crews := crews, pcAsync := core.pcAsync } ∧ (par.rel = false → s1 = s) ∧
    Leaves a s1 t core tm (Onward a sp)

/-- Work of the issuing team that `fence.m` makes later work wait for (R144, R210, R327): writes for `rel`, reads for `acq`. -/
def FencedBy (s : State) (a : At) (writes : Bool) (x : Nat) : Prop :=
  (writes = false ∧ x ∈ s.solicitsOf a.k a.t a.team.order) ∨
  (∃ op, (x, op) ∈ a.core.asyncs ∧ op.team = a.t ∧ op.order = a.team.order ∧
    (if writes then op.kind.writes else op.kind.reads) = true) ∨
  (∃ m, (x, m) ∈ a.core.mats ∧ m.team = a.t ∧ m.torder = a.team.order ∧
    (writes = true → ∃ r, m.body = .store r)) ∨
  ∃ ch c, (ch, c) ∈ a.core.chans ∧ c.num = x ∧ c.team = a.t ∧ c.order = a.team.order ∧ c.state ≠ .idle

/-- The state code of a channel (R161). -/
def stateCode (c : Chan) : W64 :=
  match c.state with
  | .idle => 0
  | .running => 1
  | .stopping => 2

/-- The registers of a loop (R183), where each keeps its rule: alignments, reserved fields, and a legal format block. -/
def loopRun (tm : Team) (n : Nat) (gather : Bool) (l : LoopPar) : Prop :=
  let r := fun i => (tm.sreg (n + i)).toNat
  l = { abase := r 0, bbase := r 1, astride := r 2 % 2 ^ 32, bstride := r 2 / 2 ^ 32, ainc := r 3 / 2 ^ 32,
        binc := r 4 % 2 ^ 32, count := r 3 % 2 ^ 16, fmt := tm.sreg (n + 5), ascale := r 6, bscale := r 7,
        index := if gather then some (r 8) else none } ∧
  l.abase % 32 = 0 ∧ l.bbase % 32 = 0 ∧ l.astride % 32 = 0 ∧ l.bstride % 32 = 0 ∧ l.ainc % 32 = 0 ∧ l.binc % 32 = 0 ∧
  r 3 / 2 ^ 16 % 2 ^ 16 = 0 ∧ r 4 / 2 ^ 32 = 0 ∧ (gather = true → r 8 % 4 = 0) ∧ fmtLegal l.fmt = true

/-- A matrix word (R183 to R188): whether it gathers, its tile, its run and its parameter. -/
def loopForm : Instr → Option (Bool × BitVec 8 × Opnd × MPar)
  | .mloop n x par => some (false, n, x, par)
  | .mgloop n x par => some (true, n, x, par)
  | _ => none

/-- A held matrix instruction as it is queued (R182): at the end of the queue, with nothing begun, behind the work that a
`fence.m` or its own release puts before it (R144, R205). -/
def Queued (a : At) (s : State) (x tile off : Nat) (body : MatBody) (item : Option Nat) (par : MPar) (m : MatOp) : Prop :=
  m.order = x ∧ m.team = a.t ∧ m.torder = a.team.order ∧ m.crew = a.team.crew ∧ m.tile = tile ∧ m.body = body ∧
  m.started = false ∧ m.begun = false ∧ m.step = 0 ∧ m.group = 0 ∧ m.row = 0 ∧ m.paid = 0 ∧ m.rowsRead = none ∧
  m.tileRead = none ∧ m.page = none ∧ m.fail = none ∧ m.nan = false ∧ m.bar = a.region.1 + off ∧ m.item = item ∧
  m.acq = par.acq ∧ m.rel = par.rel ∧ m.scope = par.scope.toNat ∧ m.afterW = a.team.fenceW ∧ m.afterR = a.team.fenceR ∧
  m.relW = (if par.rel then s.relsOf a.k a.t a.team.order a.p else []) ∧ m.split = a.p ∧ m.port = false ∧ m.slots = none

/-- A tile cleared of its progress (R193), holding `data`. -/
def freshTile (t : Tile) (data : Regs 32) : Tile :=
  { t with data := data, step := 0, group := 0, run := false, err := false }

/-- A census slot as a solicit opens it (R313 to R315): nothing counted, every core of its scope still to pass. -/
def Opened (a : At) (ctx : Ctx) (slot : Nat) (r : Nat → Nat) (item : Option Nat) (z : Census) : Prop :=
  z.ident = BitVec.ofNat 64 (ctx.solicits * 2 ^ 16 + slot) ∧ z.core = a.k ∧ z.team = a.t ∧ z.order = a.team.order ∧
  z.crew = a.team.crew ∧ z.key.toNat = r 0 ∧ z.mask.toNat = r 1 ∧ z.n = r 3 / 2 ^ 16 % 2 ^ 8 ∧ z.op = r 3 % 2 ^ 8 ∧
  z.roff = a.region.1 + r 4 ∧ z.bar = a.region.1 + r 5 ∧ z.package = decide (r 6 = 5) ∧ z.width = r 7 ∧
  z.payload = Regs.bytes a.core.shared (a.region.1 + r 2 % 2 ^ 32) (r 2 / 2 ^ 32 % 2 ^ 16) ∧ z.afterR = a.team.fenceR ∧
  z.toPass = (if r 6 = 5 then ctx.cores else ctx.cores.filter fun j => j / 80 == a.k / 80) ∧ z.counts = [] ∧
  z.nodes = [] ∧ z.stage = .counting ∧ z.toRetire = [] ∧ z.item = item

/-- The entry that a move opens at its target (R312): the source's, at its new place, with nothing answered there. -/
def arriving (d : DirEntry) (toff slot k e : Nat) : DirEntry :=
  { d with offset := toff, state := .movingIn, crew := slot, peer := k, pentry := e, answered := 0, waits := 0 }

/-- The split waits to issue its word, which changes nothing but what `core` holds (R109, R293). -/
def Blocked (a : At) (s t : State) (core : Core) (w : Wait) : Prop :=
  t = { s with cores := t.cores } ∧ (∀ j, j ≠ a.k → t.core? j = s.core? j) ∧
  ∃ c m sp, t.core? a.k = some c ∧ c = { core with teams := c.teams } ∧
    (∀ u, u ≠ a.t → c.teams.get u = a.core.teams.get u) ∧ c.teams.get a.t = some m ∧
    m = { a.team with splits := m.splits } ∧ (∀ q, q ≠ a.p → m.splits.get q = a.team.splits.get q) ∧
    m.splits.get a.p = some sp ∧ Waits a w sp

/-- A `csr.wr`, `csr.set` or `csr.clr` (R261): its source, its address and what it makes of the old value. -/
def csrForm : Instr → Option (Opnd × BitVec 12 × (W64 → W64 → W64))
  | .csrWr d n => some (d, n, fun _ x => x)
  | .csrSet d n => some (d, n, fun o x => o ||| x)
  | .csrClr d n => some (d, n, fun o x => o &&& ~~~x)
  | _ => none

/-- The bits of a value that a CSR's map makes writable, of an old value the rest (R8). -/
def masked (m old v : W64) : W64 := (old &&& ~~~m) ||| (v &&& m)


/-! ### The barrel and the calendar (01 R12 to R20) -/

/-- Split `p` of the team is ready and may issue. -/
def readyAt (tm : Team) (p : Nat) : Bool := tm.mayIssue p && (tm.splits.get p).any fun sp => sp.state == .ready

/-- A ready split that the round-robin does not pass over: it has not yielded, or all the ready splits have (R33, R115). -/
def inTurn (tm : Team) (p : Nat) : Bool :=
  readyAt tm p && (!tm.yielded.contains p || (List.range 16).all fun q => !readyAt tm q || tm.yielded.contains q)

/-- How far split `p` is from the team's round-robin pointer. -/
def turnOf (tm : Team) (p : Nat) : Nat := (p + 16 - tm.rr % 16) % 16

/-- The splits that issue at a position of the team: the first four in turn, in split-table order (R115, R265). -/
def issuers (tm : Team) : List Nat :=
  (List.range 16).filter fun p => inTurn tm p &&
    decide (((List.range 16).filter fun q => inTurn tm q && decide (turnOf tm q < turnOf tm p)).length < 4)

/-- The width of the gangs of a team with `n` ready splits (R12). -/
def widthOf (n : Nat) : Nat := if n = 1 then 64 else if n = 2 then 32 else 16

/-- How many splits of a team are ready. -/
def readyCount (tm : Team) : Nat := (tm.splits.filter fun e => e.2.state == .ready && tm.mayIssue e.1).length

/-- Every ready split of the team is in a clause, or stands at a header, not at its join, whose waits hold (R31, R113). -/
def AtRest (s : State) (k t : Nat) (tm : Team) : Prop :=
  ∀ e ∈ tm.splits, e.2.state = .ready → tm.mayIssue e.1 = true → e.2.atJoin e.1 = false ∧
    (e.2.clause.isSome = true ∨ e.2.waited = true ∨
      ∀ h, s.fetch k e.2.pc.toNat = some h → s.waitsHold k t e.1 (headerOf h) = true)

/-- An owned position passes empty (R174), and what the team's splits yielded is over (R33). -/
def passedEmpty (s : State) (k t : Nat) : State :=
  (s.updTeam k t fun m => { m with yielded := [] }).updCore k fun c =>
    if c.pcCtl.getLsbD 0 then c else { c with pcIdle := c.pcIdle + 1 }

/-- A word of the split has not issued: it waits for what it needs to issue (R118, R151, R253). -/
def HeldAtIssue (sp : Split) : Prop :=
  sp.state = .waiting ∧ ((∃ c, sp.wait = .claim c) ∨ (∃ q f, sp.wait = .stream q f) ∨ (∃ c q, sp.wait = .admission c q) ∨
    (∃ h, sp.wait = .held h) ∨ (∃ a b c d, sp.wait = .recPush a b c d) ∨ (∃ a b, sp.wait = .ringPage a b) ∨
    ∃ d, sp.wait = .drop d)

/-- A waiting request that unit `u` may serve for a function in a slot (R19, R233): `owned` tells the owner from the gleaner, and
`c` is the context that the slot is assigned to. -/
def Servable (e : CalSlot) (u fn : Nat) (owned : Prop) (may : CalReq → Prop) (q : CalReq) : Prop :=
  q.unit = u ∧ q.fn = fn ∧ may q ∧ (owned ∨ q.isRefresh = false) ∧ (q.ownCtx = false ∨ (owned ∧ some q.ctx = e.ctx))

/-- Which of its owner's requests a slot serves first: a refresh (R243), then those of its context (R19). -/
def calRank (e : CalSlot) (q : CalReq) : Nat := if q.isRefresh = true then 0 else if some q.ctx = e.ctx then 1 else 2

/-- The core whose request `i` of its async operation, matrix instruction or channel `x` has had a slot: it waits for one fewer. -/
def oneFewer (c : Core) (x i : Nat) : Core :=
  { c with
    asyncs := c.asyncs.upd x fun op => { op with
      parts := op.parts.map fun p => if p.i = i then { p with waits := p.waits - 1 } else p }
    mats := c.mats.upd x fun m => { m with slots := m.slots.map fun n => n - 1 }
    chans := c.chans.mapVals fun h =>
      if h.num = x ∧ h.state ≠ .idle then { h with slots := h.slots.map fun n => n - 1 } else h }

/-- What a slot that serves `q` does: the request leaves, an engine's request waits for one slot fewer, and any other has it, a
trace record or a posted write being tried again. -/
def SlotServes (s : State) (u slot : Nat) (l r : List CalReq) (q : CalReq) : Prop :=
  ∃ b, exec (.calendarSlotServe u slot) s = .next (if idKind q.id = idKind (traceId 0) then b.drainTraces
      else if idKind q.id = idKind (postedId 0) then b.drainPosted else b) ∧
    b = { s with
      calReqs := l ++ r, calLast := b.calLast, calUsed := b.calUsed, unitCnt := b.unitCnt, cores := b.cores
      calGot := b.calGot } ∧
    (if idKind q.id = 0 then
      b.calGot = s.calGot ∧ ∀ j, b.core? j = if j = q.id / 2 ^ 60
        then (s.core? j).map fun c => oneFewer c (q.id / 2 ^ 20 % 2 ^ 40) (q.id % 2 ^ 20) else s.core? j
     else b.cores = s.cores ∧ b.calGot = s.calGot ++ [(u, q.id)])
/-! ### Engines (07, 10) -/

/-- An operation but for what its reads may have seen already (R201). -/
def bare (op : AsyncOp) : AsyncOp :=
  { op with parts := op.parts.map fun p => { p with accs := p.accs.map fun y => { y with pre := [] } } }

/-- A core but for what its outstanding reads may have seen already (R201). -/
def bareCore (co : Core) : Core := { co with asyncs := co.asyncs.map fun e => (e.1, bare e.2) }

/-- A part of the operation numbered `x` is settled (R146, R151): from the core `co` with the shared store `m`, the part
leaves the operation, the operation leaves the core with its last part, and `n` bytes leave its barrier, with `error`
when `failed`; nothing else that is outstanding there changes. -/
def Settled (u : State) (k x : Nat) (co : Core) (m : Regs 8) (op : AsyncOp) (p : Part) (n : Nat) (failed : Bool) : Prop :=
  ∃ co', u.core? k = some co' ∧
    (co'.asyncs.get x).map bare = (if op.parts.filter (fun q => q.i != p.i) = [] then none
      else some (bare { op with parts := op.parts.filter fun q => q.i != p.i })) ∧
    (∀ y, y ≠ x → (co'.asyncs.get y).map bare = (co.asyncs.get y).map bare) ∧ co'.mats = co.mats ∧ co'.chans = co.chans ∧
    co'.tiles = co.tiles ∧
    co'.shared = Bar.write m op.bar (Bar.test { Bar.read m op.bar with
      bytes := (Bar.read m op.bar).bytes - n, error := (Bar.read m op.bar).error || failed })

/-- The bytes that a read of main memory gives: those it has seen before a later write, else those there now (R201). -/
def seen (s : State) (y : Acc) : List Byte :=
  (List.range y.len).map fun i => (Map.get y.pre (y.pa + i)).getD (Memory.get s.mem (y.pa + i))

/-- The bytes of a list of accesses laid over a shared store, in lane order, but for those that `lost` names. -/
def placed (s : State) (lost : Acc → Bool) (xs : List Acc) (m : Regs 8) : Regs 8 :=
  xs.foldl (fun m y => if lost y then m else Regs.setBytes m y.loc (seen s y)) m

/-- The bytes of a list of accesses written to main memory, in lane order (R153, R155), but for those performed before (R201). -/
def written (xs : List Acc) (m : Memory) : Memory :=
  xs.foldl (fun m y => (y.data.mapIdx fun i b => (y.pa + i, b)).foldl (fun m e =>
    if Map.has y.pre e.1 = true then m else Memory.set m e.1 e.2) m) m

/-- The team that issued an operation, if it is there still, has no LOC word that is not written back (R32, R201). -/
def Quiet (s : State) (k : Nat) (op : AsyncOp) : Prop :=
  ∀ tm, s.team? k op.team = some tm → tm.order = op.order → ∀ e ∈ tm.splits, e.2.wbs = []

/-- No other outstanding write of lanes or of a block touches the bytes of a part (R201). -/
def Alone (s : State) (p : Part) : Prop :=
  ∀ e ∈ s.cores, ∀ o ∈ e.2.asyncs, o.2.kind = .scatter ∨ o.2.kind = .stBlk → ∀ q ∈ o.2.parts, q.id ≠ p.id →
    ∀ y ∈ q.accs, ∀ z ∈ p.accs, y.pa + y.len ≤ z.pa ∨ z.pa + z.len ≤ y.pa

/-- The record of a channel's chain that it may start to copy (R157, R159): handed over, with every reserved bit clear,
fewer than 2³² bytes, an aligned slot, no overlap, and for a local chain a destination in a window. -/
def Startable (c : Chan) (r : ChanRec) : Prop :=
  r.own = true ∧ r.bad = false ∧ (c.isLocal = true → inLocalWin r.dst = true) ∧ r.total ≠ 0

/-- The team that started a chain, if it is there still, has no LOC word that is not written back (R32, R201). -/
def ChanQuiet (s : State) (k : Nat) (c : Chan) : Prop :=
  ∀ tm, s.team? k c.team = some tm → tm.order = c.order → ∀ e ∈ tm.splits, e.2.wbs = []

/-- The bytes of a segment: those of its sector that were read with the segment before it, then those there now (R345). -/
def segmentBytes (s : State) (c : Chan) (p : Place) (n : Nat) : List Byte :=
  c.ahead.take n ++ (s.readAt p n).drop c.ahead.length

/-- A channel's engine may act (R144, R257). -/
def ChanFree (s : State) (k ch : Nat) (co : Core) (c : Chan) : Prop :=
  s.core? k = some co ∧ co.chans.get ch = some c ∧ co.clear c.afterR = true ∧ co.clear c.afterW = true ∧
  s.abandons k = false


/-! ### Pages and plots (13) -/

/-- The pinned pages of a context once an entry of a level has been written for `va` (R219): those of other regions stay, and
the entry's own is as `p` says. -/
def Repinned (x x' : Ctx) (va level : Nat) (p : Option Nat) : Prop :=
  x'.pins.get (regionBase va level / 65536) = p ∧
  ∀ q, ¬ (regionBase va level / 65536 ≤ q ∧ q < regionBase va level / 65536 + regionSize level / 65536) →
    x'.pins.get q = x.pins.get q

/-- A row event's four words (R244), as bytes. -/
def rowBytes (s : State) (act row fn slots count : Nat) : List Byte :=
  toBytes 8 s.tstamp.toNat ++ toBytes 8 (2 ^ 56 + act * 2 ^ 48 + (if fn = 256 then 256 else fn)) ++ toBytes 8 row ++
    toBytes 8 (slots % 2 ^ 32 * 2 ^ 32 + count % 2 ^ 32)

/-- The refresh of a row's neighbours ends after `n` commands (R243, R244): nothing is due any longer, and its record is written
where there is a ring for it. -/
def RefreshEnds (s v : State) (row fn n : Nat) : Prop :=
  v.tracker row fn = { s.tracker row fn with due := false, slots := none } ∧ (s.evSize = 0 → v.mem = s.mem) ∧
  (s.evSize ≠ 0 → v.evHead = s.evHead + 1 ∧
    v.mem = Memory.setBytes s.mem (s.evBase + 32 * (s.evHead % s.evSize)) (rowBytes s 1 row fn n (s.tracker row fn).count))

/-- One move of such a refresh: it begins, for a number of commands that is the controller's own; each slot that it has had issues
one, charged to the function; and it asks for the next (R243). -/
def RefreshMoves (s v : State) (row fn : Nat) : Prop :=
  let t := s.tracker row fn
  let q : CalReq := ⟨8 + stackOf row, fn, 4096, refreshId row fn⟩
  (t.slots = none → ∃ n, if n = 0 then RefreshEnds s v row fn 0
    else v.tracker row fn = { t with slots := some (n, 0) } ∧ q ∈ v.calReqs ∧ v.mem = s.mem) ∧
  (∀ n i, t.slots = some (n, i) → (8 + stackOf row, refreshId row fn) ∈ s.calGot →
    v.rdslots.get fn = some ((s.rdslots.get fn).getD 0 + 1) ∧
    if n ≤ i + 1 then RefreshEnds s v row fn n
    else v.tracker row fn = { t with slots := some (n, i + 1) } ∧ q ∈ v.calReqs ∧ v.mem = s.mem) ∧
  (∀ n i, t.slots = some (n, i) → (8 + stackOf row, refreshId row fn) ∉ s.calGot →
    v.tracker row fn = t ∧ q ∈ v.calReqs ∧ v.mem = s.mem)

/-- What an entry that has been written makes present is served (R219, R225): what cores and records hold for those pages goes on,
and posted writes that wait. -/
def pageTail (v : State) (c : Nat) (f : Nat → Bool) : State :=
  (((v.coresOf c).foldl (fun s k => s.retryCore k f) v).evalRegion c f).drainPosted

/-- The pages whose faults an entry ends: those of its region that translate now. -/
def Ends (v : State) (c va level : Nat) (f : Nat → Bool) : Prop :=
  ∀ p, f p = (inRegion va level p && decide (v.translate c (p * 65536) .r ≠ .absent))

/-! ### Queues and packets (18) -/

/-- Packet `p` of opcode `op` is at queue `fn`, `n`'s head and may act: its lane serves it, it has begun or may begin, it is
not refused by the draining mark, and it waits for no page (R301, R303, R306). -/
def Taken (s : State) (fn n op : Nat) (qu : Queue) (p : List W64) : Prop :=
  s.queues.get (256 * fn + n) = some qu ∧ qu.packet = some p ∧ (p[0]?.getD 0).toNat / 2 ^ 56 = op ∧ qu.page = none ∧
  qu.refused = false ∧ qu.fin = none ∧ s.asleep = false ∧
  ∃ l, qu.lane = some l ∧ (qu.begun = true ∨ (s.mayBegin l op = true ∧ qu.refuses = false))

/-- The machine with that packet begun. -/
def begin' (s : State) (fn n : Nat) (qu : Queue) : State :=
  let q' : Queue := { qu with begun := true, started := if qu.begun then qu.started else s.tstamp }
  { s with queues := s.queues.set (256 * fn + n) q' }

/-- What an engine has done with the packet in progress completes in a later sweep (R303). -/
def hand (s : State) (fn n status : Nat) (qu : Queue) : State :=
  if s.swept qu then s.complete (256 * fn + n) status else s.settleStatus (256 * fn + n) status

/-- Packet words: the reserved bits are 0 and words from `n` on are 0 (R300). -/
def PlainPacket (p : List W64) (n : Nat) : Prop :=
  (p[0]?.getD 0).toNat / 2 ^ 32 % 2 ^ 24 = 0 ∧ ∀ w ∈ p.drop n, w = 0

/-- A context operation (R302): a privileged queue's packet 0x09 of operation `op` on context `c`, with argument `arg`. -/
def CtxOp (s : State) (fn n op c : Nat) (arg : W64) (qu : Queue) (p : List W64) : Prop :=
  Taken s fn n 9 qu p ∧ qu.priv = true ∧ s.rkUp = true ∧ PlainPacket p 3 ∧
  p[1]? = some (BitVec.ofNat 64 (op * 2 ^ 56 + c)) ∧ p[2]?.getD 0 = arg ∧ c < 4096 ∧ (2 ≤ op → arg = 0)

/-- On a core every `sys` that was outstanding is answered "service interrupted" (R277, R130): its register, its split at the next
clause, and its cost out of the estimate; nothing else of the core changes. -/
def Interrupted (co co' : Core) : Prop :=
  co' = { co with items := co'.items, teams := co'.teams } ∧
  (∀ i, (∃ e ∈ co.teams, ∃ f ∈ e.2.splits, ∃ d n, f.2.wait = .sys d n i) → co'.items.get i = none) ∧
  (∀ i, (∀ e ∈ co.teams, ∀ f ∈ e.2.splits, ∀ d n, f.2.wait ≠ .sys d n i) → co'.items.get i = co.items.get i) ∧
  ∀ t tm, co.teams.get t = some tm → ∃ tm', co'.teams.get t = some tm' ∧
    tm' = { tm with s := tm'.s, splits := tm'.splits, yielded := tm'.yielded } ∧
    (∀ d, d < tm.scount → (∃ f ∈ tm.splits, f.2.clause.isSome = true ∧ ∃ n i, f.2.wait = .sys d n i) →
      tm'.sreg d = 0xFFFFFFFFFFFFFFFE) ∧
    (∀ r, (∀ f ∈ tm.splits, ∀ n i, f.2.wait ≠ .sys r n i) → tm'.sreg r = tm.sreg r) ∧
    ∀ p sp, tm.splits.get p = some sp → (∀ f ∈ tm.splits, f.1 = p → f.2 = sp) →
      ∃ sp', tm'.splits.get p = some sp' ∧
        (∀ d n i cl, sp.wait = .sys d n i → sp.clause = some cl →
          sp'.state = .ready ∧ sp'.wait = .none ∧ sp'.clause = none ∧ sp'.pc = cl.after) ∧
        ((∀ d n i, sp.wait ≠ .sys d n i) → sp' = sp)

/-! ### Kernels (17) -/

/-- Operation `x` of core `k` has one part, which can be served, with one access; no sample record is due for it. -/
def OnePart (s : State) (k x : Nat) (co : Core) (op : AsyncOp) (p : Part) (y : Acc) : Prop :=
  s.core? k = some co ∧ co.asyncs.get x = some op ∧ op.parts = [p] ∧ p.accs = [y] ∧ y.done = false ∧
  s.partReady k op p = true ∧ op.sampled = false

/-- The access of a part is to expander memory, or to a stack that has lost none of its data (R226, R240). -/
def Kept (s : State) (p : Part) (y : Acc) : Prop :=
  p.target = 9 ∨ (p.target ≤ 7 ∧ s.isLost y.pa y.len = false ∧ s.writeLost y.pa y.len = false)

/-- Nothing waits on the counter at `va` in context `x`: no condition slot names it and no queue is blocked on it. -/
def Unwatched (s : State) (c : Nat) (x : Ctx) (va : Nat) : Prop :=
  (∀ n ∈ x.kernels, ∀ r ∈ n.2.recs, ∀ e ∈ r.2.cond, e.2.1 ≠ va) ∧ ∀ q ∈ s.queues, q.2.ctx = some c → q.2.wva ≠ va

/-- Access `n` of a packet that makes several has what it needs (R301, R19): it was made at an earlier event and is served still, or
it has its slots and is made now, which leaves the machine `v'`. -/
def Made (v v' : State) (key n : Nat) (qu : Queue) (runs : List (Nat × Nat × Need)) : Prop :=
  (n < qu.copied ∧ (∃ a, v.vaTryAll qu.ctx runs = .ok a) ∧ v' = v) ∨
    (¬ (n < qu.copied ∧ ∃ a, v.vaTryAll qu.ctx runs = .ok a) ∧ v.agentTry (qu.operandAgent key) [] runs = .go ∧
      v' = { v.agentDone (qu.operandAgent key) runs with
        queues := (v.agentDone (qu.operandAgent key) runs).queues.upd key fun q => { q with copied := n + 1 } })

/-- A KLOAD packet that may act (R283): context `c`'s queue, the descriptor at `va`, read as `d`. -/
def Kload (s v : State) (fn q c va : Nat) (qu : Queue) (p : List W64) (x : Ctx) (d : KDesc) : Prop :=
  Taken s fn q 7 qu p ∧ PlainPacket p 2 ∧ p[1]? = some (BitVec.ofNat 64 va) ∧ va % 64 = 0 ∧
  va < 2 ^ 64 ∧ qu.ctx = some c ∧ s.rkUp = true ∧ s.ctx? c = some x ∧ Made (begin' s fn q qu) v (256 * fn + q) 0 qu [(va, 64, .rw)] ∧
  d = kdescOf (word64s (v.vaRead (some c) va 64)) ∧ d.plain = true ∧ d.legal = true

/-- The packet `p` of a queue is done by an engine (R303, R301): it completes if a sweep has run since it was fetched and its
entry can be written, else one of the statuses `st` is kept until then. -/
def Handed (v : State) (p : List W64) (st : List Nat) (qu qu' : Queue) : Prop :=
  (v.swept qu = true ∧ qu'.head = qu.head + 1 ∧ qu'.packet = none ∧ qu'.fin = none) ∨
    (qu'.head = qu.head ∧ qu'.packet = some p ∧ ∃ n ∈ st, qu'.fin = some n)

/-- A team as its first placement leaves it (R102): `h` lanes, `v` and `s` registers claimed, one split at `entry`. -/
def Placed (tm : Team) (n slot index lanes vregs sregs : Nat) (entry : W64) : Prop :=
  tm.kernel = n ∧ tm.crew = slot ∧ tm.index = index ∧ tm.lanes = lanes ∧ tm.vcount = vregs ∧ tm.scount = sregs ∧
  tm.p = [] ∧ tm.spill = [] ∧ tm.state = .active ∧
  ∃ sp, tm.splits = [(0, sp)] ∧ sp.pc = entry ∧ sp.state = .ready ∧ sp.exec = maskAll lanes ∧ sp.live = maskAll lanes

/-- Word `i` of a packet. -/
def packetWord (p : List W64) (i : Nat) : Nat := (p[i]?.getD 0).toNat

/-- The 16 bytes of a completion entry (R301): tag, phase bit, opcode and status, and the timestamp. -/
def completionEntry (q : Queue) (p : List W64) (status : Nat) (now : W64) : List Byte :=
  toBytes 8 (packetWord p 0 % 2 ^ 32 * 2 ^ 32 + (q.head.toNat / q.size + 1) % 2 * 2 ^ 16 + packetWord p 0 / 2 ^ 56 * 2 ^ 8 +
    status) ++ toBytes 8 now.toNat

/-- A packet's access of some operands has its slots, of the units `us` beside the controllers' (R19, R301), and is made now,
which leaves the machine `v'`. -/
def Got (v v' : State) (key : Nat) (qu : Queue) (us : List Nat) (runs : List (Nat × Nat × Need)) : Prop :=
  v.agentTry (qu.operandAgent key) us runs = .go ∧ v' = v.agentDone (qu.operandAgent key) runs

/-- A directory from which some stubs have been freed, and nothing else (R309, R311): stubs that wait for no solicit. -/
def Swept (d d' : Map DirEntry) : Prop :=
  ∃ keep : Nat × DirEntry → Bool, d' = d.filter keep ∧ ∀ e ∈ d, keep e = false → e.2.state = .stub ∧ e.2.waits = 0

/-- What a solicit's pass makes of an entry (R316, R317): none where its key does not match or it is moving in; a responder queued; a null
answer, where its bit is set or a drop waits; or, at a stub, a forward. -/
inductive Passed where
  | none | queued | null | forwarded
  deriving DecidableEq, Repr

/-- The pass of slot `i` over an entry. -/
def passed (z : Census) (i : Nat) (d : DirEntry) : Passed :=
  if d.key &&& z.mask ≠ z.key &&& z.mask then .none
  else match d.state with
    | .movingIn => .none
    | .stub => .forwarded
    | _ => if d.dropping = true ∨ d.answered.toNat.testBit i = true then .null else .queued


/-! ### Links, the network and management (21, 18) -/

/-- The retraining that begins now is the third of a link within one second (R330). -/
def thirdInASecond (x : Link) (now : W64) : Bool :=
  decide (3 ≤ ((x.recent ++ [now]).filter fun t => decide ((now - t).toNat < 1000000000)).length)

/-- A posted write of a requester with none before it (R209, R345): performed in its slots of the calendar, else kept until it has
them. -/
def postedAlone (s : State) (from' c va : Nat) (bs : List Byte) : State :=
  let g := postedAgent c from'
  let runs : List (Nat × Nat × Need) := [(va, bs.length, .w)]
  if s.runsReady g [] (s.vaRuns (some c) runs) = true then (s.postedWrite (some c) va bs).agentDone g runs
  else { s.askRuns g [] (s.vaRuns (some c) runs) with posted := [⟨s.fresh, from', c, va, bs, false⟩] }

/-- A read of a requester has its slots of the calendar (R19, R336) and is made now, which leaves the machine `v`. -/
def ReadGot (s v : State) (from' c va len : Nat) : Prop :=
  s.agentTry (readAgent c from') [] [(va, len, .r)] = .go ∧ v = s.agentDone (readAgent c from') [(va, len, .r)]

/-- An answer of the management core, with which a vector of the physical function may be raised (R344, R335). -/
def served (s : State) (os : List Output) : State := { s with outputs := s.outputs ++ os }.notify 0

/-- Link `l` as `x`, and every other link as in `s`. -/
def LinkIs (s u : State) (l : Nat) (x : Link) : Prop := u.link l = x ∧ ∀ j, j ≠ l → u.link j = s.link j

/-- A queue pair with work rung, whose port serves: `v` once the port engine has looked at its next send entry, `w`. -/
def Sending (s v : State) (port qp : Nat) (q : QPair) (w : Nat → W64) : Prop :=
  s.qps.get (65536 * port + qp) = some q ∧ q.error = false ∧ q.shead ≠ q.stail ∧ (s.link (14 + port)).serves = true ∧
  (s.link (14 + port)).dead = false ∧ s.outRead (sendAgent (65536 * port + qp) q) (q.sring + 64 * (q.shead.toNat % q.ssize)) 64 = .go ∧
  v = (s.portLook (some q.ctx) (q.sring + 64 * (q.shead.toNat % q.ssize)) 64).agentDone (sendAgent (65536 * port + qp) q)
    [(q.sring + 64 * (q.shead.toNat % q.ssize), 64, .r)] ∧
  w = v.sendEntry q q.shead

/-- The send entries that read their local bytes (R340): op, immediate, remote VA and key. -/
def sendForm (port qp : Nat) (w : Nat → W64) : Instr → Option (Nat × BitVec 32 × Nat × Nat)
  | .send a b => if a = port ∧ b = qp then some (0, 0, 0, 0) else none
  | .sendWithImmediate a b => if a = port ∧ b = qp then some (1, (w 0).truncate 32, 0, 0) else none
  | .rdmaWrite a b => if a = port ∧ b = qp then some (2, 0, (w 3).toNat, (w 4).toNat) else none
  | .rdmaWriteWithImmediate a b =>
    if a = port ∧ b = qp then some (3, (w 0).truncate 32, (w 3).toNat, (w 4).toNat) else none
  | _ => none

/-- An entry in progress. -/
def sent (q : QPair) (w : Nat → W64) (op : Nat) : QPair :=
  let e : SendOp := ⟨op, (w 0).getLsbD 48, (w 1).toNat, (w 2).toNat, w 5⟩
  { q with shead := q.shead + 1, cur := q.cur ++ [e] }

/-- The responder's answer to a request: its code, the bytes the manual gives, how many it does not give, and the session
state after it (R343). -/
def spdmForm (s : State) (x : Spdm) : Instr → Option (Nat × List Nat × Nat × Spdm)
  | .getVersion => some (0x04, [0x13], 0, ⟨true, false, false, false, false, x.updates⟩)
  | .getCapabilities => if x.version then some (0x61, [], 16, x) else none
  | .negotiateAlgorithms o => if x.version then some (0x63, [0, 1, 4, Config.vendor % 2 ^ 32, 1, 2, 4, 16, 2], 0, { x with algs := true, shared := o }) else none
  | .getDigests => if x.algs then some (0x01, [], 96, x) else none
  | .getCertificate n => if x.algs ∧ n ≤ 1 then some (0x02, [n], 1024, x) else none
  | .challenge => if x.algs ∧ x.shared then some (0x03, [], 176, x) else none
  | .getMeasurements g => if x.algs ∧ (g = true → x.shared = true) then
      some (0x60, s.measAll, if g then 128 else 0, x) else none
  | .keyExchange => if x.algs ∧ x.shared then some (0x64, [], 240, { x with session := true, finished := false }) else none
  | .finish => if x.session ∧ x.finished = false then some (0x65, [], 0, { x with finished := true }) else none
  | .keyUpdate => if x.session ∧ x.finished then some (0x69, [], 0, { x with updates := x.updates + 1 }) else none
  | .heartbeat => if x.session ∧ x.finished then some (0x68, [], 0, x) else none
  | .endSession => if x.session ∧ x.finished then some (0x6C, [], 0, { x with session := false, finished := false }) else none
  | _ => none

/-- The rows that a ZMI read returns (R344). -/
def zmiForm (s : State) : Instr → Option (Nat × List (List Nat))
  | .zmiReadTopology => some (0, s.snapshot.topology)
  | .zmiReadHealth => some (1, s.snapshot.health)
  | .zmiReadPlotMap => some (3, s.snapshot.plots)
  | .zmiReadVacateAudit => some (4, s.snapshot.audit)
  | .zmiReadRdThresholds => some (6, [[s.mitThresh, s.thrThresh]])
  | _ => none

/-- The sixty-four bytes of an entry of the fault log (R273), field by field from its lowest byte. -/
def logRow (e : LogEntry) : List Nat :=
  let field := fun n v : Nat => (List.range n).map fun i => v / 256 ^ i % 256
  field 8 e.tstamp.toNat ++ field 2 e.code.toNat ++ field 1 (e.grade % 4) ++ field 1 (e.act % 4) ++ field 2 e.team ++
    field 2 e.kernel ++ field 8 e.pc.toNat ++ field 8 e.info.toNat ++ field 4 e.tid ++ field 4 e.pid ++ field 24 0

/-- A frame of a port held in arrival order, or dropped and counted where the port's 256 KiB are full (R307). -/
def frameHeld (s : State) (port : Nat) (frame : List Byte) : State :=
  if s.heldBytes port + frame.length ≤ 262144 then { s with frames := s.frames ++ [(port, frame)] }
  else { s with frameDrops := s.frameDrops + 1 }

/-- The held frames handed to the receive paths, in arrival order (R307). -/
def replayed (s : State) : State :=
  { s with outputs := s.outputs ++ s.frames.map (fun f => .received f.1 f.2), frames := [], mgmtGated := false }

/-- A split-table entry with a field of its own written by the debugger (R165). -/
def splitWritten (sp : Split) (v : W64) (q : Nat) : DbgTarget → Option Split
  | .pc r => if r = q then
      some { sp with
        pc := v, clause := none, transfer := false, waited := false, passBreak := false, passWord := false, prepaid := none
        popped := none, heldAt := none, wait := .none, state := if sp.state = .waiting then .ready else sp.state } else none
  | .cause r => if r = q then
      some { sp with wait := if v.toNat % 2 ^ 32 = sp.wait.code then sp.wait else if v.toNat % 2 ^ 32 = 0 then .none
                             else if v.toNat % 2 ^ 32 = 7 then .header else .coded (v.toNat % 2 ^ 32) }
    else none
  | .join r => if r = q then some { sp with join := v } else none
  | .depth r => if r = q then some { sp with depth := v.toNat % 2 ^ 32 } else none
  | .parent r => if r = q then some { sp with parent := v.toNat % 16 } else none
  | .children r => if r = q then some { sp with children := v.toNat % 256 } else none
  | .state r => if r = q then match v.toNat % 256 with
      | 1 => some { sp with state := .ready }
      | 2 => some { sp with state := .waiting }
      | 3 => some { sp with state := .parked }
      | 4 => some { sp with state := .parent }
      | _ => none
    else none
  | _ => none

/-- A mask with word `w` written by the debugger, within the team's lanes. -/
def MaskWritten (m m' : Mask) (lanes w : Nat) (v : W64) : Prop :=
  ∀ l < 1024, m'.getLsbD l = ((if l / 64 = w then v.getLsbD (l % 64) else m.getLsbD l) && decide (l < lanes))

/-- A queue pair with the tails of a doorbell word (R340). -/
def rung (q : QPair) (v : W64) : QPair := { q with rung := false, stail := v.truncate 32, rtail := (v >>> 32).truncate 32 }
/-! ### Traps (15) -/

/-- A word of the LOC class that accesses local memory (R135 to R140), its registers within the claim and its operands popped: whether it
goes to the die scratchpad, how it touches the shared store, the bytes of a lane's access, and the address of each lane. -/
def LocalWord (a : At) (i : Instr) (die : Bool) (touch : Touch) (size : Nat) (es : List (Nat × Nat)) : Prop :=
  ∃ (d x y x' y' d' : Opnd) (qs : Map Stream), a.team.claimsAll [x, y] = true ∧ es = a.addrs x' y' size ∧
    ((∃ n sg, loadForm i = some (die, size, n, sg, d, x, y) ∧ touch = .load ∧ a.team.claimsRun n d = true ∧
        Takes a [x, y] qs [x', y']) ∨
     (storeForm i = some (die, size, d, x, y) ∧ touch = .store ∧ a.team.storeClaim size d = true ∧
        Takes a [x, y, d] qs [x', y', d']) ∨
     (∃ n f, atomForm i = some (n, f, d, x, y) ∧ die = false ∧ size = 4 ∧ touch = .atomic ∧ a.team.claimsRun n d = true ∧
        Takes a [x, y] qs [x', y']) ∨
     (∃ cas f par, atomxForm i = some (cas, f, d, x, y, par) ∧ die = true ∧ size = (if par.wide then 8 else 4) ∧
        a.team.claimsRun (if cas then 2 * (size / 4) else size / 4) d = true ∧ Takes a [x, y] qs [x', y']))

/-! ### The parts of the statements -/

/-- R81 to R85. Whatever the mask, a uniform word whose registers lie in the team's claim writes its result to its
destination register and changes nothing else. -/
def UniformResults : Prop :=
  ∀ (s : Sys2Proof.Machine.State) (a : Sys2Proof.Machine.At) (i : Sys2Proof.Instr) (d : Sys2Proof.Opnd)
    (os : List Sys2Proof.Opnd) (v : Sys2Proof.W64),
    s.at? = some a → Sys2Proof.Claims.uniResult a i = some (d, os, v) → a.team.claimsAll os = true →
    (∃ n, d = .s n) →
    ∃ t, Sys2Proof.Machine.exec i s = .next t ∧
      Sys2Proof.Claims.Done a s t a.core (a.team.setS (Sys2Proof.Machine.num d) v)

/-- R83, R90. Extraction, signed extraction and insertion of a field, bit by bit, and the bytes of `vprm`. -/
def BitFields : Prop :=
  (∀ (w pos fw i : Nat) (x : BitVec w), i < w →
    (Sys2Proof.Machine.fieldGet w pos fw x).getLsbD i = (decide (i < fw) && x.getLsbD (pos + i))) ∧
  (∀ (w pos fw i : Nat) (x : BitVec w), i < w → 0 < fw →
    (Sys2Proof.Machine.fieldGetS w pos fw x).getLsbD i = x.getLsbD (pos + min i (fw - 1))) ∧
  (∀ (w pos fw i : Nat) (x y : BitVec w), i < w →
    (Sys2Proof.Machine.fieldPut w pos fw x y).getLsbD i =
      if pos ≤ i ∧ i < pos + fw then y.getLsbD (i - pos) else x.getLsbD i) ∧
  (∀ (a b z : Sys2Proof.W32) (i : Nat), i < 4 →
    (Sys2Proof.Machine.permute a b z).extractLsb' (8 * i) 8 =
      (let c := (z.extractLsb' (8 * i) 4).toNat
       let x := (b ++ a).extractLsb' (8 * (c % 8)) 8
       if c < 8 then x else if x.msb then 255 else 0))

/-- R86, R87, R89, R90, R43. A lane word whose registers lie in the claim, and whose stream operands can all be
popped, writes its function of the operands in the lanes of the run and changes nothing else but the streams it pops.
-/
def LaneResults : Prop :=
  ∀ (s : Sys2Proof.Machine.State) (a : Sys2Proof.Machine.At) (i : Sys2Proof.Instr) (d x y x' y' : Sys2Proof.Opnd)
    (f : Sys2Proof.W32 → Sys2Proof.W32 → Sys2Proof.W32 → Sys2Proof.W32)
    (qs : Sys2Proof.Machine.Map Sys2Proof.Machine.Stream),
    s.at? = some a → Sys2Proof.Claims.laneFun i = some (d, x, y, f) → a.team.claimsAll [d, x, y] = true →
    Sys2Proof.Claims.Takes a [x, y] qs [x', y'] →
    ∃ t, Sys2Proof.Machine.exec i s = .next t ∧
      Sys2Proof.Claims.Done a s t (Sys2Proof.Claims.popped a [x, y] qs)
        (a.team.setV (Sys2Proof.Machine.num d)
          (a.lanes.map fun l => (l, f (a.v x' l) (a.v y' l) (a.team.vreg (Sys2Proof.Machine.num d) l))))

/-- R88, R43. A lane compare writes its relation to the bits of D of the lanes of the run, `vcmov` its second operand
to the lanes of the run whose predicate bit is set; neither changes anything else but the streams it pops. -/
def LaneCompareResults : Prop :=
  (∀ (s : Sys2Proof.Machine.State) (a : Sys2Proof.Machine.At) (i : Sys2Proof.Instr) (d x y x' y' : Sys2Proof.Opnd)
    (f : Sys2Proof.W32 → Sys2Proof.W32 → Bool) (qs : Sys2Proof.Machine.Map Sys2Proof.Machine.Stream),
    s.at? = some a → Sys2Proof.Claims.compareFun i = some (d, x, y, f) → a.team.claimsAll [x, y] = true →
    Sys2Proof.Claims.Takes a [x, y] qs [x', y'] →
    ∃ t, Sys2Proof.Machine.exec i s = .next t ∧
      Sys2Proof.Claims.Done a s t (Sys2Proof.Claims.popped a [x, y] qs)
        (a.team.setP (Sys2Proof.Machine.num d) (a.lanes.map fun l => (l, f (a.v x' l) (a.v y' l))))) ∧
  (∀ (s : Sys2Proof.Machine.State) (a : Sys2Proof.Machine.At) (d x y y' : Sys2Proof.Opnd)
    (qs : Sys2Proof.Machine.Map Sys2Proof.Machine.Stream),
    s.at? = some a → a.team.claimsAll [d, y] = true → Sys2Proof.Claims.Takes a [y] qs [y'] →
    ∃ t, Sys2Proof.Machine.exec (.vcmov d x y) s = .next t ∧
      Sys2Proof.Claims.Done a s t (Sys2Proof.Claims.popped a [y] qs)
        (a.team.setV (Sys2Proof.Machine.num d)
          ((a.lanes.filter fun l => Sys2Proof.Machine.Mask.has (a.pr x) l).map fun l => (l, a.v y' l))))

/-- R88. A predicate operation writes its function of two predicate bits to the bits of D of the lanes of the run, and
changes nothing else; nothing is written to `p0` (R11). -/
def PredicateResults : Prop :=
  ∀ (s : Sys2Proof.Machine.State) (a : Sys2Proof.Machine.At) (i : Sys2Proof.Instr) (d x y : Sys2Proof.Opnd)
    (f : Bool → Bool → Bool),
    s.at? = some a → Sys2Proof.Claims.predicateFun i = some (d, x, y, f) →
    ∃ t, Sys2Proof.Machine.exec i s = .next t ∧
      Sys2Proof.Claims.Done a s t a.core
        (if Sys2Proof.Machine.num d = 0 then a.team
         else a.team.setP (Sys2Proof.Machine.num d) (a.lanes.map fun l =>
           (l, f (Sys2Proof.Machine.Mask.has (a.pr x) l) (Sys2Proof.Machine.Mask.has (a.pr y) l))))

/-- R86, R88, R11. What a write of lane registers or of predicate bits does to each lane: the lanes listed get their
values, every other lane of that register and every other register keep theirs; `p0` stays all true. -/
def LaneWrites : Prop :=
  (∀ (tm : Sys2Proof.Machine.Team) (r r' l : Nat) (ls : List Nat) (g : Nat → Sys2Proof.W32),
    (∀ j ∈ ls, j < 1024) → l < 1024 →
    (tm.setV r (ls.map fun j => (j, g j))).vreg r' l = if r' = r ∧ l ∈ ls then g l else tm.vreg r' l) ∧
  (∀ (tm : Sys2Proof.Machine.Team) (r r' l : Nat) (ls : List Nat) (g : Nat → Bool),
    (∀ j ∈ ls, j < 1024) → l < 1024 →
    Sys2Proof.Machine.Mask.has ((tm.setP r (ls.map fun j => (j, g j))).preg r') l =
      if r' = r ∧ r ≠ 0 ∧ l ∈ ls then g l else Sys2Proof.Machine.Mask.has (tm.preg r') l) ∧
  (∀ (tm : Sys2Proof.Machine.Team) (r : Nat) (xs : List (Nat × Bool)),
    (tm.setP r xs).preg 0 = Sys2Proof.Machine.maskAll tm.lanes)

/-- R91 to R94, R98 to R100. A floating-point word whose registers lie in the claim writes its function of the
operands in the lanes of the run and changes nothing else. Where the spec leaves it open, this rests on the model's
choice in log entry 7. -/
def FloatResults : Prop :=
  ∀ (s : Sys2Proof.Machine.State) (a : Sys2Proof.Machine.At) (i : Sys2Proof.Instr)
    (pk : Option Sys2Proof.Machine.Fmt) (d x y : Sys2Proof.Opnd)
    (f : Sys2Proof.W32 → Sys2Proof.W32 → Sys2Proof.W32 → Sys2Proof.W32),
    s.at? = some a → Sys2Proof.Claims.floatFun i = some (pk, d, x, y, f) → a.team.claimsAll [d, x, y] = true →
    ∃ t, Sys2Proof.Machine.exec i s = .next t ∧
      Sys2Proof.Claims.Done a s t a.core (a.team.setV (Sys2Proof.Machine.num d)
        (a.lanes.map fun l => (l, f (a.f pk x l) (a.f pk y l) (a.team.vreg (Sys2Proof.Machine.num d) l))))

/-- R95 to R97, R73. A floating-point compare writes predicate bits; a conversion writes lane registers and makes
`fflags.inv` true when some lane of the run converts a NaN to e2m1n; neither changes anything else. -/
def FloatCompareAndConvertResults : Prop :=
  (∀ (s : Sys2Proof.Machine.State) (a : Sys2Proof.Machine.At) (i : Sys2Proof.Instr) (d x y : Sys2Proof.Opnd)
    (f : Sys2Proof.W32 → Sys2Proof.W32 → Bool),
    s.at? = some a → Sys2Proof.Claims.floatCompareFun i = some (d, x, y, f) → a.team.claimsAll [x, y] = true →
    ∃ t, Sys2Proof.Machine.exec i s = .next t ∧
      Sys2Proof.Claims.Done a s t a.core (a.team.setP (Sys2Proof.Machine.num d)
        (a.lanes.map fun l => (l, f (a.f none x l) (a.f none y l))))) ∧
  (∀ (s : Sys2Proof.Machine.State) (a : Sys2Proof.Machine.At) (i : Sys2Proof.Instr) (d x : Sys2Proof.Opnd)
    (f : Sys2Proof.W32 → Sys2Proof.W32 → Sys2Proof.W32) (inv : Sys2Proof.W32 → Bool),
    s.at? = some a → Sys2Proof.Claims.convertFun i = some (d, x, f, inv) → a.team.claimsAll [d, x] = true →
    ∃ t, Sys2Proof.Machine.exec i s = .next t ∧
      Sys2Proof.Claims.Done a s t a.core
        { a.team.setV (Sys2Proof.Machine.num d)
            (a.lanes.map fun l => (l, f (a.f none x l) (a.team.vreg (Sys2Proof.Machine.num d) l))) with
          inv := a.team.inv || a.lanes.any fun l => inv (a.f none x l) })

/-- R75. The integer dot products and a matrix step with an i32 accumulator: the exact products and the accumulator
summed exactly, the total wrapped modulo 2³². `stepElem` is what a loop's commit writes (`MatrixProgress`), `fieldInt`
an element's two's-complement value. -/
def IntegerSteps : Prop :=
  (∀ (s : Sys2Proof.Machine.State) (a : Sys2Proof.Machine.At) (d x y : Sys2Proof.Opnd),
    s.at? = some a → a.team.claimsAll [d, x, y] = true →
    ∃ t, Sys2Proof.Machine.exec (.dot4I8 d x y) s = .next t ∧
      Sys2Proof.Claims.Done a s t a.core (a.team.setV (Sys2Proof.Machine.num d) (a.lanes.map fun l => (l,
        BitVec.ofInt 32 ((a.team.vreg (Sys2Proof.Machine.num d) l).toInt + ((List.range 4).map fun i =>
          ((a.f none x l).extractLsb' (8 * i) 8).toInt * ((a.f none y l).extractLsb' (8 * i) 8).toInt).sum))))) ∧
  (∀ (s : Sys2Proof.Machine.State) (a : Sys2Proof.Machine.At) (d x y : Sys2Proof.Opnd),
    s.at? = some a → a.team.claimsAll [d, x, y] = true →
    ∃ t, Sys2Proof.Machine.exec (.dot8I4 d x y) s = .next t ∧
      Sys2Proof.Claims.Done a s t a.core (a.team.setV (Sys2Proof.Machine.num d) (a.lanes.map fun l => (l,
        BitVec.ofInt 32 ((a.team.vreg (Sys2Proof.Machine.num d) l).toInt + ((List.range 8).map fun i =>
          ((a.f none x l).extractLsb' (4 * i) 4).toInt * ((a.f none y l).extractLsb' (4 * i) 4).toInt).sum))))) ∧
  (∀ (fmt : Sys2Proof.W64) (b : Nat) (old : Sys2Proof.W32) (xs ys : List Sys2Proof.Machine.FVal) (xi yi : List Nat),
    fmt.getLsbD 11 = true → b = Sys2Proof.Machine.fmtBits (fmt.toNat % 16) → xi.length = yi.length →
    Sys2Proof.Machine.stepElem fmt xi.length old xs ys xi yi =
      BitVec.ofInt 32 (old.toInt + (List.zipWith (fun u v =>
        Sys2Proof.Machine.fieldInt u b * Sys2Proof.Machine.fieldInt v b) xi yi).sum))

/-- R63, R64, R67, R74, R77, R94 (with R65, R70, R72, R92 and R96). The values behind the floating-point words, as
rationals. A code reads as its value; sums and products are exact; a value is rounded once, in each direction, into
F32, F16 and BF16. -/
def RoundedValues : Prop :=
  (∀ (f : Sys2Proof.Machine.Fmt) (c : Nat), f ∈ [Sys2Proof.Machine.Fmt.f32, Sys2Proof.Machine.Fmt.f16, Sys2Proof.Machine.Fmt.bf16] → c < 2 ^ (1 + f.eb + f.mb) →
    (Sys2Proof.Claims.finiteCode f.eb f.mb c → ∃ neg m e, f.read c = .fin neg m e ∧
      (neg = true ↔ c / 2 ^ (f.eb + f.mb) = 1) ∧
      Sys2Proof.Claims.valueOf neg m e = Sys2Proof.Claims.codeValue f.eb f.mb c) ∧
    (¬ Sys2Proof.Claims.finiteCode f.eb f.mb c →
      f.read c = if c % 2 ^ f.mb = 0 then .inf (c / 2 ^ (f.eb + f.mb) == 1) else .nan)) ∧
  (∀ (a b : Bool) (m n : Nat) (e k : Int),
    (∃ s p q, Sys2Proof.Machine.FVal.add (.fin a m e) (.fin b n k) = .fin s p q ∧
      Sys2Proof.Claims.valueOf s p q = Sys2Proof.Claims.valueOf a m e + Sys2Proof.Claims.valueOf b n k ∧
      (p = 0 → (s = true ↔ m = 0 ∧ n = 0 ∧ a = true ∧ b = true)) ∧ (p ≠ 0 →
        (s = true ↔ Sys2Proof.Claims.valueOf s p q < 0))) ∧
    (∃ p q, Sys2Proof.Machine.FVal.mul (.fin a m e) (.fin b n k) = .fin (a != b) p q ∧
      Sys2Proof.Claims.valueOf (a != b) p q = Sys2Proof.Claims.valueOf a m e * Sys2Proof.Claims.valueOf b n k) ∧
    Sys2Proof.Machine.FVal.neg (.fin a m e) = .fin (!a) m e) ∧
  (∀ (x : Sys2Proof.Machine.FVal) (a b : Bool) (m : Nat) (e : Int),
    Sys2Proof.Machine.FVal.add .nan x = .nan ∧ Sys2Proof.Machine.FVal.add x .nan = .nan ∧
      Sys2Proof.Machine.FVal.mul .nan x = .nan ∧ Sys2Proof.Machine.FVal.mul x .nan = .nan ∧
    Sys2Proof.Machine.FVal.add (.inf a) (.inf b) = (if a = b then .inf a else .nan) ∧
      Sys2Proof.Machine.FVal.add (.inf a) (.fin b m e) = .inf a ∧
    Sys2Proof.Machine.FVal.add (.fin b m e) (.inf a) = .inf a ∧
      Sys2Proof.Machine.FVal.mul (.inf a) (.inf b) = .inf (a != b) ∧
    Sys2Proof.Machine.FVal.mul (.inf a) (.fin b m e) = (if m = 0 then .nan else .inf (a != b)) ∧
    Sys2Proof.Machine.FVal.mul (.fin b m e) (.inf a) = (if m = 0 then .nan else .inf (a != b))) ∧
  (∀ (f : Sys2Proof.Machine.Fmt) (r : Sys2Proof.Machine.Rnd) (neg : Bool) (m : Nat) (e : Int), f ∈ [Sys2Proof.Machine.Fmt.f32, Sys2Proof.Machine.Fmt.f16, Sys2Proof.Machine.Fmt.bf16] →
    Sys2Proof.Claims.RoundedTo f.eb f.mb r neg (Sys2Proof.Claims.valueOf neg m e) (f.write r (.fin neg m e)) ∧
    f.write r (.inf neg) = (if neg then 2 ^ (f.eb + f.mb) else 0) + (2 ^ f.eb - 1) * 2 ^ f.mb) ∧
  (∀ r, Sys2Proof.Machine.Fmt.f32.write r .nan = 0x7FC00000 ∧ Sys2Proof.Machine.Fmt.f16.write r .nan = 0x7E00 ∧
    Sys2Proof.Machine.Fmt.bf16.write r .nan = 0x7FC0) ∧
  (∀ (x : Sys2Proof.Machine.FVal) (c : Sys2Proof.W32), Sys2Proof.Machine.toF32 x =
    BitVec.ofNat 32 (Sys2Proof.Machine.Fmt.f32.write .rne x) ∧
      Sys2Proof.Machine.f32 c = Sys2Proof.Machine.Fmt.f32.read c.toNat)

/-- R72, R96, R67, R70. The values behind the conversions. A conversion to a narrow format is the nearest code,
limited to the largest magnitude; to an integer, the value rounded by the mode's direction and limited to the type's
range; to e8, the exponent of the magnitude. Every code widens to its value exactly. -/
def ConvertedValues : Prop :=
  (∀ (f : Sys2Proof.Machine.Narrow) (neg : Bool) (m : Nat) (e : Int), f ∈ [Sys2Proof.Machine.Narrow.e4m3n, Sys2Proof.Machine.Narrow.e5m2n, Sys2Proof.Machine.Narrow.e2m1n] →
    Sys2Proof.Claims.NarrowTo f neg (Sys2Proof.Claims.valueOf neg m e) (f.write (.fin neg m e)) ∧
      f.write .nan = 2 ^ (f.eb + f.mb) ∧
    f.write (.inf neg) = (if neg then 2 ^ (f.eb + f.mb) else 0) + (2 ^ (f.eb + f.mb) - 1)) ∧
  (∀ (f : Sys2Proof.Machine.Narrow) (c : Nat), f ∈ [Sys2Proof.Machine.Narrow.e4m3n, Sys2Proof.Machine.Narrow.e5m2n, Sys2Proof.Machine.Narrow.e2m1n] → c < 2 ^ (1 + f.eb + f.mb) →
    (c = 2 ^ (f.eb + f.mb) → f.read c = .nan) ∧
    (c ≠ 2 ^ (f.eb + f.mb) → ∃ neg m e, f.read c = .fin neg m e ∧
      Sys2Proof.Claims.valueOf neg m e = Sys2Proof.Claims.narrowValue f c)) ∧
  (∀ (r : Sys2Proof.Machine.Rnd) (bits : Nat) (neg : Bool) (m : Nat) (e : Int), bits ∈ [4, 8, 32] →
    (∃ k, Sys2Proof.Claims.IntegerOf r (Sys2Proof.Claims.valueOf neg m e) k ∧
      Sys2Proof.Machine.toIntSat r bits (.fin neg m e) = max (-2 ^ (bits - 1)) (min (2 ^ (bits - 1) - 1) k)) ∧
    Sys2Proof.Machine.toIntSat r bits .nan = 0 ∧
      Sys2Proof.Machine.toIntSat r bits (.inf neg) = if neg then -2 ^ (bits - 1) else 2 ^ (bits - 1) - 1) ∧
  (∀ (neg : Bool) (m : Nat) (e : Int), Sys2Proof.Machine.toE8 .nan = 0xFF ∧ Sys2Proof.Machine.toE8 (.inf neg) = 0xFE ∧
    (Sys2Proof.Claims.valueOf false m e < (2 : Rat) ^ (-127 : Int) → Sys2Proof.Machine.toE8 (.fin neg m e) = 0) ∧
    (∀ k : Nat, k ≤ 254 → (2 : Rat) ^ (k - 127 : Int) ≤ Sys2Proof.Claims.valueOf false m e →
      (k = 254 ∨ Sys2Proof.Claims.valueOf false m e < (2 : Rat) ^ (k - 126 : Int)) →
        Sys2Proof.Machine.toE8 (.fin neg m e) = k)) ∧
  (∀ (r : Sys2Proof.Machine.Rnd) (x : Sys2Proof.Machine.FVal), Sys2Proof.Machine.writeElem r 0 x =
    Sys2Proof.Machine.Fmt.f16.write r x ∧ Sys2Proof.Machine.writeElem r 1 x = Sys2Proof.Machine.Fmt.bf16.write r x ∧
    Sys2Proof.Machine.writeElem r 2 x = Sys2Proof.Machine.Narrow.e4m3n.write x ∧
      Sys2Proof.Machine.writeElem r 3 x = Sys2Proof.Machine.Narrow.e5m2n.write x ∧
    Sys2Proof.Machine.writeElem r 4 x = Sys2Proof.Machine.Narrow.e2m1n.write x ∧
      Sys2Proof.Machine.writeElem r 5 x = (BitVec.ofInt 8 (Sys2Proof.Machine.toIntSat r 8 x)).toNat ∧
    Sys2Proof.Machine.writeElem r 6 x = (BitVec.ofInt 4 (Sys2Proof.Machine.toIntSat r 4 x)).toNat ∧
      Sys2Proof.Machine.writeElem r 7 x = Sys2Proof.Machine.toE8 x) ∧
  (∀ c : Nat, c < 256 → Sys2Proof.Machine.readElem 2 c = Sys2Proof.Machine.Narrow.e4m3n.read c ∧
    Sys2Proof.Machine.readElem 3 c = Sys2Proof.Machine.Narrow.e5m2n.read c ∧
    (c < 16 → Sys2Proof.Machine.readElem 4 c = Sys2Proof.Machine.Narrow.e2m1n.read c) ∧
    (∃ neg m e, Sys2Proof.Machine.readElem 5 c = .fin neg m e ∧
      Sys2Proof.Claims.valueOf neg m e = (BitVec.ofNat 8 c).toInt) ∧
    (c < 16 → ∃ neg m e, Sys2Proof.Machine.readElem 6 c = .fin neg m e ∧
      Sys2Proof.Claims.valueOf neg m e = (BitVec.ofNat 4 c).toInt) ∧
    (c = 255 → Sys2Proof.Machine.readElem 7 c = .nan) ∧
    (c ≠ 255 → ∃ neg m e, Sys2Proof.Machine.readElem 7 c = .fin neg m e ∧
      Sys2Proof.Claims.valueOf neg m e = (2 : Rat) ^ (c - 127 : Int))) ∧
  (∀ c : Nat, c < 2 ^ 16 → Sys2Proof.Machine.readElem 0 c = Sys2Proof.Machine.Fmt.f16.read c ∧
    Sys2Proof.Machine.readElem 1 c = Sys2Proof.Machine.Fmt.bf16.read c) ∧
  (∀ (mode : BitVec 8) (a : Sys2Proof.W32) (r : Sys2Proof.Machine.Rnd) (fmt : Nat),
    r = (if mode.extractLsb' 5 2 = 0 then .rne else if mode.extractLsb' 5 2 = 1 then .rtz
      else if mode.extractLsb' 5 2 = 2 then .rdn else .rup) → fmt = (mode.extractLsb' 0 3).toNat → mode.msb = false →
    (mode.extractLsb' 3 2 = 0 → Sys2Proof.Machine.cvtValue mode a =
      BitVec.ofNat 32 (Sys2Proof.Machine.writeElem r fmt (Sys2Proof.Machine.f32 a))) ∧
    (mode.extractLsb' 3 2 = 1 → Sys2Proof.Machine.cvtValue mode a =
      Sys2Proof.Machine.toF32 (Sys2Proof.Machine.readElem fmt (a.toNat % 2 ^ Sys2Proof.Machine.fmtBits fmt))) ∧
    (mode.extractLsb' 3 2 = 2 → Sys2Proof.Machine.cvtValue mode a =
      BitVec.ofInt 32 (Sys2Proof.Machine.toIntSat r 32 (Sys2Proof.Machine.f32 a))) ∧
    (mode.extractLsb' 3 2 = 3 →
      Sys2Proof.Claims.RoundedTo 8 23 r (decide (a.toInt < 0)) a.toInt (Sys2Proof.Machine.cvtValue mode a).toNat))

/-- R74, R94, R77, R92. The window sum, and the square root and the special functions at the values that the spec
fixes: the terms are cut below 2^(E − 48), summed exactly and rounded once; `fsqrt` is correctly rounded; `frcp` and
`frsq` are within 1 ulp, exact where an F32 is (which other value they give is the model's free choice), and `fexp2`
and `flog2` are exact at the powers of two. Where the spec leaves it open, this rests on the model's choice in log
entry 7. -/
def SpecialValues : Prop :=
  (∀ (ts : List Sys2Proof.Machine.FVal),
    (.nan ∈ ts ∨ (.inf true ∈ ts ∧ .inf false ∈ ts) → Sys2Proof.Machine.windowSum ts = 0x7FC00000) ∧
    (∀ neg, .nan ∉ ts → .inf neg ∈ ts → .inf (!neg) ∉ ts →
      Sys2Proof.Machine.windowSum ts = if neg then 0xFF800000 else 0x7F800000) ∧
    ((∀ t ∈ ts, ∃ neg e, t = .fin neg 0 e) →
      ((∀ t ∈ ts, ∃ e, t = .fin true 0 e) → Sys2Proof.Machine.windowSum ts = 0x80000000) ∧
      ((∃ t ∈ ts, ∃ e, t = .fin false 0 e) → Sys2Proof.Machine.windowSum ts = 0)) ∧
    (∀ (E S : Int), (∀ t ∈ ts, ∃ neg m e, t = .fin neg m e ∧ Sys2Proof.Claims.valueOf false m e < (2 : Rat) ^ (E + 1)) →
      (∃ t ∈ ts, ∃ neg m e, t = .fin neg m e ∧ (2 : Rat) ^ E ≤ Sys2Proof.Claims.valueOf false m e) →
      S = (ts.map (Sys2Proof.Claims.unitsOf ((2 : Rat) ^ (E - 48)))).sum →
      (S = 0 → Sys2Proof.Machine.windowSum ts = 0) ∧
      (S ≠ 0 → Sys2Proof.Claims.RoundedTo 8 23 .rne (decide (S < 0)) (S * (2 : Rat) ^ (E - 48)) (Sys2Proof.Machine.windowSum ts).toNat))) ∧
  (∀ (a : Sys2Proof.W32) (v : Rat), v = Sys2Proof.Claims.codeValue 8 23 a.toNat → Sys2Proof.Claims.finiteCode 8 23 a.toNat →
    (a.extractLsb' 0 31 = 0 → Sys2Proof.Machine.fsqrt32 a = a ∧
      Sys2Proof.Machine.frcp32 a = (a &&& 0x80000000) ||| 0x7F800000 ∧
      Sys2Proof.Machine.frsq32 a = (a &&& 0x80000000) ||| 0x7F800000 ∧ Sys2Proof.Machine.fexp232 a = 0x3F800000 ∧
        Sys2Proof.Machine.flog232 a = 0xFF800000) ∧
    (v < 0 → Sys2Proof.Machine.fsqrt32 a = 0x7FC00000 ∧ Sys2Proof.Machine.frsq32 a = 0x7FC00000 ∧
      Sys2Proof.Machine.flog232 a = 0x7FC00000 ∧
      Sys2Proof.Claims.finiteCode 8 23 (Sys2Proof.Machine.frcp32 a).toNat) ∧
    (0 < v → Sys2Proof.Claims.finiteCode 8 23 (Sys2Proof.Machine.fsqrt32 a).toNat ∧
      (Sys2Proof.Machine.fsqrt32 a).msb = false ∧ ∀ d, d < 0x7F800000 →
      (d < (Sys2Proof.Machine.fsqrt32 a).toNat →
        ((Sys2Proof.Claims.codeValue 8 23 d + Sys2Proof.Claims.codeValue 8 23 (Sys2Proof.Machine.fsqrt32 a).toNat) / 2) ^ 2 < v) ∧
      ((Sys2Proof.Machine.fsqrt32 a).toNat < d →
        v < ((Sys2Proof.Claims.codeValue 8 23 d + Sys2Proof.Claims.codeValue 8 23 (Sys2Proof.Machine.fsqrt32 a).toNat) / 2) ^ 2)) ∧
    ((2 : Rat) ^ (-127 : Int) ≤ Sys2Proof.Claims.mag v → (Sys2Proof.Machine.frcp32 a).msb = a.msb ∧
      Sys2Proof.Claims.finiteCode 8 23 (Sys2Proof.Machine.frcp32 a).toNat ∧
      (∀ E : Int, -126 ≤ E → (2 : Rat) ^ E ≤ Sys2Proof.Claims.mag (1 / v) ∨ E = -126 →
        Sys2Proof.Claims.mag (1 / v) < (2 : Rat) ^ (E + 1) →
        Sys2Proof.Claims.mag (Sys2Proof.Claims.codeValue 8 23 (Sys2Proof.Machine.frcp32 a).toNat - 1 / v) ≤ (2 : Rat) ^ (E - 23)) ∧
      ∀ d, Sys2Proof.Claims.finiteCode 8 23 d → Sys2Proof.Claims.codeValue 8 23 d = 1 / v →
        (Sys2Proof.Machine.frcp32 a).toNat = d) ∧
    (0 < v → (Sys2Proof.Machine.frsq32 a).msb = false ∧
      Sys2Proof.Claims.finiteCode 8 23 (Sys2Proof.Machine.frsq32 a).toNat ∧
      (∀ E : Int, (2 : Rat) ^ (2 * E) * v ≤ 1 → 1 < (2 : Rat) ^ (2 * E + 2) * v →
        (Sys2Proof.Claims.codeValue 8 23 (Sys2Proof.Machine.frsq32 a).toNat - (2 : Rat) ^ (E - 23)) ^ 2 * v ≤ 1 ∧
        1 ≤ (Sys2Proof.Claims.codeValue 8 23 (Sys2Proof.Machine.frsq32 a).toNat + (2 : Rat) ^ (E - 23)) ^ 2 * v) ∧
      ∀ d, d < 0x7F800000 → Sys2Proof.Claims.codeValue 8 23 d ^ 2 * v = 1 → (Sys2Proof.Machine.frsq32 a).toNat = d) ∧
    (∀ k : Int, -149 ≤ k → k ≤ 127 → v = k → Sys2Proof.Claims.finiteCode 8 23 (Sys2Proof.Machine.fexp232 a).toNat ∧
      Sys2Proof.Claims.codeValue 8 23 (Sys2Proof.Machine.fexp232 a).toNat = (2 : Rat) ^ k) ∧
    (128 ≤ v → Sys2Proof.Machine.fexp232 a = 0x7F800000) ∧ (v < -150 → Sys2Proof.Machine.fexp232 a = 0) ∧
    (∀ k : Int, v = (2 : Rat) ^ k → Sys2Proof.Claims.finiteCode 8 23 (Sys2Proof.Machine.flog232 a).toNat ∧
      Sys2Proof.Claims.codeValue 8 23 (Sys2Proof.Machine.flog232 a).toNat = k)) ∧
  (∀ a : Sys2Proof.W32, a.extractLsb' 23 8 = 0xFF → a.extractLsb' 0 23 ≠ 0 → Sys2Proof.Machine.fsqrt32 a = 0x7FC00000 ∧
    Sys2Proof.Machine.frcp32 a = 0x7FC00000 ∧
    Sys2Proof.Machine.frsq32 a = 0x7FC00000 ∧ Sys2Proof.Machine.fexp232 a = 0x7FC00000 ∧
      Sys2Proof.Machine.flog232 a = 0x7FC00000) ∧
  (Sys2Proof.Machine.fsqrt32 0x7F800000 = 0x7F800000 ∧ Sys2Proof.Machine.frcp32 0x7F800000 = 0 ∧
    Sys2Proof.Machine.frsq32 0x7F800000 = 0 ∧ Sys2Proof.Machine.fexp232 0x7F800000 = 0x7F800000 ∧
    Sys2Proof.Machine.flog232 0x7F800000 = 0x7F800000 ∧ Sys2Proof.Machine.fsqrt32 0xFF800000 = 0x7FC00000 ∧
      Sys2Proof.Machine.frcp32 0xFF800000 = 0x80000000 ∧
    Sys2Proof.Machine.frsq32 0xFF800000 = 0x7FC00000 ∧ Sys2Proof.Machine.fexp232 0xFF800000 = 0 ∧
      Sys2Proof.Machine.flog232 0xFF800000 = 0x7FC00000)

/-- R110, R116, R126. `nop` goes on to the next word; the branches transfer, or go on, as the operand they test says;
`bdiv` transfers the whole split when all its lanes go one way. Nothing else changes. -/
def BranchesAndNop : Prop :=
  ∀ (s : Sys2Proof.Machine.State) (a : Sys2Proof.Machine.At) (i : Sys2Proof.Instr) (os : List Sys2Proof.Opnd)
    (r : Option Sys2Proof.W64),
    s.at? = some a → Sys2Proof.Claims.branch a i = some (os, r) → a.team.claimsAll os = true →
    ∃ t, Sys2Proof.Machine.exec i s = .next t ∧
      match r with
      | none => Sys2Proof.Claims.Done a s t a.core a.team
      | some pc => Sys2Proof.Claims.Goes a s t a.core a.team pc

/-- R110, R111, R112. `bdiv` with lanes on both sides, and `jtab` whose lanes have several targets, form a split for
each, in the order of the groups, while the old one waits at the join; `jtab` whose lanes all have one target
transfers there, and with no lane it transfers to the join. -/
def Divergence : Prop :=
  (∀ (s : Sys2Proof.Machine.State) (a : Sys2Proof.Machine.At) (d : Sys2Proof.Opnd) (imm : BitVec 16) (join : BitVec 32),
    s.at? = some a → Sys2Proof.Claims.setLanes a d ≠ 0 → Sys2Proof.Claims.setLanes a d ≠ a.split.exec →
    a.team.splits.length ≤ 14 →
    ∃ t m, Sys2Proof.Machine.exec (.bdiv d imm join) s = .next t ∧ t.team? a.k a.t = some m ∧
      Sys2Proof.Claims.Diverged a m
        [(a.split.exec &&& ~~~Sys2Proof.Claims.setLanes a d, a.cl.after),
         (Sys2Proof.Claims.setLanes a d, Sys2Proof.Claims.headerAt a imm.toInt)]
        (Sys2Proof.Claims.headerAt a join.toInt)) ∧
  (∀ (s : Sys2Proof.Machine.State) (a : Sys2Proof.Machine.At) (n : BitVec 8) (x y : Sys2Proof.Opnd) (join : BitVec 32)
    (c : Nat) (ctx : Sys2Proof.Machine.Ctx) (kn : Sys2Proof.Machine.Kern) (g : Sys2Proof.Mask × Sys2Proof.W64)
    (gs : List (Sys2Proof.Mask × Sys2Proof.W64)),
    s.at? = some a → a.team.claimsAll [x, y] = true → a.split.exec ≠ 0 →
    (∀ l ∈ Sys2Proof.Machine.lanesOf a.split.exec a.team.lanes, (a.v x l).toNat < n.toNat) →
    s.ctxOf a.k = some (c, ctx) → ctx.kernOf a.team = some kn → kn.holdsTable (a.u y).toNat n.toNat = true →
    s.jtabGroups a.k kn.codeVa (a.u y).toNat
      ((Sys2Proof.Machine.lanesOf a.split.exec a.team.lanes).map fun l => (l, (a.v x l).toNat)) n.toNat = some (g :: gs) →
    (gs = [] → ∃ t, Sys2Proof.Machine.exec (.jtab n x y join) s = .next t ∧
      Sys2Proof.Claims.Goes a s t a.core a.team g.2) ∧
    (gs ≠ [] → a.team.splits.length + (gs.length + 1) ≤ 16 →
      ∃ t m, Sys2Proof.Machine.exec (.jtab n x y join) s = .next t ∧ t.team? a.k a.t = some m ∧
        Sys2Proof.Claims.Diverged a m (g :: gs) (Sys2Proof.Claims.headerAt a join.toInt))) ∧
  (∀ (s : Sys2Proof.Machine.State) (a : Sys2Proof.Machine.At) (n : BitVec 8) (x y : Sys2Proof.Opnd) (join : BitVec 32),
    s.at? = some a → a.team.claimsAll [x, y] = true → a.split.exec = 0 →
    ∃ t, Sys2Proof.Machine.exec (.jtab n x y join) s = .next t ∧
      Sys2Proof.Claims.Goes a s t a.core a.team (Sys2Proof.Claims.headerAt a join.toInt))

/-- R28, R39, R59, R60. Where fetch and decoding stop. A header that is not mapped executable traps 0x0301; one
without the signature traps 0x0101 after a transfer and else 0x0001, as one of the reserved class or with no words
does; one whose watched object has failed traps 0x0303. A word that is not mapped traps 0x0301, a reserved OPC 0x0002,
a refused operand 0x0003, a privileged word 0x0004, and words past `cnt` 0x0001. `jtab` traps for an index outside its
table, for a table outside the kernel's sections or not mapped, and where too few splits are free, as `bdiv` does. -/
def FetchFaults : Prop :=
  (∀ (s b f : Sys2Proof.Machine.State) (u : Sys2Proof.Machine.Issue) (c : Sys2Proof.Machine.Core)
    (tm : Sys2Proof.Machine.Team) (sp : Sys2Proof.Machine.Split) (trapsWith : Nat → Nat → Prop),
    Sys2Proof.Claims.Front s b u c tm sp → sp.clause = none → f = b.fetchFill u.core sp.pc.toNat →
    (∀ code info, trapsWith code info ↔ Sys2Proof.Machine.step s = .next (f.trap u.core u.team u.split { code := code, info := info }
      sp.pc sp.pc sp.pc 0 0).dropIssue) →
    (s.fetch u.core sp.pc.toNat = none → trapsWith 0x0301 0) ∧
    (∀ h, s.fetch u.core sp.pc.toNat = some h →
      (h.extractLsb' 0 16 ≠ 0x6C5A → trapsWith (if sp.transfer then 0x0101 else 0x0001) 0) ∧
      (h.extractLsb' 0 16 = 0x6C5A → (h.extractLsb' 25 3 = 7 ∨ h.extractLsb' 28 4 = 0) → trapsWith 0x0001 0) ∧
      (∀ off ph, h.extractLsb' 0 16 = 0x6C5A → h.extractLsb' 25 3 ≠ 7 → h.extractLsb' 28 4 ≠ 0 →
        (sp.waited = true ∨ f.waitsHold u.core u.team u.split (Sys2Proof.headerOf h) = true) → h.getLsbD 22 = true →
        tm.watch = some (off, ph) → (Sys2Proof.Machine.Bar.read c.shared (c.localAddr tm off)).error = true →
        trapsWith 0x0303 off))) ∧
  (∀ (s b : Sys2Proof.Machine.State) (u : Sys2Proof.Machine.Issue) (c : Sys2Proof.Machine.Core)
    (tm : Sys2Proof.Machine.Team) (sp : Sys2Proof.Machine.Split) (cl : Sys2Proof.Machine.Clause) (pc : Sys2Proof.W64) (ws : List Sys2Proof.W32) (eng : Sys2Proof.Eng) (trapsWith : Nat → Prop),
    Sys2Proof.Claims.Front s b u c tm sp → sp.clause = some cl → pc = cl.h + BitVec.ofNat 64 (4 * cl.pos) →
    c.breakAt tm sp pc = false → (Sys2Proof.headerOf cl.hdr).eng = some eng →
    ws = s.fetchRun u.core pc.toNat (min Sys2Proof.maxWords (Sys2Proof.Machine.cntOf cl.hdr + 1 - cl.pos)) →
    (∀ code, trapsWith code ↔ Sys2Proof.Machine.step s = .next (b.trap u.core u.team u.split { code := code } pc pc cl.h cl.hdr
      cl.pos).dropIssue) →
    (ws = [] → trapsWith 0x0301) ∧ (Sys2Proof.decode tm.priv eng ws = .error .illegalInstruction → trapsWith 0x0002) ∧
    (Sys2Proof.decode tm.priv eng ws = .error .illegalOperand → trapsWith 0x0003) ∧
    (Sys2Proof.decode tm.priv eng ws = .error .privilege → trapsWith 0x0004) ∧
    (ws ≠ [] → Sys2Proof.decode tm.priv eng ws = .error .illegalClause →
      trapsWith (if ws.length < min Sys2Proof.maxWords (Sys2Proof.Machine.cntOf cl.hdr + 1 - cl.pos) then 0x0301 else 0x0001))) ∧
  (∀ (s : Sys2Proof.Machine.State) (a : Sys2Proof.Machine.At) (n : BitVec 8) (x y : Sys2Proof.Opnd) (join : BitVec 32)
    (idx : List (Nat × Nat)) (trapsWith : Sys2Proof.Machine.Trap → Prop),
    s.at? = some a → a.team.claimsAll [x, y] = true → a.split.exec ≠ 0 →
    idx = (Sys2Proof.Machine.lanesOf a.split.exec a.team.lanes).map (fun l => (l, (a.v x l).toNat)) →
    (∀ tr, trapsWith tr ↔ Sys2Proof.Machine.exec (.jtab n x y join) s = .next (Sys2Proof.Claims.trapped a s tr)) →
    ((∃ e ∈ idx, n.toNat ≤ e.2) → trapsWith
      { code := 0x0102, info := n.toNat, lanes := (idx.filter fun e => n.toNat ≤ e.2).map fun e => (e.1, 7, e.2) }) ∧
    (∀ c ctx kn, (∀ e ∈ idx, e.2 < n.toNat) → s.ctxOf a.k = some (c, ctx) → ctx.kernOf a.team = some kn →
      (kn.holdsTable (a.u y).toNat n.toNat = false → trapsWith { code := 0x0301 }) ∧
      (kn.holdsTable (a.u y).toNat n.toNat = true → (∃ e ∈ idx, s.fetch a.k ((a.u y).toNat + 4 * e.2) = none) →
        trapsWith { code := 0x0301 }) ∧
      (∀ g g' gs, kn.holdsTable (a.u y).toNat n.toNat = true →
        s.jtabGroups a.k kn.codeVa (a.u y).toNat idx n.toNat = some (g :: g' :: gs) →
        Sys2Proof.Claims.FewFree a.team (gs.length + 2) → trapsWith { code := 0x0103 }))) ∧
  (∀ (s : Sys2Proof.Machine.State) (a : Sys2Proof.Machine.At) (d : Sys2Proof.Opnd) (imm : BitVec 16) (join : BitVec 32),
    s.at? = some a → Sys2Proof.Claims.setLanes a d ≠ 0 → Sys2Proof.Claims.setLanes a d ≠ a.split.exec →
    Sys2Proof.Claims.FewFree a.team 2 →
    Sys2Proof.Machine.exec (.bdiv d imm join) s = .next (Sys2Proof.Claims.trapped a s { code := 0x0103 }))

/-- R108. `mask.get` reads an execute-mask word or the summary word, `mask.and` keeps the lanes whose predicate bit is
set, `mask.set` writes one word within the live mask; nothing else changes. -/
def MaskForms : Prop :=
  (∀ (s : Sys2Proof.Machine.State) (a : Sys2Proof.Machine.At) (d x : Sys2Proof.Opnd),
    s.at? = some a → a.team.claimsAll [d, x] = true →
    ∃ t, Sys2Proof.Machine.exec (.maskGet d x) s = .next t ∧
      Sys2Proof.Claims.Done a s t a.core (a.team.setS (Sys2Proof.Machine.num d)
        (if (a.u x).toNat < 32 then (a.split.exec.extractLsb' (32 * (a.u x).toNat) 32).zeroExtend 64
         else if (a.u x).toNat = 32 then BitVec.ofNat 64 (Sys2Proof.Machine.summary a.split.exec) else 0))) ∧
  (∀ (s : Sys2Proof.Machine.State) (a : Sys2Proof.Machine.At) (x : Sys2Proof.Opnd), s.at? = some a →
    ∃ t, Sys2Proof.Machine.exec (.maskAnd x) s = .next t ∧
      Sys2Proof.Claims.Leaves a s t a.core a.team
        (Sys2Proof.Claims.Onward a { a.split with exec := a.split.exec &&& a.pr x })) ∧
  (∀ (s : Sys2Proof.Machine.State) (a : Sys2Proof.Machine.At) (x y : Sys2Proof.Opnd),
    s.at? = some a → a.team.claimsAll [x, y] = true →
    ∃ t m, Sys2Proof.Machine.exec (.maskSet x y) s = .next t ∧
      Sys2Proof.Claims.Leaves a s t a.core a.team (Sys2Proof.Claims.Onward a { a.split with exec := m }) ∧
      ∀ l, l < 1024 → m.getLsbD l =
        if l / 32 = (a.u x).toNat % 32 then (a.u y).getLsbD (l % 32) && a.split.live.getLsbD l
        else a.split.exec.getLsbD l)

/-- R108, R114, R104. `kill` takes the lanes of the run from the split and its ancestors and ends the clause; a split
whose last live lane is killed, and one that halts, ends: a child's entry is freed and its parent's count falls, and
with the root split the team leaves the core. -/
def KillAndHalt : Prop :=
  (∀ (s : Sys2Proof.Machine.State) (a : Sys2Proof.Machine.At), s.at? = some a → a.split.live &&& ~~~a.run ≠ 0 →
    ∃ t, Sys2Proof.Machine.exec .kill s = .next t ∧
      Sys2Proof.Claims.Leaves a s t a.core (a.team.kill a.p a.run) fun sp =>
        sp.pc = a.cl.after ∧ sp.clause = none ∧ sp.exec = a.split.exec &&& ~~~a.run ∧
        sp.live = a.split.live &&& ~~~a.run) ∧
  (∀ (tm : Sys2Proof.Machine.Team) (p q : Nat) (m : Sys2Proof.Mask),
    (tm.kill p m).splits.get q = (tm.splits.get q).map fun sp =>
      if q ∈ Sys2Proof.Machine.ancestors tm 16 p then { sp with exec := sp.exec &&& ~~~m, live := sp.live &&& ~~~m }
      else sp) ∧
  (∀ (s : Sys2Proof.Machine.State) (a : Sys2Proof.Machine.At) (i : Sys2Proof.Instr),
    s.at? = some a → i = .halt ∨ (i = .kill ∧ a.split.live &&& ~~~a.run = 0) → a.split.parent = a.p →
    Sys2Proof.Claims.Plain a → ∃ t, Sys2Proof.Machine.exec i s = .next t ∧ Sys2Proof.Claims.TeamGone a s t) ∧
  (∀ (s : Sys2Proof.Machine.State) (a : Sys2Proof.Machine.At) (i : Sys2Proof.Instr) (par : Sys2Proof.Machine.Split),
    s.at? = some a → i = .halt ∨ (i = .kill ∧ a.split.live &&& ~~~a.run = 0) → a.split.parent ≠ a.p →
    a.team.splits.get a.split.parent = some par → 2 ≤ par.children →
    ∃ t m par', Sys2Proof.Machine.exec i s = .next t ∧ t.team? a.k a.t = some m ∧ m.splits.get a.p = none ∧
      m.splits.get a.split.parent = some par' ∧ par'.children + 1 = par.children ∧ par'.state = par.state)

/-- R113, R114. With its last child ended the parent is ready at its join, with its masks less the lanes killed, and
the entries of its children are free; a parent left with no live lane ends in turn: the count of its own parent falls,
or with the root the team leaves the core. A ready child that stands at its join parks in place of issuing: its
parent's count falls, or with the last one the parent joins. -/
def SplitJoins : Prop :=
  (∀ (s : Sys2Proof.Machine.State) (a : Sys2Proof.Machine.At) (i : Sys2Proof.Instr) (k : Sys2Proof.Mask)
    (par : Sys2Proof.Machine.Split),
    s.at? = some a → Sys2Proof.Claims.EndsWith a i k → a.split.parent ≠ a.p →
    a.team.splits.get a.split.parent = some par → par.children ≤ 1 →
    (par.live &&& ~~~k ≠ 0 → ∃ t m par', Sys2Proof.Machine.exec i s = .next t ∧
      t = { s with cores := t.cores, scratch := t.scratch } ∧ t.team? a.k a.t = some m ∧
      m.splits.get a.split.parent = some par' ∧ Sys2Proof.Claims.Joined par par' k ∧
      Sys2Proof.Claims.Childless m a.split.parent) ∧
    (par.live &&& ~~~k = 0 → par.parent = a.split.parent → Sys2Proof.Claims.Plain a →
      ∃ t, Sys2Proof.Machine.exec i s = .next t ∧ Sys2Proof.Claims.TeamGone a s t) ∧
    (∀ up, par.live &&& ~~~k = 0 → par.parent ≠ a.split.parent → par.parent ≠ a.p →
      a.team.splits.get par.parent = some up → up.parent ≠ a.split.parent → 2 ≤ up.children →
      ∃ t m up', Sys2Proof.Machine.exec i s = .next t ∧ t.team? a.k a.t = some m ∧ m.splits.get a.p = none ∧
        m.splits.get a.split.parent = none ∧ m.splits.get par.parent = some up' ∧ up'.children + 1 = up.children ∧
        up'.state = up.state)) ∧
  (∀ (s : Sys2Proof.Machine.State) (u : Sys2Proof.Machine.Issue) (us : List Sys2Proof.Machine.Issue)
    (c : Sys2Proof.Machine.Core) (tm : Sys2Proof.Machine.Team) (sp par : Sys2Proof.Machine.Split),
    s.issueQ = u :: us → u.single = false → s.core? u.core = some c → s.team? u.core u.team = some tm →
    s.split? u.core u.team u.split = some sp → tm.mayIssue u.split = true → c.teamStalled u.team = false →
    sp.state = .ready → s.coreIssues u.core = true → sp.parent ≠ u.split → sp.clause = none → sp.pc = sp.join →
    tm.splits.get sp.parent = some par → (2 ≤ par.children ∨ par.live ≠ 0) →
    ∃ t m, Sys2Proof.Machine.issueStep s = .next t ∧
      t = { s with cores := t.cores, scratch := t.scratch, issueQ := us } ∧ t.team? u.core u.team = some m ∧
      (2 ≤ par.children → ∃ sp' par', m.splits.get u.split = some sp' ∧
        sp' = { sp with state := .parked, wait := .none, wbs := sp'.wbs } ∧ m.splits.get sp.parent = some par' ∧
        par' = { par with children := par.children - 1, wbs := par'.wbs }) ∧
      (par.children ≤ 1 → ∃ par', m.splits.get sp.parent = some par' ∧ Sys2Proof.Claims.Joined par par' 0 ∧
        Sys2Proof.Claims.Childless m sp.parent))

/-- R120. A call writes the word offset of the next header from clause 0 in a new row of the spill stack, in the
columns of the live lanes, and transfers; a return goes back to the offset that the lowest live lane holds in the top
row. Where that moves a row of the backing, it has had its slots (R119). -/
def CallsAndReturn : Prop :=
  (∀ (s : Sys2Proof.Machine.State) (a : Sys2Proof.Machine.At) (i : Sys2Proof.Instr) (pc : Sys2Proof.W64) (c : Nat)
    (ctx : Sys2Proof.Machine.Ctx) (kn : Sys2Proof.Machine.Kern),
    s.at? = some a →
    (∃ off, i = .call off ∧ pc = Sys2Proof.Claims.headerAt a off.toInt) ∨
      (∃ x, i = .callS x ∧ a.team.claims x = true ∧ pc = a.u x) →
    s.ctxOf a.k = some (c, ctx) → ctx.kernOf a.team = some kn →
    a.split.depth + 1 ≤ a.team.maxRows → Sys2Proof.Claims.RowReady a s (a.split.depth + 1) →
    ∃ t m, Sys2Proof.Machine.exec i s = .next t ∧
      Sys2Proof.Claims.Leaves a ((Sys2Proof.Claims.rowMoved a s (a.split.depth + 1)).pushMove m (a.split.depth + 1)) t a.core m
        (fun sp => Sys2Proof.Claims.Gone { a.split with depth := a.split.depth + 1 } sp pc) ∧
      m = { a.team with spill := m.spill, splits := m.splits } ∧ (∀ q, q ≠ a.p → m.splits.get q = a.team.splits.get q) ∧
      ∀ r l, l < 1024 → m.spillAt r l =
        if r = a.split.depth + 1 ∧ l ∈ Sys2Proof.Machine.lanesOf a.split.live a.team.lanes then
          BitVec.ofInt 32 ((a.cl.after.toNat - kn.codeVa) / 4)
        else a.team.spillAt r l) ∧
  (∀ (s : Sys2Proof.Machine.State) (a : Sys2Proof.Machine.At) (c l : Nat) (ls : List Nat)
    (ctx : Sys2Proof.Machine.Ctx) (kn : Sys2Proof.Machine.Kern),
    s.at? = some a → s.ctxOf a.k = some (c, ctx) → ctx.kernOf a.team = some kn → 0 < a.split.depth →
    s.popLost a.team a.split.depth = false → Sys2Proof.Machine.lanesOf a.split.live a.team.lanes = l :: ls →
    Sys2Proof.Claims.RowReady a s a.split.depth →
    ∃ t, Sys2Proof.Machine.exec .ret s = .next t ∧
      Sys2Proof.Claims.Leaves a (Sys2Proof.Claims.rowMoved a s a.split.depth) t a.core a.team fun sp =>
        Sys2Proof.Claims.Gone { a.split with depth := a.split.depth - 1 } sp
          (BitVec.ofNat 64 (kn.codeVa + 4 * (a.team.spillAt a.split.depth l).toNat)))

/-- R117, R118, R252. A claim within its limit, whose resource is free and which the admission test passes, hands out
zeroed registers or tiles; a give returns the highest registers or tiles. -/
def ClaimsAndGives : Prop :=
  (∀ (s : Sys2Proof.Machine.State) (a : Sys2Proof.Machine.At) (imm : BitVec 16) (c : Nat) (ctx : Sys2Proof.Machine.Ctx),
    s.at? = some a → s.ctxOf a.k = some (c, ctx) → a.team.resp = none → a.team.vcount + imm.toNat ≤ 128 →
    a.core.regBytes + a.team.lanes * imm.toNat * 4 ≤ Sys2Proof.Machine.regFile ctx.pool →
    s.admission a.k a.t (s.holdIncrease a.k (a.team.lanes * imm.toNat * 4)) = .pass →
    ∃ t m, Sys2Proof.Machine.exec (.claimV imm) s = .next t ∧ Sys2Proof.Claims.Done a s t a.core m ∧
      m = { a.team with vcount := a.team.vcount + imm.toNat, v := m.v } ∧
      ∀ r l, l < 1024 → m.vreg r l =
        if a.team.vcount ≤ r ∧ r < a.team.vcount + imm.toNat then 0 else a.team.vreg r l) ∧
  (∀ (s : Sys2Proof.Machine.State) (a : Sys2Proof.Machine.At) (imm : BitVec 16) (c : Nat) (ctx : Sys2Proof.Machine.Ctx),
    s.at? = some a → s.ctxOf a.k = some (c, ctx) → a.team.resp = none → a.team.scount + imm.toNat ≤ 64 →
    s.admission a.k a.t (s.holdIncrease a.k (8 * imm.toNat)) = .pass →
    ∃ t m, Sys2Proof.Machine.exec (.claimS imm) s = .next t ∧ Sys2Proof.Claims.Done a s t a.core m ∧
      m = { a.team with scount := a.team.scount + imm.toNat, s := m.s } ∧
      ∀ r, m.sreg r = if a.team.scount ≤ r ∧ r < a.team.scount + imm.toNat then 0 else a.team.sreg r) ∧
  (∀ (s : Sys2Proof.Machine.State) (a : Sys2Proof.Machine.At) (d : Sys2Proof.Opnd) (imm : BitVec 16) (c : Nat)
    (ctx : Sys2Proof.Machine.Ctx),
    s.at? = some a → s.ctxOf a.k = some (c, ctx) → a.team.resp = none → a.team.claimsAll [d] = true → 1 ≤ imm.toNat →
    imm.toNat ≤ a.core.freeTiles.length → s.admission a.k a.t (s.holdIncrease a.k (16384 * imm.toNat)) = .pass →
    ∃ t core, Sys2Proof.Machine.exec (.claimA d imm) s = .next t ∧
      Sys2Proof.Claims.Done a s t core (a.team.setS (Sys2Proof.Machine.num d) (BitVec.ofNat 64 (core.tileMap a.t))) ∧
      core = { a.core with tiles := core.tiles } ∧
      (∀ i, core.tiles.get i = if i ∈ a.core.freeTiles.take imm.toNat then some ⟨a.t, false, [], 0, false, false, 0, false⟩
        else a.core.tiles.get i)) ∧
  (∀ (s : Sys2Proof.Machine.State) (a : Sys2Proof.Machine.At) (imm : BitVec 16), s.at? = some a → a.team.resp = none →
    imm.toNat ≤ a.team.vcount →
    ∃ t, Sys2Proof.Machine.exec (.giveV imm) s = .next t ∧
      Sys2Proof.Claims.Done a s t a.core { a.team with
        vcount := a.team.vcount - imm.toNat, placedV := min a.team.placedV (a.team.vcount - imm.toNat) }) ∧
  (∀ (s : Sys2Proof.Machine.State) (a : Sys2Proof.Machine.At) (imm : BitVec 16), s.at? = some a → a.team.resp = none →
    imm.toNat ≤ a.team.scount →
    ∃ t, Sys2Proof.Machine.exec (.giveS imm) s = .next t ∧
      Sys2Proof.Claims.Done a s t a.core { a.team with
        scount := a.team.scount - imm.toNat, placedS := min a.team.placedS (a.team.scount - imm.toNat) }) ∧
  (∀ (s : Sys2Proof.Machine.State) (a : Sys2Proof.Machine.At) (imm : BitVec 16), s.at? = some a → a.team.resp = none →
    imm.toNat ≤ (a.core.heldTiles a.t).length →
    (∀ m ∈ a.core.mats, m.2.tile ∉ (a.core.heldTiles a.t).take imm.toNat) →
    ∃ t core, Sys2Proof.Machine.exec (.giveA imm) s = .next t ∧ Sys2Proof.Claims.Done a s t core a.team ∧
      core = { a.core with tiles := core.tiles } ∧
      ∀ i, core.tiles.get i = if i ∈ (a.core.heldTiles a.t).take imm.toNat then none else a.core.tiles.get i)

/-- R122 to R125, R287. `ready` fills or clears a condition slot, `phase` stops an Active team's issue with its record
still to be written, its accesses performed and its results written back (in Handler it only ends the clause, R104,
R29), `wait` sleeps until its barrier object shows the phase or goes on when it does, `watch` arms or disarms. Where
the spec leaves it open, this rests on the model's choice in log entries 24 and 34. -/
def TeamForms : Prop :=
  (∀ (s : Sys2Proof.Machine.State) (a : Sys2Proof.Machine.At) (n : BitVec 8) (x y : Sys2Proof.Opnd),
    s.at? = some a → a.team.claimsAll [x, y] = true → (a.u x).toNat % 8 = 0 →
    ∃ t, Sys2Proof.Machine.exec (.ready n x y) s = .next t ∧
      Sys2Proof.Claims.Done a s t a.core { a.team with
        conds := if a.u x = 0 then a.team.conds.del n.toNat
          else a.team.conds.set n.toNat ((a.u x).toNat, (a.u y).toNat) }) ∧
  (∀ (s : Sys2Proof.Machine.State) (a : Sys2Proof.Machine.At) (imm : BitVec 16) (entry : BitVec 32) (c : Nat)
    (ctx : Sys2Proof.Machine.Ctx) (kn : Sys2Proof.Machine.Kern),
    s.at? = some a → s.ctxOf a.k = some (c, ctx) → ctx.kernOf a.team = some kn → Sys2Proof.Claims.Plain a →
    imm.toNat ≤ kn.maxcarry → imm.toNat ≤ a.team.vcount → a.team.splits.length = 1 →
    (a.team.state = .active → ∃ t m sp tm, Sys2Proof.Machine.exec (.phase imm entry) s = .next t ∧
      t.team? a.k a.t = some m ∧ (s.settleTeam a.k a.t).team? a.k a.t = some tm ∧
      m.state = .phasing ∧ m.phase = some (imm.toNat, Sys2Proof.Claims.headerAt a entry.toInt) ∧
      m.splits.get a.p = some sp ∧ sp.state = .waiting ∧ sp.wait = .phasing ∧ m.v = tm.flushWbs.v ∧
      m.s = tm.flushWbs.s) ∧
    (a.team.state ≠ .active → ∃ t, Sys2Proof.Machine.exec (.phase imm entry) s = .next t ∧
      Sys2Proof.Claims.Leaves a s t a.core a.team fun sp =>
        sp = { a.split with pc := a.cl.after, clause := none, transfer := false, waited := false, passBreak := false, passWord := false,
                            prepaid := none, popped := none, heldAt := none, state := .ready, wait := .none })) ∧
  (∀ (s : Sys2Proof.Machine.State) (a : Sys2Proof.Machine.At) (x y : Sys2Proof.Opnd),
    s.at? = some a → a.team.claimsAll [x, y] = true → a.barCheck (a.u x).toNat = none →
    ((Sys2Proof.Machine.Bar.read a.core.shared (a.barAddr (a.u x).toNat)).phase ≠ (a.u y).getLsbD 0 →
      ∃ t, Sys2Proof.Machine.exec (.wait x y) s = .next t ∧
        Sys2Proof.Claims.Leaves a s t a.core a.team
          (Sys2Proof.Claims.Waits a (.bar (a.u x).toNat ((a.u y).getLsbD 0)))) ∧
    ((Sys2Proof.Machine.Bar.read a.core.shared (a.barAddr (a.u x).toNat)).phase = (a.u y).getLsbD 0 →
      (Sys2Proof.Machine.Bar.read a.core.shared (a.barAddr (a.u x).toNat)).error = false →
      ∃ t, Sys2Proof.Machine.exec (.wait x y) s = .next t ∧ Sys2Proof.Claims.Done a s t a.core a.team)) ∧
  (∀ (s : Sys2Proof.Machine.State) (a : Sys2Proof.Machine.At) (x y : Sys2Proof.Opnd),
    s.at? = some a → a.team.claimsAll [x, y] = true →
    (a.u y).getLsbD 1 = true ∨ a.barCheck (a.u x).toNat = none →
    ∃ t, Sys2Proof.Machine.exec (.watch x y) s = .next t ∧
      Sys2Proof.Claims.Done a s t a.core { a.team with
        watch := if (a.u y).getLsbD 1 then none else some ((a.u x).toNat, (a.u y).getLsbD 0) })

/-- R129, R130, R249. `sys` waits for its reply as a costed call; `brk` is a no-op, or with a debugger attached and
breakpoints enabled stops the team. Where the spec leaves it open, this rests on the model's choice in log entry 59.
-/
def KernelCallsAndBreaks : Prop :=
  (∀ (s : Sys2Proof.Machine.State) (a : Sys2Proof.Machine.At) (d : Sys2Proof.Opnd) (imm : BitVec 16) (c : Nat)
    (ctx : Sys2Proof.Machine.Ctx),
    s.at? = some a → s.ctxOf a.k = some (c, ctx) → a.team.claimsRun 4 d = true → a.split.prepaid = none →
    s.admission a.k a.t (ctx.tfCall.extractLsb' 16 16).toNat = .pass →
    ∃ t, Sys2Proof.Machine.exec (.sys d imm) s = .next t ∧
      Sys2Proof.Claims.Leaves a s t { a.core with
          items := a.core.items.set a.core.nextX (ctx.tfCall.extractLsb' 16 16).toNat, nextX := a.core.nextX + 1 }
        a.team (Sys2Proof.Claims.Waits a (.sys (Sys2Proof.Machine.num d) imm.toNat a.core.nextX))) ∧
  (∀ (s : Sys2Proof.Machine.State) (a : Sys2Proof.Machine.At) (imm : BitVec 16), s.at? = some a →
    (a.team.att = false ∨ a.team.bke = false ∨ a.split.passWord = true →
      ∃ t, Sys2Proof.Machine.exec (.brk imm) s = .next t ∧ Sys2Proof.Claims.Done a s t a.core a.team) ∧
    (a.team.att = true → a.team.bke = true → a.split.passWord = false → a.core.trbase = 0 →
      ∃ t m, Sys2Proof.Machine.exec (.brk imm) s = .next t ∧ t.team? a.k a.t = some m ∧ m.state = .stopped ∧
        t.mem = s.mem))

/-- R130, R177, R104, R266, R275. The resident kernel answers a `sys`: the four reply registers within the claim are
written, the call's cost leaves and the clause ends; it lets a Held team go on, or retires it, with a log entry of the
fault. Where the spec leaves it open, this rests on the model's choice in log entry 40. -/
def ResidentKernelAnswers : Prop :=
  (∀ (s : Sys2Proof.Machine.State) (k t p d service item c : Nat) (known : Bool) (r0 r1 r2 r3 : BitVec 64)
    (vs : List Sys2Proof.W64) (co : Sys2Proof.Machine.Core) (tm : Sys2Proof.Machine.Team) (sp : Sys2Proof.Machine.Split)
    (cl : Sys2Proof.Machine.Clause) (x : Sys2Proof.Machine.Ctx) (kn : Sys2Proof.Machine.Kern),
    s.core? k = some co → co.teams.get t = some tm → tm.splits.get p = some sp → s.ctxOf k = some (c, x) →
    x.kernOf tm = some kn → s.rk = .up → sp.state = .waiting → sp.wait = .sys d service item → sp.clause = some cl →
    vs = (if service = 1 then [0, BitVec.ofNat 64 kn.codeVa,
        (if kn.constbytes = 0 then 0 else BitVec.ofNat 64 kn.constVa),
        (if kn.databytes = 0 then 0 else BitVec.ofNat 64 kn.dataVa)]
      else if known then [r0, r1, r2, r3] else [0xFFFFFFFFFFFFFFFF]) →
    ∃ u co' m sp', Sys2Proof.Machine.exec (.sysReply k t p known r0 r1 r2 r3) s = .next u ∧
      u = { s with cores := u.cores } ∧ u.core? k = some co' ∧ co' = { co with items := co.items.del item, teams := co'.teams } ∧
      co'.teams.get t = some m ∧ (∀ r, m.sreg r = if d ≤ r ∧ r < tm.scount then (vs[r - d]?).getD (tm.sreg r)
        else tm.sreg r) ∧
      m.splits.get p = some sp' ∧ sp'.state = .ready ∧ sp'.clause = none ∧ sp'.pc = cl.after) ∧
  (∀ (s : Sys2Proof.Machine.State) (k t c : Nat) (co : Sys2Proof.Machine.Core) (tm : Sys2Proof.Machine.Team)
    (x : Sys2Proof.Machine.Ctx) (f : Sys2Proof.Machine.FaultInfo),
    s.core? k = some co → co.teams.get t = some tm → s.ctxOf k = some (c, x) → tm.state = .held → s.rk = .up →
    tm.fault = some f →
    ∃ u x' e, Sys2Proof.Machine.exec (.rkResumeTeam k t) s = .next u ∧
      u.team? k t = some { tm with state := .active, fault := none } ∧ u = { s with cores := u.cores, ctxs := u.ctxs } ∧
      u.ctx? c = some x' ∧ x' = { x with log := x.log ++ [e] } ∧ e.code = f.code ∧ e.pc = f.pc ∧ e.info = f.info ∧
      e.act = 0 ∧ e.kernel = tm.kernel % 2 ^ 16 ∧ e.tstamp = f.tstamp) ∧
  (∀ (s : Sys2Proof.Machine.State) (k t c : Nat) (co : Sys2Proof.Machine.Core) (tm : Sys2Proof.Machine.Team)
    (x : Sys2Proof.Machine.Ctx) (kn : Sys2Proof.Machine.Kern) (f : Sys2Proof.Machine.FaultInfo),
    s.core? k = some co → co.teams.get t = some tm → s.ctxOf k = some (c, x) → x.kernOf tm = some kn → s.rk = .up →
    tm.state = .held → tm.fault = some f → tm.source = none → tm.resp = none →
    ∃ u x' e, Sys2Proof.Machine.exec (.rkRetireTeam k t) s = .next u ∧ u.team? k t = none ∧ u.ctx? c = some x' ∧
      x'.log = x.log ++ [e] ∧ e.code = f.code ∧ e.pc = f.pc ∧ e.info = f.info ∧ e.act = 1 ∧ e.kernel = tm.kernel % 2 ^ 16 ∧
      e.tstamp = f.tstamp)

/-- R135, R137, R32. A load issues: each of its registers is owed a word with one access for each lane of the run
(R201), at the lane's address, but for what lies in a responder's staging buffer, which it has read; nothing else
changes but the streams it pops and `pc.bankstall`. Where the spec leaves it open, this rests on the model's choice in
log entry 16. -/
def LocalLoads : Prop :=
  ∀ (s : Sys2Proof.Machine.State) (a : Sys2Proof.Machine.At) (i : Sys2Proof.Instr) (die : Bool) (size n : Nat)
    (sg : Bool) (d x y x' y' : Sys2Proof.Opnd)
    (qs : Sys2Proof.Machine.Map Sys2Proof.Machine.Stream),
    s.at? = some a → Sys2Proof.Claims.loadForm i = some (die, size, n, sg, d, x, y) → a.team.claimsRun n d = true →
    a.team.claimsAll [x, y] = true → Sys2Proof.Claims.Takes a [x, y] qs [x', y'] →
    (die = false → Sys2Proof.Claims.SharedOk a .load size (a.addrs x' y' size)) →
    (die = true → Sys2Proof.Claims.DieOk a s size (a.addrs x' y' size)) →
    ∃ t core, Sys2Proof.Machine.exec i s = .next t ∧
      core = { Sys2Proof.Claims.popped a [x, y] qs with pcBank := core.pcBank } ∧
      Sys2Proof.Claims.Leaves a s t core a.team (Sys2Proof.Claims.Owes a ((List.range n).map fun j =>
        { a.laneWb (Sys2Proof.Machine.num d + j)
            (((a.addrs x' y' size).filter fun e => !die && a.inStaging e.2 size).map fun e =>
              (e.1, Sys2Proof.Machine.loadExt (min size 4) sg (Sys2Proof.Machine.ofBytes (a.local' (e.2 + 4 * j) (min size 4))))) with
          op := .load (min size 4) sg
          accs := ((a.addrs x' y' size).filter fun e => die || !a.inStaging e.2 size).map fun e =>
            ⟨e.1, die, (if die then 0 else a.region.1) + e.2 + 4 * j, 0, 0⟩ }))

/-- R135, R137, R138. A store issues: for each 4 bytes of an access one word with an access for each lane of the run
(R201) that no higher lane stores over, its bytes and its address fixed; no memory changes yet, and nothing else but
the streams it pops and `pc.bankstall`. Where the spec leaves it open, this rests on the model's choice in log entry
16. -/
def LocalStores : Prop :=
  ∀ (s : Sys2Proof.Machine.State) (a : Sys2Proof.Machine.At) (i : Sys2Proof.Instr) (die : Bool) (size : Nat)
    (d x y d' x' y' : Sys2Proof.Opnd) (qs : Sys2Proof.Machine.Map Sys2Proof.Machine.Stream),
    s.at? = some a → Sys2Proof.Claims.storeForm i = some (die, size, d, x, y) → a.team.storeClaim size d = true →
    a.team.claimsAll [x, y] = true → Sys2Proof.Claims.Takes a [x, y, d] qs [x', y', d'] →
    (die = false → Sys2Proof.Claims.SharedOk a .store size (a.addrs x' y' size)) →
    (die = true → Sys2Proof.Claims.DieOk a s size (a.addrs x' y' size)) →
    ∃ t core, Sys2Proof.Machine.exec i s = .next t ∧
      core = { Sys2Proof.Claims.popped a [x, y, d] qs with pcBank := core.pcBank } ∧
      Sys2Proof.Claims.Leaves a s t core a.team (Sys2Proof.Claims.Owes a ((List.range ((size + 3) / 4)).map fun j =>
        ⟨false, 0, 0, [], 0, .store (min size 4),
          ((a.addrs x' y' size).filter fun e => (a.addrs x' y' size).all fun f => f.2 != e.2 || decide (f.1 ≤ e.1)).map
            fun e => ⟨e.1, die, (if die then 0 else a.region.1) + e.2 + 4 * j,
              (a.stored d' j e.1).toNat % 2 ^ (8 * min size 4), 0⟩, false, false, 0, a.core.nextX, false⟩))

/-- R137, R201, R163. One lane's access of a LOC word is performed: a load takes the bytes at its place, zero- or
sign-extended, a store puts its bytes there and an atomic its new word, and no other byte of any local memory changes.
-/
def LocalAccesses : Prop :=
  (∀ (s : Sys2Proof.Machine.State) (k m : Nat) (sg : Bool) (w : Sys2Proof.Machine.Writeback) (e : Sys2Proof.Machine.LocAcc)
    (old : Nat), w.op = .load m sg → old = Sys2Proof.Machine.ofBytes (s.readAt (s.locPlace k e) m) →
    (s.performAcc k w e).1 = s ∧ (s.performAcc k w e).2.accs = w.accs.filter (fun f => f.lane != e.lane) ∧
    ∀ l, Sys2Proof.Machine.Regs.get (s.performAcc k w e).2.vals l =
      if l = e.lane then (if sg then (BitVec.ofNat (8 * m) old).signExtend 32 else BitVec.ofNat 32 old)
      else Sys2Proof.Machine.Regs.get w.vals l) ∧
  (∀ (s : Sys2Proof.Machine.State) (k m : Nat) (w : Sys2Proof.Machine.Writeback) (e : Sys2Proof.Machine.LocAcc),
    w.op = .store m →
    s.performAcc k w e = (s.writeAt (s.locPlace k e) (Sys2Proof.Machine.toBytes m e.data),
      { w with accs := w.accs.filter fun f => f.lane != e.lane })) ∧
  (∀ (s : Sys2Proof.Machine.State) (k a : Nat) (co : Sys2Proof.Machine.Core) (bs : List Sys2Proof.Byte),
    s.core? k = some co → ∃ c, (s.writeAt (.shared k a) bs).core? k = some c ∧ c = { co with shared := c.shared } ∧
      s.writeAt (.shared k a) bs = { s with cores := (s.writeAt (.shared k a) bs).cores } ∧
      (∀ j, j ≠ k → (s.writeAt (.shared k a) bs).core? j = s.core? j) ∧
      Sys2Proof.Machine.Regs.bytes c.shared a bs.length = bs ∧
      ∀ b, b < a ∨ a + bs.length ≤ b →
        Sys2Proof.Machine.Regs.get c.shared b = Sys2Proof.Machine.Regs.get co.shared b) ∧
  (∀ (s : Sys2Proof.Machine.State) (d a : Nat) (bs : List Sys2Proof.Byte),
    s.writeAt (.die d a) bs = { s with scratch := (s.writeAt (.die d a) bs).scratch } ∧
    (∀ j, j ≠ d → (s.writeAt (.die d a) bs).scratch.get j = s.scratch.get j) ∧
    ∃ m, (s.writeAt (.die d a) bs).scratch.get d = some m ∧ Sys2Proof.Machine.Regs.bytes m a bs.length = bs ∧
      ∀ b, b < a ∨ a + bs.length ≤ b →
        Sys2Proof.Machine.Regs.get m b = Sys2Proof.Machine.Regs.get ((s.scratch.get d).getD []) b)

/-- R119, R121, R32. `spill.st` pushes one row: a lane register's columns of the run, or the halves of a uniform
register in columns 0 and 1 whatever the mask; `spill.ld` pops the top row and owes its register. Where that moves a
row of the backing, it has had its slots. -/
def SpillForms : Prop :=
  (∀ (s : Sys2Proof.Machine.State) (a : Sys2Proof.Machine.At) (d : Sys2Proof.Opnd), s.at? = some a →
    a.team.claims d = true → a.split.depth + 1 ≤ a.team.maxRows → Sys2Proof.Claims.RowReady a s (a.split.depth + 1) →
    ∃ t m, Sys2Proof.Machine.exec (.spillSt d) s = .next t ∧
      Sys2Proof.Claims.Leaves a ((Sys2Proof.Claims.rowMoved a s (a.split.depth + 1)).pushMove m (a.split.depth + 1)) t a.core m
        (Sys2Proof.Claims.Onward a { a.split with depth := a.split.depth + 1 }) ∧
      m = { a.team with spill := m.spill, splits := m.splits } ∧ (∀ q, q ≠ a.p → m.splits.get q = a.team.splits.get q) ∧
      (∀ n, d = .v n → ∀ r l, l < 1024 → m.spillAt r l =
        if r = a.split.depth + 1 ∧ l ∈ a.lanes then a.team.vreg n.val l else a.team.spillAt r l) ∧
      (∀ n, d = .s n → ∀ r l, l < 1024 → m.spillAt r l =
        if r = a.split.depth + 1 ∧ l < 2 then (a.team.sreg n.val).extractLsb' (32 * l) 32 else a.team.spillAt r l)) ∧
  (∀ (s : Sys2Proof.Machine.State) (a : Sys2Proof.Machine.At) (d : Sys2Proof.Opnd), s.at? = some a →
    a.team.claims d = true → 0 < a.split.depth → s.popLost a.team a.split.depth = false →
    Sys2Proof.Claims.RowReady a s a.split.depth →
    ∃ t, Sys2Proof.Machine.exec (.spillLd d) s = .next t ∧
      (∀ n, d = .v n → Sys2Proof.Claims.Leaves a (Sys2Proof.Claims.rowMoved a s a.split.depth) t a.core a.team (Sys2Proof.Claims.Onward a { a.split with
        depth := a.split.depth - 1
        wbs := a.split.wbs ++ [a.laneWb n.val (a.lanes.map fun l => (l, a.team.spillAt a.split.depth l))] })) ∧
      (∀ n, d = .s n → Sys2Proof.Claims.Leaves a (Sys2Proof.Claims.rowMoved a s a.split.depth) t a.core a.team (Sys2Proof.Claims.Onward a { a.split with
        depth := a.split.depth - 1
        wbs := a.split.wbs ++ [Sys2Proof.Machine.uniWb n.val
          (a.team.spillAt a.split.depth 1 ++ a.team.spillAt a.split.depth 0)] })))

/-- R139, R140, R32. An atomic issues: it owes its registers the values from before, with one read-modify-write for
each lane of the run still to be performed (R201); with `rel` every earlier access of the split comes before them and
with `acq` every later one after, where its scope holds another agent (R205, R211); a release at team scope makes the
split's earlier stores seen by its team (R211). Where the spec leaves it open, this rests on the model's choice in log
entry 16. -/
def LocalAtomics : Prop :=
  (∀ (s : Sys2Proof.Machine.State) (a : Sys2Proof.Machine.At) (i : Sys2Proof.Instr) (n : Nat)
    (f : Sys2Proof.W32 → Sys2Proof.W32 → Sys2Proof.W32 → Sys2Proof.W32) (d x y x' y' : Sys2Proof.Opnd)
    (qs : Sys2Proof.Machine.Map Sys2Proof.Machine.Stream),
    s.at? = some a → Sys2Proof.Claims.atomForm i = some (n, f, d, x, y) → a.team.claimsRun n d = true →
    a.team.claimsAll [x, y] = true → Sys2Proof.Claims.Takes a [x, y] qs [x', y'] →
    Sys2Proof.Claims.SharedOk a .atomic 4 (a.addrs x' y' 4) →
    ∃ t core op, Sys2Proof.Machine.exec i s = .next t ∧
      (∀ w x c : Sys2Proof.W32, Sys2Proof.Machine.atomOp op 4 w.toNat x.toNat c.toNat = (f w x c).toNat) ∧
      core = { Sys2Proof.Claims.popped a [x, y] qs with pcBank := core.pcBank } ∧
      Sys2Proof.Claims.Leaves a s t core a.team (Sys2Proof.Claims.Owes a
        [⟨false, Sys2Proof.Machine.num d, a.run, [], 0, .atom op 4, (a.addrs x' y' 4).map fun e =>
          ⟨e.1, false, a.region.1 + e.2, (a.team.vreg (Sys2Proof.Machine.num d) e.1).toNat,
            (a.team.vreg (Sys2Proof.Machine.num d + 1) e.1).toNat⟩, false, false, 0, a.core.nextX, false⟩])) ∧
  (∀ (s : Sys2Proof.Machine.State) (a : Sys2Proof.Machine.At) (i : Sys2Proof.Instr) (cas : Bool)
    (f : Nat → Nat → Nat → Nat → Nat) (d x y x' y' : Sys2Proof.Opnd) (par : Sys2Proof.AxPar) (size : Nat)
    (qs : Sys2Proof.Machine.Map Sys2Proof.Machine.Stream),
    s.at? = some a → Sys2Proof.Claims.atomxForm i = some (cas, f, d, x, y, par) → size = (if par.wide then 8 else 4) →
    a.team.claimsRun (if cas then 2 * (size / 4) else size / 4) d = true → a.team.claimsAll [x, y] = true →
    Sys2Proof.Claims.Takes a [x, y] qs [x', y'] →
    Sys2Proof.Claims.DieOk a s size (a.addrs x' y' size) →
    ∃ t op, Sys2Proof.Machine.exec i s = .next t ∧
      (∀ w x c, Sys2Proof.Machine.atomOp op size w x c = f (8 * size) w x c) ∧
      (¬(par.rel = true ∧ par.scope = 1 ∧ Sys2Proof.Claims.Others a 1 = true) →
        Sys2Proof.Claims.Leaves a (if par.rel = true ∧ par.scope = 6 then { s with portOld := [] } else s) t
          (Sys2Proof.Claims.popped a [x, y] qs) a.team (Sys2Proof.Claims.Owes a
          [Sys2Proof.Claims.atomWord a op size d (a.addrs x' y' size) par.wide
            (par.rel && Sys2Proof.Claims.Others a par.scope.toNat)
            (par.acq && Sys2Proof.Claims.Others a par.scope.toNat)])) ∧
      (par.rel = true → par.scope = 1 → Sys2Proof.Claims.Others a 1 = true →
        Sys2Proof.Claims.Released a s t (fun c => { c with crews := (Sys2Proof.Claims.popped a [x, y] qs).crews })
          [Sys2Proof.Claims.atomWord a op size d (a.addrs x' y' size) par.wide false par.acq]))

/-- R139, R140. The lanes of an atomic perform one after another: the lowest first, in one read-modify-write that
returns the value from before it, the others from the memory that it left, and a lane that names a word of a lower one
may not go before it. Where the spec leaves it open, this rests on the model's choice in log entry 16. -/
def AtomicLanes : Prop :=
  ∀ (s : Sys2Proof.Machine.State) (k op n : Nat) (w : Sys2Proof.Machine.Writeback) (e : Sys2Proof.Machine.LocAcc)
    (es : List Sys2Proof.Machine.LocAcc),
    w.op = .atom op n → w.accs = e :: es → (∀ f ∈ es, e.lane < f.lane) → e.lane < 1024 →
    let old := Sys2Proof.Machine.ofBytes (s.readAt (s.locPlace k e) n)
    let r := s.performAcc k w e
    Sys2Proof.Machine.performLanes (e :: es) s k [] w = Sys2Proof.Machine.performLanes es r.1 k [] r.2 ∧
    r.1 = s.writeAt (s.locPlace k e) (Sys2Proof.Machine.toBytes n (Sys2Proof.Machine.atomOp op n old e.data e.cmp)) ∧
    r.2.accs = es ∧ Sys2Proof.Machine.Regs.get r.2.vals e.lane = BitVec.ofNat 32 old ∧
    Sys2Proof.Machine.Regs.get r.2.vals (1024 + e.lane) = BitVec.ofNat 32 (old / 2 ^ 32) ∧
    ∀ f ∈ es, f.meets n e n = true → w.mayPerform [] f = false

/-- R141 to R143, R76. Exchanges, the scan, votes, `ballot` and reductions owe their results and change nothing else
but the streams they pop. Where the spec leaves it open, this rests on the model's choice in log entry 16. -/
def ExchangesAndReductions : Prop :=
  (∀ (s : Sys2Proof.Machine.State) (a : Sys2Proof.Machine.At) (i : Sys2Proof.Instr) (src : Nat → Nat → Nat)
    (d x y y' : Sys2Proof.Opnd) (qs : Sys2Proof.Machine.Map Sys2Proof.Machine.Stream),
    s.at? = some a → Sys2Proof.Claims.exchangeForm i = some (src, d, x, y) → a.team.claimsAll [d, x, y] = true →
    Sys2Proof.Claims.Takes a [y] qs [y'] →
    ∃ t, Sys2Proof.Machine.exec i s = .next t ∧
      Sys2Proof.Claims.Leaves a s t (Sys2Proof.Claims.popped a [y] qs) a.team (Sys2Proof.Claims.Owes a
        [a.laneWb (Sys2Proof.Machine.num d) (a.lanes.map fun l =>
          (l, if src l (a.v y' l).toNat < a.team.lanes then
            a.team.vreg (Sys2Proof.Machine.num x) (src l (a.v y' l).toNat) else 0))])) ∧
  (∀ (s : Sys2Proof.Machine.State) (a : Sys2Proof.Machine.At) (i : Sys2Proof.Instr) (v : Sys2Proof.W64)
    (d x : Sys2Proof.Opnd),
    s.at? = some a → Sys2Proof.Claims.reduceForm a i = some (v, d, x) → a.team.claimsAll [d, x] = true →
    ∃ t, Sys2Proof.Machine.exec i s = .next t ∧
      Sys2Proof.Claims.Leaves a s t a.core a.team
        (Sys2Proof.Claims.Owes a [Sys2Proof.Machine.uniWb (Sys2Proof.Machine.num d) v])) ∧
  (∀ (s : Sys2Proof.Machine.State) (a : Sys2Proof.Machine.At) (d x y y' : Sys2Proof.Opnd)
    (qs : Sys2Proof.Machine.Map Sys2Proof.Machine.Stream),
    s.at? = some a → a.team.claimsAll [d, y] = true → Sys2Proof.Claims.Takes a [y] qs [y'] →
    ∃ t, Sys2Proof.Machine.exec (.ballot d x y) s = .next t ∧
      Sys2Proof.Claims.Leaves a s t (Sys2Proof.Claims.popped a [y] qs) a.team (Sys2Proof.Claims.Owes a
        [Sys2Proof.Machine.uniWb (Sys2Proof.Machine.num d)
          (if a.u32 y' < 16 then (a.run &&& a.pr x).extractLsb' (64 * a.u32 y') 64 else 0)])) ∧
  (∀ (s : Sys2Proof.Machine.State) (a : Sys2Proof.Machine.At) (d x : Sys2Proof.Opnd),
    s.at? = some a → a.team.claimsAll [d, x] = true →
    ∃ t, Sys2Proof.Machine.exec (.scanAdd d x) s = .next t ∧
      Sys2Proof.Claims.Leaves a s t a.core a.team (Sys2Proof.Claims.Owes a
        [a.laneWb (Sys2Proof.Machine.num d) (a.lanes.mapIdx fun j l =>
          (l, ((a.lanes.take (j + 1)).map fun l => a.team.vreg (Sys2Proof.Machine.num x) l).foldl (· + ·) 0))]))

/-- R76. The tree of a reduction, over positions of which some contribute: for an operation whose grouping does not
matter it is the operation over the contributing positions from left to right, and with none it is nothing. -/
def ReductionTree : Prop :=
  ∀ (op : Sys2Proof.W32 → Sys2Proof.W32 → Sys2Proof.W32) (n : Nat) (xs : List (Option Sys2Proof.W32)),
    (∀ x y z, op (op x y) z = op x (op y z)) → xs.length ≤ 2 ^ n →
    Sys2Proof.Machine.treeOf op n xs =
      match xs.filterMap id with
      | [] => none
      | y :: ys => some (ys.foldl op y)

/-- R144 to R147, R216. A fence of the LOC class holds its split's next clause until the accesses it orders are
performed, or at lane scope until the results are written back; at team scope the split's earlier accesses are
performed for its team; a barrier form that is no misuse replaces its object by the event's outcome and the test that
follows it; `bar.test` owes the object's phase, error and pending count. The split's accesses to the object's bytes
come first, and for `bar.arrive` all its accesses (R205). Where the spec leaves it open, this rests on the model's
choice in log entry 17. -/
def FencesAndBarriers : Prop :=
  (∀ (s : Sys2Proof.Machine.State) (a : Sys2Proof.Machine.At) (scope : BitVec 3) (acq rel : Bool), s.at? = some a →
    acq = true ∨ rel = true → ∃ t, Sys2Proof.Machine.exec (.fence scope acq rel) s = .next t ∧
      (scope = 1 → Sys2Proof.Claims.Others a 1 = true → Sys2Proof.Claims.Released a s t id []) ∧
      (¬(scope = 1 ∧ Sys2Proof.Claims.Others a 1 = true) → Sys2Proof.Claims.Leaves a (if rel = true ∧ scope = 6 then { s with portOld := [] } else s) t a.core a.team
        (Sys2Proof.Claims.Onward a { a.split with
          wbs := a.split.wbs.map (Sys2Proof.Claims.fenced a scope.toNat rel) }))) ∧
  (∀ (s : Sys2Proof.Machine.State) (k t p : Nat) (c : Sys2Proof.Machine.Core) (tm : Sys2Proof.Machine.Team)
    (sp : Sys2Proof.Machine.Split) (x : Nat × Sys2Proof.Machine.Ctx) (w : Sys2Proof.Machine.Writeback)
    (h : Sys2Proof.Header),
    s.core? k = some c → s.team? k t = some tm → s.split? k t p = some sp → s.ctxOf k = some x → w ∈ sp.wbs →
    w.fence = 2 ∨ (w.fence = 1 ∧ w.accs ≠ []) → s.waitsHold k t p h = false) ∧
  (∀ (s s1 : Sys2Proof.Machine.State) (a : Sys2Proof.Machine.At) (i : Sys2Proof.Instr) (x y x' y' : Sys2Proof.Opnd)
    (b : Sys2Proof.Machine.Bar) (qs : Sys2Proof.Machine.Map Sys2Proof.Machine.Stream) (c : Sys2Proof.Machine.Core)
    (tm : Sys2Proof.Machine.Team) (sp : Sys2Proof.Machine.Split),
    s.at? = some a → a.team.claimsAll [x, y] = true → Sys2Proof.Claims.Takes a [x, y] qs [x', y'] →
    a.barCheck (a.u32 x') = none →
    s1 = (if i = .barArrive x y then s.settleSplit a.k a.t a.p else s).settleNear a.k a.t a.p (a.region.1 + a.u32 x') 16 →
    s1.core? a.k = some c → s1.team? a.k a.t = some tm → s1.split? a.k a.t a.p = some sp →
    Sys2Proof.Claims.barForm (BitVec.ofNat 64 (a.u32 y'))
      (Sys2Proof.Machine.Bar.read c.shared (a.region.1 + a.u32 x')) i = some (x, y, b) →
    ∃ t, Sys2Proof.Machine.exec i s = .next t ∧
      Sys2Proof.Claims.Leaves a s1 t { c with
        crews := (Sys2Proof.Claims.popped a [x, y] qs).crews
        shared := Sys2Proof.Machine.Bar.write c.shared (a.region.1 + a.u32 x')
          (if b.pending = 0 ∧ b.bytes = 0 then
            { b with phase := !b.phase, expected := b.reload, pending := b.reload } else b) } tm
        (Sys2Proof.Claims.Onward a sp)) ∧
  (∀ (s s1 : Sys2Proof.Machine.State) (a : Sys2Proof.Machine.At) (d x x' : Sys2Proof.Opnd)
    (b : Sys2Proof.Machine.Bar) (qs : Sys2Proof.Machine.Map Sys2Proof.Machine.Stream) (c : Sys2Proof.Machine.Core)
    (tm : Sys2Proof.Machine.Team) (sp : Sys2Proof.Machine.Split),
    s.at? = some a → a.team.claimsAll [d, x] = true → Sys2Proof.Claims.Takes a [x] qs [x'] →
    a.barCheck (a.u32 x') = none →
    s1 = s.settleNear a.k a.t a.p (a.region.1 + a.u32 x') 16 →
    s1.core? a.k = some c → s1.team? a.k a.t = some tm → s1.split? a.k a.t a.p = some sp →
    b = Sys2Proof.Machine.Bar.read c.shared (a.region.1 + a.u32 x') →
    ∃ t, Sys2Proof.Machine.exec (.barTest d x) s = .next t ∧
      Sys2Proof.Claims.Leaves a s1 t { c with crews := (Sys2Proof.Claims.popped a [x] qs).crews } tm
        (Sys2Proof.Claims.Onward a { sp with wbs := sp.wbs ++ [Sys2Proof.Machine.uniWb (Sys2Proof.Machine.num d)
          (BitVec.ofNat 64 (b.pending * 2 ^ 32 + (if b.error then 2 else 0) + (if b.phase then 1 else 0)))] }))

/-- R145. A barrier object reads back as it was written, and its sixteen bytes are the only ones that change. -/
def BarrierObjects : Prop :=
  (∀ (m : Sys2Proof.Machine.Regs 8) (p : Nat) (b : Sys2Proof.Machine.Bar),
    b.pending < 2 ^ 32 → b.expected < 2 ^ 32 → b.reload < 2 ^ 30 → -2 ^ 31 ≤ b.bytes → b.bytes < 2 ^ 31 →
    Sys2Proof.Machine.Bar.read (Sys2Proof.Machine.Bar.write m p b) p = b) ∧
  (∀ (m : Sys2Proof.Machine.Regs 8) (p j : Nat) (b : Sys2Proof.Machine.Bar), j < p ∨ p + 16 ≤ j →
    Sys2Proof.Machine.Regs.get (Sys2Proof.Machine.Bar.write m p b) j = Sys2Proof.Machine.Regs.get m j)

/-- R131, R151, R153, R154, R347. `gather`, `scatter` and `atom.m` start one operation with an access for each lane of
the run, sent in packets, with its bytes added to its barrier; a run of no lanes moves nothing and completes at once,
with its release. The split's earlier accesses to its local words come first (R208). -/
def LaneTransfers : Prop :=
  ∀ (s s1 : Sys2Proof.Machine.State) (a0 a : Sys2Proof.Machine.At) (i : Sys2Proof.Instr) (kind : Sys2Proof.Machine.AKind)
    (costed : Bool) (extra size off : Nat) (d x y d' x' : Sys2Proof.Opnd) (par : Sys2Proof.XPar)
    (qs : Sys2Proof.Machine.Map Sys2Proof.Machine.Stream) (pub : Option (Nat × Nat × Nat)) (c : Nat)
    (ctx : Sys2Proof.Machine.Ctx) (cost : Option Nat),
    s.at? = some a0 → size = 2 ^ par.size.toNat → off = a0.off32 d' →
    s1 = s.settleRanges a0.k a0.t a0.p a0.core.nextX ((List.range (extra + 1)).flatMap fun j => a0.lanes.map fun l =>
      ⟨false, a0.region.1 + (off + (j * a0.team.lanes + l) * size), size⟩) →
    s1.at? = some a → s1.ctxOf a.k = some (c, ctx) →
    Sys2Proof.Claims.xferForm i = some (kind, costed, extra, d, x, y, par) →
    a.team.claimsBar par.bar = true → a.team.claimsAll [d, x, y] = true →
    Sys2Proof.Claims.Takes a [x, d] qs [x', d'] → a.barCheck (a.barOff par.bar) = none → off % size = 0 →
    (∀ l ∈ a.lanes, off + (extra * a.team.lanes + l) * size + size ≤ a.region.2 ∨
      (kind = .scatter ∧ a.inStaging (off + l * size) size = true)) →
    (if kind = .gather then Sys2Proof.Machine.pubSlot qs par.po off = some pub else pub = none) →
    (a.lanes ≠ [] → a.core.packets < 512 →
      cost = (if costed then some (ctx.drainCost (a.lanes.length * size)) else none) → Sys2Proof.Claims.Admits a s1 cost →
      ∃ t, Sys2Proof.Machine.exec i s = .next t ∧
        Sys2Proof.Claims.Started a s1 t cost (a.barOff par.bar) (a.lanes.length * size)
          (Sys2Proof.Claims.reserved qs pub) fun op => op.kind = kind ∧ op.size = size ∧ op.pub = pub ∧
            Sys2Proof.Claims.Flags op par ∧ Sys2Proof.Claims.Carries a s1 op
              (a.lanes.map (Sys2Proof.Claims.laneAcc a kind extra (a.u x') y par off))) ∧
    (a.lanes = [] → pub = none → ∃ t, Sys2Proof.Machine.exec i s = .next t ∧
      Sys2Proof.Claims.EmptyXfer a s1 t (Sys2Proof.Claims.popped a [x, d] qs).crews par)

/-- R155, R347, R56. `ld.blk` and `st.blk` start one operation of segments in ascending order, with its bytes added to
its barrier; a length of 0 moves nothing and completes at once, with its release. The split's earlier accesses to its
local words come first (R208). Where the spec leaves it open, this rests on the model's choice in log entry 28. -/
def BlockTransfers : Prop :=
  ∀ (s s1 : Sys2Proof.Machine.State) (a0 a : Sys2Proof.Machine.At) (i : Sys2Proof.Instr) (store : Bool) (va len off : Nat)
    (d x y d' x' y' : Sys2Proof.Opnd) (par : Sys2Proof.XPar) (qs : Sys2Proof.Machine.Map Sys2Proof.Machine.Stream)
    (pub : Option (Nat × Nat × Nat)) (c : Nat) (ctx : Sys2Proof.Machine.Ctx) (cost : Option Nat),
    s.at? = some a0 → va = (a0.u x').toNat → len = a0.off32 y' → off = a0.off32 d' →
    s1 = s.settleNear a0.k a0.t a0.p (a0.region.1 + off) len →
    s1.at? = some a → s1.ctxOf a.k = some (c, ctx) → Sys2Proof.Claims.blkForm i = some (store, d, x, y, par) →
    a.team.claimsBar par.bar = true → a.team.claimsAll [d, x, y] = true →
    Sys2Proof.Claims.Takes a [x, y, d] qs [x', y', d'] → a.barCheck (a.barOff par.bar) = none →
    len % 4 = 0 → va % 4 = 0 → off % 4 = 0 →
    len ≤ 524288 → off + len ≤ a.region.2 ∨ (store = true ∧ a.inStaging off len = true) →
    (if store then pub = none else Sys2Proof.Machine.pubSlot qs par.po off = some pub) →
    (len ≠ 0 → a.core.packets < 512 →
      cost = (if store ∧ Sys2Proof.Machine.inLocalWin va = false then some (ctx.drainCost len) else none) →
      Sys2Proof.Claims.Admits a s1 cost →
      ∃ t, Sys2Proof.Machine.exec i s = .next t ∧
        Sys2Proof.Claims.Started a s1 t cost (a.barOff par.bar) len (Sys2Proof.Claims.reserved qs pub) fun op =>
          op.kind = (if store then .stBlk else .ldBlk) ∧ op.pub = pub ∧ Sys2Proof.Claims.Flags op par ∧
          Sys2Proof.Claims.Carries a s1 op ((Sys2Proof.Machine.segments 130 va off len).map fun g =>
            ⟨0, g.1, a.region.1 + g.2.1, g.2.2, 0, if store then a.local' g.2.1 g.2.2 else [], false, []⟩)) ∧
    (len = 0 → pub = none → ∃ t, Sys2Proof.Machine.exec i s = .next t ∧
      Sys2Proof.Claims.EmptyXfer a s1 t (Sys2Proof.Claims.popped a [x, y, d] qs).crews par)

/-- R155. The segments of a block: one after another they make up the block, each lies in one 4 KiB unit of the VA,
and none is empty. Where the spec leaves it open, this rests on the model's choice in log entry 28. -/
def BlockSegments : Prop :=
  ∀ (va off len : Nat), len ≤ 524288 →
    let gs := Sys2Proof.Machine.segments 130 va off len
    (gs.map (·.2.2)).sum = len ∧
    (∀ g ∈ gs, 0 < g.2.2 ∧ g.1 / 4096 = (g.1 + g.2.2 - 1) / 4096) ∧
    ∀ j (h : j < gs.length), gs[j].1 = va + ((gs.take j).map (·.2.2)).sum ∧
      gs[j].2.1 = off + ((gs.take j).map (·.2.2)).sum

/-- R156, R333. `port.wr` starts one posted write through an entry of kind 0 or 1. Where the spec leaves it open, this
rests on the model's choice in log entries 22 and 23. -/
def PortWrite : Prop :=
  ∀ (s : Sys2Proof.Machine.State) (a : Sys2Proof.Machine.At) (va size kind link pctx addr : Nat)
    (d x d' x' : Sys2Proof.Opnd) (par : Sys2Proof.XPar) (qs : Sys2Proof.Machine.Map Sys2Proof.Machine.Stream) (c : Nat)
    (ctx : Sys2Proof.Machine.Ctx),
    s.at? = some a → s.ctxOf a.k = some (c, ctx) → a.team.claimsBar par.bar = true → a.team.claimsAll [d, x] = true →
    Sys2Proof.Claims.Takes a [x, d] qs [x', d'] → a.barCheck (a.barOff par.bar) = none →
    va = (a.u x').toNat → size = 2 ^ par.size.toNat →
    s.resolve a.k a.region va size .w (some true) = .at' (.port kind link pctx addr) → kind ≤ 1 → va % size = 0 →
    a.core.packets < 512 → Sys2Proof.Claims.Admits a s (some (ctx.drainCost size)) →
    ∃ t, Sys2Proof.Machine.exec (.portWr d x par) s = .next t ∧
      Sys2Proof.Claims.Started a s t (some (ctx.drainCost size)) (a.barOff par.bar) size qs fun op => op.kind = .portWr ∧
        Sys2Proof.Claims.Flags op par ∧ Sys2Proof.Claims.Carries a s op
          [⟨0, va, 0, size, 0, Sys2Proof.Machine.toBytes size (a.u d').toNat, false, []⟩]

/-- R144, R210, R216, R237. `fence.m` makes the team's later work wait for the work it names that is outstanding now,
and goes on; at lane scope it orders nothing, and a release at port scope performs there what is performed and what is
outstanding. `plot.warm` starts the wake of a plot in Retention, counts as an access to it, and changes nothing else
but what its own walk touches. Where the spec leaves it open, this rests on the model's choice in log entries 17 and
23. -/
def MemoryFenceAndHint : Prop :=
  (∀ (s : Sys2Proof.Machine.State) (a : Sys2Proof.Machine.At) (scope : BitVec 3) (acq rel : Bool), s.at? = some a →
    (scope = 0 → ∃ t, Sys2Proof.Machine.exec (.fenceM scope acq rel) s = .next t ∧
      Sys2Proof.Claims.Done a s t a.core a.team) ∧
    (scope ≠ 0 →
      ∃ t w r, Sys2Proof.Machine.exec (.fenceM scope acq rel) s = .next t ∧
        Sys2Proof.Claims.Done a (Sys2Proof.Claims.portDone s rel scope.toNat) t
          (if rel = true ∧ scope = 6 then a.core.toPort a.t a.team.order else a.core)
          { a.team with fenceW := w, fenceR := r } ∧
        (∀ x, x ∈ w ↔ (x ∈ a.team.fenceW ∧ a.core.outstanding x = true) ∨
          (rel = true ∧ Sys2Proof.Claims.FencedBy s a true x)) ∧
        (∀ x, x ∈ r ↔ (x ∈ a.team.fenceR ∧ a.core.outstanding x = true) ∨
          (acq = true ∧ Sys2Proof.Claims.FencedBy s a false x)))) ∧
  (∀ (s : Sys2Proof.Machine.State) (a : Sys2Proof.Machine.At) (x x' : Sys2Proof.Opnd)
    (qs : Sys2Proof.Machine.Map Sys2Proof.Machine.Stream) (c pa : Nat) (ctx : Sys2Proof.Machine.Ctx),
    s.at? = some a → s.ctxOf a.k = some (c, ctx) → a.team.claims x = true →
    Sys2Proof.Claims.Takes a [x] qs [x'] →
    ((Sys2Proof.Machine.winOf (a.u x').toNat = 0x1FF ∨ Sys2Proof.Machine.winOf (a.u x').toNat = 0x1FE ∨
        s.anyPa c (a.u x').toNat = none) →
      ∃ t, Sys2Proof.Machine.exec (.plotWarm x) s = .next t ∧
        Sys2Proof.Claims.Done a s t (Sys2Proof.Claims.popped a [x] qs) a.team) ∧
    (s.anyPa c (a.u x').toNat = some pa → Sys2Proof.Machine.isHbm pa = true →
      (s.plot (Sys2Proof.Machine.plotOf pa)).state = .retention →
      ∃ t b ctx1, Sys2Proof.Machine.exec (.plotWarm x) s = .next t ∧
        Sys2Proof.Claims.Done a b t (Sys2Proof.Claims.popped a [x] qs) a.team ∧
        (s.walkTouch c (a.u x').toNat).ctx? c = some ctx1 ∧ ctx1 = { ctx with touched := ctx1.touched } ∧
        b = { s with plots := b.plots, ctxs := b.ctxs, trackers := b.trackers } ∧ (∀ j, j ≠ c → b.ctx? j = s.ctx? j) ∧
        b.ctx? c = some { ctx with touched := ctx1.touched ||| BitVec.ofNat 64 (2 ^ Sys2Proof.Machine.plotOf pa) } ∧
        (b.plot (Sys2Proof.Machine.plotOf pa)).state = .waking ∧
        (b.plot (Sys2Proof.Machine.plotOf pa)).last = s.tstamp ∧
        ∀ q, q ≠ Sys2Proof.Machine.plotOf pa → b.plot q = (s.walkTouch c (a.u x').toNat).plot q))

/-- R241. In privileged code `scrub` starts one operation on a range, which adds the range's bytes to its barrier, and
wakes the range's plot when it is in Retention. Where the spec leaves it open, this rests on the model's choice in log
entry 29. -/
def ScrubForm : Prop :=
  ∀ (s : Sys2Proof.Machine.State) (a : Sys2Proof.Machine.At) (d x y x' y' : Sys2Proof.Opnd)
    (qs : Sys2Proof.Machine.Map Sys2Proof.Machine.Stream) (lo n va off c : Nat) (ctx : Sys2Proof.Machine.Ctx),
    s.at? = some a → s.ctxOf a.k = some (c, ctx) → a.split.prepaid = none → a.team.claimsRun 2 d = true →
    a.team.claimsAll [x, y] = true → Sys2Proof.Claims.Takes a [x, y] qs [x', y'] →
    Sys2Proof.Machine.num d ≤ 62 → lo = (a.u x').toNat → n = (a.u y').toNat →
    va = (a.team.sreg (Sys2Proof.Machine.num d)).toNat → off = (a.team.sreg (Sys2Proof.Machine.num d + 1)).toNat →
    lo % 256 = 0 → n % 256 = 0 → 256 ≤ n → n ≤ 2 ^ 30 → lo < 2 ^ 39 → lo % 2 ^ 33 + n ≤ 7 * 2 ^ 30 → va % 8 = 0 →
    a.barCheck off = none →
    ∃ t, Sys2Proof.Machine.exec (.scrub d x y) s = .next t ∧
      Sys2Proof.Claims.Started a s t none off n qs (fun op => op.kind = .scrub va lo n ∧
        Sys2Proof.Claims.Carries a s op [⟨0, va, 0, n, 0, [], false, []⟩]) ∧
      ((s.plot (lo / 2 ^ 33)).state = .retention → (t.plot (lo / 2 ^ 33)).state = .waking) ∧
      ((s.plot (lo / 2 ^ 33)).state = .off → (t.plot (lo / 2 ^ 33)).state = .off)

/-- R160, R161, R57, R249. `chan.go` starts an idle channel at the record its operand names, with the copy cost unless
bit 0 declares the chain local; `chan.stop` requests a stop of a running channel and has no effect on another;
`chan.state` reads the current record's VA and the state. Where the spec leaves it open, this rests on the model's
choice in log entry 27. -/
def ChannelForms : Prop :=
  (∀ (s : Sys2Proof.Machine.State) (a : Sys2Proof.Machine.At) (n : BitVec 8) (x x' : Sys2Proof.Opnd)
    (qs : Sys2Proof.Machine.Map Sys2Proof.Machine.Stream) (c : Nat) (ctx : Sys2Proof.Machine.Ctx) (cost : Option Nat),
    s.at? = some a → s.ctxOf a.k = some (c, ctx) → a.team.claims x = true →
    Sys2Proof.Claims.Takes a [x] qs [x'] →
    (∀ ch, a.core.chans.get n.toNat = some ch → ch.state = .idle) →
    cost = (if (a.u x').getLsbD 0 then none else some ctx.copyCost) → Sys2Proof.Claims.Admits a s cost →
    ∃ t core ch, Sys2Proof.Machine.exec (.chanGo n x) s = .next t ∧ Sys2Proof.Claims.Done a s t core a.team ∧
      core = { Sys2Proof.Claims.popped a [x] qs with
        items := Sys2Proof.Claims.itemsOf a cost, chans := a.core.chans.set n.toNat ch
        nextX := Sys2Proof.Claims.nextOf a cost + 1, pcAsync := core.pcAsync } ∧
      ch.state = .running ∧ ch.recVa = (a.u x').toNat / 2 * 2 ∧ ch.isLocal = (a.u x').getLsbD 0 ∧
      ch.num = Sys2Proof.Claims.nextOf a cost ∧ ch.item = Sys2Proof.Claims.itemOf a cost ∧ ch.cur = none ∧
      ch.done = 0 ∧ ch.wrote = false ∧ ch.page = none ∧ ch.fail = none ∧ ch.pend = none ∧ ch.team = a.t ∧
      ch.order = a.team.order ∧ ch.crew = a.team.crew ∧ ch.kernel = a.team.kernel ∧ ch.afterW = a.team.fenceW ∧
      ch.afterR = a.team.fenceR ∧ ch.relW = s.relsOf a.k a.t a.team.order a.p ∧ ch.split = a.p ∧ ch.port = false) ∧
  (∀ (s : Sys2Proof.Machine.State) (a : Sys2Proof.Machine.At) (n : BitVec 8), s.at? = some a →
    ∃ t core, Sys2Proof.Machine.exec (.chanStop n) s = .next t ∧ Sys2Proof.Claims.Done a s t core a.team ∧
      core = { a.core with chans := core.chans } ∧
      ∀ j, core.chans.get j = (a.core.chans.get j).map fun ch =>
        if j = n.toNat ∧ ch.state = .running then { ch with state := .stopping } else ch) ∧
  (∀ (s : Sys2Proof.Machine.State) (a : Sys2Proof.Machine.At) (n : BitVec 8) (x : Sys2Proof.Opnd),
    s.at? = some a → a.team.claims x = true →
    ∃ t, Sys2Proof.Machine.exec (.chanState n x) s = .next t ∧
      Sys2Proof.Claims.Done a s t a.core (a.team.setS (Sys2Proof.Machine.num x)
        (match a.core.chans.get n.toNat with
         | some ch => BitVec.ofNat 64 ch.recVa ||| Sys2Proof.Claims.stateCode ch
         | none => 0)))

/-- R162. `ring.wait` reads the slot's first byte at issue: it goes on when `done` is 1 and sleeps otherwise. The
access may leave its page in the TLBs and counts at its plots. Where the spec leaves it open, this rests on the
model's choice in log entry 22. -/
def RingWaitForm : Prop :=
  ∀ (s : Sys2Proof.Machine.State) (a : Sys2Proof.Machine.At) (x x' : Sys2Proof.Opnd)
    (qs : Sys2Proof.Machine.Map Sys2Proof.Machine.Stream) (pa c : Nat) (ctx : Sys2Proof.Machine.Ctx),
    s.at? = some a → s.ctxOf a.k = some (c, ctx) → a.team.claims x = true →
    Sys2Proof.Claims.Takes a [x] qs [x'] → (a.u x').toNat % 32 = 0 →
    s.resolve a.k a.region (a.u x').toNat 32 .r none = .at' (.mem pa) → pa < 2 ^ 39 →
    (s.plot (Sys2Proof.Machine.plotOf pa)).state = .warm →
    ∃ t b core, Sys2Proof.Machine.exec (.ringWait x) s = .next t ∧
      b = { s with plots := b.plots, ctxs := b.ctxs, dieTlb := b.dieTlb, trackers := b.trackers } ∧
      core = { Sys2Proof.Claims.popped a [x] qs with
        heldPlots := core.heldPlots, heldFrom := core.heldFrom, tlb := core.tlb } ∧
      if (Sys2Proof.Machine.Memory.get s.mem pa).getLsbD 0 then Sys2Proof.Claims.Done a b t core a.team
      else Sys2Proof.Claims.Leaves a b t core a.team (Sys2Proof.Claims.Waits a (.ring (a.u x').toNat))

/-- R182 to R189. A loop with a count queues one held instruction with 16,384 bytes added to its barrier and sets its
tile's `run`; with a count of 0 it does nothing. -/
def MatrixLoops : Prop :=
  ∀ (s : Sys2Proof.Machine.State) (a : Sys2Proof.Machine.At) (i : Sys2Proof.Instr) (gather : Bool) (n : BitVec 8)
    (x : Sys2Proof.Opnd) (par : Sys2Proof.MPar) (l : Sys2Proof.Machine.LoopPar) (tile : Sys2Proof.Machine.Tile),
    s.at? = some a → Sys2Proof.Claims.loopForm i = some (gather, n, x, par) → (∃ r, x = .s r) →
    a.core.tiles.get n.toNat = some tile → tile.team = a.t → tile.leaving = false →
    Sys2Proof.Machine.num x + (if gather then 9 else 8) ≤ 64 →
    a.team.claimsRun (if gather then 9 else 8) x = true → a.team.claimsBar par.bar = true →
    a.barCheck (a.barOff par.bar) = none → Sys2Proof.Claims.loopRun a.team (Sys2Proof.Machine.num x) gather l →
    (l.count = 0 → ∃ t core, Sys2Proof.Machine.exec i s = .next t ∧ Sys2Proof.Claims.Done a s t core a.team ∧
      core = { a.core with pcAsync := core.pcAsync }) ∧
    (0 < l.count → a.core.mats.length < 8 → ∃ t core m, Sys2Proof.Machine.exec i s = .next t ∧
      Sys2Proof.Claims.Done a s t core a.team ∧
      core = { a.core with
        tiles := a.core.tiles.set n.toNat { tile with run := true }, mats := a.core.mats.set a.core.nextX m
        nextX := a.core.nextX + 1, shared := Sys2Proof.Claims.charged a (a.barOff par.bar) 16384
        pcAsync := core.pcAsync } ∧
      Sys2Proof.Claims.Queued a s a.core.nextX n.toNat (a.barOff par.bar) (.loop l) none par m)

/-- R194 to R197, R249. `mstore` queues one held instruction with the bytes of its 64 rows added to its barrier; it is
costed unless its destination lies in a window. -/
def MatrixStore : Prop :=
  ∀ (s : Sys2Proof.Machine.State) (a : Sys2Proof.Machine.At) (n : BitVec 8) (x : Sys2Proof.Opnd) (par : Sys2Proof.MPar)
    (p : Sys2Proof.Machine.StorePar) (tile : Sys2Proof.Machine.Tile) (c : Nat) (ctx : Sys2Proof.Machine.Ctx)
    (cost : Option Nat),
    s.at? = some a → s.ctxOf a.k = some (c, ctx) → (∃ r, x = .s r) → a.core.tiles.get n.toNat = some tile →
    tile.team = a.t → tile.leaving = false → Sys2Proof.Machine.num x ≤ 60 → a.team.claimsRun 4 x = true →
    a.team.claimsBar par.bar = true → a.barCheck (a.barOff par.bar) = none →
    a.team.storePar (Sys2Proof.Machine.num x) = some p → a.core.mats.length < 8 →
    cost = (if Sys2Proof.Machine.inLocalWin p.dst then none else some (ctx.drainCost (64 * p.rowBytes))) →
    Sys2Proof.Claims.Admits a s cost →
    ∃ t core m, Sys2Proof.Machine.exec (.mstore n x par) s = .next t ∧ Sys2Proof.Claims.Done a s t core a.team ∧
      core = { a.core with
        mats := a.core.mats.set (Sys2Proof.Claims.nextOf a cost) m, items := Sys2Proof.Claims.itemsOf a cost
        nextX := Sys2Proof.Claims.nextOf a cost + 1, pcAsync := core.pcAsync
        shared := Sys2Proof.Claims.charged a (a.barOff par.bar) (64 * p.rowBytes : Nat) } ∧
      Sys2Proof.Claims.Queued a s (Sys2Proof.Claims.nextOf a cost) n.toNat (a.barOff par.bar) (.store p)
        (Sys2Proof.Claims.itemOf a cost) par m

/-- R181, R190, R192, R193, R208. `mzero` and `mload` clear a held tile's progress and zero or load its elements, once
no earlier instruction keeps the tile, and `mload` after the split's earlier accesses to the words it reads; `mrows`
reads the progress of a held tile; nothing else changes. -/
def TileForms : Prop :=
  (∀ (s : Sys2Proof.Machine.State) (a : Sys2Proof.Machine.At) (n : BitVec 8) (tile : Sys2Proof.Machine.Tile),
    s.at? = some a → a.core.tiles.get n.toNat = some tile → tile.team = a.t → tile.leaving = false →
    (∀ m ∈ a.core.mats, m.2.tile = n.toNat → m.1 < a.core.nextX → m.2.lets = true) →
    ∃ t, Sys2Proof.Machine.exec (.mzero n) s = .next t ∧
      Sys2Proof.Claims.Done a s t { a.core with
        tiles := a.core.tiles.set n.toNat (Sys2Proof.Claims.freshTile tile []) } a.team) ∧
  (∀ (s s1 : Sys2Proof.Machine.State) (a0 a : Sys2Proof.Machine.At) (n : BitVec 8) (tile : Sys2Proof.Machine.Tile)
    (x y x' y' : Sys2Proof.Opnd) (qs : Sys2Proof.Machine.Map Sys2Proof.Machine.Stream) (u v : Nat),
    s.at? = some a0 → u = (a0.u x').toNat → v = (a0.u y').toNat →
    s1 = s.settleRanges a0.k a0.t a0.p a0.core.nextX ((List.range 64).map fun j => ⟨false, a0.region.1 + u + j * v, 256⟩) →
    s1.at? = some a →
    a.core.tiles.get n.toNat = some tile → tile.team = a.t → tile.leaving = false →
    (∀ m ∈ a.core.mats, m.2.tile = n.toNat → m.1 < a.core.nextX → m.2.lets = true) →
    a.team.claimsAll [x, y] = true → Sys2Proof.Claims.Takes a [x, y] qs [x', y'] →
    u % 16 = 0 → v % 16 = 0 → u + 63 * v + 256 ≤ a.region.2 →
    ∃ t data, Sys2Proof.Machine.exec (.mload n x y) s = .next t ∧
      Sys2Proof.Claims.Done a s1 t { Sys2Proof.Claims.popped a [x, y] qs with
        tiles := a.core.tiles.set n.toNat (Sys2Proof.Claims.freshTile tile data) } a.team ∧
      ∀ i c, i < 64 → c < 64 → (Sys2Proof.Machine.Regs.get data (64 * i + c)).toNat =
        Sys2Proof.Machine.ofBytes (Sys2Proof.Machine.Regs.bytes a.core.shared
          (a.region.1 + u + i * v + 4 * c) 4)) ∧
  (∀ (s : Sys2Proof.Machine.State) (a : Sys2Proof.Machine.At) (d x : Sys2Proof.Opnd) (tile : Sys2Proof.Machine.Tile),
    s.at? = some a → a.team.claimsAll [d, x] = true → (a.u x).toNat < 32 →
    a.core.tiles.get (a.u x).toNat = some tile → tile.team = a.t → tile.leaving = false →
    ∃ t, Sys2Proof.Machine.exec (.mrows d x) s = .next t ∧
      Sys2Proof.Claims.Done a s t a.core (a.team.setS (Sys2Proof.Machine.num d) (BitVec.ofNat 64
        (tile.step % 2 ^ 16 * 2 ^ 16 + (if tile.run then 2 ^ 15 else 0) + (if tile.err then 2 ^ 14 else 0) +
          tile.group % 8))))

/-- R313 to R315, R249. `solicit` opens the lowest free census slot, with the census cost and the answer's bytes added
to its barrier; its payload is read once the split's earlier accesses are performed. -/
def SolicitForm : Prop :=
  ∀ (s s1 : Sys2Proof.Machine.State) (a0 a : Sys2Proof.Machine.At) (x : Sys2Proof.Opnd) (rel : Bool) (r : Nat → Nat)
    (w slot c : Nat) (ctx : Sys2Proof.Machine.Ctx) (cost : Option Nat),
    s.at? = some a0 → s1 = s.settleSplit a0.k a0.t a0.p → s1.at? = some a → s1.ctxOf a.k = some (c, ctx) → ctx.pool = true → a.team.resp = none →
    Sys2Proof.Machine.num x ≤ 56 → a.team.claimsRun 8 x = true →
    (∀ j, r j = (a.team.sreg (Sys2Proof.Machine.num x + j)).toNat) →
    (r 6 = 4 ∨ r 6 = 5) → r 2 / 2 ^ 48 = 0 → r 3 / 2 ^ 24 = 0 → r 3 / 2 ^ 8 % 2 ^ 8 = 0 → r 3 % 2 ^ 8 ≤ 6 →
    w = (if r 3 % 2 ^ 8 = 0 then 0 else if r 3 % 2 ^ 8 = 5 then r 3 / 2 ^ 16 % 2 ^ 8 + 2 else r 3 / 2 ^ 16 % 2 ^ 8) →
    (if r 3 % 2 ^ 8 = 0 then r 3 / 2 ^ 16 % 2 ^ 8 = 0 else 1 ≤ r 3 / 2 ^ 16 % 2 ^ 8 ∧ w ≤ 128) →
    (r 7 = 16 ∨ r 7 = 32 ∨ r 7 = 64) → r 2 / 2 ^ 32 % 2 ^ 16 ≤ 512 → a.barCheck (r 5) = none →
    r 2 / 2 ^ 32 % 2 ^ 16 % 4 = 0 → r 2 % 2 ^ 32 % 4 = 0 → r 4 % 16 = 0 →
    r 2 % 2 ^ 32 + r 2 / 2 ^ 32 % 2 ^ 16 ≤ a.region.2 → r 4 + (16 + 4 * w) ≤ a.region.2 →
    ctx.censuses.lowestFree 64 0 = some slot → cost = some ctx.censusCost → Sys2Proof.Claims.Admits a s1 cost →
    ∃ t b core z, Sys2Proof.Machine.exec (.solicit x rel) s = .next t ∧ b = { s1 with ctxs := b.ctxs } ∧
      (∀ j, j ≠ c → b.ctx? j = s1.ctx? j) ∧
      b.ctx? c = some { ctx with censuses := ctx.censuses.set slot z, solicits := ctx.solicits + 1 } ∧
      Sys2Proof.Claims.Opened a ctx slot r (Sys2Proof.Claims.itemOf a cost) z ∧
      Sys2Proof.Claims.Done a b t core a.team ∧
      core = { a.core with
        items := Sys2Proof.Claims.itemsOf a cost, nextX := Sys2Proof.Claims.nextOf a cost, pcAsync := core.pcAsync
        shared := Sys2Proof.Claims.charged a (r 5) (16 + 4 * w : Nat) }

/-- R319, R325. A responder that has not responded sends its answer's words, read once every access of the team is
performed, and goes on; the core keeps the answer. Where the spec leaves it open, this rests on the model's choice in
log entries 22 and 44. -/
def RespondForm : Prop :=
  ∀ (s s1 : Sys2Proof.Machine.State) (a0 a : Sys2Proof.Machine.At) (x x' : Sys2Proof.Opnd)
    (qs : Sys2Proof.Machine.Map Sys2Proof.Machine.Stream) (r : Sys2Proof.Machine.RespInfo),
    s.at? = some a0 → s1 = s.settleTeam a0.k a0.t → s1.at? = some a → a.team.claims x = true →
    Sys2Proof.Claims.Takes a [x] qs [x'] → a.team.resp = some r → r.responded = false → a.off32 x' % 4 = 0 →
    (a.off32 x' + 4 * r.words ≤ a.region.2 ∨ a.inStaging (a.off32 x') (4 * r.words) = true) →
    a.core.answers.length < 32 →
    ∃ t core words, Sys2Proof.Machine.exec (.respond x) s = .next t ∧
      Sys2Proof.Claims.Done a s1 t core { a.team with resp := some { r with responded := true } } ∧
      core = { Sys2Proof.Claims.popped a [x] qs with
        answers := a.core.answers ++ [⟨r.slot, r.ccore, r.centry, some words⟩], pcAsync := core.pcAsync } ∧
      words.length = r.words ∧ ∀ j (h : j < words.length), (words[j]).toNat =
        Sys2Proof.Machine.ofBytes (a.local' (a.off32 x' + 4 * j) 4)

/-- R310 to R312. `tile.put` fills the lowest free directory entry and reads its number; `tile.drop` frees an entry
nothing holds, answering its queued matches null, and else waits for it; `tile.move` begins a move to a core of the
context. A put and a move follow the split's earlier accesses. Where the spec leaves it open, this rests on the
model's choice in log entry 44. -/
def DirectoryForms : Prop :=
  (∀ (s s1 : Sys2Proof.Machine.State) (a0 a : Sys2Proof.Machine.At) (d x : Sys2Proof.Opnd) (r : Nat → Nat) (e clause c : Nat)
    (ctx : Sys2Proof.Machine.Ctx) (kn : Sys2Proof.Machine.Kern),
    s.at? = some a0 → s1 = s.settleSplit a0.k a0.t a0.p → s1.at? = some a → s1.ctxOf a.k = some (c, ctx) → ctx.pool = true → ctx.kernOf a.team = some kn → a.team.resp = none →
    Sys2Proof.Machine.num x ≤ 61 → a.team.claims d = true → a.team.claimsRun 3 x = true →
    (∀ j, r j = (a.team.sreg (Sys2Proof.Machine.num x + j)).toNat) →
    kn.resp[r 2]? = some clause → r 2 < 2 ^ 16 → r 1 % 2 ^ 32 % 4 = 0 → r 1 / 2 ^ 32 % 4 = 0 → 0 < r 1 / 2 ^ 32 →
    r 1 % 2 ^ 32 + r 1 / 2 ^ 32 ≤ a.region.2 → a.core.dir.lowestFree 256 0 = some e →
    ∃ t, Sys2Proof.Machine.exec (.tilePut d x) s = .next t ∧
      Sys2Proof.Claims.Done a s1 t { a.core with dir := a.core.dir.set e ⟨BitVec.ofNat 64 (r 0), r 1 / 2 ^ 32, r 1 % 2 ^ 32,
          a.team.kernel, .resident, a.team.crew, 0, 0, clause, 0, 0, false⟩ }
        (a.team.setS (Sys2Proof.Machine.num d) (BitVec.ofNat 64 e))) ∧
  (∀ (s : Sys2Proof.Machine.State) (a : Sys2Proof.Machine.At) (x x' : Sys2Proof.Opnd)
    (qs : Sys2Proof.Machine.Map Sys2Proof.Machine.Stream) (d : Sys2Proof.Machine.DirEntry),
    s.at? = some a → a.team.claims x = true → Sys2Proof.Claims.Takes a [x] qs [x'] →
    a.team.resp = none → a.core.dir.get (a.u x').toNat = some d → d.state = .resident → d.crew = a.team.crew →
    ∃ t core, Sys2Proof.Machine.exec (.tileDrop x) s = .next t ∧
      core = { Sys2Proof.Claims.popped a [x] qs with
        dir := core.dir, answers := core.answers, spawnQ := a.core.spawnQ.filter fun m => m.entry != (a.u x').toNat } ∧
      core.answers = a.core.answers ++ (a.core.spawnQ.filter fun m => m.entry == (a.u x').toNat).map
        (fun m => ⟨m.slot, m.ccore, m.centry, none⟩) ∧
      (∀ j, j ≠ (a.u x').toNat → core.dir.get j = a.core.dir.get j) ∧
      (if s.dropFree a.k (a.u x').toNat then
        core.dir.get (a.u x').toNat = none ∧ Sys2Proof.Claims.Done a s t core a.team
       else core.dir.get (a.u x').toNat = some { d with dropping := true } ∧
        Sys2Proof.Claims.Leaves a s t core a.team (Sys2Proof.Claims.Waits a (.drop (a.u x').toNat)))) ∧
  (∀ (s s1 : Sys2Proof.Machine.State) (a0 a : Sys2Proof.Machine.At) (x y y' : Sys2Proof.Opnd)
    (qs : Sys2Proof.Machine.Map Sys2Proof.Machine.Stream) (e target toff c slot te : Nat) (ctx : Sys2Proof.Machine.Ctx)
    (d : Sys2Proof.Machine.DirEntry) (co : Sys2Proof.Machine.Core) (w : Sys2Proof.Machine.Crew),
    s.at? = some a0 → s1 = s.settleSplit a0.k a0.t a0.p → s1.at? = some a → s1.ctxOf a.k = some (c, ctx) →
    a.team.claimsRun 2 x = true → a.team.claimsAll [x, y] = true →
    Sys2Proof.Claims.Takes a [y] qs [y'] → Sys2Proof.Machine.num x ≤ 62 → a.team.resp = none →
    e = (a.team.sreg (Sys2Proof.Machine.num x)).toNat →
    target = (a.team.sreg (Sys2Proof.Machine.num x + 1)).toNat % 2 ^ 32 →
    toff = (a.team.sreg (Sys2Proof.Machine.num x + 1)).toNat / 2 ^ 32 →
    a.core.dir.get e = some d → d.state = .resident → d.dropping = false → d.crew = a.team.crew → target ≠ a.k →
    target ∈ ctx.cores → toff % 4 = 0 → a.barCheck (a.u y').toNat = none → s1.core? target = some co →
    co.lowestCrew d.kernel = some (slot, w) → co.dir.lowestFree 256 0 = some te → toff + d.length ≤ w.size →
    ∃ t b core op, Sys2Proof.Machine.exec (.tileMove x y) s = .next t ∧ b = { s1 with cores := b.cores } ∧
      (∀ j, j ≠ target → j ≠ a.k → b.core? j = s1.core? j) ∧
      b.core? target = some { co with dir := co.dir.set te (Sys2Proof.Claims.arriving d toff slot a.k e) } ∧
      Sys2Proof.Claims.Done a b t core a.team ∧
      core = { Sys2Proof.Claims.popped a [y] qs with
        dir := a.core.dir.set e { d with state := .movingOut, peer := target, pentry := te }
        shared := Sys2Proof.Claims.charged a (a.u y').toNat d.length, asyncs := a.core.asyncs.set a.core.nextX op
        nextX := a.core.nextX + 1, pcAsync := core.pcAsync } ∧
      op.kind = .move e target te toff ∧ op.team = a.t ∧ op.order = a.team.order ∧
      op.bar = a.region.1 + (a.u y').toNat ∧ op.afterW = a.team.fenceW ∧ op.rel = true ∧ op.scope = 5)

/-- R288, R290, R249, R205. Behind the split's earlier accesses, `seq.add` without `cmt` starts one operation of eight
bytes on the counter; with `cmt` it joins the team's commit list with its cost; an amount of 0 adds nothing. `seq.rd`
starts one free operation. Where the spec leaves it open, this rests on the model's choice in log entries 20 and 32.
-/
def CounterForms : Prop :=
  (∀ (s s1 : Sys2Proof.Machine.State) (a0 a : Sys2Proof.Machine.At) (x y : Sys2Proof.Opnd) (par : Sys2Proof.SeqPar) (c : Nat)
    (ctx : Sys2Proof.Machine.Ctx) (cost : Option Nat),
    s.at? = some a0 → s1 = s.settleSplit a0.k a0.t a0.p → s1.at? = some a → s1.ctxOf a.k = some (c, ctx) → a.team.claimsAll [x, y] = true → (a.u x).toNat % 8 = 0 →
    (a.u y).toNat < 2 ^ 63 → (par.cmt = false → a.team.claimsBar par.bar = true) → cost = some (ctx.drainCost 8) →
    ((a.u y).toNat = 0 → ∃ t core, Sys2Proof.Machine.exec (.seqAdd x y par) s = .next t ∧
      core = { a.core with pcAsync := core.pcAsync } ∧ Sys2Proof.Claims.Done a s1 t core a.team) ∧
    ((a.u y).toNat ≠ 0 → par.cmt = false → a.barCheck (a.barOff par.bar) = none → a.core.packets < 512 →
      Sys2Proof.Claims.Admits a s1 cost →
      ∃ t, Sys2Proof.Machine.exec (.seqAdd x y par) s = .next t ∧
        Sys2Proof.Claims.Started a s1 t cost (a.barOff par.bar) 8 a.streams fun op =>
          op.kind = .seqAdd (a.u y).toNat ∧ op.rel = par.rel ∧ op.scope = par.scope.toNat ∧
          Sys2Proof.Claims.Carries a s1 op [⟨0, (a.u x).toNat, 0, 8, 0, [], false, []⟩]) ∧
    ((a.u y).toNat ≠ 0 → par.cmt = true → (∀ e ∈ a.team.commit, e.va ≠ (a.u x).toNat) → a.team.commit.length < 16 →
      Sys2Proof.Claims.Admits a s1 cost →
      ∃ t core, Sys2Proof.Machine.exec (.seqAdd x y par) s = .next t ∧
        core = { a.core with
          items := Sys2Proof.Claims.itemsOf a cost, nextX := Sys2Proof.Claims.nextOf a cost, pcAsync := core.pcAsync } ∧
        Sys2Proof.Claims.Done a s1 t core { a.team with commit := a.team.commit ++
          [⟨(a.u x).toNat, (a.u y).toNat, (Sys2Proof.Claims.itemOf a cost).toList, false, a.k⟩] }) ∧
    (∀ l r e, (a.u y).toNat ≠ 0 → par.cmt = true → a.team.commit = l ++ e :: r → e.va = (a.u x).toNat →
      (∀ b ∈ l ++ r, b.va ≠ e.va) → Sys2Proof.Claims.Admits a s1 cost →
      ∃ t core, Sys2Proof.Machine.exec (.seqAdd x y par) s = .next t ∧
        core = { a.core with
          items := Sys2Proof.Claims.itemsOf a cost, nextX := Sys2Proof.Claims.nextOf a cost, pcAsync := core.pcAsync } ∧
        Sys2Proof.Claims.Done a s1 t core { a.team with commit := l ++ { e with
          amt := min (e.amt + (a.u y).toNat) (2 ^ 64 - 1)
          items := e.items ++ (Sys2Proof.Claims.itemOf a cost).toList, core := a.k } :: r })) ∧
  (∀ (s s1 : Sys2Proof.Machine.State) (a0 a : Sys2Proof.Machine.At) (d x y : Sys2Proof.Opnd),
    s.at? = some a0 → s1 = s.settleSplit a0.k a0.t a0.p → s1.at? = some a →
    a.team.claimsAll [d, x, y] = true → a.split.prepaid = none → a.barCheck (a.u y).toNat = none →
    a.off32 d % 8 = 0 → a.off32 d + 8 ≤ a.region.2 → (a.u x).toNat % 8 = 0 → a.core.packets < 512 →
    ∃ t, Sys2Proof.Machine.exec (.seqRd d x y) s = .next t ∧
      Sys2Proof.Claims.Started a s1 t none (a.u y).toNat 8 a.streams fun op => op.kind = .seqRd ∧
        Sys2Proof.Claims.Carries a s1 op [⟨0, (a.u x).toNat, a.region.1 + a.off32 d, 8, 0, [], false, []⟩])

/-- R292 to R294. Behind the split's earlier accesses, `rec.pop` joins its queue's pending pops with 64 bytes added to
its barrier; a crew that the queue's binding placed no longer counts as a pop. `rec.push` waits for the queue engine
with its cost entered; the engine, with room in the queue, reserves the next slot and sends the record read from the
crew's region. Where the spec leaves it open, this rests on the model's choice in log entries 20 and 32. -/
def RecordForms : Prop :=
  (∀ (s s1 : Sys2Proof.Machine.State) (a0 a : Sys2Proof.Machine.At) (d x y : Sys2Proof.Opnd) (c q : Nat)
    (ctx : Sys2Proof.Machine.Ctx) (rq : Sys2Proof.Machine.RecQueue),
    s.at? = some a0 → s1 = s.settleSplit a0.k a0.t a0.p → s1.at? = some a → s1.ctxOf a.k = some (c, ctx) → a.team.claimsAll [d, x, y] = true → q = (a.u x).toNat →
    a.off32 d % 16 = 0 → q % 64 = 0 → a.off32 d + 64 ≤ a.region.2 → a.barCheck (a.u y).toNat = none →
    s1.recq? c q = some rq → a.core.packets < 512 →
    ∃ t b core op rq', Sys2Proof.Machine.exec (.recPop d x y) s = .next t ∧
      b = { s1 with ctxs := b.ctxs, mem := b.mem, plots := b.plots, portOld := b.portOld } ∧ Sys2Proof.Claims.Done a b t core a.team ∧
      core = { a.core with
        asyncs := a.core.asyncs.set a.core.nextX op, nextX := a.core.nextX + 1, pcAsync := core.pcAsync
        shared := Sys2Proof.Claims.charged a (a.u y).toNat 64, crews := core.crews } ∧
      (∀ u, core.crews.get u = (a.core.crews.get u).map fun w =>
        if u = a.team.crew ∧ w.credit = some q then { w with credit := none } else w) ∧
      op.kind = .recPop q ∧ op.team = a.t ∧ op.order = a.team.order ∧ op.bar = a.region.1 + (a.u y).toNat ∧
      op.parts.flatMap (·.accs) = [⟨0, 0, a.region.1 + a.off32 d, 64, 0, [], false, []⟩] ∧
      b.recq? c q = some rq' ∧ rq'.pops = rq.pops ++ [⟨a.k, a.core.nextX, a.team.kernel⟩] ∧ rq'.head = rq.head ∧
      rq'.tail = rq.tail ∧ rq'.pub = rq.pub ∧
      (rq.bind = false → (∀ w, a.core.crews.get a.team.crew = some w → w.credit ≠ some q) →
        ∀ p, (∀ f, s1.translate c (q + 0x10) .w = .pa f → p < f ∨ f + 24 ≤ p) →
          Sys2Proof.Machine.Memory.get t.mem p = Sys2Proof.Machine.Memory.get s.mem p)) ∧
  (∀ (s s1 : Sys2Proof.Machine.State) (a0 a : Sys2Proof.Machine.At) (d x y : Sys2Proof.Opnd) (c q : Nat)
    (ctx : Sys2Proof.Machine.Ctx) (rq : Sys2Proof.Machine.RecQueue) (cost : Option Nat),
    s.at? = some a0 → s1 = s.settleSplit a0.k a0.t a0.p → s1.at? = some a → s1.ctxOf a.k = some (c, ctx) → a.team.claimsAll [d, x, y] = true → q = (a.u x).toNat →
    a.off32 d % 16 = 0 → q % 64 = 0 → a.off32 d + 64 ≤ a.region.2 → a.barCheck (a.u y).toNat = none →
    s1.recq? c q = some rq → a.core.packets < 512 → cost = some (ctx.drainCost 64) → Sys2Proof.Claims.Admits a s1 cost →
    ∃ t, Sys2Proof.Machine.exec (.recPush d x y) s = .next t ∧
      Sys2Proof.Claims.Blocked a s1 t { a.core with
        items := Sys2Proof.Claims.itemsOf a cost, nextX := Sys2Proof.Claims.nextOf a cost }
        (.recPush q (a.off32 d) (a.u y).toNat (Sys2Proof.Claims.itemOf a cost))) ∧
  (∀ (s : Sys2Proof.Machine.State) (k t p q off bar c : Nat) (item : Option Nat) (tm : Sys2Proof.Machine.Team)
    (sp : Sys2Proof.Machine.Split) (cl : Sys2Proof.Machine.Clause) (ctx : Sys2Proof.Machine.Ctx)
    (co : Sys2Proof.Machine.Core) (w : Sys2Proof.Machine.Crew) (rq : Sys2Proof.Machine.RecQueue),
    s.core? k = some co → co.teams.get t = some tm → tm.splits.get p = some sp → s.ctxOf k = some (c, ctx) →
    sp.state = .waiting → sp.wait = .recPush q off bar item → sp.clause = some cl → tm.mayIssue p = true →
    s.coreIssues k = true → co.crews.get tm.crew = some w → s.recq? c q = some rq → tm.resp = none →
    rq.tail - rq.head < rq.size →
    ∃ u op rq' sp', Sys2Proof.Machine.exec (.recPushEngineAnswer k t p) s = .next u ∧
      u.recq? c q = some rq' ∧ rq'.tail = rq.tail + 1 ∧ rq'.head = rq.head ∧ rq'.pub = rq.pub ∧
      u.async? k co.nextX = some op ∧ op.kind = .recPush q rq.tail ∧ op.item = item ∧ op.bar = w.base + bar ∧
      (op.parts.flatMap (·.accs)).map (fun y => (y.va, y.data)) =
        [(rq.ring + 64 * (rq.tail % rq.size), Sys2Proof.Machine.Regs.bytes co.shared (w.base + off) 64)] ∧
      u.split? k t p = some sp' ∧ sp'.state = .ready)

/-- R261, R256, R269. `csr.rd` of an address below 0x800 reads the register into D, and a read of `tword` moves
`tslot` on; `csr.wr`, `csr.set` and `csr.clr` replace the writable bits of a register of the team or the core, and of
`bwphase` by a write that waits to be adopted (R233); nothing else changes. -/
def CsrForms : Prop :=
  (∀ (s : Sys2Proof.Machine.State) (a : Sys2Proof.Machine.At) (d : Sys2Proof.Opnd) (n : BitVec 12),
    s.at? = some a → a.team.claims d = true → n.toNat < 0x800 →
    ∃ t, Sys2Proof.Machine.exec (.csrRd d n) s = .next t ∧
      Sys2Proof.Claims.Done a s t a.core
        ({ a.team with tslot := if n = 0x035 then a.team.tslot + 1 else a.team.tslot }.setS (Sys2Proof.Machine.num d)
          (s.csr a.k a.t n.toNat))) ∧
  (∀ (s : Sys2Proof.Machine.State) (a : Sys2Proof.Machine.At) (i : Sys2Proof.Instr) (d : Sys2Proof.Opnd) (n : BitVec 12)
    (f : Sys2Proof.W64 → Sys2Proof.W64 → Sys2Proof.W64) (v : Sys2Proof.W64),
    s.at? = some a → Sys2Proof.Claims.csrForm i = some (d, n, f) → a.team.claims d = true → n.toNat < 0x800 →
    n ≠ 0x020 → n ≠ 0x061 →
    v = Sys2Proof.Claims.masked (Sys2Proof.Machine.csrMask n.toNat) (s.csr a.k a.t n.toNat)
      (f (s.csr a.k a.t n.toNat) (a.u d)) →
    Sys2Proof.Machine.csrLimit n.toNat v = true →
    ∃ t, Sys2Proof.Machine.exec i s = .next t ∧
      Sys2Proof.Claims.Done a s t (a.core.setCsr s.tstamp n.toNat v) (a.team.setCsr n.toNat v)) ∧
  (∀ (s : Sys2Proof.Machine.State) (a : Sys2Proof.Machine.At) (i : Sys2Proof.Instr) (d : Sys2Proof.Opnd)
    (f : Sys2Proof.W64 → Sys2Proof.W64 → Sys2Proof.W64),
    s.at? = some a → Sys2Proof.Claims.csrForm i = some (d, 0x061, f) → a.team.claims d = true →
    ∃ t c, Sys2Proof.Machine.exec i s = .next t ∧ t.core? a.k = some c ∧
      c.pcIssue = f (s.csr a.k a.t 0x061) (a.u d)) ∧
  (∀ (s : Sys2Proof.Machine.State) (a : Sys2Proof.Machine.At) (i : Sys2Proof.Instr) (d : Sys2Proof.Opnd)
    (f : Sys2Proof.W64 → Sys2Proof.W64 → Sys2Proof.W64) (c : Nat) (ctx : Sys2Proof.Machine.Ctx) (old v : BitVec 2),
    s.at? = some a → s.ctxOf a.k = some (c, ctx) → Sys2Proof.Claims.csrForm i = some (d, 0x020, f) →
    a.team.claims d = true → old = (ctx.bwWrites.getLast?.map (·.level)).getD ctx.bwLevel →
    v = (f (old.zeroExtend 64) (a.u d)).truncate 2 →
    ∃ t b, Sys2Proof.Machine.exec i s = .next t ∧ b = { s with ctxs := b.ctxs } ∧ (∀ j, j ≠ c → b.ctx? j = s.ctx? j) ∧
      b.ctx? c = some { ctx with bwWrites := ctx.bwWrites ++ [⟨v, a.k, a.t, a.p⟩] } ∧
      Sys2Proof.Claims.Done a b t a.core a.team)

/-- R62, R2, R23, R256, R269, R169, R174, R326. What a read of some CSRs gives a team of core `k` in context `c`.
Where the spec leaves it open, this rests on the model's choice in log entry 38. -/
def CsrValues : Prop :=
  ∀ (s : Sys2Proof.Machine.State) (k t c : Nat) (co : Sys2Proof.Machine.Core) (tm : Sys2Proof.Machine.Team)
    (ctx : Sys2Proof.Machine.Ctx),
    s.core? k = some co → co.teams.get t = some tm → s.ctxOf k = some (c, ctx) →
    s.csr k t 0x000 = 0x43201000 ∧ s.csr k t 0x002 = BitVec.ofNat 64 c ∧
    s.csr k t 0x010 = BitVec.ofNat 64 ctx.bound ∧ s.csr k t 0x012 = BitVec.ofNat 64 (s.estOf k % 2 ^ 32) ∧
    s.csr k t 0x020 = ctx.bwLevel.zeroExtend 64 ∧ s.csr k t 0x030 = tm.tvec ∧
    s.csr k t 0x023 = (if co.heldPlots = [] then co.wakens else co.wakens + (s.tstamp - co.heldFrom)) ∧
    s.csr k t 0x031 = tm.tcause.zeroExtend 64 ∧ s.csr k t 0x032 = tm.tpc ∧
    s.csr k t 0x033 = tm.tslot.zeroExtend 64 ∧ s.csr k t 0x034 = tm.tgrade.zeroExtend 64 ∧
    s.csr k t 0x03E = (if tm.inv then 1 else 0) ∧ s.csr k t 0x041 = co.trbase ∧ s.csr k t 0x042 = co.trsize ∧
    s.csr k t 0x043 = co.trhead ∧ s.csr k t 0x045 = co.trlost ∧ s.csr k t 0x060 = co.pcCtl ∧
    s.csr k t 0x061 = co.pcIssue ∧ s.csr k t 0x067 = co.pcSplit ∧
    (s.csr k t 0x001).toNat = (k / 80 * 2 ^ 16 + k % 80 / 8 * 2 ^ 12 + k % 8 * 2 ^ 9 + k) % 2 ^ 64 ∧
    (s.csr k t 0x081).toNat = 256 - co.dir.length ∧ (s.csr k t 0x083).toNat = 32 - co.answers.length

/-- R269, R169. The CSR steps that have a name of their own: the read of `tword` gives word `tslot` of the side buffer
and moves `tslot` on; the write of `trbase` restarts the ring's count of records. Where the spec leaves it open, this
rests on the model's choice in log entries 25 and 39. -/
def NamedCsrSteps : Prop :=
  (∀ (s : Sys2Proof.Machine.State) (a : Sys2Proof.Machine.At) (d : Sys2Proof.Opnd),
    s.at? = some a → a.team.claims d = true →
    ∃ t, Sys2Proof.Machine.exec (.twordRead d) s = .next t ∧
      Sys2Proof.Claims.Done a s t a.core ({ a.team with tslot := a.team.tslot + 1 }.setS (Sys2Proof.Machine.num d)
        (a.team.side.word a.team.tslot.toNat))) ∧
  (∀ (s : Sys2Proof.Machine.State) (a : Sys2Proof.Machine.At) (d : Sys2Proof.Opnd),
    s.at? = some a → a.team.claims d = true → (a.u d).toNat % 64 = 0 →
    ∃ t, Sys2Proof.Machine.exec (.trbaseWrite d) s = .next t ∧
      Sys2Proof.Claims.Done a s t { a.core with trbase := a.u d, trhead := 0, trPend := [] } a.team)

/-- R62 (derived: the resident kernel's interface is not in the spec). Privileged code at a CSR of 0x800 or above that
the interface defines stops under its own name, and at one that it does not define traps 0x0003; which it defines is a
free value (log entry 79). Code that is not privileged traps 0x0004, and the team is Held or stopped. Where the spec
leaves it open, this rests on the model's choice in log entry 13. -/
def PrivilegedCsrs : Prop :=
  ∀ (s : Sys2Proof.Machine.State) (a : Sys2Proof.Machine.At) (i : Sys2Proof.Instr) (d : Sys2Proof.Opnd) (n : BitVec 12),
    s.at? = some a → (i = .csrRd d n ∨ ∃ f, Sys2Proof.Claims.csrForm i = some (d, n, f)) → 0x800 ≤ n.toNat →
    (a.team.priv = true → Sys2Proof.Config.rkCsr n.toNat = true →
      Sys2Proof.Machine.exec i s = .refused (.privilegedCsr n.toNat)) ∧
    (a.team.priv = true → Sys2Proof.Config.rkCsr n.toNat = false → a.team.claims d = true → a.split.prepaid = none →
      Sys2Proof.Machine.exec i s =
        .next (s.trap a.k a.t a.p { code := 0x0003 } a.pc a.pc a.cl.h a.cl.hdr a.cl.pos)) ∧
    (a.team.priv = false → a.team.claims d = true → a.team.att = false →
      ∃ t, Sys2Proof.Machine.exec i s = .next t ∧ t = { s with cores := t.cores } ∧
        (∀ j, j ≠ a.k → t.core? j = s.core? j) ∧
        t.team? a.k a.t = some { a.team with state := .held, fault := some ⟨0x0004, a.p, a.pc, 0, 0, s.tstamp⟩ }) ∧
    (a.team.priv = false → a.team.claims d = true → a.team.att = true →
      ∃ t m, Sys2Proof.Machine.exec i s = .next t ∧ t.team? a.k a.t = some m ∧ m.state = .stopped ∧
        m.fault = some ⟨0x0004, a.p, a.pc, 0, 0, s.tstamp⟩)

/-- R264 to R267, R270, R271, R178. Taking a trap in split `p` of a team. Routed to the handler (`tvec` set, the team
Active), it saves the split's masks and the position, the cause, the grade and `tpc`, fills the side buffer, and goes
to the vector of its class with the mask of the failing lanes; in every other case the team is Held, and with a
debugger attached it stops. Everything else is as before. -/
def TrapEntry : Prop :=
  ∀ (s : Sys2Proof.Machine.State) (k t p : Nat) (tr : Sys2Proof.Machine.Trap) (pc resume h : Sys2Proof.W64)
    (hdr : Sys2Proof.W32) (w : Nat) (c : Sys2Proof.Machine.Core) (tm : Sys2Proof.Machine.Team)
    (sp : Sys2Proof.Machine.Split) (failing : Sys2Proof.Mask) (u : Sys2Proof.Machine.State),
    s.core? k = some c → c.teams.get t = some tm → tm.splits.get p = some sp →
    (∀ l, l < 1024 → failing.getLsbD l = tr.lanes.any fun e => e.1 == l) →
    u = s.trap k t p tr pc resume h hdr w →
    if tm.att = true then ∃ m, u.team? k t = some m ∧ m.state = .stopped ∧
      m.prev = (if tm.state = .stopped then tm.prev else tm.state) ∧
      m.fault = some ⟨BitVec.ofNat 16 tr.code, p, pc, BitVec.ofNat 64 tr.info,
        if tr.code = 0x0303 then tm.side.mask else failing, s.tstamp⟩
    else u = { s with cores := u.cores } ∧ (∀ j, j ≠ k → u.core? j = s.core? j) ∧
    ∃ c' m, u.core? k = some c' ∧ c' = { c with teams := c'.teams } ∧
      (∀ j, j ≠ t → c'.teams.get j = c.teams.get j) ∧ c'.teams.get t = some m ∧
      (tm.state = .active ∧ tm.tvec ≠ 0 ∧ tr.code ≠ 0x0004 ∧ tr.code ≠ 0x0301 ∧ tr.code ≠ 0x0304 →
        m = { tm with state := .handler p, tcause := BitVec.ofNat 16 tr.code, tgrade := m.tgrade, tpc := resume,
                      side := m.side, splits := m.splits } ∧
        m.tgrade = (if tr.code ∈ [0x0302, 0x0303, 0x0304, 0x0604] then 1
          else if tr.code ∈ [0x0310, 0x0311, 0x0312] then 2 else 0) ∧
        (∀ q, q ≠ p → m.splits.get q = tm.splits.get q) ∧
        m.splits.get p = some { sp with
          pc := tm.tvec + BitVec.ofNat 64 (tr.code / 256 * 0x200), state := .ready, wait := .none, clause := none,
          transfer := true, waited := false, popped := none, frame := some ⟨sp.exec, sp.live, h, hdr, w, sp.popped⟩,
          exec := if tr.code = 0x0303 ∧ tm.side.mask ≠ 0 then tm.side.mask &&& sp.exec
            else if tr.lanes = [] then sp.exec else failing &&& sp.exec } ∧
        m.side.code = BitVec.ofNat 16 tr.code ∧ m.side.grade = m.tgrade ∧ m.side.split = p ∧ m.side.pc = pc ∧
        m.side.info = BitVec.ofNat 64 tr.info ∧
        (tr.code ≠ 0x0303 → m.side.info2 = BitVec.ofNat 64 tr.info2 ∧ m.side.mask = failing ∧
          m.side.overrun = tm.side.fresh ∧ m.side.detail = (tr.lanes.take 32).map fun l =>
            (l.1, BitVec.ofNat 64 (l.2.1 % 16 * 2 ^ 60 + l.2.2 % 2 ^ 57))) ∧
        (tr.code = 0x0303 → m.side.mask = tm.side.mask ∧ m.side.overrun = tm.side.overrun ∧ m.side.fresh = false)) ∧
      (tm.state ≠ .active ∨ tm.tvec = 0 ∨ tr.code ∈ [0x0004, 0x0301, 0x0304] →
        m = { tm with state := .held, fault := some ⟨BitVec.ofNat 16 tr.code, p, pc, BitVec.ofNat 64 tr.info,
          if tr.code = 0x0303 then tm.side.mask else failing, s.tstamp⟩ })

/-- R135, R151, R155, R265. Misaligned and out-of-region accesses. A word of the LOC class with a lane that is not
aligned traps 0x0201, and else with a lane outside the crew's region 0x0202, or outside the die window 0x0301, with
those lanes, their addresses and the reason. A transfer traps for its barrier first, then for the lanes whose local
words are not aligned or outside the region; a block traps for a misaligned length, address or offset, and then for
its region or a length above 524288. The trapped word has no other effect. -/
def AccessFaults : Prop :=
  (∀ (s : Sys2Proof.Machine.State) (a : Sys2Proof.Machine.At) (i : Sys2Proof.Instr) (die : Bool)
    (touch : Sys2Proof.Machine.Touch) (size : Nat) (es : List (Nat × Nat)),
    s.at? = some a → Sys2Proof.Claims.LocalWord a i die touch size es →
    ((∃ e ∈ es, e.2 % size ≠ 0) → Sys2Proof.Machine.exec i s = .next (Sys2Proof.Claims.trapped a s
      { code := 0x0201, lanes := (es.filter fun e => e.2 % size != 0).map fun e => (e.1, 5, e.2) })) ∧
    ((∀ e ∈ es, e.2 % size = 0) → die = false → (∃ e ∈ es, a.inShared touch size e = false) →
      Sys2Proof.Machine.exec i s = .next (Sys2Proof.Claims.trapped a s
        { code := 0x0202, lanes := (es.filter fun e => a.inShared touch size e == false).map fun e => (e.1, 6, e.2) })) ∧
    ((∀ e ∈ es, e.2 % size = 0) → die = true → (∃ e ∈ es, (a.window s).2 < e.2 + size) →
      Sys2Proof.Machine.exec i s = .next (Sys2Proof.Claims.trapped a s
        { code := 0x0301, lanes := (es.filter fun e => (a.window s).2 < e.2 + size).map fun e => (e.1, 2, e.2) }))) ∧
  (∀ (s : Sys2Proof.Machine.State) (a : Sys2Proof.Machine.At) (i : Sys2Proof.Instr) (kind : Sys2Proof.Machine.AKind)
    (costed : Bool) (extra size off b : Nat) (d x y d' x' : Sys2Proof.Opnd)
    (par : Sys2Proof.XPar) (qs : Sys2Proof.Machine.Map Sys2Proof.Machine.Stream) (at' : Nat → Nat) (out : Nat → Prop)
    (ls : List Nat),
    s.at? = some a → Sys2Proof.Claims.xferForm i = some (kind, costed, extra, d, x, y, par) →
      a.team.claimsBar par.bar = true →
    a.team.claimsAll [d, x, y] = true → Sys2Proof.Claims.Takes a [x, d] qs [x', d'] → size = 2 ^ par.size.toNat →
    off = a.off32 d' → b = a.barOff par.bar → (∀ l, at' l = off + l * size) →
    (∀ l, out l ↔ a.region.2 < at' (extra * a.team.lanes + l) + size ∧
      ¬ (kind = .scatter ∧ a.inStaging (at' l) size = true)) →
    (b % 16 ≠ 0 → Sys2Proof.Machine.exec i s = .next (Sys2Proof.Claims.trapped a s { code := 0x0201 })) ∧
    (b % 16 = 0 → a.region.2 < b + 16 →
      Sys2Proof.Machine.exec i s = .next (Sys2Proof.Claims.trapped a s { code := 0x0202 })) ∧
    (b % 16 = 0 → b + 16 ≤ a.region.2 →
      (off % size ≠ 0 → a.lanes ≠ [] → Sys2Proof.Machine.exec i s = .next (Sys2Proof.Claims.trapped a s
        { code := 0x0201, lanes := a.lanes.map fun l => (l, 5, at' l) })) ∧
      (off % size = 0 → (∃ l ∈ a.lanes, out l) → ls.Sublist a.lanes → (∀ l ∈ a.lanes, l ∈ ls ↔ out l) →
 
            Sys2Proof.Machine.exec i s = .next (Sys2Proof.Claims.trapped a s { code := 0x0202, lanes := ls.map fun l => (l, 6, at' l) })))) ∧
  (∀ (s : Sys2Proof.Machine.State) (a : Sys2Proof.Machine.At) (i : Sys2Proof.Instr) (store : Bool) (va len off b : Nat)
    (d x y d' x' y' : Sys2Proof.Opnd) (par : Sys2Proof.XPar)
    (qs : Sys2Proof.Machine.Map Sys2Proof.Machine.Stream),
    s.at? = some a → Sys2Proof.Claims.blkForm i = some (store, d, x, y, par) → a.team.claimsBar par.bar = true →
    a.team.claimsAll [d, x, y] = true → Sys2Proof.Claims.Takes a [x, y, d] qs [x', y', d'] → va = (a.u x').toNat →
    len = a.off32 y' → off = a.off32 d' → b = a.barOff par.bar →
    (b % 16 ≠ 0 → Sys2Proof.Machine.exec i s = .next (Sys2Proof.Claims.trapped a s { code := 0x0201 })) ∧
    (b % 16 = 0 → a.region.2 < b + 16 →
      Sys2Proof.Machine.exec i s = .next (Sys2Proof.Claims.trapped a s { code := 0x0202 })) ∧
    (b % 16 = 0 → b + 16 ≤ a.region.2 →
      (len % 4 ≠ 0 ∨ va % 4 ≠ 0 ∨ off % 4 ≠ 0 →
      Sys2Proof.Machine.exec i s = .next (Sys2Proof.Claims.trapped a s { code := 0x0201 })) ∧
      (len % 4 = 0 → va % 4 = 0 → off % 4 = 0 →
        524288 < len ∨ (a.region.2 < off + len ∧ ¬ (store = true ∧ a.inStaging off len = true)) →
        Sys2Proof.Machine.exec i s = .next (Sys2Proof.Claims.trapped a s { code := 0x0202 }))))

/-- R270. The words of the side buffer: word 0 holds the code, the grade and the split, words 1 to 3 the addresses of
the fault, words 16 to 31 the lane mask, and words 32 to 63 the detail entries in lane order. -/
def SideBufferWords : Prop :=
  ∀ (b : Sys2Proof.Machine.SideBuf), b.split < 16 →
    (b.word 0).extractLsb' 0 16 = b.code ∧ (b.word 0).extractLsb' 16 2 = b.grade ∧
    (b.word 0).getLsbD 18 = b.overrun ∧ (b.word 0).getLsbD 19 = b.late ∧
    ((b.word 0).extractLsb' 20 4).toNat = b.split ∧
    ((b.word 0).extractLsb' 32 32).toNat = ((List.range 1024).filter fun l => b.mask.getLsbD l).length ∧
    b.word 1 = b.pc ∧ b.word 2 = b.info ∧ b.word 3 = b.info2 ∧ b.word 4 = b.bdetail ∧
    (∀ l, l < 1024 → (b.word (16 + l / 64)).getLsbD (l % 64) = b.mask.getLsbD l) ∧
    ∀ j, (b.word (32 + j)) = ((b.detail[j]?).map (·.2)).getD 0

/-- R176, R255. `tstamp` reads the package timestamp; `cede` takes its amount from its core's allowance and sends it
as a credit, and has no effect for an amount of 0 or for its own core. -/
def TimestampAndCede : Prop :=
  (∀ (s : Sys2Proof.Machine.State) (a : Sys2Proof.Machine.At) (d : Sys2Proof.Opnd), s.at? = some a →
    a.team.claims d = true →
    ∃ t, Sys2Proof.Machine.exec (.tstamp d) s = .next t ∧
      Sys2Proof.Claims.Done a s t a.core (a.team.setS (Sys2Proof.Machine.num d) s.tstamp)) ∧
  (∀ (s : Sys2Proof.Machine.State) (a : Sys2Proof.Machine.At) (x y : Sys2Proof.Opnd) (c dst k : Nat)
    (ctx : Sys2Proof.Machine.Ctx),
    s.at? = some a → s.ctxOf a.k = some (c, ctx) → a.team.claimsAll [x, y] = true → dst = (a.u x).toNat % 2 ^ 32 →
    k = (a.u y).toNat % 2 ^ 32 → dst < 320 → dst ∈ ctx.cores →
    ((k = 0 ∨ dst = a.k) → ∃ t, Sys2Proof.Machine.exec (.cede x y) s = .next t ∧
      Sys2Proof.Claims.Done a s t a.core a.team) ∧
    (k ≠ 0 → dst ≠ a.k → s.estOf a.k + k ≤ a.core.allow →
      ∃ t b, Sys2Proof.Machine.exec (.cede x y) s = .next t ∧ b = { s with ctxs := b.ctxs } ∧
        (∀ j, j ≠ c → b.ctx? j = s.ctx? j) ∧
        b.ctx? c = some { ctx with credits := ctx.credits ++ [⟨a.k, dst, k⟩] } ∧
        Sys2Proof.Claims.Done a b t { a.core with allow := a.core.allow - k } a.team))

/-- R247, R255. The resident kernel writes an allowance while the context is Created, Saved or Restoring and F + Σ A
stays within B, and not where it would not; a core that its record has added since joins with it; a ceded credit
reaches its core. Where the spec leaves it open, this rests on the model's choice in log entry 43. -/
def AllowancesAndCredits : Prop :=
  (∀ (s : Sys2Proof.Machine.State) (c k a others : Nat) (x : Sys2Proof.Machine.Ctx) (co : Sys2Proof.Machine.Core),
    s.ctx? c = some x → s.rkUp = true → x.state = .created ∨ x.state = .saved → x.saved.get k = some co →
    others = ((x.saved.filter fun e => e.1 != k).map fun e => e.2.allow).sum →
    Sys2Proof.Machine.exec (.allowanceWrite c k a) s = .next (if x.fix + others + a ≤ x.bound then
      s.updCtx c fun _ => { x with saved := x.saved.set k { co with allow := a } } else s)) ∧
  (∀ (s : Sys2Proof.Machine.State) (c k a others : Nat) (x y : Sys2Proof.Machine.Ctx) (co : Sys2Proof.Machine.Core),
    s.ctx? c = some x → s.rkUp = true → x.state = .created ∨ x.state = .saved → x.saved.get k = none →
    s.rereadCtx c x = some y → y.saved.get k = some co →
    others = ((y.saved.filter fun e => e.1 != k).map fun e => e.2.allow).sum →
    Sys2Proof.Machine.exec (.allowanceWrite c k a) s = .next (if y.fix + others + a ≤ y.bound then
      s.updCtx c fun _ => { y with saved := y.saved.set k { co with allow := a } } else s)) ∧
  (∀ (s : Sys2Proof.Machine.State) (c k a others : Nat) (x : Sys2Proof.Machine.Ctx) (co : Sys2Proof.Machine.Core),
    s.ctx? c = some x → s.rkUp = true → x.state = .restoring → s.core? k = some co → co.ctx = some c →
    others = ((s.cores.filter fun e => e.2.ctx == some c && e.1 != k).map fun e => e.2.allow).sum →
    Sys2Proof.Machine.exec (.allowanceWrite c k a) s = .next (if x.fix + others + a ≤ x.bound then
      s.updCore k fun _ => { co with allow := a } else s)) ∧
  (∀ (s : Sys2Proof.Machine.State) (c src dst : Nat) (x : Sys2Proof.Machine.Ctx) (e : Sys2Proof.Machine.Credit)
    (co : Sys2Proof.Machine.Core), s.ctx? c = some x → x.credits.head? = some e → e.src = src → e.dst = dst →
    s.core? dst = some co →
    Sys2Proof.Machine.exec (.cedeCreditArrive c src dst) s = .next ((s.updCtx c fun _ =>
      { x with credits := x.credits.tail }).updCore dst fun _ => { co with allow := co.allow + e.k }))

/-- R13, R174, R115, R12, R16. `BARREL_ISSUE` waits while a word of the core is still to issue; else it moves the
rotation on by one position and counts the stalled splits. A position with no owner stays empty. The ready splits of
an owner whose waits do not hold begin to wait; then the first four ready in turn from the round-robin pointer join
the words due, in split-table order, in gangs of 64, 32 or 16 lanes for one, two or more ready splits; one that has
none, or is stalled, leaves the position empty; a single step issues at the team's position. The pointer moves past
each split as it issues, and past none that is held. Where the spec leaves it open, this rests on the model's choice
in log entries 3 and 15. -/
def BarrelIssue : Prop :=
  (∀ (s : Sys2Proof.Machine.State) (k c : Nat) (co : Sys2Proof.Machine.Core) (x : Sys2Proof.Machine.Ctx),
    s.core? k = some co → s.ctxOf k = some (c, x) →
    ((∃ e ∈ s.issueQ, e.core = k) → Sys2Proof.Machine.exec (.barrelIssue k) s = .next s) ∧
    (∀ owner : Option Nat, x.state = .running ∨ x.state = .yielding → co.reassign = false ∨ co.pos ≠ 0 → co.stopIn = none →
      (∀ e ∈ s.issueQ, e.core ≠ k) →
      owner = (if x.pool = true ∧ 14 ≤ co.pos then
          (if (co.teams.get co.pos).any (fun tm => tm.resp.isSome) = true then some co.pos else none)
        else co.owners.get co.pos) →
      ∃ u co', Sys2Proof.Machine.exec (.barrelIssue k) s = .next u ∧ u.core? k = some co' ∧
        co'.pos = (co.pos + 1) % 16 ∧
        co'.pcAdmit = (if co.pcCtl.getLsbD 0 then co.pcAdmit else co.pcAdmit + BitVec.ofNat 64 co.stalled.length) ∧
        (owner = none → u = s.updCore k fun _ => { co with
          pos := (co.pos + 1) % 16, pcAdmit := co'.pcAdmit
          pcIdle := if co.pcCtl.getLsbD 0 then co.pcIdle else co.pcIdle + 1 }) ∧
        ∀ t s1 s2 co2 tm2, owner = some t →
          s1 = (s.updCore k fun _ => { co with pos := (co.pos + 1) % 16, pcAdmit := co'.pcAdmit }) →
          s2 = (Sys2Proof.Machine.parkAll 16 s1 k t).holdHeaders k t →
          s2.core? k = some co2 → s2.team? k t = some tm2 →
          (∀ tm, s1.team? k t = some tm → Sys2Proof.Claims.AtRest s1 k t tm → s2 = s1) ∧
          (tm2.state ≠ .stopped ∨ tm2.step = none → co2.teamStalled t = false → Sys2Proof.Claims.issuers tm2 ≠ [] →
            u = { s2.updTeam k t (fun m => { m with rr := m.rr % 16, yielded := [] }) with
              issueQ := s.issueQ ++ (Sys2Proof.Claims.issuers tm2).map fun p => ⟨k, t, p, false,
                Sys2Proof.Claims.widthOf (Sys2Proof.Claims.readyCount tm2), tm2.rr % 16⟩ }) ∧
          (tm2.state ≠ .stopped ∨ tm2.step = none → co2.teamStalled t = true ∨ Sys2Proof.Claims.issuers tm2 = [] →
            u = Sys2Proof.Claims.passedEmpty s2 k t) ∧
          (∀ p sp, tm2.state = .stopped → tm2.step = some p → co2.teamStalled t = false → tm2.splits.get p = some sp →
            sp.state = .ready →
            u = { s2.updTeam k t (fun m => { m with step := none, rr := m.rr % 16 }) with
              issueQ := s.issueQ ++ [⟨k, t, p, true,
                Sys2Proof.Claims.widthOf (Sys2Proof.Claims.readyCount { tm2 with state := tm2.prev }),
                tm2.rr % 16⟩] }))) ∧
  (∀ (s : Sys2Proof.Machine.State) (e : Sys2Proof.Machine.Issue) (tm : Sys2Proof.Machine.Team) (sp : Sys2Proof.Machine.Split),
    s.team? e.core e.team = some tm → tm.splits.get e.split = some sp →
    (Sys2Proof.Claims.HeldAtIssue sp → s.moveRr e = s) ∧
    (¬ Sys2Proof.Claims.HeldAtIssue sp →
      s.moveRr e = s.updTeam e.core e.team fun m => { m with
        rr := if e.start + (e.split + 16 - e.start) % 16 < m.rr then m.rr
          else e.start + (e.split + 16 - e.start) % 16 + 1 }))

/-- R15. `POSITION_REASSIGN` at the start of a rotation after a placement or a retire: position i goes to the team at
place (i mod n) of the order of placement. -/
def PositionReassign : Prop :=
  ∀ (s : Sys2Proof.Machine.State) (k c : Nat) (co : Sys2Proof.Machine.Core) (x : Sys2Proof.Machine.Ctx),
    s.core? k = some co → s.ctxOf k = some (c, x) → co.reassign = true → co.pos = 0 →
    (∀ e ∈ co.teams, ∀ f ∈ co.teams, e.2.resp = none → f.2.resp = none → e.2.order = f.2.order → e.1 = f.1) →
    ∃ (owners : Sys2Proof.Machine.Map Nat) (os : List (Nat × Nat)) (ts : List Nat), Sys2Proof.Machine.exec (.positionReassign k) s =
        .next (s.updCore k fun _ => { co with reassign := false, owners := owners }) ∧
      os.Pairwise (fun x y => x.1 < y.1) ∧ ts = os.map Prod.snd ∧
      (∀ o t, (o, t) ∈ os ↔ ∃ e ∈ co.teams, e.1 = t ∧ e.2.order = o ∧ e.2.resp = none) ∧
      ∀ i, owners.get i = if i < (if x.pool then 14 else 16) ∧ ts ≠ [] then ts[i % ts.length]? else none

/-- R14. The resident kernel enables and disables a context's responder pool while the context is Created or Saved; it
enables none while a loaded kernel has more than 14 teams. The last clause is the model's choice (log entry 34): a
saved core that holds more than 14 placed teams keeps it from enabling one. -/
def ResponderPool : Prop :=
  ∀ (s : Sys2Proof.Machine.State) (c : Nat) (x : Sys2Proof.Machine.Ctx), s.ctx? c = some x → s.rk = .up →
    x.state = .created ∨ x.state = .saved →
    ((∀ e ∈ x.kernels, e.2.state ≠ .unloaded → e.2.teams ≤ 14) → x.saved = [] → x.pool = false →
      Sys2Proof.Machine.exec (.responderPoolEnable c) s = .next (s.updCtx c fun _ => { x with pool := true })) ∧
    ((∀ e ∈ x.kernels, e.2.state ≠ .unloaded → e.2.teams ≤ 14) → x.pool = false →
      (∀ e ∈ x.saved, e.2.placed.length ≤ 14 ∧
        Sys2Proof.Machine.sumOf (e.2.placed.map fun t => t.2.lanes * t.2.vcount * 4) ≤ 480 * 1024) →
      ∃ u x', Sys2Proof.Machine.exec (.responderPoolEnable c) s = .next u ∧ u.ctx? c = some x' ∧ x'.pool = true ∧
        x'.state = x.state ∧ x'.kernels = x.kernels ∧ u.mem = s.mem) ∧
    ((∃ e ∈ x.kernels, e.2.state ≠ .unloaded ∧ 14 < e.2.teams) →
      Sys2Proof.Machine.exec (.responderPoolEnable c) s = .next s) ∧
    Sys2Proof.Machine.exec (.responderPoolDisable c) s = .next (s.updCtx c fun _ => { x with pool := false }) ∧
    ((∃ e ∈ x.saved, 14 < e.2.placed.length) → Sys2Proof.Machine.exec (.responderPoolEnable c) s = .next s)

/-- R19, R20, R233, R243. In each slot a unit serves a waiting request of the slot's owner, of a row's refresh first,
then of the slot's context, else the oldest of its gleaner, which serves no refresh and no request that only slots of
its own context serve, else nothing; a context at trickle has at most 102 slots of a controller's round and at steady
512. -/
def CalendarSlot : Prop :=
  ∀ (s : Sys2Proof.Machine.State) (u slot : Nat) (e : Sys2Proof.Machine.CalSlot) (may : Sys2Proof.Machine.CalReq → Prop),
    slot < 1024 → s.calendar.get slot = some e → (∀ q ∈ s.calReqs, q.ctx < 8192) →
    (∀ q, may q ↔ (u < 8 ∨ 16 ≤ u ∨ ∀ x used, s.ctx? q.ctx = some x →
      used = (if (s.calLast.get u).all (fun l => decide (slot ≤ l)) then 0
        else (s.calUsed.get (8192 * u + q.ctx)).getD 0) →
      (x.bwLevel = 1 → used < 102) ∧ (x.bwLevel = 2 → used < 512))) →
    (∀ l r q, s.calReqs = l ++ q :: r → Sys2Proof.Claims.Servable e u e.owner True may q →
      (∀ z ∈ l, Sys2Proof.Claims.Servable e u e.owner True may z →
        Sys2Proof.Claims.calRank e q < Sys2Proof.Claims.calRank e z) →
      (∀ z ∈ r, Sys2Proof.Claims.Servable e u e.owner True may z →
        Sys2Proof.Claims.calRank e q ≤ Sys2Proof.Claims.calRank e z) →
      Sys2Proof.Claims.SlotServes s u slot l r q) ∧
    ((∀ z ∈ s.calReqs, ¬ Sys2Proof.Claims.Servable e u e.owner True may z) →
      (∀ l r q, s.calReqs = l ++ q :: r → Sys2Proof.Claims.Servable e u e.gleaner False may q →
        (∀ z ∈ l, ¬ Sys2Proof.Claims.Servable e u e.gleaner False may z) → Sys2Proof.Claims.SlotServes s u slot l r q) ∧
      ((∀ z ∈ s.calReqs, ¬ Sys2Proof.Claims.Servable e u e.gleaner False may z) →
        ∃ t, Sys2Proof.Machine.exec (.calendarSlotServe u slot) s = .next t ∧ t.calReqs = s.calReqs ∧ t.calGot = s.calGot ∧
          t.cores = s.cores))

/-- R31, R32, R124, R149, R151, R201, R217. Events that end a split's wait: the header's waits hold; a result of a LOC
word writes back in some lanes, a lane's store or load that nothing of the split precedes being performed first; the
barrier shows the phase, with or without `error`; the stream that a split waits for can be popped or filled, which the
event performs, or cannot, and nothing happens; the limit that held the word has room. -/
def SplitWaitsEnd : Prop :=
  ∀ (s : Sys2Proof.Machine.State) (k t p : Nat) (co : Sys2Proof.Machine.Core) (tm : Sys2Proof.Machine.Team)
    (sp : Sys2Proof.Machine.Split),
    s.core? k = some co → co.teams.get t = some tm → tm.splits.get p = some sp →
    (∀ h, sp.state = .waiting → sp.wait = .header → s.fetch k sp.pc.toNat = some h →
      s.waitsHold k t p (Sys2Proof.headerOf h) = true →
      Sys2Proof.Machine.exec (.clauseWaitsSatisfied k t p) s =
        .next (s.updSplit k t p fun _ => { sp with state := .ready, wait := .none, waited := true })) ∧
    (∀ i w (lanes : BitVec 1024), sp.wbs[i]? = some w → w.accs = [] →
      ∃ u m sp', Sys2Proof.Machine.exec (.locWriteback k t p i lanes) s = .next u ∧ u.team? k t = some m ∧
        u.mem = s.mem ∧ u.scratch = s.scratch ∧ (∀ j, j ≠ k → u.core? j = s.core? j) ∧
        m.splits.get p = some sp' ∧ sp' = { sp with wbs := sp'.wbs } ∧
        (if w.uni = true then m = { tm with s := m.s, splits := m.splits } ∧ m.sreg w.reg = w.sval ∧
            (∀ r, r ≠ w.reg → m.sreg r = tm.sreg r) ∧
            sp'.wbs = if w.lanes = 0 then sp.wbs.eraseIdx i else sp.wbs.set i { w with uni := false }
         else m = { tm with v := m.v, splits := m.splits } ∧
          (∀ r l, l < 1024 → m.vreg r l =
            if l < tm.lanes ∧ (w.lanes &&& lanes).getLsbD l = true then
              if r = w.reg + 1 ∧ (match w.op with | .atom _ 8 => true | _ => false) = true then Sys2Proof.Machine.Regs.get w.vals (1024 + l)
              else if r = w.reg then Sys2Proof.Machine.Regs.get w.vals l else tm.vreg r l
            else tm.vreg r l) ∧
          sp'.wbs = if w.lanes &&& ~~~lanes = 0 then sp.wbs.eraseIdx i
            else sp.wbs.set i { w with lanes := w.lanes &&& ~~~lanes })) ∧
    (∀ i w e n (lanes : BitVec 1024), sp.wbs[i]? = some w → w.accs = [e] → (∀ b ∈ sp.wbs.take i, b.accs = []) →
      lanes.getLsbD e.lane = true → w.op = .store n → w.uni = false → w.lanes = 0 → tm.hasSeen = false →
      ∃ u sp', Sys2Proof.Machine.exec (.locWriteback k t p i lanes) s = .next u ∧ u.split? k t p = some sp' ∧
        sp' = { sp with wbs := sp.wbs.eraseIdx i } ∧
        ∀ pl b, u.readAt pl b = (s.writeAt (s.locPlace k e) (Sys2Proof.Machine.toBytes n e.data)).readAt pl b) ∧
    (∀ i w e n (sg : Bool) (lanes : BitVec 1024) (old : Nat), sp.wbs[i]? = some w → w.accs = [e] →
      (∀ b ∈ sp.wbs.take i, b.accs = []) → lanes.getLsbD e.lane = true → w.lanes.getLsbD e.lane = true →
      e.lane < tm.lanes → e.lane < 1024 → w.op = .load n sg → w.uni = false → tm.hasSeen = false →
      old = Sys2Proof.Machine.ofBytes (s.readAt (s.locPlace k e) n) →
      ∃ u m, Sys2Proof.Machine.exec (.locWriteback k t p i lanes) s = .next u ∧ u.team? k t = some m ∧
        m.vreg w.reg e.lane = (if sg then (BitVec.ofNat (8 * n) old).signExtend 32 else BitVec.ofNat 32 old) ∧
        ∀ pl b, u.readAt pl b = s.readAt pl b) ∧
    (∀ off ph cl w, sp.state = .waiting → sp.wait = .bar off ph → sp.clause = some cl → co.crews.get tm.crew = some w →
      (Sys2Proof.Machine.Bar.read co.shared (w.base + off)).phase = ph →
      (Sys2Proof.Machine.Bar.read co.shared (w.base + off)).error = false →
      Sys2Proof.Machine.exec (.waitWake k t p) s = .next (s.advance k t p sp.wlen)) ∧
    (∀ off ph cl w, sp.state = .waiting → sp.wait = .bar off ph → sp.clause = some cl → co.crews.get tm.crew = some w →
      (Sys2Proof.Machine.Bar.read co.shared (w.base + off)).phase = ph →
      (Sys2Proof.Machine.Bar.read co.shared (w.base + off)).error = true → tm.mayIssue p = true →
      s.coreIssues k = true → tm.att = false → tm.state = .active → tm.tvec ≠ 0 →
      ∃ u m, Sys2Proof.Machine.exec (.waitWake k t p) s = .next u ∧ u.team? k t = some m ∧ m.state = .handler p ∧
        m.tcause = 0x0303 ∧ m.tgrade = 1 ∧ m.side.info = BitVec.ofNat 64 off) ∧
    (∀ w q st (fill : Bool), sp.state = .waiting → sp.wait = .stream [q] fill → co.crews.get tm.crew = some w →
      w.streams.get q = some st →
      (if fill = true then Sys2Proof.Machine.ahead st.issued st.freed ≠ st.slots else st.popped ≠ st.published) →
      ∃ u co' w' sp', Sys2Proof.Machine.exec (.streamWaitRelease k t p) s = .next u ∧ u.core? k = some co' ∧
        co'.crews.get tm.crew = some w' ∧ w' = { w with streams := w'.streams } ∧ w'.streams = w.streams.set q
          (if fill = true then { st with issued := (st.issued + 1) % 2 ^ 32 }
           else { st with popped := (st.popped + 1) % 2 ^ 32 }) ∧
        u.split? k t p = some sp' ∧ sp' = { sp with
          state := .ready, wait := .none
          popped := some [st.base + (if fill = true then st.issued else st.popped) % st.slots * st.size] }) ∧
    (∀ w q st (fill : Bool), sp.state = .waiting → sp.wait = .stream [q] fill → co.crews.get tm.crew = some w →
      w.streams.get q = some st →
      (if fill = true then Sys2Proof.Machine.ahead st.issued st.freed = st.slots else st.popped = st.published) →
      Sys2Proof.Machine.exec (.streamWaitRelease k t p) s = .next s) ∧
    (∀ h c x, sp.state = .waiting → sp.wait = .held h → s.ctxOf k = some (c, x) → co.holdFree x h = true →
      (h = .slots → ∀ q ∈ s.calReqs, q.id ≠ Sys2Proof.Machine.rowId k t p) →
      Sys2Proof.Machine.exec (.issueHoldRelease k t p) s =
        .next (s.updSplit k t p fun _ => { sp with state := .ready, wait := .none }))

/-- R117, R118, R253, R252. A waiting claim completes once its resource is free and the test admits it; the first
stalled word is admitted when the test passes, with its item entered, and issues again without a test. -/
def ClaimsAndAdmission : Prop :=
  (∀ (s : Sys2Proof.Machine.State) (k t p n c : Nat) (co : Sys2Proof.Machine.Core) (tm : Sys2Proof.Machine.Team)
    (sp : Sys2Proof.Machine.Split) (cl : Sys2Proof.Machine.Clause) (x : Sys2Proof.Machine.Ctx),
    s.core? k = some co → co.teams.get t = some tm → tm.splits.get p = some sp → s.ctxOf k = some (c, x) →
    sp.state = .waiting → sp.wait = .claim (.v n) → sp.clause = some cl → tm.mayIssue p = true →
    s.coreIssues k = true → co.regBytes + tm.lanes * n * 4 ≤ Sys2Proof.Machine.regFile x.pool →
    s.admission k t (s.holdIncrease k (tm.lanes * n * 4)) = .pass →
    ∃ u m sp', Sys2Proof.Machine.exec (.claimGranted k t p) s = .next u ∧ u.team? k t = some m ∧
      m.vcount = tm.vcount + n ∧ (∀ r l, l < 1024 → tm.vcount ≤ r → r < tm.vcount + n → m.vreg r l = 0) ∧
      (∀ r l, l < 1024 → r < tm.vcount → m.vreg r l = tm.vreg r l) ∧ m.splits.get p = some sp' ∧ sp'.state = .ready) ∧
  (∀ (s : Sys2Proof.Machine.State) (k t p cost : Nat) (co : Sys2Proof.Machine.Core) (tm : Sys2Proof.Machine.Team)
    (sp : Sys2Proof.Machine.Split),
    s.core? k = some co → s.coreIssues k = true → co.stalled = [(t, p)] → co.teams.get t = some tm →
    tm.splits.get p = some sp → sp.state = .waiting → sp.wait = .admission cost none → sp.clause.isSome = true →
    s.estOf k + cost ≤ co.allow →
    ∃ u co' sp', Sys2Proof.Machine.exec (.admissionRetest k) s = .next u ∧ u.core? k = some co' ∧ co'.stalled = [] ∧
      co'.items = co.items.set co.nextX cost ∧ u.split? k t p = some sp' ∧
      sp' = { sp with state := .ready, wait := .none, prepaid := some co.nextX }) ∧
  (∀ (s : Sys2Proof.Machine.State) (k t p cost : Nat) (co : Sys2Proof.Machine.Core) (tm : Sys2Proof.Machine.Team)
    (sp : Sys2Proof.Machine.Split),
    s.core? k = some co → s.coreIssues k = true → co.stalled = [(t, p)] → co.teams.get t = some tm →
    tm.splits.get p = some sp → sp.wait = .admission cost none → co.allow < s.estOf k + cost →
    s.holdOf k + cost ≤ co.allow → sp.clause.isSome = true →
    Sys2Proof.Machine.exec (.admissionRetest k) s = .next s)

/-- R152, R153, R155, R240, R201. A packet of a `gather`, or the segment in progress of an `ld.blk`, is delivered from
a stack, after what other writes perform in its words and what the split's earlier accesses do in its local ones: the
bytes of each access that is not lost are placed at its local address, and the packet's bytes leave the barrier, with
`error` when an access is lost. Where nothing comes before it so, main memory is as before unless a sample record is
due. Where the spec leaves it open, this rests on the model's choice in log entry 9. -/
def ReadsDelivered : Prop :=
  ∀ (s : Sys2Proof.Machine.State) (k x i : Nat) (co : Sys2Proof.Machine.Core) (op : Sys2Proof.Machine.AsyncOp)
    (p : Sys2Proof.Machine.Part) (e : Sys2Proof.Instr),
    s.core? k = some co → co.asyncs.get x = some op → op.part? i = some p → s.partReady k op p = true → p.target ≤ 7 →
    (∀ y ∈ p.accs, y.done = false) → op.sampled = false →
    (op.kind = .gather ∧ e = .gatherPacketDeliver k x i) ∨
      (op.kind = .ldBlk ∧ e = .blkSegmentComplete k x i ∧ op.parts.head? = some p) →
    ∃ u s2 co2, Sys2Proof.Machine.exec e s = .next u ∧ s2 = (s.preWrites p).partBefore k x op p ∧ s2.core? k = some co2 ∧
      u.mem = s2.mem ∧
      (op.rel = false → Sys2Proof.Claims.Settled u k x co2
        (Sys2Proof.Claims.placed s2 (fun y => s2.isLost y.pa y.len) p.accs co2.shared) op p (p.accs.map (·.len)).sum
        (p.accs.any fun y => s2.isLost y.pa y.len)) ∧
      (Sys2Proof.Claims.Quiet s k op → Sys2Proof.Claims.Alone s p →
        u.mem = s.mem ∧ (∀ j, j ≠ k → u.core? j = s.core? j) ∧ Sys2Proof.Claims.Settled u k x co
          (Sys2Proof.Claims.placed s (fun y => s.isLost y.pa y.len) p.accs co.shared) op p (p.accs.map (·.len)).sum
          (p.accs.any fun y => s.isLost y.pa y.len))

/-- R152, R153, R155, R201. A packet of a `scatter`, or the segment in progress of an `st.blk`, is performed and
acknowledged at a stack that has lost no data, after what comes before it: its bytes are written in lane order, but
for words performed before, every other byte of main memory stays, and its bytes leave the barrier without `error`. -/
def WritesAcknowledged : Prop :=
  ∀ (s : Sys2Proof.Machine.State) (k x i : Nat) (co : Sys2Proof.Machine.Core) (op : Sys2Proof.Machine.AsyncOp)
    (p : Sys2Proof.Machine.Part) (e : Sys2Proof.Instr),
    s.core? k = some co → co.asyncs.get x = some op → op.part? i = some p → s.partReady k op p = true → p.target ≤ 7 →
    (∀ y ∈ p.accs, y.done = false ∧ s.writeLost y.pa y.len = false) → op.sampled = false →
    (op.kind = .scatter ∧ e = .writeAcknowledge k x i) ∨
      (op.kind = .stBlk ∧ (e = .writeAcknowledge k x i ∨ e = .blkSegmentComplete k x i) ∧ op.parts.head? = some p) →
    ∃ u s2 co2, Sys2Proof.Machine.exec e s = .next u ∧ s2 = (s.preWrites p).partBefore k x op p ∧ s2.core? k = some co2 ∧
      u.mem = Sys2Proof.Claims.written p.accs s2.mem ∧
      (∀ b, (∀ y ∈ p.accs, b < y.pa ∨ y.pa + y.data.length ≤ b) →
        Sys2Proof.Machine.Memory.get u.mem b = Sys2Proof.Machine.Memory.get s2.mem b) ∧
      (op.rel = false →
        Sys2Proof.Claims.Settled u k x co2 co2.shared op p (p.accs.map (·.len)).sum false) ∧
      (Sys2Proof.Claims.Quiet s k op → Sys2Proof.Claims.Alone s p →
        s2.mem = s.mem ∧
        (∀ j, j ≠ k → (u.core? j).map Sys2Proof.Claims.bareCore = (s.core? j).map Sys2Proof.Claims.bareCore) ∧
        Sys2Proof.Claims.Settled u k x co co.shared op p (p.accs.map (·.len)).sum false)

/-- R241, R152. A `scrub` has passed over its range in a Warm plot: the writes of its report are sent, cut at 64 KiB,
and all but 256 of its range's bytes leave the barrier. A write of the report at a stack is performed; with the last
one the other bytes leave, with `error` when the range held a lost unit. Where the spec leaves it open, this rests on
the model's choice in log entries 8 and 29. -/
def ScrubAcknowledged : Prop :=
  (∀ (s : Sys2Proof.Machine.State) (k x i va lo n : Nat) (co : Sys2Proof.Machine.Core)
    (op : Sys2Proof.Machine.AsyncOp) (p : Sys2Proof.Machine.Part) (y : Sys2Proof.Machine.Acc),
    s.core? k = some co → co.asyncs.get x = some op → op.part? i = some p → s.partReady k op p = true →
    op.kind = .scrub va lo n → p.accs = [y] → y.data = [] → (s.plot (Sys2Proof.Machine.plotOf lo)).state = .warm →
    ∃ u co' op', Sys2Proof.Machine.exec (.writeAcknowledge k x i) s = .next u ∧ u.mem = s.mem ∧ u.core? k = some co' ∧
      u.corrected = s.corrected + Sys2Proof.Machine.ofBytes (((s.scrubReport lo n).drop 4).take 4) +
        Sys2Proof.Machine.ofBytes (((s.scrubReport lo n).drop 12).take 4) ∧
      co'.asyncs.get x = some op' ∧ op'.size = (if s.isLost lo n then 1 else 0) ∧
      (op'.parts.flatMap (·.accs)).flatMap (·.data) = s.scrubReport lo n ∧
      (s.scrubReport lo n).length = 16 + 2 * (8 * ((n / 256 + 63) / 64)) ∧
      (∀ z, (op'.parts.flatMap (·.accs)).head? = some z → z.va = va) ∧
      (∀ z ∈ op'.parts.flatMap (·.accs), z.va / 65536 = (z.va + z.data.length - 1) / 65536) ∧
      co'.shared = Sys2Proof.Machine.Bar.write co.shared op.bar (Sys2Proof.Machine.Bar.test
        { Sys2Proof.Machine.Bar.read co.shared op.bar with
          bytes := (Sys2Proof.Machine.Bar.read co.shared op.bar).bytes - (n - 256 : Nat) })) ∧
  (∀ (s : Sys2Proof.Machine.State) (k x i va lo n : Nat) (co : Sys2Proof.Machine.Core)
    (op : Sys2Proof.Machine.AsyncOp) (p : Sys2Proof.Machine.Part) (y : Sys2Proof.Machine.Acc),
    s.core? k = some co → co.asyncs.get x = some op → op.part? i = some p → s.partReady k op p = true →
    op.kind = .scrub va lo n → p.accs = [y] → y.data ≠ [] → p.target ≤ 7 → s.writeLost y.pa y.len = false →
    op.sampled = false → op.rel = false →
    ∃ u, Sys2Proof.Machine.exec (.writeAcknowledge k x i) s = .next u ∧
      u.mem = Sys2Proof.Claims.written [y] s.mem ∧
      (op.parts = [p] → Sys2Proof.Claims.Settled u k x co co.shared op p 256 (op.size == 1)) ∧
      (2 ≤ op.parts.length → ∃ co', u.core? k = some co' ∧ co'.shared = co.shared))

/-- R154, R201. One lane of an `atom.m` is performed at a stack, after the lower lanes that name its address, what
other writes perform in its words, and what the split's earlier accesses do in its local ones: the new value is
written, the old one goes to the lane's local address, and the lane's bytes leave the barrier. -/
def MemoryAtomics : Prop :=
  ∀ (s : Sys2Proof.Machine.State) (k x lane code : Nat) (co : Sys2Proof.Machine.Core) (op : Sys2Proof.Machine.AsyncOp)
    (p : Sys2Proof.Machine.Part) (y : Sys2Proof.Machine.Acc),
    s.core? k = some co → co.asyncs.get x = some op → op.kind = .atomM code →
    (op.parts.find? fun p => p.accs.any fun y => y.lane == lane && !y.done) = some p →
    (p.accs.find? fun y => y.lane == lane && !y.done) = some y → s.partReady k op p = true → p.target ≤ 7 →
    (∀ q ∈ op.parts, ∀ z ∈ q.accs, z.va = y.va → z.done = false → lane ≤ z.lane) → y.pre = [] →
    s.isLost y.pa y.len = false →
    s.writeLost y.pa y.len = false → op.sampled = false →
    ∃ u s2 co2 co' m, Sys2Proof.Machine.exec (.atomMPerform k x lane) s = .next u ∧
      s2 = (s.preWrite y.pa y.len p.id).partBefore k x op p ∧ s2.core? k = some co2 ∧
      u.mem = Sys2Proof.Machine.Memory.setBytes s2.mem y.pa (Sys2Proof.Machine.toBytes y.len
        (Sys2Proof.Machine.atomOp code y.len
          (Sys2Proof.Machine.ofBytes (Sys2Proof.Machine.Memory.bytes s2.mem y.pa y.len))
          (Sys2Proof.Machine.ofBytes (y.data.take y.len)) (Sys2Proof.Machine.ofBytes (y.data.drop y.len)))) ∧
      m = Sys2Proof.Machine.Regs.setBytes co2.shared y.loc (Sys2Proof.Machine.Memory.bytes s2.mem y.pa y.len) ∧
      u.core? k = some co' ∧ (op.rel = false ∨ Sys2Proof.Claims.Quiet s k op →
        co'.shared = Sys2Proof.Machine.Bar.write m op.bar (Sys2Proof.Machine.Bar.test
          { Sys2Proof.Machine.Bar.read m op.bar with
            bytes := (Sys2Proof.Machine.Bar.read m op.bar).bytes - y.len })) ∧
      (Sys2Proof.Claims.Quiet s k op → Sys2Proof.Claims.Alone s { p with accs := [y] } →
        s2.mem = s.mem ∧ co2.shared = co.shared ∧
        (∀ j, j ≠ k → (u.core? j).map Sys2Proof.Claims.bareCore = (s.core? j).map Sys2Proof.Claims.bareCore))

/-- R154. The operations of `atom.m` on values of n bytes, by their codes. -/
def MemoryAtomicOperations : Prop :=
  ∀ (n w x c : Nat), n = 4 ∨ n = 8 → w < 2 ^ (8 * n) → x < 2 ^ (8 * n) → c < 2 ^ (8 * n) →
    let i := fun v : Nat => if v < 2 ^ (8 * n - 1) then (v : Int) else (v : Int) - 2 ^ (8 * n)
    Sys2Proof.Machine.atomOp 0 n w x c = (w + x) % 2 ^ (8 * n) ∧
    (n = 4 → Sys2Proof.Machine.atomOp 1 n w x c = (Sys2Proof.Machine.toF32 ((Sys2Proof.Machine.f32 (BitVec.ofNat 32 w)).add
      (Sys2Proof.Machine.f32 (BitVec.ofNat 32 x)))).toNat) ∧
    i (Sys2Proof.Machine.atomOp 2 n w x c) = min (i w) (i x) ∧ i (Sys2Proof.Machine.atomOp 3 n w x c) = max (i w) (i x) ∧
    Sys2Proof.Machine.atomOp 4 n w x c = min w x ∧ Sys2Proof.Machine.atomOp 5 n w x c = max w x ∧
    Sys2Proof.Machine.atomOp 6 n w x c = w &&& x ∧ Sys2Proof.Machine.atomOp 7 n w x c = w ||| x ∧
    Sys2Proof.Machine.atomOp 8 n w x c = w ^^^ x ∧ Sys2Proof.Machine.atomOp 9 n w x c = x ∧
    Sys2Proof.Machine.atomOp 10 n w x c = if w = c then x else w

/-- R157, R159, R348, R206. A channel reads the record it stands at, again after its acquire where it has one: a
record that may be copied becomes current; one that is not handed over makes the channel idle with nothing written;
one whose read fails makes it idle with a log entry. Where the spec leaves it open, this rests on the model's choice
in log entry 27. -/
def ChannelRecords : Prop :=
  (∀ (s : Sys2Proof.Machine.State) (k ch : Nat) (co : Sys2Proof.Machine.Core) (c : Sys2Proof.Machine.Chan)
    (pl : Sys2Proof.Machine.Place) (r r1 : Sys2Proof.Machine.ChanRec) (s1 s2 : Sys2Proof.Machine.State),
    Sys2Proof.Claims.ChanFree s k ch co c → c.state = .running → c.cur = none → c.fail = none → c.recVa ≠ 0 →
    c.recVa / 2 % 32 = 0 → s.chanOwnTry k c 0 .r (c.recVa / 64 * 64) 64 = .ok pl →
    s1 = s.chanBefore k c false 0 pl 64 → r1 = Sys2Proof.Machine.ChanRec.read (s1.readAt pl 64) →
    s2 = s1.chanBefore k c (r1.ctl.getLsbD 1) (r1.ctl.extractLsb' 3 3).toNat pl 64 →
    r = Sys2Proof.Machine.ChanRec.read (s2.readAt pl 64) →
    ∃ u c', Sys2Proof.Machine.exec (.chanRecordStart k ch) s = .next u ∧
      (∀ pa, pl = .mem pa → r = Sys2Proof.Machine.ChanRec.read (s.readAt pl 64)) ∧
      (Sys2Proof.Claims.Startable c r → u.mem = s.mem ∧ u.chan? k ch = some c' ∧
        c' = { c with recVa := c.recVa / 64 * 64, cur := some r, done := 0, page := none, slots := none, ahead := [] }) ∧
      (r.own = false → u.mem = s.mem ∧ u.chan? k ch = some c' ∧ c'.state = .idle ∧ c'.item = none ∧
        ∀ i, c.item = some i → ∃ co', u.core? k = some co' ∧ co'.items = co.items.del i)) ∧
  (∀ (s : Sys2Proof.Machine.State) (k ch code cn : Nat) (co : Sys2Proof.Machine.Core) (c : Sys2Proof.Machine.Chan)
    (x : Sys2Proof.Machine.Ctx),
    Sys2Proof.Claims.ChanFree s k ch co c → s.ctxOf k = some (cn, x) → c.state = .running → c.cur = none →
    c.recVa ≠ 0 → c.recVa / 2 % 32 = 0 →
    c.fail = some code ∨ (c.fail = none ∧ s.chanTry k c .r none (c.recVa / 64 * 64) 64 = .fail code) →
    ∃ u c' x' e, Sys2Proof.Machine.exec (.chanRecordUnreadable k ch) s = .next u ∧ u.mem = s.mem ∧
      u.chan? k ch = some c' ∧ c'.state = .idle ∧ u.ctx? cn = some x' ∧ x'.log = x.log ++ [e] ∧
      e.code = BitVec.ofNat 16 code ∧ e.grade = 0 ∧ e.act = 0 ∧ e.pc = 0 ∧
      e.info = BitVec.ofNat 64 (c.recVa / 64 * 64))

/-- R159, R160, R19, R250, R345, R348. A segment first asks for its slots of the calendar; with them it is copied and
acknowledged, a 32-byte sector of its source being read at once; the last one completes the record, and that of a
stopping channel completes it with status 2. Completing writes the slot, clears `own`, and goes on at the next record
after status 0 when that one is handed over or cannot be looked at. Where the spec leaves it open, this rests on the
model's choice in log entry 27. -/
def ChannelSegments : Prop :=
  (∀ (s : Sys2Proof.Machine.State) (k ch a b n pa pb : Nat) (co : Sys2Proof.Machine.Core) (c : Sys2Proof.Machine.Chan)
    (r : Sys2Proof.Machine.ChanRec),
    Sys2Proof.Claims.ChanFree s k ch co c → c.state = .running → c.pend = none → c.fail = none → c.cur = some r →
    r.segment c.done = (a, b, n) → s.chanTry k c .r (some false) a n = .ok (.mem pa) →
    s.chanTry k c .w (some true) b n = .ok (.mem pb) →
    (c.slots = none → ∃ u w, Sys2Proof.Machine.exec (.chanSegmentAck k ch) s = .next u ∧ u.mem = s.mem ∧
      u.chan? k ch = some { c with slots := some w }) ∧
    (c.slots = some 0 → c.done + n ≠ r.total →
      ∃ u, Sys2Proof.Machine.exec (.chanSegmentAck k ch) s = .next u ∧
        u.mem = Sys2Proof.Machine.Memory.setBytes s.mem pb (Sys2Proof.Claims.segmentBytes s c (.mem pa) n) ∧
        u.chan? k ch = some { c with
          done := c.done + n, wrote := true, page := none, slots := none
          ahead := if n < c.ahead.length then c.ahead.drop n else Sys2Proof.Machine.Memory.bytes s.mem (pa + n)
            (min (r.length - c.done % r.length - n) ((32 - (a + n) % 32) % 32)) })) ∧
  (∀ (s : Sys2Proof.Machine.State) (k ch a b n : Nat) (co : Sys2Proof.Machine.Core) (c : Sys2Proof.Machine.Chan)
    (r : Sys2Proof.Machine.ChanRec) (p q : Sys2Proof.Machine.Place) (e : Sys2Proof.Instr) (status : Nat),
    Sys2Proof.Claims.ChanFree s k ch co c → Sys2Proof.Claims.ChanQuiet s k c → c.pend = none → c.fail = none →
    c.cur = some r → c.slots = some 0 →
    (r.ctl.getLsbD 2 = true → co.clear c.relW = true) → r.segment c.done = (a, b, n) →
    s.chanTry k c .r (some false) a n = .ok p → s.chanTry k c .w (some true) b n = .ok q →
    (c.state = .running ∧ c.done + n = r.total ∧ e = .chanSegmentAck k ch ∧ status = 0) ∨
      (c.state = .stopping ∧ e = .chanStopDone k ch ∧ status = 2) →
    ∃ v w : Sys2Proof.Machine.State, Sys2Proof.Machine.exec e s = .next (v.chanComplete k ch status 0) ∧ 
      w = (s.askPort p n).engWrite q (Sys2Proof.Claims.segmentBytes s c p n) ∧
      v.mem = w.mem ∧ v.scratch = w.scratch ∧ v.outputs = w.outputs ∧
      (∀ j, (v.core? j).map (·.shared) = (w.core? j).map (·.shared)) ∧
      ∃ c1, v.chan? k ch = some c1 ∧
        c1 = { c with done := c.done + n, wrote := true, page := none, slots := none, ahead := c1.ahead }) ∧
  (∀ (s s0 s1 v : Sys2Proof.Machine.State) (k ch status code pa pb : Nat) (c : Sys2Proof.Machine.Chan)
    (r : Sys2Proof.Machine.ChanRec) (named on : Bool),
    s.chan? k ch = some c → c.cur = some r → c.state = .running → status < 8 → r.cpl ≠ 0 →
    s.chanOwnTry k c 0 .w r.cpl 32 = .ok (.mem pa) →
    named = decide (status = 0 ∧ r.next ≠ 0 ∧ r.next / 2 % 32 = 0) →
    (if named then
      (∃ pn, s.chanOwnTry k c 1 .r (r.next / 64 * 64 + 8) 8 = .ok (.mem pn) ∧
        on = (Sys2Proof.Machine.Memory.get s.mem pn).getLsbD 0 ∧ s1 = s.doneRuns (s.chanAgent k c 1) [(pn, 8)]) ∨
      (((∃ page, s.chanOwnTry k c 1 .r (r.next / 64 * 64 + 8) 8 = .hold page) ∨
          ∃ why, s.chanOwnTry k c 1 .r (r.next / 64 * 64 + 8) 8 = .fail why) ∧ on = true ∧ s1 = s)
     else on = false ∧ s1 = s) →
    s0 = (if on then s1 else ((if named then s1.updChan k ch fun c => { c with cur := some { r with next := 0 } }
      else s1).dropItem k c.item).updChan k ch fun c => { c with item := none }) →
    v = s0.chanPut k c 0 r.cpl (.mem pa) (Sys2Proof.Machine.slotBytes status code c.done c.wrote c.recVa r.tag s.tstamp) →
    v.chanOwnTry k c 2 .w (c.recVa + 8) 8 = .ok (.mem pb) →
    (s.chanComplete k ch status code).mem = Sys2Proof.Machine.Memory.setBytes (Sys2Proof.Machine.Memory.setBytes s.mem pa
        (Sys2Proof.Machine.slotBytes status code c.done c.wrote c.recVa r.tag s.tstamp)) pb
      (Sys2Proof.Machine.toBytes 8 (r.ctl &&& ~~~1#64).toNat) ∧
    ∃ c', (s.chanComplete k ch status code).chan? k ch = some c' ∧
      if on then c'.state = .running ∧ c'.recVa = r.next ∧ c'.cur = none ∧ c'.done = 0
      else c'.state = .idle ∧ c'.item = none)

/-- R162. A split that sleeps in `ring.wait` goes on once the slot's first byte shows `done`; one that is held for an
absent page issues again once the page is there. -/
def RingWakes : Prop :=
  ∀ (s : Sys2Proof.Machine.State) (k t p va : Nat) (co : Sys2Proof.Machine.Core) (tm : Sys2Proof.Machine.Team)
    (sp : Sys2Proof.Machine.Split) (w : Sys2Proof.Machine.Crew),
    s.core? k = some co → co.teams.get t = some tm → tm.splits.get p = some sp → co.crews.get tm.crew = some w →
    sp.state = .waiting →
    (∀ pl b, sp.wait = .ring va → s.resolve k (w.base, w.size) va 32 .r none = .at' pl →
      (∀ pa, pl = .mem pa → s.servable pa = true) → s.readAt pl 1 = [b] → b.getLsbD 0 = true →
      Sys2Proof.Machine.exec (.ringWaitRecheck k t p) s = .next (s.advance k t p sp.wlen)) ∧
    (sp.wait = .ringPage va false → sp.clause.isSome = true → s.resolve k (w.base, w.size) va 32 .r none ≠ .absent →
      Sys2Proof.Machine.exec (.ringWaitRecheck k t p) s =
        .next (s.updSplit k t p fun _ => { sp with state := .ready, wait := .none }))

/-- R182, R181, R186, R190, R191, R19, R206. The unit takes the oldest held loop, but of the loops that name its tile
the first; a row group asks for its slots of the calendar, and with them reads, after what comes before its reads, and
commits; each commit of a row group writes the 512 elements of its eight rows, and no other, moves the progress on,
and with the last one the loop's bytes leave its barrier; an absent page puts the loop behind those held now; a
failure sets `err` in the tile and in the barrier. -/
def LoopSteps : Prop :=
  (∀ (s : Sys2Proof.Machine.State) (k x : Nat) (co : Sys2Proof.Machine.Core) (m : Sys2Proof.Machine.MatOp)
    (tile : Sys2Proof.Machine.Tile),
    s.core? k = some co → co.inUnit = none → co.nextLoop = some (x, m) → co.mats.get x = some m →
    co.tiles.get m.tile = some tile → co.tileFree m.tile x = true → co.clear m.afterR = true → s.abandons k = false →
    ∃ u co', Sys2Proof.Machine.exec (.mloopStart k) s = .next u ∧ u = s.updCore k (fun _ => co') ∧
      co' = { co with
        mats := co.mats.set x { m with started := true, begun := true }
        tiles := if m.begun then co.tiles
          else co.tiles.set m.tile { tile with step := 0, group := 0, err := false } }) ∧
  (∀ (co : Sys2Proof.Machine.Core) (b : Nat × Sys2Proof.Machine.MatOp), co.oldestLoop = some b →
    (∀ e ∈ co.mats, e.2.isLoop = true → e.2.page = none → e.2.fail = none → e.2.tile = b.2.tile → e = b) →
    co.nextLoop = some b) ∧
  (∀ (co : Sys2Proof.Machine.Core) (b e : Nat × Sys2Proof.Machine.MatOp), co.oldestLoop = some b → co.nextLoop = some e →
    e.2.tile = b.2.tile ∧ ∀ f ∈ co.mats.takeWhile fun f => f != e,
      f.2.isLoop = true → f.2.page = none → f.2.fail = none → f.2.tile ≠ b.2.tile) ∧
  (∀ (s : Sys2Proof.Machine.State) (k x : Nat) (co : Sys2Proof.Machine.Core) (m : Sys2Proof.Machine.MatOp)
    (tile : Sys2Proof.Machine.Tile) (l : Sys2Proof.Machine.LoopPar) (i : Sys2Proof.Machine.GroupIn) (step group : Nat),
    step = (if m.group = 7 then m.step + 1 else m.step) → group = (if m.group = 7 then 0 else m.group + 1) →
    s.loopAt k = some (x, m) → s.core? k = some co → co.mats.get x = some m → m.body = .loop l →
    co.tiles.get m.tile = some tile → m.group < 8 →
    (m.slots = none → s.groupIn k x m l = .ok i → ∃ u co' w, Sys2Proof.Machine.exec (.mloopRowGroupCommit k) s = .next u ∧ u.mem = s.mem ∧
      u.core? k = some co' ∧ co' = { co with mats := co.mats.set x { m with slots := some w } }) ∧
    (∀ s2 co2, m.slots = some 0 → s2 = s.matBefore k x m (m.step == 0 && m.group == 0) (s.loopRuns k x m l) →
      s2.core? k = some co2 → s2.groupIn k x m l = .ok i →
      ∃ u co' tile', Sys2Proof.Machine.exec (.mloopRowGroupCommit k) s = .next u ∧ u.mem = s.mem ∧ u.core? k = some co' ∧
      (∀ j, j ≠ k → u.core? j = s.core? j) ∧
      (step ≠ l.count → co'.tiles.get m.tile = some tile' ∧
        tile' = { tile with data := tile'.data, step := step, group := group } ∧
        (∀ e, ¬ (8 * m.group ≤ e / 64 ∧ e / 64 < 8 * m.group + 8) →
          Sys2Proof.Machine.Regs.get tile'.data e = Sys2Proof.Machine.Regs.get tile.data e) ∧
        (∀ r c, r < 8 → c < 64 → Sys2Proof.Machine.Regs.get tile'.data (64 * (8 * m.group + r) + c) =
          Sys2Proof.Machine.stepElem l.fmt ((Sys2Proof.Machine.stepLen l.fmt).getD 0)
            (Sys2Proof.Machine.Regs.get tile.data (64 * (8 * m.group + r) + c))
            (Sys2Proof.Machine.scaledVals (Sys2Proof.Machine.bits l.fmt 3 0)
              ((Sys2Proof.Machine.stepLen l.fmt).getD 0) l.blockLen (Sys2Proof.Machine.bitAt l.fmt 9) (i.a.getD r [])
              (i.sa.getD r []))
            (Sys2Proof.Machine.scaledVals (Sys2Proof.Machine.bits l.fmt 7 4)
              ((Sys2Proof.Machine.stepLen l.fmt).getD 0) l.blockLen (Sys2Proof.Machine.bitAt l.fmt 10) (i.b.getD c [])
              (i.sb.getD c []))
            (Sys2Proof.Machine.codes (Sys2Proof.Machine.fmtBits (Sys2Proof.Machine.bits l.fmt 3 0))
              ((Sys2Proof.Machine.stepLen l.fmt).getD 0) (i.a.getD r []))
            (Sys2Proof.Machine.codes (Sys2Proof.Machine.fmtBits (Sys2Proof.Machine.bits l.fmt 7 4))
              ((Sys2Proof.Machine.stepLen l.fmt).getD 0) (i.b.getD c [])))) ∧
      (step = l.count → tile.leaving = false → co'.mats.get x = none ∧
        ∃ tile'', co'.tiles.get m.tile = some tile'' ∧ tile''.step = l.count ∧ tile''.group = group ∧
        co'.shared = Sys2Proof.Machine.Bar.write co2.shared m.bar (Sys2Proof.Machine.Bar.test
          { Sys2Proof.Machine.Bar.read co2.shared m.bar with
            bytes := (Sys2Proof.Machine.Bar.read co2.shared m.bar).bytes - 16384 })))) ∧
  (∀ (s : Sys2Proof.Machine.State) (k x page c : Nat) (co : Sys2Proof.Machine.Core) (m : Sys2Proof.Machine.MatOp)
    (l : Sys2Proof.Machine.LoopPar) (cx : Sys2Proof.Machine.Ctx),
    s.loopAt k = some (x, m) → s.core? k = some co → co.mats.get x = some m → s.ctxOf k = some (c, cx) →
    m.body = .loop l → s.groupIn k x m l = .error (.hold page) →
    ∃ u co' cx', Sys2Proof.Machine.exec (.mloopPageFault k) s = .next u ∧ u.core? k = some co' ∧ u.mem = s.mem ∧
      co' = { co with
        mats := co.mats.set x { m with
          started := false, page := some page, order := co.nextX, slots := none
          failVa := s.loopFailVa k x { m with page := some page } l }
        nextX := co.nextX + 1 } ∧
      u.ctx? c = some cx' ∧ page ∈ cx'.faulting) ∧
  (∀ (s : Sys2Proof.Machine.State) (k x code : Nat) (co : Sys2Proof.Machine.Core) (m : Sys2Proof.Machine.MatOp)
    (l : Sys2Proof.Machine.LoopPar) (tile : Sys2Proof.Machine.Tile),
    s.core? k = some co → co.mats.get x = some m → m.body = .loop l → co.tiles.get m.tile = some tile →
    tile.leaving = false → (∀ e ∈ co.mats, e.2.fail = none) → s.loopAt k = some (x, m) →
    s.groupIn k x m l = .error (.fail code) → s.linkHolds m.slots code = false →
    ∃ u co' tile', Sys2Proof.Machine.exec (.mloopFailure k) s = .next u ∧ u.mem = s.mem ∧ u.core? k = some co' ∧
      co'.mats.get x = none ∧ co'.tiles.get m.tile = some tile' ∧ tile'.err = true ∧ tile'.data = tile.data ∧
      tile'.step = tile.step ∧ tile'.group = tile.group ∧
      co'.shared = Sys2Proof.Machine.Bar.write co.shared m.bar (Sys2Proof.Machine.Bar.test
        { Sys2Proof.Machine.Bar.read co.shared m.bar with
          bytes := (Sys2Proof.Machine.Bar.read co.shared m.bar).bytes - 16384, error := true }))

/-- R186. One element of a step with an F32 accumulator: the sum of R74 over the old element and the products. -/
def LoopElement : Prop :=
  ∀ (fmt : Sys2Proof.W64) (n : Nat) (old : Sys2Proof.W32) (xs ys : List Sys2Proof.Machine.FVal) (xi yi : List Nat),
    fmt.getLsbD 11 = false →
    Sys2Proof.Machine.stepElem fmt n old xs ys xi yi =
      Sys2Proof.Machine.windowSum (Sys2Proof.Machine.f32 old :: List.zipWith Sys2Proof.Machine.FVal.mul xs ys)

/-- R196 to R198, R19, R206. A row of an `mstore` asks for its slots of the calendar, and with them is converted and,
after what comes before its accesses, written at its destination and acknowledged, and its bytes leave the barrier; a
row that fails is left as it was, with `err` set in the barrier and in the tile. A row that is outstanding at a link
that retrains does not fail (R331). -/
def StoreRows : Prop :=
  (∀ (s : Sys2Proof.Machine.State) (k x c pa va : Nat) (co : Sys2Proof.Machine.Core) (m : Sys2Proof.Machine.MatOp)
    (p : Sys2Proof.Machine.StorePar) (tile : Sys2Proof.Machine.Tile) (cx : Sys2Proof.Machine.Ctx) (rows : List Nat),
    s.core? k = some co → co.mats.get x = some m → s.ctxOf k = some (c, cx) → m.body = .store p →
    co.tiles.get m.tile = some tile → tile.leaving = false → co.storeReady x m = true → m.fail = none →
    (m.item.isSome = true ∨ s.abandons k = false) → m.paid ≤ m.row → m.row < 63 → s.storeRows k x m p = .ok rows →
    s.rowPlaces k x m p rows = .ok [(.mem pa, va, 0, p.rowBytes)] →
    (m.slots = none → ∃ u co' w, Sys2Proof.Machine.exec (.mstoreRowAck k x) s = .next u ∧ u.mem = s.mem ∧
      u.core? k = some co' ∧ co' = { co with mats := co.mats.set x { m with slots := some w } }) ∧
    (∀ s2 co2, m.slots = some 0 → s2 = s.matBefore k x m (m.row == 0)
        ((if m.rowsRead.isNone && p.indexed then Sys2Proof.Machine.indexRuns p.index else []) ++ [(va, p.rowBytes)]) →
      s2.core? k = some co2 → ∃ u co', Sys2Proof.Machine.exec (.mstoreRowAck k x) s = .next u ∧
      u.mem = Sys2Proof.Machine.Memory.setBytes s.mem pa
        ((Sys2Proof.Machine.storeRow p.mode (m.source tile) m.row).take p.rowBytes) ∧
      u.core? k = some co' ∧ co'.tiles = co.tiles ∧
      (∀ j, j ≠ k → (u.core? j).map Sys2Proof.Claims.bareCore = (s.core? j).map Sys2Proof.Claims.bareCore) ∧
      (∃ m', co'.mats.get x = some m' ∧ m'.row = m.row + 1 ∧ m'.paid = m.row + 1 ∧ m'.rowsRead = some rows) ∧
      co'.shared = Sys2Proof.Machine.Bar.write co2.shared m.bar (Sys2Proof.Machine.Bar.test
        { Sys2Proof.Machine.Bar.read co2.shared m.bar with
          bytes := (Sys2Proof.Machine.Bar.read co2.shared m.bar).bytes - p.rowBytes }))) ∧
  (∀ (s : Sys2Proof.Machine.State) (k x code : Nat) (co : Sys2Proof.Machine.Core) (m : Sys2Proof.Machine.MatOp)
    (p : Sys2Proof.Machine.StorePar) (tile : Sys2Proof.Machine.Tile) (rows : List Nat),
    s.core? k = some co → co.mats.get x = some m → m.body = .store p → co.tiles.get m.tile = some tile →
    co.storeReady x m = true → (m.item.isSome = true ∨ s.abandons k = false) → m.paid ≤ m.row → m.row < 63 →
    m.fail = none → s.storeRows k x m p = .ok rows → s.rowPlaces k x m p rows = .error (.fail code) →
    s.linkHolds m.slots code = false →
    ∃ u co', Sys2Proof.Machine.exec (.mstoreRowFail k x) s = .next u ∧ u.mem = s.mem ∧ u.core? k = some co' ∧
      (∃ tile', co'.tiles.get m.tile = some tile' ∧ tile' = { tile with err := true }) ∧
      (∃ m', co'.mats.get x = some m' ∧ m'.row = m.row + 1) ∧
      co'.shared = Sys2Proof.Machine.Bar.write co.shared m.bar (Sys2Proof.Machine.Bar.test
        { Sys2Proof.Machine.Bar.read co.shared m.bar with
          bytes := (Sys2Proof.Machine.Bar.read co.shared m.bar).bytes - p.rowBytes, error := true }))

/-- R231, R232, R240. A plot that is Off wakes when a page of it is allocated; a waking one becomes Warm; a Warm one
with no pinned page goes to Retention once 200 µs have passed without a request and its contexts permit it; the last
page freed turns a Warm or retained plot Off and its contents are lost, and no other byte; a failed pseudo-channel
stays failed; a unit that a die or the controller mends is counted, and one that cannot be rebuilt is lost. The
numbers of these failures are the model's own (log entry 65). Where the spec leaves it open, this rests on the model's
choice in log entry 5. -/
def PlotStates : Prop :=
  (∀ (s : Sys2Proof.Machine.State) (c p : Nat), s.rkUp = true → p < 64 →
    ((s.plot p).state = .off → Sys2Proof.Machine.exec (.plotAllocate c p) s =
      .next { s with plots := s.plots.set p ⟨.waking, s.tstamp, [c], []⟩ }) ∧
    ((s.plot p).state ≠ .off → c ∉ (s.plot p).owners → Sys2Proof.Machine.exec (.plotAllocate c p) s =
      .next { s with plots := s.plots.set p { s.plot p with owners := (s.plot p).owners ++ [c] } })) ∧
  (∀ (s : Sys2Proof.Machine.State) (p : Nat), (s.plot p).state = .waking →
    ∃ u : Sys2Proof.Machine.State, Sys2Proof.Machine.exec (.plotWakeComplete p) s = .next u.drainTraces.drainPosted ∧
      u = { s with plots := u.plots, cores := u.cores } ∧ u.plot p = { s.plot p with state := .warm } ∧
      (∀ q, q ≠ p → u.plot q = s.plot q) ∧
      (∀ k, u.core? k = (s.core? k).map fun co => co.plotAwake p s.tstamp) ∧
      (s.posted = [] → (∀ e ∈ s.cores, e.2.trPend = []) → u.drainTraces.drainPosted = u)) ∧
  (∀ (s : Sys2Proof.Machine.State) (p : Nat), (s.plot p).state = .warm → s.plotPinned p = false →
    200000 ≤ (s.tstamp - (s.plot p).last).toNat →
    (∀ c ∈ (s.plot p).owners, ∀ x, s.ctx? c = some x → x.permits p s.tstamp = true) →
    Sys2Proof.Machine.exec (.plotRetentionEntry p) s =
      .next { s with plots := s.plots.set p { s.plot p with state := .retention } }) ∧
  (∀ (s : Sys2Proof.Machine.State) (c p : Nat), s.rkUp = true → c ∈ (s.plot p).owners →
    (∀ h ∈ s.frameHolds, h.owner = c → h.pa < 2 ^ 39 → h.pa / 2 ^ 33 ≠ p) →
    (∀ d ∈ (s.plot p).owners, d = c) → (s.plot p).state = .warm ∨ (s.plot p).state = .retention →
    ∃ u, Sys2Proof.Machine.exec (.plotPowerDown c p) s = .next u ∧ (u.plot p).state = .off ∧ (u.plot p).owners = [] ∧
      (∀ q, q ≠ p → u.plot q = s.plot q) ∧
      ∀ a, Sys2Proof.Machine.Memory.get u.mem a =
        if a < 2 ^ 39 ∧ a / 2 ^ 33 = p then Sys2Proof.Config.unwritten a else Sys2Proof.Machine.Memory.get s.mem a) ∧
  (∀ (s : Sys2Proof.Machine.State) (ch : Nat), ch < 512 → ch ∉ s.failedCh →
    ∃ u, Sys2Proof.Machine.exec (.pseudoChannelFail ch) s = .next u ∧ u.failedCh = s.failedCh ++ [ch] ∧ u.mem = s.mem) ∧
  (∀ (s : Sys2Proof.Machine.State) (u : Nat), 256 * u < 2 ^ 39 →
    Sys2Proof.Machine.exec (.pseudoChannelFail (512 + 3 * u)) s = .next { s with corrected := s.corrected + 1 } ∧
    ((∀ ch ∈ s.failedCh, ch = Sys2Proof.Machine.channelOf u ∨ ch / 8 ≠ Sys2Proof.Machine.groupOf u) →
      Sys2Proof.Machine.exec (.pseudoChannelFail (513 + 3 * u)) s = .next { s with corrected := s.corrected + 1 }) ∧
    ((∃ ch ∈ s.failedCh, ch ≠ Sys2Proof.Machine.channelOf u ∧ ch / 8 = Sys2Proof.Machine.groupOf u) →
      ∃ us, Sys2Proof.Machine.exec (.pseudoChannelFail (513 + 3 * u)) s = .next { s with lost := s.lost ++ us } ∧
        ∀ v, v ∈ s.lost ++ us ↔ v ∈ s.lost ∨ v = u ∨
          (v ∈ Sys2Proof.Machine.stripeUnits u ∧ Sys2Proof.Machine.channelOf v ∈ s.failedCh)) ∧
    ∃ us, Sys2Proof.Machine.exec (.pseudoChannelFail (514 + 3 * u)) s = .next { s with lost := s.lost ++ us } ∧
      u ∈ s.lost ++ us ∧ us.length ≤ 2 ∧ ∀ v ∈ us, v ∈ Sys2Proof.Machine.stripeUnits u)

/-- R233, R234. The oldest write of `bwphase` is adopted: a write of the level already adopted changes nothing more; a
change of level ends the interval, saves its touch set, and starts a new one; a rise wakes the plots in Retention of
the saved set of the new level. Where the spec leaves it open, this rests on the model's choice in log entries 25 and
26. -/
def BandwidthPhase : Prop :=
  ∀ (s : Sys2Proof.Machine.State) (c : Nat) (x : Sys2Proof.Machine.Ctx) (w : Sys2Proof.Machine.BwWrite)
    (ws : List Sys2Proof.Machine.BwWrite),
    s.ctx? c = some x → x.bwWrites = w :: ws →
    (w.level = x.bwLevel →
      Sys2Proof.Machine.exec (.bwphaseWrite c) s = .next (s.updCtx c fun _ => { x with bwWrites := ws })) ∧
    (w.level ≠ x.bwLevel →
      ∃ u x', Sys2Proof.Machine.exec (.bwphaseWrite c) s = .next u ∧ u = { s with ctxs := u.ctxs, plots := u.plots } ∧
        u.ctx? c = some x' ∧ (∀ j, j ≠ c → u.ctx? j = s.ctx? j) ∧ x'.bwLevel = w.level ∧ x'.bwWrites = ws ∧
        x'.touchTr = (if x.bwLevel = 1 then x.touched else x.touchTr) ∧
        x'.touchSt = (if x.bwLevel = 2 then x.touched else x.touchSt) ∧
        x'.touchFu = (if x.bwLevel = 3 then x.touched else x.touchFu) ∧
        (w.level < x.bwLevel → x'.touched = 0 ∧ x'.bwFell = some s.tstamp ∧ u.plots = s.plots) ∧
        ∀ q pl, s.plots.get q = some pl → q < 64 → x.bwLevel < w.level →
          u.plots.get q = some (if pl.state = .retention ∧
              (if w.level = 1 then x.touchTr else if w.level = 2 then x.touchSt else x.touchFu).getLsbD q = true
            then { pl with state := .waking, last := s.tstamp } else pl))

/-- R245, R246, R257, R260. A vacate that waits for nothing any longer saves every core of the context as it stands
and releases them all, and counts its time in the record; one that fails as the save is written spoils the context
with 0x0310, grade 2; until then neither happens. Where the spec leaves it open, this rests on the model's choice in
log entries 8 and 51. -/
def VacateEnds : Prop :=
  ∀ (s : Sys2Proof.Machine.State) (c t : Nat) (x : Sys2Proof.Machine.Ctx),
    s.ctx? c = some x → x.state = .vacating → x.destroyPend = false →
    t = min ((s.tstamp - x.vstart - x.frozenNs).toNat * 256 / 1000) (2 ^ 32 - 1) →
    (s.vacateReady c x = true →
      ∃ u x', Sys2Proof.Machine.exec (.vacateComplete c) s = .next u ∧ (∀ e ∈ u.cores, e.2.ctx ≠ some c) ∧
        u.ctx? c = some x' ∧ x'.state = .saved ∧ x'.vtime = t ∧ x'.vmax = max x.vmax t ∧ x'.vcount = x.vcount + 1 ∧
        (x.censuses = [] → x'.census = 0) ∧ (x.censuses ≠ [] → x.save < x'.census) ∧
        ∀ k co, s.core? k = some co → co.ctx = some c → ∃ co', x'.saved.get k = some co' ∧ co'.teams = co.teams ∧
          co'.crews = co.crews ∧ co'.shared = co.shared ∧ co'.tiles = co.tiles ∧ co'.items = co.items ∧
          co'.allow = co.allow) ∧
    (s.vacateReady c x = false → Sys2Proof.Machine.exec (.vacateComplete c) s = .next s ∧
      Sys2Proof.Machine.exec (.saveFailure c) s = .next s) ∧
    (s.vacateReady c x = true → ∃ u x' e, Sys2Proof.Machine.exec (.saveFailure c) s = .next u ∧ (∀ e ∈ u.cores, e.2.ctx ≠ some c) ∧
      u.ctx? c = some x' ∧ x'.state = .spoiled ∧ x'.fault = 0x0310 ∧ x'.grade = 2 ∧ x'.log = x.log ++ [e] ∧
      e.code = 0x0310 ∧ e.grade = 2)

/-- R258, R245. A restore places the saved cores back, and the context is Restoring; once its last core issues it is
Running. A destroy waits for a vacate, and else takes at once: no core and no queue of the context is left. Where the
spec leaves it open, this rests on the model's choice in log entries 12, 50 and 51. -/
def RestoreAndDestroy : Prop :=
  (∀ (s : Sys2Proof.Machine.State) (c : Nat) (x y : Sys2Proof.Machine.Ctx),
    s.ctx? c = some x → s.rereadCtx c x = some y → s.rkUp = true → x.state = .saved → y.withinBound = true →
    s.restoreRoom c y = true → (∀ e ∈ s.cores, e.2.ctx ≠ some c) → (∀ e ∈ y.saved, e.2.asyncs = []) →
    ∃ u, Sys2Proof.Machine.exec (.contextRestore c) s = .next u ∧
      u.cores = y.saved.foldl (fun m e => Sys2Proof.Machine.Map.set m e.1 e.2) s.cores ∧
      u.ctx? c = some { y with state := .restoring, saved := [], savedDie := [] }) ∧
  (∀ (s : Sys2Proof.Machine.State) (c : Nat) (x : Sys2Proof.Machine.Ctx),
    s.ctx? c = some x → x.state = .restoring → x.pendPre = none →
    ∃ u, Sys2Proof.Machine.exec (.restoreComplete c) s = .next u ∧ u.cores = s.cores ∧
      u.ctx? c = some { x with state := .running, before := .running }) ∧
  (∀ (s : Sys2Proof.Machine.State) (c : Nat) (x : Sys2Proof.Machine.Ctx), s.ctx? c = some x →
    (x.state = .vacating →
      Sys2Proof.Machine.exec (.contextDestroy c) s = .next (s.updCtx c fun _ => { x with destroyPend := true })) ∧
    (x.state ≠ .destroyed → x.state ≠ .vacating → x.state ≠ .frozen →
      ∃ u x', Sys2Proof.Machine.exec (.contextDestroy c) s = .next u ∧ u.ctx? c = some x' ∧ x'.state = .destroyed ∧
        x'.saved = [] ∧ x'.kernels = [] ∧ (∀ e ∈ u.cores, e.2.ctx ≠ some c) ∧ (∀ e ∈ u.queues, e.2.ctx ≠ some c) ∧
        (∀ j, j ≠ c → u.ctx? j = s.ctx? j)))

/-- R288, R290, R291, R240. A counter add saturates, and a Waiting record whose open conditions then hold becomes
Ready, each slot once found to hold kept so: every add of a counter evaluates each record that names it. The add of a
`seq.add` and the read of a `seq.rd` are acknowledged in their barriers; a due add of a phase, once the writes of its
team are acknowledged, is performed in its slot of the calendar and settled, and one that is refused, lacks a
permission or meets lost data is dropped alone and logged; no cost leaves before the last add of the commit. Where the
spec leaves it open, this rests on the model's choice in log entry 32. -/
def CountersPerformed : Prop :=
  (∀ (s : Sys2Proof.Machine.State) (c va amt pa : Nat) (x : Sys2Proof.Machine.Ctx), s.ctx? c = some x →
    s.translate c va .rw = .pa pa → va ≠ 0 → Sys2Proof.Claims.Unwatched s c x va →
    ∃ v, s.counterAdd c va amt = some v ∧ v.cores = s.cores ∧
      v.mem = Sys2Proof.Machine.Memory.setBytes s.mem pa (Sys2Proof.Machine.toBytes 8
        (min (Sys2Proof.Machine.ofBytes (Sys2Proof.Machine.Memory.bytes s.mem pa 8) + amt) (2 ^ 64 - 1)))) ∧
  (∀ (s : Sys2Proof.Machine.State) (c va amt pa : Nat) (x : Sys2Proof.Machine.Ctx) (ws : List (Nat × Nat)),
    s.ctx? c = some x → s.translate c va .rw = .pa pa →
    ws = (x.kernels.flatMap fun kn =>
      (kn.2.recs.filter fun r => r.2.cond.any fun e => e.2.1 == va).map fun r => (kn.1, r.1)) →
    ∃ s1 v : Sys2Proof.Machine.State, s.counterAdd c va amt = some v ∧ s.counterAddAt c va pa amt = v ∧
      s1.mem = Sys2Proof.Machine.Memory.setBytes s.mem pa (Sys2Proof.Machine.toBytes 8
        (min (Sys2Proof.Machine.ofBytes (Sys2Proof.Machine.Memory.bytes s.mem pa 8) + amt) (2 ^ 64 - 1))) ∧
      s1.cores = s.cores ∧ s1.queues = s.queues ∧ s1.tstamp = s.tstamp ∧ (∀ n, s1.kern? c n = s.kern? c n) ∧
      v = (ws.foldl (fun s w => s.evalRec c w.1 w.2) s1).queuesAt (some c) va ∧
      ∀ n r kn rec, ws = [(n, r)] → s.kern? c n = some kn → kn.recs.get r = some rec → rec.state = .waiting →
        (∀ e ∈ rec.cond, e.1 ∈ rec.held ∨ s1.condHolds c e.2 = true) →
        ∃ kn' rec', v.kern? c n = some kn' ∧ kn'.recs.get r = some rec' ∧ rec'.state = .ready ∧
          rec'.readyts = s.tstamp ∧ kn'.readyQ = kn.readyQ ++ [r]) ∧
  (∀ (s : Sys2Proof.Machine.State) (c n r : Nat) (kn : Sys2Proof.Machine.Kern) (rec : Sys2Proof.Machine.PhaseRec),
    s.kern? c n = some kn → kn.recs.get r = some rec → rec.state = .waiting →
    ∃ kn' rec', (s.evalRec c n r).kern? c n = some kn' ∧ kn'.recs.get r = some rec' ∧
      (∀ e ∈ rec.cond, e.1 ∈ rec'.held ↔ e.1 ∈ rec.held ∨ ∃ f ∈ rec.cond, f.1 = e.1 ∧ f.2.1 ≠ 0 ∧ s.condHolds c f.2 = true) ∧
      (if ∀ e ∈ rec.cond, e.1 ∈ rec.held ∨ s.condHolds c e.2 = true then
        kn'.readyQ = kn.readyQ ++ [r] ∧ kn'.nextReady = kn.nextReady + 1 ∧
          rec' = { rec with held := rec'.held, state := .ready, readyts := s.tstamp, readyNo := kn.nextReady }
      else kn'.readyQ = kn.readyQ ∧ rec' = { rec with held := rec'.held })) ∧
  (∀ (s : Sys2Proof.Machine.State) (k x c amt : Nat) (co : Sys2Proof.Machine.Core) (op : Sys2Proof.Machine.AsyncOp)
    (p : Sys2Proof.Machine.Part) (y : Sys2Proof.Machine.Acc) (ctx : Sys2Proof.Machine.Ctx),
    Sys2Proof.Claims.OnePart s k x co op p y → Sys2Proof.Claims.Kept s p y → s.ctxOf k = some (c, ctx) →
    op.kind = .seqAdd amt → y.len = 8 →
    ∃ u v, Sys2Proof.Machine.exec (.seqAddPerform k x) s = .next u ∧ v = s.counterAddAt c y.va y.pa amt ∧ u.mem = v.mem ∧
      u.ctxs = v.ctxs ∧ u.queues = v.queues ∧
      (op.rel = false ∨ Sys2Proof.Claims.Quiet s k op → Sys2Proof.Claims.Settled u k x co co.shared op p 8 false)) ∧
  (∀ (s : Sys2Proof.Machine.State) (k x : Nat) (co : Sys2Proof.Machine.Core) (op : Sys2Proof.Machine.AsyncOp)
    (p : Sys2Proof.Machine.Part) (y : Sys2Proof.Machine.Acc),
    Sys2Proof.Claims.OnePart s k x co op p y → Sys2Proof.Claims.Kept s p y → op.kind = .seqRd →
    ∃ u s2 co2, Sys2Proof.Machine.exec (.seqRdComplete k x) s = .next u ∧
      s2 = (s.preWrites p).partBefore k x op p ∧ s2.core? k = some co2 ∧ u.mem = s2.mem ∧
      (op.rel = false → Sys2Proof.Claims.Settled u k x co2
        (Sys2Proof.Machine.Regs.setBytes co2.shared y.loc (Sys2Proof.Claims.seen s2 y)) op p y.len false) ∧
      (Sys2Proof.Claims.Quiet s k op → Sys2Proof.Claims.Alone s p → u.mem = s.mem ∧
        Sys2Proof.Claims.Settled u k x co
          (Sys2Proof.Machine.Regs.setBytes co.shared y.loc (Sys2Proof.Claims.seen s y)) op p y.len false)) ∧
  (∀ (s : Sys2Proof.Machine.State) (c n r i : Nat) (kn : Sys2Proof.Machine.Kern) (rec : Sys2Proof.Machine.PhaseRec)
    (a : Sys2Proof.Machine.CommitAdd), s.kern? c n = some kn → kn.recs.get r = some rec → rec.commit[i]? = some a →
    rec.due = true →
    (∀ pa (g : Sys2Proof.Machine.Agent), a.refused = false → s.translate c a.va .rw = .pa pa → s.commitClear c rec = true →
      (Sys2Proof.Machine.isFar pa = true → (s.link 1).serves = true) →
      (Sys2Proof.Machine.isHbm pa = true → s.isLost pa 8 = false ∧ s.writeLost pa 8 = false) →
      g = ⟨some c, Sys2Proof.Machine.addId c n r a.va, 21⟩ →
      Sys2Proof.Machine.exec (.deferredAddPerform c n r i) s =
        .next (if s.runsReady g [] [(pa, 8)] = true then
          ((((s.walkTouch c a.va).doneRuns g [(pa, 8)]).preRead pa 8).counterAddAt c a.va pa a.amt).settleAdd c n r i a
        else s.askRuns g [] [(pa, 8)])) ∧
    (s.commitClear c rec = false → Sys2Proof.Machine.exec (.deferredAddPerform c n r i) s = .next s ∧
      Sys2Proof.Machine.exec (.deferredAddDrop c n r i) s = .next s) ∧
    (∀ co, s.core? rec.core = some co → co.ctx = some c → (s.commitClear c rec = true ↔
      ∀ x ∈ rec.after, co.outstanding x = false)) ∧
    (rec.commit.eraseIdx i ≠ [] → (s.settleAdd c n r i a).cores = s.cores) ∧
    (∀ ctx code, s.ctx? c = some ctx → s.commitClear c rec = true →
      (a.refused = true ∧ code = 0x0302) ∨
        (a.refused = false ∧ s.translate c a.va .rw = .bad ∧ code = 0x0301) ∨
        (∃ pa, a.refused = false ∧ s.translate c a.va .rw = .pa pa ∧ Sys2Proof.Machine.isHbm pa = true ∧
          if (s.plot (Sys2Proof.Machine.plotOf pa)).state = .off then code = 0x0301
          else (s.isLost pa 8 = true ∨ s.writeLost pa 8 = true) ∧ code = 0x0304) →
      ∃ u ctx' e, Sys2Proof.Machine.exec (.deferredAddDrop c n r i) s = .next u ∧ u.ctx? c = some ctx' ∧
        ctx'.log = ctx.log ++ [e] ∧ e.act = 0 ∧ e.grade = 1 ∧ e.code = BitVec.ofNat 16 code ∧
        e.info = BitVec.ofNat 64 a.va) ∧
    ∃ kn', (s.settleAdd c n r i a).kern? c n = some kn' ∧
      (if kn.records ≤ r ∧ rec.commit.eraseIdx i = [] then kn'.recs.get r = none
      else ∃ rec', kn'.recs.get r = some rec' ∧ rec'.commit = rec.commit.eraseIdx i ∧
        rec'.state = (if rec.state = .final ∧ rec.commit.eraseIdx i = [] then .free else rec.state)))

/-- R292, R293. An acknowledged push at `pub` is published; the oldest pending pop gets the record at `head`, whole,
in its crew's region, or fails where the record cannot be read, which stays at the head; a descriptor that keeps its
limits is registered, or its ring, size and binding are replaced. Where the spec leaves it open, this rests on the
model's choice in log entry 35. -/
def RecordQueues : Prop :=
  (∀ (s v : Sys2Proof.Machine.State) (k x c q : Nat) (co : Sys2Proof.Machine.Core) (op : Sys2Proof.Machine.AsyncOp)
    (p : Sys2Proof.Machine.Part) (y : Sys2Proof.Machine.Acc) (ctx : Sys2Proof.Machine.Ctx)
    (rq : Sys2Proof.Machine.RecQueue),
    Sys2Proof.Claims.OnePart s k x co op p y → Sys2Proof.Claims.Kept s p y → s.ctxOf k = some (c, ctx) →
    op.kind = .recPush q rq.pub → q % 64 = 0 → y.data.length = y.len → y.pre = [] →
    s.recq? c q = some rq → rq.acked = [] → rq.bind = false → v = s.setPa y.pa y.data →
    ∃ u, Sys2Proof.Machine.exec (.recPushAck k x) s = .next u ∧ u.recq? c q = some { rq with pub := rq.pub + 1 } ∧
      (op.rel = false ∨ Sys2Proof.Claims.Quiet s k op → Sys2Proof.Claims.Settled u k x co co.shared op p 64 false) ∧
      ∀ b, (∀ f, v.translate c (q + 0x10) .w = .pa f → b < f ∨ f + 24 ≤ b) →
        Sys2Proof.Machine.Memory.get u.mem b = Sys2Proof.Machine.Memory.get v.mem b) ∧
  (∀ (s : Sys2Proof.Machine.State) (k x c q n : Nat) (co : Sys2Proof.Machine.Core) (op : Sys2Proof.Machine.AsyncOp)
    (p : Sys2Proof.Machine.Part) (y : Sys2Proof.Machine.Acc) (ctx : Sys2Proof.Machine.Ctx)
    (rq : Sys2Proof.Machine.RecQueue) (os : List Sys2Proof.Machine.PendPop) (t : Sys2Proof.Machine.Tr),
    Sys2Proof.Claims.OnePart s k x co op p y → s.ctxOf k = some (c, ctx) → op.kind = .recPop q → y.len = 64 →
    s.recq? c q = some rq → rq.pops = ⟨k, x, n⟩ :: os → rq.head < rq.pub → rq.bind = false →
    t = s.translate c (rq.ring + 64 * (rq.head % rq.size)) .r →
    (∀ a (g : Sys2Proof.Machine.Agent), t = .pa a → (Sys2Proof.Machine.isFar a = true → (s.link 1).serves = true) →
      (Sys2Proof.Machine.isHbm a = true → (s.plot (Sys2Proof.Machine.plotOf a)).state ≠ .off ∧ s.isLost a 64 = false) →
      g = ⟨some c, Sys2Proof.Machine.popId p.id, Sys2Proof.Machine.linkUnit k⟩ →
      if s.runsReady g [] [(a, 64)] = true then ∃ u, Sys2Proof.Machine.exec (.recPopPlace k x) s = .next u ∧
        u.recq? c q = some { rq with head := rq.head + 1, pops := os } ∧
        (op.rel = false ∨ Sys2Proof.Claims.Quiet s k op → Sys2Proof.Claims.Settled u k x co
          (Sys2Proof.Machine.Regs.setBytes co.shared y.loc (Sys2Proof.Machine.Memory.bytes s.mem a 64)) op p 64 false)
      else Sys2Proof.Machine.exec (.recPopPlace k x) s = .next (s.askRuns g [] [(a, 64)])) ∧
    (t = .bad ∨ (∃ a, t = .pa a ∧ Sys2Proof.Machine.isFar a = true ∧ (s.link 1).serves = false) ∨
        (∃ a, t = .pa a ∧ Sys2Proof.Machine.isHbm a = true ∧ ((s.plot (Sys2Proof.Machine.plotOf a)).state = .off ∨
          s.isLost a 64 = true)) →
      ∃ u, Sys2Proof.Machine.exec (.recPopPlace k x) s = .next u ∧
        u.recq? c q = some { rq with pops := os.filter fun o => !(o.core == k && o.x == x) } ∧
        (op.rel = false ∨ Sys2Proof.Claims.Quiet s k op → Sys2Proof.Claims.Settled u k x co co.shared op p 64 true))) ∧
  (∀ (s : Sys2Proof.Machine.State) (c desc : Nat) (ctx : Sys2Proof.Machine.Ctx) (bs : List Sys2Proof.Byte)
    (w : Nat → Sys2Proof.W64), s.ctx? c = some ctx → s.readVa c desc 64 = some bs →
    w = Sys2Proof.Machine.word64s bs → s.rkUp = true → desc % 64 = 0 → Sys2Proof.Machine.recqLegal w = true →
    s.runWarm c desc 64 = true → s.runWarm c (w 0).toNat (64 * ((w 1).toNat % 2 ^ 32)) = true →
    ∃ u rq, Sys2Proof.Machine.exec (.recordQueueRegister c desc) s = .next u ∧ u.recq? c desc = some rq ∧
      rq.ring = (w 0).toNat ∧ rq.size = (w 1).toNat % 2 ^ 32 ∧
      rq.bind = (w 5).getLsbD 32 ∧ rq.thresh = (w 5).toNat / 2 ^ 16 % 2 ^ 16 ∧ rq.kernel = (w 5).toNat % 2 ^ 16 ∧
      (ctx.recqs.get desc = none → rq.head = 0 ∧ rq.tail = 0 ∧ rq.pub = 0 ∧ rq.pops = []) ∧
      ∀ o, ctx.recqs.get desc = some o → rq =
        { o with ring := rq.ring, size := rq.size, bind := rq.bind, thresh := rq.thresh, kernel := rq.kernel })

/-- R296 to R299, R305. The states of a queue: a doorbell writes its tail, announces work, or breaks it where the tail
is out of range; a slot maps the queue whose process and priority are next; closing frees its lane, and an abandoned
WAITSEQ leaves its operands; a fault is mapped or refused; the resident kernel deletes it; a period's end closes what
has held its slot while others wait, and what it runs leaves its lane at once or when its packet is settled; the
hypervisor sets slots, period and weights, and with them the bindings of peers, the functions that the counter units
count, and the calendar. Within a round the processes are taken by number, the model's choice (log entry 67). Where
the spec leaves it open, this rests on the model's choice in log entry 47. -/
def QueueStates : Prop :=
  (∀ (s : Sys2Proof.Machine.State) (fn q key : Nat) (tail : BitVec 32) (y : Sys2Proof.Machine.Queue),
    key = 256 * fn + q → s.queues.get key = some y → (s.link 0).serves = true →
    (y.removing = true → y.size < (tail - y.head).toNat →
      Sys2Proof.Machine.exec (.doorbellWrite fn q tail) s = .next { s with queues := s.queues.del key }) ∧
    (y.removing = false ∨ (tail - y.head).toNat ≤ y.size →
      ∃ u y', Sys2Proof.Machine.exec (.doorbellWrite fn q tail) s = .next u ∧ u.queues.get key = some y' ∧
        y'.tail = tail ∧ y'.head = y.head ∧ y'.bell = s.fresh ∧
        (y.size < (tail - y.head).toNat → y'.state = .broken ∧ y'.lane = none ∧ y'.fva = 0) ∧
        ((tail - y.head).toNat ≤ y.size →
          (if (y.state = .unmapped ∨ y.state = .closing ∨ y.state = .faulted) ∧ tail ≠ y.head ∧ y.wva = 0 ∧ y.pending = false
            then y' = { y with tail := tail, bell := s.fresh, pending := true, eligibleAt := s.tstamp }
            else y' = { y with tail := tail, bell := s.fresh })))) ∧
  (∀ (s : Sys2Proof.Machine.State) (fn q lane key : Nat) (y : Sys2Proof.Machine.Queue) (fresh : Bool)
    (rivals : List (Nat × Sys2Proof.Machine.Queue)) (weight used : Nat → Nat),
    key = 256 * fn + q → q < 256 → s.queues.get key = some y → s.eligible y = true → lane < 256 →
    (∀ e ∈ s.queues, e.2.lane ≠ some lane) → s.usedSlots fn y.priv < (if y.priv then 8 else (s.slotsOf fn).slots) →
    rivals = (s.queues.filter fun e => s.eligible e.2 && e.2.priv == y.priv && (y.priv || e.1 / 256 == fn)) →
    (∀ e ∈ rivals, y.priv = true ∨ e.2.pid = y.pid → e = (key, y) ∨ y.goesBefore e.2 = true) →
    (∀ p, weight p = ((s.slotsOf fn).weights.get p).getD 1) → (∀ p, used p = ((s.slotsOf fn).used.get p).getD 0) →
    y.priv = true ∨ (fresh = false ∧ used y.pid < weight y.pid ∧
        ∀ e ∈ rivals, used e.2.pid < weight e.2.pid → y.pid ≤ e.2.pid) ∨
      (fresh = true ∧ (∀ e ∈ rivals, weight e.2.pid ≤ used e.2.pid) ∧ 0 < weight y.pid ∧
        ∀ e ∈ rivals, 0 < weight e.2.pid → y.pid ≤ e.2.pid) →
    ∃ u, Sys2Proof.Machine.exec (.queueSlotGrant fn q lane) s = .next u ∧ u.queues.get key = some { y with
      state := .mapped, pending := false, wva := 0, wthr := 0, lane := some lane, grantedAt := s.tstamp } ∧
      (y.priv = false → ((u.slotsOf fn).used.get y.pid).getD 0 = (if fresh then 0 else used y.pid) + 1)) ∧
  (∀ (s : Sys2Proof.Machine.State) (fn q key : Nat) (y : Sys2Proof.Machine.Queue),
    key = 256 * fn + q → s.queues.get key = some y →
    (y.state = .closing → y.packet = none → y.removing = false →
      ∃ u y', Sys2Proof.Machine.exec (.queueUnmap fn q) s =
          .next (if y.priv then u else Sys2Proof.Machine.grantAll fn
            (if s.queueRuns y = true then (s.slotsOf fn).last else s.tstamp) 1 u) ∧ u.queues.get key = some y' ∧
        y'.state = .unmapped ∧ y'.lane = none ∧ y'.head = y.head ∧ y'.tail = y.tail ∧
        (y.tail ≠ y.head ∨ y.pending = true → y'.pending = true)) ∧
    (∀ p, y.state = .closing → y.packet = some p → y.begun = true → y.fin = none →
      Sys2Proof.Claims.packetWord p 0 / 2 ^ 56 = 3 → y.removing = false →
      ∃ u y', Sys2Proof.Machine.exec (.queueUnmap fn q) s =
          .next (if y.priv then u else Sys2Proof.Machine.grantAll fn
            (if s.queueRuns y = true then (s.slotsOf fn).last else s.tstamp) 1 u) ∧ u.queues.get key = some y' ∧
        y'.state = .unmapped ∧ y'.lane = none ∧ y'.packet = none ∧ y'.head = y.head ∧ y'.tail = y.tail ∧
        y'.wva = Sys2Proof.Claims.packetWord p 1 ∧ y'.wthr = Sys2Proof.Claims.packetWord p 2 ∧
        (y.pending = true → y'.pending = true)) ∧
    (y.state = .closing → y.packet = none → y.removing = true →
      Sys2Proof.Machine.exec (.queueUnmap fn q) s = .next (if y.priv then { s with queues := s.queues.del key }
        else Sys2Proof.Machine.grantAll fn s.tstamp 1 { s with queues := s.queues.del key })) ∧
    (s.rkUp = true → y.state = .faulted →
      (∀ pa, Sys2Proof.Machine.walk s.mem .r y.fva 4 (s.rootOf y.ctx) = .pa pa →
        ∃ u, Sys2Proof.Machine.exec (.queueFaultMapped fn q) s = .next u ∧ u.queues.get key = some { y with
          state := .unmapped, pending := true, eligibleAt := s.tstamp }) ∧
      ∃ u, Sys2Proof.Machine.exec (.queueFaultRefused fn q) s = .next u ∧
        u.queues.get key = some { y with state := .broken }) ∧
    (s.rkUp = true → y.state = .mapped ∨ y.state = .closing →
      ∃ u, Sys2Proof.Machine.exec (.queueDelete fn q) s = .next u ∧
        u.queues.get key = some { y with state := .closing, removing := true }) ∧
    (s.rkUp = true → y.state ≠ .mapped → y.state ≠ .closing →
      Sys2Proof.Machine.exec (.queueDelete fn q) s = .next { s with queues := s.queues.del key })) ∧
  (∀ (s : Sys2Proof.Machine.State) (fn key : Nat) (y : Sys2Proof.Machine.Queue), s.queues.get key = some y →
    s.queues.wf = true → key / 256 = fn → y.priv = false → y.state = .mapped → y.packet.isSome = true ∨ y.tail ≠ y.head →
    (s.slotsOf fn).period ≤ (s.tstamp - (s.slotsOf fn).last).toNat →
    (s.slotsOf fn).period ≤ (s.tstamp - y.grantedAt).toNat →
    (∃ e ∈ s.queues, e.1 / 256 = fn ∧ e.2.priv = false ∧ s.eligible e.2 = true) →
    (∀ e ∈ s.queues, e.1 / 256 = fn → e.2.state ≠ .closing) →
    ∃ u, Sys2Proof.Machine.exec (.arbitrationPeriodBoundary fn) s = .next u ∧ (u.slotsOf fn).last = s.tstamp ∧
      (s.settled y = false → u.queues.get key = some { y with state := .closing }) ∧
      (s.settled y = true → y.removing = false → ∃ y', u.queues.get key = some y' ∧ y'.packet = none ∧
        ((y'.state = .unmapped ∧ y'.lane = none) ∨ (y'.state = .mapped ∧ y'.grantedAt = s.tstamp)))) ∧
  (∀ (s : Sys2Proof.Machine.State) (fn m period : Nat) (weights : List (Nat × Nat))
    (more : List Sys2Proof.RkSetting), s.rkUp = true → fn ≤ 256 →
    ((s.vfSlots.filter fun e => e.1 != fn).map fun e => e.2.slots).sum + m ≤ 248 → 100000 ≤ period → period ≤ 100000000 →
    ∃ v, Sys2Proof.Machine.exec (.vfSlotConfig fn m ⟨period, weights, more⟩) s =
        .next (more.foldl Sys2Proof.Machine.State.setting { s with vfSlots := s.vfSlots.set fn v }) ∧
      v.slots = m ∧ v.period = period ∧ v.last = s.tstamp ∧ v.used = [] ∧
      ∀ p, v.weights.get p = (weights.reverse.find? fun e => e.1 == p).map (·.2)) ∧
  ∀ (s : Sys2Proof.Machine.State) (l rctx c u fn i own glean : Nat) (x : Sys2Proof.Machine.Ctx) (comp : Option Nat),
    (l < 12 → s.ctx? c = some x → x.state ≠ .destroyed →
      (l, rctx, c) ∈ (s.setting (.peerBind l rctx c true)).peerBinds ∧
      (l, rctx, c) ∉ (s.setting (.peerBind l rctx c false)).peerBinds) ∧
    (u < 28 → fn ≤ 256 → (s.setting (.unitSelect u fn)).unitVf.get u = some fn) ∧
    (i < 1024 → own ≤ 256 → glean ≤ 256 → (s.setting (.calendarSlot i own glean comp)).calendar.get i = some ⟨own, glean, comp⟩)

/-- R296. A descriptor that keeps its limits is registered for its own function: the queue is Unmapped with its ring
and completion ring, head and tail 0; a context's queue is not privileged, and a privileged one belongs to none. Where
the spec leaves it open, this rests on the model's choice in log entry 47. -/
def QueueRegistration : Prop :=
  ∀ (s : Sys2Proof.Machine.State) (fn q c desc : Nat) (ctx : Option Nat) (w : Nat → Sys2Proof.W64),
    s.rkUp = true → fn ≤ 256 → q < 256 → desc % 128 = 0 → s.queues.get (256 * fn + q) = none →
    w = Sys2Proof.Machine.word64s (s.vaRead ctx desc 128) →
    Sys2Proof.Machine.queueLegal fn ((w 4).getLsbD 54) w = true →
    (c = 4096 ∧ ctx = none ∧ (w 4).getLsbD 54 = true ∧ s.rkRunWarm desc 128 = true ∧
        s.rkRunWarm (w 2).toNat (16 * ((w 1).toNat % 2 ^ 32)) = true) ∨
      (c ≠ 4096 ∧ ctx = some c ∧ (w 4).getLsbD 54 = false ∧ s.runWarm c desc 128 = true ∧
        s.runWarm c (w 2).toNat (16 * ((w 1).toNat % 2 ^ 32)) = true ∧
        ∃ x, s.ctx? c = some x ∧ x.state ≠ .destroyed ∧ (if x.pf then 256 else x.vf.toNat) = fn) →
    ∃ u qu, Sys2Proof.Machine.exec (.queueRegister fn q c desc) s = .next u ∧
      u.queues.get (256 * fn + q) = some qu ∧ qu.ctx = ctx ∧ qu.ring = (w 0).toNat ∧ qu.size = (w 1).toNat % 2 ^ 32 ∧
      qu.cring = (w 2).toNat ∧ qu.head = 0 ∧ qu.tail = 0 ∧ qu.state = .unmapped ∧ qu.priv = (w 4).getLsbD 54 ∧
      qu.prio = (w 4).toNat / 2 ^ 51 % 8 ∧ qu.pid = (w 4).toNat % 2 ^ 32 ∧ qu.lane = none ∧
      qu.accv = ((ctx.bind s.ctx?).any fun x => x.draining)

/-- R301, R303, R304. A sweep fetches the packet at a lane's head in its slot of the calendar; a fetch that has none
yet, or whose plot wakes, is made by a later sweep, and one that fails faults the queue and gives up its lane. A
completed packet leaves a completion entry at the head's place in the completion ring, and the head moves on; while
the entry cannot be written, the packet's status is kept and the head stays. -/
def SweepsAndCompletions : Prop :=
  (∀ (s : Sys2Proof.Machine.State) (fc key va : Nat) (y : Sys2Proof.Machine.Queue), s.asleep = false →
    (∀ e ∈ s.vfSlots, s.boundaryDue e.1 = false) → s.posted = [] →
    (∀ e ∈ s.queues, e.2.state = .closing → s.settled e.2 = false) →
    (s.queues.filter fun e => e.2.lane.any fun l => l / 64 == fc) = [(key, y)] → s.queues.get key = some y →
    y.state = .mapped → y.packet = none → y.tail ≠ y.head → va = y.ring + 64 * (y.head.toNat % y.size) →
    va % 64 = 0 →
    (∀ pa, s.vaTry y.ctx va 64 .r = .ok pa → s.runsReady (y.entryAgent key) [] [(pa, 64)] = true →
      ∃ u, Sys2Proof.Machine.exec (.frontEndSweep fc) s = .next u ∧ u.mem = s.mem ∧
        u.queues.get key = some { y with
          begun := false, fin := none, sweep := (s.sweep.get fc).getD 0 + 1
          packet := some ((List.range 8).map fun i =>
            BitVec.ofNat 64 (Sys2Proof.Machine.ofBytes (Sys2Proof.Machine.Memory.bytes s.mem (pa + 8 * i) 8))) }) ∧
    (∀ pa, s.vaTry y.ctx va 64 .r = .busy pa ∨
        (s.vaTry y.ctx va 64 .r = .ok pa ∧ s.runsReady (y.entryAgent key) [] [(pa, 64)] = false) →
      ∃ u, Sys2Proof.Machine.exec (.frontEndSweep fc) s = .next u ∧ u.mem = s.mem ∧ u.queues.get key = some y) ∧
    (s.vaTry y.ctx va 64 .r = .bad ∨ (∃ a, s.vaTry y.ctx va 64 .r = .absent a) →
      ∃ u, Sys2Proof.Machine.exec (.frontEndSweep fc) s = .next u ∧
        u.queues.get key = some { y with state := .faulted, fva := va, lane := none })) ∧
  (∀ (s : Sys2Proof.Machine.State) (key status va pa : Nat) (q q' : Sys2Proof.Machine.Queue) (p : List Sys2Proof.W64)
    (m : Sys2Proof.Machine.Memory), s.queues.get key = some q → q.packet = some p → status < 256 → va % 16 = 0 →
    va = q.cring + 16 * (q.head.toNat % q.size) →
    (s.vaTry q.ctx va 16 .w = .ok pa → s.runsReady (q.entryAgent key) [] [(pa, 16)] = true →
      m = Sys2Proof.Machine.Memory.setBytes s.mem pa (Sys2Proof.Claims.completionEntry q p status s.tstamp) →
      q' = { q with head := q.head + 1, packet := none, begun := false, acted := false, page := none, refused := false,
                    fin := none, copied := 0 } →
      (s.complete key status).queues.get key = some q' ∧
      (∀ f, Sys2Proof.Machine.walk m .r (q.desc + 0x18) 4 (s.rootOf q.ctx) = .pa f →
        (s.complete key status).mem = Sys2Proof.Machine.Memory.setBytes m f q'.bytes) ∧
      ((∀ f, Sys2Proof.Machine.walk m .r (q.desc + 0x18) 4 (s.rootOf q.ctx) ≠ .pa f) → (s.complete key status).mem = m)) ∧
    ((∀ a, s.vaTry q.ctx va 16 .w = .ok a → s.runsReady (q.entryAgent key) [] [(a, 16)] = false) →
      (s.complete key status).queues.get key = some { q with fin := some status } ∧ (s.complete key status).mem = s.mem))

/-- R316 to R318, R144. A solicit passes a directory in one step, not before the asker's reads that a `fence.m` put
before it are done: every matching entry that is not moving in is counted; of all of them, each resident or outgoing
one that has not answered queues a responder; a stub forwards, and the forward is accepted, or answered null, where it
arrives. The oldest queued match spawns its responder with the registers R318 gives it. Where the spec leaves it open,
this rests on the model's choice in log entry 44. -/
def SolicitWave : Prop :=
  (∀ (s : Sys2Proof.Machine.State) (c i k : Nat) (x : Sys2Proof.Machine.Ctx) (z : Sys2Proof.Machine.Census)
    (co : Sys2Proof.Machine.Core), s.ctx? c = some x → x.censuses.get i = some z → s.core? k = some co →
    z.stage = .counting → k ∈ z.toPass → co.ctx = some c →
    if (s.core? z.core).any (fun cz => z.afterR.any cz.outstanding) = true then
      Sys2Proof.Machine.exec (.solicitDirectoryPass c i k) s = .next s
    else ∃ u x' z' co', Sys2Proof.Machine.exec (.solicitDirectoryPass c i k) s = .next u ∧ u.mem = s.mem ∧
      u.core? k = some co' ∧ u.ctx? c = some x' ∧ x'.censuses.get i = some z' ∧
      z'.toPass = z.toPass.filter (· != k) ∧
      z'.counts = z.counts ++ ((co.dir.filter fun e => e.2.key &&& z.mask == z.key &&& z.mask &&
        e.2.state != .movingIn).map fun e => (k, e.1)) ∧
      x'.forwards = x.forwards ++ ((co.dir.filter fun e => Sys2Proof.Claims.passed z i e.2 == .forwarded).map fun e =>
        ⟨i, k, e.1, e.2.peer, e.2.pentry⟩) ∧
      ((co.dir.map (·.1)).Pairwise (· < ·) → co' = { co with
        spawnQ := co.spawnQ ++ ((co.dir.filter fun e => Sys2Proof.Claims.passed z i e.2 == .queued).map fun e =>
          ⟨i, e.1, k, e.1⟩)
        answers := co.answers ++ ((co.dir.filter fun e => Sys2Proof.Claims.passed z i e.2 == .null).map fun e =>
          ⟨i, k, e.1, none⟩)
        dir := co.dir.map fun e => if Sys2Proof.Claims.passed z i e.2 = .queued then
            (e.1, { e.2 with answered := e.2.answered ||| BitVec.ofNat 64 (2 ^ i) }) else e })) ∧
  (∀ (s : Sys2Proof.Machine.State) (c j : Nat) (x : Sys2Proof.Machine.Ctx) (f : Sys2Proof.Machine.Forward)
    (co : Sys2Proof.Machine.Core), s.ctx? c = some x → x.present = true → x.forwards[j]? = some f →
    s.core? f.target = some co →
    ∃ u x' co', Sys2Proof.Machine.exec (.solicitForwardArrive c j) s = .next u ∧ u.ctx? c = some x' ∧
      u.core? f.target = some co' ∧
      (∀ d, co.dir.get f.tentry = some d → d.state = .resident ∨ d.state = .movingOut → d.dropping = false →
        d.answered.toNat.testBit f.slot = false → x'.forwards = x.forwards.eraseIdx j ∧
        co' = { co with
          spawnQ := co.spawnQ ++ [⟨f.slot, f.tentry, f.ccore, f.centry⟩]
          dir := co'.dir } ∧
        Sys2Proof.Claims.Swept
          (co.dir.set f.tentry { d with answered := d.answered ||| BitVec.ofNat 64 (2 ^ f.slot) }) co'.dir) ∧
      (co.dir.get f.tentry = none ∨ (∃ d, co.dir.get f.tentry = some d ∧ (d.state = .movingIn ∨
          (d.state ≠ .stub ∧ (d.dropping = true ∨ d.answered.toNat.testBit f.slot = true)))) →
        x'.forwards = x.forwards.eraseIdx j ∧
        co' = { co with answers := co.answers ++ [⟨f.slot, f.ccore, f.centry, none⟩], dir := co'.dir } ∧
        Sys2Proof.Claims.Swept co.dir co'.dir) ∧
      (∀ d, co.dir.get f.tentry = some d → d.state = .stub → co' = { co with dir := co'.dir } ∧
        Sys2Proof.Claims.Swept co.dir co'.dir ∧ x'.forwards = x.forwards.eraseIdx j ++ [{ f with target := d.peer, tentry := d.pentry }])) ∧
  (∀ (s : Sys2Proof.Machine.State) (k pos c : Nat) (co : Sys2Proof.Machine.Core) (x : Sys2Proof.Machine.Ctx)
    (m : Sys2Proof.Machine.Match) (ms : List Sys2Proof.Machine.Match) (d : Sys2Proof.Machine.DirEntry)
    (z : Sys2Proof.Machine.Census) (kn : Sys2Proof.Machine.Kern), s.core? k = some co → s.ctxOf k = some (c, x) →
    co.spawnQ = m :: ms → co.dir.get m.entry = some d → x.censuses.get m.slot = some z →
    x.kernels.get d.kernel = some kn → pos = 14 ∨ pos = 15 → x.pool = true → x.state.issues = true →
    co.teams.get pos = none →
    ∃ co' tm sp, Sys2Proof.Machine.exec (.responderSpawn k pos) s = .next (s.updCore k fun _ => co') ∧
      co' = { co with
        spawnQ := ms, teams := co.teams.set pos tm, staging := co.staging.set pos z.payload
        nextOrder := co.nextOrder + 1 } ∧
      tm.lanes = z.width ∧ tm.vcount = min 128 (4096 / z.width) ∧ tm.scount = 64 ∧ tm.v = [] ∧ tm.p = [] ∧
      tm.role = 0xFF ∧ tm.index = pos ∧ tm.crew = d.crew ∧ tm.kernel = d.kernel ∧ tm.sreg 0 = d.key ∧
      tm.sreg 1 = BitVec.ofNat 64 d.offset ∧ tm.sreg 2 = BitVec.ofNat 64 d.length ∧ tm.sreg 4 = z.ident ∧
      tm.sreg 5 = BitVec.ofNat 64 z.core ∧ (∀ r, 6 ≤ r → tm.sreg r = 0) ∧ tm.splits = [(0, sp)] ∧
      sp.pc = BitVec.ofNat 64 (kn.codeVa + 4 * d.clause) ∧ sp.exec = Sys2Proof.Machine.maskAll z.width)

/-- R320 to R324, R309. A node of the census whose subtree is answered combines its children; with every count
answered the result is written, count first, and the slot retires; where the retire arrives the slot's bits are
cleared and its answers forgotten, and with the last core the slot is free and its bytes leave the barrier. Where the
spec leaves it open, this rests on the model's choice in log entry 44. -/
def CensusEvents : Prop :=
  (∀ (s : Sys2Proof.Machine.State) (c i level node : Nat) (x : Sys2Proof.Machine.Ctx) (z : Sys2Proof.Machine.Census),
    s.ctx? c = some x → x.counts = true → x.censuses.get i = some z → z.stage = .counting →
    level ≤ (if z.package then 3 else 2) → s.nodeReady c i z level node = true → z.countsUnder level node ≠ [] →
    (∀ e ∈ z.nodes, ¬ (e.1 = level ∧ e.2.1 = node)) →
    ∃ u x', Sys2Proof.Machine.exec (.combineNode c i level node) s = .next u ∧ u.cores = s.cores ∧ u.mem = s.mem ∧
      u.ctx? c = some x' ∧ x'.censuses.get i = some { z with nodes := z.nodes ++ [(level, node,
        Sys2Proof.Machine.treeOf (Sys2Proof.Machine.combine2 z.op) 8 (s.nodeLeaves c i z level node))] }) ∧
  (∀ (s : Sys2Proof.Machine.State) (c i level node real : Nat) (x : Sys2Proof.Machine.Ctx) (z : Sys2Proof.Machine.Census)
    (co : Sys2Proof.Machine.Core) (words : List Sys2Proof.W32),
    s.ctx? c = some x → x.counts = true → x.censuses.get i = some z → s.core? z.core = some co → z.stage = .counting →
    z.toPass = [] → (∀ e ∈ z.counts, s.answerOf c i e.1 e.2 ≠ none) → (level, node) = z.root →
    (z.counts = [] ∧ z.nodes = [] ∧ words = Sys2Proof.Machine.emptyResult z.op z.n) ∨
      z.nodes.find? (fun e => e.1 == level && e.2.1 == node) = some (level, node, some words) ∨
      (z.nodes.find? (fun e => e.1 == level && e.2.1 == node) = some (level, node, none) ∧
        words = Sys2Proof.Machine.emptyResult z.op z.n) →
    real = (z.counts.filter fun e => (s.answerOf c i e.1 e.2).any fun a => a.words.isSome).length →
    ∃ u co' x', Sys2Proof.Machine.exec (.censusComplete c i) s = .next u ∧ u.core? z.core = some co' ∧
      co' = { co with shared := Sys2Proof.Machine.Regs.setBytes co.shared z.roff
                        (Sys2Proof.Machine.toBytes 4 z.counts.length ++ Sys2Proof.Machine.toBytes 4 real ++
                          Sys2Proof.Machine.toBytes 8 (z.counts.length - real) ++
                          words.flatMap fun w => Sys2Proof.Machine.toBytes 4 w.toNat) } ∧
      u.ctx? c = some x' ∧ x'.censuses.get i = some { z with stage := .retiring, toRetire := x.cores }) ∧
  (∀ (s : Sys2Proof.Machine.State) (c i k : Nat) (x : Sys2Proof.Machine.Ctx) (z : Sys2Proof.Machine.Census)
    (co cz : Sys2Proof.Machine.Core), s.ctx? c = some x → x.present = true → x.censuses.get i = some z →
    z.stage = .retiring → k ∈ z.toRetire → s.core? k = some co → s.core? z.core = some cz → i < 64 →
    ∃ u x' co' cz', Sys2Proof.Machine.exec (.censusSlotRetireArrive c i k) s = .next u ∧ u.mem = s.mem ∧
      u.ctx? c = some x' ∧ u.core? k = some co' ∧ u.core? z.core = some cz' ∧
      co'.answers = co.answers.filter (fun a => a.slot != i) ∧ co'.spawnQ = co.spawnQ ∧
      Sys2Proof.Claims.Swept (co.dir.mapVals fun d => { d with
        answered := d.answered &&& ~~~BitVec.ofNat 64 (2 ^ i), waits := d.waits &&& ~~~BitVec.ofNat 64 (2 ^ i) })
        co'.dir ∧
      (∀ e d, co.dir.wf = true → co.dir.get e = some d → d.state = .stub → d.waits &&& ~~~BitVec.ofNat 64 (2 ^ i) = 0 →
        s.stubTo k e = false → s.forwardTo k e = false → co'.dir.get e = none) ∧
      (∀ e d, co.dir.get e = some d → d.state ≠ .stub ∨ d.waits &&& ~~~BitVec.ofNat 64 (2 ^ i) ≠ 0 →
        co'.dir.get e = some { d with
          answered := d.answered &&& ~~~BitVec.ofNat 64 (2 ^ i), waits := d.waits &&& ~~~BitVec.ofNat 64 (2 ^ i) }) ∧
      ((∃ j ∈ z.toRetire, j ≠ k) → cz'.shared = cz.shared ∧
        x'.censuses.get i = some { z with toRetire := z.toRetire.filter (· != k) }) ∧
      ((∀ j ∈ z.toRetire, j = k) → x'.censuses.get i = none ∧
        cz'.shared = Sys2Proof.Machine.Bar.write cz.shared z.bar (Sys2Proof.Machine.Bar.test
          { Sys2Proof.Machine.Bar.read cz.shared z.bar with
            bytes := (Sys2Proof.Machine.Bar.read cz.shared z.bar).bytes -
              ↑(16 + 4 * Sys2Proof.Machine.answerWords z.op z.n) })))

/-- R306, R307, R344, R273, R175, R335. Gating and waking of the cores, the frames held while they sleep, the wake
filter, the snapshots and what ZMI returns and sets, which may raise a vector of the physical function: its message
leaves by the host port unless it is masked. The time that a restored core takes to come up is free (log entry 85).
Where the spec leaves it open, this rests on the model's choice in log entries 56 and 57. -/
def ManagementCore : Prop :=
  (∀ (s : Sys2Proof.Machine.State), s.gated = false →
    Sys2Proof.Machine.exec .coreGating s = .next { Sys2Proof.Claims.replayed s with gated := true } ∧
    (∀ i bytes, i < 16 → Sys2Proof.Machine.wakeLegal bytes = true → Sys2Proof.Machine.exec (.wakeFilterWrite i bytes) s =
      .next { Sys2Proof.Claims.replayed s with wake := s.wake.set i bytes })) ∧
  (∀ (s : Sys2Proof.Machine.State), s.gated = false → s.mgmtGated = false →
    (∃ u, Sys2Proof.Machine.exec .zmiSnapshotRefresh s = .next u ∧ u = { s with snapshot := u.snapshot } ∧
      u.snapshot.topology = s.topologyRows ∧ u.snapshot.health = s.healthRows ∧ u.snapshot.plots = s.plotRows ∧
      u.snapshot.audit = s.ctxs.map fun e => [e.1, e.2.bound, e.2.vtime, e.2.vmax, e.2.vcount.toNat]) ∧
    (∀ i n rows, Sys2Proof.Claims.zmiForm s i = some (n, rows) →
      Sys2Proof.Machine.exec i s = .next (Sys2Proof.Claims.served s [.zmi n rows])) ∧
    Sys2Proof.Machine.exec .zmiReadUnitCounters s = .next (Sys2Proof.Claims.served s [.zmi 5
      ((List.range 28).map fun u : Nat => [u, (s.unitVf.get u).getD 0, ((s.unitCnt.get u).getD 0).toNat])]) ∧
    (∃ u : Sys2Proof.Machine.State, Sys2Proof.Machine.exec .zmiSetPartDraining s = .next (u.notify 0) ∧ u.partDraining = true ∧ u.cores = s.cores ∧
      ∀ c x, s.ctx? c = some x → x.state ≠ .destroyed → x.state ≠ .spoiled →
        u.ctx? c = some { x with draining := true }) ∧
    (∀ c x, s.ctx? c = some x →
      Sys2Proof.Machine.exec (.zmiReadFaultLog c) s =
        .next (Sys2Proof.Claims.served s [.zmi 2
          ((x.log.drop (x.log.length - (Sys2Proof.Config.logSize + 1))).map Sys2Proof.Claims.logRow)]) ∧
      (x.state ≠ .destroyed → x.state ≠ .spoiled →
        Sys2Proof.Machine.exec (.zmiSetDraining c) s = .next ((s.drain c).notify 0) ∧
        Sys2Proof.Machine.exec (.zmiClearDraining c) s = .next ((s.undrain c).notify 0)))) ∧
  (∀ (s : Sys2Proof.Machine.State) (kind : Nat), s.notify kind = s ∨ ∃ v < 2048, s.notify kind = s.raise 256 v) ∧
  (∀ (s : Sys2Proof.Machine.State) (fn v : Nat) (m : Sys2Proof.Machine.Regs 8) (at' : Nat → Nat → Nat),
    m = (s.bar4.get fn).getD [] →
    (∀ off n, at' off n = Sys2Proof.Machine.ofBytes (Sys2Proof.Machine.Regs.bytes m off n)) →
    (s.raise fn v).mem = s.mem ∧ (s.raise fn v).cores = s.cores ∧
    (s.raise fn v).outputs = s.outputs ++ if at' (16 * v + 12) 4 % 2 = 1 then [] else
      [.portWrite 0 0 0 (at' (16 * v) 8) (Sys2Proof.Machine.toBytes 4 (at' (16 * v + 8) 4))]) ∧
  (∀ (s : Sys2Proof.Machine.State) (port : Nat) (frame : List Sys2Proof.Byte), port < 2 →
    (s.gated = true → Sys2Proof.Machine.exec (.wakeFrameMatch port frame) s =
      .next (if s.wake.any (fun e => Sys2Proof.Machine.wakeMatch e.2 port frame) = true then
        Sys2Proof.Claims.frameHeld { s with gated := false, mgmtGated := true } port frame
      else { s with frameDrops := s.frameDrops + 1 })) ∧
    (s.gated = false → s.mgmtGated = true → ∃ u, Sys2Proof.Machine.exec (.wakeFrameMatch port frame) s = .next u ∧
      (u = Sys2Proof.Claims.frameHeld s port frame ∨
        u = Sys2Proof.Claims.replayed (Sys2Proof.Claims.frameHeld s port frame))) ∧
    (s.gated = false → s.mgmtGated = false → Sys2Proof.Machine.exec (.wakeFrameMatch port frame) s = .next s))

/-- R343. The responder answers each request that is in order, with the bytes that the manual gives and a session
state that follows; a signed answer without the shared algorithm is an ERROR. A measurement is extended as SHA-384 of
the slot followed by SHA-384 of the component. Where the spec leaves it open, this rests on the model's choice in log
entries 10 and 11. -/
def Spdm : Prop :=
  (∀ (s : Sys2Proof.Machine.State) (i : Sys2Proof.Instr) (code n : Nat) (known : List Nat) (x' : Sys2Proof.Machine.Spdm),
    s.asleep = false → Sys2Proof.Claims.spdmForm s s.spdm i = some (code, known, n, x') →
    ∃ free, free.length = n ∧ Sys2Proof.Machine.exec i s = .next { s with
      spdm := x', outputs := s.outputs ++ [.spdm code (known ++ free)] }) ∧
  (∀ (s : Sys2Proof.Machine.State) (i : Sys2Proof.Instr), s.asleep = false → s.spdm.algs = true → s.spdm.shared = false →
    i = .challenge ∨ i = .keyExchange ∨ i = .getMeasurements true →
    ∃ e, Sys2Proof.Machine.exec i s = .next { s with outputs := s.outputs ++ [.spdmError e] }) ∧
  (∀ (s : Sys2Proof.Machine.State) (i : Nat) (component : List Sys2Proof.Byte), i < 16 →
    ∃ m, Sys2Proof.Machine.exec (.measurementExtend i component) s =
        .next { s with meas := Sys2Proof.Machine.Regs.set s.meas i m } ∧
      m = Sys2Proof.Machine.ofMeas (Sys2Proof.Machine.sha384 (Sys2Proof.Machine.measBytes
        (Sys2Proof.Machine.Regs.get s.meas i) ++ Sys2Proof.Machine.sha384 component)))

end Sys2Proof.Claims

/-! ### The statements -/

/-- Uniform words: results, bit fields and frame.  The parts: `UniformResults`, `BitFields`. -/
def Obligations.UniformResults : Prop :=
  Sys2Proof.Claims.UniformResults ∧ Sys2Proof.Claims.BitFields

/-- Lane words, compares, predicates: results per lane and frame.  The parts: `LaneResults`, `LaneCompareResults`,
`PredicateResults`, `LaneWrites`. -/
def Obligations.LaneResults : Prop :=
  Sys2Proof.Claims.LaneResults ∧ Sys2Proof.Claims.LaneCompareResults ∧ Sys2Proof.Claims.PredicateResults ∧
  Sys2Proof.Claims.LaneWrites

/-- Floating-point words, compares and conversions: results and frame.  The parts: `FloatResults`,
`FloatCompareAndConvertResults`. -/
def Obligations.FloatResults : Prop :=
  Sys2Proof.Claims.FloatResults ∧ Sys2Proof.Claims.FloatCompareAndConvertResults

/-- Integer steps, and the values of the floating-point words.  The parts: `IntegerSteps`, `RoundedValues`,
`ConvertedValues`, `SpecialValues`. -/
def Obligations.IntegerSteps : Prop :=
  Sys2Proof.Claims.IntegerSteps ∧ Sys2Proof.Claims.RoundedValues ∧ Sys2Proof.Claims.ConvertedValues ∧
  Sys2Proof.Claims.SpecialValues

/-- R93 (its sentences). `fmin` and `fmax` return one of their operands unchanged, −0 below +0; with one NaN the other
operand, with two the canonical NaN. They write it in the lanes of the run and change nothing else. -/
def Obligations.FloatMinMax : Prop :=
  ∀ (s : Sys2Proof.Machine.State) (a : Sys2Proof.Machine.At) (d x y : Sys2Proof.Opnd)
    (nan : Sys2Proof.W32 → Prop) (key : Sys2Proof.W32 → Int),
    s.at? = some a → a.team.claimsAll [d, x, y] = true →
    (∀ u, nan u ↔ u.extractLsb' 23 8 = 0xFF ∧ u.extractLsb' 0 23 ≠ 0) →
    (∀ u, key u = if u.msb then -1 - ((u.extractLsb' 0 31).toNat : Int) else ((u.extractLsb' 0 31).toNat : Int)) →
    ∃ (t1 t2 : Sys2Proof.Machine.State) (f g : Sys2Proof.W32 → Sys2Proof.W32 → Sys2Proof.W32),
      Sys2Proof.Machine.exec (.fmin d x y) s = .next t1 ∧ Sys2Proof.Machine.exec (.fmax d x y) s = .next t2 ∧
      Sys2Proof.Claims.Done a s t1 a.core (a.team.setV (Sys2Proof.Machine.num d)
        (a.lanes.map fun l => (l, f (a.f none x l) (a.f none y l)))) ∧
      Sys2Proof.Claims.Done a s t2 a.core (a.team.setV (Sys2Proof.Machine.num d)
        (a.lanes.map fun l => (l, g (a.f none x l) (a.f none y l)))) ∧
      ∀ (u v : Sys2Proof.W32),
        (nan u → nan v → f u v = 0x7FC00000 ∧ g u v = 0x7FC00000) ∧
        (nan u → ¬ nan v → f u v = v ∧ g u v = v) ∧ (¬ nan u → nan v → f u v = u ∧ g u v = u) ∧
        (¬ nan u → ¬ nan v → (f u v = u ∨ f u v = v) ∧ key (f u v) = min (key u) (key v) ∧
          (g u v = u ∨ g u v = v) ∧ key (g u v) = max (key u) (key v))

/-- R68 (its table). The value of every e2m1n code, as the F32 it equals. -/
def Obligations.NarrowElementValues : Prop :=
  (List.range 16).map (fun c => Sys2Proof.Machine.toF32 (Sys2Proof.Machine.readElem 4 c)) =
    [0x00000000, 0x3F400000, 0x3F800000, 0x3FC00000, 0x40000000, 0x40400000, 0x40800000, 0x40C00000,
     0x7FC00000, 0xBF400000, 0xBF800000, 0xBFC00000, 0xC0000000, 0xC0400000, 0xC0800000, 0xC0C00000]

/-- Branches, divergence and the mask forms.  The parts: `BranchesAndNop`, `Divergence`, `FetchFaults`, `MaskForms`.
-/
def Obligations.ControlFlow : Prop :=
  Sys2Proof.Claims.BranchesAndNop ∧ Sys2Proof.Claims.Divergence ∧ Sys2Proof.Claims.FetchFaults ∧
  Sys2Proof.Claims.MaskForms

/-- kill, halt, the joins of splits, the calls and ret.  The parts: `KillAndHalt`, `SplitJoins`, `CallsAndReturn`. -/
def Obligations.EndsAndCalls : Prop :=
  Sys2Proof.Claims.KillAndHalt ∧ Sys2Proof.Claims.SplitJoins ∧ Sys2Proof.Claims.CallsAndReturn

/-- Claims, gives, ready, phase, wait and watch.  The parts: `ClaimsAndGives`, `TeamForms`. -/
def Obligations.TeamForms : Prop :=
  Sys2Proof.Claims.ClaimsAndGives ∧ Sys2Proof.Claims.TeamForms

/-- R127, R128, R268. `trap` raises 0x0800 with its code in the side buffer and ends the clause, `tpc` naming the next
header; it is delivered to the handler, or the team is Held (R266), or with a debugger attached it stops (R178).
`rett` goes back to the saved word or to the header that `tpc` names, with the saved mask less the lanes killed since,
and the team's other splits may issue; outside a handler it raises 0x0106. -/
def Obligations.TrapAndReturn : Prop :=
  (∀ (s : Sys2Proof.Machine.State) (a : Sys2Proof.Machine.At) (imm : BitVec 16), s.at? = some a → a.team.att = false →
    a.team.state = .active → a.team.tvec ≠ 0 →
    ∃ t, Sys2Proof.Machine.exec (.trap imm) s = .next t ∧
      Sys2Proof.Claims.Leaves a s t a.core { a.team with
          state := .handler a.p, tcause := 0x0800, tgrade := 0, tpc := a.cl.after,
          side := { Sys2Proof.Machine.SideBuf.zero with
            code := 0x0800, split := a.p, overrun := a.team.side.fresh, pc := a.pc, info := imm.zeroExtend 64 } }
        fun sp => sp.pc = a.team.tvec + 0x1000 ∧ sp.clause = none ∧ sp.exec = a.split.exec ∧ sp.live = a.split.live ∧
          sp.frame = some ⟨a.split.exec, a.split.live, a.cl.h, a.cl.hdr, 0, none⟩) ∧
  (∀ (s : Sys2Proof.Machine.State) (a : Sys2Proof.Machine.At) (imm : BitVec 16), s.at? = some a → a.team.att = false →
    a.team.state ≠ .active ∨ a.team.tvec = 0 →
    ∃ t, Sys2Proof.Machine.exec (.trap imm) s = .next t ∧
      Sys2Proof.Claims.Leaves a s t a.core { a.team with
          state := .held, fault := some ⟨0x0800, a.p, a.pc, imm.zeroExtend 64, 0, s.tstamp⟩ }
        fun sp => sp.pc = a.cl.after ∧ sp.clause = none ∧ sp.exec = a.split.exec ∧ sp.live = a.split.live) ∧
  (∀ (s : Sys2Proof.Machine.State) (a : Sys2Proof.Machine.At) (q : Nat) (f : Sys2Proof.Machine.Frame),
    s.at? = some a → a.team.state = .handler q → a.split.frame = some f →
    ∃ t, Sys2Proof.Machine.exec .rett s = .next t ∧
      Sys2Proof.Claims.Leaves a s t a.core { a.team with state := .active, side := Sys2Proof.Machine.SideBuf.zero }
        fun sp => sp.exec = f.exec &&& a.split.live ∧ sp.live = a.split.live ∧ sp.frame = none ∧
          (f.w ≠ 0 ∧ a.team.tpc = f.h + BitVec.ofNat 64 (4 * f.w) →
            ∃ g, sp.clause = some ⟨f.h, f.hdr, g, f.w⟩ ∧ g =
              (if f.hdr.getLsbD 16 then ~~~(a.team.preg (f.hdr.extractLsb' 17 3).toNat)
               else a.team.preg (f.hdr.extractLsb' 17 3).toNat) &&& sp.exec) ∧
          (f.w = 0 ∨ a.team.tpc ≠ f.h + BitVec.ofNat 64 (4 * f.w) → sp.clause = none ∧ sp.pc = a.team.tpc)) ∧
  (∀ (s : Sys2Proof.Machine.State) (a : Sys2Proof.Machine.At), s.at? = some a → a.team.att = false →
    a.team.state = .active → a.team.tvec ≠ 0 →
    ∃ t m sp, Sys2Proof.Machine.exec .rett s = .next t ∧ t = { s with cores := t.cores } ∧
      (∀ j, j ≠ a.k → t.core? j = s.core? j) ∧ t.team? a.k a.t = some m ∧ m.state = .handler a.p ∧
      m.tcause = 0x0106 ∧ m.tpc = a.pc ∧ m.splits.get a.p = some sp ∧ sp.pc = a.team.tvec + 0x200) ∧
  (∀ (s : Sys2Proof.Machine.State) (a : Sys2Proof.Machine.At) (imm : BitVec 16), s.at? = some a → a.team.att = true →
    ∃ t m, Sys2Proof.Machine.exec (.trap imm) s = .next t ∧ t.team? a.k a.t = some m ∧ m.state = .stopped ∧
      m.prev = (if a.team.state = .stopped then a.team.prev else a.team.state) ∧
      m.fault = some ⟨0x0800, a.p, a.pc, imm.zeroExtend 64, 0, s.tstamp⟩)

/-- sys, its answers, and brk.  The parts: `KernelCallsAndBreaks`, `ResidentKernelAnswers`. -/
def Obligations.KernelCallsAndBreaks : Prop :=
  Sys2Proof.Claims.KernelCallsAndBreaks ∧ Sys2Proof.Claims.ResidentKernelAnswers

/-- R126, R33, R115 (the sentence of R126). `yield` acts as `yld` set on its clause and does not end the clause: the
split goes on to its next word with the header bit set, and past the last word it gives up the team's next position.
`nop` goes on to the next word and changes nothing. -/
def Obligations.YieldAndNop : Prop :=
  (∀ (s : Sys2Proof.Machine.State) (a : Sys2Proof.Machine.At), s.at? = some a →
    ∃ t m, Sys2Proof.Machine.exec .yield s = .next t ∧
      Sys2Proof.Claims.Leaves a s t a.core a.team (fun sp =>
        (a.cl.pos + a.n ≤ Sys2Proof.Machine.cntOf a.cl.hdr →
          sp = { a.split with clause := some { a.cl with hdr := a.cl.hdr ||| 0x200000, pos := a.cl.pos + a.n },
                              passBreak := false, passWord := false, prepaid := none, popped := none, heldAt := none, state := .ready, wait := .none }) ∧
        (Sys2Proof.Machine.cntOf a.cl.hdr < a.cl.pos + a.n → Sys2Proof.Claims.Onward a a.split sp)) ∧
      t.team? a.k a.t = some m ∧
      m.yielded = if Sys2Proof.Machine.cntOf a.cl.hdr < a.cl.pos + a.n then a.p :: a.team.yielded
        else a.team.yielded) ∧
  (∀ (s : Sys2Proof.Machine.State) (a : Sys2Proof.Machine.At), s.at? = some a →
    ∃ t, Sys2Proof.Machine.exec .nop s = .next t ∧ Sys2Proof.Claims.Done a s t a.core a.team)

/-- Local loads, local stores and the spill stack.  The parts: `LocalLoads`, `LocalStores`, `LocalAccesses`,
`SpillForms`. -/
def Obligations.LocalAccess : Prop :=
  Sys2Proof.Claims.LocalLoads ∧ Sys2Proof.Claims.LocalStores ∧ Sys2Proof.Claims.LocalAccesses ∧
  Sys2Proof.Claims.SpillForms

/-- Local atomics, lane after lane.  The parts: `LocalAtomics`, `AtomicLanes`. -/
def Obligations.LocalAtomics : Prop :=
  Sys2Proof.Claims.LocalAtomics ∧ Sys2Proof.Claims.AtomicLanes

/-- Exchanges, votes, ballots and reductions.  The parts: `ExchangesAndReductions`, `ReductionTree`. -/
def Obligations.ExchangesAndReductions : Prop :=
  Sys2Proof.Claims.ExchangesAndReductions ∧ Sys2Proof.Claims.ReductionTree

/-- LOC fences and barrier objects.  The parts: `FencesAndBarriers`, `BarrierObjects`. -/
def Obligations.FencesAndBarriers : Prop :=
  Sys2Proof.Claims.FencesAndBarriers ∧ Sys2Proof.Claims.BarrierObjects

/-- R148, R149. `stream.bind` binds a stream with all counters 0; `stream.fill` issues the next slot while one is
unused and owes its offset, or owes the slot that its wait has given it (R217); `stream.free` frees the oldest popped
slot; `stream.pub` marks an issued slot published and P advances over the marked slots. Nothing else changes but the
streams popped. -/
def Obligations.StreamForms : Prop :=
  (∀ (s : Sys2Proof.Machine.State) (a : Sys2Proof.Machine.At) (d x y x' y' : Sys2Proof.Opnd)
    (qs : Sys2Proof.Machine.Map Sys2Proof.Machine.Stream) (w : Sys2Proof.Machine.Crew) (q : Sys2Proof.Machine.Stream),
    s.at? = some a → a.team.claimsAll [x, y] = true → Sys2Proof.Claims.Takes a [x, y] qs [x', y'] →
    a.core.crewOf a.team = some w →
    Sys2Proof.Machine.bindStream (a.uLoc x') (a.uLoc y') w.size (w.bindings + 1) = some q →
    ∃ t, Sys2Proof.Machine.exec (.streamBind d x y) s = .next t ∧ q.issued = 0 ∧ q.published = 0 ∧ q.popped = 0 ∧
      q.freed = 0 ∧ Sys2Proof.Claims.Done a s t { a.core with
        crews := (Sys2Proof.Claims.popped a [x, y] qs).crews.upd a.team.crew fun w =>
          { w with streams := w.streams.set (Sys2Proof.Machine.num d) q, bindings := w.bindings + 1 } } a.team) ∧
  (∀ (s : Sys2Proof.Machine.State) (a : Sys2Proof.Machine.At) (d x : Sys2Proof.Opnd) (q : Sys2Proof.Machine.Stream),
    s.at? = some a → a.team.claims d = true → a.streams.get (Sys2Proof.Machine.num x) = some q →
    (∀ j js, a.split.popped = some (j :: js) → ∃ t, Sys2Proof.Machine.exec (.streamFill d x) s = .next t ∧
      Sys2Proof.Claims.Leaves a s t a.core a.team (Sys2Proof.Claims.Owes a
        [Sys2Proof.Machine.uniWb (Sys2Proof.Machine.num d) (BitVec.ofNat 64 j)])) ∧
    (a.split.popped = none → Sys2Proof.Machine.ahead q.issued q.freed ≠ q.slots →
    ∃ t, Sys2Proof.Machine.exec (.streamFill d x) s = .next t ∧
      Sys2Proof.Claims.Leaves a s t { a.core with crews := a.core.crews.upd a.team.crew fun w =>
          { w with streams := a.streams.set (Sys2Proof.Machine.num x) { q with issued := (q.issued + 1) % 2 ^ 32 } } }
        a.team (Sys2Proof.Claims.Owes a [Sys2Proof.Machine.uniWb (Sys2Proof.Machine.num d)
          (BitVec.ofNat 64 (q.base + q.issued % q.slots * q.size))]))) ∧
  (∀ (s : Sys2Proof.Machine.State) (a : Sys2Proof.Machine.At) (d : Sys2Proof.Opnd) (q : Sys2Proof.Machine.Stream),
    s.at? = some a → a.streams.get (Sys2Proof.Machine.num d) = some q → q.freed ≠ q.popped →
    ∃ t, Sys2Proof.Machine.exec (.streamFree d) s = .next t ∧
      Sys2Proof.Claims.Done a s t { a.core with crews := a.core.crews.upd a.team.crew fun w =>
        { w with streams := a.streams.set (Sys2Proof.Machine.num d) { q with freed := (q.freed + 1) % 2 ^ 32 } } }
        a.team) ∧
  (∀ (s : Sys2Proof.Machine.State) (a : Sys2Proof.Machine.At) (d x x' : Sys2Proof.Opnd)
    (qs : Sys2Proof.Machine.Map Sys2Proof.Machine.Stream) (q : Sys2Proof.Machine.Stream) (j : Nat),
    s.at? = some a → a.team.claimsAll [x] = true → Sys2Proof.Claims.Takes a [x] qs [x'] →
    qs.get (Sys2Proof.Machine.num d) = some q → q.openSlot (a.u32 x') = some j →
    ∃ t, Sys2Proof.Machine.exec (.streamPub d x) s = .next t ∧
      Sys2Proof.Claims.Done a s t { a.core with
        crews := (Sys2Proof.Claims.popped a [x] qs).crews.upd a.team.crew fun w =>
          { w with streams := qs.set (Sys2Proof.Machine.num d) (q.mark j) } } a.team)

/-- What the ASY transfer forms start.  The parts: `LaneTransfers`, `BlockTransfers`, `BlockSegments`, `PortWrite`,
`MemoryFenceAndHint`, `ScrubForm`. -/
def Obligations.TransferForms : Prop :=
  Sys2Proof.Claims.LaneTransfers ∧ Sys2Proof.Claims.BlockTransfers ∧ Sys2Proof.Claims.BlockSegments ∧
  Sys2Proof.Claims.PortWrite ∧ Sys2Proof.Claims.MemoryFenceAndHint ∧ Sys2Proof.Claims.ScrubForm

/-- Copy channels and ring.wait.  The parts: `ChannelForms`, `RingWaitForm`. -/
def Obligations.ChannelForms : Prop :=
  Sys2Proof.Claims.ChannelForms ∧ Sys2Proof.Claims.RingWaitForm

/-- The matrix and tile forms.  The parts: `MatrixLoops`, `MatrixStore`, `TileForms`. -/
def Obligations.MatrixForms : Prop :=
  Sys2Proof.Claims.MatrixLoops ∧ Sys2Proof.Claims.MatrixStore ∧ Sys2Proof.Claims.TileForms

/-- solicit, respond and the stall directory.  The parts: `SolicitForm`, `RespondForm`, `DirectoryForms`. -/
def Obligations.SolicitForms : Prop :=
  Sys2Proof.Claims.SolicitForm ∧ Sys2Proof.Claims.RespondForm ∧ Sys2Proof.Claims.DirectoryForms

/-- Sequence counters and record queues: the forms.  The parts: `CounterForms`, `RecordForms`. -/
def Obligations.CounterAndRecordForms : Prop :=
  Sys2Proof.Claims.CounterForms ∧ Sys2Proof.Claims.RecordForms

/-- The CSR forms, what the CSRs read and what they refuse.  The parts: `CsrForms`, `CsrValues`, `NamedCsrSteps`,
`PrivilegedCsrs`. -/
def Obligations.ControlRegisters : Prop :=
  Sys2Proof.Claims.CsrForms ∧ Sys2Proof.Claims.CsrValues ∧ Sys2Proof.Claims.NamedCsrSteps ∧
  Sys2Proof.Claims.PrivilegedCsrs

/-- Taking a trap, and the words of the side buffer.  The parts: `TrapEntry`, `AccessFaults`, `SideBufferWords`. -/
def Obligations.TrapEntryAndSideBuffer : Prop :=
  Sys2Proof.Claims.TrapEntry ∧ Sys2Proof.Claims.AccessFaults ∧ Sys2Proof.Claims.SideBufferWords

/-- tstamp, cede, allowances and credits.  The parts: `TimestampAndCede`, `AllowancesAndCredits`. -/
def Obligations.TimestampAndAllowance : Prop :=
  Sys2Proof.Claims.TimestampAndCede ∧ Sys2Proof.Claims.AllowancesAndCredits

/-- The barrel, its positions, the responder pool and the calendar.  The parts: `BarrelIssue`, `PositionReassign`,
`ResponderPool`, `CalendarSlot`. -/
def Obligations.BarrelIssue : Prop :=
  Sys2Proof.Claims.BarrelIssue ∧ Sys2Proof.Claims.PositionReassign ∧ Sys2Proof.Claims.ResponderPool ∧
  Sys2Proof.Claims.CalendarSlot

/-- What ends a split's wait.  The parts: `SplitWaitsEnd`, `ClaimsAndAdmission`. -/
def Obligations.WaitsAndAdmission : Prop :=
  Sys2Proof.Claims.SplitWaitsEnd ∧ Sys2Proof.Claims.ClaimsAndAdmission

/-- Reads delivered and writes acknowledged.  The parts: `ReadsDelivered`, `WritesAcknowledged`, `ScrubAcknowledged`.
-/
def Obligations.TransfersServed : Prop :=
  Sys2Proof.Claims.ReadsDelivered ∧ Sys2Proof.Claims.WritesAcknowledged ∧ Sys2Proof.Claims.ScrubAcknowledged

/-- Memory atomics at the stacks.  The parts: `MemoryAtomics`, `MemoryAtomicOperations`. -/
def Obligations.MemoryAtomics : Prop :=
  Sys2Proof.Claims.MemoryAtomics ∧ Sys2Proof.Claims.MemoryAtomicOperations

/-- R151, R156, R271, R272, R333, R338. The port sends a `port.wr`; a part that cannot be served fails, as does a read
through a port that completes in error and a request that a peer has not bound, a segment of a block form in its turn:
its bytes leave the barrier with `error`, its local bytes stay, and the side buffer of its team takes the failure. -/
def Obligations.PartsFailOrLeave : Prop :=
  (∀ (s : Sys2Proof.Machine.State) (k x kind link pctx addr : Nat) (co : Sys2Proof.Machine.Core)
    (op : Sys2Proof.Machine.AsyncOp) (p : Sys2Proof.Machine.Part) (y : Sys2Proof.Machine.Acc),
    s.core? k = some co → co.asyncs.get x = some op → op.kind = .portWr → op.parts = [p] → p.accs = [y] →
    y.done = false → p.target = 10 → s.partReady k op p = true → op.sampled = false →
    s.resolve k (s.regionOf k op.crew) y.va y.len .w (some true) = .at' (.port kind link pctx addr) →
    ∃ u, Sys2Proof.Machine.exec (.portWrSent k x) s = .next u ∧ u.mem = s.mem ∧
      u.outputs = s.outputs ++ [.portWrite kind link pctx addr y.data] ∧
      (Sys2Proof.Claims.Quiet s k op → Sys2Proof.Claims.Settled u k x co co.shared op p y.len false)) ∧
  (∀ (s : Sys2Proof.Machine.State) (k x i reason : Nat) (co : Sys2Proof.Machine.Core)
    (op : Sys2Proof.Machine.AsyncOp) (p : Sys2Proof.Machine.Part) (tm : Sys2Proof.Machine.Team) (e : Sys2Proof.Instr),
    s.core? k = some co → co.asyncs.get x = some op → op.part? i = some p → (∀ y ∈ p.accs, y.done = false) →
    p.accs ≠ [] → co.teams.get op.team = some tm → tm.order = op.order → tm.frozen = false → op.sampled = false →
    (p.state = .failing reason ∧ (∀ a b c, op.kind ≠ .scrub a b c) ∧ e = .asyncPartFail k x i ∧
        (op.kind = .ldBlk ∨ op.kind = .stBlk → op.parts.head? = some p)) ∨
      (p.target = 10 ∧ p.state = .sent ∧ op.parts.head? = some p ∧ e = .portReadFail k x i ∧
        ∃ y kind l, p.accs.head? = some y ∧ s.portOf k op y = some (kind, l) ∧
          ((op.kind = .ldBlk ∧ kind ≠ 2 ∧ reason = 4) ∨
            ((op.kind = .ldBlk ∨ op.kind = .stBlk) ∧ kind = 2 ∧ reason = 2))) →
    ∃ u m, Sys2Proof.Machine.exec e s = .next u ∧ u.mem = s.mem ∧ u.team? k op.team = some m ∧
      m = { tm with side := m.side, v := m.v, s := m.s, splits := m.splits } ∧
      (op.rel = false ∨ Sys2Proof.Claims.Quiet s k op →
        m.v = tm.v ∧ m.s = tm.s ∧ ∀ e, m.splits.get e = tm.splits.get e) ∧ m.side.grade = 1 ∧ m.side.fresh = true ∧
      (op.kind.lanes = true → m.side.bfails = tm.side.bfails ∧ ∀ l, l < 1024 →
        m.side.mask.getLsbD l = (tm.side.mask.getLsbD l || p.accs.any fun y => y.lane == l)) ∧
      (op.kind.lanes = false → m.side.mask = tm.side.mask ∧ m.side.detail = tm.side.detail ∧
        (tm.side.bfails = 0 → ∀ y, p.accs.head? = some y →
          m.side.bdetail = Sys2Proof.Machine.detailWord reason y.va)) ∧
      (op.rel = false ∨ Sys2Proof.Claims.Quiet s k op →
        Sys2Proof.Claims.Settled u k x co co.shared op p (p.accs.map (·.len)).sum true))

/-- Copy chains and ring waits in progress.  The parts: `ChannelRecords`, `ChannelSegments`, `RingWakes`. -/
def Obligations.ChannelProgress : Prop :=
  Sys2Proof.Claims.ChannelRecords ∧ Sys2Proof.Claims.ChannelSegments ∧ Sys2Proof.Claims.RingWakes

/-- Matrix loops and matrix stores in progress.  The parts: `LoopSteps`, `LoopElement`, `StoreRows`. -/
def Obligations.MatrixProgress : Prop :=
  Sys2Proof.Claims.LoopSteps ∧ Sys2Proof.Claims.LoopElement ∧ Sys2Proof.Claims.StoreRows

/-- R219, R222, R224, R230, R238. The resident kernel writes an entry where the path leads to it and its frame may be
given to its owner: `PAGE_MAP` one that was not valid, `LEAF_CHANGE` one that was; `PAGE_PIN` and `PAGE_UNPIN` set and
clear the leaf's pinned bit. Each writes the entry's eight bytes and nothing else of memory, but that a frame that has
been under another owner's key reads as unpredictable; a pinned page's plot leaves Retention, and a changed entry's
region begins to retire. The faults of the pages that an entry makes present end, and what waited for them goes on.
None unpins what the resident kernel keeps pinned, nor names expander memory that the port does not decode. Where the
spec leaves it open, this rests on the model's choice in log entries 31, 37, 63 and 66. -/
def Obligations.PageEntries : Prop :=
  (∀ (s : Sys2Proof.Machine.State) (c va level a : Nat) (e : Sys2Proof.W64) (x : Sys2Proof.Machine.Ctx)
    (owner pa size : Nat),
    s.ctx? c = some x → Sys2Proof.Machine.entryAt s.mem va level 4 x.root = some a → s.rkUp = true →
    e.getLsbD 0 = true → Sys2Proof.Machine.entryOk level e = true → (s.pa64 a).testBit 0 = false → s.pa64 a < 2 ^ 64 →
    va < 2 ^ 57 → va / 2 ^ 48 ≠ 0x1FF → owner = (if e.getLsbD 1 = true then c else 4096) →
    (pa, size) = (if e.getLsbD 1 = true then (Sys2Proof.Machine.entryPa e, Sys2Proof.Machine.regionSize level)
      else (Sys2Proof.Machine.entryPa e / 65536 * 65536, 65536)) →
    (s.entryGrant c level e = false ∨ s.farKnown e = false → Sys2Proof.Machine.exec (.pageMap c va level e) s = .next s) ∧
    (s.entryGrant c level e = true → s.farKnown e = true → Sys2Proof.Machine.unwalked va = false →
    ∃ v x' f, Sys2Proof.Machine.exec (.pageMap c va level e) s = .next (Sys2Proof.Claims.pageTail v c f) ∧
      Sys2Proof.Claims.Ends v c va level f ∧ (∀ q, Sys2Proof.Machine.Memory.get v.mem q =
        if a ≤ q ∧ q < a + 8 then BitVec.ofNat 8 (e.toNat / 2 ^ (8 * (q - a)))
        else if pa ≤ q ∧ q < pa + size ∧ ∃ r ∈ s.keyed, r.key ≠ s.keyOf owner ∧ r.pa ≤ q ∧ q < r.pa + r.size then
          Sys2Proof.Config.unwritten q
        else Sys2Proof.Machine.Memory.get s.mem q) ∧
      v.cores = s.cores ∧ v.ctx? c = some x' ∧
      (∀ page, page ∈ x'.faulting ↔ page ∈ x.faulting ∧ f page = false) ∧
      Sys2Proof.Claims.Repinned x x' va level
        (if e.getLsbD 1 = true ∧ e.getLsbD 5 = true then some (Sys2Proof.Machine.leafPlot e) else none) ∧
      ∀ j qu, s.queues.get j = some qu → v.queues.get j = some (if qu.ctx = some c ∧
        qu.page.any f = true then { qu with page := none } else qu))) ∧
  (∀ (s : Sys2Proof.Machine.State) (c va level a : Nat) (e : Sys2Proof.W64) (x : Sys2Proof.Machine.Ctx) (pinned : Prop),
    s.ctx? c = some x → Sys2Proof.Machine.entryAt s.mem va level 4 x.root = some a → s.rkUp = true →
    (e.getLsbD 0 = true → Sys2Proof.Machine.entryOk level e = true) → s.pa64 a < 2 ^ 64 →
    (s.pa64 a).testBit 0 = true → Sys2Proof.Machine.unwalked va = false →
    pinned = (e.getLsbD 0 = true ∧ e.getLsbD 1 = true ∧ e.getLsbD 5 = true) →
    (s.entryGrant c level e = false ∨ s.farKnown e = false ∨ (s.mustPin c va level = true ∧ ¬ pinned) →
      Sys2Proof.Machine.exec (.leafChange c va level e) s = .next s) ∧
    (s.entryGrant c level e = true → s.farKnown e = true → s.mustPin c va level = false ∨ pinned →
      (∀ r ∈ s.keyed, r.key = s.keyOf (if e.getLsbD 1 = true then c else 4096)) →
    ∃ v x' f, Sys2Proof.Machine.exec (.leafChange c va level e) s = .next (Sys2Proof.Claims.pageTail v c f) ∧
      Sys2Proof.Claims.Ends v c va level f ∧
      v.mem = Sys2Proof.Machine.Memory.setBytes s.mem a (Sys2Proof.Machine.toBytes 8 e.toNat) ∧ v.cores = s.cores ∧
      v.ctx? c = some x' ∧
      x' = { x with pins := x'.pins, retiring := x'.retiring, faulting := x'.faulting, saved := x'.saved } ∧
      (∀ page, page ∈ x'.faulting ↔ page ∈ x.faulting ∧ f page = false) ∧
      (Sys2Proof.Machine.regionBase va level, Sys2Proof.Machine.regionSize level) ∈ x'.retiring ∧
      (¬ pinned → v.plots = s.plots) ∧
      (pinned → ∀ q, v.plot q = if q = Sys2Proof.Machine.leafPlot e ∧ (s.plot q).state = .retention then
        { s.plot q with state := .waking } else s.plot q))) ∧
  (∀ (s : Sys2Proof.Machine.State) (c va a l : Nat) (e : Sys2Proof.W64) (x : Sys2Proof.Machine.Ctx),
    s.ctx? c = some x → s.leaf c va = some (a, l, e) → s.rkUp = true →
    (∃ u x', Sys2Proof.Machine.exec (.pagePin c va) s = .next u ∧
      u.mem = Sys2Proof.Machine.Memory.setBytes s.mem a (Sys2Proof.Machine.toBytes 8 (e ||| 0x20#64).toNat) ∧
      u.cores = s.cores ∧ u.ctx? c = some x' ∧ x' = { x with pins := x'.pins } ∧
      Sys2Proof.Claims.Repinned x x' va l (some (Sys2Proof.Machine.leafPlot e)) ∧
      ∀ q, u.plot q = if q = Sys2Proof.Machine.leafPlot e ∧ (s.plot q).state = .retention then
        { s.plot q with state := .waking } else s.plot q) ∧
    (e.getLsbD 5 = true → s.mustPin c va l = true → Sys2Proof.Machine.exec (.pageUnpin c va) s = .next s) ∧
    (e.getLsbD 5 = true → s.mustPin c va l = false →
      ∃ u x', Sys2Proof.Machine.exec (.pageUnpin c va) s = .next u ∧
        u.mem = Sys2Proof.Machine.Memory.setBytes s.mem a (Sys2Proof.Machine.toBytes 8 (e &&& ~~~0x20#64).toNat) ∧
        u.cores = s.cores ∧ u.plots = s.plots ∧ u.ctx? c = some x' ∧
        x' = { x with pins := x'.pins, retiring := x'.retiring } ∧ Sys2Proof.Claims.Repinned x x' va l none ∧
        (Sys2Proof.Machine.regionBase va l, Sys2Proof.Machine.regionSize l) ∈ x'.retiring))

/-- R224, R225, R223. A refused fault ends: the page is no longer faulting, what queues and posted writes hold for it
is refused, and so is what cores hold, saved ones too. An invalidation completes once no access under the old entry
remains, and not before; then no TLB holds a translation of the region. -/
def Obligations.FaultService : Prop :=
  (∀ (s : Sys2Proof.Machine.State) (c va : Nat) (x : Sys2Proof.Machine.Ctx),
    s.ctx? c = some x → s.rkUp = true → va / 65536 ∈ x.faulting →
    ∃ v x', Sys2Proof.Machine.exec (.pageFaultRefuse c va) s =
        .next ((s.coresOf c).foldl (fun s k => s.updCore k fun co => co.refuse (va / 65536)) v) ∧
      v.mem = s.mem ∧ v.cores = s.cores ∧ v.ctx? c = some x' ∧
      x' = { x with faulting := x'.faulting, kernels := x'.kernels, saved := x'.saved } ∧
      (∀ page, page ∈ x'.faulting ↔ page ∈ x.faulting ∧ page ≠ va / 65536) ∧
      (∀ k co, x.saved.get k = some co → x'.saved.get k = some (co.refuse (va / 65536))) ∧
      (∀ w, w ∈ v.posted ↔ w ∈ s.posted ∧ ¬ (w.ctx = c ∧ w.bytes ≠ [] ∧ w.va / 65536 ≤ va / 65536 ∧
        va / 65536 ≤ (w.va + w.bytes.length - 1) / 65536)) ∧
      ∀ j qu, s.queues.get j = some qu → v.queues.get j = some
        (if qu.ctx = some c ∧ qu.page = some (va / 65536) then { qu with refused := true } else qu)) ∧
  (∀ (co : Sys2Proof.Machine.Core) (page x : Nat) (op : Sys2Proof.Machine.AsyncOp) (p : Sys2Proof.Machine.Part),
    co.asyncs.get x = some op → p ∈ op.parts → p.state = .held page →
    ∃ op', (co.refuse page).asyncs.get x = some op' ∧ { p with state := .failing 1 } ∈ op'.parts) ∧
  (∀ (s : Sys2Proof.Machine.State) (c va b n : Nat) (x : Sys2Proof.Machine.Ctx),
    s.ctx? c = some x → x.retiring = [(b, n)] → b ≤ va → va < b + n →
    ((∀ e ∈ s.cores, e.2.ctx = some c → e.2.uses b n = false) →
      ∃ u, Sys2Proof.Machine.exec (.invalidationComplete c va) s = .next u ∧
        u.ctx? c = some { x with retiring := [] } ∧ u.mem = s.mem ∧
        (∀ e ∈ u.cores, ∀ q ∈ e.2.tlb, q.ctx = c → ¬ (q.va < b + n ∧ b < q.va + Sys2Proof.Machine.regionSize q.level)) ∧
        ∀ e ∈ u.dieTlb, ∀ q ∈ e.2, q.ctx = c → ¬ (q.va < b + n ∧ b < q.va + Sys2Proof.Machine.regionSize q.level)) ∧
    ((∃ e ∈ s.cores, e.2.ctx = some c ∧ e.2.uses b n = true) →
      Sys2Proof.Machine.exec (.invalidationComplete c va) s = .next s))

/-- The plots and the bandwidth phase.  The parts: `PlotStates`, `BandwidthPhase`. -/
def Obligations.PlotStates : Prop :=
  Sys2Proof.Claims.PlotStates ∧ Sys2Proof.Claims.BandwidthPhase

/-- R243, R244. A mitigation that is due refreshes the row's neighbours, one command in each slot of the calendar that
it has had, or is deferred while a context of the function is vacated, and then runs; one that is not due does
nothing. At the throttle threshold the row is throttled, until its refresh window ends and its count with it. Each
writes an event record where the physical function has a ring for them. An access activates its row at most once, and
at the mitigation threshold one is due. Where the spec leaves it open, this rests on the model's choice in log entries
8 and 65. -/
def Obligations.RowDisturbance : Prop :=
  ∀ (s : Sys2Proof.Machine.State) (row fn : Nat), fn ≤ 256 → row < 2 ^ 39 →
    ((s.tracker row fn).due = false ∨ (fn, row) ∈ s.deferred →
      Sys2Proof.Machine.exec (.rowMitigation row fn) s = .next s) ∧
    ((s.tracker row fn).due = true → s.vacatingFn fn = false → (fn, row) ∉ s.deferred →
      ∃ v : Sys2Proof.Machine.State, Sys2Proof.Machine.exec (.rowMitigation row fn) s = .next v.drainTraces.drainPosted ∧ v.deferred = s.deferred ∧
        Sys2Proof.Claims.RefreshMoves s v row fn) ∧
    ((s.tracker row fn).due = true → s.vacatingFn fn = true → (fn, row) ∉ s.deferred →
      Sys2Proof.Machine.exec (.rowMitigation row fn) s = .next { s with deferred := s.deferred ++ [(fn, row)] }) ∧
    ((s.tracker row fn).throttled = false → s.thrThresh ≠ 0 → s.thrThresh ≤ (s.tracker row fn).count →
      ∃ u n, Sys2Proof.Machine.exec (.rowThrottleStart row fn) s = .next u ∧ (u.tracker row fn).throttled = true ∧
        (s.evSize = 0 → u.mem = s.mem) ∧
        (s.evSize ≠ 0 → u.evHead = s.evHead + 1 ∧
          u.mem = Sys2Proof.Machine.Memory.setBytes s.mem (s.evBase + 32 * (s.evHead % s.evSize))
            (Sys2Proof.Claims.rowBytes s 2 row fn n (s.tracker row fn).count))) ∧
    ((s.tracker row fn).throttled = true ∨ s.thrThresh = 0 ∨ (s.tracker row fn).count < s.thrThresh →
      Sys2Proof.Machine.exec (.rowThrottleStart row fn) s = .next s) ∧
    ((s.tracker row fn).throttled = true →
      ∃ u : Sys2Proof.Machine.State, Sys2Proof.Machine.exec (.rowThrottleEnd row fn) s = .next u.drainTraces.drainPosted ∧
        u.tracker row fn = ⟨row, fn, 0, false, 0, false, none⟩ ∧
        (s.evSize ≠ 0 → u.evHead = s.evHead + 1 ∧
          u.mem = Sys2Proof.Machine.Memory.setBytes s.mem (s.evBase + 32 * (s.evHead % s.evSize))
            (Sys2Proof.Claims.rowBytes s 3 row fn 0 (s.tracker row fn).count))) ∧
    (s.vacatingFn fn = false →
      ∃ u, Sys2Proof.Machine.exec (.deferredMitigationRun fn) s = .next u ∧
        (∀ d, d ∈ u.deferred ↔ d ∈ s.deferred ∧ d.1 ≠ fn) ∧
        ((s.deferred.filter fun d => d.1 == fn) = [(fn, row)] → Sys2Proof.Claims.RefreshMoves s u row fn)) ∧
    (s.mitThresh ≠ 0 → ∃ n, n ≤ 1 ∧ ((s.activate fn row).tracker row fn).count = (s.tracker row fn).count + n ∧
      (((s.activate fn row).tracker row fn).due = true ↔ (s.tracker row fn).due = true ∨
        (n = 1 ∧ (s.tracker row fn).count + 1 = s.mitThresh)) ∧ (s.activate fn row).mem = s.mem)

/-- R245, R257, R259. A Created context whose record, read again, allowances and pinned pages are ready gets its cores
and runs. A pre-emption with a soft deadline makes a Running context Yielding; deadline 0, the deadline's passing or
the last team's end make it Vacating; a second pre-emption takes the earlier deadline. Where the spec leaves it open,
this rests on the model's choice in log entry 12. -/
def Obligations.ContextRunsAndYields : Prop :=
  (∀ (s : Sys2Proof.Machine.State) (c : Nat) (x y : Sys2Proof.Machine.Ctx),
    s.ctx? c = some x → s.rkUp = true → x.state = .created → s.rereadCtx c x = some y → s.coresFree y.cores = true →
    s.pinsWarm c y = true → y.withinBound = true →
    ∃ u x', Sys2Proof.Machine.exec (.contextStart c) s = .next u ∧
      u.cores = y.saved.foldl (fun m e => Sys2Proof.Machine.Map.set m e.1 { e.2 with ctx := some c }) s.cores ∧
      u.ctx? c = some x' ∧ x' = { y with state := .running, saved := [], dieWin := x'.dieWin } ∧
      (∀ j, j ≠ c → u.ctx? j = s.ctx? j)) ∧
  (∀ (s : Sys2Proof.Machine.State) (c : Nat) (d : Sys2Proof.W64) (x : Sys2Proof.Machine.Ctx),
    s.ctx? c = some x → x.state = .running →
    (d ≠ 0 → ∃ u, Sys2Proof.Machine.exec (.preemptSoft c d) s = .next u ∧ u.cores = s.cores ∧
      u.ctx? c = some { x with state := .yielding, softEnd := s.tstamp.toNat + d.toNat }) ∧
    (∃ u, Sys2Proof.Machine.exec (.preemptHard c) s = .next u ∧
      u.ctx? c = some { x with state := .vacating, vstart := s.tstamp, frozenNs := 0 } ∧
      ∀ q ∈ u.issueQ, q.core ∉ s.coresOf c)) ∧
  (∀ (s : Sys2Proof.Machine.State) (c : Nat) (d : Sys2Proof.W64) (x : Sys2Proof.Machine.Ctx),
    s.ctx? c = some x → x.state = .yielding →
    (x.softEnd ≤ s.tstamp.toNat →
      ∃ u, Sys2Proof.Machine.exec (.softDeadlineExpire c) s = .next u ∧
        u.ctx? c = some { x with state := .vacating, vstart := s.tstamp, frozenNs := 0 }) ∧
    ((∀ e ∈ s.cores, e.2.ctx = some c → e.2.teams = []) →
      ∃ u, Sys2Proof.Machine.exec (.yieldingEmpty c) s = .next u ∧
        u.ctx? c = some { x with state := .vacating, vstart := s.tstamp, frozenNs := 0 }) ∧
    (d ≠ 0 → Sys2Proof.Machine.exec (.preemptAgain c d) s =
      .next (s.updCtx c fun _ => { x with softEnd := min x.softEnd (s.tstamp.toNat + d.toNat) })) ∧
    (∃ u, Sys2Proof.Machine.exec (.preemptAgain c 0) s = .next u ∧
      u.ctx? c = some { x with state := .vacating, vstart := s.tstamp, frozenNs := 0 })) ∧
  (∀ (s : Sys2Proof.Machine.State) (c : Nat) (d : Sys2Proof.W64) (x : Sys2Proof.Machine.Ctx),
    s.ctx? c = some x → x.state = .frozen → x.pendPre = none → d ≠ 0 →
    Sys2Proof.Machine.exec (.preemptSoft c d) s = .next (s.updCtx c fun _ => { x with pendPre := some d }))

/-- Vacate, restore and destroy.  The parts: `VacateEnds`, `RestoreAndDestroy`. -/
def Obligations.VacateAndRestore : Prop :=
  Sys2Proof.Claims.VacateEnds ∧ Sys2Proof.Claims.RestoreAndDestroy

/-- R276, R277, R245, R343. When the resident kernel crashes every context on the package is Frozen and issue stops;
re-adoption puts a context back into its state and answers every call that a split of its cores waits for "service
interrupted"; one that fails spoils it with 0x0311; a reboot with no Frozen context completes, and extends m6 and m7;
the third failed reboot gives up; a reset of the part spoils with 0x0312 all that is not Saved, Spoiled or Destroyed.
Where the spec leaves it open, this rests on the model's choice in log entry 52. -/
def Obligations.KernelCrash : Prop :=
  (∀ (s : Sys2Proof.Machine.State) (i : Sys2Proof.Instr),
    (i = .rkHeartbeatTimeout ∧ s.rk = .up ∧ s.gated = false) ∨ (i = .rkSystemCoreFault ∧ s.rk = .up) →
    ∃ u, Sys2Proof.Machine.exec i s = .next u ∧ u.rk = .crashed ∧ u.issueQ = [] ∧ u.cores = s.cores ∧
      ∀ c x, s.ctx? c = some x → u.ctx? c = some (if x.state = .running ∨ x.state = .yielding ∨ x.state = .vacating ∨
        x.state = .restoring then { x with before := x.state, state := .frozen, frozenAt := s.tstamp } else x)) ∧
  (∀ (s : Sys2Proof.Machine.State) (c : Nat) (x : Sys2Proof.Machine.Ctx),
    s.ctx? c = some x → s.rk ≠ .givenUp → x.state = .frozen →
    (x.pendPre = none → ∃ u x', Sys2Proof.Machine.exec (.rkReadopt c) s = .next u ∧ u.rk = .up ∧ u.ctx? c = some x' ∧
      x'.state = x.before ∧ x'.pendPre = none ∧ x'.frozenNs = (if x.before = .vacating then
        x.frozenNs + (s.tstamp - x.frozenAt) else x.frozenNs) ∧
      (∀ k co, s.core? k = some co → ∃ co', u.core? k = some co' ∧
        (co.ctx = some c → Sys2Proof.Claims.Interrupted co co') ∧ (co.ctx ≠ some c → co' = co)) ∧
      ∀ k co, x.saved.get k = some co → ∃ co', x'.saved.get k = some co' ∧ Sys2Proof.Claims.Interrupted co co') ∧
    (x.destroyPend = false → ∃ u x', Sys2Proof.Machine.exec (.readoptFail c) s = .next u ∧ u.rk = .up ∧
      u.ctx? c = some x' ∧ x'.state = .spoiled ∧ x'.fault = 0x0311 ∧ x'.grade = 2 ∧
      ∀ e ∈ u.cores, e.2.ctx ≠ some c)) ∧
  (∀ (s : Sys2Proof.Machine.State) (c : Nat), s.rk = .crashed → (∀ e ∈ s.ctxs, e.2.state ≠ .frozen) →
    (∀ x, s.ctx? c = some x → x.state ≠ .frozen) →
    ∃ u, Sys2Proof.Machine.exec (.rkReadopt c) s = .next u ∧ u = { s with rk := .up, meas := u.meas } ∧
      (∀ i, i ≠ 6 → i ≠ 7 → Sys2Proof.Machine.Regs.get u.meas i = Sys2Proof.Machine.Regs.get s.meas i) ∧
      ∀ i, i = 6 ∨ i = 7 → ∃ d : List Sys2Proof.Byte, d.length = 48 ∧ Sys2Proof.Machine.Regs.get u.meas i =
        Sys2Proof.Machine.ofMeas (Sys2Proof.Machine.sha384 (Sys2Proof.Machine.measBytes
          (Sys2Proof.Machine.Regs.get s.meas i) ++ d))) ∧
  (∀ (s : Sys2Proof.Machine.State), s.rk = .crashed →
    Sys2Proof.Machine.exec .warmRebootFail s = .next { s with
      rebootFails := s.rebootFails + 1, rk := if 2 ≤ s.rebootFails then .givenUp else .crashed }) ∧
  (∀ (s : Sys2Proof.Machine.State), ∃ u, Sys2Proof.Machine.exec .partReset s = .next u ∧ u.cores = [] ∧ u.links = [] ∧
    u.rk = .up ∧ (∀ e ∈ u.queues, e.2.state ≠ .mapped ∧ e.2.state ≠ .closing) ∧
    ∀ c x, s.ctx? c = some x →
      (x.state ≠ .saved → x.state ≠ .spoiled → x.state ≠ .destroyed → (∀ e ∈ s.ctxs, e.1 = c → e.2.destroyPend = false) →
        ∃ x', u.ctx? c = some x' ∧ x'.state = .spoiled ∧ x'.fault = 0x0312 ∧ x'.grade = 2) ∧
      ((∀ e ∈ s.ctxs, e.1 = c → e.2.state = .saved) → u.ctx? c = some x))

/-- R302, R303, R306, R349, R238. The operations of CTXOP: create, with a new key, pre-empt and restore act and
complete once their state is reached; destroy and the two of draining complete with status 0; each in a later sweep.
Where the spec leaves it open, this rests on the model's choice in log entry 50. -/
def Obligations.ContextPackets : Prop :=
  (∀ (s v v1 : Sys2Proof.Machine.State) (fn q c : Nat) (arg : Sys2Proof.W64) (qu : Sys2Proof.Machine.Queue)
    (p : List Sys2Proof.W64) (y : Sys2Proof.Machine.Ctx),
    Sys2Proof.Claims.CtxOp s fn q 0 c arg qu p → v = Sys2Proof.Claims.begin' s fn q qu → qu.acted = false →
    v.inUse c = false → arg.toNat % 1024 = 0 → 
    v.agentTry (qu.operandAgent (256 * fn + q)) [] [(arg.toNat, 1024, .rw)] = .go →
    v1 = v.agentDone (qu.operandAgent (256 * fn + q)) [(arg.toNat, 1024, .rw)] →
    Sys2Proof.Machine.Ctx.ofRecord { Sys2Proof.Machine.Ctx.blank with recVa := arg.toNat, draining := s.partDraining } c
      (v1.vaRead none arg.toNat 1024) = some y → y.fix ≤ y.bound →
    ∃ u y' qu', Sys2Proof.Machine.exec (.ctxopCreate fn q) s = .next u ∧ u.ctx? c = some y' ∧ y'.state = .created ∧
      y'.cores = y.cores ∧ y'.saved = (y.cores.map fun k => (k, { Sys2Proof.Machine.Core.init with ctx := some c })) ∧
      u.keys.get c = some s.nextKey ∧ u.nextKey = s.nextKey + 1 ∧
      u.queues.get (256 * fn + q) = some qu' ∧ qu'.acted = true ∧ qu'.head = qu.head) ∧
  (∀ (s v : Sys2Proof.Machine.State) (fn q op c : Nat) (arg : Sys2Proof.W64) (qu : Sys2Proof.Machine.Queue)
    (p : List Sys2Proof.W64) (x : Sys2Proof.Machine.Ctx) (i : Sys2Proof.Instr),
    Sys2Proof.Claims.CtxOp s fn q op c arg qu p → v = Sys2Proof.Claims.begin' s fn q qu → qu.acted = true →
    s.ctx? c = some x →
    (i = .ctxopCreate fn q ∧ op = 0 ∧ x.state = .running) ∨ (i = .ctxopPreempt fn q ∧ op = 1 ∧ x.state = .saved ∧ x.pendPre = none) ∨
      (i = .ctxopRestore fn q ∧ op = 2 ∧ x.state = .running) ∨
      (i = .ctxopDestroy fn q ∧ op = 3 ∧ x.destroyPend = false) →
    Sys2Proof.Machine.exec i s = .next (Sys2Proof.Claims.hand v fn q 0 qu)) ∧
  (∀ (s v : Sys2Proof.Machine.State) (fn q c : Nat) (arg : Sys2Proof.W64) (qu : Sys2Proof.Machine.Queue)
    (p : List Sys2Proof.W64) (x : Sys2Proof.Machine.Ctx),
    v = Sys2Proof.Claims.begin' s fn q qu → qu.acted = false → s.ctx? c = some x →
    (Sys2Proof.Claims.CtxOp s fn q 1 c arg qu p → x.state = .running →
      Sys2Proof.Machine.exec (.ctxopPreempt fn q) s = .next ((v.preempt c
        (if arg = 0xFFFFFFFFFFFFFFFF then x.softdl else arg)).act (256 * fn + q))) ∧
    (∀ y, Sys2Proof.Claims.CtxOp s fn q 2 c arg qu p → x.state = .saved → v.rereadCtx c x = some y →
      y.withinBound = true → v.restoreRoom c y = true →
      Sys2Proof.Machine.exec (.ctxopRestore fn q) s =
        .next (((v.updCtx c fun _ => y).placeBack c y).act (256 * fn + q))) ∧
    (Sys2Proof.Claims.CtxOp s fn q 3 c arg qu p → x.state ≠ .destroyed → x.state ≠ .vacating → x.state ≠ .frozen →
      Sys2Proof.Machine.exec (.ctxopDestroy fn q) s = .next (Sys2Proof.Claims.hand (v.destroy c) fn q 0 qu)) ∧
    (Sys2Proof.Claims.CtxOp s fn q 4 c arg qu p → x.state ≠ .destroyed → x.state ≠ .spoiled →
      Sys2Proof.Machine.exec (.ctxopSetDraining fn q) s = .next (Sys2Proof.Claims.hand (v.drain c) fn q 0 qu)) ∧
    (Sys2Proof.Claims.CtxOp s fn q 5 c arg qu p → x.state ≠ .destroyed → x.state ≠ .spoiled →
      Sys2Proof.Machine.exec (.ctxopClearDraining fn q) s = .next (Sys2Proof.Claims.hand (v.undrain c) fn q 0 qu))) ∧
  (∀ (s : Sys2Proof.Machine.State) (c : Nat) (x : Sys2Proof.Machine.Ctx), s.ctx? c = some x → x.draining = false →
    (s.drain c).ctx? c = some { x with draining := true } ∧
    (∀ j qu, (j, qu) ∈ s.queues → s.queues.get j = some qu → qu.ctx = some c →
      ∃ qu', (s.drain c).queues.get j = some qu' ∧ qu'.accv = true) ∧
    (s.undrain c).ctx? c = some { x with draining := false })

/-- Counter adds and record queues performed.  The parts: `CountersPerformed`, `RecordQueues`. -/
def Obligations.CountersAndQueues : Prop :=
  Sys2Proof.Claims.CountersPerformed ∧ Sys2Proof.Claims.RecordQueues

/-- R102, R285, R286, R289. The oldest queued crew of a kernel is placed on the lowest core that can hold it: a fresh
region, its teams in the lowest free positions with no register kept, at the kernel's first header. The oldest Ready
record is placed as a crew of one team with its carried registers. Where the spec leaves it open, this rests on the
model's choice in log entries 33 and 46. -/
def Obligations.Placement : Prop :=
  (∀ (s : Sys2Proof.Machine.State) (c n back k slot base : Nat) (x : Sys2Proof.Machine.Ctx) (kn : Sys2Proof.Machine.Kern)
    (credit : Option Nat) (rest : List (Option Nat)) (co : Sys2Proof.Machine.Core) (srcs : List Nat),
    s.ctx? c = some x → s.kern? c n = some kn → kn.queued = credit :: rest → srcs = kn.freeRecs.take kn.teams →
    s.coreFor c x kn.shape = some k → s.core? k = some co → co.crews.lowestFree 16 0 = some slot →
    co.findRegion kn.shared = some base → s.rkUp = true → x.state = .running → kn.state ≠ .unloaded →
    srcs.length = kn.teams → Sys2Proof.Machine.backFits back kn.teams = true → s.backWarm back = true →
    ∃ u co' kn', Sys2Proof.Machine.exec (.crewPlace c n back) s = .next u ∧ u.core? k = some co' ∧
      co'.crews.get slot = some ⟨n, kn.serial, base, kn.shared, [], 0, credit, credit.isSome⟩ ∧ co'.reassign = true ∧
      (∀ b, base ≤ b → b < base + kn.shared → Sys2Proof.Machine.Regs.get co'.shared b = 0) ∧
      (∀ i pos, i < kn.teams → (co.freePositions x.pool)[i]? = some pos → ∃ tm, co'.teams.get pos = some tm ∧
        Sys2Proof.Claims.Placed tm n slot i kn.lanes kn.vregs kn.sregs (BitVec.ofNat 64 kn.codeVa) ∧ tm.v = [] ∧
        tm.s = [] ∧ tm.order = co.nextOrder + i ∧ tm.backing = back + 524288 * i ∧ tm.source = srcs[i]?) ∧
      u.kern? c n = some kn' ∧ kn'.queued = rest ∧ kn'.serial = (kn.serial + 1) % 2 ^ 28 ∧
      ∀ r ∈ srcs, ∃ rec, kn'.recs.get r = some rec ∧ rec.state = .placed ∧ rec.init = true) ∧
  (∀ (s : Sys2Proof.Machine.State) (c n back k slot base ri pos : Nat) (x : Sys2Proof.Machine.Ctx)
    (kn : Sys2Proof.Machine.Kern) (rest ps : List Nat) (r : Sys2Proof.Machine.PhaseRec) (co : Sys2Proof.Machine.Core),
    s.ctx? c = some x → s.kern? c n = some kn → kn.readyQ = ri :: rest → kn.recs.get ri = some r →
    s.coreFor c x (kn.recShape r) = some k → s.core? k = some co → co.crews.lowestFree 16 0 = some slot →
    co.findRegion kn.shared = some base → co.freePositions x.pool = pos :: ps → s.rkUp = true → x.state = .running →
    kn.state ≠ .unloaded → Sys2Proof.Machine.backFits back 1 = true → s.backWarm back = true →
    ∃ u co' kn' tm, Sys2Proof.Machine.exec (.phasePlace c n back) s = .next u ∧ u.core? k = some co' ∧
      co'.crews.get slot = some ⟨n, kn.serial, base, kn.shared, [], 0, none, false⟩ ∧ co'.teams.get pos = some tm ∧
      Sys2Proof.Claims.Placed tm n slot r.role (if r.init then kn.lanes else r.lanes)
        (if r.init then kn.vregs else r.carry) (if r.init then kn.sregs else r.sregs) r.entry ∧
      tm.v = (if r.init then [] else r.v) ∧ tm.s = (if r.init then [] else r.s) ∧ tm.replay = r.replay ∧
      tm.source = some ri ∧ u.kern? c n = some kn' ∧ kn'.readyQ = rest ∧
      kn'.recs.get ri = some { r with state := .placed }) ∧
  (∀ (s : Sys2Proof.Machine.State) (k r c : Nat) (co : Sys2Proof.Machine.Core) (ctx : Sys2Proof.Machine.Ctx)
    (w : Sys2Proof.Machine.Crew), s.core? k = some co → s.ctxOf k = some (c, ctx) → co.crews.get r = some w →
    w.credit = none → co.dir = [] → s.crewBusy k r co = false →
    Sys2Proof.Machine.exec (.crewRetire k r) s =
      .next (s.updCore k fun _ => { co with crews := co.crews.del r, reassign := true }))

/-- R123, R286, R287. A Phasing team with no work outstanding writes its record, with its registers, conditions and
adds, into the lowest Free record and retires; with the record's commit its adds become due, the source record is
freed, and a record without conditions becomes Ready. Where the spec leaves it open, this rests on the model's choice
in log entry 34. -/
def Obligations.PhaseRecords : Prop :=
  (∀ (s : Sys2Proof.Machine.State) (k t c r n : Nat) (entry : Sys2Proof.W64) (co : Sys2Proof.Machine.Core)
    (tm : Sys2Proof.Machine.Team) (x : Sys2Proof.Machine.Ctx) (kn : Sys2Proof.Machine.Kern),
    s.core? k = some co → co.teams.get t = some tm → s.ctxOf k = some (c, x) → x.kernels.get tm.kernel = some kn →
    tm.phase = some (n, entry) → kn.freeRec = some r → tm.state = .phasing → s.teamIdle k t tm = true →
    ∃ u co' kn' rec, Sys2Proof.Machine.exec (.phaseRecordWrite k t) s = .next u ∧ u.mem = s.mem ∧
      u.core? k = some co' ∧ co'.teams.get t = none ∧ (∀ j, j ≠ t → co'.teams.get j = co.teams.get j) ∧
      u.kern? c tm.kernel = some kn' ∧ kn'.recs.get r = some rec ∧ rec.state = .writing ∧ rec.entry = entry ∧
      rec.carry = n ∧ rec.lanes = tm.lanes ∧ rec.cond = tm.conds ∧ rec.commit = tm.commit ∧ rec.src = tm.source ∧
      rec.init = false ∧ rec.core = k ∧
      (∀ i, i < tm.scount → Sys2Proof.Machine.Regs.get rec.s i = Sys2Proof.Machine.Regs.get tm.s i) ∧
      (∀ i, i < 1024 * n → Sys2Proof.Machine.Regs.get rec.v i = Sys2Proof.Machine.Regs.get tm.v i)) ∧
  (∀ (s : Sys2Proof.Machine.State) (c n r : Nat) (kn : Sys2Proof.Machine.Kern) (rec : Sys2Proof.Machine.PhaseRec),
    s.kern? c n = some kn → kn.recs.get r = some rec → rec.state = .writing → rec.src ≠ some r →
    ∃ u kn' rec', Sys2Proof.Machine.exec (.phaseCommit c n r) s = .next u ∧ u.cores = s.cores ∧
      u.kern? c n = some kn' ∧ kn'.recs.get r = some rec' ∧ rec'.due = true ∧ rec'.src = none ∧
      rec'.commit = rec.commit ∧ rec'.entry = rec.entry ∧ rec'.v = rec.v ∧ rec'.s = rec.s ∧
      (rec.cond = [] → rec'.state = .ready ∧ kn'.readyQ = kn.readyQ ++ [r] ∧ rec'.readyts = s.tstamp) ∧
      (rec'.state = .waiting ∨ rec'.state = .ready) ∧
      ∀ i src, rec.src = some i → i ≠ r → kn.recs.get i = some src → kn'.recs.get i = some { src with state := .free })

/-- R282 to R284, R266, R303. KLOAD 0 with a legal descriptor and image gives its kernel the next load number and
queues its crews, and its packet completes in a later sweep; KLOAD 1 closes a Loaded kernel and frees its Waiting
records, and no other; a Closing kernel with no work left is Unloaded; the resident kernel ends a kernel for a Held
team's fault with every team of it retired. Where the spec leaves it open, this rests on the model's choice in log
entries 48 and 49. -/
def Obligations.KernelLoads : Prop :=
  (∀ (s v v1 v2 : Sys2Proof.Machine.State) (fn q tid c va : Nat) (qu : Sys2Proof.Machine.Queue)
    (p : List Sys2Proof.W64) (x : Sys2Proof.Machine.Ctx) (d : Sys2Proof.Machine.KDesc) (h : List Sys2Proof.Byte),
    Sys2Proof.Claims.Kload s v fn q c va qu p x d → d.op = 0 →
    Sys2Proof.Claims.Made v v1 (256 * fn + q) 1 qu [(d.image, 64, .r)] → h = v1.vaRead (some c) d.image 64 →
    v1.kcheck c x d h = none → Sys2Proof.Claims.Made v1 v2 (256 * fn + q) 2 qu
      [(d.image, Sys2Proof.Machine.imageSize h, .r), (d.pool, d.records *
        (((0x380 + 4 * Sys2Proof.Machine.hdrField h 0x1A 2 * d.maxcarry + 63) / 64) * 64), .rw)] →
    ∃ u x' kn qu', Sys2Proof.Machine.exec (.kloadLoad fn q tid) s = .next u ∧ u.ctx? c = some x' ∧
      x'.nextLoad = x.nextLoad + 1 ∧ x'.kernels.get x.nextLoad = some kn ∧ kn.state = .loaded ∧ kn.image = d.image ∧
      kn.codeVa = d.image + 0x40 ∧ kn.codewords = Sys2Proof.Machine.hdrField h 0x08 4 ∧
      kn.teams = Sys2Proof.Machine.hdrField h 0x18 1 ∧ kn.lanes = Sys2Proof.Machine.hdrField h 0x1A 2 ∧
      kn.vregs = Sys2Proof.Machine.hdrField h 0x1C 1 ∧ kn.sregs = Sys2Proof.Machine.hdrField h 0x1D 1 ∧
      kn.queued = List.replicate d.crews none ∧ kn.pool = d.pool ∧ kn.records = d.records ∧
      (∀ i, i < d.records → kn.recs.get i = some Sys2Proof.Machine.PhaseRec.empty) ∧
      u.queues.get (256 * fn + q) = some qu' ∧ Sys2Proof.Claims.Handed v p [0] qu qu') ∧
  (∀ (s v : Sys2Proof.Machine.State) (fn q c va : Nat) (qu : Sys2Proof.Machine.Queue) (p : List Sys2Proof.W64)
    (x : Sys2Proof.Machine.Ctx) (d : Sys2Proof.Machine.KDesc) (kn : Sys2Proof.Machine.Kern),
    Sys2Proof.Claims.Kload s v fn q c va qu p x d → d.op = 1 → x.kernels.get d.load = some kn →
    ∃ u kn' qu', Sys2Proof.Machine.exec (.kloadUnload fn q) s = .next u ∧ u.kern? c d.load = some kn' ∧
      u.queues.get (256 * fn + q) = some qu' ∧ Sys2Proof.Claims.Handed v p [if kn.state = .loaded then 0 else 6] qu qu' ∧
      (kn.state = .loaded → kn'.state = .closing ∧ ∀ r rec, kn.recs.get r = some rec →
        ∃ rec', kn'.recs.get r = some rec' ∧ (rec.state = .waiting → rec'.state = .free)) ∧
      (kn.state ≠ .loaded → kn' = kn)) ∧
  (∀ (s : Sys2Proof.Machine.State) (c n : Nat) (x : Sys2Proof.Machine.Ctx) (kn : Sys2Proof.Machine.Kern),
    s.ctx? c = some x → s.kern? c n = some kn → kn.state = .closing → kn.queued = [] →
    (∀ e ∈ kn.recs, e.2.state ≠ .ready ∧ e.2.state ≠ .placed ∧ e.2.state ≠ .writing) → s.kernelRuns c n x = false →
    ∃ u kn', Sys2Proof.Machine.exec (.kernelCloseComplete c n) s = .next u ∧ u.kern? c n = some kn' ∧
      kn'.state = .unloaded ∧ u.cores = s.cores) ∧
  (∀ (s : Sys2Proof.Machine.State) (c n : Nat) (kn : Sys2Proof.Machine.Kern) (f : Sys2Proof.Machine.FaultInfo),
    s.kern? c n = some kn → s.heldFault c n = some f → s.rkUp = true → kn.state ≠ .unloaded →
    ∃ u kn', Sys2Proof.Machine.exec (.kernelEndAfterFault c n) s = .next u ∧ u.kern? c n = some kn' ∧
      kn'.state = .unloaded ∧ kn'.queued = [] ∧ kn'.readyQ = [] ∧
      ∀ k co, s.core? k = some co → co.ctx = some c → ∃ co', u.core? k = some co' ∧
        ∀ t tm, co'.teams.get t = some tm → tm.kernel ≠ n)

/-- Queue states, registration, sweeps and completions.  The parts: `QueueStates`, `QueueRegistration`,
`SweepsAndCompletions`. -/
def Obligations.QueueStatesAndSweeps : Prop :=
  Sys2Proof.Claims.QueueStates ∧ Sys2Proof.Claims.QueueRegistration ∧ Sys2Proof.Claims.SweepsAndCompletions

/-- R300 to R303, R288. What each packet of a lane does: `NOP`, `APPEND`, `SIGNAL`, `WAITSEQ`, `COPY`, `RELEASE`,
`ACQUIRE`, `TSTAMP` and `SCRUB`, each with its status; `APPEND`, `SIGNAL` and `ACQUIRE` wait for the posted writes
that arrived before the doorbell, and `COPY` and `SCRUB` complete in a later sweep. An operand's access takes its
slots of the calendar, waits until it has them, and gives status 3 where it is refused; status 2 for a reserved bit
and 7 for an opcode that is none. Where the spec leaves it open, this rests on the model's choice in log entries 41
and 48. -/
def Obligations.Packets : Prop :=
  ∀ (s v v1 : Sys2Proof.Machine.State) (fn q op key : Nat) (qu : Sys2Proof.Machine.Queue) (p : List Sys2Proof.W64)
    (w : Nat → Nat) (early : Prop), Sys2Proof.Claims.Taken s fn q op qu p → v = Sys2Proof.Claims.begin' s fn q qu →
    key = 256 * fn + q → w = Sys2Proof.Claims.packetWord p → (early ↔ ∃ z ∈ s.posted, z.no < qu.bell) →
    (op = 0 → Sys2Proof.Machine.exec (.nopPacket fn q) s = .next (v.complete key
      (if (w 0) / 2 ^ 32 % 2 ^ 24 = 0 ∧ ∀ x ∈ p.drop 1, x = 0 then 0 else 2))) ∧
    (op = 6 → Sys2Proof.Claims.PlainPacket p 1 →
      (early → Sys2Proof.Machine.exec (.acquire fn q) s = .next v) ∧
      (¬ early → Sys2Proof.Machine.exec (.acquire fn q) s = .next (v.complete key 0))) ∧
    (op ≥ 11 → Sys2Proof.Machine.exec (.unknownPacket fn q) s = .next (v.complete key 7)) ∧
    (∀ o n i, (o, n, i) ∈ ([(1, 4, .append fn q), (2, 3, .signal fn q), (3, 3, .waitseq fn q), (4, 4, .copy fn q),
        (5, 2, .release fn q), (6, 1, .acquire fn q), (7, 2, .kloadUnload fn q), (8, 2, .tstampPacket fn q)] :
        List (Nat × Nat × Sys2Proof.Instr)) → op = o → ¬ Sys2Proof.Claims.PlainPacket p n →
      Sys2Proof.Machine.exec i s = .next (v.complete key 2)) ∧
    (∀ i, (op = 5 ∧ i = .release fn q) ∨ (op = 8 ∧ i = .tstampPacket fn q) → Sys2Proof.Claims.PlainPacket p 2 →
      w 1 % 8 = 0 →
      (v.agentTry (qu.operandAgent key) [] [(w 1, 8, .w)] = .bad →
        Sys2Proof.Machine.exec i s = .next (v.complete key 3)) ∧
      (v.agentTry (qu.operandAgent key) [] [(w 1, 8, .w)] = .later v1 → Sys2Proof.Machine.exec i s = .next v1)) ∧
    (op = 5 → Sys2Proof.Claims.PlainPacket p 2 → w 1 % 8 = 0 → Sys2Proof.Claims.Got v v1 key qu [] [(w 1, 8, .w)] →
      Sys2Proof.Machine.exec (.release fn q) s = .next (((Sys2Proof.Machine.State.portRelease v1).vaWrite qu.ctx (w 1)
        (Sys2Proof.Machine.toBytes 8 s.tstamp.toNat)).complete key 0)) ∧
    (op = 8 → Sys2Proof.Claims.PlainPacket p 2 → w 1 % 8 = 0 → Sys2Proof.Claims.Got v v1 key qu [] [(w 1, 8, .w)] →
      Sys2Proof.Machine.exec (.tstampPacket fn q) s = .next ((v1.vaWrite qu.ctx (w 1) (Sys2Proof.Machine.toBytes 8
        (if qu.begun then qu.started else s.tstamp).toNat)).complete key 0)) ∧
    (op = 2 → Sys2Proof.Claims.PlainPacket p 3 → w 1 % 8 = 0 → w 2 < 2 ^ 63 →
      (w 2 = 0 → Sys2Proof.Machine.exec (.signal fn q) s = .next (v.complete key 0)) ∧
      (w 2 ≠ 0 → early → Sys2Proof.Machine.exec (.signal fn q) s = .next v) ∧
      (w 2 ≠ 0 → ¬ early → Sys2Proof.Claims.Got v v1 key qu [] [(w 1, 8, .rw)] →
        Sys2Proof.Machine.exec (.signal fn q) s = .next ((v1.signalAdd qu.ctx (w 1) (w 2)).complete key 0))) ∧
    (∀ i, op = 3 → Sys2Proof.Claims.PlainPacket p 3 → w 1 % 8 = 0 → Sys2Proof.Claims.Got v v1 key qu [] [(w 1, 8, .r)] →
      i = .waitseq fn q ∨ (i = .waitseqSatisfied fn q ∧ qu.begun = true) →
      Sys2Proof.Machine.exec i s = .next (if w 2 ≤ Sys2Proof.Machine.ofBytes (v1.vaRead qu.ctx (w 1) 8) then
        v1.complete key 0 else v1)) ∧
    (op = 4 → Sys2Proof.Claims.PlainPacket p 4 → w 3 < 2 ^ 32 → w 3 = 0 ∨ w 2 + w 3 ≤ w 1 ∨ w 1 + w 3 ≤ w 2 →
      Sys2Proof.Machine.exec (.copy fn q) s = .next (if w 3 = 0 then v.complete key 0 else v)) ∧
    (op = 4 → qu.begun = true → 0 < w 3 → w 1 % 65536 + w 3 ≤ 65536 → w 2 % 65536 + w 3 ≤ 65536 →
      Sys2Proof.Claims.Got v v1 key qu [22] [(w 1, w 3, .r), (w 2, w 3, .w)] → qu.copied = 0 →
      Sys2Proof.Machine.exec (.copyComplete fn q) s =
        .next (Sys2Proof.Claims.hand { v1.vaStore qu.ctx (w 2) (v1.vaRead qu.ctx (w 1) (w 3)) with
          queues := v1.queues.upd key fun z => { z with copied := z.copied + w 3 } } fn q 0 qu)) ∧
    (∀ c rq, op = 1 → Sys2Proof.Claims.PlainPacket p 4 → w 1 % 64 = 0 → w 2 % 64 = 0 → 1 ≤ w 3 → w 3 < 2 ^ 32 →
      qu.ctx = some c → v.recq? c (w 1) = some rq → w 3 ≤ rq.size →
      (rq.room < w 3 → Sys2Proof.Machine.exec (.append fn q) s = .next (v.complete key 4)) ∧
      (w 3 ≤ rq.room → early → Sys2Proof.Machine.exec (.append fn q) s = .next v) ∧
      (w 3 ≤ rq.room → ¬ early → Sys2Proof.Claims.Got v v1 key qu [] ((w 2, 64 * w 3, .r) :: rq.slotRuns (w 3)) →
        Sys2Proof.Machine.exec (.append fn q) s = .next ((Sys2Proof.Machine.appendAll c (w 1)
          ((List.range (w 3)).map fun i => ((v1.vaRead qu.ctx (w 2) (64 * w 3)).drop (64 * i)).take 64) v1).complete key 0))) ∧
    (op = 10 → qu.priv = true → Sys2Proof.Claims.PlainPacket p 4 → Sys2Proof.Machine.scrubRange (w 1) (w 2) = true →
      w 3 % 8 = 0 →
      (qu.acted = false → Sys2Proof.Machine.exec (.scrubPacket fn q) s = .next ((v.scrubWake (w 1)).act key)) ∧
      (qu.acted = true →
        v.servable (w 1) = true ∨ (v.plot (Sys2Proof.Machine.plotOf (w 1))).state = .off →
        Sys2Proof.Claims.Got v v1 key qu [] [(w 3, (v.scrubReport (w 1) (w 2)).length, .w)] →
        Sys2Proof.Machine.exec (.scrubPacket fn q) s = .next
          (Sys2Proof.Claims.hand ((v1.scrubCounts (v.scrubReport (w 1) (w 2))).vaStore qu.ctx (w 3)
            (v.scrubReport (w 1) (w 2))) fn q 0 qu)))

/-- The solicit wave and its census.  The parts: `SolicitWave`, `CensusEvents`. -/
def Obligations.SolicitWaveAndCensus : Prop :=
  Sys2Proof.Claims.SolicitWave ∧ Sys2Proof.Claims.CensusEvents

/-- R309, R311, R312. A move commits in one step: the bytes are in the target's region, the target entry is resident
with the answered bits of the slots still outstanding there, the source is free, or a stub while a solicit is
outstanding or something forwards to it, and the bytes leave the barrier; a move whose target is gone makes its source
resident again, with `error`; a split that waits for a drop goes on once the entry is free. Where the spec leaves it
open, this rests on the model's choice in log entry 44. -/
def Obligations.TileMoves : Prop :=
  (∀ (s : Sys2Proof.Machine.State) (k x c e target te toff : Nat) (op : Sys2Proof.Machine.AsyncOp)
    (co ct : Sys2Proof.Machine.Core) (cx : Sys2Proof.Machine.Ctx) (d td : Sys2Proof.Machine.DirEntry),
    s.core? k = some co → co.asyncs.get x = some op → s.ctxOf k = some (c, cx) → op.kind = .move e target te toff →
    target ≠ k → s.core? target = some ct → co.dir.get e = some d → ct.dir.get te = some td → d.state = .movingOut →
    td.state = .movingIn → td.peer = k → td.pentry = e → co.answeredAll e = true → co.clear op.afterW = true →
    co.clear op.relW = true → d.peer = target → toff + d.length ≤ (s.regionOf target td.crew).2 → s.abandons k = false →
    ∃ u co' ct', Sys2Proof.Machine.exec (.tileMoveCommit k x) s = .next u ∧ u.mem = s.mem ∧
      u.core? target = some ct' ∧ ct' = { ct with
        shared := Sys2Proof.Machine.Regs.setBytes ct.shared ((s.regionOf target td.crew).1 + toff)
          (Sys2Proof.Machine.Regs.bytes co.shared ((s.regionOf k d.crew).1 + d.offset) d.length)
        dir := ct'.dir } ∧
      Sys2Proof.Claims.Swept
        (ct.dir.set te { td with state := .resident, answered := d.answered &&& cx.slotsAt target }) ct'.dir ∧
      ct'.dir.get te = some { td with state := .resident, answered := d.answered &&& cx.slotsAt target } ∧
      u.core? k = some co' ∧ co' = { co with
        asyncs := co.asyncs.del x, dir := co'.dir
        shared := Sys2Proof.Machine.Bar.write co.shared op.bar (Sys2Proof.Machine.Bar.test
          { Sys2Proof.Machine.Bar.read co.shared op.bar with
            bytes := (Sys2Proof.Machine.Bar.read co.shared op.bar).bytes - d.length }) } ∧
      (cx.slotsAt k ≠ 0 ∨ s.forwardTo k e = true →
        co'.dir.get e = some { d with state := .stub, waits := cx.slotsAt k }) ∧
      (co.dir.wf = true → cx.slotsAt k = 0 → s.stubTo k e = false → s.forwardTo k e = false → co'.dir.get e = none) ∧
      Sys2Proof.Claims.Swept (co.dir.set e { d with state := .stub, waits := cx.slotsAt k }) co'.dir) ∧
  (∀ (s : Sys2Proof.Machine.State) (k x e target te toff : Nat) (op : Sys2Proof.Machine.AsyncOp)
    (co ct : Sys2Proof.Machine.Core) (d : Sys2Proof.Machine.DirEntry),
    s.core? k = some co → co.asyncs.get x = some op → op.kind = .move e target te toff → target ≠ k →
    s.core? target = some ct → co.dir.get e = some d → ct.dir.get te = none → s.abandons k = false →
    ∃ u co', Sys2Proof.Machine.exec (.tileMoveFail k x) s = .next u ∧ u.mem = s.mem ∧ u.core? target = some ct ∧
      u.core? k = some co' ∧ co' = { co with
        asyncs := co.asyncs.del x, dir := co.dir.set e { d with state := .resident, peer := 0, pentry := 0 }
        shared := Sys2Proof.Machine.Bar.write co.shared op.bar (Sys2Proof.Machine.Bar.test
          { Sys2Proof.Machine.Bar.read co.shared op.bar with
            bytes := (Sys2Proof.Machine.Bar.read co.shared op.bar).bytes - d.length, error := true }) }) ∧
  (∀ (s : Sys2Proof.Machine.State) (k t p e : Nat) (sp : Sys2Proof.Machine.Split) (d : Sys2Proof.Machine.DirEntry),
    s.split? k t p = some sp → sp.state = .waiting → sp.wait = .drop e →
    (s.dirEntry? k e = none → Sys2Proof.Machine.exec (.tileDropComplete k t p) s = .next (s.advance k t p sp.wlen)) ∧
    (s.dirEntry? k e = some d → d.dropping = true → s.dropFree k e = true →
      Sys2Proof.Machine.exec (.tileDropComplete k t p) s =
        .next ((s.updCore k fun c => { c with dir := c.dir.del e }).advance k t p sp.wlen)) ∧
    (s.dirEntry? k e = some d → d.dropping = true → s.dropFree k e = false →
      Sys2Proof.Machine.exec (.tileDropComplete k t p) s = .next s))

/-- R330, R338, R274. The states of a link: enabled it trains, to full or half width; errors retrain it, the third
time in a second not back; a timeout fails it and a disable takes it Down; a flit that fails its CRC is replayed.
Where the spec leaves it open, this rests on the model's choice in log entry 53. -/
def Obligations.LinkStates : Prop :=
  (∀ (s : Sys2Proof.Machine.State) (l : Nat) (x : Sys2Proof.Machine.Link), x = s.link l →
    (l < 16 → x.state = .down ∨ x.state = .failed →
      ∃ u, Sys2Proof.Machine.exec (.linkEnable l) s = .next u ∧
        Sys2Proof.Claims.LinkIs s u l { x with state := .training }) ∧
    (x.state = .training →
      (∃ u, Sys2Proof.Machine.exec (.linkTrainedFull l) s = .next u ∧
        Sys2Proof.Claims.LinkIs s u l { x with state := .up, half := false }) ∧
      (∃ u, Sys2Proof.Machine.exec (.linkTrainedHalf l) s = .next u ∧
        Sys2Proof.Claims.LinkIs s u l { x with state := .degraded, half := true }) ∧
      (∃ u, Sys2Proof.Machine.exec (.linkTrainingTimeout l) s = .next u ∧
        Sys2Proof.Claims.LinkIs s u l { x with state := .failed })) ∧
    (x.state = .up ∨ x.state = .degraded →
      (∃ u, Sys2Proof.Machine.exec (.linkErrorRetrain l) s = .next u ∧ Sys2Proof.Claims.LinkIs s u l { x with
        state := .retraining, recent := x.recent ++ [s.tstamp], retrains := x.retrains + 1
        third := Sys2Proof.Claims.thirdInASecond x s.tstamp } ∧ u.cores = s.cores ∧
        u.mem = s.mem ∧ u.qps = s.qps) ∧
      (l = 1 → ∃ u, Sys2Proof.Machine.exec .expanderCompletionTimeout s = .next u ∧ Sys2Proof.Claims.LinkIs s u l { x with
        state := .retraining, recent := x.recent ++ [s.tstamp], retrains := x.retrains + 1
        third := Sys2Proof.Claims.thirdInASecond x s.tstamp }) ∧
      (2 ≤ l → l ≤ 13 → ∃ u, Sys2Proof.Machine.exec (.flitCrcReplay l) s = .next u ∧
        Sys2Proof.Claims.LinkIs s u l { x with replays := x.replays + 1 } ∧ u.cores = s.cores ∧ u.mem = s.mem)) ∧
    (x.state = .retraining →
      (∀ half, x.third = false →
        ∃ u, Sys2Proof.Machine.exec (.linkRetrained l half) s = .next u ∧ Sys2Proof.Claims.LinkIs s u l { x with
          state := if half then .degraded else .up, half := half }) ∧
      (∀ half, x.third = true →
        Sys2Proof.Machine.exec (.linkRetrained l half) s = .next s) ∧
      (∃ u, Sys2Proof.Machine.exec (.linkRetrainTimeout l) s = .next u ∧
        Sys2Proof.Claims.LinkIs s u l { x with state := .failed })) ∧
    (l < 16 → ∃ u, Sys2Proof.Machine.exec (.linkDisable l) s = .next u ∧
      Sys2Proof.Claims.LinkIs s u l { x with state := .down })) ∧
  (∀ (s : Sys2Proof.Machine.State) (l k x : Nat) (co : Sys2Proof.Machine.Core) (op : Sys2Proof.Machine.AsyncOp)
    (p : Sys2Proof.Machine.Part), s.core? k = some co → co.asyncs.get x = some op → p ∈ op.parts → p.state = .sent →
    ∃ co' op', (s.latchCore l k).core? k = some co' ∧ co'.asyncs.get x = some op' ∧
      ((p.target = 9 ∧ l = 1) ∨ (p.target = 10 ∧ ∃ y ∈ p.accs, ∃ kind, s.portOf k op y = some (kind, l)) →
        { p with state := .failing 4 } ∈ op'.parts) ∧
      ((p.target ≠ 9 ∨ l ≠ 1) → (p.target = 10 → ∀ y ∈ p.accs, ∀ kind, s.portOf k op y ≠ some (kind, l)) →
        p ∈ op'.parts))

/-- R332, R336, R338, R339, R209. The tables that the resident kernel writes for the outside, and the accesses that
use them: BAR2 writes and reads, a peer's access in a context bound to it, and an incoming network access to a
registered region; what a table does not allow is refused, and nothing is written. The posted writes of one requester
are performed in the order of their arrival: behind one that waits for a plot the next is queued. A read answers
memory's bytes, or for words that are performed at package scope only the bytes they had before. Where the spec leaves
it open, this rests on the model's choice in log entries 9 and 55. -/
def Obligations.OutsideAccesses : Prop :=
  (∀ (s : Sys2Proof.Machine.State) (c : Nat) (x : Sys2Proof.Machine.Ctx), s.ctx? c = some x → x.state ≠ .destroyed →
    s.rkUp = true →
    (∀ i w0 w1, i < 256 → Sys2Proof.Machine.exec (.portTableWrite c i w0 w1) s =
      .next (s.updCtx c fun _ => { x with ports := x.ports.set i ⟨w0, w1⟩ })) ∧
    (∀ fn wbase, fn < 256 → wbase % 2 ^ 30 = 0 → Sys2Proof.Machine.exec (.bar2Bind fn c wbase) s =
      .next { s with bar2 := s.bar2.set fn (c, wbase) }) ∧
    (∀ port key va len r w, port < 2 → key < 2 ^ 32 → (∀ g ∈ s.regions, ¬ (g.port = port ∧ g.key = key)) →
      Sys2Proof.Machine.exec (.memoryRegionRegister port key c va len r w) s =
        .next { s with regions := s.regions ++ [⟨port, key, c, va, len, r, w⟩] })) ∧
  (∀ (s : Sys2Proof.Machine.State) (fn off len c wbase : Nat) (bytes : List Sys2Proof.Byte),
    (s.link 0).serves = true → fn < 256 → s.bar2.get fn = some (c, wbase) →
    off + bytes.length ≤ (s.bar2Size.get fn).getD 1 * 2 ^ 30 → off + len ≤ (s.bar2Size.get fn).getD 1 * 2 ^ 30 →
    Sys2Proof.Machine.exec (.bar2PostedWrite fn off bytes) s = .next (s.post fn c (wbase + off) bytes) ∧
    (s.posted = [] →
      Sys2Proof.Machine.exec (.bar2PostedWrite fn off bytes) s =
        .next (Sys2Proof.Claims.postedAlone s fn c (wbase + off) bytes)) ∧
    (∀ p ∈ Sys2Proof.Machine.vaPieces (wbase + off) bytes.length, ∀ pa, s.posted = [] →
      s.vaTry (some c) p.1 p.2 .w = .busy pa →
      ∃ u, Sys2Proof.Machine.exec (.bar2PostedWrite fn off bytes) s = .next u ∧ u.mem = s.mem ∧
        u.posted = [⟨s.fresh, fn, c, wbase + off, bytes, false⟩]) ∧
    (∀ (w : Sys2Proof.Machine.Posted) (p : Nat × Nat) (pa : Nat), s.posted = [w] → w.from' = fn →
      p ∈ Sys2Proof.Machine.vaPieces w.va w.bytes.length → s.vaTry (some w.ctx) p.1 p.2 .w = .busy pa →
      ∃ u, Sys2Proof.Machine.exec (.bar2PostedWrite fn off bytes) s = .next u ∧ u.mem = s.mem ∧
        u.posted = [w, ⟨s.fresh, fn, c, wbase + off, bytes, false⟩]) ∧
    (∀ a v, s.posted = [] → s.portOld = [] → s.vaTryAll (some c) [(wbase + off, len, .r)] = .ok a →
      Sys2Proof.Claims.ReadGot s v fn c (wbase + off) len →
      Sys2Proof.Machine.exec (.bar2Read fn off len) s = .next { v with
        outputs := s.outputs ++ [.readData (s.vaRead (some c) (wbase + off) len)] }) ∧
    (∀ v, s.posted = [] → s.agentTry (Sys2Proof.Machine.readAgent c fn) [] [(wbase + off, len, .r)] = .later v →
      Sys2Proof.Machine.exec (.bar2Read fn off len) s = .next v) ∧
    (∀ pa v, s.posted = [] → (wbase + off) % 65536 + len ≤ 65536 → s.vaTry (some c) (wbase + off) len .r = .ok pa →
      Sys2Proof.Claims.ReadGot s v fn c (wbase + off) len → 0 < len → ∃ u data, Sys2Proof.Machine.exec (.bar2Read fn off len) s = .next u ∧
        u.outputs = s.outputs ++ [.readData data] ∧ u.mem = s.mem ∧ data.length = len ∧
        ∀ i < len, data.getD i 0 = Sys2Proof.Machine.Memory.get s.mem (pa + i) ∨
          Sys2Proof.Machine.Map.get s.portOld (pa + i) = some (data.getD i 0)) ∧
    (∀ a, s.vaTryAll (some c) [(wbase + off, len, .r)] = .bad ∨ s.vaTryAll (some c) [(wbase + off, len, .r)] = .absent a →
      Sys2Proof.Machine.exec (.bar2Read fn off len) s = .next { s with outputs := s.outputs ++ [.unsupported] })) ∧
  (∀ (s : Sys2Proof.Machine.State) (l rctx c va len : Nat) (bytes : List Sys2Proof.Byte), l < 12 →
    (s.link (2 + l)).serves = true →
    ((l, rctx, c) ∉ s.peerBinds → ∀ w, Sys2Proof.Machine.exec (.peerAccessArrive l rctx c va len w bytes) s =
      .next { s with outputs := s.outputs ++ [.protection] }) ∧
    (∀ a v, (l, rctx, c) ∈ s.peerBinds → s.posted = [] → s.portOld = [] → s.vaTryAll (some c) [(va, len, .r)] = .ok a →
      Sys2Proof.Claims.ReadGot s v (2 ^ 20 * (2 + l) + rctx) c va len →
      Sys2Proof.Machine.exec (.peerAccessArrive l rctx c va len false bytes) s =
        .next { v with outputs := s.outputs ++ [.readData (s.vaRead (some c) va len)] }) ∧
    (∀ a, (l, rctx, c) ∈ s.peerBinds → s.posted = [] → s.vaTryAll (some c) [(va, bytes.length, .w)] = .ok a →
      Sys2Proof.Machine.exec (.peerAccessArrive l rctx c va len true bytes) s =
        .next (Sys2Proof.Claims.postedAlone s (2 ^ 20 * (2 + l) + rctx) c va bytes))) ∧
  (∀ (s : Sys2Proof.Machine.State) (port key va len : Nat) (bytes : List Sys2Proof.Byte), port < 2 →
    (s.link (14 + port)).serves = true →
    (∀ w, (∀ g ∈ s.regions, g.port = port → g.key = key →
        (if w then g.w = false else g.r = false) ∨ va < g.va ∨ g.va + g.len < va + (if w then bytes.length else len)) →
      Sys2Proof.Machine.exec (.incomingRdmaAccess port key va len w bytes) s =
        .next { s with outputs := s.outputs ++ [.nak] }) ∧
    (∀ g a, s.regions.find? (fun g => g.port == port && g.key == key) = some g → g.w = true → g.va ≤ va →
      va + bytes.length ≤ g.va + g.len → s.posted = [] → s.vaTryAll (some g.ctx) [(va, bytes.length, .w)] = .ok a →
      Sys2Proof.Machine.exec (.incomingRdmaAccess port key va len true bytes) s =
        .next (Sys2Proof.Claims.postedAlone s (2 ^ 20 * (14 + port)) g.ctx va bytes)) ∧
    (∀ g a v, s.regions.find? (fun g => g.port == port && g.key == key) = some g → g.r = true → g.va ≤ va →
      va + len ≤ g.va + g.len → s.posted = [] → s.portOld = [] → s.vaTryAll (some g.ctx) [(va, len, .r)] = .ok a →
      Sys2Proof.Claims.ReadGot s v (2 ^ 20 * (14 + port)) g.ctx va len →
      Sys2Proof.Machine.exec (.incomingRdmaAccess port key va len false bytes) s =
        .next { v with outputs := s.outputs ++ [.readData (s.vaRead (some g.ctx) va len)] }))

/-- R340, R341. A queue pair's setup and doorbell; its next send entry leaves the port with the bytes that its op
names, or completes with status 1; an answer completes the oldest entry; an incoming request consumes a receive entry;
exhausted retries put the pair into the error state. What the port places goes behind the port's earlier writes
(R209). Where the spec leaves it open, this rests on the model's choice in log entry 54. -/
def Obligations.QueuePairs : Prop :=
  (∀ (s : Sys2Proof.Machine.State) (port qp c sring ssize rring rsize cring csize db : Nat) (x : Sys2Proof.Machine.Ctx),
    s.ctx? c = some x → x.state ≠ .destroyed → s.rkUp = true → port < 2 → qp < 65536 → 0 < ssize → 0 < rsize → 0 < csize →
    db % 8 = 0 → s.runWarm c sring (64 * ssize) = true → s.runWarm c rring (32 * rsize) = true →
    s.runWarm c cring (32 * csize) = true →
    ∃ u q, Sys2Proof.Machine.exec (.queuePairSetup port qp c sring ssize rring rsize cring csize db) s = .next u ∧
      u.qps.get (65536 * port + qp) = some q ∧ q = { Sys2Proof.Machine.QPair.blank with
        ctx := c, sring := sring, ssize := ssize, rring := rring, rsize := rsize, cring := cring, csize := csize
        db := db }) ∧
  (∀ (s : Sys2Proof.Machine.State) (port qp pa : Nat) (q : Sys2Proof.Machine.QPair) (v : Sys2Proof.W64),
    s.qps.get (65536 * port + qp) = some q → (q.rung = false → Sys2Proof.Machine.exec (.qpDoorbell port qp) s = .next s) ∧
    (q.rung = true → q.error = false → s.vaTry (some q.ctx) q.db 8 .r = .ok pa →
    v = BitVec.ofNat 64 (Sys2Proof.Machine.ofBytes (Sys2Proof.Machine.Memory.bytes s.mem pa 8)) →
    Sys2Proof.Machine.exec (.qpDoorbell port qp) s = .next { s with
      qps := s.qps.set (65536 * port + qp) (Sys2Proof.Claims.rung q v) }) ∧
    ∀ a n p, s.translate q.ctx q.db .r = .pa p → (s.ringBells a n).qps.get (65536 * port + qp) =
      some { q with rung := q.rung || decide (p < a + n ∧ a < p + 8) }) ∧
  (∀ (s : Sys2Proof.Machine.State) (port qp op rva rkey : Nat) (imm : BitVec 32) (q : Sys2Proof.Machine.QPair)
    (v v2 : Sys2Proof.Machine.State) (w : Nat → Sys2Proof.W64) (i : Sys2Proof.Instr),
    Sys2Proof.Claims.Sending s v port qp q w →
    Sys2Proof.Claims.sendForm port qp w i = some (op, imm, rva, rkey) → (w 0).toNat / 2 ^ 56 = op →
    ((w 0).getLsbD 49 = true → ∀ e ∈ q.cur, e.op ≠ 4) → Sys2Proof.Machine.sendLegal w = true →
    v.outRead (Sys2Proof.Machine.bytesAgent (65536 * port + qp) q) (w 1).toNat (w 2).toNat = .go →
    v2 = (v.portLook (some q.ctx) (w 1).toNat (w 2).toNat).agentDone
      (Sys2Proof.Machine.bytesAgent (65536 * port + qp) q) [((w 1).toNat, (w 2).toNat, .r)] →
    Sys2Proof.Machine.exec i s = .next { v2 with
      outputs := s.outputs ++ [.rdma op imm rva rkey (v2.portRead (some q.ctx) (w 1).toNat (w 2).toNat)]
      qps := s.qps.set (65536 * port + qp) (Sys2Proof.Claims.sent q w op) }) ∧
  (∀ (s v : Sys2Proof.Machine.State) (port qp a : Nat) (q : Sys2Proof.Machine.QPair) (w : Nat → Sys2Proof.W64),
    Sys2Proof.Claims.Sending s v port qp q w → ((w 0).getLsbD 49 = true → ∀ e ∈ q.cur, e.op ≠ 4) →
    ((w 0).toNat / 2 ^ 56 = 4 → Sys2Proof.Machine.sendLegal w = true →
      v.vaTryAll (some q.ctx) [((w 1).toNat, (w 2).toNat, .w)] = .ok a →
      Sys2Proof.Machine.exec (.rdmaRead port qp) s = .next { v with
        outputs := s.outputs ++ [.rdmaReadReq (w 3).toNat (w 4).toNat (w 2).toNat]
        qps := s.qps.set (65536 * port + qp) (Sys2Proof.Claims.sent q w 4) }) ∧
    (5 ≤ (w 0).toNat / 2 ^ 56 → Sys2Proof.Machine.exec (.sendEntryBadOp port qp) s =
      .next ({ v with qps := s.qps.set (65536 * port + qp) { q with shead := q.shead + 1 } }.qpComplete
        (65536 * port + qp) ((w 0).toNat / 2 ^ 56) 1 0 (w 5) 0))) ∧
  (∀ (s v : Sys2Proof.Machine.State) (port qp key status a : Nat) (q : Sys2Proof.Machine.QPair)
    (e : Sys2Proof.Machine.SendOp) (rest : List Sys2Proof.Machine.SendOp) (bytes : List Sys2Proof.Byte),
    key = 65536 * port + qp → s.qps.get key = some q → q.cur = e :: rest → (s.link (14 + port)).serves = true →
    (status = 0 ∨ status = 2 ∨ status = 3 → (e.op ≠ 4 ∨ status ≠ 0) →
      v = { s with qps := s.qps.set key { q with cur := rest } } →
      Sys2Proof.Machine.exec (.sendEntryComplete port qp status bytes) s = .next (if status = 3 then
          (v.qpComplete key e.op 3 0 e.wrid 0).qpError key
        else if e.sig = true ∨ status ≠ 0 then v.qpComplete key e.op status (if status = 0 then e.len else 0) e.wrid 0
        else v)) ∧
    (e.op = 4 → bytes.length = e.len → s.vaTryAll (some q.ctx) [(e.lva, e.len, .w)] = .ok a →
      v = (s.post (2 ^ 20 * (14 + port)) q.ctx e.lva bytes).updQp key (fun q => { q with cur := rest }) →
      Sys2Proof.Machine.exec (.sendEntryComplete port qp 0 bytes) s =
        .next (if e.sig = true then v.qpComplete key 4 0 e.len e.wrid 0 else v))) ∧
  (∀ (s x v : Sys2Proof.Machine.State) (port qp key op a va : Nat) (imm : BitVec 32) (q : Sys2Proof.Machine.QPair)
    (bytes : List Sys2Proof.Byte) (w : Nat → Sys2Proof.W64), key = 65536 * port + qp → s.qps.get key = some q →
    q.error = false → q.rhead ≠ q.rtail → (s.link (14 + port)).serves = true →
    va = q.rring + 32 * (q.rhead.toNat % q.rsize) → s.outRead (Sys2Proof.Machine.recvAgent key q) va 32 = .go →
    x = (s.portLook (some q.ctx) va 32).agentDone (Sys2Proof.Machine.recvAgent key q) [(va, 32, .r)] → w = x.recvEntry q q.rhead →
    (w 1).toNat < 2 ^ 32 → w 3 = 0 →
    (op = 0 ∨ op = 1 → bytes.length ≤ (w 1).toNat →
      x.vaTryAll (some q.ctx) [((w 0).toNat, bytes.length, .w)] = .ok a →
      v = (x.post (2 ^ 20 * (14 + port)) q.ctx (w 0).toNat bytes).updQp key (fun q => { q with rhead := q.rhead + 1 }) →
      Sys2Proof.Machine.exec (.receiveConsume port qp op imm bytes) s =
        .next (v.qpComplete key (0x80 + op) 0 bytes.length (w 2) (if op = 0 then 0 else imm))) ∧
    (v = { x with qps := s.qps.set key { q with rhead := q.rhead + 1 } } →
      (Sys2Proof.Machine.exec (.receiveConsume port qp 3 imm bytes) s =
        .next (v.qpComplete key 0x83 0 bytes.length (w 2) imm)) ∧
      (op = 0 ∨ op = 1 → (w 1).toNat < bytes.length →
        Sys2Proof.Machine.exec (.receiveConsume port qp op imm bytes) s =
          .next (v.qpComplete key (0x80 + op) 1 0 (w 2) (if op = 0 then 0 else imm))))) ∧
  (∀ (s : Sys2Proof.Machine.State) (port qp : Nat) (q : Sys2Proof.Machine.QPair),
    s.qps.get (65536 * port + qp) = some q → q.error = false →
    ∃ u q', Sys2Proof.Machine.exec (.qpRetriesExhausted port qp) s = .next u ∧
      u.qps.get (65536 * port + qp) = some q' ∧ q'.error = true ∧ q'.cur = []) ∧
  (∀ (s : Sys2Proof.Machine.State) (key op status n va pa : Nat) (wrid : Sys2Proof.W64) (imm : BitVec 32)
    (q : Sys2Proof.Machine.QPair), s.posted = [] → s.qps.get key = some q → va = q.cring + 32 * (q.chead % q.csize) → va % 32 = 0 →
    s.vaTry (some q.ctx) va 32 .w = .ok pa → op < 256 → status < 256 → n < 2 ^ 32 →
    (∃ q', (s.qpComplete key op status n wrid imm).qps.get key = some q' ∧
      q' = { q with chead := q.chead + 1, rung := q'.rung }) ∧
    (s.qpComplete key op status n wrid imm).mem = if s.runsReady
        (Sys2Proof.Machine.postedAgent q.ctx (2 ^ 20 * (14 + key / 65536))) [] [(pa, 32)] = false then s.mem
      else Sys2Proof.Machine.Memory.setBytes s.mem pa (Sys2Proof.Machine.toBytes 8 wrid.toNat ++ Sys2Proof.Machine.toBytes 8 (op * 2 ^ 56 + status * 2 ^ 48 +
        (q.chead / q.csize + 1) % 2 * 2 ^ 32 + n) ++ Sys2Proof.Machine.toBytes 8 (imm.toNat * 2 ^ 32 + key % 65536) ++
        Sys2Proof.Machine.toBytes 8 s.tstamp.toNat)) ∧
  (∀ (w : Sys2Proof.Machine.Posted) (t : Sys2Proof.W64), w.bytes.length = 32 →
    w.now t = if w.stamp = true then w.bytes.take 24 ++ Sys2Proof.Machine.toBytes 8 t.toNat else w.bytes) ∧
  (∀ (s : Sys2Proof.Machine.State) (port c va a : Nat) (bytes : List Sys2Proof.Byte), s.posted = [] →
    s.vaTryAll (some c) [(va, bytes.length, .w)] = .ok a →
    s.post (2 ^ 20 * (14 + port)) c va bytes = Sys2Proof.Claims.postedAlone s (2 ^ 20 * (14 + port)) c va bytes)

/-- The management core and SPDM.  The parts: `ManagementCore`, `Spdm`. -/
def Obligations.ManagementCore : Prop :=
  Sys2Proof.Claims.ManagementCore ∧ Sys2Proof.Claims.Spdm

/-- R165 to R168, R172, R281, R104. A stop halts a team with its results written back, except one that is Phasing;
with `dbgctl.all` its context's teams are to stop within one rotation; a resume goes back; a step makes one word of a
split due at a position of its team; a stopped team's registers, split-table entries, also free ones, bytes and CSRs
are written; comparators are programmed; attaching and detaching set every team's `att`, and a detach drops the steps
and stops still due; a faulting trace write disables the ring. Where the spec leaves it open, this rests on the
model's choice in log entries 39 and 58. -/
def Obligations.Debugger : Prop :=
  (∀ (s : Sys2Proof.Machine.State) (k t : Nat) (tm : Sys2Proof.Machine.Team), s.team? k t = some tm →
    (∀ co, tm.att = true → tm.state ≠ .stopped → tm.state ≠ .phasing → tm.splits ≠ [] → s.core? k = some co →
      ∃ u tm', Sys2Proof.Machine.exec (.debuggerStopRequest k t) s = .next u ∧ u.team? k t = some tm' ∧
        tm'.state = .stopped ∧ tm'.prev = tm.state ∧ (∀ e ∈ tm'.splits, e.2.wbs = []) ∧
        (tm.dall = true → ∀ j cj, s.core? j = some cj → cj.ctx = co.ctx →
          ∃ cj', u.core? j = some cj' ∧ cj'.stopIn = some (cj.stopIn.getD 16))) ∧
    (tm.att = true → tm.state = .phasing → Sys2Proof.Machine.exec (.debuggerStopRequest k t) s = .next s) ∧
    (tm.state = .stopped → Sys2Proof.Machine.exec (.debuggerResume k t) s =
      .next (s.updTeam k t fun _ => { tm with state := tm.prev, step := none })) ∧
    (∀ p sp, s.split? k t p = some sp → tm.att = true → tm.state = .stopped →
      Sys2Proof.Machine.exec (.debuggerSingleStep k t p) s =
        .next (s.updTeam k t fun tm => { tm with step := some p })) ∧
    (tm.att = true → tm.state = .stopped →
      (∀ r v, r < tm.scount → Sys2Proof.Machine.exec (.debuggerWrite k t (.s r) v) s =
        .next (s.updTeam k t fun _ => tm.setS r v)) ∧
      (∀ r l v, r < tm.vcount → l < tm.lanes → Sys2Proof.Machine.exec (.debuggerWrite k t (.v r l) v) s =
        .next (s.updTeam k t fun _ => tm.setV r [(l, v.truncate 32)])) ∧
      (∀ r l v, r < 8 → l < tm.lanes → Sys2Proof.Machine.exec (.debuggerWrite k t (.p r l) v) s =
        .next (s.updTeam k t fun _ => tm.setP r [(l, v.getLsbD 0)])) ∧
      (∀ q sp sp' f v, tm.splits.get q = some sp → Sys2Proof.Claims.splitWritten sp v q f = some sp' →
        ∃ u tm', Sys2Proof.Machine.exec (.debuggerWrite k t f v) s = .next u ∧ u.mem = s.mem ∧
          u.team? k t = some tm' ∧ tm'.splits.get q = some sp' ∧
          ∀ r, r ≠ q → tm'.splits.get r = tm.splits.get r) ∧
      (∀ q sp v st, q < 16 → tm.splits.get q = none → sp = (tm.freeEntries.get q).getD Sys2Proof.Machine.Split.blank →
        Sys2Proof.Claims.splitWritten sp v q (.state q) = some st → ∃ u tm',
          Sys2Proof.Machine.exec (.debuggerWrite k t (.state q) v) s = .next u ∧ u.team? k t = some tm' ∧
          tm'.splits.get q = some st ∧ ∀ r, r ≠ q → tm'.splits.get r = tm.splits.get r) ∧
      (∀ q sp sp' f v, q < 16 → tm.splits.get q = none → sp = (tm.freeEntries.get q).getD Sys2Proof.Machine.Split.blank →
        Sys2Proof.Claims.splitWritten sp v q f = some sp' → f ≠ .state q → ∃ u tm',
          Sys2Proof.Machine.exec (.debuggerWrite k t f v) s = .next u ∧ u.team? k t = some tm' ∧
          tm'.splits = tm.splits ∧ tm'.freeEntries.get q = some sp') ∧
      (∀ q v, v.toNat % 256 = 0 → ∃ u tm', Sys2Proof.Machine.exec (.debuggerWrite k t (.state q) v) s = .next u ∧
        u.team? k t = some tm' ∧ tm'.splits.get q = none ∧ ∀ r, r ≠ q → tm'.splits.get r = tm.splits.get r) ∧
      (∀ q sp w v, tm.splits.get q = some sp →
        (∃ u sp', Sys2Proof.Machine.exec (.debuggerWrite k t (.exec q w) v) s = .next u ∧ u.split? k t q = some sp' ∧
          sp' = { sp with exec := sp'.exec } ∧ Sys2Proof.Claims.MaskWritten sp.exec sp'.exec tm.lanes w v) ∧
        (∃ u sp', Sys2Proof.Machine.exec (.debuggerWrite k t (.live q w) v) s = .next u ∧ u.split? k t q = some sp' ∧
          sp' = { sp with live := sp'.live } ∧ Sys2Proof.Claims.MaskWritten sp.live sp'.live tm.lanes w v)) ∧
      (∀ off v, off < (s.regionOf k tm.crew).2 → Sys2Proof.Machine.exec (.debuggerWrite k t (.shared off) v) s =
        .next (s.updCore k fun c => { c with
          shared := Sys2Proof.Machine.Regs.set c.shared ((s.regionOf k tm.crew).1 + off) (v.truncate 8) })) ∧
      (∀ c x off b n v, s.ctxOf k = some (c, x) → x.dieWin.get (Sys2Proof.Machine.dieOf k) = some (b, n) → off < n →
        Sys2Proof.Machine.exec (.debuggerWrite k t (.die off) v) s =
          .next (s.writeAt (.die (Sys2Proof.Machine.dieOf k) (b + off)) [v.truncate 8])) ∧
      (∀ (a : BitVec 12) (v w : Sys2Proof.W64), a.toNat < 0x800 →
        w = ((s.csr k t a.toNat &&& ~~~(Sys2Proof.Machine.csrMask a.toNat)) |||
          (v &&& Sys2Proof.Machine.csrMask a.toNat)) → Sys2Proof.Machine.csrLimit a.toNat w = true →
        Sys2Proof.Machine.exec (.debuggerWrite k t (.csr a) v) s = .next (s.setCsr k t 0 a.toNat w)))) ∧
  (∀ (s : Sys2Proof.Machine.State) (c k t : Nat) (co : Sys2Proof.Machine.Core) (tm : Sys2Proof.Machine.Team),
    s.core? k = some co → co.ctx = some c → co.stopIn.isSome = true → co.teams.get t = some tm → tm.splits ≠ [] →
    tm.state ≠ .phasing →
    ∃ u tm', Sys2Proof.Machine.exec (.contextWideStop c) s = .next u ∧ u.team? k t = some tm' ∧ tm'.state = .stopped) ∧
  (∀ (s : Sys2Proof.Machine.State) (c : Nat), (∀ e ∈ s.cores, e.2.ctx = some c → e.2.stopIn = none) →
    Sys2Proof.Machine.exec (.contextWideStop c) s = .next s) ∧
  (∀ (s : Sys2Proof.Machine.State) (k i c : Nat) (va : Sys2Proof.W64) (co : Sys2Proof.Machine.Core)
    (x : Sys2Proof.Machine.Ctx), s.core? k = some co → s.ctxOf k = some (c, x) → s.rkUp = true → x.att = true → i < 8 →
    Sys2Proof.Machine.exec (.breakpointProgram k i va) s =
      .next (s.updCore k fun _ => { co with breaks := co.breaks.set i va })) ∧
  (∀ (s : Sys2Proof.Machine.State) (c k : Nat) (x : Sys2Proof.Machine.Ctx) (co : Sys2Proof.Machine.Core) (att : Bool),
    s.ctx? c = some x → x.state ≠ .destroyed → s.rkUp = true → s.core? k = some co → co.ctx = some c →
    ∃ u x' co', Sys2Proof.Machine.exec (if att then .debuggerAttach c else .debuggerDetach c) s = .next u ∧
      u.ctx? c = some x' ∧ x'.att = att ∧ u.core? k = some co' ∧ co'.breaks = [] ∧
      co'.stopIn = (if att = true then co.stopIn else none) ∧
      (att = false → ∀ i ∈ u.issueQ, i.core = k → i.single = false) ∧
      ∀ t tm, co.teams.get t = some tm → ∃ tm', co'.teams.get t = some tm' ∧ tm'.att = att ∧
        tm'.state = (if att = false ∧ tm.state = .stopped then tm.prev else tm.state)) ∧
  (∀ (s : Sys2Proof.Machine.State) (k c va : Nat) (co : Sys2Proof.Machine.Core) (x : Sys2Proof.Machine.Ctx)
    (r : List Sys2Proof.Byte) (rs : List (List Sys2Proof.Byte)), s.core? k = some co → s.ctxOf k = some (c, x) →
    co.trPend = r :: rs → co.trsize ≠ 0 → va = co.trbase.toNat + 64 * (co.trhead.toNat % co.trsize.toNat) →
    (s.translateAt k c va .w = .absent → s.translate c va .w = .absent →
      Sys2Proof.Machine.exec (.traceWriteFault k) s = .next ((s.pageFault c va).updCore k fun _ => { co with
        trPend := [], trbase := 0, trlost := co.trlost + BitVec.ofNat 64 (rs.length + 1) })) ∧
    (s.translateAt k c va .w = .bad → Sys2Proof.Machine.exec (.traceWriteFault k) s = .next (s.updCore k fun _ => { co with
      trPend := [], trbase := 0, trlost := co.trlost + BitVec.ofNat 64 (rs.length + 1) })))

/-- The encoder and the decoder agree (R35 to R59): for every well-formed instruction, with every operand at every
value its encoding admits, decoding its words, whatever follows them, gives the instruction and its length. -/
def Obligations.DecodeOfEncode : Prop :=
  ∀ (i : Sys2Proof.Instr) (e : Sys2Proof.Eng) (ws r : List Sys2Proof.W32), i.wf = true → i.encode = some (e, ws) →
    Sys2Proof.decode true e (ws ++ r) = .ok (i, ws.length)

/-- The other direction: what decodes is well-formed, and its words are the only words of the instruction it decodes
to. -/
def Obligations.EncodeOfDecode : Prop :=
  ∀ (priv : Bool) (e : Sys2Proof.Eng) (ws : List Sys2Proof.W32) (i : Sys2Proof.Instr) (n : Nat),
    Sys2Proof.decode priv e ws = .ok (i, n) → i.wf = true ∧ i.encode = some (e, ws.take n)

/-- Memory keeps its canonical form (addresses strictly rising) through every step: every instruction and every event.
Where the spec leaves it open, this rests on the model's choice in log entry 5. -/
def Obligations.MemoryFormKept : Prop :=
  ∀ (s t : Sys2Proof.Machine.State), Sys2Proof.Machine.Memory.wf s.mem = true → Sys2Proof.Machine.step s = .next t →
    Sys2Proof.Machine.Memory.wf t.mem = true

/-- R176, R1. One timestamp for the package, which only goes on: a step of any kind moves it by the step's own
nanoseconds (the model's choice: a list in the state, or a free value past its end, log entry 2), and the counter of
free values by one. -/
def Obligations.TimeGoesOn : Prop :=
  ∀ (s t : Sys2Proof.Machine.State), Sys2Proof.Machine.step s = .next t →
    t.tstamp = s.tstamp + BitVec.ofNat 64 (s.ticks.head?.getD (Sys2Proof.Config.tick s.fresh)) ∧
    t.ticks = s.ticks.tail ∧ t.fresh = s.fresh + 1

/-- R231, R237, R330, R343, R174, R233. What reset leaves: no context and no core in use, every plot Off, every link
Down, every measurement slot zero, no pool and no queue; a core starts with `smpint` 4096 and a context with `bwphase`
3. Where the spec leaves it open, this rests on the model's choice in log entries 1 and 5. -/
def Obligations.ResetState : Prop :=
  (∀ k, Sys2Proof.Machine.State.reset.core? k = none) ∧ (∀ c, Sys2Proof.Machine.State.reset.ctx? c = none) ∧
  (∀ p, (Sys2Proof.Machine.State.reset.plot p).state = .off ∧
    (Sys2Proof.Machine.State.reset.plot p).owners = []) ∧
  (∀ l, (Sys2Proof.Machine.State.reset.link l).state = .down) ∧
  (∀ n, Sys2Proof.Machine.Regs.get Sys2Proof.Machine.State.reset.meas n = 0) ∧
  Sys2Proof.Machine.Memory.wf Sys2Proof.Machine.State.reset.mem = true ∧
  (∀ a, Sys2Proof.Machine.Memory.get Sys2Proof.Machine.State.reset.mem a = Sys2Proof.Config.unwritten a) ∧
  Sys2Proof.Machine.State.reset.queues = [] ∧ Sys2Proof.Machine.Core.init.smpint = 4096 ∧ Sys2Proof.Machine.Ctx.blank.bwLevel = 3

/-- R28 to R31, R39. A step runs the instruction that stands there: a scheduled event; the word at a split's position
in a clause, decoded from the words of its engine; the first word of a clause whose header passes its checks and
waits; and with nothing due the next core's barrel. Around `exec` a step lets time go on, names the word (`cur`) and
afterwards drops the entry of the issue queue that cannot go on (`finish`). Where the spec leaves it open, this rests
on the model's choice in log entries 3 and 15. -/
def Obligations.StepRunsInstruction : Prop :=
  (∀ (s : Sys2Proof.Machine.State) (i : Sys2Proof.Instr) (is : List (Option Sys2Proof.Instr)),
    s.schedule = some i :: is →
    Sys2Proof.Machine.step s = Sys2Proof.Machine.exec i { s.pass with schedule := is }) ∧
  (∀ (s b : Sys2Proof.Machine.State) (sch : List (Option Sys2Proof.Instr)) (u : Sys2Proof.Machine.Issue)
    (us : List Sys2Proof.Machine.Issue) (c : Sys2Proof.Machine.Core) (tm : Sys2Proof.Machine.Team)
    (sp : Sys2Proof.Machine.Split) (cl : Sys2Proof.Machine.Clause) (eng : Sys2Proof.Eng) (i : Sys2Proof.Instr) (n : Nat),
    (s.schedule = none :: sch ∨ s.schedule = [] ∧ sch = []) → b = { s.pass with schedule := sch } →
    s.issueQ = u :: us → u.single = false → s.core? u.core = some c → c.teams.get u.team = some tm →
    tm.splits.get u.split = some sp → tm.mayIssue u.split = true → c.teamStalled u.team = false → sp.state = .ready →
    s.coreIssues u.core = true → sp.atJoin u.split = false → sp.clause = some cl →
    c.breakAt tm sp (cl.h + BitVec.ofNat 64 (4 * cl.pos)) = false → (Sys2Proof.headerOf cl.hdr).eng = some eng →
    Sys2Proof.decode tm.priv eng (s.fetchRun u.core (cl.h + BitVec.ofNat 64 (4 * cl.pos)).toNat
      (min Sys2Proof.maxWords (Sys2Proof.Machine.cntOf cl.hdr + 1 - cl.pos))) = .ok (i, n) →
    ∀ t, Sys2Proof.Machine.exec i { b with cur := some ⟨u.core, u.team, u.split, n, u.width⟩ } = .next t →
      Sys2Proof.Machine.step s = .next (Sys2Proof.Machine.finish t)) ∧
  (∀ (s b d : Sys2Proof.Machine.State) (sch : List (Option Sys2Proof.Instr)) (u : Sys2Proof.Machine.Issue)
    (us : List Sys2Proof.Machine.Issue) (c : Sys2Proof.Machine.Core) (tm : Sys2Proof.Machine.Team)
    (sp : Sys2Proof.Machine.Split) (h : Sys2Proof.W32) (eng : Sys2Proof.Eng) (i : Sys2Proof.Instr) (n : Nat)
    (gate : Sys2Proof.Mask),
    (s.schedule = none :: sch ∨ s.schedule = [] ∧ sch = []) → b = { s.pass with schedule := sch } →
    s.issueQ = u :: us → u.single = false → s.core? u.core = some c → c.teams.get u.team = some tm →
    tm.splits.get u.split = some sp → tm.mayIssue u.split = true → c.teamStalled u.team = false → sp.state = .ready →
    s.coreIssues u.core = true → sp.atJoin u.split = false → sp.clause = none →
    s.fetch u.core sp.pc.toNat = some h → h.extractLsb' 0 16 = 0x6C5A → (Sys2Proof.headerOf h).eng = some eng →
    h.extractLsb' 28 4 ≠ 0 → (sp.waited = true ∨ h.extractLsb' 22 3 = 0 ∧ ∀ w ∈ sp.wbs, w.fence = 0) →
    (h.getLsbD 22 = false ∨ tm.watch = none) →
    tm.att = false → (h.getLsbD 20 = false ∨ tm.tre = false) →
    (∀ l, gate.getLsbD l = (sp.exec.getLsbD l &&
      ((tm.preg (h.extractLsb' 17 3).toNat).getLsbD l ^^ h.getLsbD 16))) →
    d = (b.fetchFill u.core sp.pc.toNat).updSplit u.core u.team u.split (fun _ => { sp with
      clause := some ⟨sp.pc, h, gate, 1⟩, transfer := false, waited := false, passBreak := false, passWord := false }) →
    (∀ x ctx, s.ctxOf u.core = some (x, ctx) →
      ctx.bwWrites.all (fun w => !(w.core == u.core && w.team == u.team && w.split == u.split)) = true) →
    Sys2Proof.decode tm.priv eng (d.fetchRun u.core (sp.pc + 4).toNat
      (min Sys2Proof.maxWords (h.extractLsb' 28 4).toNat)) = .ok (i, n) →
    ∀ t, Sys2Proof.Machine.exec i { d with cur := some ⟨u.core, u.team, u.split, n, u.width⟩ } = .next t →
      Sys2Proof.Machine.step s = .next (Sys2Proof.Machine.finish t)) ∧
  (∀ (s : Sys2Proof.Machine.State), s.schedule = [] → s.issueQ = [] →
    Sys2Proof.Machine.step s =
      Sys2Proof.Machine.exec (.barrelIssue s.turn) { s.pass with turn := (s.turn + 1) % 320 })

/-- Words written out from the spec decode to the instructions they stand for (R27, R41, R42 and the encoding tables;
the words of the chapter's own example among them). -/
def Obligations.WordsOfTheSpec : Prop :=
  Sys2Proof.decode false .loc [0x04078409] = .ok (.ldW (.v 7) (.s 4) (.v 9), 1) ∧
  Sys2Proof.decode false .loc [0x040584DF, 0x00000064] = .ok (.ldW (.v 5) (.s 4) (.lit 100), 2) ∧
  Sys2Proof.decode false .uni [0x008181D0] = .ok (.sadd (.s 1) (.s 1) (.k 16), 1) ∧
  Sys2Proof.decode false .uni [0x2E000000] = .error .illegalInstruction
end

