-- ==== Sys2Proof/Laws/Exec.lean ====
section
/-! SUPPORT. What `exec` does with each instruction: it calls the meaning of that name. -/

namespace Sys2Proof.Machine

set_option Elab.async false

@[simp] theorem exec_nop (s : State) :
    exec (.nop) s = execNop s := rfl
@[simp] theorem exec_br (off : BitVec 24) (s : State) :
    exec (.br off) s = execBr off s := rfl
@[simp] theorem exec_bz (d : Opnd) (imm : BitVec 16) (s : State) :
    exec (.bz d imm) s = execBz d imm s := rfl
@[simp] theorem exec_bnz (d : Opnd) (imm : BitVec 16) (s : State) :
    exec (.bnz d imm) s = execBnz d imm s := rfl
@[simp] theorem exec_brS (a : Opnd) (s : State) :
    exec (.brS a) s = execBrS a s := rfl
@[simp] theorem exec_bdiv (d : Opnd) (imm : BitVec 16) (join : BitVec 32) (s : State) :
    exec (.bdiv d imm join) s = execBdiv d imm join s := rfl
@[simp] theorem exec_jtab (n : BitVec 8) (a : Opnd) (b : Opnd) (join : BitVec 32) (s : State) :
    exec (.jtab n a b join) s = execJtab n a b join s := rfl
@[simp] theorem exec_kill (s : State) :
    exec (.kill) s = execKill s := rfl
@[simp] theorem exec_call (off : BitVec 24) (s : State) :
    exec (.call off) s = execCall off s := rfl
@[simp] theorem exec_callS (a : Opnd) (s : State) :
    exec (.callS a) s = execCallS a s := rfl
@[simp] theorem exec_ret (s : State) :
    exec (.ret) s = execRet s := rfl
@[simp] theorem exec_yield (s : State) :
    exec (.yield) s = execYield s := rfl
@[simp] theorem exec_halt (s : State) :
    exec (.halt) s = execHalt s := rfl
@[simp] theorem exec_maskGet (d : Opnd) (a : Opnd) (s : State) :
    exec (.maskGet d a) s = execMaskGet d a s := rfl
@[simp] theorem exec_maskAnd (a : Opnd) (s : State) :
    exec (.maskAnd a) s = execMaskAnd a s := rfl
@[simp] theorem exec_maskSet (a : Opnd) (b : Opnd) (s : State) :
    exec (.maskSet a b) s = execMaskSet a b s := rfl
@[simp] theorem exec_claimV (imm : BitVec 16) (s : State) :
    exec (.claimV imm) s = execClaimV imm s := rfl
@[simp] theorem exec_giveV (imm : BitVec 16) (s : State) :
    exec (.giveV imm) s = execGiveV imm s := rfl
@[simp] theorem exec_claimS (imm : BitVec 16) (s : State) :
    exec (.claimS imm) s = execClaimS imm s := rfl
@[simp] theorem exec_giveS (imm : BitVec 16) (s : State) :
    exec (.giveS imm) s = execGiveS imm s := rfl
@[simp] theorem exec_claimA (d : Opnd) (imm : BitVec 16) (s : State) :
    exec (.claimA d imm) s = execClaimA d imm s := rfl
@[simp] theorem exec_giveA (imm : BitVec 16) (s : State) :
    exec (.giveA imm) s = execGiveA imm s := rfl
@[simp] theorem exec_ready (n : BitVec 8) (a : Opnd) (b : Opnd) (s : State) :
    exec (.ready n a b) s = execReady n a b s := rfl
@[simp] theorem exec_phase (imm : BitVec 16) (entry : BitVec 32) (s : State) :
    exec (.phase imm entry) s = execPhase imm entry s := rfl
@[simp] theorem exec_wait (a : Opnd) (b : Opnd) (s : State) :
    exec (.wait a b) s = execWait a b s := rfl
@[simp] theorem exec_watch (a : Opnd) (b : Opnd) (s : State) :
    exec (.watch a b) s = execWatch a b s := rfl
@[simp] theorem exec_trap (imm : BitVec 16) (s : State) :
    exec (.trap imm) s = execTrap imm s := rfl
@[simp] theorem exec_sys (d : Opnd) (imm : BitVec 16) (s : State) :
    exec (.sys d imm) s = execSys d imm s := rfl
@[simp] theorem exec_rett (s : State) :
    exec (.rett) s = execRett s := rfl
@[simp] theorem exec_brk (imm : BitVec 16) (s : State) :
    exec (.brk imm) s = execBrk imm s := rfl
@[simp] theorem exec_sadd (d : Opnd) (a : Opnd) (b : Opnd) (s : State) :
    exec (.sadd d a b) s = execSadd d a b s := rfl
@[simp] theorem exec_ssub (d : Opnd) (a : Opnd) (b : Opnd) (s : State) :
    exec (.ssub d a b) s = execSsub d a b s := rfl
@[simp] theorem exec_smul (d : Opnd) (a : Opnd) (b : Opnd) (s : State) :
    exec (.smul d a b) s = execSmul d a b s := rfl
@[simp] theorem exec_smulh (d : Opnd) (a : Opnd) (b : Opnd) (s : State) :
    exec (.smulh d a b) s = execSmulh d a b s := rfl
@[simp] theorem exec_smulhu (d : Opnd) (a : Opnd) (b : Opnd) (s : State) :
    exec (.smulhu d a b) s = execSmulhu d a b s := rfl
@[simp] theorem exec_sand (d : Opnd) (a : Opnd) (b : Opnd) (s : State) :
    exec (.sand d a b) s = execSand d a b s := rfl
@[simp] theorem exec_sor (d : Opnd) (a : Opnd) (b : Opnd) (s : State) :
    exec (.sor d a b) s = execSor d a b s := rfl
@[simp] theorem exec_sxor (d : Opnd) (a : Opnd) (b : Opnd) (s : State) :
    exec (.sxor d a b) s = execSxor d a b s := rfl
@[simp] theorem exec_sandn (d : Opnd) (a : Opnd) (b : Opnd) (s : State) :
    exec (.sandn d a b) s = execSandn d a b s := rfl
@[simp] theorem exec_sshl (d : Opnd) (a : Opnd) (b : Opnd) (s : State) :
    exec (.sshl d a b) s = execSshl d a b s := rfl
@[simp] theorem exec_sshr (d : Opnd) (a : Opnd) (b : Opnd) (s : State) :
    exec (.sshr d a b) s = execSshr d a b s := rfl
@[simp] theorem exec_ssar (d : Opnd) (a : Opnd) (b : Opnd) (s : State) :
    exec (.ssar d a b) s = execSsar d a b s := rfl
@[simp] theorem exec_smin (d : Opnd) (a : Opnd) (b : Opnd) (s : State) :
    exec (.smin d a b) s = execSmin d a b s := rfl
@[simp] theorem exec_smax (d : Opnd) (a : Opnd) (b : Opnd) (s : State) :
    exec (.smax d a b) s = execSmax d a b s := rfl
@[simp] theorem exec_sminu (d : Opnd) (a : Opnd) (b : Opnd) (s : State) :
    exec (.sminu d a b) s = execSminu d a b s := rfl
@[simp] theorem exec_smaxu (d : Opnd) (a : Opnd) (b : Opnd) (s : State) :
    exec (.smaxu d a b) s = execSmaxu d a b s := rfl
@[simp] theorem exec_seq (d : Opnd) (a : Opnd) (b : Opnd) (s : State) :
    exec (.seq d a b) s = execSeq d a b s := rfl
@[simp] theorem exec_sne (d : Opnd) (a : Opnd) (b : Opnd) (s : State) :
    exec (.sne d a b) s = execSne d a b s := rfl
@[simp] theorem exec_slt (d : Opnd) (a : Opnd) (b : Opnd) (s : State) :
    exec (.slt d a b) s = execSlt d a b s := rfl
@[simp] theorem exec_sle (d : Opnd) (a : Opnd) (b : Opnd) (s : State) :
    exec (.sle d a b) s = execSle d a b s := rfl
@[simp] theorem exec_sltu (d : Opnd) (a : Opnd) (b : Opnd) (s : State) :
    exec (.sltu d a b) s = execSltu d a b s := rfl
@[simp] theorem exec_sleu (d : Opnd) (a : Opnd) (b : Opnd) (s : State) :
    exec (.sleu d a b) s = execSleu d a b s := rfl
@[simp] theorem exec_scsel (d : Opnd) (a : Opnd) (b : Opnd) (s : State) :
    exec (.scsel d a b) s = execScsel d a b s := rfl
@[simp] theorem exec_smov (d : Opnd) (a : Opnd) (s : State) :
    exec (.smov d a) s = execSmov d a s := rfl
@[simp] theorem exec_smovi (d : Opnd) (imm : BitVec 16) (s : State) :
    exec (.smovi d imm) s = execSmovi d imm s := rfl
@[simp] theorem exec_sorhi (d : Opnd) (imm : BitVec 16) (s : State) :
    exec (.sorhi d imm) s = execSorhi d imm s := rfl
@[simp] theorem exec_saddi (d : Opnd) (imm : BitVec 16) (s : State) :
    exec (.saddi d imm) s = execSaddi d imm s := rfl
@[simp] theorem exec_spopc (d : Opnd) (a : Opnd) (s : State) :
    exec (.spopc d a) s = execSpopc d a s := rfl
@[simp] theorem exec_sclz (d : Opnd) (a : Opnd) (s : State) :
    exec (.sclz d a) s = execSclz d a s := rfl
@[simp] theorem exec_sbfe (d : Opnd) (a : Opnd) (b : Opnd) (s : State) :
    exec (.sbfe d a b) s = execSbfe d a b s := rfl
@[simp] theorem exec_sbfi (d : Opnd) (a : Opnd) (b : Opnd) (s : State) :
    exec (.sbfi d a b) s = execSbfi d a b s := rfl
@[simp] theorem exec_slane (d : Opnd) (a : Opnd) (b : Opnd) (s : State) :
    exec (.slane d a b) s = execSlane d a b s := rfl
@[simp] theorem exec_vadd (d : Opnd) (a : Opnd) (b : Opnd) (s : State) :
    exec (.vadd d a b) s = execVadd d a b s := rfl
@[simp] theorem exec_vsub (d : Opnd) (a : Opnd) (b : Opnd) (s : State) :
    exec (.vsub d a b) s = execVsub d a b s := rfl
@[simp] theorem exec_vmul (d : Opnd) (a : Opnd) (b : Opnd) (s : State) :
    exec (.vmul d a b) s = execVmul d a b s := rfl
@[simp] theorem exec_vmulh (d : Opnd) (a : Opnd) (b : Opnd) (s : State) :
    exec (.vmulh d a b) s = execVmulh d a b s := rfl
@[simp] theorem exec_vmulhu (d : Opnd) (a : Opnd) (b : Opnd) (s : State) :
    exec (.vmulhu d a b) s = execVmulhu d a b s := rfl
@[simp] theorem exec_vmad (d : Opnd) (a : Opnd) (b : Opnd) (s : State) :
    exec (.vmad d a b) s = execVmad d a b s := rfl
@[simp] theorem exec_vmin (d : Opnd) (a : Opnd) (b : Opnd) (s : State) :
    exec (.vmin d a b) s = execVmin d a b s := rfl
@[simp] theorem exec_vmax (d : Opnd) (a : Opnd) (b : Opnd) (s : State) :
    exec (.vmax d a b) s = execVmax d a b s := rfl
@[simp] theorem exec_vminu (d : Opnd) (a : Opnd) (b : Opnd) (s : State) :
    exec (.vminu d a b) s = execVminu d a b s := rfl
@[simp] theorem exec_vmaxu (d : Opnd) (a : Opnd) (b : Opnd) (s : State) :
    exec (.vmaxu d a b) s = execVmaxu d a b s := rfl
@[simp] theorem exec_vabs (d : Opnd) (a : Opnd) (s : State) :
    exec (.vabs d a) s = execVabs d a s := rfl
@[simp] theorem exec_vneg (d : Opnd) (a : Opnd) (s : State) :
    exec (.vneg d a) s = execVneg d a s := rfl
@[simp] theorem exec_vand (d : Opnd) (a : Opnd) (b : Opnd) (s : State) :
    exec (.vand d a b) s = execVand d a b s := rfl
@[simp] theorem exec_vor (d : Opnd) (a : Opnd) (b : Opnd) (s : State) :
    exec (.vor d a b) s = execVor d a b s := rfl
@[simp] theorem exec_vxor (d : Opnd) (a : Opnd) (b : Opnd) (s : State) :
    exec (.vxor d a b) s = execVxor d a b s := rfl
@[simp] theorem exec_vandn (d : Opnd) (a : Opnd) (b : Opnd) (s : State) :
    exec (.vandn d a b) s = execVandn d a b s := rfl
@[simp] theorem exec_vnot (d : Opnd) (a : Opnd) (s : State) :
    exec (.vnot d a) s = execVnot d a s := rfl
@[simp] theorem exec_vshl (d : Opnd) (a : Opnd) (b : Opnd) (s : State) :
    exec (.vshl d a b) s = execVshl d a b s := rfl
@[simp] theorem exec_vshr (d : Opnd) (a : Opnd) (b : Opnd) (s : State) :
    exec (.vshr d a b) s = execVshr d a b s := rfl
@[simp] theorem exec_vsar (d : Opnd) (a : Opnd) (b : Opnd) (s : State) :
    exec (.vsar d a b) s = execVsar d a b s := rfl
@[simp] theorem exec_vrot (d : Opnd) (a : Opnd) (b : Opnd) (s : State) :
    exec (.vrot d a b) s = execVrot d a b s := rfl
@[simp] theorem exec_vpopc (d : Opnd) (a : Opnd) (s : State) :
    exec (.vpopc d a) s = execVpopc d a s := rfl
@[simp] theorem exec_vclz (d : Opnd) (a : Opnd) (s : State) :
    exec (.vclz d a) s = execVclz d a s := rfl
@[simp] theorem exec_vbfe (d : Opnd) (a : Opnd) (b : Opnd) (s : State) :
    exec (.vbfe d a b) s = execVbfe d a b s := rfl
@[simp] theorem exec_vbfes (d : Opnd) (a : Opnd) (b : Opnd) (s : State) :
    exec (.vbfes d a b) s = execVbfes d a b s := rfl
@[simp] theorem exec_vbfi (d : Opnd) (a : Opnd) (b : Opnd) (s : State) :
    exec (.vbfi d a b) s = execVbfi d a b s := rfl
@[simp] theorem exec_vmov (d : Opnd) (a : Opnd) (s : State) :
    exec (.vmov d a) s = execVmov d a s := rfl
@[simp] theorem exec_vmovi (d : Opnd) (imm : BitVec 16) (s : State) :
    exec (.vmovi d imm) s = execVmovi d imm s := rfl
@[simp] theorem exec_vorhi (d : Opnd) (imm : BitVec 16) (s : State) :
    exec (.vorhi d imm) s = execVorhi d imm s := rfl
@[simp] theorem exec_vaddi (d : Opnd) (imm : BitVec 16) (s : State) :
    exec (.vaddi d imm) s = execVaddi d imm s := rfl
@[simp] theorem exec_vcmov (d : Opnd) (a : Opnd) (b : Opnd) (s : State) :
    exec (.vcmov d a b) s = execVcmov d a b s := rfl
@[simp] theorem exec_vcmpEq (d : Opnd) (a : Opnd) (b : Opnd) (s : State) :
    exec (.vcmpEq d a b) s = execVcmpEq d a b s := rfl
@[simp] theorem exec_vcmpNe (d : Opnd) (a : Opnd) (b : Opnd) (s : State) :
    exec (.vcmpNe d a b) s = execVcmpNe d a b s := rfl
@[simp] theorem exec_vcmpLt (d : Opnd) (a : Opnd) (b : Opnd) (s : State) :
    exec (.vcmpLt d a b) s = execVcmpLt d a b s := rfl
@[simp] theorem exec_vcmpLe (d : Opnd) (a : Opnd) (b : Opnd) (s : State) :
    exec (.vcmpLe d a b) s = execVcmpLe d a b s := rfl
@[simp] theorem exec_vcmpLtu (d : Opnd) (a : Opnd) (b : Opnd) (s : State) :
    exec (.vcmpLtu d a b) s = execVcmpLtu d a b s := rfl
@[simp] theorem exec_vcmpLeu (d : Opnd) (a : Opnd) (b : Opnd) (s : State) :
    exec (.vcmpLeu d a b) s = execVcmpLeu d a b s := rfl
@[simp] theorem exec_pand (d : Opnd) (a : Opnd) (b : Opnd) (s : State) :
    exec (.pand d a b) s = execPand d a b s := rfl
@[simp] theorem exec_por (d : Opnd) (a : Opnd) (b : Opnd) (s : State) :
    exec (.por d a b) s = execPor d a b s := rfl
@[simp] theorem exec_pxor (d : Opnd) (a : Opnd) (b : Opnd) (s : State) :
    exec (.pxor d a b) s = execPxor d a b s := rfl
@[simp] theorem exec_pnot (d : Opnd) (a : Opnd) (s : State) :
    exec (.pnot d a) s = execPnot d a s := rfl
@[simp] theorem exec_vmulq (d : Opnd) (a : Opnd) (b : Opnd) (s : State) :
    exec (.vmulq d a b) s = execVmulq d a b s := rfl
@[simp] theorem exec_vrsh (d : Opnd) (a : Opnd) (b : Opnd) (s : State) :
    exec (.vrsh d a b) s = execVrsh d a b s := rfl
@[simp] theorem exec_vsatI8 (d : Opnd) (a : Opnd) (s : State) :
    exec (.vsatI8 d a) s = execVsatI8 d a s := rfl
@[simp] theorem exec_vsatUb (d : Opnd) (a : Opnd) (s : State) :
    exec (.vsatUb d a) s = execVsatUb d a s := rfl
@[simp] theorem exec_vsatI16 (d : Opnd) (a : Opnd) (s : State) :
    exec (.vsatI16 d a) s = execVsatI16 d a s := rfl
@[simp] theorem exec_vprm (d : Opnd) (a : Opnd) (b : Opnd) (s : State) :
    exec (.vprm d a b) s = execVprm d a b s := rfl
@[simp] theorem exec_fadd (d : Opnd) (a : Opnd) (b : Opnd) (s : State) :
    exec (.fadd d a b) s = execFadd d a b s := rfl
@[simp] theorem exec_fsub (d : Opnd) (a : Opnd) (b : Opnd) (s : State) :
    exec (.fsub d a b) s = execFsub d a b s := rfl
@[simp] theorem exec_fmul (d : Opnd) (a : Opnd) (b : Opnd) (s : State) :
    exec (.fmul d a b) s = execFmul d a b s := rfl
@[simp] theorem exec_ffma (d : Opnd) (a : Opnd) (b : Opnd) (s : State) :
    exec (.ffma d a b) s = execFfma d a b s := rfl
@[simp] theorem exec_fmin (d : Opnd) (a : Opnd) (b : Opnd) (s : State) :
    exec (.fmin d a b) s = execFmin d a b s := rfl
@[simp] theorem exec_fmax (d : Opnd) (a : Opnd) (b : Opnd) (s : State) :
    exec (.fmax d a b) s = execFmax d a b s := rfl
@[simp] theorem exec_fabs (d : Opnd) (a : Opnd) (s : State) :
    exec (.fabs d a) s = execFabs d a s := rfl
@[simp] theorem exec_fneg (d : Opnd) (a : Opnd) (s : State) :
    exec (.fneg d a) s = execFneg d a s := rfl
@[simp] theorem exec_frcp (d : Opnd) (a : Opnd) (s : State) :
    exec (.frcp d a) s = execFrcp d a s := rfl
@[simp] theorem exec_frsq (d : Opnd) (a : Opnd) (s : State) :
    exec (.frsq d a) s = execFrsq d a s := rfl
@[simp] theorem exec_fsqrt (d : Opnd) (a : Opnd) (s : State) :
    exec (.fsqrt d a) s = execFsqrt d a s := rfl
@[simp] theorem exec_fexp2 (d : Opnd) (a : Opnd) (s : State) :
    exec (.fexp2 d a) s = execFexp2 d a s := rfl
@[simp] theorem exec_flog2 (d : Opnd) (a : Opnd) (s : State) :
    exec (.flog2 d a) s = execFlog2 d a s := rfl
@[simp] theorem exec_frnd (d : Opnd) (a : Opnd) (s : State) :
    exec (.frnd d a) s = execFrnd d a s := rfl
@[simp] theorem exec_fcmpEq (d : Opnd) (a : Opnd) (b : Opnd) (s : State) :
    exec (.fcmpEq d a b) s = execFcmpEq d a b s := rfl
@[simp] theorem exec_fcmpLt (d : Opnd) (a : Opnd) (b : Opnd) (s : State) :
    exec (.fcmpLt d a b) s = execFcmpLt d a b s := rfl
@[simp] theorem exec_fcmpLe (d : Opnd) (a : Opnd) (b : Opnd) (s : State) :
    exec (.fcmpLe d a b) s = execFcmpLe d a b s := rfl
@[simp] theorem exec_fcmpUn (d : Opnd) (a : Opnd) (b : Opnd) (s : State) :
    exec (.fcmpUn d a b) s = execFcmpUn d a b s := rfl
@[simp] theorem exec_fcvt (d : Opnd) (a : Opnd) (mode : BitVec 8) (s : State) :
    exec (.fcvt d a mode) s = execFcvt d a mode s := rfl
@[simp] theorem exec_fpack (d : Opnd) (a : Opnd) (mode : BitVec 8) (s : State) :
    exec (.fpack d a mode) s = execFpack d a mode s := rfl
@[simp] theorem exec_funpack (d : Opnd) (a : Opnd) (mode : BitVec 8) (s : State) :
    exec (.funpack d a mode) s = execFunpack d a mode s := rfl
@[simp] theorem exec_fscale (d : Opnd) (a : Opnd) (b : Opnd) (s : State) :
    exec (.fscale d a b) s = execFscale d a b s := rfl
@[simp] theorem exec_hadd2 (d : Opnd) (a : Opnd) (b : Opnd) (s : State) :
    exec (.hadd2 d a b) s = execHadd2 d a b s := rfl
@[simp] theorem exec_hmul2 (d : Opnd) (a : Opnd) (b : Opnd) (s : State) :
    exec (.hmul2 d a b) s = execHmul2 d a b s := rfl
@[simp] theorem exec_hfma2 (d : Opnd) (a : Opnd) (b : Opnd) (s : State) :
    exec (.hfma2 d a b) s = execHfma2 d a b s := rfl
@[simp] theorem exec_badd2 (d : Opnd) (a : Opnd) (b : Opnd) (s : State) :
    exec (.badd2 d a b) s = execBadd2 d a b s := rfl
@[simp] theorem exec_bmul2 (d : Opnd) (a : Opnd) (b : Opnd) (s : State) :
    exec (.bmul2 d a b) s = execBmul2 d a b s := rfl
@[simp] theorem exec_bfma2 (d : Opnd) (a : Opnd) (b : Opnd) (s : State) :
    exec (.bfma2 d a b) s = execBfma2 d a b s := rfl
@[simp] theorem exec_dot2F16 (d : Opnd) (a : Opnd) (b : Opnd) (s : State) :
    exec (.dot2F16 d a b) s = execDot2F16 d a b s := rfl
@[simp] theorem exec_dot2Bf16 (d : Opnd) (a : Opnd) (b : Opnd) (s : State) :
    exec (.dot2Bf16 d a b) s = execDot2Bf16 d a b s := rfl
@[simp] theorem exec_dot4E4m3n (d : Opnd) (a : Opnd) (b : Opnd) (s : State) :
    exec (.dot4E4m3n d a b) s = execDot4E4m3n d a b s := rfl
@[simp] theorem exec_dot4E5m2n (d : Opnd) (a : Opnd) (b : Opnd) (s : State) :
    exec (.dot4E5m2n d a b) s = execDot4E5m2n d a b s := rfl
@[simp] theorem exec_dot8E2m1n (d : Opnd) (a : Opnd) (b : Opnd) (s : State) :
    exec (.dot8E2m1n d a b) s = execDot8E2m1n d a b s := rfl
@[simp] theorem exec_dot4I8 (d : Opnd) (a : Opnd) (b : Opnd) (s : State) :
    exec (.dot4I8 d a b) s = execDot4I8 d a b s := rfl
@[simp] theorem exec_dot4Mx8 (d : Opnd) (a : Opnd) (b : Opnd) (s : State) :
    exec (.dot4Mx8 d a b) s = execDot4Mx8 d a b s := rfl
@[simp] theorem exec_dot8I4 (d : Opnd) (a : Opnd) (b : Opnd) (s : State) :
    exec (.dot8I4 d a b) s = execDot8I4 d a b s := rfl
@[simp] theorem exec_ldB (d : Opnd) (a : Opnd) (b : Opnd) (s : State) :
    exec (.ldB d a b) s = execLdB d a b s := rfl
@[simp] theorem exec_ldBs (d : Opnd) (a : Opnd) (b : Opnd) (s : State) :
    exec (.ldBs d a b) s = execLdBs d a b s := rfl
@[simp] theorem exec_ldH (d : Opnd) (a : Opnd) (b : Opnd) (s : State) :
    exec (.ldH d a b) s = execLdH d a b s := rfl
@[simp] theorem exec_ldHs (d : Opnd) (a : Opnd) (b : Opnd) (s : State) :
    exec (.ldHs d a b) s = execLdHs d a b s := rfl
@[simp] theorem exec_ldW (d : Opnd) (a : Opnd) (b : Opnd) (s : State) :
    exec (.ldW d a b) s = execLdW d a b s := rfl
@[simp] theorem exec_ldD (d : Opnd) (a : Opnd) (b : Opnd) (s : State) :
    exec (.ldD d a b) s = execLdD d a b s := rfl
@[simp] theorem exec_ldQ (d : Opnd) (a : Opnd) (b : Opnd) (s : State) :
    exec (.ldQ d a b) s = execLdQ d a b s := rfl
@[simp] theorem exec_stB (d : Opnd) (a : Opnd) (b : Opnd) (s : State) :
    exec (.stB d a b) s = execStB d a b s := rfl
@[simp] theorem exec_stH (d : Opnd) (a : Opnd) (b : Opnd) (s : State) :
    exec (.stH d a b) s = execStH d a b s := rfl
@[simp] theorem exec_stW (d : Opnd) (a : Opnd) (b : Opnd) (s : State) :
    exec (.stW d a b) s = execStW d a b s := rfl
@[simp] theorem exec_stD (d : Opnd) (a : Opnd) (b : Opnd) (s : State) :
    exec (.stD d a b) s = execStD d a b s := rfl
@[simp] theorem exec_stQ (d : Opnd) (a : Opnd) (b : Opnd) (s : State) :
    exec (.stQ d a b) s = execStQ d a b s := rfl
@[simp] theorem exec_ldxW (d : Opnd) (a : Opnd) (b : Opnd) (s : State) :
    exec (.ldxW d a b) s = execLdxW d a b s := rfl
@[simp] theorem exec_ldxD (d : Opnd) (a : Opnd) (b : Opnd) (s : State) :
    exec (.ldxD d a b) s = execLdxD d a b s := rfl
@[simp] theorem exec_stxW (d : Opnd) (a : Opnd) (b : Opnd) (s : State) :
    exec (.stxW d a b) s = execStxW d a b s := rfl
@[simp] theorem exec_stxD (d : Opnd) (a : Opnd) (b : Opnd) (s : State) :
    exec (.stxD d a b) s = execStxD d a b s := rfl
@[simp] theorem exec_spillSt (d : Opnd) (s : State) :
    exec (.spillSt d) s = execSpillSt d s := rfl
@[simp] theorem exec_spillLd (d : Opnd) (s : State) :
    exec (.spillLd d) s = execSpillLd d s := rfl
@[simp] theorem exec_atomAdd (d : Opnd) (a : Opnd) (b : Opnd) (s : State) :
    exec (.atomAdd d a b) s = execAtomAdd d a b s := rfl
@[simp] theorem exec_atomFadd (d : Opnd) (a : Opnd) (b : Opnd) (s : State) :
    exec (.atomFadd d a b) s = execAtomFadd d a b s := rfl
@[simp] theorem exec_atomMin (d : Opnd) (a : Opnd) (b : Opnd) (s : State) :
    exec (.atomMin d a b) s = execAtomMin d a b s := rfl
@[simp] theorem exec_atomMax (d : Opnd) (a : Opnd) (b : Opnd) (s : State) :
    exec (.atomMax d a b) s = execAtomMax d a b s := rfl
@[simp] theorem exec_atomMinu (d : Opnd) (a : Opnd) (b : Opnd) (s : State) :
    exec (.atomMinu d a b) s = execAtomMinu d a b s := rfl
@[simp] theorem exec_atomMaxu (d : Opnd) (a : Opnd) (b : Opnd) (s : State) :
    exec (.atomMaxu d a b) s = execAtomMaxu d a b s := rfl
@[simp] theorem exec_atomAnd (d : Opnd) (a : Opnd) (b : Opnd) (s : State) :
    exec (.atomAnd d a b) s = execAtomAnd d a b s := rfl
@[simp] theorem exec_atomOr (d : Opnd) (a : Opnd) (b : Opnd) (s : State) :
    exec (.atomOr d a b) s = execAtomOr d a b s := rfl
@[simp] theorem exec_atomXor (d : Opnd) (a : Opnd) (b : Opnd) (s : State) :
    exec (.atomXor d a b) s = execAtomXor d a b s := rfl
@[simp] theorem exec_atomXchg (d : Opnd) (a : Opnd) (b : Opnd) (s : State) :
    exec (.atomXchg d a b) s = execAtomXchg d a b s := rfl
@[simp] theorem exec_atomCas (d : Opnd) (a : Opnd) (b : Opnd) (s : State) :
    exec (.atomCas d a b) s = execAtomCas d a b s := rfl
@[simp] theorem exec_atomxAdd (d : Opnd) (a : Opnd) (b : Opnd) (par : AxPar) (s : State) :
    exec (.atomxAdd d a b par) s = execAtomxAdd d a b par s := rfl
@[simp] theorem exec_atomxXchg (d : Opnd) (a : Opnd) (b : Opnd) (par : AxPar) (s : State) :
    exec (.atomxXchg d a b par) s = execAtomxXchg d a b par s := rfl
@[simp] theorem exec_atomxCas (d : Opnd) (a : Opnd) (b : Opnd) (par : AxPar) (s : State) :
    exec (.atomxCas d a b par) s = execAtomxCas d a b par s := rfl
@[simp] theorem exec_shflIdx (d : Opnd) (a : Opnd) (b : Opnd) (s : State) :
    exec (.shflIdx d a b) s = execShflIdx d a b s := rfl
@[simp] theorem exec_shflXor (d : Opnd) (a : Opnd) (b : Opnd) (s : State) :
    exec (.shflXor d a b) s = execShflXor d a b s := rfl
@[simp] theorem exec_shflUp (d : Opnd) (a : Opnd) (b : Opnd) (s : State) :
    exec (.shflUp d a b) s = execShflUp d a b s := rfl
@[simp] theorem exec_shflDn (d : Opnd) (a : Opnd) (b : Opnd) (s : State) :
    exec (.shflDn d a b) s = execShflDn d a b s := rfl
@[simp] theorem exec_bcast (d : Opnd) (a : Opnd) (b : Opnd) (s : State) :
    exec (.bcast d a b) s = execBcast d a b s := rfl
@[simp] theorem exec_voteAny (d : Opnd) (a : Opnd) (s : State) :
    exec (.voteAny d a) s = execVoteAny d a s := rfl
@[simp] theorem exec_voteAll (d : Opnd) (a : Opnd) (s : State) :
    exec (.voteAll d a) s = execVoteAll d a s := rfl
@[simp] theorem exec_ballot (d : Opnd) (a : Opnd) (b : Opnd) (s : State) :
    exec (.ballot d a b) s = execBallot d a b s := rfl
@[simp] theorem exec_redAdd (d : Opnd) (a : Opnd) (s : State) :
    exec (.redAdd d a) s = execRedAdd d a s := rfl
@[simp] theorem exec_redFadd (d : Opnd) (a : Opnd) (s : State) :
    exec (.redFadd d a) s = execRedFadd d a s := rfl
@[simp] theorem exec_redMax (d : Opnd) (a : Opnd) (s : State) :
    exec (.redMax d a) s = execRedMax d a s := rfl
@[simp] theorem exec_redFmax (d : Opnd) (a : Opnd) (s : State) :
    exec (.redFmax d a) s = execRedFmax d a s := rfl
@[simp] theorem exec_redFmin (d : Opnd) (a : Opnd) (s : State) :
    exec (.redFmin d a) s = execRedFmin d a s := rfl
@[simp] theorem exec_scanAdd (d : Opnd) (a : Opnd) (s : State) :
    exec (.scanAdd d a) s = execScanAdd d a s := rfl
@[simp] theorem exec_fence (scope : BitVec 3) (acq : Bool) (rel : Bool) (s : State) :
    exec (.fence scope acq rel) s = execFence scope acq rel s := rfl
@[simp] theorem exec_barInit (a : Opnd) (b : Opnd) (s : State) :
    exec (.barInit a b) s = execBarInit a b s := rfl
@[simp] theorem exec_barExpect (a : Opnd) (b : Opnd) (s : State) :
    exec (.barExpect a b) s = execBarExpect a b s := rfl
@[simp] theorem exec_barArrive (a : Opnd) (b : Opnd) (s : State) :
    exec (.barArrive a b) s = execBarArrive a b s := rfl
@[simp] theorem exec_barTest (d : Opnd) (a : Opnd) (s : State) :
    exec (.barTest d a) s = execBarTest d a s := rfl
@[simp] theorem exec_streamBind (d : Opnd) (a : Opnd) (b : Opnd) (s : State) :
    exec (.streamBind d a b) s = execStreamBind d a b s := rfl
@[simp] theorem exec_streamFill (d : Opnd) (a : Opnd) (s : State) :
    exec (.streamFill d a) s = execStreamFill d a s := rfl
@[simp] theorem exec_streamFree (d : Opnd) (s : State) :
    exec (.streamFree d) s = execStreamFree d s := rfl
@[simp] theorem exec_streamPub (d : Opnd) (a : Opnd) (s : State) :
    exec (.streamPub d a) s = execStreamPub d a s := rfl
@[simp] theorem exec_chanGo (n : BitVec 8) (a : Opnd) (s : State) :
    exec (.chanGo n a) s = execChanGo n a s := rfl
@[simp] theorem exec_chanStop (n : BitVec 8) (s : State) :
    exec (.chanStop n) s = execChanStop n s := rfl
@[simp] theorem exec_chanState (n : BitVec 8) (a : Opnd) (s : State) :
    exec (.chanState n a) s = execChanState n a s := rfl
@[simp] theorem exec_ringWait (a : Opnd) (s : State) :
    exec (.ringWait a) s = execRingWait a s := rfl
@[simp] theorem exec_gather (d : Opnd) (a : Opnd) (b : Opnd) (par : XPar) (s : State) :
    exec (.gather d a b par) s = execGather d a b par s := rfl
@[simp] theorem exec_scatter (d : Opnd) (a : Opnd) (b : Opnd) (par : XPar) (s : State) :
    exec (.scatter d a b par) s = execScatter d a b par s := rfl
@[simp] theorem exec_ldBlk (d : Opnd) (a : Opnd) (b : Opnd) (par : XPar) (s : State) :
    exec (.ldBlk d a b par) s = execLdBlk d a b par s := rfl
@[simp] theorem exec_stBlk (d : Opnd) (a : Opnd) (b : Opnd) (par : XPar) (s : State) :
    exec (.stBlk d a b par) s = execStBlk d a b par s := rfl
@[simp] theorem exec_atomM (d : Opnd) (a : Opnd) (b : Opnd) (par : XPar) (s : State) :
    exec (.atomM d a b par) s = execAtomM d a b par s := rfl
@[simp] theorem exec_mloop (n : BitVec 8) (a : Opnd) (par : MPar) (s : State) :
    exec (.mloop n a par) s = execMloop n a par s := rfl
@[simp] theorem exec_mgloop (n : BitVec 8) (a : Opnd) (par : MPar) (s : State) :
    exec (.mgloop n a par) s = execMgloop n a par s := rfl
@[simp] theorem exec_mzero (n : BitVec 8) (s : State) :
    exec (.mzero n) s = execMzero n s := rfl
@[simp] theorem exec_mload (n : BitVec 8) (a : Opnd) (b : Opnd) (s : State) :
    exec (.mload n a b) s = execMload n a b s := rfl
@[simp] theorem exec_mstore (n : BitVec 8) (a : Opnd) (par : MPar) (s : State) :
    exec (.mstore n a par) s = execMstore n a par s := rfl
@[simp] theorem exec_mrows (d : Opnd) (a : Opnd) (s : State) :
    exec (.mrows d a) s = execMrows d a s := rfl
@[simp] theorem exec_solicit (a : Opnd) (rel : Bool) (s : State) :
    exec (.solicit a rel) s = execSolicit a rel s := rfl
@[simp] theorem exec_respond (a : Opnd) (s : State) :
    exec (.respond a) s = execRespond a s := rfl
@[simp] theorem exec_tilePut (d : Opnd) (a : Opnd) (s : State) :
    exec (.tilePut d a) s = execTilePut d a s := rfl
@[simp] theorem exec_tileDrop (a : Opnd) (s : State) :
    exec (.tileDrop a) s = execTileDrop a s := rfl
@[simp] theorem exec_tileMove (a : Opnd) (b : Opnd) (s : State) :
    exec (.tileMove a b) s = execTileMove a b s := rfl
@[simp] theorem exec_seqAdd (a : Opnd) (b : Opnd) (par : SeqPar) (s : State) :
    exec (.seqAdd a b par) s = execSeqAdd a b par s := rfl
@[simp] theorem exec_seqRd (d : Opnd) (a : Opnd) (b : Opnd) (s : State) :
    exec (.seqRd d a b) s = execSeqRd d a b s := rfl
@[simp] theorem exec_recPop (d : Opnd) (a : Opnd) (b : Opnd) (s : State) :
    exec (.recPop d a b) s = execRecPop d a b s := rfl
@[simp] theorem exec_recPush (d : Opnd) (a : Opnd) (b : Opnd) (s : State) :
    exec (.recPush d a b) s = execRecPush d a b s := rfl
@[simp] theorem exec_portWr (d : Opnd) (a : Opnd) (par : XPar) (s : State) :
    exec (.portWr d a par) s = execPortWr d a par s := rfl
@[simp] theorem exec_fenceM (scope : BitVec 3) (acq : Bool) (rel : Bool) (s : State) :
    exec (.fenceM scope acq rel) s = execFenceM scope acq rel s := rfl
@[simp] theorem exec_plotWarm (a : Opnd) (s : State) :
    exec (.plotWarm a) s = execPlotWarm a s := rfl
@[simp] theorem exec_scrub (d : Opnd) (a : Opnd) (b : Opnd) (s : State) :
    exec (.scrub d a b) s = execScrub d a b s := rfl
@[simp] theorem exec_csrRd (d : Opnd) (addr : BitVec 12) (s : State) :
    exec (.csrRd d addr) s = execCsrRd d addr s := rfl
@[simp] theorem exec_csrWr (d : Opnd) (addr : BitVec 12) (s : State) :
    exec (.csrWr d addr) s = execCsrWr d addr s := rfl
@[simp] theorem exec_csrSet (d : Opnd) (addr : BitVec 12) (s : State) :
    exec (.csrSet d addr) s = execCsrSet d addr s := rfl
@[simp] theorem exec_csrClr (d : Opnd) (addr : BitVec 12) (s : State) :
    exec (.csrClr d addr) s = execCsrClr d addr s := rfl
@[simp] theorem exec_tstamp (d : Opnd) (s : State) :
    exec (.tstamp d) s = execTstamp d s := rfl
@[simp] theorem exec_cede (a : Opnd) (b : Opnd) (s : State) :
    exec (.cede a b) s = execCede a b s := rfl
@[simp] theorem exec_bwphaseWrite (c : Nat) (s : State) :
    exec (.bwphaseWrite c) s = execBwphaseWrite c s := rfl
@[simp] theorem exec_twordRead (d : Opnd) (s : State) :
    exec (.twordRead d) s = execTwordRead d s := rfl
@[simp] theorem exec_trbaseWrite (d : Opnd) (s : State) :
    exec (.trbaseWrite d) s = execTrbaseWrite d s := rfl
@[simp] theorem exec_barrelIssue (k : Nat) (s : State) :
    exec (.barrelIssue k) s = execBarrelIssue k s := rfl
@[simp] theorem exec_clauseWaitsSatisfied (k : Nat) (t : Nat) (p : Nat) (s : State) :
    exec (.clauseWaitsSatisfied k t p) s = execClauseWaitsSatisfied k t p s := rfl
@[simp] theorem exec_locWriteback (k : Nat) (t : Nat) (p : Nat) (idx : Nat) (lanes : BitVec 1024) (s : State) :
    exec (.locWriteback k t p idx lanes) s = execLocWriteback k t p idx lanes s := rfl
@[simp] theorem exec_positionReassign (k : Nat) (s : State) :
    exec (.positionReassign k) s = execPositionReassign k s := rfl
@[simp] theorem exec_responderPoolEnable (c : Nat) (s : State) :
    exec (.responderPoolEnable c) s = execResponderPoolEnable c s := rfl
@[simp] theorem exec_responderPoolDisable (c : Nat) (s : State) :
    exec (.responderPoolDisable c) s = execResponderPoolDisable c s := rfl
@[simp] theorem exec_calendarSlotServe (u : Nat) (slot : Nat) (s : State) :
    exec (.calendarSlotServe u slot) s = execCalendarSlotServe u slot s := rfl
@[simp] theorem exec_crewPlace (c : Nat) (n : Nat) (back : Nat) (s : State) :
    exec (.crewPlace c n back) s = execCrewPlace c n back s := rfl
@[simp] theorem exec_crewRetire (k : Nat) (r : Nat) (s : State) :
    exec (.crewRetire k r) s = execCrewRetire k r s := rfl
@[simp] theorem exec_phaseRecordWrite (k : Nat) (t : Nat) (s : State) :
    exec (.phaseRecordWrite k t) s = execPhaseRecordWrite k t s := rfl
@[simp] theorem exec_claimGranted (k : Nat) (t : Nat) (p : Nat) (s : State) :
    exec (.claimGranted k t p) s = execClaimGranted k t p s := rfl
@[simp] theorem exec_rkResumeTeam (k : Nat) (t : Nat) (s : State) :
    exec (.rkResumeTeam k t) s = execRkResumeTeam k t s := rfl
@[simp] theorem exec_rkRetireTeam (k : Nat) (t : Nat) (s : State) :
    exec (.rkRetireTeam k t) s = execRkRetireTeam k t s := rfl
@[simp] theorem exec_sysReply (k : Nat) (t : Nat) (p : Nat) (known : Bool) (r0 : BitVec 64) (r1 : BitVec 64) (r2 : BitVec 64) (r3 : BitVec 64) (s : State) :
    exec (.sysReply k t p known r0 r1 r2 r3) s = execSysReply k t p known r0 r1 r2 r3 s := rfl
@[simp] theorem exec_issueHoldRelease (k : Nat) (t : Nat) (p : Nat) (s : State) :
    exec (.issueHoldRelease k t p) s = execIssueHoldRelease k t p s := rfl
@[simp] theorem exec_gatherPacketDeliver (k : Nat) (x : Nat) (idx : Nat) (s : State) :
    exec (.gatherPacketDeliver k x idx) s = execGatherPacketDeliver k x idx s := rfl
@[simp] theorem exec_writeAcknowledge (k : Nat) (x : Nat) (idx : Nat) (s : State) :
    exec (.writeAcknowledge k x idx) s = execWriteAcknowledge k x idx s := rfl
@[simp] theorem exec_atomMPerform (k : Nat) (x : Nat) (lane : Nat) (s : State) :
    exec (.atomMPerform k x lane) s = execAtomMPerform k x lane s := rfl
@[simp] theorem exec_blkSegmentComplete (k : Nat) (x : Nat) (idx : Nat) (s : State) :
    exec (.blkSegmentComplete k x idx) s = execBlkSegmentComplete k x idx s := rfl
@[simp] theorem exec_portWrSent (k : Nat) (x : Nat) (s : State) :
    exec (.portWrSent k x) s = execPortWrSent k x s := rfl
@[simp] theorem exec_asyncPartFail (k : Nat) (x : Nat) (idx : Nat) (s : State) :
    exec (.asyncPartFail k x idx) s = execAsyncPartFail k x idx s := rfl
@[simp] theorem exec_waitWake (k : Nat) (t : Nat) (p : Nat) (s : State) :
    exec (.waitWake k t p) s = execWaitWake k t p s := rfl
@[simp] theorem exec_streamWaitRelease (k : Nat) (t : Nat) (p : Nat) (s : State) :
    exec (.streamWaitRelease k t p) s = execStreamWaitRelease k t p s := rfl
@[simp] theorem exec_chanRecordStart (k : Nat) (ch : Nat) (s : State) :
    exec (.chanRecordStart k ch) s = execChanRecordStart k ch s := rfl
@[simp] theorem exec_chanSegmentAck (k : Nat) (ch : Nat) (s : State) :
    exec (.chanSegmentAck k ch) s = execChanSegmentAck k ch s := rfl
@[simp] theorem exec_chanStopDone (k : Nat) (ch : Nat) (s : State) :
    exec (.chanStopDone k ch) s = execChanStopDone k ch s := rfl
@[simp] theorem exec_chanRecordUnreadable (k : Nat) (ch : Nat) (s : State) :
    exec (.chanRecordUnreadable k ch) s = execChanRecordUnreadable k ch s := rfl
@[simp] theorem exec_ringWaitRecheck (k : Nat) (t : Nat) (p : Nat) (s : State) :
    exec (.ringWaitRecheck k t p) s = execRingWaitRecheck k t p s := rfl
@[simp] theorem exec_mloopStart (k : Nat) (s : State) :
    exec (.mloopStart k) s = execMloopStart k s := rfl
@[simp] theorem exec_mloopRowGroupCommit (k : Nat) (s : State) :
    exec (.mloopRowGroupCommit k) s = execMloopRowGroupCommit k s := rfl
@[simp] theorem exec_mloopPageFault (k : Nat) (s : State) :
    exec (.mloopPageFault k) s = execMloopPageFault k s := rfl
@[simp] theorem exec_mloopFailure (k : Nat) (s : State) :
    exec (.mloopFailure k) s = execMloopFailure k s := rfl
@[simp] theorem exec_mstoreRowAck (k : Nat) (x : Nat) (s : State) :
    exec (.mstoreRowAck k x) s = execMstoreRowAck k x s := rfl
@[simp] theorem exec_mstoreRowFail (k : Nat) (x : Nat) (s : State) :
    exec (.mstoreRowFail k x) s = execMstoreRowFail k x s := rfl
@[simp] theorem exec_pageMap (c : Nat) (va : Nat) (level : Nat) (entry : BitVec 64) (s : State) :
    exec (.pageMap c va level entry) s = execPageMap c va level entry s := rfl
@[simp] theorem exec_pageFaultRefuse (c : Nat) (va : Nat) (s : State) :
    exec (.pageFaultRefuse c va) s = execPageFaultRefuse c va s := rfl
@[simp] theorem exec_pagePin (c : Nat) (va : Nat) (s : State) :
    exec (.pagePin c va) s = execPagePin c va s := rfl
@[simp] theorem exec_pageUnpin (c : Nat) (va : Nat) (s : State) :
    exec (.pageUnpin c va) s = execPageUnpin c va s := rfl
@[simp] theorem exec_leafChange (c : Nat) (va : Nat) (level : Nat) (entry : BitVec 64) (s : State) :
    exec (.leafChange c va level entry) s = execLeafChange c va level entry s := rfl
@[simp] theorem exec_invalidationComplete (c : Nat) (va : Nat) (s : State) :
    exec (.invalidationComplete c va) s = execInvalidationComplete c va s := rfl
@[simp] theorem exec_plotAllocate (c : Nat) (plot : Nat) (s : State) :
    exec (.plotAllocate c plot) s = execPlotAllocate c plot s := rfl
@[simp] theorem exec_plotWakeComplete (plot : Nat) (s : State) :
    exec (.plotWakeComplete plot) s = execPlotWakeComplete plot s := rfl
@[simp] theorem exec_plotRetentionEntry (plot : Nat) (s : State) :
    exec (.plotRetentionEntry plot) s = execPlotRetentionEntry plot s := rfl
@[simp] theorem exec_plotPowerDown (c : Nat) (plot : Nat) (s : State) :
    exec (.plotPowerDown c plot) s = execPlotPowerDown c plot s := rfl
@[simp] theorem exec_pseudoChannelFail (ch : Nat) (s : State) :
    exec (.pseudoChannelFail ch) s = execPseudoChannelFail ch s := rfl
@[simp] theorem exec_rowMitigation (row : Nat) (fn : Nat) (s : State) :
    exec (.rowMitigation row fn) s = execRowMitigation row fn s := rfl
@[simp] theorem exec_rowThrottleStart (row : Nat) (fn : Nat) (s : State) :
    exec (.rowThrottleStart row fn) s = execRowThrottleStart row fn s := rfl
@[simp] theorem exec_rowThrottleEnd (row : Nat) (fn : Nat) (s : State) :
    exec (.rowThrottleEnd row fn) s = execRowThrottleEnd row fn s := rfl
@[simp] theorem exec_deferredMitigationRun (fn : Nat) (s : State) :
    exec (.deferredMitigationRun fn) s = execDeferredMitigationRun fn s := rfl
@[simp] theorem exec_contextStart (c : Nat) (s : State) :
    exec (.contextStart c) s = execContextStart c s := rfl
@[simp] theorem exec_preemptSoft (c : Nat) (d : BitVec 64) (s : State) :
    exec (.preemptSoft c d) s = execPreemptSoft c d s := rfl
@[simp] theorem exec_preemptHard (c : Nat) (s : State) :
    exec (.preemptHard c) s = execPreemptHard c s := rfl
@[simp] theorem exec_softDeadlineExpire (c : Nat) (s : State) :
    exec (.softDeadlineExpire c) s = execSoftDeadlineExpire c s := rfl
@[simp] theorem exec_yieldingEmpty (c : Nat) (s : State) :
    exec (.yieldingEmpty c) s = execYieldingEmpty c s := rfl
@[simp] theorem exec_preemptAgain (c : Nat) (d : BitVec 64) (s : State) :
    exec (.preemptAgain c d) s = execPreemptAgain c d s := rfl
@[simp] theorem exec_vacateComplete (c : Nat) (s : State) :
    exec (.vacateComplete c) s = execVacateComplete c s := rfl
@[simp] theorem exec_saveFailure (c : Nat) (s : State) :
    exec (.saveFailure c) s = execSaveFailure c s := rfl
@[simp] theorem exec_contextRestore (c : Nat) (s : State) :
    exec (.contextRestore c) s = execContextRestore c s := rfl
@[simp] theorem exec_restoreComplete (c : Nat) (s : State) :
    exec (.restoreComplete c) s = execRestoreComplete c s := rfl
@[simp] theorem exec_contextDestroy (c : Nat) (s : State) :
    exec (.contextDestroy c) s = execContextDestroy c s := rfl
@[simp] theorem exec_allowanceWrite (c : Nat) (k : Nat) (a : Nat) (s : State) :
    exec (.allowanceWrite c k a) s = execAllowanceWrite c k a s := rfl
@[simp] theorem exec_cedeCreditArrive (c : Nat) (src : Nat) (dst : Nat) (s : State) :
    exec (.cedeCreditArrive c src dst) s = execCedeCreditArrive c src dst s := rfl
@[simp] theorem exec_admissionRetest (k : Nat) (s : State) :
    exec (.admissionRetest k) s = execAdmissionRetest k s := rfl
@[simp] theorem exec_rkHeartbeatTimeout (s : State) :
    exec (.rkHeartbeatTimeout) s = execRkHeartbeatTimeout s := rfl
@[simp] theorem exec_rkSystemCoreFault (s : State) :
    exec (.rkSystemCoreFault) s = execRkSystemCoreFault s := rfl
@[simp] theorem exec_rkReadopt (c : Nat) (s : State) :
    exec (.rkReadopt c) s = execRkReadopt c s := rfl
@[simp] theorem exec_readoptFail (c : Nat) (s : State) :
    exec (.readoptFail c) s = execReadoptFail c s := rfl
@[simp] theorem exec_warmRebootFail (s : State) :
    exec (.warmRebootFail) s = execWarmRebootFail s := rfl
@[simp] theorem exec_partReset (s : State) :
    exec (.partReset) s = execPartReset s := rfl
@[simp] theorem exec_kloadLoad (fn : Nat) (q : Nat) (tid : Nat) (s : State) :
    exec (.kloadLoad fn q tid) s = execKloadLoad fn q tid s := rfl
@[simp] theorem exec_kloadUnload (fn : Nat) (q : Nat) (s : State) :
    exec (.kloadUnload fn q) s = execKloadUnload fn q s := rfl
@[simp] theorem exec_kernelCloseComplete (c : Nat) (n : Nat) (s : State) :
    exec (.kernelCloseComplete c n) s = execKernelCloseComplete c n s := rfl
@[simp] theorem exec_kernelEndAfterFault (c : Nat) (n : Nat) (s : State) :
    exec (.kernelEndAfterFault c n) s = execKernelEndAfterFault c n s := rfl
@[simp] theorem exec_phasePlace (c : Nat) (n : Nat) (back : Nat) (s : State) :
    exec (.phasePlace c n back) s = execPhasePlace c n back s := rfl
@[simp] theorem exec_phaseCommit (c : Nat) (n : Nat) (r : Nat) (s : State) :
    exec (.phaseCommit c n r) s = execPhaseCommit c n r s := rfl
@[simp] theorem exec_seqAddPerform (k : Nat) (x : Nat) (s : State) :
    exec (.seqAddPerform k x) s = execSeqAddPerform k x s := rfl
@[simp] theorem exec_deferredAddPerform (c : Nat) (n : Nat) (r : Nat) (idx : Nat) (s : State) :
    exec (.deferredAddPerform c n r idx) s = execDeferredAddPerform c n r idx s := rfl
@[simp] theorem exec_deferredAddDrop (c : Nat) (n : Nat) (r : Nat) (idx : Nat) (s : State) :
    exec (.deferredAddDrop c n r idx) s = execDeferredAddDrop c n r idx s := rfl
@[simp] theorem exec_seqRdComplete (k : Nat) (x : Nat) (s : State) :
    exec (.seqRdComplete k x) s = execSeqRdComplete k x s := rfl
@[simp] theorem exec_recPushEngineAnswer (k : Nat) (t : Nat) (p : Nat) (s : State) :
    exec (.recPushEngineAnswer k t p) s = execRecPushEngineAnswer k t p s := rfl
@[simp] theorem exec_recPushAck (k : Nat) (x : Nat) (s : State) :
    exec (.recPushAck k x) s = execRecPushAck k x s := rfl
@[simp] theorem exec_recPopPlace (k : Nat) (x : Nat) (s : State) :
    exec (.recPopPlace k x) s = execRecPopPlace k x s := rfl
@[simp] theorem exec_doorbellWrite (fn : Nat) (q : Nat) (tail : BitVec 32) (s : State) :
    exec (.doorbellWrite fn q tail) s = execDoorbellWrite fn q tail s := rfl
@[simp] theorem exec_queueSlotGrant (fn : Nat) (q : Nat) (lane : Nat) (s : State) :
    exec (.queueSlotGrant fn q lane) s = execQueueSlotGrant fn q lane s := rfl
@[simp] theorem exec_queueUnmap (fn : Nat) (q : Nat) (s : State) :
    exec (.queueUnmap fn q) s = execQueueUnmap fn q s := rfl
@[simp] theorem exec_queueFaultMapped (fn : Nat) (q : Nat) (s : State) :
    exec (.queueFaultMapped fn q) s = execQueueFaultMapped fn q s := rfl
@[simp] theorem exec_queueFaultRefused (fn : Nat) (q : Nat) (s : State) :
    exec (.queueFaultRefused fn q) s = execQueueFaultRefused fn q s := rfl
@[simp] theorem exec_queueDelete (fn : Nat) (q : Nat) (s : State) :
    exec (.queueDelete fn q) s = execQueueDelete fn q s := rfl
@[simp] theorem exec_frontEndSweep (fc : Nat) (s : State) :
    exec (.frontEndSweep fc) s = execFrontEndSweep fc s := rfl
@[simp] theorem exec_nopPacket (fn : Nat) (q : Nat) (s : State) :
    exec (.nopPacket fn q) s = execNopPacket fn q s := rfl
@[simp] theorem exec_append (fn : Nat) (q : Nat) (s : State) :
    exec (.append fn q) s = execAppend fn q s := rfl
@[simp] theorem exec_signal (fn : Nat) (q : Nat) (s : State) :
    exec (.signal fn q) s = execSignal fn q s := rfl
@[simp] theorem exec_waitseq (fn : Nat) (q : Nat) (s : State) :
    exec (.waitseq fn q) s = execWaitseq fn q s := rfl
@[simp] theorem exec_waitseqSatisfied (fn : Nat) (q : Nat) (s : State) :
    exec (.waitseqSatisfied fn q) s = execWaitseqSatisfied fn q s := rfl
@[simp] theorem exec_copy (fn : Nat) (q : Nat) (s : State) :
    exec (.copy fn q) s = execCopy fn q s := rfl
@[simp] theorem exec_copyComplete (fn : Nat) (q : Nat) (s : State) :
    exec (.copyComplete fn q) s = execCopyComplete fn q s := rfl
@[simp] theorem exec_release (fn : Nat) (q : Nat) (s : State) :
    exec (.release fn q) s = execRelease fn q s := rfl
@[simp] theorem exec_acquire (fn : Nat) (q : Nat) (s : State) :
    exec (.acquire fn q) s = execAcquire fn q s := rfl
@[simp] theorem exec_tstampPacket (fn : Nat) (q : Nat) (s : State) :
    exec (.tstampPacket fn q) s = execTstampPacket fn q s := rfl
@[simp] theorem exec_scrubPacket (fn : Nat) (q : Nat) (s : State) :
    exec (.scrubPacket fn q) s = execScrubPacket fn q s := rfl
@[simp] theorem exec_unknownPacket (fn : Nat) (q : Nat) (s : State) :
    exec (.unknownPacket fn q) s = execUnknownPacket fn q s := rfl
@[simp] theorem exec_ctxopCreate (fn : Nat) (q : Nat) (s : State) :
    exec (.ctxopCreate fn q) s = execCtxopCreate fn q s := rfl
@[simp] theorem exec_ctxopPreempt (fn : Nat) (q : Nat) (s : State) :
    exec (.ctxopPreempt fn q) s = execCtxopPreempt fn q s := rfl
@[simp] theorem exec_ctxopRestore (fn : Nat) (q : Nat) (s : State) :
    exec (.ctxopRestore fn q) s = execCtxopRestore fn q s := rfl
@[simp] theorem exec_ctxopDestroy (fn : Nat) (q : Nat) (s : State) :
    exec (.ctxopDestroy fn q) s = execCtxopDestroy fn q s := rfl
@[simp] theorem exec_ctxopSetDraining (fn : Nat) (q : Nat) (s : State) :
    exec (.ctxopSetDraining fn q) s = execCtxopSetDraining fn q s := rfl
@[simp] theorem exec_ctxopClearDraining (fn : Nat) (q : Nat) (s : State) :
    exec (.ctxopClearDraining fn q) s = execCtxopClearDraining fn q s := rfl
@[simp] theorem exec_arbitrationPeriodBoundary (fn : Nat) (s : State) :
    exec (.arbitrationPeriodBoundary fn) s = execArbitrationPeriodBoundary fn s := rfl
@[simp] theorem exec_vfSlotConfig (fn : Nat) (m : Nat) (share : VfShare) (s : State) :
    exec (.vfSlotConfig fn m share) s = execVfSlotConfig fn m share s := rfl
@[simp] theorem exec_wakeFilterWrite (idx : Nat) (bytes : List (BitVec 8)) (s : State) :
    exec (.wakeFilterWrite idx bytes) s = execWakeFilterWrite idx bytes s := rfl
@[simp] theorem exec_wakeFrameMatch (port : Nat) (frame : List (BitVec 8)) (s : State) :
    exec (.wakeFrameMatch port frame) s = execWakeFrameMatch port frame s := rfl
@[simp] theorem exec_solicitDirectoryPass (c : Nat) (idx : Nat) (k : Nat) (s : State) :
    exec (.solicitDirectoryPass c idx k) s = execSolicitDirectoryPass c idx k s := rfl
@[simp] theorem exec_solicitForwardArrive (c : Nat) (j : Nat) (s : State) :
    exec (.solicitForwardArrive c j) s = execSolicitForwardArrive c j s := rfl
@[simp] theorem exec_responderSpawn (k : Nat) (pos : Nat) (s : State) :
    exec (.responderSpawn k pos) s = execResponderSpawn k pos s := rfl
@[simp] theorem exec_combineNode (c : Nat) (idx : Nat) (level : Nat) (node : Nat) (s : State) :
    exec (.combineNode c idx level node) s = execCombineNode c idx level node s := rfl
@[simp] theorem exec_censusComplete (c : Nat) (idx : Nat) (s : State) :
    exec (.censusComplete c idx) s = execCensusComplete c idx s := rfl
@[simp] theorem exec_censusSlotRetireArrive (c : Nat) (idx : Nat) (k : Nat) (s : State) :
    exec (.censusSlotRetireArrive c idx k) s = execCensusSlotRetireArrive c idx k s := rfl
@[simp] theorem exec_tileMoveCommit (k : Nat) (x : Nat) (s : State) :
    exec (.tileMoveCommit k x) s = execTileMoveCommit k x s := rfl
@[simp] theorem exec_tileMoveFail (k : Nat) (x : Nat) (s : State) :
    exec (.tileMoveFail k x) s = execTileMoveFail k x s := rfl
@[simp] theorem exec_tileDropComplete (k : Nat) (t : Nat) (p : Nat) (s : State) :
    exec (.tileDropComplete k t p) s = execTileDropComplete k t p s := rfl
@[simp] theorem exec_linkEnable (l : Nat) (s : State) :
    exec (.linkEnable l) s = execLinkEnable l s := rfl
@[simp] theorem exec_linkTrainedFull (l : Nat) (s : State) :
    exec (.linkTrainedFull l) s = execLinkTrainedFull l s := rfl
@[simp] theorem exec_linkTrainedHalf (l : Nat) (s : State) :
    exec (.linkTrainedHalf l) s = execLinkTrainedHalf l s := rfl
@[simp] theorem exec_linkTrainingTimeout (l : Nat) (s : State) :
    exec (.linkTrainingTimeout l) s = execLinkTrainingTimeout l s := rfl
@[simp] theorem exec_linkErrorRetrain (l : Nat) (s : State) :
    exec (.linkErrorRetrain l) s = execLinkErrorRetrain l s := rfl
@[simp] theorem exec_expanderCompletionTimeout (s : State) :
    exec (.expanderCompletionTimeout) s = execExpanderCompletionTimeout s := rfl
@[simp] theorem exec_linkRetrained (l : Nat) (half : Bool) (s : State) :
    exec (.linkRetrained l half) s = execLinkRetrained l half s := rfl
@[simp] theorem exec_linkRetrainTimeout (l : Nat) (s : State) :
    exec (.linkRetrainTimeout l) s = execLinkRetrainTimeout l s := rfl
@[simp] theorem exec_linkDisable (l : Nat) (s : State) :
    exec (.linkDisable l) s = execLinkDisable l s := rfl
@[simp] theorem exec_flitCrcReplay (l : Nat) (s : State) :
    exec (.flitCrcReplay l) s = execFlitCrcReplay l s := rfl
@[simp] theorem exec_portReadFail (k : Nat) (x : Nat) (idx : Nat) (s : State) :
    exec (.portReadFail k x idx) s = execPortReadFail k x idx s := rfl
@[simp] theorem exec_bar2Bind (fn : Nat) (c : Nat) (wbase : Nat) (s : State) :
    exec (.bar2Bind fn c wbase) s = execBar2Bind fn c wbase s := rfl
@[simp] theorem exec_bar2PostedWrite (fn : Nat) (off : Nat) (bytes : List (BitVec 8)) (s : State) :
    exec (.bar2PostedWrite fn off bytes) s = execBar2PostedWrite fn off bytes s := rfl
@[simp] theorem exec_bar2Read (fn : Nat) (off : Nat) (len : Nat) (s : State) :
    exec (.bar2Read fn off len) s = execBar2Read fn off len s := rfl
@[simp] theorem exec_peerAccessArrive (l : Nat) (rctx : Nat) (c : Nat) (va : Nat) (len : Nat) (write : Bool) (bytes : List (BitVec 8)) (s : State) :
    exec (.peerAccessArrive l rctx c va len write bytes) s = execPeerAccessArrive l rctx c va len write bytes s := rfl
@[simp] theorem exec_qpDoorbell (port : Nat) (qp : Nat) (s : State) :
    exec (.qpDoorbell port qp) s = execQpDoorbell port qp s := rfl
@[simp] theorem exec_send (port : Nat) (qp : Nat) (s : State) :
    exec (.send port qp) s = execSend port qp s := rfl
@[simp] theorem exec_sendWithImmediate (port : Nat) (qp : Nat) (s : State) :
    exec (.sendWithImmediate port qp) s = execSendWithImmediate port qp s := rfl
@[simp] theorem exec_rdmaWrite (port : Nat) (qp : Nat) (s : State) :
    exec (.rdmaWrite port qp) s = execRdmaWrite port qp s := rfl
@[simp] theorem exec_rdmaWriteWithImmediate (port : Nat) (qp : Nat) (s : State) :
    exec (.rdmaWriteWithImmediate port qp) s = execRdmaWriteWithImmediate port qp s := rfl
@[simp] theorem exec_rdmaRead (port : Nat) (qp : Nat) (s : State) :
    exec (.rdmaRead port qp) s = execRdmaRead port qp s := rfl
@[simp] theorem exec_sendEntryBadOp (port : Nat) (qp : Nat) (s : State) :
    exec (.sendEntryBadOp port qp) s = execSendEntryBadOp port qp s := rfl
@[simp] theorem exec_incomingRdmaAccess (port : Nat) (key : Nat) (va : Nat) (len : Nat) (write : Bool) (bytes : List (BitVec 8)) (s : State) :
    exec (.incomingRdmaAccess port key va len write bytes) s = execIncomingRdmaAccess port key va len write bytes s := rfl
@[simp] theorem exec_receiveConsume (port : Nat) (qp : Nat) (op : Nat) (imm : BitVec 32) (bytes : List (BitVec 8)) (s : State) :
    exec (.receiveConsume port qp op imm bytes) s = execReceiveConsume port qp op imm bytes s := rfl
@[simp] theorem exec_qpRetriesExhausted (port : Nat) (qp : Nat) (s : State) :
    exec (.qpRetriesExhausted port qp) s = execQpRetriesExhausted port qp s := rfl
@[simp] theorem exec_getVersion (s : State) :
    exec (.getVersion) s = execGetVersion s := rfl
@[simp] theorem exec_getCapabilities (s : State) :
    exec (.getCapabilities) s = execGetCapabilities s := rfl
@[simp] theorem exec_negotiateAlgorithms (offered : Bool) (s : State) :
    exec (.negotiateAlgorithms offered) s = execNegotiateAlgorithms offered s := rfl
@[simp] theorem exec_getDigests (s : State) :
    exec (.getDigests) s = execGetDigests s := rfl
@[simp] theorem exec_getCertificate (slot : Nat) (s : State) :
    exec (.getCertificate slot) s = execGetCertificate slot s := rfl
@[simp] theorem exec_challenge (s : State) :
    exec (.challenge) s = execChallenge s := rfl
@[simp] theorem exec_getMeasurements (signed : Bool) (s : State) :
    exec (.getMeasurements signed) s = execGetMeasurements signed s := rfl
@[simp] theorem exec_keyExchange (s : State) :
    exec (.keyExchange) s = execKeyExchange s := rfl
@[simp] theorem exec_finish (s : State) :
    exec (.finish) s = execFinish s := rfl
@[simp] theorem exec_keyUpdate (s : State) :
    exec (.keyUpdate) s = execKeyUpdate s := rfl
@[simp] theorem exec_heartbeat (s : State) :
    exec (.heartbeat) s = execHeartbeat s := rfl
@[simp] theorem exec_endSession (s : State) :
    exec (.endSession) s = execEndSession s := rfl
@[simp] theorem exec_measurementExtend (idx : Nat) (component : List (BitVec 8)) (s : State) :
    exec (.measurementExtend idx component) s = execMeasurementExtend idx component s := rfl
@[simp] theorem exec_zmiReadTopology (s : State) :
    exec (.zmiReadTopology) s = execZmiReadTopology s := rfl
@[simp] theorem exec_zmiReadHealth (s : State) :
    exec (.zmiReadHealth) s = execZmiReadHealth s := rfl
@[simp] theorem exec_zmiSetDraining (c : Nat) (s : State) :
    exec (.zmiSetDraining c) s = execZmiSetDraining c s := rfl
@[simp] theorem exec_zmiClearDraining (c : Nat) (s : State) :
    exec (.zmiClearDraining c) s = execZmiClearDraining c s := rfl
@[simp] theorem exec_zmiSetPartDraining (s : State) :
    exec (.zmiSetPartDraining) s = execZmiSetPartDraining s := rfl
@[simp] theorem exec_zmiReadFaultLog (c : Nat) (s : State) :
    exec (.zmiReadFaultLog c) s = execZmiReadFaultLog c s := rfl
@[simp] theorem exec_zmiReadPlotMap (s : State) :
    exec (.zmiReadPlotMap) s = execZmiReadPlotMap s := rfl
@[simp] theorem exec_zmiReadVacateAudit (s : State) :
    exec (.zmiReadVacateAudit) s = execZmiReadVacateAudit s := rfl
@[simp] theorem exec_zmiReadUnitCounters (s : State) :
    exec (.zmiReadUnitCounters) s = execZmiReadUnitCounters s := rfl
@[simp] theorem exec_zmiReadRdThresholds (s : State) :
    exec (.zmiReadRdThresholds) s = execZmiReadRdThresholds s := rfl
@[simp] theorem exec_zmiSnapshotRefresh (s : State) :
    exec (.zmiSnapshotRefresh) s = execZmiSnapshotRefresh s := rfl
@[simp] theorem exec_debuggerStopRequest (k : Nat) (t : Nat) (s : State) :
    exec (.debuggerStopRequest k t) s = execDebuggerStopRequest k t s := rfl
@[simp] theorem exec_contextWideStop (c : Nat) (s : State) :
    exec (.contextWideStop c) s = execContextWideStop c s := rfl
@[simp] theorem exec_debuggerResume (k : Nat) (t : Nat) (s : State) :
    exec (.debuggerResume k t) s = execDebuggerResume k t s := rfl
@[simp] theorem exec_debuggerSingleStep (k : Nat) (t : Nat) (p : Nat) (s : State) :
    exec (.debuggerSingleStep k t p) s = execDebuggerSingleStep k t p s := rfl
@[simp] theorem exec_debuggerWrite (k : Nat) (t : Nat) (target : DbgTarget) (value : BitVec 64) (s : State) :
    exec (.debuggerWrite k t target value) s = execDebuggerWrite k t target value s := rfl
@[simp] theorem exec_breakpointProgram (k : Nat) (idx : Nat) (va : BitVec 64) (s : State) :
    exec (.breakpointProgram k idx va) s = execBreakpointProgram k idx va s := rfl
@[simp] theorem exec_debuggerDetach (c : Nat) (s : State) :
    exec (.debuggerDetach c) s = execDebuggerDetach c s := rfl
@[simp] theorem exec_debuggerAttach (c : Nat) (s : State) :
    exec (.debuggerAttach c) s = execDebuggerAttach c s := rfl
@[simp] theorem exec_traceWriteFault (k : Nat) (s : State) :
    exec (.traceWriteFault k) s = execTraceWriteFault k s := rfl
@[simp] theorem exec_queueRegister (fn : Nat) (q : Nat) (c : Nat) (desc : Nat) (s : State) :
    exec (.queueRegister fn q c desc) s = execQueueRegister fn q c desc s := rfl
@[simp] theorem exec_recordQueueRegister (c : Nat) (desc : Nat) (s : State) :
    exec (.recordQueueRegister c desc) s = execRecordQueueRegister c desc s := rfl
@[simp] theorem exec_portTableWrite (c : Nat) (idx : Nat) (w0 : BitVec 64) (w1 : BitVec 64) (s : State) :
    exec (.portTableWrite c idx w0 w1) s = execPortTableWrite c idx w0 w1 s := rfl
@[simp] theorem exec_memoryRegionRegister (port : Nat) (key : Nat) (c : Nat) (va : Nat) (len : Nat) (r : Bool) (w : Bool) (s : State) :
    exec (.memoryRegionRegister port key c va len r w) s = execMemoryRegionRegister port key c va len r w s := rfl
@[simp] theorem exec_queuePairSetup (port : Nat) (qp : Nat) (c : Nat) (sring : Nat) (ssize : Nat) (rring : Nat) (rsize : Nat) (cring : Nat) (csize : Nat) (db : Nat) (s : State) :
    exec (.queuePairSetup port qp c sring ssize rring rsize cring csize db) s = execQueuePairSetup port qp c sring ssize rring rsize cring csize db s := rfl
@[simp] theorem exec_sendEntryComplete (port : Nat) (qp : Nat) (status : Nat) (bytes : List (BitVec 8)) (s : State) :
    exec (.sendEntryComplete port qp status bytes) s = execSendEntryComplete port qp status bytes s := rfl
@[simp] theorem exec_coreGating (s : State) :
    exec (.coreGating) s = execCoreGating s := rfl

end Sys2Proof.Machine
end

