-- ==== Sys2Proof/Laws/State.lean ====
section
/-! SUPPORT. What the named updates of the state leave alone: one lemma per field per update, true by unfolding. -/

namespace Sys2Proof.Machine

set_option Elab.async false

/-! ### `updCore` -/

@[simp] theorem State.updCore_ctxs (s : State) (k : Nat) (f : Core → Core) :
    (s.updCore k f).ctxs = s.ctxs := rfl
@[simp] theorem State.updCore_mem (s : State) (k : Nat) (f : Core → Core) :
    (s.updCore k f).mem = s.mem := rfl
@[simp] theorem State.updCore_scratch (s : State) (k : Nat) (f : Core → Core) :
    (s.updCore k f).scratch = s.scratch := rfl
@[simp] theorem State.updCore_plots (s : State) (k : Nat) (f : Core → Core) :
    (s.updCore k f).plots = s.plots := rfl
@[simp] theorem State.updCore_lost (s : State) (k : Nat) (f : Core → Core) :
    (s.updCore k f).lost = s.lost := rfl
@[simp] theorem State.updCore_healed (s : State) (k : Nat) (f : Core → Core) :
    (s.updCore k f).healed = s.healed := rfl
@[simp] theorem State.updCore_failedCh (s : State) (k : Nat) (f : Core → Core) :
    (s.updCore k f).failedCh = s.failedCh := rfl
@[simp] theorem State.updCore_corrected (s : State) (k : Nat) (f : Core → Core) :
    (s.updCore k f).corrected = s.corrected := rfl
@[simp] theorem State.updCore_trackers (s : State) (k : Nat) (f : Core → Core) :
    (s.updCore k f).trackers = s.trackers := rfl
@[simp] theorem State.updCore_deferred (s : State) (k : Nat) (f : Core → Core) :
    (s.updCore k f).deferred = s.deferred := rfl
@[simp] theorem State.updCore_mitThresh (s : State) (k : Nat) (f : Core → Core) :
    (s.updCore k f).mitThresh = s.mitThresh := rfl
@[simp] theorem State.updCore_thrThresh (s : State) (k : Nat) (f : Core → Core) :
    (s.updCore k f).thrThresh = s.thrThresh := rfl
@[simp] theorem State.updCore_evBase (s : State) (k : Nat) (f : Core → Core) :
    (s.updCore k f).evBase = s.evBase := rfl
@[simp] theorem State.updCore_evSize (s : State) (k : Nat) (f : Core → Core) :
    (s.updCore k f).evSize = s.evSize := rfl
@[simp] theorem State.updCore_evHead (s : State) (k : Nat) (f : Core → Core) :
    (s.updCore k f).evHead = s.evHead := rfl
@[simp] theorem State.updCore_rdslots (s : State) (k : Nat) (f : Core → Core) :
    (s.updCore k f).rdslots = s.rdslots := rfl
@[simp] theorem State.updCore_calendar (s : State) (k : Nat) (f : Core → Core) :
    (s.updCore k f).calendar = s.calendar := rfl
@[simp] theorem State.updCore_calReqs (s : State) (k : Nat) (f : Core → Core) :
    (s.updCore k f).calReqs = s.calReqs := rfl
@[simp] theorem State.updCore_queues (s : State) (k : Nat) (f : Core → Core) :
    (s.updCore k f).queues = s.queues := rfl
@[simp] theorem State.updCore_vfSlots (s : State) (k : Nat) (f : Core → Core) :
    (s.updCore k f).vfSlots = s.vfSlots := rfl
@[simp] theorem State.updCore_wake (s : State) (k : Nat) (f : Core → Core) :
    (s.updCore k f).wake = s.wake := rfl
@[simp] theorem State.updCore_gated (s : State) (k : Nat) (f : Core → Core) :
    (s.updCore k f).gated = s.gated := rfl
@[simp] theorem State.updCore_frames (s : State) (k : Nat) (f : Core → Core) :
    (s.updCore k f).frames = s.frames := rfl
@[simp] theorem State.updCore_frameDrops (s : State) (k : Nat) (f : Core → Core) :
    (s.updCore k f).frameDrops = s.frameDrops := rfl
@[simp] theorem State.updCore_links (s : State) (k : Nat) (f : Core → Core) :
    (s.updCore k f).links = s.links := rfl
@[simp] theorem State.updCore_bar2 (s : State) (k : Nat) (f : Core → Core) :
    (s.updCore k f).bar2 = s.bar2 := rfl
@[simp] theorem State.updCore_bar2Size (s : State) (k : Nat) (f : Core → Core) :
    (s.updCore k f).bar2Size = s.bar2Size := rfl
@[simp] theorem State.updCore_regions (s : State) (k : Nat) (f : Core → Core) :
    (s.updCore k f).regions = s.regions := rfl
@[simp] theorem State.updCore_qps (s : State) (k : Nat) (f : Core → Core) :
    (s.updCore k f).qps = s.qps := rfl
@[simp] theorem State.updCore_meas (s : State) (k : Nat) (f : Core → Core) :
    (s.updCore k f).meas = s.meas := rfl
@[simp] theorem State.updCore_spdm (s : State) (k : Nat) (f : Core → Core) :
    (s.updCore k f).spdm = s.spdm := rfl
@[simp] theorem State.updCore_snapshot (s : State) (k : Nat) (f : Core → Core) :
    (s.updCore k f).snapshot = s.snapshot := rfl
@[simp] theorem State.updCore_partDraining (s : State) (k : Nat) (f : Core → Core) :
    (s.updCore k f).partDraining = s.partDraining := rfl
@[simp] theorem State.updCore_peerBinds (s : State) (k : Nat) (f : Core → Core) :
    (s.updCore k f).peerBinds = s.peerBinds := rfl
@[simp] theorem State.updCore_rk (s : State) (k : Nat) (f : Core → Core) :
    (s.updCore k f).rk = s.rk := rfl
@[simp] theorem State.updCore_rebootFails (s : State) (k : Nat) (f : Core → Core) :
    (s.updCore k f).rebootFails = s.rebootFails := rfl
@[simp] theorem State.updCore_rkRoot (s : State) (k : Nat) (f : Core → Core) :
    (s.updCore k f).rkRoot = s.rkRoot := rfl
@[simp] theorem State.updCore_outputs (s : State) (k : Nat) (f : Core → Core) :
    (s.updCore k f).outputs = s.outputs := rfl
@[simp] theorem State.updCore_tstamp (s : State) (k : Nat) (f : Core → Core) :
    (s.updCore k f).tstamp = s.tstamp := rfl
@[simp] theorem State.updCore_ticks (s : State) (k : Nat) (f : Core → Core) :
    (s.updCore k f).ticks = s.ticks := rfl
@[simp] theorem State.updCore_fresh (s : State) (k : Nat) (f : Core → Core) :
    (s.updCore k f).fresh = s.fresh := rfl
@[simp] theorem State.updCore_schedule (s : State) (k : Nat) (f : Core → Core) :
    (s.updCore k f).schedule = s.schedule := rfl
@[simp] theorem State.updCore_issueQ (s : State) (k : Nat) (f : Core → Core) :
    (s.updCore k f).issueQ = s.issueQ := rfl
@[simp] theorem State.updCore_cur (s : State) (k : Nat) (f : Core → Core) :
    (s.updCore k f).cur = s.cur := rfl
@[simp] theorem State.updCore_turn (s : State) (k : Nat) (f : Core → Core) :
    (s.updCore k f).turn = s.turn := rfl
@[simp] theorem State.updCore_dieTlb (s : State) (k : Nat) (f : Core → Core) :
    (s.updCore k f).dieTlb = s.dieTlb := rfl
@[simp] theorem State.updCore_frameHolds (s : State) (k : Nat) (f : Core → Core) :
    (s.updCore k f).frameHolds = s.frameHolds := rfl
@[simp] theorem State.updCore_keys (s : State) (k : Nat) (f : Core → Core) :
    (s.updCore k f).keys = s.keys := rfl
@[simp] theorem State.updCore_nextKey (s : State) (k : Nat) (f : Core → Core) :
    (s.updCore k f).nextKey = s.nextKey := rfl
@[simp] theorem State.updCore_keyed (s : State) (k : Nat) (f : Core → Core) :
    (s.updCore k f).keyed = s.keyed := rfl
@[simp] theorem State.updCore_portOld (s : State) (k : Nat) (f : Core → Core) :
    (s.updCore k f).portOld = s.portOld := rfl
@[simp] theorem State.updCore_posted (s : State) (k : Nat) (f : Core → Core) :
    (s.updCore k f).posted = s.posted := rfl
@[simp] theorem State.updCore_unitVf (s : State) (k : Nat) (f : Core → Core) :
    (s.updCore k f).unitVf = s.unitVf := rfl
@[simp] theorem State.updCore_unitCnt (s : State) (k : Nat) (f : Core → Core) :
    (s.updCore k f).unitCnt = s.unitCnt := rfl
@[simp] theorem State.updCore_calUsed (s : State) (k : Nat) (f : Core → Core) :
    (s.updCore k f).calUsed = s.calUsed := rfl
@[simp] theorem State.updCore_calLast (s : State) (k : Nat) (f : Core → Core) :
    (s.updCore k f).calLast = s.calLast := rfl
@[simp] theorem State.updCore_mgmtGated (s : State) (k : Nat) (f : Core → Core) :
    (s.updCore k f).mgmtGated = s.mgmtGated := rfl
@[simp] theorem State.updCore_sweep (s : State) (k : Nat) (f : Core → Core) :
    (s.updCore k f).sweep = s.sweep := rfl
@[simp] theorem State.updCore_calGot (s : State) (k : Nat) (f : Core → Core) :
    (s.updCore k f).calGot = s.calGot := rfl
@[simp] theorem State.updCore_pcie6 (s : State) (k : Nat) (f : Core → Core) :
    (s.updCore k f).pcie6 = s.pcie6 := rfl
@[simp] theorem State.updCore_hdm (s : State) (k : Nat) (f : Core → Core) :
    (s.updCore k f).hdm = s.hdm := rfl
@[simp] theorem State.updCore_bar4 (s : State) (k : Nat) (f : Core → Core) :
    (s.updCore k f).bar4 = s.bar4 := rfl

/-! ### `updCtx` -/

@[simp] theorem State.updCtx_cores (s : State) (c : Nat) (f : Ctx → Ctx) :
    (s.updCtx c f).cores = s.cores := rfl
@[simp] theorem State.updCtx_mem (s : State) (c : Nat) (f : Ctx → Ctx) :
    (s.updCtx c f).mem = s.mem := rfl
@[simp] theorem State.updCtx_scratch (s : State) (c : Nat) (f : Ctx → Ctx) :
    (s.updCtx c f).scratch = s.scratch := rfl
@[simp] theorem State.updCtx_plots (s : State) (c : Nat) (f : Ctx → Ctx) :
    (s.updCtx c f).plots = s.plots := rfl
@[simp] theorem State.updCtx_lost (s : State) (c : Nat) (f : Ctx → Ctx) :
    (s.updCtx c f).lost = s.lost := rfl
@[simp] theorem State.updCtx_healed (s : State) (c : Nat) (f : Ctx → Ctx) :
    (s.updCtx c f).healed = s.healed := rfl
@[simp] theorem State.updCtx_failedCh (s : State) (c : Nat) (f : Ctx → Ctx) :
    (s.updCtx c f).failedCh = s.failedCh := rfl
@[simp] theorem State.updCtx_corrected (s : State) (c : Nat) (f : Ctx → Ctx) :
    (s.updCtx c f).corrected = s.corrected := rfl
@[simp] theorem State.updCtx_trackers (s : State) (c : Nat) (f : Ctx → Ctx) :
    (s.updCtx c f).trackers = s.trackers := rfl
@[simp] theorem State.updCtx_deferred (s : State) (c : Nat) (f : Ctx → Ctx) :
    (s.updCtx c f).deferred = s.deferred := rfl
@[simp] theorem State.updCtx_mitThresh (s : State) (c : Nat) (f : Ctx → Ctx) :
    (s.updCtx c f).mitThresh = s.mitThresh := rfl
@[simp] theorem State.updCtx_thrThresh (s : State) (c : Nat) (f : Ctx → Ctx) :
    (s.updCtx c f).thrThresh = s.thrThresh := rfl
@[simp] theorem State.updCtx_evBase (s : State) (c : Nat) (f : Ctx → Ctx) :
    (s.updCtx c f).evBase = s.evBase := rfl
@[simp] theorem State.updCtx_evSize (s : State) (c : Nat) (f : Ctx → Ctx) :
    (s.updCtx c f).evSize = s.evSize := rfl
@[simp] theorem State.updCtx_evHead (s : State) (c : Nat) (f : Ctx → Ctx) :
    (s.updCtx c f).evHead = s.evHead := rfl
@[simp] theorem State.updCtx_rdslots (s : State) (c : Nat) (f : Ctx → Ctx) :
    (s.updCtx c f).rdslots = s.rdslots := rfl
@[simp] theorem State.updCtx_calendar (s : State) (c : Nat) (f : Ctx → Ctx) :
    (s.updCtx c f).calendar = s.calendar := rfl
@[simp] theorem State.updCtx_calReqs (s : State) (c : Nat) (f : Ctx → Ctx) :
    (s.updCtx c f).calReqs = s.calReqs := rfl
@[simp] theorem State.updCtx_queues (s : State) (c : Nat) (f : Ctx → Ctx) :
    (s.updCtx c f).queues = s.queues := rfl
@[simp] theorem State.updCtx_vfSlots (s : State) (c : Nat) (f : Ctx → Ctx) :
    (s.updCtx c f).vfSlots = s.vfSlots := rfl
@[simp] theorem State.updCtx_wake (s : State) (c : Nat) (f : Ctx → Ctx) :
    (s.updCtx c f).wake = s.wake := rfl
@[simp] theorem State.updCtx_gated (s : State) (c : Nat) (f : Ctx → Ctx) :
    (s.updCtx c f).gated = s.gated := rfl
@[simp] theorem State.updCtx_frames (s : State) (c : Nat) (f : Ctx → Ctx) :
    (s.updCtx c f).frames = s.frames := rfl
@[simp] theorem State.updCtx_frameDrops (s : State) (c : Nat) (f : Ctx → Ctx) :
    (s.updCtx c f).frameDrops = s.frameDrops := rfl
@[simp] theorem State.updCtx_links (s : State) (c : Nat) (f : Ctx → Ctx) :
    (s.updCtx c f).links = s.links := rfl
@[simp] theorem State.updCtx_bar2 (s : State) (c : Nat) (f : Ctx → Ctx) :
    (s.updCtx c f).bar2 = s.bar2 := rfl
@[simp] theorem State.updCtx_bar2Size (s : State) (c : Nat) (f : Ctx → Ctx) :
    (s.updCtx c f).bar2Size = s.bar2Size := rfl
@[simp] theorem State.updCtx_regions (s : State) (c : Nat) (f : Ctx → Ctx) :
    (s.updCtx c f).regions = s.regions := rfl
@[simp] theorem State.updCtx_qps (s : State) (c : Nat) (f : Ctx → Ctx) :
    (s.updCtx c f).qps = s.qps := rfl
@[simp] theorem State.updCtx_meas (s : State) (c : Nat) (f : Ctx → Ctx) :
    (s.updCtx c f).meas = s.meas := rfl
@[simp] theorem State.updCtx_spdm (s : State) (c : Nat) (f : Ctx → Ctx) :
    (s.updCtx c f).spdm = s.spdm := rfl
@[simp] theorem State.updCtx_snapshot (s : State) (c : Nat) (f : Ctx → Ctx) :
    (s.updCtx c f).snapshot = s.snapshot := rfl
@[simp] theorem State.updCtx_partDraining (s : State) (c : Nat) (f : Ctx → Ctx) :
    (s.updCtx c f).partDraining = s.partDraining := rfl
@[simp] theorem State.updCtx_peerBinds (s : State) (c : Nat) (f : Ctx → Ctx) :
    (s.updCtx c f).peerBinds = s.peerBinds := rfl
@[simp] theorem State.updCtx_rk (s : State) (c : Nat) (f : Ctx → Ctx) :
    (s.updCtx c f).rk = s.rk := rfl
@[simp] theorem State.updCtx_rebootFails (s : State) (c : Nat) (f : Ctx → Ctx) :
    (s.updCtx c f).rebootFails = s.rebootFails := rfl
@[simp] theorem State.updCtx_rkRoot (s : State) (c : Nat) (f : Ctx → Ctx) :
    (s.updCtx c f).rkRoot = s.rkRoot := rfl
@[simp] theorem State.updCtx_outputs (s : State) (c : Nat) (f : Ctx → Ctx) :
    (s.updCtx c f).outputs = s.outputs := rfl
@[simp] theorem State.updCtx_tstamp (s : State) (c : Nat) (f : Ctx → Ctx) :
    (s.updCtx c f).tstamp = s.tstamp := rfl
@[simp] theorem State.updCtx_ticks (s : State) (c : Nat) (f : Ctx → Ctx) :
    (s.updCtx c f).ticks = s.ticks := rfl
@[simp] theorem State.updCtx_fresh (s : State) (c : Nat) (f : Ctx → Ctx) :
    (s.updCtx c f).fresh = s.fresh := rfl
@[simp] theorem State.updCtx_schedule (s : State) (c : Nat) (f : Ctx → Ctx) :
    (s.updCtx c f).schedule = s.schedule := rfl
@[simp] theorem State.updCtx_issueQ (s : State) (c : Nat) (f : Ctx → Ctx) :
    (s.updCtx c f).issueQ = s.issueQ := rfl
@[simp] theorem State.updCtx_cur (s : State) (c : Nat) (f : Ctx → Ctx) :
    (s.updCtx c f).cur = s.cur := rfl
@[simp] theorem State.updCtx_turn (s : State) (c : Nat) (f : Ctx → Ctx) :
    (s.updCtx c f).turn = s.turn := rfl
@[simp] theorem State.updCtx_dieTlb (s : State) (c : Nat) (f : Ctx → Ctx) :
    (s.updCtx c f).dieTlb = s.dieTlb := rfl
@[simp] theorem State.updCtx_frameHolds (s : State) (c : Nat) (f : Ctx → Ctx) :
    (s.updCtx c f).frameHolds = s.frameHolds := rfl
@[simp] theorem State.updCtx_keys (s : State) (c : Nat) (f : Ctx → Ctx) :
    (s.updCtx c f).keys = s.keys := rfl
@[simp] theorem State.updCtx_nextKey (s : State) (c : Nat) (f : Ctx → Ctx) :
    (s.updCtx c f).nextKey = s.nextKey := rfl
@[simp] theorem State.updCtx_keyed (s : State) (c : Nat) (f : Ctx → Ctx) :
    (s.updCtx c f).keyed = s.keyed := rfl
@[simp] theorem State.updCtx_portOld (s : State) (c : Nat) (f : Ctx → Ctx) :
    (s.updCtx c f).portOld = s.portOld := rfl
@[simp] theorem State.updCtx_posted (s : State) (c : Nat) (f : Ctx → Ctx) :
    (s.updCtx c f).posted = s.posted := rfl
@[simp] theorem State.updCtx_unitVf (s : State) (c : Nat) (f : Ctx → Ctx) :
    (s.updCtx c f).unitVf = s.unitVf := rfl
@[simp] theorem State.updCtx_unitCnt (s : State) (c : Nat) (f : Ctx → Ctx) :
    (s.updCtx c f).unitCnt = s.unitCnt := rfl
@[simp] theorem State.updCtx_calUsed (s : State) (c : Nat) (f : Ctx → Ctx) :
    (s.updCtx c f).calUsed = s.calUsed := rfl
@[simp] theorem State.updCtx_calLast (s : State) (c : Nat) (f : Ctx → Ctx) :
    (s.updCtx c f).calLast = s.calLast := rfl
@[simp] theorem State.updCtx_mgmtGated (s : State) (c : Nat) (f : Ctx → Ctx) :
    (s.updCtx c f).mgmtGated = s.mgmtGated := rfl
@[simp] theorem State.updCtx_sweep (s : State) (c : Nat) (f : Ctx → Ctx) :
    (s.updCtx c f).sweep = s.sweep := rfl
@[simp] theorem State.updCtx_calGot (s : State) (c : Nat) (f : Ctx → Ctx) :
    (s.updCtx c f).calGot = s.calGot := rfl
@[simp] theorem State.updCtx_pcie6 (s : State) (c : Nat) (f : Ctx → Ctx) :
    (s.updCtx c f).pcie6 = s.pcie6 := rfl
@[simp] theorem State.updCtx_hdm (s : State) (c : Nat) (f : Ctx → Ctx) :
    (s.updCtx c f).hdm = s.hdm := rfl
@[simp] theorem State.updCtx_bar4 (s : State) (c : Nat) (f : Ctx → Ctx) :
    (s.updCtx c f).bar4 = s.bar4 := rfl

/-! ### `updTeam` -/

@[simp] theorem State.updTeam_ctxs (s : State) (k t : Nat) (f : Team → Team) :
    (s.updTeam k t f).ctxs = s.ctxs := rfl
@[simp] theorem State.updTeam_mem (s : State) (k t : Nat) (f : Team → Team) :
    (s.updTeam k t f).mem = s.mem := rfl
@[simp] theorem State.updTeam_scratch (s : State) (k t : Nat) (f : Team → Team) :
    (s.updTeam k t f).scratch = s.scratch := rfl
@[simp] theorem State.updTeam_plots (s : State) (k t : Nat) (f : Team → Team) :
    (s.updTeam k t f).plots = s.plots := rfl
@[simp] theorem State.updTeam_lost (s : State) (k t : Nat) (f : Team → Team) :
    (s.updTeam k t f).lost = s.lost := rfl
@[simp] theorem State.updTeam_healed (s : State) (k t : Nat) (f : Team → Team) :
    (s.updTeam k t f).healed = s.healed := rfl
@[simp] theorem State.updTeam_failedCh (s : State) (k t : Nat) (f : Team → Team) :
    (s.updTeam k t f).failedCh = s.failedCh := rfl
@[simp] theorem State.updTeam_corrected (s : State) (k t : Nat) (f : Team → Team) :
    (s.updTeam k t f).corrected = s.corrected := rfl
@[simp] theorem State.updTeam_trackers (s : State) (k t : Nat) (f : Team → Team) :
    (s.updTeam k t f).trackers = s.trackers := rfl
@[simp] theorem State.updTeam_deferred (s : State) (k t : Nat) (f : Team → Team) :
    (s.updTeam k t f).deferred = s.deferred := rfl
@[simp] theorem State.updTeam_mitThresh (s : State) (k t : Nat) (f : Team → Team) :
    (s.updTeam k t f).mitThresh = s.mitThresh := rfl
@[simp] theorem State.updTeam_thrThresh (s : State) (k t : Nat) (f : Team → Team) :
    (s.updTeam k t f).thrThresh = s.thrThresh := rfl
@[simp] theorem State.updTeam_evBase (s : State) (k t : Nat) (f : Team → Team) :
    (s.updTeam k t f).evBase = s.evBase := rfl
@[simp] theorem State.updTeam_evSize (s : State) (k t : Nat) (f : Team → Team) :
    (s.updTeam k t f).evSize = s.evSize := rfl
@[simp] theorem State.updTeam_evHead (s : State) (k t : Nat) (f : Team → Team) :
    (s.updTeam k t f).evHead = s.evHead := rfl
@[simp] theorem State.updTeam_rdslots (s : State) (k t : Nat) (f : Team → Team) :
    (s.updTeam k t f).rdslots = s.rdslots := rfl
@[simp] theorem State.updTeam_calendar (s : State) (k t : Nat) (f : Team → Team) :
    (s.updTeam k t f).calendar = s.calendar := rfl
@[simp] theorem State.updTeam_calReqs (s : State) (k t : Nat) (f : Team → Team) :
    (s.updTeam k t f).calReqs = s.calReqs := rfl
@[simp] theorem State.updTeam_queues (s : State) (k t : Nat) (f : Team → Team) :
    (s.updTeam k t f).queues = s.queues := rfl
@[simp] theorem State.updTeam_vfSlots (s : State) (k t : Nat) (f : Team → Team) :
    (s.updTeam k t f).vfSlots = s.vfSlots := rfl
@[simp] theorem State.updTeam_wake (s : State) (k t : Nat) (f : Team → Team) :
    (s.updTeam k t f).wake = s.wake := rfl
@[simp] theorem State.updTeam_gated (s : State) (k t : Nat) (f : Team → Team) :
    (s.updTeam k t f).gated = s.gated := rfl
@[simp] theorem State.updTeam_frames (s : State) (k t : Nat) (f : Team → Team) :
    (s.updTeam k t f).frames = s.frames := rfl
@[simp] theorem State.updTeam_frameDrops (s : State) (k t : Nat) (f : Team → Team) :
    (s.updTeam k t f).frameDrops = s.frameDrops := rfl
@[simp] theorem State.updTeam_links (s : State) (k t : Nat) (f : Team → Team) :
    (s.updTeam k t f).links = s.links := rfl
@[simp] theorem State.updTeam_bar2 (s : State) (k t : Nat) (f : Team → Team) :
    (s.updTeam k t f).bar2 = s.bar2 := rfl
@[simp] theorem State.updTeam_bar2Size (s : State) (k t : Nat) (f : Team → Team) :
    (s.updTeam k t f).bar2Size = s.bar2Size := rfl
@[simp] theorem State.updTeam_regions (s : State) (k t : Nat) (f : Team → Team) :
    (s.updTeam k t f).regions = s.regions := rfl
@[simp] theorem State.updTeam_qps (s : State) (k t : Nat) (f : Team → Team) :
    (s.updTeam k t f).qps = s.qps := rfl
@[simp] theorem State.updTeam_meas (s : State) (k t : Nat) (f : Team → Team) :
    (s.updTeam k t f).meas = s.meas := rfl
@[simp] theorem State.updTeam_spdm (s : State) (k t : Nat) (f : Team → Team) :
    (s.updTeam k t f).spdm = s.spdm := rfl
@[simp] theorem State.updTeam_snapshot (s : State) (k t : Nat) (f : Team → Team) :
    (s.updTeam k t f).snapshot = s.snapshot := rfl
@[simp] theorem State.updTeam_partDraining (s : State) (k t : Nat) (f : Team → Team) :
    (s.updTeam k t f).partDraining = s.partDraining := rfl
@[simp] theorem State.updTeam_peerBinds (s : State) (k t : Nat) (f : Team → Team) :
    (s.updTeam k t f).peerBinds = s.peerBinds := rfl
@[simp] theorem State.updTeam_rk (s : State) (k t : Nat) (f : Team → Team) :
    (s.updTeam k t f).rk = s.rk := rfl
@[simp] theorem State.updTeam_rebootFails (s : State) (k t : Nat) (f : Team → Team) :
    (s.updTeam k t f).rebootFails = s.rebootFails := rfl
@[simp] theorem State.updTeam_rkRoot (s : State) (k t : Nat) (f : Team → Team) :
    (s.updTeam k t f).rkRoot = s.rkRoot := rfl
@[simp] theorem State.updTeam_outputs (s : State) (k t : Nat) (f : Team → Team) :
    (s.updTeam k t f).outputs = s.outputs := rfl
@[simp] theorem State.updTeam_tstamp (s : State) (k t : Nat) (f : Team → Team) :
    (s.updTeam k t f).tstamp = s.tstamp := rfl
@[simp] theorem State.updTeam_ticks (s : State) (k t : Nat) (f : Team → Team) :
    (s.updTeam k t f).ticks = s.ticks := rfl
@[simp] theorem State.updTeam_fresh (s : State) (k t : Nat) (f : Team → Team) :
    (s.updTeam k t f).fresh = s.fresh := rfl
@[simp] theorem State.updTeam_schedule (s : State) (k t : Nat) (f : Team → Team) :
    (s.updTeam k t f).schedule = s.schedule := rfl
@[simp] theorem State.updTeam_issueQ (s : State) (k t : Nat) (f : Team → Team) :
    (s.updTeam k t f).issueQ = s.issueQ := rfl
@[simp] theorem State.updTeam_cur (s : State) (k t : Nat) (f : Team → Team) :
    (s.updTeam k t f).cur = s.cur := rfl
@[simp] theorem State.updTeam_turn (s : State) (k t : Nat) (f : Team → Team) :
    (s.updTeam k t f).turn = s.turn := rfl
@[simp] theorem State.updTeam_dieTlb (s : State) (k t : Nat) (f : Team → Team) :
    (s.updTeam k t f).dieTlb = s.dieTlb := rfl
@[simp] theorem State.updTeam_frameHolds (s : State) (k t : Nat) (f : Team → Team) :
    (s.updTeam k t f).frameHolds = s.frameHolds := rfl
@[simp] theorem State.updTeam_keys (s : State) (k t : Nat) (f : Team → Team) :
    (s.updTeam k t f).keys = s.keys := rfl
@[simp] theorem State.updTeam_nextKey (s : State) (k t : Nat) (f : Team → Team) :
    (s.updTeam k t f).nextKey = s.nextKey := rfl
@[simp] theorem State.updTeam_keyed (s : State) (k t : Nat) (f : Team → Team) :
    (s.updTeam k t f).keyed = s.keyed := rfl
@[simp] theorem State.updTeam_portOld (s : State) (k t : Nat) (f : Team → Team) :
    (s.updTeam k t f).portOld = s.portOld := rfl
@[simp] theorem State.updTeam_posted (s : State) (k t : Nat) (f : Team → Team) :
    (s.updTeam k t f).posted = s.posted := rfl
@[simp] theorem State.updTeam_unitVf (s : State) (k t : Nat) (f : Team → Team) :
    (s.updTeam k t f).unitVf = s.unitVf := rfl
@[simp] theorem State.updTeam_unitCnt (s : State) (k t : Nat) (f : Team → Team) :
    (s.updTeam k t f).unitCnt = s.unitCnt := rfl
@[simp] theorem State.updTeam_calUsed (s : State) (k t : Nat) (f : Team → Team) :
    (s.updTeam k t f).calUsed = s.calUsed := rfl
@[simp] theorem State.updTeam_calLast (s : State) (k t : Nat) (f : Team → Team) :
    (s.updTeam k t f).calLast = s.calLast := rfl
@[simp] theorem State.updTeam_mgmtGated (s : State) (k t : Nat) (f : Team → Team) :
    (s.updTeam k t f).mgmtGated = s.mgmtGated := rfl
@[simp] theorem State.updTeam_sweep (s : State) (k t : Nat) (f : Team → Team) :
    (s.updTeam k t f).sweep = s.sweep := rfl
@[simp] theorem State.updTeam_calGot (s : State) (k t : Nat) (f : Team → Team) :
    (s.updTeam k t f).calGot = s.calGot := rfl
@[simp] theorem State.updTeam_pcie6 (s : State) (k t : Nat) (f : Team → Team) :
    (s.updTeam k t f).pcie6 = s.pcie6 := rfl
@[simp] theorem State.updTeam_hdm (s : State) (k t : Nat) (f : Team → Team) :
    (s.updTeam k t f).hdm = s.hdm := rfl
@[simp] theorem State.updTeam_bar4 (s : State) (k t : Nat) (f : Team → Team) :
    (s.updTeam k t f).bar4 = s.bar4 := rfl

/-! ### `updSplit` -/

@[simp] theorem State.updSplit_ctxs (s : State) (k t p : Nat) (f : Split → Split) :
    (s.updSplit k t p f).ctxs = s.ctxs := rfl
@[simp] theorem State.updSplit_mem (s : State) (k t p : Nat) (f : Split → Split) :
    (s.updSplit k t p f).mem = s.mem := rfl
@[simp] theorem State.updSplit_scratch (s : State) (k t p : Nat) (f : Split → Split) :
    (s.updSplit k t p f).scratch = s.scratch := rfl
@[simp] theorem State.updSplit_plots (s : State) (k t p : Nat) (f : Split → Split) :
    (s.updSplit k t p f).plots = s.plots := rfl
@[simp] theorem State.updSplit_lost (s : State) (k t p : Nat) (f : Split → Split) :
    (s.updSplit k t p f).lost = s.lost := rfl
@[simp] theorem State.updSplit_healed (s : State) (k t p : Nat) (f : Split → Split) :
    (s.updSplit k t p f).healed = s.healed := rfl
@[simp] theorem State.updSplit_failedCh (s : State) (k t p : Nat) (f : Split → Split) :
    (s.updSplit k t p f).failedCh = s.failedCh := rfl
@[simp] theorem State.updSplit_corrected (s : State) (k t p : Nat) (f : Split → Split) :
    (s.updSplit k t p f).corrected = s.corrected := rfl
@[simp] theorem State.updSplit_trackers (s : State) (k t p : Nat) (f : Split → Split) :
    (s.updSplit k t p f).trackers = s.trackers := rfl
@[simp] theorem State.updSplit_deferred (s : State) (k t p : Nat) (f : Split → Split) :
    (s.updSplit k t p f).deferred = s.deferred := rfl
@[simp] theorem State.updSplit_mitThresh (s : State) (k t p : Nat) (f : Split → Split) :
    (s.updSplit k t p f).mitThresh = s.mitThresh := rfl
@[simp] theorem State.updSplit_thrThresh (s : State) (k t p : Nat) (f : Split → Split) :
    (s.updSplit k t p f).thrThresh = s.thrThresh := rfl
@[simp] theorem State.updSplit_evBase (s : State) (k t p : Nat) (f : Split → Split) :
    (s.updSplit k t p f).evBase = s.evBase := rfl
@[simp] theorem State.updSplit_evSize (s : State) (k t p : Nat) (f : Split → Split) :
    (s.updSplit k t p f).evSize = s.evSize := rfl
@[simp] theorem State.updSplit_evHead (s : State) (k t p : Nat) (f : Split → Split) :
    (s.updSplit k t p f).evHead = s.evHead := rfl
@[simp] theorem State.updSplit_rdslots (s : State) (k t p : Nat) (f : Split → Split) :
    (s.updSplit k t p f).rdslots = s.rdslots := rfl
@[simp] theorem State.updSplit_calendar (s : State) (k t p : Nat) (f : Split → Split) :
    (s.updSplit k t p f).calendar = s.calendar := rfl
@[simp] theorem State.updSplit_calReqs (s : State) (k t p : Nat) (f : Split → Split) :
    (s.updSplit k t p f).calReqs = s.calReqs := rfl
@[simp] theorem State.updSplit_queues (s : State) (k t p : Nat) (f : Split → Split) :
    (s.updSplit k t p f).queues = s.queues := rfl
@[simp] theorem State.updSplit_vfSlots (s : State) (k t p : Nat) (f : Split → Split) :
    (s.updSplit k t p f).vfSlots = s.vfSlots := rfl
@[simp] theorem State.updSplit_wake (s : State) (k t p : Nat) (f : Split → Split) :
    (s.updSplit k t p f).wake = s.wake := rfl
@[simp] theorem State.updSplit_gated (s : State) (k t p : Nat) (f : Split → Split) :
    (s.updSplit k t p f).gated = s.gated := rfl
@[simp] theorem State.updSplit_frames (s : State) (k t p : Nat) (f : Split → Split) :
    (s.updSplit k t p f).frames = s.frames := rfl
@[simp] theorem State.updSplit_frameDrops (s : State) (k t p : Nat) (f : Split → Split) :
    (s.updSplit k t p f).frameDrops = s.frameDrops := rfl
@[simp] theorem State.updSplit_links (s : State) (k t p : Nat) (f : Split → Split) :
    (s.updSplit k t p f).links = s.links := rfl
@[simp] theorem State.updSplit_bar2 (s : State) (k t p : Nat) (f : Split → Split) :
    (s.updSplit k t p f).bar2 = s.bar2 := rfl
@[simp] theorem State.updSplit_bar2Size (s : State) (k t p : Nat) (f : Split → Split) :
    (s.updSplit k t p f).bar2Size = s.bar2Size := rfl
@[simp] theorem State.updSplit_regions (s : State) (k t p : Nat) (f : Split → Split) :
    (s.updSplit k t p f).regions = s.regions := rfl
@[simp] theorem State.updSplit_qps (s : State) (k t p : Nat) (f : Split → Split) :
    (s.updSplit k t p f).qps = s.qps := rfl
@[simp] theorem State.updSplit_meas (s : State) (k t p : Nat) (f : Split → Split) :
    (s.updSplit k t p f).meas = s.meas := rfl
@[simp] theorem State.updSplit_spdm (s : State) (k t p : Nat) (f : Split → Split) :
    (s.updSplit k t p f).spdm = s.spdm := rfl
@[simp] theorem State.updSplit_snapshot (s : State) (k t p : Nat) (f : Split → Split) :
    (s.updSplit k t p f).snapshot = s.snapshot := rfl
@[simp] theorem State.updSplit_partDraining (s : State) (k t p : Nat) (f : Split → Split) :
    (s.updSplit k t p f).partDraining = s.partDraining := rfl
@[simp] theorem State.updSplit_peerBinds (s : State) (k t p : Nat) (f : Split → Split) :
    (s.updSplit k t p f).peerBinds = s.peerBinds := rfl
@[simp] theorem State.updSplit_rk (s : State) (k t p : Nat) (f : Split → Split) :
    (s.updSplit k t p f).rk = s.rk := rfl
@[simp] theorem State.updSplit_rebootFails (s : State) (k t p : Nat) (f : Split → Split) :
    (s.updSplit k t p f).rebootFails = s.rebootFails := rfl
@[simp] theorem State.updSplit_rkRoot (s : State) (k t p : Nat) (f : Split → Split) :
    (s.updSplit k t p f).rkRoot = s.rkRoot := rfl
@[simp] theorem State.updSplit_outputs (s : State) (k t p : Nat) (f : Split → Split) :
    (s.updSplit k t p f).outputs = s.outputs := rfl
@[simp] theorem State.updSplit_tstamp (s : State) (k t p : Nat) (f : Split → Split) :
    (s.updSplit k t p f).tstamp = s.tstamp := rfl
@[simp] theorem State.updSplit_ticks (s : State) (k t p : Nat) (f : Split → Split) :
    (s.updSplit k t p f).ticks = s.ticks := rfl
@[simp] theorem State.updSplit_fresh (s : State) (k t p : Nat) (f : Split → Split) :
    (s.updSplit k t p f).fresh = s.fresh := rfl
@[simp] theorem State.updSplit_schedule (s : State) (k t p : Nat) (f : Split → Split) :
    (s.updSplit k t p f).schedule = s.schedule := rfl
@[simp] theorem State.updSplit_issueQ (s : State) (k t p : Nat) (f : Split → Split) :
    (s.updSplit k t p f).issueQ = s.issueQ := rfl
@[simp] theorem State.updSplit_cur (s : State) (k t p : Nat) (f : Split → Split) :
    (s.updSplit k t p f).cur = s.cur := rfl
@[simp] theorem State.updSplit_turn (s : State) (k t p : Nat) (f : Split → Split) :
    (s.updSplit k t p f).turn = s.turn := rfl
@[simp] theorem State.updSplit_dieTlb (s : State) (k t p : Nat) (f : Split → Split) :
    (s.updSplit k t p f).dieTlb = s.dieTlb := rfl
@[simp] theorem State.updSplit_frameHolds (s : State) (k t p : Nat) (f : Split → Split) :
    (s.updSplit k t p f).frameHolds = s.frameHolds := rfl
@[simp] theorem State.updSplit_keys (s : State) (k t p : Nat) (f : Split → Split) :
    (s.updSplit k t p f).keys = s.keys := rfl
@[simp] theorem State.updSplit_nextKey (s : State) (k t p : Nat) (f : Split → Split) :
    (s.updSplit k t p f).nextKey = s.nextKey := rfl
@[simp] theorem State.updSplit_keyed (s : State) (k t p : Nat) (f : Split → Split) :
    (s.updSplit k t p f).keyed = s.keyed := rfl
@[simp] theorem State.updSplit_portOld (s : State) (k t p : Nat) (f : Split → Split) :
    (s.updSplit k t p f).portOld = s.portOld := rfl
@[simp] theorem State.updSplit_posted (s : State) (k t p : Nat) (f : Split → Split) :
    (s.updSplit k t p f).posted = s.posted := rfl
@[simp] theorem State.updSplit_unitVf (s : State) (k t p : Nat) (f : Split → Split) :
    (s.updSplit k t p f).unitVf = s.unitVf := rfl
@[simp] theorem State.updSplit_unitCnt (s : State) (k t p : Nat) (f : Split → Split) :
    (s.updSplit k t p f).unitCnt = s.unitCnt := rfl
@[simp] theorem State.updSplit_calUsed (s : State) (k t p : Nat) (f : Split → Split) :
    (s.updSplit k t p f).calUsed = s.calUsed := rfl
@[simp] theorem State.updSplit_calLast (s : State) (k t p : Nat) (f : Split → Split) :
    (s.updSplit k t p f).calLast = s.calLast := rfl
@[simp] theorem State.updSplit_mgmtGated (s : State) (k t p : Nat) (f : Split → Split) :
    (s.updSplit k t p f).mgmtGated = s.mgmtGated := rfl
@[simp] theorem State.updSplit_sweep (s : State) (k t p : Nat) (f : Split → Split) :
    (s.updSplit k t p f).sweep = s.sweep := rfl
@[simp] theorem State.updSplit_calGot (s : State) (k t p : Nat) (f : Split → Split) :
    (s.updSplit k t p f).calGot = s.calGot := rfl
@[simp] theorem State.updSplit_pcie6 (s : State) (k t p : Nat) (f : Split → Split) :
    (s.updSplit k t p f).pcie6 = s.pcie6 := rfl
@[simp] theorem State.updSplit_hdm (s : State) (k t p : Nat) (f : Split → Split) :
    (s.updSplit k t p f).hdm = s.hdm := rfl
@[simp] theorem State.updSplit_bar4 (s : State) (k t p : Nat) (f : Split → Split) :
    (s.updSplit k t p f).bar4 = s.bar4 := rfl

/-! ### `setPa` -/

@[simp] theorem State.setPa_cores (s : State) (a : Nat) (bs : List Byte) :
    (s.setPa a bs).cores = s.cores := rfl
@[simp] theorem State.setPa_ctxs (s : State) (a : Nat) (bs : List Byte) :
    (s.setPa a bs).ctxs = s.ctxs := rfl
@[simp] theorem State.setPa_scratch (s : State) (a : Nat) (bs : List Byte) :
    (s.setPa a bs).scratch = s.scratch := rfl
@[simp] theorem State.setPa_plots (s : State) (a : Nat) (bs : List Byte) :
    (s.setPa a bs).plots = s.plots := rfl
@[simp] theorem State.setPa_lost (s : State) (a : Nat) (bs : List Byte) :
    (s.setPa a bs).lost = s.lost := rfl
@[simp] theorem State.setPa_healed (s : State) (a : Nat) (bs : List Byte) :
    (s.setPa a bs).healed = s.healed := rfl
@[simp] theorem State.setPa_failedCh (s : State) (a : Nat) (bs : List Byte) :
    (s.setPa a bs).failedCh = s.failedCh := rfl
@[simp] theorem State.setPa_corrected (s : State) (a : Nat) (bs : List Byte) :
    (s.setPa a bs).corrected = s.corrected := rfl
@[simp] theorem State.setPa_trackers (s : State) (a : Nat) (bs : List Byte) :
    (s.setPa a bs).trackers = s.trackers := rfl
@[simp] theorem State.setPa_deferred (s : State) (a : Nat) (bs : List Byte) :
    (s.setPa a bs).deferred = s.deferred := rfl
@[simp] theorem State.setPa_mitThresh (s : State) (a : Nat) (bs : List Byte) :
    (s.setPa a bs).mitThresh = s.mitThresh := rfl
@[simp] theorem State.setPa_thrThresh (s : State) (a : Nat) (bs : List Byte) :
    (s.setPa a bs).thrThresh = s.thrThresh := rfl
@[simp] theorem State.setPa_evBase (s : State) (a : Nat) (bs : List Byte) :
    (s.setPa a bs).evBase = s.evBase := rfl
@[simp] theorem State.setPa_evSize (s : State) (a : Nat) (bs : List Byte) :
    (s.setPa a bs).evSize = s.evSize := rfl
@[simp] theorem State.setPa_evHead (s : State) (a : Nat) (bs : List Byte) :
    (s.setPa a bs).evHead = s.evHead := rfl
@[simp] theorem State.setPa_rdslots (s : State) (a : Nat) (bs : List Byte) :
    (s.setPa a bs).rdslots = s.rdslots := rfl
@[simp] theorem State.setPa_calendar (s : State) (a : Nat) (bs : List Byte) :
    (s.setPa a bs).calendar = s.calendar := rfl
@[simp] theorem State.setPa_calReqs (s : State) (a : Nat) (bs : List Byte) :
    (s.setPa a bs).calReqs = s.calReqs := rfl
@[simp] theorem State.setPa_queues (s : State) (a : Nat) (bs : List Byte) :
    (s.setPa a bs).queues = s.queues := rfl
@[simp] theorem State.setPa_vfSlots (s : State) (a : Nat) (bs : List Byte) :
    (s.setPa a bs).vfSlots = s.vfSlots := rfl
@[simp] theorem State.setPa_wake (s : State) (a : Nat) (bs : List Byte) :
    (s.setPa a bs).wake = s.wake := rfl
@[simp] theorem State.setPa_gated (s : State) (a : Nat) (bs : List Byte) :
    (s.setPa a bs).gated = s.gated := rfl
@[simp] theorem State.setPa_frames (s : State) (a : Nat) (bs : List Byte) :
    (s.setPa a bs).frames = s.frames := rfl
@[simp] theorem State.setPa_frameDrops (s : State) (a : Nat) (bs : List Byte) :
    (s.setPa a bs).frameDrops = s.frameDrops := rfl
@[simp] theorem State.setPa_links (s : State) (a : Nat) (bs : List Byte) :
    (s.setPa a bs).links = s.links := rfl
@[simp] theorem State.setPa_bar2 (s : State) (a : Nat) (bs : List Byte) :
    (s.setPa a bs).bar2 = s.bar2 := rfl
@[simp] theorem State.setPa_bar2Size (s : State) (a : Nat) (bs : List Byte) :
    (s.setPa a bs).bar2Size = s.bar2Size := rfl
@[simp] theorem State.setPa_regions (s : State) (a : Nat) (bs : List Byte) :
    (s.setPa a bs).regions = s.regions := rfl
@[simp] theorem State.setPa_qps (s : State) (a : Nat) (bs : List Byte) :
    (s.setPa a bs).qps = s.qps := rfl
@[simp] theorem State.setPa_meas (s : State) (a : Nat) (bs : List Byte) :
    (s.setPa a bs).meas = s.meas := rfl
@[simp] theorem State.setPa_spdm (s : State) (a : Nat) (bs : List Byte) :
    (s.setPa a bs).spdm = s.spdm := rfl
@[simp] theorem State.setPa_snapshot (s : State) (a : Nat) (bs : List Byte) :
    (s.setPa a bs).snapshot = s.snapshot := rfl
@[simp] theorem State.setPa_partDraining (s : State) (a : Nat) (bs : List Byte) :
    (s.setPa a bs).partDraining = s.partDraining := rfl
@[simp] theorem State.setPa_peerBinds (s : State) (a : Nat) (bs : List Byte) :
    (s.setPa a bs).peerBinds = s.peerBinds := rfl
@[simp] theorem State.setPa_rk (s : State) (a : Nat) (bs : List Byte) :
    (s.setPa a bs).rk = s.rk := rfl
@[simp] theorem State.setPa_rebootFails (s : State) (a : Nat) (bs : List Byte) :
    (s.setPa a bs).rebootFails = s.rebootFails := rfl
@[simp] theorem State.setPa_rkRoot (s : State) (a : Nat) (bs : List Byte) :
    (s.setPa a bs).rkRoot = s.rkRoot := rfl
@[simp] theorem State.setPa_outputs (s : State) (a : Nat) (bs : List Byte) :
    (s.setPa a bs).outputs = s.outputs := rfl
@[simp] theorem State.setPa_tstamp (s : State) (a : Nat) (bs : List Byte) :
    (s.setPa a bs).tstamp = s.tstamp := rfl
@[simp] theorem State.setPa_ticks (s : State) (a : Nat) (bs : List Byte) :
    (s.setPa a bs).ticks = s.ticks := rfl
@[simp] theorem State.setPa_fresh (s : State) (a : Nat) (bs : List Byte) :
    (s.setPa a bs).fresh = s.fresh := rfl
@[simp] theorem State.setPa_schedule (s : State) (a : Nat) (bs : List Byte) :
    (s.setPa a bs).schedule = s.schedule := rfl
@[simp] theorem State.setPa_issueQ (s : State) (a : Nat) (bs : List Byte) :
    (s.setPa a bs).issueQ = s.issueQ := rfl
@[simp] theorem State.setPa_cur (s : State) (a : Nat) (bs : List Byte) :
    (s.setPa a bs).cur = s.cur := rfl
@[simp] theorem State.setPa_turn (s : State) (a : Nat) (bs : List Byte) :
    (s.setPa a bs).turn = s.turn := rfl
@[simp] theorem State.setPa_dieTlb (s : State) (a : Nat) (bs : List Byte) :
    (s.setPa a bs).dieTlb = s.dieTlb := rfl
@[simp] theorem State.setPa_frameHolds (s : State) (a : Nat) (bs : List Byte) :
    (s.setPa a bs).frameHolds = s.frameHolds := rfl
@[simp] theorem State.setPa_keys (s : State) (a : Nat) (bs : List Byte) :
    (s.setPa a bs).keys = s.keys := rfl
@[simp] theorem State.setPa_nextKey (s : State) (a : Nat) (bs : List Byte) :
    (s.setPa a bs).nextKey = s.nextKey := rfl
@[simp] theorem State.setPa_keyed (s : State) (a : Nat) (bs : List Byte) :
    (s.setPa a bs).keyed = s.keyed := rfl
@[simp] theorem State.setPa_portOld (s : State) (a : Nat) (bs : List Byte) :
    (s.setPa a bs).portOld = s.portOld := rfl
@[simp] theorem State.setPa_posted (s : State) (a : Nat) (bs : List Byte) :
    (s.setPa a bs).posted = s.posted := rfl
@[simp] theorem State.setPa_unitVf (s : State) (a : Nat) (bs : List Byte) :
    (s.setPa a bs).unitVf = s.unitVf := rfl
@[simp] theorem State.setPa_unitCnt (s : State) (a : Nat) (bs : List Byte) :
    (s.setPa a bs).unitCnt = s.unitCnt := rfl
@[simp] theorem State.setPa_calUsed (s : State) (a : Nat) (bs : List Byte) :
    (s.setPa a bs).calUsed = s.calUsed := rfl
@[simp] theorem State.setPa_calLast (s : State) (a : Nat) (bs : List Byte) :
    (s.setPa a bs).calLast = s.calLast := rfl
@[simp] theorem State.setPa_mgmtGated (s : State) (a : Nat) (bs : List Byte) :
    (s.setPa a bs).mgmtGated = s.mgmtGated := rfl
@[simp] theorem State.setPa_sweep (s : State) (a : Nat) (bs : List Byte) :
    (s.setPa a bs).sweep = s.sweep := rfl
@[simp] theorem State.setPa_calGot (s : State) (a : Nat) (bs : List Byte) :
    (s.setPa a bs).calGot = s.calGot := rfl
@[simp] theorem State.setPa_pcie6 (s : State) (a : Nat) (bs : List Byte) :
    (s.setPa a bs).pcie6 = s.pcie6 := rfl
@[simp] theorem State.setPa_hdm (s : State) (a : Nat) (bs : List Byte) :
    (s.setPa a bs).hdm = s.hdm := rfl
@[simp] theorem State.setPa_bar4 (s : State) (a : Nat) (bs : List Byte) :
    (s.setPa a bs).bar4 = s.bar4 := rfl

/-! ### `advance` -/

@[simp] theorem State.advance_ctxs (s : State) (k t p n : Nat) :
    (s.advance k t p n).ctxs = s.ctxs := rfl
@[simp] theorem State.advance_mem (s : State) (k t p n : Nat) :
    (s.advance k t p n).mem = s.mem := rfl
@[simp] theorem State.advance_scratch (s : State) (k t p n : Nat) :
    (s.advance k t p n).scratch = s.scratch := rfl
@[simp] theorem State.advance_plots (s : State) (k t p n : Nat) :
    (s.advance k t p n).plots = s.plots := rfl
@[simp] theorem State.advance_lost (s : State) (k t p n : Nat) :
    (s.advance k t p n).lost = s.lost := rfl
@[simp] theorem State.advance_healed (s : State) (k t p n : Nat) :
    (s.advance k t p n).healed = s.healed := rfl
@[simp] theorem State.advance_failedCh (s : State) (k t p n : Nat) :
    (s.advance k t p n).failedCh = s.failedCh := rfl
@[simp] theorem State.advance_corrected (s : State) (k t p n : Nat) :
    (s.advance k t p n).corrected = s.corrected := rfl
@[simp] theorem State.advance_trackers (s : State) (k t p n : Nat) :
    (s.advance k t p n).trackers = s.trackers := rfl
@[simp] theorem State.advance_deferred (s : State) (k t p n : Nat) :
    (s.advance k t p n).deferred = s.deferred := rfl
@[simp] theorem State.advance_mitThresh (s : State) (k t p n : Nat) :
    (s.advance k t p n).mitThresh = s.mitThresh := rfl
@[simp] theorem State.advance_thrThresh (s : State) (k t p n : Nat) :
    (s.advance k t p n).thrThresh = s.thrThresh := rfl
@[simp] theorem State.advance_evBase (s : State) (k t p n : Nat) :
    (s.advance k t p n).evBase = s.evBase := rfl
@[simp] theorem State.advance_evSize (s : State) (k t p n : Nat) :
    (s.advance k t p n).evSize = s.evSize := rfl
@[simp] theorem State.advance_evHead (s : State) (k t p n : Nat) :
    (s.advance k t p n).evHead = s.evHead := rfl
@[simp] theorem State.advance_rdslots (s : State) (k t p n : Nat) :
    (s.advance k t p n).rdslots = s.rdslots := rfl
@[simp] theorem State.advance_calendar (s : State) (k t p n : Nat) :
    (s.advance k t p n).calendar = s.calendar := rfl
@[simp] theorem State.advance_calReqs (s : State) (k t p n : Nat) :
    (s.advance k t p n).calReqs = s.calReqs := rfl
@[simp] theorem State.advance_queues (s : State) (k t p n : Nat) :
    (s.advance k t p n).queues = s.queues := rfl
@[simp] theorem State.advance_vfSlots (s : State) (k t p n : Nat) :
    (s.advance k t p n).vfSlots = s.vfSlots := rfl
@[simp] theorem State.advance_wake (s : State) (k t p n : Nat) :
    (s.advance k t p n).wake = s.wake := rfl
@[simp] theorem State.advance_gated (s : State) (k t p n : Nat) :
    (s.advance k t p n).gated = s.gated := rfl
@[simp] theorem State.advance_frames (s : State) (k t p n : Nat) :
    (s.advance k t p n).frames = s.frames := rfl
@[simp] theorem State.advance_frameDrops (s : State) (k t p n : Nat) :
    (s.advance k t p n).frameDrops = s.frameDrops := rfl
@[simp] theorem State.advance_links (s : State) (k t p n : Nat) :
    (s.advance k t p n).links = s.links := rfl
@[simp] theorem State.advance_bar2 (s : State) (k t p n : Nat) :
    (s.advance k t p n).bar2 = s.bar2 := rfl
@[simp] theorem State.advance_bar2Size (s : State) (k t p n : Nat) :
    (s.advance k t p n).bar2Size = s.bar2Size := rfl
@[simp] theorem State.advance_regions (s : State) (k t p n : Nat) :
    (s.advance k t p n).regions = s.regions := rfl
@[simp] theorem State.advance_qps (s : State) (k t p n : Nat) :
    (s.advance k t p n).qps = s.qps := rfl
@[simp] theorem State.advance_meas (s : State) (k t p n : Nat) :
    (s.advance k t p n).meas = s.meas := rfl
@[simp] theorem State.advance_spdm (s : State) (k t p n : Nat) :
    (s.advance k t p n).spdm = s.spdm := rfl
@[simp] theorem State.advance_snapshot (s : State) (k t p n : Nat) :
    (s.advance k t p n).snapshot = s.snapshot := rfl
@[simp] theorem State.advance_partDraining (s : State) (k t p n : Nat) :
    (s.advance k t p n).partDraining = s.partDraining := rfl
@[simp] theorem State.advance_peerBinds (s : State) (k t p n : Nat) :
    (s.advance k t p n).peerBinds = s.peerBinds := rfl
@[simp] theorem State.advance_rk (s : State) (k t p n : Nat) :
    (s.advance k t p n).rk = s.rk := rfl
@[simp] theorem State.advance_rebootFails (s : State) (k t p n : Nat) :
    (s.advance k t p n).rebootFails = s.rebootFails := rfl
@[simp] theorem State.advance_rkRoot (s : State) (k t p n : Nat) :
    (s.advance k t p n).rkRoot = s.rkRoot := rfl
@[simp] theorem State.advance_outputs (s : State) (k t p n : Nat) :
    (s.advance k t p n).outputs = s.outputs := rfl
@[simp] theorem State.advance_tstamp (s : State) (k t p n : Nat) :
    (s.advance k t p n).tstamp = s.tstamp := rfl
@[simp] theorem State.advance_ticks (s : State) (k t p n : Nat) :
    (s.advance k t p n).ticks = s.ticks := rfl
@[simp] theorem State.advance_fresh (s : State) (k t p n : Nat) :
    (s.advance k t p n).fresh = s.fresh := rfl
@[simp] theorem State.advance_schedule (s : State) (k t p n : Nat) :
    (s.advance k t p n).schedule = s.schedule := rfl
@[simp] theorem State.advance_issueQ (s : State) (k t p n : Nat) :
    (s.advance k t p n).issueQ = s.issueQ := rfl
@[simp] theorem State.advance_cur (s : State) (k t p n : Nat) :
    (s.advance k t p n).cur = s.cur := rfl
@[simp] theorem State.advance_turn (s : State) (k t p n : Nat) :
    (s.advance k t p n).turn = s.turn := rfl
@[simp] theorem State.advance_dieTlb (s : State) (k t p n : Nat) :
    (s.advance k t p n).dieTlb = s.dieTlb := rfl
@[simp] theorem State.advance_frameHolds (s : State) (k t p n : Nat) :
    (s.advance k t p n).frameHolds = s.frameHolds := rfl
@[simp] theorem State.advance_keys (s : State) (k t p n : Nat) :
    (s.advance k t p n).keys = s.keys := rfl
@[simp] theorem State.advance_nextKey (s : State) (k t p n : Nat) :
    (s.advance k t p n).nextKey = s.nextKey := rfl
@[simp] theorem State.advance_keyed (s : State) (k t p n : Nat) :
    (s.advance k t p n).keyed = s.keyed := rfl
@[simp] theorem State.advance_portOld (s : State) (k t p n : Nat) :
    (s.advance k t p n).portOld = s.portOld := rfl
@[simp] theorem State.advance_posted (s : State) (k t p n : Nat) :
    (s.advance k t p n).posted = s.posted := rfl
@[simp] theorem State.advance_unitVf (s : State) (k t p n : Nat) :
    (s.advance k t p n).unitVf = s.unitVf := rfl
@[simp] theorem State.advance_unitCnt (s : State) (k t p n : Nat) :
    (s.advance k t p n).unitCnt = s.unitCnt := rfl
@[simp] theorem State.advance_calUsed (s : State) (k t p n : Nat) :
    (s.advance k t p n).calUsed = s.calUsed := rfl
@[simp] theorem State.advance_calLast (s : State) (k t p n : Nat) :
    (s.advance k t p n).calLast = s.calLast := rfl
@[simp] theorem State.advance_mgmtGated (s : State) (k t p n : Nat) :
    (s.advance k t p n).mgmtGated = s.mgmtGated := rfl
@[simp] theorem State.advance_sweep (s : State) (k t p n : Nat) :
    (s.advance k t p n).sweep = s.sweep := rfl
@[simp] theorem State.advance_calGot (s : State) (k t p n : Nat) :
    (s.advance k t p n).calGot = s.calGot := rfl
@[simp] theorem State.advance_pcie6 (s : State) (k t p n : Nat) :
    (s.advance k t p n).pcie6 = s.pcie6 := rfl
@[simp] theorem State.advance_hdm (s : State) (k t p n : Nat) :
    (s.advance k t p n).hdm = s.hdm := rfl
@[simp] theorem State.advance_bar4 (s : State) (k t p n : Nat) :
    (s.advance k t p n).bar4 = s.bar4 := rfl

/-! ### `leaveClause` -/

@[simp] theorem State.leaveClause_ctxs (s : State) (k t p : Nat) (hdr : W32) (pc : W64) (tr : Bool) :
    (s.leaveClause k t p hdr pc tr).ctxs = s.ctxs := rfl
@[simp] theorem State.leaveClause_mem (s : State) (k t p : Nat) (hdr : W32) (pc : W64) (tr : Bool) :
    (s.leaveClause k t p hdr pc tr).mem = s.mem := rfl
@[simp] theorem State.leaveClause_scratch (s : State) (k t p : Nat) (hdr : W32) (pc : W64) (tr : Bool) :
    (s.leaveClause k t p hdr pc tr).scratch = s.scratch := rfl
@[simp] theorem State.leaveClause_plots (s : State) (k t p : Nat) (hdr : W32) (pc : W64) (tr : Bool) :
    (s.leaveClause k t p hdr pc tr).plots = s.plots := rfl
@[simp] theorem State.leaveClause_lost (s : State) (k t p : Nat) (hdr : W32) (pc : W64) (tr : Bool) :
    (s.leaveClause k t p hdr pc tr).lost = s.lost := rfl
@[simp] theorem State.leaveClause_healed (s : State) (k t p : Nat) (hdr : W32) (pc : W64) (tr : Bool) :
    (s.leaveClause k t p hdr pc tr).healed = s.healed := rfl
@[simp] theorem State.leaveClause_failedCh (s : State) (k t p : Nat) (hdr : W32) (pc : W64) (tr : Bool) :
    (s.leaveClause k t p hdr pc tr).failedCh = s.failedCh := rfl
@[simp] theorem State.leaveClause_corrected (s : State) (k t p : Nat) (hdr : W32) (pc : W64) (tr : Bool) :
    (s.leaveClause k t p hdr pc tr).corrected = s.corrected := rfl
@[simp] theorem State.leaveClause_trackers (s : State) (k t p : Nat) (hdr : W32) (pc : W64) (tr : Bool) :
    (s.leaveClause k t p hdr pc tr).trackers = s.trackers := rfl
@[simp] theorem State.leaveClause_deferred (s : State) (k t p : Nat) (hdr : W32) (pc : W64) (tr : Bool) :
    (s.leaveClause k t p hdr pc tr).deferred = s.deferred := rfl
@[simp] theorem State.leaveClause_mitThresh (s : State) (k t p : Nat) (hdr : W32) (pc : W64) (tr : Bool) :
    (s.leaveClause k t p hdr pc tr).mitThresh = s.mitThresh := rfl
@[simp] theorem State.leaveClause_thrThresh (s : State) (k t p : Nat) (hdr : W32) (pc : W64) (tr : Bool) :
    (s.leaveClause k t p hdr pc tr).thrThresh = s.thrThresh := rfl
@[simp] theorem State.leaveClause_evBase (s : State) (k t p : Nat) (hdr : W32) (pc : W64) (tr : Bool) :
    (s.leaveClause k t p hdr pc tr).evBase = s.evBase := rfl
@[simp] theorem State.leaveClause_evSize (s : State) (k t p : Nat) (hdr : W32) (pc : W64) (tr : Bool) :
    (s.leaveClause k t p hdr pc tr).evSize = s.evSize := rfl
@[simp] theorem State.leaveClause_evHead (s : State) (k t p : Nat) (hdr : W32) (pc : W64) (tr : Bool) :
    (s.leaveClause k t p hdr pc tr).evHead = s.evHead := rfl
@[simp] theorem State.leaveClause_rdslots (s : State) (k t p : Nat) (hdr : W32) (pc : W64) (tr : Bool) :
    (s.leaveClause k t p hdr pc tr).rdslots = s.rdslots := rfl
@[simp] theorem State.leaveClause_calendar (s : State) (k t p : Nat) (hdr : W32) (pc : W64) (tr : Bool) :
    (s.leaveClause k t p hdr pc tr).calendar = s.calendar := rfl
@[simp] theorem State.leaveClause_calReqs (s : State) (k t p : Nat) (hdr : W32) (pc : W64) (tr : Bool) :
    (s.leaveClause k t p hdr pc tr).calReqs = s.calReqs := rfl
@[simp] theorem State.leaveClause_queues (s : State) (k t p : Nat) (hdr : W32) (pc : W64) (tr : Bool) :
    (s.leaveClause k t p hdr pc tr).queues = s.queues := rfl
@[simp] theorem State.leaveClause_vfSlots (s : State) (k t p : Nat) (hdr : W32) (pc : W64) (tr : Bool) :
    (s.leaveClause k t p hdr pc tr).vfSlots = s.vfSlots := rfl
@[simp] theorem State.leaveClause_wake (s : State) (k t p : Nat) (hdr : W32) (pc : W64) (tr : Bool) :
    (s.leaveClause k t p hdr pc tr).wake = s.wake := rfl
@[simp] theorem State.leaveClause_gated (s : State) (k t p : Nat) (hdr : W32) (pc : W64) (tr : Bool) :
    (s.leaveClause k t p hdr pc tr).gated = s.gated := rfl
@[simp] theorem State.leaveClause_frames (s : State) (k t p : Nat) (hdr : W32) (pc : W64) (tr : Bool) :
    (s.leaveClause k t p hdr pc tr).frames = s.frames := rfl
@[simp] theorem State.leaveClause_frameDrops (s : State) (k t p : Nat) (hdr : W32) (pc : W64) (tr : Bool) :
    (s.leaveClause k t p hdr pc tr).frameDrops = s.frameDrops := rfl
@[simp] theorem State.leaveClause_links (s : State) (k t p : Nat) (hdr : W32) (pc : W64) (tr : Bool) :
    (s.leaveClause k t p hdr pc tr).links = s.links := rfl
@[simp] theorem State.leaveClause_bar2 (s : State) (k t p : Nat) (hdr : W32) (pc : W64) (tr : Bool) :
    (s.leaveClause k t p hdr pc tr).bar2 = s.bar2 := rfl
@[simp] theorem State.leaveClause_bar2Size (s : State) (k t p : Nat) (hdr : W32) (pc : W64) (tr : Bool) :
    (s.leaveClause k t p hdr pc tr).bar2Size = s.bar2Size := rfl
@[simp] theorem State.leaveClause_regions (s : State) (k t p : Nat) (hdr : W32) (pc : W64) (tr : Bool) :
    (s.leaveClause k t p hdr pc tr).regions = s.regions := rfl
@[simp] theorem State.leaveClause_qps (s : State) (k t p : Nat) (hdr : W32) (pc : W64) (tr : Bool) :
    (s.leaveClause k t p hdr pc tr).qps = s.qps := rfl
@[simp] theorem State.leaveClause_meas (s : State) (k t p : Nat) (hdr : W32) (pc : W64) (tr : Bool) :
    (s.leaveClause k t p hdr pc tr).meas = s.meas := rfl
@[simp] theorem State.leaveClause_spdm (s : State) (k t p : Nat) (hdr : W32) (pc : W64) (tr : Bool) :
    (s.leaveClause k t p hdr pc tr).spdm = s.spdm := rfl
@[simp] theorem State.leaveClause_snapshot (s : State) (k t p : Nat) (hdr : W32) (pc : W64) (tr : Bool) :
    (s.leaveClause k t p hdr pc tr).snapshot = s.snapshot := rfl
@[simp] theorem State.leaveClause_partDraining (s : State) (k t p : Nat) (hdr : W32) (pc : W64) (tr : Bool) :
    (s.leaveClause k t p hdr pc tr).partDraining = s.partDraining := rfl
@[simp] theorem State.leaveClause_peerBinds (s : State) (k t p : Nat) (hdr : W32) (pc : W64) (tr : Bool) :
    (s.leaveClause k t p hdr pc tr).peerBinds = s.peerBinds := rfl
@[simp] theorem State.leaveClause_rk (s : State) (k t p : Nat) (hdr : W32) (pc : W64) (tr : Bool) :
    (s.leaveClause k t p hdr pc tr).rk = s.rk := rfl
@[simp] theorem State.leaveClause_rebootFails (s : State) (k t p : Nat) (hdr : W32) (pc : W64) (tr : Bool) :
    (s.leaveClause k t p hdr pc tr).rebootFails = s.rebootFails := rfl
@[simp] theorem State.leaveClause_rkRoot (s : State) (k t p : Nat) (hdr : W32) (pc : W64) (tr : Bool) :
    (s.leaveClause k t p hdr pc tr).rkRoot = s.rkRoot := rfl
@[simp] theorem State.leaveClause_outputs (s : State) (k t p : Nat) (hdr : W32) (pc : W64) (tr : Bool) :
    (s.leaveClause k t p hdr pc tr).outputs = s.outputs := rfl
@[simp] theorem State.leaveClause_tstamp (s : State) (k t p : Nat) (hdr : W32) (pc : W64) (tr : Bool) :
    (s.leaveClause k t p hdr pc tr).tstamp = s.tstamp := rfl
@[simp] theorem State.leaveClause_ticks (s : State) (k t p : Nat) (hdr : W32) (pc : W64) (tr : Bool) :
    (s.leaveClause k t p hdr pc tr).ticks = s.ticks := rfl
@[simp] theorem State.leaveClause_fresh (s : State) (k t p : Nat) (hdr : W32) (pc : W64) (tr : Bool) :
    (s.leaveClause k t p hdr pc tr).fresh = s.fresh := rfl
@[simp] theorem State.leaveClause_schedule (s : State) (k t p : Nat) (hdr : W32) (pc : W64) (tr : Bool) :
    (s.leaveClause k t p hdr pc tr).schedule = s.schedule := rfl
@[simp] theorem State.leaveClause_issueQ (s : State) (k t p : Nat) (hdr : W32) (pc : W64) (tr : Bool) :
    (s.leaveClause k t p hdr pc tr).issueQ = s.issueQ := rfl
@[simp] theorem State.leaveClause_cur (s : State) (k t p : Nat) (hdr : W32) (pc : W64) (tr : Bool) :
    (s.leaveClause k t p hdr pc tr).cur = s.cur := rfl
@[simp] theorem State.leaveClause_turn (s : State) (k t p : Nat) (hdr : W32) (pc : W64) (tr : Bool) :
    (s.leaveClause k t p hdr pc tr).turn = s.turn := rfl
@[simp] theorem State.leaveClause_dieTlb (s : State) (k t p : Nat) (hdr : W32) (pc : W64) (tr : Bool) :
    (s.leaveClause k t p hdr pc tr).dieTlb = s.dieTlb := rfl
@[simp] theorem State.leaveClause_frameHolds (s : State) (k t p : Nat) (hdr : W32) (pc : W64) (tr : Bool) :
    (s.leaveClause k t p hdr pc tr).frameHolds = s.frameHolds := rfl
@[simp] theorem State.leaveClause_keys (s : State) (k t p : Nat) (hdr : W32) (pc : W64) (tr : Bool) :
    (s.leaveClause k t p hdr pc tr).keys = s.keys := rfl
@[simp] theorem State.leaveClause_nextKey (s : State) (k t p : Nat) (hdr : W32) (pc : W64) (tr : Bool) :
    (s.leaveClause k t p hdr pc tr).nextKey = s.nextKey := rfl
@[simp] theorem State.leaveClause_keyed (s : State) (k t p : Nat) (hdr : W32) (pc : W64) (tr : Bool) :
    (s.leaveClause k t p hdr pc tr).keyed = s.keyed := rfl
@[simp] theorem State.leaveClause_portOld (s : State) (k t p : Nat) (hdr : W32) (pc : W64) (tr : Bool) :
    (s.leaveClause k t p hdr pc tr).portOld = s.portOld := rfl
@[simp] theorem State.leaveClause_posted (s : State) (k t p : Nat) (hdr : W32) (pc : W64) (tr : Bool) :
    (s.leaveClause k t p hdr pc tr).posted = s.posted := rfl
@[simp] theorem State.leaveClause_unitVf (s : State) (k t p : Nat) (hdr : W32) (pc : W64) (tr : Bool) :
    (s.leaveClause k t p hdr pc tr).unitVf = s.unitVf := rfl
@[simp] theorem State.leaveClause_unitCnt (s : State) (k t p : Nat) (hdr : W32) (pc : W64) (tr : Bool) :
    (s.leaveClause k t p hdr pc tr).unitCnt = s.unitCnt := rfl
@[simp] theorem State.leaveClause_calUsed (s : State) (k t p : Nat) (hdr : W32) (pc : W64) (tr : Bool) :
    (s.leaveClause k t p hdr pc tr).calUsed = s.calUsed := rfl
@[simp] theorem State.leaveClause_calLast (s : State) (k t p : Nat) (hdr : W32) (pc : W64) (tr : Bool) :
    (s.leaveClause k t p hdr pc tr).calLast = s.calLast := rfl
@[simp] theorem State.leaveClause_mgmtGated (s : State) (k t p : Nat) (hdr : W32) (pc : W64) (tr : Bool) :
    (s.leaveClause k t p hdr pc tr).mgmtGated = s.mgmtGated := rfl
@[simp] theorem State.leaveClause_sweep (s : State) (k t p : Nat) (hdr : W32) (pc : W64) (tr : Bool) :
    (s.leaveClause k t p hdr pc tr).sweep = s.sweep := rfl
@[simp] theorem State.leaveClause_calGot (s : State) (k t p : Nat) (hdr : W32) (pc : W64) (tr : Bool) :
    (s.leaveClause k t p hdr pc tr).calGot = s.calGot := rfl
@[simp] theorem State.leaveClause_pcie6 (s : State) (k t p : Nat) (hdr : W32) (pc : W64) (tr : Bool) :
    (s.leaveClause k t p hdr pc tr).pcie6 = s.pcie6 := rfl
@[simp] theorem State.leaveClause_hdm (s : State) (k t p : Nat) (hdr : W32) (pc : W64) (tr : Bool) :
    (s.leaveClause k t p hdr pc tr).hdm = s.hdm := rfl
@[simp] theorem State.leaveClause_bar4 (s : State) (k t p : Nat) (hdr : W32) (pc : W64) (tr : Bool) :
    (s.leaveClause k t p hdr pc tr).bar4 = s.bar4 := rfl

/-! ### `waitAt` -/

@[simp] theorem State.waitAt_ctxs (s : State) (k t p n : Nat) (w : Wait) :
    (s.waitAt k t p n w).ctxs = s.ctxs := rfl
@[simp] theorem State.waitAt_mem (s : State) (k t p n : Nat) (w : Wait) :
    (s.waitAt k t p n w).mem = s.mem := rfl
@[simp] theorem State.waitAt_scratch (s : State) (k t p n : Nat) (w : Wait) :
    (s.waitAt k t p n w).scratch = s.scratch := rfl
@[simp] theorem State.waitAt_plots (s : State) (k t p n : Nat) (w : Wait) :
    (s.waitAt k t p n w).plots = s.plots := rfl
@[simp] theorem State.waitAt_lost (s : State) (k t p n : Nat) (w : Wait) :
    (s.waitAt k t p n w).lost = s.lost := rfl
@[simp] theorem State.waitAt_healed (s : State) (k t p n : Nat) (w : Wait) :
    (s.waitAt k t p n w).healed = s.healed := rfl
@[simp] theorem State.waitAt_failedCh (s : State) (k t p n : Nat) (w : Wait) :
    (s.waitAt k t p n w).failedCh = s.failedCh := rfl
@[simp] theorem State.waitAt_corrected (s : State) (k t p n : Nat) (w : Wait) :
    (s.waitAt k t p n w).corrected = s.corrected := rfl
@[simp] theorem State.waitAt_trackers (s : State) (k t p n : Nat) (w : Wait) :
    (s.waitAt k t p n w).trackers = s.trackers := rfl
@[simp] theorem State.waitAt_deferred (s : State) (k t p n : Nat) (w : Wait) :
    (s.waitAt k t p n w).deferred = s.deferred := rfl
@[simp] theorem State.waitAt_mitThresh (s : State) (k t p n : Nat) (w : Wait) :
    (s.waitAt k t p n w).mitThresh = s.mitThresh := rfl
@[simp] theorem State.waitAt_thrThresh (s : State) (k t p n : Nat) (w : Wait) :
    (s.waitAt k t p n w).thrThresh = s.thrThresh := rfl
@[simp] theorem State.waitAt_evBase (s : State) (k t p n : Nat) (w : Wait) :
    (s.waitAt k t p n w).evBase = s.evBase := rfl
@[simp] theorem State.waitAt_evSize (s : State) (k t p n : Nat) (w : Wait) :
    (s.waitAt k t p n w).evSize = s.evSize := rfl
@[simp] theorem State.waitAt_evHead (s : State) (k t p n : Nat) (w : Wait) :
    (s.waitAt k t p n w).evHead = s.evHead := rfl
@[simp] theorem State.waitAt_rdslots (s : State) (k t p n : Nat) (w : Wait) :
    (s.waitAt k t p n w).rdslots = s.rdslots := rfl
@[simp] theorem State.waitAt_calendar (s : State) (k t p n : Nat) (w : Wait) :
    (s.waitAt k t p n w).calendar = s.calendar := rfl
@[simp] theorem State.waitAt_calReqs (s : State) (k t p n : Nat) (w : Wait) :
    (s.waitAt k t p n w).calReqs = s.calReqs := rfl
@[simp] theorem State.waitAt_queues (s : State) (k t p n : Nat) (w : Wait) :
    (s.waitAt k t p n w).queues = s.queues := rfl
@[simp] theorem State.waitAt_vfSlots (s : State) (k t p n : Nat) (w : Wait) :
    (s.waitAt k t p n w).vfSlots = s.vfSlots := rfl
@[simp] theorem State.waitAt_wake (s : State) (k t p n : Nat) (w : Wait) :
    (s.waitAt k t p n w).wake = s.wake := rfl
@[simp] theorem State.waitAt_gated (s : State) (k t p n : Nat) (w : Wait) :
    (s.waitAt k t p n w).gated = s.gated := rfl
@[simp] theorem State.waitAt_frames (s : State) (k t p n : Nat) (w : Wait) :
    (s.waitAt k t p n w).frames = s.frames := rfl
@[simp] theorem State.waitAt_frameDrops (s : State) (k t p n : Nat) (w : Wait) :
    (s.waitAt k t p n w).frameDrops = s.frameDrops := rfl
@[simp] theorem State.waitAt_links (s : State) (k t p n : Nat) (w : Wait) :
    (s.waitAt k t p n w).links = s.links := rfl
@[simp] theorem State.waitAt_bar2 (s : State) (k t p n : Nat) (w : Wait) :
    (s.waitAt k t p n w).bar2 = s.bar2 := rfl
@[simp] theorem State.waitAt_bar2Size (s : State) (k t p n : Nat) (w : Wait) :
    (s.waitAt k t p n w).bar2Size = s.bar2Size := rfl
@[simp] theorem State.waitAt_regions (s : State) (k t p n : Nat) (w : Wait) :
    (s.waitAt k t p n w).regions = s.regions := rfl
@[simp] theorem State.waitAt_qps (s : State) (k t p n : Nat) (w : Wait) :
    (s.waitAt k t p n w).qps = s.qps := rfl
@[simp] theorem State.waitAt_meas (s : State) (k t p n : Nat) (w : Wait) :
    (s.waitAt k t p n w).meas = s.meas := rfl
@[simp] theorem State.waitAt_spdm (s : State) (k t p n : Nat) (w : Wait) :
    (s.waitAt k t p n w).spdm = s.spdm := rfl
@[simp] theorem State.waitAt_snapshot (s : State) (k t p n : Nat) (w : Wait) :
    (s.waitAt k t p n w).snapshot = s.snapshot := rfl
@[simp] theorem State.waitAt_partDraining (s : State) (k t p n : Nat) (w : Wait) :
    (s.waitAt k t p n w).partDraining = s.partDraining := rfl
@[simp] theorem State.waitAt_peerBinds (s : State) (k t p n : Nat) (w : Wait) :
    (s.waitAt k t p n w).peerBinds = s.peerBinds := rfl
@[simp] theorem State.waitAt_rk (s : State) (k t p n : Nat) (w : Wait) :
    (s.waitAt k t p n w).rk = s.rk := rfl
@[simp] theorem State.waitAt_rebootFails (s : State) (k t p n : Nat) (w : Wait) :
    (s.waitAt k t p n w).rebootFails = s.rebootFails := rfl
@[simp] theorem State.waitAt_rkRoot (s : State) (k t p n : Nat) (w : Wait) :
    (s.waitAt k t p n w).rkRoot = s.rkRoot := rfl
@[simp] theorem State.waitAt_outputs (s : State) (k t p n : Nat) (w : Wait) :
    (s.waitAt k t p n w).outputs = s.outputs := rfl
@[simp] theorem State.waitAt_tstamp (s : State) (k t p n : Nat) (w : Wait) :
    (s.waitAt k t p n w).tstamp = s.tstamp := rfl
@[simp] theorem State.waitAt_ticks (s : State) (k t p n : Nat) (w : Wait) :
    (s.waitAt k t p n w).ticks = s.ticks := rfl
@[simp] theorem State.waitAt_fresh (s : State) (k t p n : Nat) (w : Wait) :
    (s.waitAt k t p n w).fresh = s.fresh := rfl
@[simp] theorem State.waitAt_schedule (s : State) (k t p n : Nat) (w : Wait) :
    (s.waitAt k t p n w).schedule = s.schedule := rfl
@[simp] theorem State.waitAt_issueQ (s : State) (k t p n : Nat) (w : Wait) :
    (s.waitAt k t p n w).issueQ = s.issueQ := rfl
@[simp] theorem State.waitAt_cur (s : State) (k t p n : Nat) (w : Wait) :
    (s.waitAt k t p n w).cur = s.cur := rfl
@[simp] theorem State.waitAt_turn (s : State) (k t p n : Nat) (w : Wait) :
    (s.waitAt k t p n w).turn = s.turn := rfl
@[simp] theorem State.waitAt_dieTlb (s : State) (k t p n : Nat) (w : Wait) :
    (s.waitAt k t p n w).dieTlb = s.dieTlb := rfl
@[simp] theorem State.waitAt_frameHolds (s : State) (k t p n : Nat) (w : Wait) :
    (s.waitAt k t p n w).frameHolds = s.frameHolds := rfl
@[simp] theorem State.waitAt_keys (s : State) (k t p n : Nat) (w : Wait) :
    (s.waitAt k t p n w).keys = s.keys := rfl
@[simp] theorem State.waitAt_nextKey (s : State) (k t p n : Nat) (w : Wait) :
    (s.waitAt k t p n w).nextKey = s.nextKey := rfl
@[simp] theorem State.waitAt_keyed (s : State) (k t p n : Nat) (w : Wait) :
    (s.waitAt k t p n w).keyed = s.keyed := rfl
@[simp] theorem State.waitAt_portOld (s : State) (k t p n : Nat) (w : Wait) :
    (s.waitAt k t p n w).portOld = s.portOld := rfl
@[simp] theorem State.waitAt_posted (s : State) (k t p n : Nat) (w : Wait) :
    (s.waitAt k t p n w).posted = s.posted := rfl
@[simp] theorem State.waitAt_unitVf (s : State) (k t p n : Nat) (w : Wait) :
    (s.waitAt k t p n w).unitVf = s.unitVf := rfl
@[simp] theorem State.waitAt_unitCnt (s : State) (k t p n : Nat) (w : Wait) :
    (s.waitAt k t p n w).unitCnt = s.unitCnt := rfl
@[simp] theorem State.waitAt_calUsed (s : State) (k t p n : Nat) (w : Wait) :
    (s.waitAt k t p n w).calUsed = s.calUsed := rfl
@[simp] theorem State.waitAt_calLast (s : State) (k t p n : Nat) (w : Wait) :
    (s.waitAt k t p n w).calLast = s.calLast := rfl
@[simp] theorem State.waitAt_mgmtGated (s : State) (k t p n : Nat) (w : Wait) :
    (s.waitAt k t p n w).mgmtGated = s.mgmtGated := rfl
@[simp] theorem State.waitAt_sweep (s : State) (k t p n : Nat) (w : Wait) :
    (s.waitAt k t p n w).sweep = s.sweep := rfl
@[simp] theorem State.waitAt_calGot (s : State) (k t p n : Nat) (w : Wait) :
    (s.waitAt k t p n w).calGot = s.calGot := rfl
@[simp] theorem State.waitAt_pcie6 (s : State) (k t p n : Nat) (w : Wait) :
    (s.waitAt k t p n w).pcie6 = s.pcie6 := rfl
@[simp] theorem State.waitAt_hdm (s : State) (k t p n : Nat) (w : Wait) :
    (s.waitAt k t p n w).hdm = s.hdm := rfl
@[simp] theorem State.waitAt_bar4 (s : State) (k t p n : Nat) (w : Wait) :
    (s.waitAt k t p n w).bar4 = s.bar4 := rfl

/-! ### A uniform register -/

@[simp] theorem Team.setS_crew (tm : Team) (r : Nat) (x : W64) :
    (tm.setS r x).crew = tm.crew := rfl
@[simp] theorem Team.setS_kernel (tm : Team) (r : Nat) (x : W64) :
    (tm.setS r x).kernel = tm.kernel := rfl
@[simp] theorem Team.setS_serial (tm : Team) (r : Nat) (x : W64) :
    (tm.setS r x).serial = tm.serial := rfl
@[simp] theorem Team.setS_index (tm : Team) (r : Nat) (x : W64) :
    (tm.setS r x).index = tm.index := rfl
@[simp] theorem Team.setS_role (tm : Team) (r : Nat) (x : W64) :
    (tm.setS r x).role = tm.role := rfl
@[simp] theorem Team.setS_lanes (tm : Team) (r : Nat) (x : W64) :
    (tm.setS r x).lanes = tm.lanes := rfl
@[simp] theorem Team.setS_replay (tm : Team) (r : Nat) (x : W64) :
    (tm.setS r x).replay = tm.replay := rfl
@[simp] theorem Team.setS_order (tm : Team) (r : Nat) (x : W64) :
    (tm.setS r x).order = tm.order := rfl
@[simp] theorem Team.setS_vcount (tm : Team) (r : Nat) (x : W64) :
    (tm.setS r x).vcount = tm.vcount := rfl
@[simp] theorem Team.setS_scount (tm : Team) (r : Nat) (x : W64) :
    (tm.setS r x).scount = tm.scount := rfl
@[simp] theorem Team.setS_placedV (tm : Team) (r : Nat) (x : W64) :
    (tm.setS r x).placedV = tm.placedV := rfl
@[simp] theorem Team.setS_placedS (tm : Team) (r : Nat) (x : W64) :
    (tm.setS r x).placedS = tm.placedS := rfl
@[simp] theorem Team.setS_v (tm : Team) (r : Nat) (x : W64) :
    (tm.setS r x).v = tm.v := rfl
@[simp] theorem Team.setS_p (tm : Team) (r : Nat) (x : W64) :
    (tm.setS r x).p = tm.p := rfl
@[simp] theorem Team.setS_splits (tm : Team) (r : Nat) (x : W64) :
    (tm.setS r x).splits = tm.splits := rfl
@[simp] theorem Team.setS_rr (tm : Team) (r : Nat) (x : W64) :
    (tm.setS r x).rr = tm.rr := rfl
@[simp] theorem Team.setS_yielded (tm : Team) (r : Nat) (x : W64) :
    (tm.setS r x).yielded = tm.yielded := rfl
@[simp] theorem Team.setS_watch (tm : Team) (r : Nat) (x : W64) :
    (tm.setS r x).watch = tm.watch := rfl
@[simp] theorem Team.setS_conds (tm : Team) (r : Nat) (x : W64) :
    (tm.setS r x).conds = tm.conds := rfl
@[simp] theorem Team.setS_spill (tm : Team) (r : Nat) (x : W64) :
    (tm.setS r x).spill = tm.spill := rfl
@[simp] theorem Team.setS_backing (tm : Team) (r : Nat) (x : W64) :
    (tm.setS r x).backing = tm.backing := rfl
@[simp] theorem Team.setS_state (tm : Team) (r : Nat) (x : W64) :
    (tm.setS r x).state = tm.state := rfl
@[simp] theorem Team.setS_prev (tm : Team) (r : Nat) (x : W64) :
    (tm.setS r x).prev = tm.prev := rfl
@[simp] theorem Team.setS_fault (tm : Team) (r : Nat) (x : W64) :
    (tm.setS r x).fault = tm.fault := rfl
@[simp] theorem Team.setS_tvec (tm : Team) (r : Nat) (x : W64) :
    (tm.setS r x).tvec = tm.tvec := rfl
@[simp] theorem Team.setS_tpc (tm : Team) (r : Nat) (x : W64) :
    (tm.setS r x).tpc = tm.tpc := rfl
@[simp] theorem Team.setS_tcause (tm : Team) (r : Nat) (x : W64) :
    (tm.setS r x).tcause = tm.tcause := rfl
@[simp] theorem Team.setS_tslot (tm : Team) (r : Nat) (x : W64) :
    (tm.setS r x).tslot = tm.tslot := rfl
@[simp] theorem Team.setS_tgrade (tm : Team) (r : Nat) (x : W64) :
    (tm.setS r x).tgrade = tm.tgrade := rfl
@[simp] theorem Team.setS_inv (tm : Team) (r : Nat) (x : W64) :
    (tm.setS r x).inv = tm.inv := rfl
@[simp] theorem Team.setS_vtrap (tm : Team) (r : Nat) (x : W64) :
    (tm.setS r x).vtrap = tm.vtrap := rfl
@[simp] theorem Team.setS_dall (tm : Team) (r : Nat) (x : W64) :
    (tm.setS r x).dall = tm.dall := rfl
@[simp] theorem Team.setS_smp (tm : Team) (r : Nat) (x : W64) :
    (tm.setS r x).smp = tm.smp := rfl
@[simp] theorem Team.setS_tre (tm : Team) (r : Nat) (x : W64) :
    (tm.setS r x).tre = tm.tre := rfl
@[simp] theorem Team.setS_bke (tm : Team) (r : Nat) (x : W64) :
    (tm.setS r x).bke = tm.bke := rfl
@[simp] theorem Team.setS_att (tm : Team) (r : Nat) (x : W64) :
    (tm.setS r x).att = tm.att := rfl
@[simp] theorem Team.setS_wpaddr (tm : Team) (r : Nat) (x : W64) :
    (tm.setS r x).wpaddr = tm.wpaddr := rfl
@[simp] theorem Team.setS_wplen (tm : Team) (r : Nat) (x : W64) :
    (tm.setS r x).wplen = tm.wplen := rfl
@[simp] theorem Team.setS_wprd (tm : Team) (r : Nat) (x : W64) :
    (tm.setS r x).wprd = tm.wprd := rfl
@[simp] theorem Team.setS_wpwr (tm : Team) (r : Nat) (x : W64) :
    (tm.setS r x).wpwr = tm.wpwr := rfl
@[simp] theorem Team.setS_wpen (tm : Team) (r : Nat) (x : W64) :
    (tm.setS r x).wpen = tm.wpen := rfl
@[simp] theorem Team.setS_smpCount (tm : Team) (r : Nat) (x : W64) :
    (tm.setS r x).smpCount = tm.smpCount := rfl
@[simp] theorem Team.setS_side (tm : Team) (r : Nat) (x : W64) :
    (tm.setS r x).side = tm.side := rfl
@[simp] theorem Team.setS_commit (tm : Team) (r : Nat) (x : W64) :
    (tm.setS r x).commit = tm.commit := rfl
@[simp] theorem Team.setS_source (tm : Team) (r : Nat) (x : W64) :
    (tm.setS r x).source = tm.source := rfl
@[simp] theorem Team.setS_phase (tm : Team) (r : Nat) (x : W64) :
    (tm.setS r x).phase = tm.phase := rfl
@[simp] theorem Team.setS_resp (tm : Team) (r : Nat) (x : W64) :
    (tm.setS r x).resp = tm.resp := rfl
@[simp] theorem Team.setS_priv (tm : Team) (r : Nat) (x : W64) :
    (tm.setS r x).priv = tm.priv := rfl
@[simp] theorem Team.setS_fenceW (tm : Team) (r : Nat) (x : W64) :
    (tm.setS r x).fenceW = tm.fenceW := rfl
@[simp] theorem Team.setS_fenceR (tm : Team) (r : Nat) (x : W64) :
    (tm.setS r x).fenceR = tm.fenceR := rfl
@[simp] theorem Team.setS_step (tm : Team) (r : Nat) (x : W64) :
    (tm.setS r x).step = tm.step := rfl
@[simp] theorem Team.setS_freeEntries (tm : Team) (r : Nat) (x : W64) :
    (tm.setS r x).freeEntries = tm.freeEntries := rfl

/-! ### A lane register -/

@[simp] theorem Team.setV_crew (tm : Team) (r : Nat) (xs : List (Nat × W32)) :
    (tm.setV r xs).crew = tm.crew := rfl
@[simp] theorem Team.setV_kernel (tm : Team) (r : Nat) (xs : List (Nat × W32)) :
    (tm.setV r xs).kernel = tm.kernel := rfl
@[simp] theorem Team.setV_serial (tm : Team) (r : Nat) (xs : List (Nat × W32)) :
    (tm.setV r xs).serial = tm.serial := rfl
@[simp] theorem Team.setV_index (tm : Team) (r : Nat) (xs : List (Nat × W32)) :
    (tm.setV r xs).index = tm.index := rfl
@[simp] theorem Team.setV_role (tm : Team) (r : Nat) (xs : List (Nat × W32)) :
    (tm.setV r xs).role = tm.role := rfl
@[simp] theorem Team.setV_lanes (tm : Team) (r : Nat) (xs : List (Nat × W32)) :
    (tm.setV r xs).lanes = tm.lanes := rfl
@[simp] theorem Team.setV_replay (tm : Team) (r : Nat) (xs : List (Nat × W32)) :
    (tm.setV r xs).replay = tm.replay := rfl
@[simp] theorem Team.setV_order (tm : Team) (r : Nat) (xs : List (Nat × W32)) :
    (tm.setV r xs).order = tm.order := rfl
@[simp] theorem Team.setV_vcount (tm : Team) (r : Nat) (xs : List (Nat × W32)) :
    (tm.setV r xs).vcount = tm.vcount := rfl
@[simp] theorem Team.setV_scount (tm : Team) (r : Nat) (xs : List (Nat × W32)) :
    (tm.setV r xs).scount = tm.scount := rfl
@[simp] theorem Team.setV_placedV (tm : Team) (r : Nat) (xs : List (Nat × W32)) :
    (tm.setV r xs).placedV = tm.placedV := rfl
@[simp] theorem Team.setV_placedS (tm : Team) (r : Nat) (xs : List (Nat × W32)) :
    (tm.setV r xs).placedS = tm.placedS := rfl
@[simp] theorem Team.setV_s (tm : Team) (r : Nat) (xs : List (Nat × W32)) :
    (tm.setV r xs).s = tm.s := rfl
@[simp] theorem Team.setV_p (tm : Team) (r : Nat) (xs : List (Nat × W32)) :
    (tm.setV r xs).p = tm.p := rfl
@[simp] theorem Team.setV_splits (tm : Team) (r : Nat) (xs : List (Nat × W32)) :
    (tm.setV r xs).splits = tm.splits := rfl
@[simp] theorem Team.setV_rr (tm : Team) (r : Nat) (xs : List (Nat × W32)) :
    (tm.setV r xs).rr = tm.rr := rfl
@[simp] theorem Team.setV_yielded (tm : Team) (r : Nat) (xs : List (Nat × W32)) :
    (tm.setV r xs).yielded = tm.yielded := rfl
@[simp] theorem Team.setV_watch (tm : Team) (r : Nat) (xs : List (Nat × W32)) :
    (tm.setV r xs).watch = tm.watch := rfl
@[simp] theorem Team.setV_conds (tm : Team) (r : Nat) (xs : List (Nat × W32)) :
    (tm.setV r xs).conds = tm.conds := rfl
@[simp] theorem Team.setV_spill (tm : Team) (r : Nat) (xs : List (Nat × W32)) :
    (tm.setV r xs).spill = tm.spill := rfl
@[simp] theorem Team.setV_backing (tm : Team) (r : Nat) (xs : List (Nat × W32)) :
    (tm.setV r xs).backing = tm.backing := rfl
@[simp] theorem Team.setV_state (tm : Team) (r : Nat) (xs : List (Nat × W32)) :
    (tm.setV r xs).state = tm.state := rfl
@[simp] theorem Team.setV_prev (tm : Team) (r : Nat) (xs : List (Nat × W32)) :
    (tm.setV r xs).prev = tm.prev := rfl
@[simp] theorem Team.setV_fault (tm : Team) (r : Nat) (xs : List (Nat × W32)) :
    (tm.setV r xs).fault = tm.fault := rfl
@[simp] theorem Team.setV_tvec (tm : Team) (r : Nat) (xs : List (Nat × W32)) :
    (tm.setV r xs).tvec = tm.tvec := rfl
@[simp] theorem Team.setV_tpc (tm : Team) (r : Nat) (xs : List (Nat × W32)) :
    (tm.setV r xs).tpc = tm.tpc := rfl
@[simp] theorem Team.setV_tcause (tm : Team) (r : Nat) (xs : List (Nat × W32)) :
    (tm.setV r xs).tcause = tm.tcause := rfl
@[simp] theorem Team.setV_tslot (tm : Team) (r : Nat) (xs : List (Nat × W32)) :
    (tm.setV r xs).tslot = tm.tslot := rfl
@[simp] theorem Team.setV_tgrade (tm : Team) (r : Nat) (xs : List (Nat × W32)) :
    (tm.setV r xs).tgrade = tm.tgrade := rfl
@[simp] theorem Team.setV_inv (tm : Team) (r : Nat) (xs : List (Nat × W32)) :
    (tm.setV r xs).inv = tm.inv := rfl
@[simp] theorem Team.setV_vtrap (tm : Team) (r : Nat) (xs : List (Nat × W32)) :
    (tm.setV r xs).vtrap = tm.vtrap := rfl
@[simp] theorem Team.setV_dall (tm : Team) (r : Nat) (xs : List (Nat × W32)) :
    (tm.setV r xs).dall = tm.dall := rfl
@[simp] theorem Team.setV_smp (tm : Team) (r : Nat) (xs : List (Nat × W32)) :
    (tm.setV r xs).smp = tm.smp := rfl
@[simp] theorem Team.setV_tre (tm : Team) (r : Nat) (xs : List (Nat × W32)) :
    (tm.setV r xs).tre = tm.tre := rfl
@[simp] theorem Team.setV_bke (tm : Team) (r : Nat) (xs : List (Nat × W32)) :
    (tm.setV r xs).bke = tm.bke := rfl
@[simp] theorem Team.setV_att (tm : Team) (r : Nat) (xs : List (Nat × W32)) :
    (tm.setV r xs).att = tm.att := rfl
@[simp] theorem Team.setV_wpaddr (tm : Team) (r : Nat) (xs : List (Nat × W32)) :
    (tm.setV r xs).wpaddr = tm.wpaddr := rfl
@[simp] theorem Team.setV_wplen (tm : Team) (r : Nat) (xs : List (Nat × W32)) :
    (tm.setV r xs).wplen = tm.wplen := rfl
@[simp] theorem Team.setV_wprd (tm : Team) (r : Nat) (xs : List (Nat × W32)) :
    (tm.setV r xs).wprd = tm.wprd := rfl
@[simp] theorem Team.setV_wpwr (tm : Team) (r : Nat) (xs : List (Nat × W32)) :
    (tm.setV r xs).wpwr = tm.wpwr := rfl
@[simp] theorem Team.setV_wpen (tm : Team) (r : Nat) (xs : List (Nat × W32)) :
    (tm.setV r xs).wpen = tm.wpen := rfl
@[simp] theorem Team.setV_smpCount (tm : Team) (r : Nat) (xs : List (Nat × W32)) :
    (tm.setV r xs).smpCount = tm.smpCount := rfl
@[simp] theorem Team.setV_side (tm : Team) (r : Nat) (xs : List (Nat × W32)) :
    (tm.setV r xs).side = tm.side := rfl
@[simp] theorem Team.setV_commit (tm : Team) (r : Nat) (xs : List (Nat × W32)) :
    (tm.setV r xs).commit = tm.commit := rfl
@[simp] theorem Team.setV_source (tm : Team) (r : Nat) (xs : List (Nat × W32)) :
    (tm.setV r xs).source = tm.source := rfl
@[simp] theorem Team.setV_phase (tm : Team) (r : Nat) (xs : List (Nat × W32)) :
    (tm.setV r xs).phase = tm.phase := rfl
@[simp] theorem Team.setV_resp (tm : Team) (r : Nat) (xs : List (Nat × W32)) :
    (tm.setV r xs).resp = tm.resp := rfl
@[simp] theorem Team.setV_priv (tm : Team) (r : Nat) (xs : List (Nat × W32)) :
    (tm.setV r xs).priv = tm.priv := rfl
@[simp] theorem Team.setV_fenceW (tm : Team) (r : Nat) (xs : List (Nat × W32)) :
    (tm.setV r xs).fenceW = tm.fenceW := rfl
@[simp] theorem Team.setV_fenceR (tm : Team) (r : Nat) (xs : List (Nat × W32)) :
    (tm.setV r xs).fenceR = tm.fenceR := rfl
@[simp] theorem Team.setV_step (tm : Team) (r : Nat) (xs : List (Nat × W32)) :
    (tm.setV r xs).step = tm.step := rfl
@[simp] theorem Team.setV_freeEntries (tm : Team) (r : Nat) (xs : List (Nat × W32)) :
    (tm.setV r xs).freeEntries = tm.freeEntries := rfl

/-! ### The places an update changes -/

@[simp] theorem State.updCore_cores (s : State) (k : Nat) (f : Core → Core) :
    (s.updCore k f).cores = s.cores.upd k f := rfl
@[simp] theorem State.updCtx_ctxs (s : State) (c : Nat) (f : Ctx → Ctx) : (s.updCtx c f).ctxs = s.ctxs.upd c f := rfl
@[simp] theorem State.setPa_mem (s : State) (a : Nat) (bs : List Byte) :
    (s.setPa a bs).mem = Memory.setBytes s.mem a bs := rfl
@[simp] theorem Team.setS_s (tm : Team) (r : Nat) (x : W64) : (tm.setS r x).s = Regs.set tm.s r x := rfl

end Sys2Proof.Machine
end

