-- ==== Sys2Proof/Laws/Tables.lean ====
section
/-! SUPPORT. Tables, register files and memories: reading after writing, and the one form that every operation keeps. -/

namespace Sys2Proof.Machine

/-! ### Reading after writing -/

/-- One rule for reading after a write: the place written answers the value, every other what it held. -/
theorem Map.get_set {α : Type} (k : Nat) (a : α) (j : Nat) : ∀ m : Map α,
    (m.set k a).get j = if j = k then some a else m.get j
  | [] => by simp only [Map.set, Map.get, eq_comm]
  | (i, b) :: m => by
    simp only [Map.set]
    split
    · simp only [Map.get, eq_comm]
    · split
      · rename_i h; subst h; simp only [Map.get]; split <;> simp_all [eq_comm]
      · simp only [Map.get, Map.get_set k a j m]
        split
        · rw [if_neg (by omega)]
        · rfl

theorem Map.get_set_same {α : Type} (m : Map α) (k : Nat) (a : α) : (m.set k a).get k = some a := by
  simp [Map.get_set]

theorem Map.get_set_ne {α : Type} (m : Map α) {k j : Nat} (a : α) (h : j ≠ k) : (m.set k a).get j = m.get j := by
  simp [Map.get_set, h]

theorem Map.get_del_ne {α : Type} (m : Map α) {k j : Nat} (h : j ≠ k) : (m.del k).get j = m.get j := by
  induction m with
  | nil => rfl
  | cons e m ih =>
    obtain ⟨i, b⟩ := e
    simp only [Map.del]
    split
    · rename_i h1; subst h1; simp [Map.get, h.symm, ih]
    · simp only [Map.get, ih]

theorem Map.get_upd_same {α : Type} (m : Map α) (k : Nat) (f : α → α) : (m.upd k f).get k = (m.get k).map f := by
  unfold Map.upd
  split
  · rename_i a h; simp [h, Map.get_set_same]
  · rename_i h; simp [h]

theorem Map.get_upd_ne {α : Type} (m : Map α) {k j : Nat} (f : α → α) (h : j ≠ k) : (m.upd k f).get j = m.get j := by
  unfold Map.upd
  split
  · exact Map.get_set_ne m _ h
  · rfl

/-! ### The one form of a table -/

/-- Every number of a table lies above `n`. -/
def Map.above {α : Type} (n : Nat) (m : Map α) : Prop := ∀ e ∈ m, n < e.1

theorem Map.wf_cons {α : Type} (j : Nat) (b : α) (m : Map α) :
    Map.wf ((j, b) :: m) = true ↔ Map.above j m ∧ m.wf = true := by
  induction m generalizing j b with
  | nil => simp [Map.wf, Map.above]
  | cons e m ih =>
    obtain ⟨k, c⟩ := e
    simp only [Map.wf, Bool.and_eq_true, decide_eq_true_eq, ih k c, Map.above, List.mem_cons, forall_eq_or_imp]
    constructor
    · rintro ⟨h1, h2, h3⟩
      exact ⟨⟨h1, fun e he => Nat.lt_trans h1 (h2 e he)⟩, h2, h3⟩
    · rintro ⟨⟨h1, _⟩, h2⟩
      exact ⟨h1, h2⟩

/-- What a write leaves in a table: the new entry, and old ones. -/
theorem Map.mem_set {α : Type} {k : Nat} {a : α} : ∀ {m : Map α} {e : Nat × α}, e ∈ m.set k a → e = (k, a) ∨ e ∈ m
  | [], _, h => .inl (by simpa [Map.set] using h)
  | (j, b) :: m, e, h => by
    simp only [Map.set] at h
    split at h <;> try split at h
    all_goals simp only [List.mem_cons] at h ⊢
    · exact h
    · exact h.imp id .inr
    · exact h.elim (fun h => .inr (.inl h)) fun h => (Map.mem_set h).imp id .inr

/-- A removal leaves old entries only. -/
theorem Map.mem_del {α : Type} {k : Nat} : ∀ {m : Map α} {e : Nat × α}, e ∈ m.del k → e ∈ m
  | [], _, h => h
  | (j, b) :: m, e, h => by
    simp only [Map.del] at h
    split at h
    · exact .tail _ (Map.mem_del h)
    · rcases List.mem_cons.1 h with rfl | h
      · exact .head _
      · exact .tail _ (Map.mem_del h)

theorem Map.above_set {α : Type} {n k : Nat} {m : Map α} {a : α} (hm : Map.above n m) (hk : n < k) :
    Map.above n (m.set k a) := fun e he => (Map.mem_set he).elim (fun h => h ▸ hk) (hm e)

theorem Map.above_del {α : Type} {n : Nat} {m : Map α} (k : Nat) (hm : Map.above n m) : Map.above n (m.del k) :=
  fun e he => hm e (Map.mem_del he)

theorem Map.wf_set {α : Type} {m : Map α} (k : Nat) (a : α) (h : m.wf = true) : (m.set k a).wf = true := by
  induction m with
  | nil => rfl
  | cons e m ih =>
    obtain ⟨j, b⟩ := e
    obtain ⟨h1, h2⟩ := (Map.wf_cons j b m).1 h
    simp only [Map.set]
    split
    · rename_i hk
      refine (Map.wf_cons _ _ _).2 ⟨?_, h⟩
      simp only [Map.above, List.mem_cons, forall_eq_or_imp]
      exact ⟨hk, fun e he => Nat.lt_trans hk (h1 e he)⟩
    · split
      · rename_i hk; subst hk; exact (Map.wf_cons _ _ _).2 ⟨h1, h2⟩
      · exact (Map.wf_cons _ _ _).2 ⟨Map.above_set h1 (by omega), ih h2⟩

theorem Map.wf_del {α : Type} {m : Map α} (k : Nat) (h : m.wf = true) : (m.del k).wf = true := by
  induction m with
  | nil => rfl
  | cons e m ih =>
    obtain ⟨j, b⟩ := e
    obtain ⟨h1, h2⟩ := (Map.wf_cons j b m).1 h
    simp only [Map.del]
    split
    · exact ih h2
    · exact (Map.wf_cons _ _ _).2 ⟨Map.above_del k h1, ih h2⟩

theorem Map.wf_filter {α : Type} {m : Map α} (f : Nat × α → Bool) (h : m.wf = true) : Map.wf (m.filter f) = true := by
  induction m with
  | nil => rfl
  | cons e m ih =>
    obtain ⟨j, b⟩ := e
    obtain ⟨h1, h2⟩ := (Map.wf_cons j b m).1 h
    simp only [List.filter_cons]
    split
    · exact (Map.wf_cons _ _ _).2 ⟨fun e he => h1 e (List.mem_filter.1 he).1, ih h2⟩
    · exact ih h2

theorem Map.get_del_same {α : Type} (m : Map α) (k : Nat) : (m.del k).get k = none := by
  induction m with
  | nil => rfl
  | cons e m ih =>
    obtain ⟨j, b⟩ := e
    simp only [Map.del]
    split
    · exact ih
    · rename_i hk; simp only [Map.get, hk, if_false, ih]

/-! ### Register files and on-chip memories -/

theorem Regs.get_set_same {w : Nat} (r : Regs w) (k : Nat) (x : BitVec w) :
    Regs.get (Regs.set r k x) k = x := by
  unfold Regs.get Regs.set
  split
  · rename_i hx; simp [Map.get_del_same, hx]
  · simp [Map.get_set_same]

theorem Regs.get_set_ne {w : Nat} (r : Regs w) {k j : Nat} (x : BitVec w) (h : j ≠ k) :
    Regs.get (Regs.set r k x) j = Regs.get r j := by
  unfold Regs.get Regs.set
  split
  · rw [Map.get_del_ne r h]
  · rw [Map.get_set_ne r x h]

theorem Map.all_set {α : Type} {p : Nat × α → Bool} {m : Map α} {k : Nat} {a : α} (h : m.all p = true)
    (ha : p (k, a) = true) : (m.set k a).all p = true :=
  List.all_eq_true.2 fun e he => (Map.mem_set he).elim (fun h => h ▸ ha) (List.all_eq_true.1 h e)

theorem Map.all_del {α : Type} {p : Nat × α → Bool} {m : Map α} (k : Nat) (h : m.all p = true) :
    (m.del k).all p = true :=
  List.all_eq_true.2 fun e he => List.all_eq_true.1 h e (Map.mem_del he)

theorem Regs.wf_set {w : Nat} {r : Regs w} (k : Nat) (x : BitVec w) (h : Regs.wf r = true) :
    Regs.wf (Regs.set r k x) = true := by
  simp only [Regs.wf, Bool.and_eq_true] at h ⊢
  unfold Regs.set
  split
  · exact ⟨Map.wf_del k h.1, Map.all_del k h.2⟩
  · rename_i hx; exact ⟨Map.wf_set k x h.1, Map.all_set h.2 (by simpa using hx)⟩

theorem Regs.wf_setBytes {r : Regs 8} (a : Nat) (bs : List Byte) (h : Regs.wf r = true) :
    Regs.wf (Regs.setBytes r a bs) = true := by
  induction bs generalizing r a with
  | nil => exact h
  | cons b bs ih => exact ih (a + 1) (Regs.wf_set a b h)

theorem Regs.wf_setMany {w : Nat} {r : Regs w} (xs : List (Nat × BitVec w)) (h : Regs.wf r = true) :
    Regs.wf (Regs.setMany r xs) = true := by
  induction xs generalizing r with
  | nil => exact h
  | cons x xs ih => exact ih (Regs.wf_set x.1 x.2 h)

theorem Regs.get_setBytes_ne {r : Regs 8} {a j : Nat} {bs : List Byte} (h : j < a ∨ a + bs.length ≤ j) :
    Regs.get (Regs.setBytes r a bs) j = Regs.get r j := by
  induction bs generalizing r a with
  | nil => rfl
  | cons b bs ih =>
    simp only [List.length_cons] at h
    simp only [Regs.setBytes]
    rw [ih (by omega), Regs.get_set_ne r b (by omega)]

/-! ### Main memory -/

theorem Memory.wf_set {m : Memory} (a : Nat) (b : Byte) (h : Memory.wf m = true) : Memory.wf (Memory.set m a b) = true :=
  Map.wf_set a b h

theorem Memory.wf_setBytes {m : Memory} (a : Nat) (bs : List Byte) (h : Memory.wf m = true) :
    Memory.wf (Memory.setBytes m a bs) = true := by
  induction bs generalizing m a with
  | nil => exact h
  | cons b bs ih => exact ih (a + 1) (Memory.wf_set a b h)

theorem Memory.wf_filter {m : Memory} (f : Nat × Byte → Bool) (h : Memory.wf m = true) :
    Memory.wf (m.filter f) = true := Map.wf_filter f h

theorem Memory.get_set_same (m : Memory) (a : Nat) (b : Byte) : Memory.get (Memory.set m a b) a = b := by
  simp [Memory.get, Memory.set, Map.get_set_same]

theorem Memory.get_set_ne (m : Memory) {a j : Nat} (b : Byte) (h : j ≠ a) :
    Memory.get (Memory.set m a b) j = Memory.get m j := by
  simp [Memory.get, Memory.set, Map.get_set_ne m b h]

/-- Bytes outside a write read as before. -/
theorem Memory.get_setBytes_ne {m : Memory} {a j : Nat} {bs : List Byte} (h : j < a ∨ a + bs.length ≤ j) :
    Memory.get (Memory.setBytes m a bs) j = Memory.get m j := by
  induction bs generalizing m a with
  | nil => rfl
  | cons b bs ih =>
    simp only [List.length_cons] at h
    simp only [Memory.setBytes]
    rw [ih (by omega), Memory.get_set_ne m b (by omega)]

/-- A written byte reads back. -/
theorem Memory.get_setBytes_in {m : Memory} {a i : Nat} {bs : List Byte} (h : i < bs.length) :
    Memory.get (Memory.setBytes m a bs) (a + i) = bs[i] := by
  induction bs generalizing m a i with
  | nil => simp at h
  | cons b bs ih =>
    simp only [Memory.setBytes]
    cases i with
    | zero => rw [Memory.get_setBytes_ne (Or.inl (by omega)), Nat.add_zero, Memory.get_set_same]; rfl
    | succ i =>
      have := ih (m := Memory.set m a b) (a := a + 1) (i := i) (by simpa using h)
      rw [show a + (i + 1) = a + 1 + i by omega, this]; rfl

/-- Writing bytes and reading them back. -/
theorem Memory.bytes_setBytes (m : Memory) (a : Nat) (bs : List Byte) :
    Memory.bytes (Memory.setBytes m a bs) a bs.length = bs := by
  apply List.ext_getElem
  · simp [Memory.bytes]
  · intro i h1 h2
    simp [Memory.bytes, Memory.get_setBytes_in h2]

/-! ### Bytes, walks and lost units -/

theorem toBytes_length (n x : Nat) : (toBytes n x).length = n := by
  induction n generalizing x with
  | zero => rfl
  | succ n ih => simp only [toBytes, List.length_cons, ih]

/-- A table entry sends the walk on (R220). -/
theorem walk_table {m : Memory} {need : Need} {va l t : Nat} {e : W64}
    (he : BitVec.ofNat 64 (ofBytes (Memory.bytes m (t + 8 * (va / 2 ^ levelShift (l + 1) % 512)) 8)) = e)
    (h0 : bitAt e 0 = true) (h1 : bitAt e 1 = false) (hk : entryOk (l + 1) e = true) :
    walk m need va (l + 1) t = walk m need va l (entryPa e) := by
  rw [walk.eq_def]
  simp only [Nat.add_eq_zero_iff, Nat.one_ne_zero, and_false, if_false, he, h0, h1, hk, Bool.not_true, Bool.false_eq_true]

/-- A leaf ends the walk (R220). -/
theorem walk_leaf {m : Memory} {need : Need} {va l t : Nat} {e : W64}
    (he : BitVec.ofNat 64 (ofBytes (Memory.bytes m (t + 8 * (va / 2 ^ levelShift (l + 1) % 512)) 8)) = e)
    (h0 : bitAt e 0 = true) (h1 : bitAt e 1 = true) (hk : entryOk (l + 1) e = true) :
    walk m need va (l + 1) t =
      if leafAllows need e then .pa (entryPa e + va % 2 ^ levelShift (l + 1)) else .bad := by
  rw [walk.eq_def]
  simp only [Nat.add_eq_zero_iff, Nat.one_ne_zero, and_false, if_false, he, h0, h1, hk, Bool.not_true, Bool.false_eq_true,
    if_true]

/-- No unit is lost where none was found so and no pseudo-channel has failed (R240). -/
theorem unitLost_none {s : State} (hl : s.lost = []) (hf : s.failedCh = []) (u : Nat) : s.unitLost u = false := by
  simp only [State.unitLost, hl, hf, List.contains_nil, Bool.false_and, Bool.or_false]

end Sys2Proof.Machine
end

