-- ==== Sys2Proof/Laws/Issue.lean ====
section
/-! SUPPORT. One lemma per shared operation of a word in issue: where the word stands, what an answer makes of its split,
which parts of the machine each operation leaves alone, and what taking a trap does. -/

namespace Sys2Proof.Machine

/-! ### The word in issue -/

theorem at?_some {s : State} {a : At} (h : s.at? = some a) :
    s.core? a.k = some a.core ∧ a.core.teams.get a.t = some a.team ∧ a.team.splits.get a.p = some a.split ∧
      a.split.clause = some a.cl ∧ s.cur = some ⟨a.k, a.t, a.p, a.n, a.width⟩ := by
  unfold State.at? at h
  simp only [Option.bind_eq_bind, Option.bind_eq_some_iff] at h
  obtain ⟨u, hu, c, hc, tm, ht, sp, hs, cl, hl, he⟩ := h
  cases he
  exact ⟨hc, ht, hs, hl, hu⟩

theorem onWord_some {s : State} {a : At} (f : At → Out) (h : s.at? = some a) : onWord s f = .next (settle a (f a)) := by
  simp only [onWord, h]

theorem onWord_none {s : State} (f : At → Out) (h : s.at? = none) : onWord s f = .next s := by
  simp only [onWord, h]

theorem onLocal_some {s : State} {a : At} (f : State → At → Out) (h : s.at? = some a) :
    onLocal s f = onWord (s.settleSplit a.k a.t a.p) (f (s.settleSplit a.k a.t a.p)) := by
  simp only [onLocal, h]

theorem onTeam_some {s : State} {a : At} (f : State → At → Out) (h : s.at? = some a) :
    onTeam s f = onWord (s.settleTeam a.k a.t) (f (s.settleTeam a.k a.t)) := by
  simp only [onTeam, h]

/-- An encoded form whose meaning is `onWord` always completes. -/
theorem onWord_next (s : State) (f : At → Out) : ∃ t, onWord s f = .next t := by
  cases h : s.at? with
  | none => exact ⟨s, onWord_none f h⟩
  | some a => exact ⟨_, onWord_some f h⟩

theorem onLocal_next (s : State) (f : State → At → Out) : ∃ t, onLocal s f = .next t := by
  unfold onLocal; split
  · exact ⟨s, rfl⟩
  · exact onWord_next _ _

theorem onTeam_next (s : State) (f : State → At → Out) : ∃ t, onTeam s f = .next t := by
  unfold onTeam; split
  · exact ⟨s, rfl⟩
  · exact onWord_next _ _

/-! ### Cores, teams and splits after an update -/

theorem core?_updCore (s : State) (k : Nat) (f : Core → Core) (j : Nat) :
    (s.updCore k f).core? j = if j = k then (s.core? k).map f else s.core? j := by
  unfold State.core? State.updCore
  by_cases h : j = k
  · subst h; simp only [Map.get_upd_same, if_true]
  · simp only [h, Map.get_upd_ne _ _ h, if_false]

theorem core?_updCore_same {s : State} {k : Nat} {c : Core} (h : s.core? k = some c) (f : Core → Core) :
    (s.updCore k f).core? k = some (f c) := by
  simp only [core?_updCore, if_true, h, Option.map_some]

theorem core?_updCore_ne (s : State) {k j : Nat} (f : Core → Core) (h : j ≠ k) :
    (s.updCore k f).core? j = s.core? j := by
  simp only [core?_updCore, h, if_false]

theorem ctx?_updCtx (s : State) (c : Nat) (f : Ctx → Ctx) (d : Nat) :
    (s.updCtx c f).ctx? d = if d = c then (s.ctx? c).map f else s.ctx? d := by
  unfold State.ctx? State.updCtx
  by_cases h : d = c
  · subst h; simp only [Map.get_upd_same, if_true]
  · simp only [h, Map.get_upd_ne _ _ h, if_false]

/-- An update of a team touches that core's teams only, and of them that team only. -/
theorem core?_updTeam {s : State} {k t : Nat} {c : Core} {tm : Team} (f : Team → Team) (hc : s.core? k = some c)
    (ht : c.teams.get t = some tm) :
    ∃ c', (s.updTeam k t f).core? k = some c' ∧ c' = { c with teams := c'.teams } ∧ c'.teams.get t = some (f tm) ∧
      ∀ u, u ≠ t → c'.teams.get u = c.teams.get u := by
  refine ⟨{ c with teams := c.teams.upd t f }, core?_updCore_same hc _, rfl, ?_, fun u hu => Map.get_upd_ne _ _ hu⟩
  simp only [Map.get_upd_same, ht, Option.map_some]

theorem core?_updTeam_ne (s : State) {k j : Nat} (t : Nat) (f : Team → Team) (h : j ≠ k) :
    (s.updTeam k t f).core? j = s.core? j := core?_updCore_ne s _ h

theorem team?_updTeam {s : State} {k t : Nat} {tm : Team} (f : Team → Team) (h : s.team? k t = some tm) :
    (s.updTeam k t f).team? k t = some (f tm) := by
  unfold State.team? at *
  obtain ⟨c, hc, ht⟩ := Option.bind_eq_some_iff.mp h
  obtain ⟨c', h1, -, h3, -⟩ := core?_updTeam f hc ht
  simp only [h1, Option.bind_some, h3]

/-- The team of the word in issue replaced: that team only. -/
theorem core?_put {s : State} {a : At} (h : s.at? = some a) (tm : Team) :
    (a.put s tm).core? a.k = some { a.core with teams := a.core.teams.set a.t tm } := by
  obtain ⟨h1, h2, -⟩ := at?_some h
  simp only [At.put, State.updTeam, core?_updCore_same h1, Map.upd, h2]

theorem team?_put {s : State} {a : At} (h : s.at? = some a) (tm : Team) : (a.put s tm).team? a.k a.t = some tm := by
  simp only [State.team?, core?_put h, Option.bind_some, Map.get_set_same]

theorem core?_put_ne {s : State} {a : At} (tm : Team) {j : Nat} (hj : j ≠ a.k) : (a.put s tm).core? j = s.core? j :=
  core?_updTeam_ne s a.t _ hj

/-! ### How a word ends -/

/-- `yld` of a clause touches the list of yielded splits only (R33). -/
theorem yieldAt_only (tm : Team) (p : Nat) (hdr : W32) :
    tm.yieldAt p hdr = { tm with yielded := (tm.yieldAt p hdr).yielded } := by
  unfold Team.yieldAt; split <;> rfl

@[simp] theorem yieldAt_splits (tm : Team) (p : Nat) (hdr : W32) : (tm.yieldAt p hdr).splits = tm.splits := by
  unfold Team.yieldAt; split <;> rfl

/-- A word that is not the last of its clause: the split stands `n` words on, and its header and gate stay (R29). -/
theorem advance_within {sp : Split} {c : Clause} {n : Nat} (h : sp.clause = some c) (hn : c.pos + n ≤ cntOf c.hdr) :
    sp.advance n = { sp with clause := some { c with pos := c.pos + n }, passBreak := false, passWord := false, prepaid := none, popped := none,
                             heldAt := none, state := .ready, wait := .none } := by
  simp only [Split.advance, h, Nat.not_lt.mpr hn, if_false]

/-- The last word of a clause: the split goes to the next header (R29). -/
theorem advance_last {sp : Split} {c : Clause} {n : Nat} (h : sp.clause = some c) (hn : cntOf c.hdr < c.pos + n) :
    sp.advance n = sp.leave c.after false := by
  simp only [Split.advance, h, hn, if_true]

/-- Moving a split on touches its team's splits and yielded splits only. -/
theorem team?_advance {s : State} {k t p n : Nat} {tm : Team} (h : s.team? k t = some tm) :
    ∃ m, (s.advance k t p n).team? k t = some m ∧ m = { tm with splits := m.splits, yielded := m.yielded } ∧
      m.splits = tm.splits.upd p (·.advance n) := by
  unfold State.advance
  refine ⟨_, team?_updTeam _ h, ?_, ?_⟩
  · dsimp only; split
    · split
      · rw [yieldAt_only]
      · rfl
    · rfl
  · dsimp only; split
    · split
      · simp only [yieldAt_splits]
      · rfl
    · rfl

/-- Leaving a clause touches its team's splits and yielded splits only. -/
theorem team?_leaveClause {s : State} {k t p : Nat} {tm : Team} (hdr : W32) (pc : W64) (tf : Bool)
    (h : s.team? k t = some tm) :
    ∃ m, (s.leaveClause k t p hdr pc tf).team? k t = some m ∧ m = { tm with splits := m.splits, yielded := m.yielded } ∧
      m.splits = tm.splits.upd p (·.leave pc tf) := by
  unfold State.leaveClause
  refine ⟨_, team?_updTeam _ h, ?_, ?_⟩
  · rw [yieldAt_only]
  · simp only [yieldAt_splits]

/-- The counter of issued words is the only register of a core that counting touches (R174). -/
theorem countIssue_only (c : Core) (n : Nat) : c.countIssue n = { c with pcIssue := (c.countIssue n).pcIssue } := by
  unfold Core.countIssue; split <;> rfl

theorem team?_countIssue (s : State) (k n j t : Nat) :
    (s.updCore k (·.countIssue n)).team? j t = s.team? j t := by
  unfold State.team?
  rw [core?_updCore]
  split
  · rename_i h; subst h
    cases hc : s.core? j with
    | none => rfl
    | some c => simp only [Option.map_some, Option.bind_some]; rw [countIssue_only]
  · rfl

/-! ### Operands -/

/-- Named registers within the claim and no stream among the operands: the word goes on with them as they are. -/
theorem withOps_plain {a : At} {s : State} {named ops : List Opnd} (f : (State → State) → List Opnd → Out)
    (hc : a.team.claimsAll named = true) (hp : popsOf ops = []) : a.withOps s named ops f = f id ops := by
  simp only [At.withOps, hc, hp, Bool.not_true, Bool.false_eq_true, if_false, List.isEmpty_nil, if_true]

/-- A register outside the claim is class 0x2, and nothing of the word takes effect (R11, R264). -/
theorem withOps_unclaimed {a : At} {s : State} {named ops : List Opnd} (f : (State → State) → List Opnd → Out)
    (hc : a.team.claimsAll named = false) : a.withOps s named ops f = .trap s outsideClaim := by
  simp only [At.withOps, hc, Bool.not_false, if_true]

/-! ### Taking a trap (R265 to R267, R178) -/

/-- A trap routed to the handler: the split goes to the vector of the class with its frame saved, and the CSRs and the
side buffer tell of it. -/
theorem trap_handler {s : State} {k t : Nat} {tm : Team} (p : Nat) (tr : Trap) (pc resume h : W64) (hdr : W32) (w : Nat)
    (ht : s.team? k t = some tm) (ha : tm.att = false) (hs : tm.state = .active) (hv : tm.tvec ≠ 0)
    (hr : toHandler tr.code = true) :
    ∃ m, (s.trap k t p tr pc resume h hdr w).team? k t = some m ∧ m.state = .handler p ∧ m.tpc = resume ∧
      m.tcause = BitVec.ofNat 16 tr.code ∧ m.tgrade = gradeOf tr.code ∧
      m = { tm with state := m.state, tpc := m.tpc, tcause := m.tcause, tgrade := m.tgrade, side := m.side,
                    splits := m.splits } ∧
      ∀ q, q ≠ p → m.splits.get q = tm.splits.get q := by
  unfold State.trap
  rw [ht]
  dsimp only
  rw [if_neg (ne_true_of_eq_false ha), if_pos ⟨hs, hv, hr⟩]
  exact ⟨_, team?_updTeam _ ht, rfl, rfl, rfl, rfl, rfl, fun q hq => Map.get_upd_ne _ _ hq⟩

/-- A trap that no handler takes: the team is Held, with the fault told, and nothing else of it changes. -/
theorem trap_held {s : State} {k t : Nat} {tm : Team} (p : Nat) (tr : Trap) (pc resume h : W64) (hdr : W32) (w : Nat)
    (ht : s.team? k t = some tm) (ha : tm.att = false)
    (hn : ¬ (tm.state = .active ∧ tm.tvec ≠ 0 ∧ toHandler tr.code = true)) :
    (s.trap k t p tr pc resume h hdr w).team? k t =
      some { tm with state := .held, fault := some (tr.info' tm.side pc p s.tstamp) } := by
  unfold State.trap
  rw [ht]
  dsimp only
  rw [if_neg (ne_true_of_eq_false ha), if_neg hn]
  exact team?_updTeam _ ht

/-- Returning from the handler: the team is Active again with an empty side buffer (R128, R268). -/
theorem rett_team {s : State} {k t p : Nat} {tm : Team} (f : Frame) (ht : s.team? k t = some tm) :
    ∃ m, (s.rett k t p f).team? k t = some m ∧ m.state = .active ∧ m.side = SideBuf.zero ∧
      m = { tm with state := m.state, side := m.side, splits := m.splits } ∧
      ∀ q, q ≠ p → m.splits.get q = tm.splits.get q := by
  unfold State.rett
  exact ⟨_, team?_updTeam _ ht, rfl, rfl, rfl, fun q hq => Map.get_upd_ne _ _ hq⟩

/-! ### Memory -/

/-- Bytes written by PA read back, and every other byte stays. -/
theorem setPa_same (s : State) (a : Nat) (bs : List Byte) : Memory.bytes (s.setPa a bs).mem a bs.length = bs :=
  Memory.bytes_setBytes s.mem a bs

theorem setPa_ne {s : State} {a j : Nat} {bs : List Byte} (h : j < a ∨ a + bs.length ≤ j) :
    Memory.get (s.setPa a bs).mem j = Memory.get s.mem j := Memory.get_setBytes_ne h

theorem setPa_wf {s : State} (a : Nat) (bs : List Byte) (h : Memory.wf s.mem = true) :
    Memory.wf (s.setPa a bs).mem = true := Memory.wf_setBytes a bs h

end Sys2Proof.Machine
end

