-- ==== Sys2Proof/Laws/Words.lean ====
section
/-! SUPPORT. The words of an instruction read back: each field of an RRR, RI or BR word (02 R35), the operand of a code
(R41), the literals (R37), the parameter words (R140, R150, R188, R290), and what the decoder makes of them. -/

namespace Sys2Proof

/-! ### Fields of a word -/

theorem getLsbD_put (w : Nat) (x : BitVec w) (k i : Nat) :
    (put w x k).getLsbD i = (decide (i < 32) && decide (k ≤ i) && x.getLsbD (i - k)) := by
  simp only [put, BitVec.getLsbD_shiftLeft, BitVec.truncate_eq_setWidth, BitVec.getLsbD_setWidth]
  by_cases h : i < 32
  · by_cases h' : i < k
    · simp [h, h', Nat.not_le.mpr h']
    · simp [h, h', show k ≤ i by omega, show i - k < 32 by omega]
  · simp [h]

/-- A field reads back what was put at its place. -/
theorem extract_put {w k : Nat} (x : BitVec w) (hk : k + w ≤ 32) : (put w x k).extractLsb' k w = x := by
  apply BitVec.eq_of_getLsbD_eq
  intro i hi
  simp only [BitVec.getLsbD_extractLsb', getLsbD_put]
  simp [show k + i < 32 by omega, hi]

/-- A field reads zero where another field was put. -/
theorem extract_put_far {w k w' k' : Nat} (x : BitVec w) (h : k' + w' ≤ k ∨ k + w ≤ k') :
    (put w x k).extractLsb' k' w' = 0 := by
  apply BitVec.eq_of_getLsbD_eq
  intro i hi
  simp only [BitVec.getLsbD_extractLsb', getLsbD_put]
  rcases h with h | h
  · simp [show ¬ k ≤ k' + i by omega]
  · simp [BitVec.getLsbD_of_ge x (k' + i - k) (by omega)]

theorem bit_put (b : Bool) {k : Nat} (hk : k < 32) : (put 1 (BitVec.ofBool b) k).getLsbD k = b := by
  rw [getLsbD_put]; simp [hk]

theorem bit_put_far {w k : Nat} (x : BitVec w) {i : Nat} (h : i < k ∨ k + w ≤ i) : (put w x k).getLsbD i = false := by
  rw [getLsbD_put]
  rcases h with h | h
  · simp [show ¬ k ≤ i by omega]
  · simp [BitVec.getLsbD_of_ge x (i - k) (by omega)]

/-- The instruction word of an RRR form. -/
def rrrWord (opc d a b : BitVec 8) : BitVec 32 := put 8 opc 24 ||| put 8 d 16 ||| put 8 a 8 ||| put 8 b 0
/-- The instruction word of an RI form. -/
def riWord (opc d : BitVec 8) (imm : BitVec 16) : BitVec 32 := put 8 opc 24 ||| put 8 d 16 ||| put 16 imm 0
/-- The instruction word of a BR form. -/
def brWord (opc : BitVec 8) (off : BitVec 24) : BitVec 32 := put 8 opc 24 ||| put 24 off 0

theorem rrrWord_opc (opc : BitVec 8) (d : BitVec 8) (a : BitVec 8) (b : BitVec 8) :
    (rrrWord opc d a b).extractLsb' 24 8 = opc := by
  simp only [rrrWord, BitVec.extractLsb'_or,
    extract_put opc (k := 24) (by decide), extract_put_far d (k := 16) (k' := 24) (w' := 8) (by decide), extract_put_far a (k := 8) (k' := 24) (w' := 8) (by decide), extract_put_far b (k := 0) (k' := 24) (w' := 8) (by decide),
    BitVec.ofNat_eq_ofNat, BitVec.or_zero]

theorem rrrWord_d (opc : BitVec 8) (d : BitVec 8) (a : BitVec 8) (b : BitVec 8) :
    (rrrWord opc d a b).extractLsb' 16 8 = d := by
  simp only [rrrWord, BitVec.extractLsb'_or,
    extract_put_far opc (k := 24) (k' := 16) (w' := 8) (by decide), extract_put d (k := 16) (by decide), extract_put_far a (k := 8) (k' := 16) (w' := 8) (by decide), extract_put_far b (k := 0) (k' := 16) (w' := 8) (by decide),
    BitVec.ofNat_eq_ofNat, BitVec.zero_or, BitVec.or_zero]

theorem rrrWord_a (opc : BitVec 8) (d : BitVec 8) (a : BitVec 8) (b : BitVec 8) :
    (rrrWord opc d a b).extractLsb' 8 8 = a := by
  simp only [rrrWord, BitVec.extractLsb'_or,
    extract_put_far opc (k := 24) (k' := 8) (w' := 8) (by decide), extract_put_far d (k := 16) (k' := 8) (w' := 8) (by decide), extract_put a (k := 8) (by decide), extract_put_far b (k := 0) (k' := 8) (w' := 8) (by decide),
    BitVec.ofNat_eq_ofNat, BitVec.zero_or, BitVec.or_zero]

theorem rrrWord_b (opc : BitVec 8) (d : BitVec 8) (a : BitVec 8) (b : BitVec 8) :
    (rrrWord opc d a b).extractLsb' 0 8 = b := by
  simp only [rrrWord, BitVec.extractLsb'_or,
    extract_put_far opc (k := 24) (k' := 0) (w' := 8) (by decide), extract_put_far d (k := 16) (k' := 0) (w' := 8) (by decide), extract_put_far a (k := 8) (k' := 0) (w' := 8) (by decide), extract_put b (k := 0) (by decide),
    BitVec.ofNat_eq_ofNat, BitVec.zero_or]

theorem riWord_opc (opc : BitVec 8) (d : BitVec 8) (imm : BitVec 16) :
    (riWord opc d imm).extractLsb' 24 8 = opc := by
  simp only [riWord, BitVec.extractLsb'_or,
    extract_put opc (k := 24) (by decide), extract_put_far d (k := 16) (k' := 24) (w' := 8) (by decide), extract_put_far imm (k := 0) (k' := 24) (w' := 8) (by decide),
    BitVec.ofNat_eq_ofNat, BitVec.or_zero]

theorem riWord_d (opc : BitVec 8) (d : BitVec 8) (imm : BitVec 16) :
    (riWord opc d imm).extractLsb' 16 8 = d := by
  simp only [riWord, BitVec.extractLsb'_or,
    extract_put_far opc (k := 24) (k' := 16) (w' := 8) (by decide), extract_put d (k := 16) (by decide), extract_put_far imm (k := 0) (k' := 16) (w' := 8) (by decide),
    BitVec.ofNat_eq_ofNat, BitVec.zero_or, BitVec.or_zero]

theorem riWord_imm (opc : BitVec 8) (d : BitVec 8) (imm : BitVec 16) :
    (riWord opc d imm).extractLsb' 0 16 = imm := by
  simp only [riWord, BitVec.extractLsb'_or,
    extract_put_far opc (k := 24) (k' := 0) (w' := 16) (by decide), extract_put_far d (k := 16) (k' := 0) (w' := 16) (by decide), extract_put imm (k := 0) (by decide),
    BitVec.ofNat_eq_ofNat, BitVec.zero_or]

theorem brWord_opc (opc : BitVec 8) (off : BitVec 24) :
    (brWord opc off).extractLsb' 24 8 = opc := by
  simp only [brWord, BitVec.extractLsb'_or,
    extract_put opc (k := 24) (by decide), extract_put_far off (k := 0) (k' := 24) (w' := 8) (by decide),
    BitVec.ofNat_eq_ofNat, BitVec.or_zero]

theorem brWord_off (opc : BitVec 8) (off : BitVec 24) :
    (brWord opc off).extractLsb' 0 24 = off := by
  simp only [brWord, BitVec.extractLsb'_or,
    extract_put_far opc (k := 24) (k' := 0) (w' := 24) (by decide), extract_put off (k := 0) (by decide),
    BitVec.ofNat_eq_ofNat, BitVec.zero_or]

/-! ### Operands -/

/-- An operand is a literal. -/
def Opnd.isLit : Opnd → Bool
  | .lit _ => true
  | _ => false

theorem opndOf_code (o : Opnd) (l : Option (BitVec 32)) (h : ∀ w, o = .lit w → l = some w) :
    opndOf o.code l = some o := by
  cases o with
  | lit w => simp [h w rfl, opndOf, Opnd.code]
  | v n => have := n.isLt; simp [opndOf, Opnd.code, Nat.mod_eq_of_lt (show n.val < 256 by omega)]
  | s n =>
    have := n.isLt
    simp [opndOf, Opnd.code, Nat.mod_eq_of_lt (show 128 + n.val < 256 by omega)]
  | k n =>
    have := n.isLt
    simp [opndOf, Opnd.code, Nat.mod_eq_of_lt (show 192 + n.val < 256 by omega), show ¬ 192 + n.val < 128 by omega,
      show ¬ 192 + n.val - 128 < 64 by omega]
  | p n =>
    have := n.isLt
    simp [opndOf, Opnd.code, Nat.mod_eq_of_lt (show 224 + n.val < 256 by omega), show ¬ 224 + n.val < 128 by omega,
      show ¬ 224 + n.val - 128 < 64 by omega, show ¬ 224 + n.val - 192 < 31 by omega,
      show ¬ 224 + n.val = 223 by omega]
  | q n =>
    have := n.isLt
    simp [opndOf, Opnd.code, Nat.mod_eq_of_lt (show 240 + n.val < 256 by omega), show ¬ 240 + n.val < 128 by omega,
      show ¬ 240 + n.val - 128 < 64 by omega, show ¬ 240 + n.val - 192 < 31 by omega,
      show ¬ 240 + n.val - 224 < 8 by omega, show ¬ 240 + n.val = 223 by omega,
      show ¬ 240 + n.val = 232 by omega, show ¬ 240 + n.val = 233 by omega, show ¬ 240 + n.val = 234 by omega,
      show ¬ 240 + n.val = 235 by omega, show ¬ 240 + n.val = 236 by omega, show ¬ 240 + n.val = 237 by omega]
  | _ => simp [opndOf, Opnd.code]

theorem code_eq_lit (o : Opnd) : (o.code == 0xDF) = o.isLit := by
  cases o with
  | v n => have := n.isLt; simp [Opnd.code, Opnd.isLit, BitVec.toNat_eq]; omega
  | s n => have := n.isLt; simp [Opnd.code, Opnd.isLit, BitVec.toNat_eq]; omega
  | k n => have := n.isLt; simp [Opnd.code, Opnd.isLit, BitVec.toNat_eq]; omega
  | p n => have := n.isLt; simp [Opnd.code, Opnd.isLit, BitVec.toNat_eq]; omega
  | q n => have := n.isLt; simp [Opnd.code, Opnd.isLit, BitVec.toNat_eq]; omega
  | _ => rfl

/-- What the decoder must find in a field: an operand, with its literal only where the form admits one; or a plain
number, where it admits none. -/
def Fld.fits (admits : Bool) : Fld → Bool
  | .code _ => !admits
  | .op o => admits || !o.isLit

/-- The operand that the decoder reads from a field. -/
def Fld.opnd : Fld → Option Opnd
  | .code c => opndOf c none
  | .op o => some o

theorem takeWord_lits {admits : Bool} {x : Fld} (h : x.fits admits) (r : List (BitVec 32)) :
    ∃ l, takeWord (takesLit admits x.byte) (x.lits ++ r) = some (l, r) ∧ opndOf x.byte l = x.opnd ∧
      (takesLit admits x.byte).toNat = x.lits.length := by
  cases x with
  | code c => refine ⟨none, ?_⟩; simp_all [Fld.fits, takesLit, Fld.lits, takeWord, Fld.opnd, Fld.byte]
  | op o =>
    by_cases hl : o.isLit
    · cases o with
      | lit w =>
        refine ⟨some w, ?_⟩
        simp_all [Fld.fits, takesLit, Fld.lits, takeWord, Fld.opnd, Fld.byte, Opnd.litWord, Opnd.code, opndOf, Opnd.isLit]
      | _ => simp [Opnd.isLit] at hl
    · refine ⟨none, ?_⟩
      have hn : o.litWord = [] := by cases o <;> simp_all [Opnd.litWord, Opnd.isLit]
      have ht : takesLit admits o.code = false := by rw [takesLit, code_eq_lit]; simp_all
      refine ⟨?_, opndOf_code o none fun w hw => ?_, ?_⟩
      · simp [Fld.byte, Fld.lits, ht, hn, takeWord]
      · simp [hw, Opnd.isLit] at hl
      · simp [Fld.byte, Fld.lits, ht, hn]

/-! ### Whole instructions -/

/-- What `fieldsOf` reads from the words of an RRR form. -/
theorem fieldsOf_rrr {f : Form} {d a b : Fld} (opc : BitVec 8) (par : Option (BitVec 32)) (r : List (BitVec 32))
    (hp : f.x2 = par.isSome) (hd : d.fits f.dl) (ha : a.fits f.al) (hb : b.fits f.bl) :
    fieldsOf f (rrrWord opc d.byte a.byte b.byte) (par.toList ++ d.lits ++ a.lits ++ b.lits ++ r) =
      some (⟨d.byte, a.byte, b.byte, d.opnd, a.opnd, b.opnd, (rrrWord opc d.byte a.byte b.byte).extractLsb' 0 16,
        (rrrWord opc d.byte a.byte b.byte).extractLsb' 0 24, par.getD 0⟩,
        1 + (par.toList ++ d.lits ++ a.lits ++ b.lits).length) := by
  obtain ⟨ld, hd1, hd2, hd3⟩ := takeWord_lits hd (a.lits ++ (b.lits ++ r))
  obtain ⟨la, ha1, ha2, ha3⟩ := takeWord_lits ha (b.lits ++ r)
  obtain ⟨lb, hb1, hb2, hb3⟩ := takeWord_lits hb r
  have hx : takeWord f.x2 (par.toList ++ (d.lits ++ (a.lits ++ (b.lits ++ r)))) =
      some (par, d.lits ++ (a.lits ++ (b.lits ++ r))) := by
    cases par <;> simp_all [takeWord]
  have hn : f.x2.toNat = par.toList.length := by cases par <;> simp_all
  simp only [fieldsOf, rrrWord_d, rrrWord_a, rrrWord_b, List.append_assoc, hx, hd1, ha1, hb1, Option.bind_some,
    hd2, ha2, hb2, hd3, ha3, hb3, hn, List.length_append]
  simp [Nat.add_assoc]

theorem takesLit_false (c : BitVec 8) : takesLit false c = false := rfl
theorem takeWord_false (r : List (BitVec 32)) : takeWord false r = some (none, r) := rfl

/-- What `fieldsOf` reads from the words of an RI form: the fields that an RI form uses. -/
theorem fieldsOf_ri {f : Form} {d : Fld} (opc : BitVec 8) (imm : BitVec 16) (par : Option (BitVec 32))
    (r : List (BitVec 32)) (hp : f.x2 = par.isSome) (hd : d.fits f.dl) (ha : f.al = false) (hb : f.bl = false) :
    ∃ a b oa ob off, fieldsOf f (riWord opc d.byte imm) (par.toList ++ d.lits ++ r) =
      some (⟨d.byte, a, b, d.opnd, oa, ob, imm, off, par.getD 0⟩, 1 + (par.toList ++ d.lits).length) := by
  obtain ⟨ld, hd1, hd2, hd3⟩ := takeWord_lits hd r
  have hx : takeWord f.x2 (par.toList ++ (d.lits ++ r)) = some (par, d.lits ++ r) := by
    cases par <;> simp_all [takeWord]
  have hn : f.x2.toNat = par.toList.length := by cases par <;> simp_all
  refine ⟨(riWord opc d.byte imm).extractLsb' 8 8, (riWord opc d.byte imm).extractLsb' 0 8,
    opndOf ((riWord opc d.byte imm).extractLsb' 8 8) none, opndOf ((riWord opc d.byte imm).extractLsb' 0 8) none,
    (riWord opc d.byte imm).extractLsb' 0 24, ?_⟩
  simp only [fieldsOf, riWord_d, riWord_imm, List.append_assoc, hx, hd1, Option.bind_some, hd2, hd3, hn, ha, hb, takesLit_false,
    takeWord_false, List.length_append]
  simp [Nat.add_assoc]

theorem opcOf_rrr (opc d a b : BitVec 8) : opcOf (rrrWord opc d a b) = opc.toNat := by rw [opcOf, rrrWord_opc]
theorem opcOf_ri (opc d : BitVec 8) (imm : BitVec 16) : opcOf (riWord opc d imm) = opc.toNat := by
  rw [opcOf, riWord_opc]
theorem opcOf_br (opc : BitVec 8) (off : BitVec 24) : opcOf (brWord opc off) = opc.toNat := by rw [opcOf, brWord_opc]

/-- The decoder on the words of an RRR form, for privileged code. -/
theorem decode_rrr {e : Eng} {f : Form} {opc : BitVec 8} {d a b : Fld} {par : Option (BitVec 32)} {i : Instr}
    (hf : (formsOf e)[opc.toNat]? = some f) (hp : f.x2 = par.isSome)
    (hd : d.fits f.dl) (ha : a.fits f.al) (hb : b.fits f.bl)
    (hi : ∀ imm off, buildOf e ⟨d.byte, a.byte, b.byte, d.opnd, a.opnd, b.opnd, imm, off, par.getD 0⟩ opc.toNat = some i)
    (hw : i.wf = true) (r : List (BitVec 32)) :
    decode true e (rrrWords opc d a b par ++ r) = .ok (i, (rrrWords opc d a b par).length) := by
  have h : rrrWords opc d a b par ++ r =
    rrrWord opc d.byte a.byte b.byte :: (par.toList ++ d.lits ++ a.lits ++ b.lits ++ r) := rfl
  rw [h]
  simp only [decode, opcOf_rrr, hf, fieldsOf_rrr opc par r hp hd ha hb, hi, hw, Bool.not_true, Bool.and_false,
    Bool.false_eq_true, if_false, if_true]
  simp [rrrWords, Nat.add_comm]

/-- The decoder on the words of an RI form, for privileged code. -/
theorem decode_ri {e : Eng} {f : Form} {opc : BitVec 8} {d : Fld} {imm : BitVec 16} {par : Option (BitVec 32)} {i : Instr}
    (hf : (formsOf e)[opc.toNat]? = some f) (hp : f.x2 = par.isSome)
    (hd : d.fits f.dl) (ha : f.al = false) (hb : f.bl = false)
    (hi : ∀ a b oa ob off, buildOf e ⟨d.byte, a, b, d.opnd, oa, ob, imm, off, par.getD 0⟩ opc.toNat = some i)
    (hw : i.wf = true) (r : List (BitVec 32)) :
    decode true e (riWords opc d imm par ++ r) = .ok (i, (riWords opc d imm par).length) := by
  have h : riWords opc d imm par ++ r = riWord opc d.byte imm :: (par.toList ++ d.lits ++ r) := rfl
  obtain ⟨a, b, oa, ob, off, hx⟩ := fieldsOf_ri opc imm par r hp hd ha hb
  rw [h]
  simp only [decode, opcOf_ri, hf, hx, hi, hw, Bool.not_true, Bool.and_false, Bool.false_eq_true, if_false, if_true]
  simp [riWords, Nat.add_comm]

/-- The decoder on the word of a BR form, for privileged code. -/
theorem decode_br {e : Eng} {opc : BitVec 8} {off : BitVec 24} {i : Instr}
    (hf : (formsOf e)[opc.toNat]? = some Form.plain)
    (hi : ∀ d a b od oa ob imm, buildOf e ⟨d, a, b, od, oa, ob, imm, off, 0⟩ opc.toNat = some i)
    (hw : i.wf = true) (r : List (BitVec 32)) :
    decode true e (brWords opc off ++ r) = .ok (i, (brWords opc off).length) := by
  have h : brWords opc off ++ r = brWord opc off :: r := rfl
  rw [h]
  simp only [decode, opcOf_br, hf, fieldsOf, Form.plain, takesLit, takeWord, Bool.false_and, Bool.false_eq_true, if_false,
    Option.bind_some, brWord_off, Option.getD_none, hi, hw, Bool.not_true, Bool.and_false, if_true]
  rfl

/-! ### Parameter words and fence fields -/

theorem XPar.ofWord_toWord (p : XPar) : XPar.ofWord p.toWord = some p := by
  simp [XPar.ofWord, XPar.toWord, putB, BitVec.extractLsb'_or, extract_put, extract_put_far, bit_put_far,
    bit_put, -BitVec.getLsbD_eq_getElem]

theorem MPar.ofWord_toWord (p : MPar) : MPar.ofWord p.toWord = some p := by
  simp [MPar.ofWord, MPar.toWord, putB, BitVec.extractLsb'_or, extract_put, extract_put_far, bit_put_far,
    bit_put, -BitVec.getLsbD_eq_getElem]

theorem AxPar.ofWord_toWord (p : AxPar) : AxPar.ofWord p.toWord = some p := by
  simp [AxPar.ofWord, AxPar.toWord, putB, BitVec.extractLsb'_or, extract_put, extract_put_far, bit_put_far,
    bit_put, -BitVec.getLsbD_eq_getElem]

theorem SeqPar.ofWord_toWord (p : SeqPar) : SeqPar.ofWord p.toWord = some p := by
  simp [SeqPar.ofWord, SeqPar.toWord, putB, BitVec.extractLsb'_or, extract_put, extract_put_far, bit_put_far,
    bit_put, -BitVec.getLsbD_eq_getElem]

theorem solWord_rest (rel : Bool) : solRest (solWord rel) = true := by
  simp [solRest, solWord, putB, extract_put_far]

theorem solWord_rel (rel : Bool) : (solWord rel).getLsbD 21 = rel := bit_put rel (by decide)

theorem fenceImm_scope (scope : BitVec 3) (acq rel : Bool) : (fenceImm scope acq rel).extractLsb' 0 3 = scope := by
  apply BitVec.eq_of_getLsbD_eq
  intro i hi
  simp [fenceImm, -BitVec.getLsbD_eq_getElem, hi, show i < 4 by omega, show i < 16 by omega]

theorem fenceImm_acq (scope : BitVec 3) (acq rel : Bool) : (fenceImm scope acq rel).getLsbD 3 = acq := by
  simp [fenceImm, -BitVec.getLsbD_eq_getElem]

theorem fenceImm_rel (scope : BitVec 3) (acq rel : Bool) : (fenceImm scope acq rel).getLsbD 4 = rel := by
  simp [fenceImm, -BitVec.getLsbD_eq_getElem]

theorem fenceImm_rest (scope : BitVec 3) (acq rel : Bool) : (fenceImm scope acq rel).extractLsb' 5 11 = 0 := by
  apply BitVec.eq_of_getLsbD_eq
  intro i hi
  simp [fenceImm, -BitVec.getLsbD_eq_getElem]
  intro _
  exact ⟨⟨fun _ => BitVec.getLsbD_of_ge _ _ (by omega), fun _ _ _ h => by omega⟩, fun _ _ _ h => by omega⟩

theorem csr_addr (x : BitVec 12) : (x.zeroExtend 16).extractLsb' 0 12 = x := by
  apply BitVec.eq_of_getLsbD_eq
  intro i hi
  simp [-BitVec.getLsbD_eq_getElem, hi, show i < 16 by omega]

theorem csr_rest (x : BitVec 12) : (x.zeroExtend 16).extractLsb' 12 4 = 0 := by
  apply BitVec.eq_of_getLsbD_eq
  intro i hi
  simp [-BitVec.getLsbD_eq_getElem]

theorem fits_of {admits : Bool} {o : Opnd} (h : o.isLit = false) : (Fld.op o).fits admits = true := by simp [Fld.fits, h]
theorem fits_lit {o : Opnd} : (Fld.op o).fits true = true := rfl

/-! ### Operands that are no literal -/

theorem Opnd.isLit_of_isV {o : Opnd} (h : o.isV = true) : o.isLit = false := by cases o <;> simp_all [isV, isLit]
theorem Opnd.isLit_of_isS {o : Opnd} (h : o.isS = true) : o.isLit = false := by cases o <;> simp_all [isS, isLit]
theorem Opnd.isLit_of_isP {o : Opnd} (h : o.isP = true) : o.isLit = false := by cases o <;> simp_all [isP, isLit]
theorem Opnd.isLit_of_isQ {o : Opnd} (h : o.isQ = true) : o.isLit = false := by cases o <;> simp_all [isQ, isLit]
theorem Opnd.isLit_of_isVS {o : Opnd} (h : o.isVS = true) : o.isLit = false := by
  cases o <;> simp_all [isVS, isV, isS, isLit]
theorem Opnd.isLit_of_isRun {m : Nat} {o : Opnd} (h : o.isRun m = true) : o.isLit = false := by
  cases o <;> simp_all [isRun, isLit]

end Sys2Proof
end

