-- ==== Sys2Proof/Laws/PerInstr.lean ====
section
/-! SUPPORT. Decoding undoes encoding, instruction by instruction (02 R35 to R42, 03 R55 to R60): the words that `encode`
writes for a well-formed instruction, followed by any words, decode to that instruction and its number of words. Rows
without an encoding have nothing to decode. -/

namespace Sys2Proof.Laws.RoundTrip

set_option Elab.async false

/-- The two parts of a limit. -/
theorem both {a b : Bool} : (a && b) = true → a = true ∧ b = true := (Bool.and_eq_true_iff).1

/-- The words of the instruction decode to it, for code of the privilege it needs. -/
def Statement (i : Instr) : Prop :=
  i.wf = true → ∀ e ws r, i.encode = some (e, ws) → decode true e (ws ++ r) = .ok (i, ws.length)

theorem of_some {i : Instr} {e : Eng} {ws : List (BitVec 32)} (he : i.encode = some (e, ws))
    (h : i.wf = true → ∀ r, decode true e (ws ++ r) = .ok (i, ws.length)) : Statement i := by
  intro hw e' ws' r h'
  obtain ⟨rfl, rfl⟩ : e = e' ∧ ws = ws' := by simpa using he.symm.trans h'
  exact h hw r

/-- A row with no encoding. -/
theorem of_none {i : Instr} (h : i.encode = none) : Statement i := by
  intro _ e ws r h'
  simp [h] at h'

theorem nop : Statement (.nop) :=
  of_some rfl fun hw => decode_rrr rfl rfl rfl rfl rfl (fun _ _ => rfl) hw
theorem br (off : BitVec 24) : Statement (.br off) :=
  of_some rfl fun hw => decode_br rfl (fun _ _ _ _ _ _ _ => rfl) hw
theorem bz (d : Opnd) (imm : BitVec 16) : Statement (.bz d imm) :=
  of_some rfl fun hw => decode_ri rfl rfl fits_lit rfl rfl (fun _ _ _ _ _ => rfl) hw
theorem bnz (d : Opnd) (imm : BitVec 16) : Statement (.bnz d imm) :=
  of_some rfl fun hw => decode_ri rfl rfl fits_lit rfl rfl (fun _ _ _ _ _ => rfl) hw
theorem brS (a : Opnd) : Statement (.brS a) :=
  of_some rfl fun hw => decode_rrr rfl rfl rfl (fits_of (Opnd.isLit_of_isS hw)) rfl (fun _ _ => rfl) hw
theorem bdiv (d : Opnd) (imm : BitVec 16) (join : BitVec 32) : Statement (.bdiv d imm join) :=
  of_some rfl fun hw => decode_ri rfl rfl (fits_of (Opnd.isLit_of_isP hw)) rfl rfl (fun _ _ _ _ _ => rfl) hw
theorem jtab (n : BitVec 8) (a b : Opnd) (join : BitVec 32) : Statement (.jtab n a b join) :=
  of_some rfl fun hw => decode_rrr rfl rfl rfl (fits_of (Opnd.isLit_of_isV (both (both hw).1).2)) fits_lit (fun _ _ => rfl) hw
theorem kill : Statement (.kill) :=
  of_some rfl fun hw => decode_rrr rfl rfl rfl rfl rfl (fun _ _ => rfl) hw
theorem call (off : BitVec 24) : Statement (.call off) :=
  of_some rfl fun hw => decode_br rfl (fun _ _ _ _ _ _ _ => rfl) hw
theorem callS (a : Opnd) : Statement (.callS a) :=
  of_some rfl fun hw => decode_rrr rfl rfl rfl (fits_of (Opnd.isLit_of_isS hw)) rfl (fun _ _ => rfl) hw
theorem ret : Statement (.ret) :=
  of_some rfl fun hw => decode_rrr rfl rfl rfl rfl rfl (fun _ _ => rfl) hw
theorem yield : Statement (.yield) :=
  of_some rfl fun hw => decode_rrr rfl rfl rfl rfl rfl (fun _ _ => rfl) hw
theorem halt : Statement (.halt) :=
  of_some rfl fun hw => decode_rrr rfl rfl rfl rfl rfl (fun _ _ => rfl) hw
theorem maskGet (d a : Opnd) : Statement (.maskGet d a) :=
  of_some rfl fun hw => decode_rrr rfl rfl (fits_of (Opnd.isLit_of_isS (both hw).1)) fits_lit rfl (fun _ _ => rfl) hw
theorem maskAnd (a : Opnd) : Statement (.maskAnd a) :=
  of_some rfl fun hw => decode_rrr rfl rfl rfl (fits_of (Opnd.isLit_of_isP hw)) rfl (fun _ _ => rfl) hw
theorem maskSet (a b : Opnd) : Statement (.maskSet a b) :=
  of_some rfl fun hw => decode_rrr rfl rfl rfl fits_lit fits_lit (fun _ _ => rfl) hw
theorem claimV (imm : BitVec 16) : Statement (.claimV imm) :=
  of_some rfl fun hw => decode_ri rfl rfl rfl rfl rfl (fun _ _ _ _ _ => rfl) hw
theorem giveV (imm : BitVec 16) : Statement (.giveV imm) :=
  of_some rfl fun hw => decode_ri rfl rfl rfl rfl rfl (fun _ _ _ _ _ => rfl) hw
theorem claimS (imm : BitVec 16) : Statement (.claimS imm) :=
  of_some rfl fun hw => decode_ri rfl rfl rfl rfl rfl (fun _ _ _ _ _ => rfl) hw
theorem giveS (imm : BitVec 16) : Statement (.giveS imm) :=
  of_some rfl fun hw => decode_ri rfl rfl rfl rfl rfl (fun _ _ _ _ _ => rfl) hw
theorem claimA (d : Opnd) (imm : BitVec 16) : Statement (.claimA d imm) :=
  of_some rfl fun hw => decode_ri rfl rfl (fits_of (Opnd.isLit_of_isS (both hw).1)) rfl rfl (fun _ _ _ _ _ => rfl) hw
theorem giveA (imm : BitVec 16) : Statement (.giveA imm) :=
  of_some rfl fun hw => decode_ri rfl rfl rfl rfl rfl (fun _ _ _ _ _ => rfl) hw
theorem ready (n : BitVec 8) (a b : Opnd) : Statement (.ready n a b) :=
  of_some rfl fun hw => decode_rrr rfl rfl rfl fits_lit fits_lit (fun _ _ => rfl) hw
theorem phase (imm : BitVec 16) (entry : BitVec 32) : Statement (.phase imm entry) :=
  of_some rfl fun hw => decode_ri rfl rfl rfl rfl rfl (fun _ _ _ _ _ => rfl) hw
theorem wait (a b : Opnd) : Statement (.wait a b) :=
  of_some rfl fun hw => decode_rrr rfl rfl rfl fits_lit fits_lit (fun _ _ => rfl) hw
theorem watch (a b : Opnd) : Statement (.watch a b) :=
  of_some rfl fun hw => decode_rrr rfl rfl rfl fits_lit fits_lit (fun _ _ => rfl) hw
theorem trap (imm : BitVec 16) : Statement (.trap imm) :=
  of_some rfl fun hw => decode_ri rfl rfl rfl rfl rfl (fun _ _ _ _ _ => rfl) hw
theorem sys (d : Opnd) (imm : BitVec 16) : Statement (.sys d imm) :=
  of_some rfl fun hw => decode_ri rfl rfl (fits_of (Opnd.isLit_of_isRun hw)) rfl rfl (fun _ _ _ _ _ => rfl) hw
theorem rett : Statement (.rett) :=
  of_some rfl fun hw => decode_rrr rfl rfl rfl rfl rfl (fun _ _ => rfl) hw
theorem brk (imm : BitVec 16) : Statement (.brk imm) :=
  of_some rfl fun hw => decode_ri rfl rfl rfl rfl rfl (fun _ _ _ _ _ => rfl) hw
theorem sadd (d a b : Opnd) : Statement (.sadd d a b) :=
  of_some rfl fun hw => decode_rrr rfl rfl (fits_of (Opnd.isLit_of_isS (both (both hw).1).1)) fits_lit fits_lit (fun _ _ => rfl) hw
theorem ssub (d a b : Opnd) : Statement (.ssub d a b) :=
  of_some rfl fun hw => decode_rrr rfl rfl (fits_of (Opnd.isLit_of_isS (both (both hw).1).1)) fits_lit fits_lit (fun _ _ => rfl) hw
theorem smul (d a b : Opnd) : Statement (.smul d a b) :=
  of_some rfl fun hw => decode_rrr rfl rfl (fits_of (Opnd.isLit_of_isS (both (both hw).1).1)) fits_lit fits_lit (fun _ _ => rfl) hw
theorem smulh (d a b : Opnd) : Statement (.smulh d a b) :=
  of_some rfl fun hw => decode_rrr rfl rfl (fits_of (Opnd.isLit_of_isS (both (both hw).1).1)) fits_lit fits_lit (fun _ _ => rfl) hw
theorem smulhu (d a b : Opnd) : Statement (.smulhu d a b) :=
  of_some rfl fun hw => decode_rrr rfl rfl (fits_of (Opnd.isLit_of_isS (both (both hw).1).1)) fits_lit fits_lit (fun _ _ => rfl) hw
theorem sand (d a b : Opnd) : Statement (.sand d a b) :=
  of_some rfl fun hw => decode_rrr rfl rfl (fits_of (Opnd.isLit_of_isS (both (both hw).1).1)) fits_lit fits_lit (fun _ _ => rfl) hw
theorem sor (d a b : Opnd) : Statement (.sor d a b) :=
  of_some rfl fun hw => decode_rrr rfl rfl (fits_of (Opnd.isLit_of_isS (both (both hw).1).1)) fits_lit fits_lit (fun _ _ => rfl) hw
theorem sxor (d a b : Opnd) : Statement (.sxor d a b) :=
  of_some rfl fun hw => decode_rrr rfl rfl (fits_of (Opnd.isLit_of_isS (both (both hw).1).1)) fits_lit fits_lit (fun _ _ => rfl) hw
theorem sandn (d a b : Opnd) : Statement (.sandn d a b) :=
  of_some rfl fun hw => decode_rrr rfl rfl (fits_of (Opnd.isLit_of_isS (both (both hw).1).1)) fits_lit fits_lit (fun _ _ => rfl) hw
theorem sshl (d a b : Opnd) : Statement (.sshl d a b) :=
  of_some rfl fun hw => decode_rrr rfl rfl (fits_of (Opnd.isLit_of_isS (both (both hw).1).1)) fits_lit fits_lit (fun _ _ => rfl) hw
theorem sshr (d a b : Opnd) : Statement (.sshr d a b) :=
  of_some rfl fun hw => decode_rrr rfl rfl (fits_of (Opnd.isLit_of_isS (both (both hw).1).1)) fits_lit fits_lit (fun _ _ => rfl) hw
theorem ssar (d a b : Opnd) : Statement (.ssar d a b) :=
  of_some rfl fun hw => decode_rrr rfl rfl (fits_of (Opnd.isLit_of_isS (both (both hw).1).1)) fits_lit fits_lit (fun _ _ => rfl) hw
theorem smin (d a b : Opnd) : Statement (.smin d a b) :=
  of_some rfl fun hw => decode_rrr rfl rfl (fits_of (Opnd.isLit_of_isS (both (both hw).1).1)) fits_lit fits_lit (fun _ _ => rfl) hw
theorem smax (d a b : Opnd) : Statement (.smax d a b) :=
  of_some rfl fun hw => decode_rrr rfl rfl (fits_of (Opnd.isLit_of_isS (both (both hw).1).1)) fits_lit fits_lit (fun _ _ => rfl) hw
theorem sminu (d a b : Opnd) : Statement (.sminu d a b) :=
  of_some rfl fun hw => decode_rrr rfl rfl (fits_of (Opnd.isLit_of_isS (both (both hw).1).1)) fits_lit fits_lit (fun _ _ => rfl) hw
theorem smaxu (d a b : Opnd) : Statement (.smaxu d a b) :=
  of_some rfl fun hw => decode_rrr rfl rfl (fits_of (Opnd.isLit_of_isS (both (both hw).1).1)) fits_lit fits_lit (fun _ _ => rfl) hw
theorem seq (d a b : Opnd) : Statement (.seq d a b) :=
  of_some rfl fun hw => decode_rrr rfl rfl (fits_of (Opnd.isLit_of_isS (both (both hw).1).1)) fits_lit fits_lit (fun _ _ => rfl) hw
theorem sne (d a b : Opnd) : Statement (.sne d a b) :=
  of_some rfl fun hw => decode_rrr rfl rfl (fits_of (Opnd.isLit_of_isS (both (both hw).1).1)) fits_lit fits_lit (fun _ _ => rfl) hw
theorem slt (d a b : Opnd) : Statement (.slt d a b) :=
  of_some rfl fun hw => decode_rrr rfl rfl (fits_of (Opnd.isLit_of_isS (both (both hw).1).1)) fits_lit fits_lit (fun _ _ => rfl) hw
theorem sle (d a b : Opnd) : Statement (.sle d a b) :=
  of_some rfl fun hw => decode_rrr rfl rfl (fits_of (Opnd.isLit_of_isS (both (both hw).1).1)) fits_lit fits_lit (fun _ _ => rfl) hw
theorem sltu (d a b : Opnd) : Statement (.sltu d a b) :=
  of_some rfl fun hw => decode_rrr rfl rfl (fits_of (Opnd.isLit_of_isS (both (both hw).1).1)) fits_lit fits_lit (fun _ _ => rfl) hw
theorem sleu (d a b : Opnd) : Statement (.sleu d a b) :=
  of_some rfl fun hw => decode_rrr rfl rfl (fits_of (Opnd.isLit_of_isS (both (both hw).1).1)) fits_lit fits_lit (fun _ _ => rfl) hw
theorem scsel (d a b : Opnd) : Statement (.scsel d a b) :=
  of_some rfl fun hw => decode_rrr rfl rfl (fits_of (Opnd.isLit_of_isS (both (both hw).1).1)) fits_lit fits_lit (fun _ _ => rfl) hw
theorem smov (d a : Opnd) : Statement (.smov d a) :=
  of_some rfl fun hw => decode_rrr rfl rfl (fits_of (Opnd.isLit_of_isS (both hw).1)) fits_lit rfl (fun _ _ => rfl) hw
theorem smovi (d : Opnd) (imm : BitVec 16) : Statement (.smovi d imm) :=
  of_some rfl fun hw => decode_ri rfl rfl (fits_of (Opnd.isLit_of_isS hw)) rfl rfl (fun _ _ _ _ _ => rfl) hw
theorem sorhi (d : Opnd) (imm : BitVec 16) : Statement (.sorhi d imm) :=
  of_some rfl fun hw => decode_ri rfl rfl (fits_of (Opnd.isLit_of_isS hw)) rfl rfl (fun _ _ _ _ _ => rfl) hw
theorem saddi (d : Opnd) (imm : BitVec 16) : Statement (.saddi d imm) :=
  of_some rfl fun hw => decode_ri rfl rfl (fits_of (Opnd.isLit_of_isS hw)) rfl rfl (fun _ _ _ _ _ => rfl) hw
theorem spopc (d a : Opnd) : Statement (.spopc d a) :=
  of_some rfl fun hw => decode_rrr rfl rfl (fits_of (Opnd.isLit_of_isS (both hw).1)) fits_lit rfl (fun _ _ => rfl) hw
theorem sclz (d a : Opnd) : Statement (.sclz d a) :=
  of_some rfl fun hw => decode_rrr rfl rfl (fits_of (Opnd.isLit_of_isS (both hw).1)) fits_lit rfl (fun _ _ => rfl) hw
theorem sbfe (d a b : Opnd) : Statement (.sbfe d a b) :=
  of_some rfl fun hw => decode_rrr rfl rfl (fits_of (Opnd.isLit_of_isS (both (both hw).1).1)) fits_lit fits_lit (fun _ _ => rfl) hw
theorem sbfi (d a b : Opnd) : Statement (.sbfi d a b) :=
  of_some rfl fun hw => decode_rrr rfl rfl (fits_of (Opnd.isLit_of_isS (both (both hw).1).1)) fits_lit fits_lit (fun _ _ => rfl) hw
theorem slane (d a b : Opnd) : Statement (.slane d a b) :=
  of_some rfl fun hw => decode_rrr rfl rfl (fits_of (Opnd.isLit_of_isS (both (both hw).1).1)) (fits_of (Opnd.isLit_of_isV (both (both hw).1).2)) fits_lit (fun _ _ => rfl) hw
theorem vadd (d a b : Opnd) : Statement (.vadd d a b) :=
  of_some rfl fun hw => decode_rrr rfl rfl (fits_of (Opnd.isLit_of_isV (both (both hw).1).1)) fits_lit fits_lit (fun _ _ => rfl) hw
theorem vsub (d a b : Opnd) : Statement (.vsub d a b) :=
  of_some rfl fun hw => decode_rrr rfl rfl (fits_of (Opnd.isLit_of_isV (both (both hw).1).1)) fits_lit fits_lit (fun _ _ => rfl) hw
theorem vmul (d a b : Opnd) : Statement (.vmul d a b) :=
  of_some rfl fun hw => decode_rrr rfl rfl (fits_of (Opnd.isLit_of_isV (both (both hw).1).1)) fits_lit fits_lit (fun _ _ => rfl) hw
theorem vmulh (d a b : Opnd) : Statement (.vmulh d a b) :=
  of_some rfl fun hw => decode_rrr rfl rfl (fits_of (Opnd.isLit_of_isV (both (both hw).1).1)) fits_lit fits_lit (fun _ _ => rfl) hw
theorem vmulhu (d a b : Opnd) : Statement (.vmulhu d a b) :=
  of_some rfl fun hw => decode_rrr rfl rfl (fits_of (Opnd.isLit_of_isV (both (both hw).1).1)) fits_lit fits_lit (fun _ _ => rfl) hw
theorem vmad (d a b : Opnd) : Statement (.vmad d a b) :=
  of_some rfl fun hw => decode_rrr rfl rfl (fits_of (Opnd.isLit_of_isV (both (both hw).1).1)) fits_lit fits_lit (fun _ _ => rfl) hw
theorem vmin (d a b : Opnd) : Statement (.vmin d a b) :=
  of_some rfl fun hw => decode_rrr rfl rfl (fits_of (Opnd.isLit_of_isV (both (both hw).1).1)) fits_lit fits_lit (fun _ _ => rfl) hw
theorem vmax (d a b : Opnd) : Statement (.vmax d a b) :=
  of_some rfl fun hw => decode_rrr rfl rfl (fits_of (Opnd.isLit_of_isV (both (both hw).1).1)) fits_lit fits_lit (fun _ _ => rfl) hw
theorem vminu (d a b : Opnd) : Statement (.vminu d a b) :=
  of_some rfl fun hw => decode_rrr rfl rfl (fits_of (Opnd.isLit_of_isV (both (both hw).1).1)) fits_lit fits_lit (fun _ _ => rfl) hw
theorem vmaxu (d a b : Opnd) : Statement (.vmaxu d a b) :=
  of_some rfl fun hw => decode_rrr rfl rfl (fits_of (Opnd.isLit_of_isV (both (both hw).1).1)) fits_lit fits_lit (fun _ _ => rfl) hw
theorem vabs (d a : Opnd) : Statement (.vabs d a) :=
  of_some rfl fun hw => decode_rrr rfl rfl (fits_of (Opnd.isLit_of_isV (both hw).1)) fits_lit rfl (fun _ _ => rfl) hw
theorem vneg (d a : Opnd) : Statement (.vneg d a) :=
  of_some rfl fun hw => decode_rrr rfl rfl (fits_of (Opnd.isLit_of_isV (both hw).1)) fits_lit rfl (fun _ _ => rfl) hw
theorem vand (d a b : Opnd) : Statement (.vand d a b) :=
  of_some rfl fun hw => decode_rrr rfl rfl (fits_of (Opnd.isLit_of_isV (both (both hw).1).1)) fits_lit fits_lit (fun _ _ => rfl) hw
theorem vor (d a b : Opnd) : Statement (.vor d a b) :=
  of_some rfl fun hw => decode_rrr rfl rfl (fits_of (Opnd.isLit_of_isV (both (both hw).1).1)) fits_lit fits_lit (fun _ _ => rfl) hw
theorem vxor (d a b : Opnd) : Statement (.vxor d a b) :=
  of_some rfl fun hw => decode_rrr rfl rfl (fits_of (Opnd.isLit_of_isV (both (both hw).1).1)) fits_lit fits_lit (fun _ _ => rfl) hw
theorem vandn (d a b : Opnd) : Statement (.vandn d a b) :=
  of_some rfl fun hw => decode_rrr rfl rfl (fits_of (Opnd.isLit_of_isV (both (both hw).1).1)) fits_lit fits_lit (fun _ _ => rfl) hw
theorem vnot (d a : Opnd) : Statement (.vnot d a) :=
  of_some rfl fun hw => decode_rrr rfl rfl (fits_of (Opnd.isLit_of_isV (both hw).1)) fits_lit rfl (fun _ _ => rfl) hw
theorem vshl (d a b : Opnd) : Statement (.vshl d a b) :=
  of_some rfl fun hw => decode_rrr rfl rfl (fits_of (Opnd.isLit_of_isV (both (both hw).1).1)) fits_lit fits_lit (fun _ _ => rfl) hw
theorem vshr (d a b : Opnd) : Statement (.vshr d a b) :=
  of_some rfl fun hw => decode_rrr rfl rfl (fits_of (Opnd.isLit_of_isV (both (both hw).1).1)) fits_lit fits_lit (fun _ _ => rfl) hw
theorem vsar (d a b : Opnd) : Statement (.vsar d a b) :=
  of_some rfl fun hw => decode_rrr rfl rfl (fits_of (Opnd.isLit_of_isV (both (both hw).1).1)) fits_lit fits_lit (fun _ _ => rfl) hw
theorem vrot (d a b : Opnd) : Statement (.vrot d a b) :=
  of_some rfl fun hw => decode_rrr rfl rfl (fits_of (Opnd.isLit_of_isV (both (both hw).1).1)) fits_lit fits_lit (fun _ _ => rfl) hw
theorem vpopc (d a : Opnd) : Statement (.vpopc d a) :=
  of_some rfl fun hw => decode_rrr rfl rfl (fits_of (Opnd.isLit_of_isV (both hw).1)) fits_lit rfl (fun _ _ => rfl) hw
theorem vclz (d a : Opnd) : Statement (.vclz d a) :=
  of_some rfl fun hw => decode_rrr rfl rfl (fits_of (Opnd.isLit_of_isV (both hw).1)) fits_lit rfl (fun _ _ => rfl) hw
theorem vbfe (d a b : Opnd) : Statement (.vbfe d a b) :=
  of_some rfl fun hw => decode_rrr rfl rfl (fits_of (Opnd.isLit_of_isV (both (both hw).1).1)) fits_lit fits_lit (fun _ _ => rfl) hw
theorem vbfes (d a b : Opnd) : Statement (.vbfes d a b) :=
  of_some rfl fun hw => decode_rrr rfl rfl (fits_of (Opnd.isLit_of_isV (both (both hw).1).1)) fits_lit fits_lit (fun _ _ => rfl) hw
theorem vbfi (d a b : Opnd) : Statement (.vbfi d a b) :=
  of_some rfl fun hw => decode_rrr rfl rfl (fits_of (Opnd.isLit_of_isV (both (both hw).1).1)) fits_lit fits_lit (fun _ _ => rfl) hw
theorem vmov (d a : Opnd) : Statement (.vmov d a) :=
  of_some rfl fun hw => decode_rrr rfl rfl (fits_of (Opnd.isLit_of_isV (both hw).1)) fits_lit rfl (fun _ _ => rfl) hw
theorem vmovi (d : Opnd) (imm : BitVec 16) : Statement (.vmovi d imm) :=
  of_some rfl fun hw => decode_ri rfl rfl (fits_of (Opnd.isLit_of_isV hw)) rfl rfl (fun _ _ _ _ _ => rfl) hw
theorem vorhi (d : Opnd) (imm : BitVec 16) : Statement (.vorhi d imm) :=
  of_some rfl fun hw => decode_ri rfl rfl (fits_of (Opnd.isLit_of_isV hw)) rfl rfl (fun _ _ _ _ _ => rfl) hw
theorem vaddi (d : Opnd) (imm : BitVec 16) : Statement (.vaddi d imm) :=
  of_some rfl fun hw => decode_ri rfl rfl (fits_of (Opnd.isLit_of_isV hw)) rfl rfl (fun _ _ _ _ _ => rfl) hw
theorem vcmov (d a b : Opnd) : Statement (.vcmov d a b) :=
  of_some rfl fun hw => decode_rrr rfl rfl (fits_of (Opnd.isLit_of_isV (both (both hw).1).1)) (fits_of (Opnd.isLit_of_isP (both (both hw).1).2)) fits_lit (fun _ _ => rfl) hw
theorem vcmpEq (d a b : Opnd) : Statement (.vcmpEq d a b) :=
  of_some rfl fun hw => decode_rrr rfl rfl (fits_of (Opnd.isLit_of_isP (both (both hw).1).1)) fits_lit fits_lit (fun _ _ => rfl) hw
theorem vcmpNe (d a b : Opnd) : Statement (.vcmpNe d a b) :=
  of_some rfl fun hw => decode_rrr rfl rfl (fits_of (Opnd.isLit_of_isP (both (both hw).1).1)) fits_lit fits_lit (fun _ _ => rfl) hw
theorem vcmpLt (d a b : Opnd) : Statement (.vcmpLt d a b) :=
  of_some rfl fun hw => decode_rrr rfl rfl (fits_of (Opnd.isLit_of_isP (both (both hw).1).1)) fits_lit fits_lit (fun _ _ => rfl) hw
theorem vcmpLe (d a b : Opnd) : Statement (.vcmpLe d a b) :=
  of_some rfl fun hw => decode_rrr rfl rfl (fits_of (Opnd.isLit_of_isP (both (both hw).1).1)) fits_lit fits_lit (fun _ _ => rfl) hw
theorem vcmpLtu (d a b : Opnd) : Statement (.vcmpLtu d a b) :=
  of_some rfl fun hw => decode_rrr rfl rfl (fits_of (Opnd.isLit_of_isP (both (both hw).1).1)) fits_lit fits_lit (fun _ _ => rfl) hw
theorem vcmpLeu (d a b : Opnd) : Statement (.vcmpLeu d a b) :=
  of_some rfl fun hw => decode_rrr rfl rfl (fits_of (Opnd.isLit_of_isP (both (both hw).1).1)) fits_lit fits_lit (fun _ _ => rfl) hw
theorem pand (d a b : Opnd) : Statement (.pand d a b) :=
  of_some rfl fun hw => decode_rrr rfl rfl (fits_of (Opnd.isLit_of_isP (both (both hw).1).1)) (fits_of (Opnd.isLit_of_isP (both (both hw).1).2)) (fits_of (Opnd.isLit_of_isP (both hw).2)) (fun _ _ => rfl) hw
theorem por (d a b : Opnd) : Statement (.por d a b) :=
  of_some rfl fun hw => decode_rrr rfl rfl (fits_of (Opnd.isLit_of_isP (both (both hw).1).1)) (fits_of (Opnd.isLit_of_isP (both (both hw).1).2)) (fits_of (Opnd.isLit_of_isP (both hw).2)) (fun _ _ => rfl) hw
theorem pxor (d a b : Opnd) : Statement (.pxor d a b) :=
  of_some rfl fun hw => decode_rrr rfl rfl (fits_of (Opnd.isLit_of_isP (both (both hw).1).1)) (fits_of (Opnd.isLit_of_isP (both (both hw).1).2)) (fits_of (Opnd.isLit_of_isP (both hw).2)) (fun _ _ => rfl) hw
theorem pnot (d a : Opnd) : Statement (.pnot d a) :=
  of_some rfl fun hw => decode_rrr rfl rfl (fits_of (Opnd.isLit_of_isP (both hw).1)) (fits_of (Opnd.isLit_of_isP (both hw).2)) rfl (fun _ _ => rfl) hw
theorem vmulq (d a b : Opnd) : Statement (.vmulq d a b) :=
  of_some rfl fun hw => decode_rrr rfl rfl (fits_of (Opnd.isLit_of_isV (both (both hw).1).1)) fits_lit fits_lit (fun _ _ => rfl) hw
theorem vrsh (d a b : Opnd) : Statement (.vrsh d a b) :=
  of_some rfl fun hw => decode_rrr rfl rfl (fits_of (Opnd.isLit_of_isV (both (both hw).1).1)) fits_lit fits_lit (fun _ _ => rfl) hw
theorem vsatI8 (d a : Opnd) : Statement (.vsatI8 d a) :=
  of_some rfl fun hw => decode_rrr rfl rfl (fits_of (Opnd.isLit_of_isV (both hw).1)) fits_lit rfl (fun _ _ => rfl) hw
theorem vsatUb (d a : Opnd) : Statement (.vsatUb d a) :=
  of_some rfl fun hw => decode_rrr rfl rfl (fits_of (Opnd.isLit_of_isV (both hw).1)) fits_lit rfl (fun _ _ => rfl) hw
theorem vsatI16 (d a : Opnd) : Statement (.vsatI16 d a) :=
  of_some rfl fun hw => decode_rrr rfl rfl (fits_of (Opnd.isLit_of_isV (both hw).1)) fits_lit rfl (fun _ _ => rfl) hw
theorem vprm (d a b : Opnd) : Statement (.vprm d a b) :=
  of_some rfl fun hw => decode_rrr rfl rfl (fits_of (Opnd.isLit_of_isV (both (both hw).1).1)) fits_lit fits_lit (fun _ _ => rfl) hw
theorem fadd (d a b : Opnd) : Statement (.fadd d a b) :=
  of_some rfl fun hw => decode_rrr rfl rfl (fits_of (Opnd.isLit_of_isV (both (both hw).1).1)) fits_lit fits_lit (fun _ _ => rfl) hw
theorem fsub (d a b : Opnd) : Statement (.fsub d a b) :=
  of_some rfl fun hw => decode_rrr rfl rfl (fits_of (Opnd.isLit_of_isV (both (both hw).1).1)) fits_lit fits_lit (fun _ _ => rfl) hw
theorem fmul (d a b : Opnd) : Statement (.fmul d a b) :=
  of_some rfl fun hw => decode_rrr rfl rfl (fits_of (Opnd.isLit_of_isV (both (both hw).1).1)) fits_lit fits_lit (fun _ _ => rfl) hw
theorem ffma (d a b : Opnd) : Statement (.ffma d a b) :=
  of_some rfl fun hw => decode_rrr rfl rfl (fits_of (Opnd.isLit_of_isV (both (both hw).1).1)) fits_lit fits_lit (fun _ _ => rfl) hw
theorem fmin (d a b : Opnd) : Statement (.fmin d a b) :=
  of_some rfl fun hw => decode_rrr rfl rfl (fits_of (Opnd.isLit_of_isV (both (both hw).1).1)) fits_lit fits_lit (fun _ _ => rfl) hw
theorem fmax (d a b : Opnd) : Statement (.fmax d a b) :=
  of_some rfl fun hw => decode_rrr rfl rfl (fits_of (Opnd.isLit_of_isV (both (both hw).1).1)) fits_lit fits_lit (fun _ _ => rfl) hw
theorem fabs (d a : Opnd) : Statement (.fabs d a) :=
  of_some rfl fun hw => decode_rrr rfl rfl (fits_of (Opnd.isLit_of_isV (both hw).1)) fits_lit rfl (fun _ _ => rfl) hw
theorem fneg (d a : Opnd) : Statement (.fneg d a) :=
  of_some rfl fun hw => decode_rrr rfl rfl (fits_of (Opnd.isLit_of_isV (both hw).1)) fits_lit rfl (fun _ _ => rfl) hw
theorem frcp (d a : Opnd) : Statement (.frcp d a) :=
  of_some rfl fun hw => decode_rrr rfl rfl (fits_of (Opnd.isLit_of_isV (both hw).1)) fits_lit rfl (fun _ _ => rfl) hw
theorem frsq (d a : Opnd) : Statement (.frsq d a) :=
  of_some rfl fun hw => decode_rrr rfl rfl (fits_of (Opnd.isLit_of_isV (both hw).1)) fits_lit rfl (fun _ _ => rfl) hw
theorem fsqrt (d a : Opnd) : Statement (.fsqrt d a) :=
  of_some rfl fun hw => decode_rrr rfl rfl (fits_of (Opnd.isLit_of_isV (both hw).1)) fits_lit rfl (fun _ _ => rfl) hw
theorem fexp2 (d a : Opnd) : Statement (.fexp2 d a) :=
  of_some rfl fun hw => decode_rrr rfl rfl (fits_of (Opnd.isLit_of_isV (both hw).1)) fits_lit rfl (fun _ _ => rfl) hw
theorem flog2 (d a : Opnd) : Statement (.flog2 d a) :=
  of_some rfl fun hw => decode_rrr rfl rfl (fits_of (Opnd.isLit_of_isV (both hw).1)) fits_lit rfl (fun _ _ => rfl) hw
theorem frnd (d a : Opnd) : Statement (.frnd d a) :=
  of_some rfl fun hw => decode_rrr rfl rfl (fits_of (Opnd.isLit_of_isV (both hw).1)) fits_lit rfl (fun _ _ => rfl) hw
theorem fcmpEq (d a b : Opnd) : Statement (.fcmpEq d a b) :=
  of_some rfl fun hw => decode_rrr rfl rfl (fits_of (Opnd.isLit_of_isP (both (both hw).1).1)) fits_lit fits_lit (fun _ _ => rfl) hw
theorem fcmpLt (d a b : Opnd) : Statement (.fcmpLt d a b) :=
  of_some rfl fun hw => decode_rrr rfl rfl (fits_of (Opnd.isLit_of_isP (both (both hw).1).1)) fits_lit fits_lit (fun _ _ => rfl) hw
theorem fcmpLe (d a b : Opnd) : Statement (.fcmpLe d a b) :=
  of_some rfl fun hw => decode_rrr rfl rfl (fits_of (Opnd.isLit_of_isP (both (both hw).1).1)) fits_lit fits_lit (fun _ _ => rfl) hw
theorem fcmpUn (d a b : Opnd) : Statement (.fcmpUn d a b) :=
  of_some rfl fun hw => decode_rrr rfl rfl (fits_of (Opnd.isLit_of_isP (both (both hw).1).1)) fits_lit fits_lit (fun _ _ => rfl) hw
theorem fcvt (d a : Opnd) (mode : BitVec 8) : Statement (.fcvt d a mode) :=
  of_some rfl fun hw => decode_rrr rfl rfl (fits_of (Opnd.isLit_of_isV (both (both hw).1).1)) fits_lit rfl (fun _ _ => rfl) hw
theorem fpack (d a : Opnd) (mode : BitVec 8) : Statement (.fpack d a mode) :=
  of_some rfl fun hw => decode_rrr rfl rfl (fits_of (Opnd.isLit_of_isV (both (both hw).1).1)) fits_lit rfl (fun _ _ => rfl) hw
theorem funpack (d a : Opnd) (mode : BitVec 8) : Statement (.funpack d a mode) :=
  of_some rfl fun hw => decode_rrr rfl rfl (fits_of (Opnd.isLit_of_isV (both (both hw).1).1)) fits_lit rfl (fun _ _ => rfl) hw
theorem fscale (d a b : Opnd) : Statement (.fscale d a b) :=
  of_some rfl fun hw => decode_rrr rfl rfl (fits_of (Opnd.isLit_of_isV (both (both hw).1).1)) fits_lit fits_lit (fun _ _ => rfl) hw
theorem hadd2 (d a b : Opnd) : Statement (.hadd2 d a b) :=
  of_some rfl fun hw => decode_rrr rfl rfl (fits_of (Opnd.isLit_of_isV (both (both hw).1).1)) fits_lit fits_lit (fun _ _ => rfl) hw
theorem hmul2 (d a b : Opnd) : Statement (.hmul2 d a b) :=
  of_some rfl fun hw => decode_rrr rfl rfl (fits_of (Opnd.isLit_of_isV (both (both hw).1).1)) fits_lit fits_lit (fun _ _ => rfl) hw
theorem hfma2 (d a b : Opnd) : Statement (.hfma2 d a b) :=
  of_some rfl fun hw => decode_rrr rfl rfl (fits_of (Opnd.isLit_of_isV (both (both hw).1).1)) fits_lit fits_lit (fun _ _ => rfl) hw
theorem badd2 (d a b : Opnd) : Statement (.badd2 d a b) :=
  of_some rfl fun hw => decode_rrr rfl rfl (fits_of (Opnd.isLit_of_isV (both (both hw).1).1)) fits_lit fits_lit (fun _ _ => rfl) hw
theorem bmul2 (d a b : Opnd) : Statement (.bmul2 d a b) :=
  of_some rfl fun hw => decode_rrr rfl rfl (fits_of (Opnd.isLit_of_isV (both (both hw).1).1)) fits_lit fits_lit (fun _ _ => rfl) hw
theorem bfma2 (d a b : Opnd) : Statement (.bfma2 d a b) :=
  of_some rfl fun hw => decode_rrr rfl rfl (fits_of (Opnd.isLit_of_isV (both (both hw).1).1)) fits_lit fits_lit (fun _ _ => rfl) hw
theorem dot2F16 (d a b : Opnd) : Statement (.dot2F16 d a b) :=
  of_some rfl fun hw => decode_rrr rfl rfl (fits_of (Opnd.isLit_of_isV (both (both hw).1).1)) fits_lit fits_lit (fun _ _ => rfl) hw
theorem dot2Bf16 (d a b : Opnd) : Statement (.dot2Bf16 d a b) :=
  of_some rfl fun hw => decode_rrr rfl rfl (fits_of (Opnd.isLit_of_isV (both (both hw).1).1)) fits_lit fits_lit (fun _ _ => rfl) hw
theorem dot4E4m3n (d a b : Opnd) : Statement (.dot4E4m3n d a b) :=
  of_some rfl fun hw => decode_rrr rfl rfl (fits_of (Opnd.isLit_of_isV (both (both hw).1).1)) fits_lit fits_lit (fun _ _ => rfl) hw
theorem dot4E5m2n (d a b : Opnd) : Statement (.dot4E5m2n d a b) :=
  of_some rfl fun hw => decode_rrr rfl rfl (fits_of (Opnd.isLit_of_isV (both (both hw).1).1)) fits_lit fits_lit (fun _ _ => rfl) hw
theorem dot8E2m1n (d a b : Opnd) : Statement (.dot8E2m1n d a b) :=
  of_some rfl fun hw => decode_rrr rfl rfl (fits_of (Opnd.isLit_of_isV (both (both hw).1).1)) fits_lit fits_lit (fun _ _ => rfl) hw
theorem dot4I8 (d a b : Opnd) : Statement (.dot4I8 d a b) :=
  of_some rfl fun hw => decode_rrr rfl rfl (fits_of (Opnd.isLit_of_isV (both (both hw).1).1)) fits_lit fits_lit (fun _ _ => rfl) hw
theorem dot4Mx8 (d a b : Opnd) : Statement (.dot4Mx8 d a b) :=
  of_some rfl fun hw => decode_rrr rfl rfl (fits_of (Opnd.isLit_of_isV (both (both hw).1).1)) fits_lit fits_lit (fun _ _ => rfl) hw
theorem dot8I4 (d a b : Opnd) : Statement (.dot8I4 d a b) :=
  of_some rfl fun hw => decode_rrr rfl rfl (fits_of (Opnd.isLit_of_isV (both (both hw).1).1)) fits_lit fits_lit (fun _ _ => rfl) hw
theorem ldB (d a b : Opnd) : Statement (.ldB d a b) :=
  of_some rfl fun hw => decode_rrr rfl rfl (fits_of (Opnd.isLit_of_isV (both (both hw).1).1)) fits_lit fits_lit (fun _ _ => rfl) hw
theorem ldBs (d a b : Opnd) : Statement (.ldBs d a b) :=
  of_some rfl fun hw => decode_rrr rfl rfl (fits_of (Opnd.isLit_of_isV (both (both hw).1).1)) fits_lit fits_lit (fun _ _ => rfl) hw
theorem ldH (d a b : Opnd) : Statement (.ldH d a b) :=
  of_some rfl fun hw => decode_rrr rfl rfl (fits_of (Opnd.isLit_of_isV (both (both hw).1).1)) fits_lit fits_lit (fun _ _ => rfl) hw
theorem ldHs (d a b : Opnd) : Statement (.ldHs d a b) :=
  of_some rfl fun hw => decode_rrr rfl rfl (fits_of (Opnd.isLit_of_isV (both (both hw).1).1)) fits_lit fits_lit (fun _ _ => rfl) hw
theorem ldW (d a b : Opnd) : Statement (.ldW d a b) :=
  of_some rfl fun hw => decode_rrr rfl rfl (fits_of (Opnd.isLit_of_isV (both (both hw).1).1)) fits_lit fits_lit (fun _ _ => rfl) hw
theorem ldD (d a b : Opnd) : Statement (.ldD d a b) :=
  of_some rfl fun hw => decode_rrr rfl rfl (fits_of (Opnd.isLit_of_isV (both (both hw).1).1)) fits_lit fits_lit (fun _ _ => rfl) hw
theorem ldQ (d a b : Opnd) : Statement (.ldQ d a b) :=
  of_some rfl fun hw => decode_rrr rfl rfl (fits_of (Opnd.isLit_of_isV (both (both hw).1).1)) fits_lit fits_lit (fun _ _ => rfl) hw
theorem stB (d a b : Opnd) : Statement (.stB d a b) :=
  of_some rfl fun hw => decode_rrr rfl rfl fits_lit fits_lit fits_lit (fun _ _ => rfl) hw
theorem stH (d a b : Opnd) : Statement (.stH d a b) :=
  of_some rfl fun hw => decode_rrr rfl rfl fits_lit fits_lit fits_lit (fun _ _ => rfl) hw
theorem stW (d a b : Opnd) : Statement (.stW d a b) :=
  of_some rfl fun hw => decode_rrr rfl rfl fits_lit fits_lit fits_lit (fun _ _ => rfl) hw
theorem stD (d a b : Opnd) : Statement (.stD d a b) :=
  of_some rfl fun hw => decode_rrr rfl rfl fits_lit fits_lit fits_lit (fun _ _ => rfl) hw
theorem stQ (d a b : Opnd) : Statement (.stQ d a b) :=
  of_some rfl fun hw => decode_rrr rfl rfl fits_lit fits_lit fits_lit (fun _ _ => rfl) hw
theorem ldxW (d a b : Opnd) : Statement (.ldxW d a b) :=
  of_some rfl fun hw => decode_rrr rfl rfl (fits_of (Opnd.isLit_of_isV (both (both hw).1).1)) fits_lit fits_lit (fun _ _ => rfl) hw
theorem ldxD (d a b : Opnd) : Statement (.ldxD d a b) :=
  of_some rfl fun hw => decode_rrr rfl rfl (fits_of (Opnd.isLit_of_isV (both (both hw).1).1)) fits_lit fits_lit (fun _ _ => rfl) hw
theorem stxW (d a b : Opnd) : Statement (.stxW d a b) :=
  of_some rfl fun hw => decode_rrr rfl rfl fits_lit fits_lit fits_lit (fun _ _ => rfl) hw
theorem stxD (d a b : Opnd) : Statement (.stxD d a b) :=
  of_some rfl fun hw => decode_rrr rfl rfl fits_lit fits_lit fits_lit (fun _ _ => rfl) hw
theorem spillSt (d : Opnd) : Statement (.spillSt d) :=
  of_some rfl fun hw => decode_rrr rfl rfl (fits_of (Opnd.isLit_of_isVS hw)) rfl rfl (fun _ _ => rfl) hw
theorem spillLd (d : Opnd) : Statement (.spillLd d) :=
  of_some rfl fun hw => decode_rrr rfl rfl (fits_of (Opnd.isLit_of_isVS hw)) rfl rfl (fun _ _ => rfl) hw
theorem atomAdd (d a b : Opnd) : Statement (.atomAdd d a b) :=
  of_some rfl fun hw => decode_rrr rfl rfl (fits_of (Opnd.isLit_of_isV (both (both hw).1).1)) fits_lit fits_lit (fun _ _ => rfl) hw
theorem atomFadd (d a b : Opnd) : Statement (.atomFadd d a b) :=
  of_some rfl fun hw => decode_rrr rfl rfl (fits_of (Opnd.isLit_of_isV (both (both hw).1).1)) fits_lit fits_lit (fun _ _ => rfl) hw
theorem atomMin (d a b : Opnd) : Statement (.atomMin d a b) :=
  of_some rfl fun hw => decode_rrr rfl rfl (fits_of (Opnd.isLit_of_isV (both (both hw).1).1)) fits_lit fits_lit (fun _ _ => rfl) hw
theorem atomMax (d a b : Opnd) : Statement (.atomMax d a b) :=
  of_some rfl fun hw => decode_rrr rfl rfl (fits_of (Opnd.isLit_of_isV (both (both hw).1).1)) fits_lit fits_lit (fun _ _ => rfl) hw
theorem atomMinu (d a b : Opnd) : Statement (.atomMinu d a b) :=
  of_some rfl fun hw => decode_rrr rfl rfl (fits_of (Opnd.isLit_of_isV (both (both hw).1).1)) fits_lit fits_lit (fun _ _ => rfl) hw
theorem atomMaxu (d a b : Opnd) : Statement (.atomMaxu d a b) :=
  of_some rfl fun hw => decode_rrr rfl rfl (fits_of (Opnd.isLit_of_isV (both (both hw).1).1)) fits_lit fits_lit (fun _ _ => rfl) hw
theorem atomAnd (d a b : Opnd) : Statement (.atomAnd d a b) :=
  of_some rfl fun hw => decode_rrr rfl rfl (fits_of (Opnd.isLit_of_isV (both (both hw).1).1)) fits_lit fits_lit (fun _ _ => rfl) hw
theorem atomOr (d a b : Opnd) : Statement (.atomOr d a b) :=
  of_some rfl fun hw => decode_rrr rfl rfl (fits_of (Opnd.isLit_of_isV (both (both hw).1).1)) fits_lit fits_lit (fun _ _ => rfl) hw
theorem atomXor (d a b : Opnd) : Statement (.atomXor d a b) :=
  of_some rfl fun hw => decode_rrr rfl rfl (fits_of (Opnd.isLit_of_isV (both (both hw).1).1)) fits_lit fits_lit (fun _ _ => rfl) hw
theorem atomXchg (d a b : Opnd) : Statement (.atomXchg d a b) :=
  of_some rfl fun hw => decode_rrr rfl rfl (fits_of (Opnd.isLit_of_isV (both (both hw).1).1)) fits_lit fits_lit (fun _ _ => rfl) hw
theorem atomCas (d a b : Opnd) : Statement (.atomCas d a b) :=
  of_some rfl fun hw => decode_rrr rfl rfl (fits_of (Opnd.isLit_of_isV (both (both hw).1).1)) fits_lit fits_lit (fun _ _ => rfl) hw
theorem atomxAdd (d a b : Opnd) (par : AxPar) : Statement (.atomxAdd d a b par) :=
  of_some rfl fun hw => decode_rrr rfl rfl (fits_of (Opnd.isLit_of_isV (both (both (both hw).1).1).1)) fits_lit fits_lit (fun _ _ => by simp [buildOf, locBuild, Fld.opnd, AxPar.ofWord_toWord]) hw
theorem atomxXchg (d a b : Opnd) (par : AxPar) : Statement (.atomxXchg d a b par) :=
  of_some rfl fun hw => decode_rrr rfl rfl (fits_of (Opnd.isLit_of_isV (both (both (both hw).1).1).1)) fits_lit fits_lit (fun _ _ => by simp [buildOf, locBuild, Fld.opnd, AxPar.ofWord_toWord]) hw
theorem atomxCas (d a b : Opnd) (par : AxPar) : Statement (.atomxCas d a b par) :=
  of_some rfl fun hw => decode_rrr rfl rfl (fits_of (Opnd.isLit_of_isV (both (both (both hw).1).1).1)) fits_lit fits_lit (fun _ _ => by simp [buildOf, locBuild, Fld.opnd, AxPar.ofWord_toWord]) hw
theorem shflIdx (d a b : Opnd) : Statement (.shflIdx d a b) :=
  of_some rfl fun hw => decode_rrr rfl rfl (fits_of (Opnd.isLit_of_isV (both (both hw).1).1)) (fits_of (Opnd.isLit_of_isV (both (both hw).1).2)) fits_lit (fun _ _ => rfl) hw
theorem shflXor (d a b : Opnd) : Statement (.shflXor d a b) :=
  of_some rfl fun hw => decode_rrr rfl rfl (fits_of (Opnd.isLit_of_isV (both (both hw).1).1)) (fits_of (Opnd.isLit_of_isV (both (both hw).1).2)) fits_lit (fun _ _ => rfl) hw
theorem shflUp (d a b : Opnd) : Statement (.shflUp d a b) :=
  of_some rfl fun hw => decode_rrr rfl rfl (fits_of (Opnd.isLit_of_isV (both (both hw).1).1)) (fits_of (Opnd.isLit_of_isV (both (both hw).1).2)) fits_lit (fun _ _ => rfl) hw
theorem shflDn (d a b : Opnd) : Statement (.shflDn d a b) :=
  of_some rfl fun hw => decode_rrr rfl rfl (fits_of (Opnd.isLit_of_isV (both (both hw).1).1)) (fits_of (Opnd.isLit_of_isV (both (both hw).1).2)) fits_lit (fun _ _ => rfl) hw
theorem bcast (d a b : Opnd) : Statement (.bcast d a b) :=
  of_some rfl fun hw => decode_rrr rfl rfl (fits_of (Opnd.isLit_of_isV (both (both hw).1).1)) (fits_of (Opnd.isLit_of_isV (both (both hw).1).2)) fits_lit (fun _ _ => rfl) hw
theorem voteAny (d a : Opnd) : Statement (.voteAny d a) :=
  of_some rfl fun hw => decode_rrr rfl rfl (fits_of (Opnd.isLit_of_isS (both hw).1)) (fits_of (Opnd.isLit_of_isP (both hw).2)) rfl (fun _ _ => rfl) hw
theorem voteAll (d a : Opnd) : Statement (.voteAll d a) :=
  of_some rfl fun hw => decode_rrr rfl rfl (fits_of (Opnd.isLit_of_isS (both hw).1)) (fits_of (Opnd.isLit_of_isP (both hw).2)) rfl (fun _ _ => rfl) hw
theorem ballot (d a b : Opnd) : Statement (.ballot d a b) :=
  of_some rfl fun hw => decode_rrr rfl rfl (fits_of (Opnd.isLit_of_isS (both (both hw).1).1)) (fits_of (Opnd.isLit_of_isP (both (both hw).1).2)) fits_lit (fun _ _ => rfl) hw
theorem redAdd (d a : Opnd) : Statement (.redAdd d a) :=
  of_some rfl fun hw => decode_rrr rfl rfl (fits_of (Opnd.isLit_of_isS (both hw).1)) (fits_of (Opnd.isLit_of_isV (both hw).2)) rfl (fun _ _ => rfl) hw
theorem redFadd (d a : Opnd) : Statement (.redFadd d a) :=
  of_some rfl fun hw => decode_rrr rfl rfl (fits_of (Opnd.isLit_of_isS (both hw).1)) (fits_of (Opnd.isLit_of_isV (both hw).2)) rfl (fun _ _ => rfl) hw
theorem redMax (d a : Opnd) : Statement (.redMax d a) :=
  of_some rfl fun hw => decode_rrr rfl rfl (fits_of (Opnd.isLit_of_isS (both hw).1)) (fits_of (Opnd.isLit_of_isV (both hw).2)) rfl (fun _ _ => rfl) hw
theorem redFmax (d a : Opnd) : Statement (.redFmax d a) :=
  of_some rfl fun hw => decode_rrr rfl rfl (fits_of (Opnd.isLit_of_isS (both hw).1)) (fits_of (Opnd.isLit_of_isV (both hw).2)) rfl (fun _ _ => rfl) hw
theorem redFmin (d a : Opnd) : Statement (.redFmin d a) :=
  of_some rfl fun hw => decode_rrr rfl rfl (fits_of (Opnd.isLit_of_isS (both hw).1)) (fits_of (Opnd.isLit_of_isV (both hw).2)) rfl (fun _ _ => rfl) hw
theorem scanAdd (d a : Opnd) : Statement (.scanAdd d a) :=
  of_some rfl fun hw => decode_rrr rfl rfl (fits_of (Opnd.isLit_of_isV (both hw).1)) (fits_of (Opnd.isLit_of_isV (both hw).2)) rfl (fun _ _ => rfl) hw
theorem fence (scope : BitVec 3) (acq rel : Bool) : Statement (.fence scope acq rel) :=
  of_some rfl fun hw => decode_ri rfl rfl rfl rfl rfl (fun _ _ _ _ _ => by simp [buildOf, locBuild, fenceImm_scope, fenceImm_acq, fenceImm_rel, fenceImm_rest, Fld.byte, -BitVec.getLsbD_eq_getElem]) hw
theorem barInit (a b : Opnd) : Statement (.barInit a b) :=
  of_some rfl fun hw => decode_rrr rfl rfl rfl fits_lit fits_lit (fun _ _ => rfl) hw
theorem barExpect (a b : Opnd) : Statement (.barExpect a b) :=
  of_some rfl fun hw => decode_rrr rfl rfl rfl fits_lit fits_lit (fun _ _ => rfl) hw
theorem barArrive (a b : Opnd) : Statement (.barArrive a b) :=
  of_some rfl fun hw => decode_rrr rfl rfl rfl fits_lit fits_lit (fun _ _ => rfl) hw
theorem barTest (d a : Opnd) : Statement (.barTest d a) :=
  of_some rfl fun hw => decode_rrr rfl rfl (fits_of (Opnd.isLit_of_isS (both hw).1)) fits_lit rfl (fun _ _ => rfl) hw
theorem streamBind (d a b : Opnd) : Statement (.streamBind d a b) :=
  of_some rfl fun hw => decode_rrr rfl rfl (fits_of (Opnd.isLit_of_isQ (both (both hw).1).1)) fits_lit fits_lit (fun _ _ => rfl) hw
theorem streamFill (d a : Opnd) : Statement (.streamFill d a) :=
  of_some rfl fun hw => decode_rrr rfl rfl (fits_of (Opnd.isLit_of_isS (both hw).1)) (fits_of (Opnd.isLit_of_isQ (both hw).2)) rfl (fun _ _ => rfl) hw
theorem streamFree (d : Opnd) : Statement (.streamFree d) :=
  of_some rfl fun hw => decode_rrr rfl rfl (fits_of (Opnd.isLit_of_isQ hw)) rfl rfl (fun _ _ => rfl) hw
theorem streamPub (d a : Opnd) : Statement (.streamPub d a) :=
  of_some rfl fun hw => decode_rrr rfl rfl (fits_of (Opnd.isLit_of_isQ (both hw).1)) fits_lit rfl (fun _ _ => rfl) hw
theorem chanGo (n : BitVec 8) (a : Opnd) : Statement (.chanGo n a) :=
  of_some rfl fun hw => decode_rrr rfl rfl rfl fits_lit rfl (fun _ _ => rfl) hw
theorem chanStop (n : BitVec 8) : Statement (.chanStop n) :=
  of_some rfl fun hw => decode_rrr rfl rfl rfl rfl rfl (fun _ _ => rfl) hw
theorem chanState (n : BitVec 8) (a : Opnd) : Statement (.chanState n a) :=
  of_some rfl fun hw => decode_rrr rfl rfl rfl (fits_of (Opnd.isLit_of_isS (both hw).2)) rfl (fun _ _ => rfl) hw
theorem ringWait (a : Opnd) : Statement (.ringWait a) :=
  of_some rfl fun hw => decode_rrr rfl rfl rfl fits_lit rfl (fun _ _ => rfl) hw
theorem gather (d a b : Opnd) (par : XPar) : Statement (.gather d a b par) :=
  of_some rfl fun hw => decode_rrr rfl rfl fits_lit fits_lit (fits_of (Opnd.isLit_of_isV (both (both hw).1).2)) (fun _ _ => by simp [buildOf, asyBuild, Fld.opnd, XPar.ofWord_toWord]) hw
theorem scatter (d a b : Opnd) (par : XPar) : Statement (.scatter d a b par) :=
  of_some rfl fun hw => decode_rrr rfl rfl fits_lit fits_lit (fits_of (Opnd.isLit_of_isV (both (both hw).1).2)) (fun _ _ => by simp [buildOf, asyBuild, Fld.opnd, XPar.ofWord_toWord]) hw
theorem ldBlk (d a b : Opnd) (par : XPar) : Statement (.ldBlk d a b par) :=
  of_some rfl fun hw => decode_rrr rfl rfl fits_lit fits_lit fits_lit (fun _ _ => by simp [buildOf, asyBuild, Fld.opnd, XPar.ofWord_toWord]) hw
theorem stBlk (d a b : Opnd) (par : XPar) : Statement (.stBlk d a b par) :=
  of_some rfl fun hw => decode_rrr rfl rfl fits_lit fits_lit fits_lit (fun _ _ => by simp [buildOf, asyBuild, Fld.opnd, XPar.ofWord_toWord]) hw
theorem atomM (d a b : Opnd) (par : XPar) : Statement (.atomM d a b par) :=
  of_some rfl fun hw => decode_rrr rfl rfl fits_lit fits_lit (fits_of (Opnd.isLit_of_isV (both (both hw).1).2)) (fun _ _ => by simp [buildOf, asyBuild, Fld.opnd, XPar.ofWord_toWord]) hw
theorem mloop (n : BitVec 8) (a : Opnd) (par : MPar) : Statement (.mloop n a par) :=
  of_some rfl fun hw => decode_rrr rfl rfl rfl (fits_of (Opnd.isLit_of_isS (both (both (both hw).1).1).2)) rfl (fun _ _ => by simp [buildOf, asyBuild, Fld.byte, Fld.opnd, MPar.ofWord_toWord]) hw
theorem mgloop (n : BitVec 8) (a : Opnd) (par : MPar) : Statement (.mgloop n a par) :=
  of_some rfl fun hw => decode_rrr rfl rfl rfl (fits_of (Opnd.isLit_of_isS (both (both (both hw).1).1).2)) rfl (fun _ _ => by simp [buildOf, asyBuild, Fld.byte, Fld.opnd, MPar.ofWord_toWord]) hw
theorem mzero (n : BitVec 8) : Statement (.mzero n) :=
  of_some rfl fun hw => decode_rrr rfl rfl rfl rfl rfl (fun _ _ => rfl) hw
theorem mload (n : BitVec 8) (a b : Opnd) : Statement (.mload n a b) :=
  of_some rfl fun hw => decode_rrr rfl rfl rfl fits_lit fits_lit (fun _ _ => rfl) hw
theorem mstore (n : BitVec 8) (a : Opnd) (par : MPar) : Statement (.mstore n a par) :=
  of_some rfl fun hw => decode_rrr rfl rfl rfl (fits_of (Opnd.isLit_of_isS (both (both (both hw).1).1).2)) rfl (fun _ _ => by simp [buildOf, asyBuild, Fld.byte, Fld.opnd, MPar.ofWord_toWord]) hw
theorem mrows (d a : Opnd) : Statement (.mrows d a) :=
  of_some rfl fun hw => decode_rrr rfl rfl (fits_of (Opnd.isLit_of_isS (both hw).1)) fits_lit rfl (fun _ _ => rfl) hw
theorem solicit (a : Opnd) (rel : Bool) : Statement (.solicit a rel) :=
  of_some rfl fun hw => decode_rrr rfl rfl rfl (fits_of (Opnd.isLit_of_isS (both hw).1)) rfl (fun _ _ => by simp [buildOf, asyBuild, Fld.byte, Fld.opnd, solWord_rest, solWord_rel, -BitVec.getLsbD_eq_getElem]) hw
theorem respond (a : Opnd) : Statement (.respond a) :=
  of_some rfl fun hw => decode_rrr rfl rfl rfl fits_lit rfl (fun _ _ => rfl) hw
theorem tilePut (d a : Opnd) : Statement (.tilePut d a) :=
  of_some rfl fun hw => decode_rrr rfl rfl (fits_of (Opnd.isLit_of_isS (both (both hw).1).1)) (fits_of (Opnd.isLit_of_isS (both (both hw).1).2)) rfl (fun _ _ => rfl) hw
theorem tileDrop (a : Opnd) : Statement (.tileDrop a) :=
  of_some rfl fun hw => decode_rrr rfl rfl rfl fits_lit rfl (fun _ _ => rfl) hw
theorem tileMove (a b : Opnd) : Statement (.tileMove a b) :=
  of_some rfl fun hw => decode_rrr rfl rfl rfl (fits_of (Opnd.isLit_of_isS (both (both hw).1).1)) fits_lit (fun _ _ => rfl) hw
theorem seqAdd (a b : Opnd) (par : SeqPar) : Statement (.seqAdd a b par) :=
  of_some rfl fun hw => decode_rrr rfl rfl rfl fits_lit fits_lit (fun _ _ => by simp [buildOf, asyBuild, Fld.byte, Fld.opnd, SeqPar.ofWord_toWord]) hw
theorem seqRd (d a b : Opnd) : Statement (.seqRd d a b) :=
  of_some rfl fun hw => decode_rrr rfl rfl fits_lit fits_lit fits_lit (fun _ _ => rfl) hw
theorem recPop (d a b : Opnd) : Statement (.recPop d a b) :=
  of_some rfl fun hw => decode_rrr rfl rfl fits_lit fits_lit fits_lit (fun _ _ => rfl) hw
theorem recPush (d a b : Opnd) : Statement (.recPush d a b) :=
  of_some rfl fun hw => decode_rrr rfl rfl fits_lit fits_lit fits_lit (fun _ _ => rfl) hw
theorem portWr (d a : Opnd) (par : XPar) : Statement (.portWr d a par) :=
  of_some rfl fun hw => decode_rrr rfl rfl fits_lit fits_lit rfl (fun _ _ => by simp [buildOf, asyBuild, Fld.byte, Fld.opnd, XPar.ofWord_toWord]) hw
theorem fenceM (scope : BitVec 3) (acq rel : Bool) : Statement (.fenceM scope acq rel) :=
  of_some rfl fun hw => decode_ri rfl rfl rfl rfl rfl (fun _ _ _ _ _ => by simp [buildOf, asyBuild, fenceImm_scope, fenceImm_acq, fenceImm_rel, fenceImm_rest, Fld.byte, -BitVec.getLsbD_eq_getElem]) hw
theorem plotWarm (a : Opnd) : Statement (.plotWarm a) :=
  of_some rfl fun hw => decode_rrr rfl rfl rfl fits_lit rfl (fun _ _ => rfl) hw
theorem scrub (d a b : Opnd) : Statement (.scrub d a b) :=
  of_some rfl fun hw => decode_rrr rfl rfl (fits_of (Opnd.isLit_of_isS (both (both (both hw).1).1).1)) fits_lit fits_lit (fun _ _ => rfl) hw
theorem csrRd (d : Opnd) (addr : BitVec 12) : Statement (.csrRd d addr) :=
  of_some rfl fun hw => decode_ri rfl rfl (fits_of (Opnd.isLit_of_isS (both hw).1)) rfl rfl (fun _ _ _ _ _ => by simp [buildOf, sysBuild, csr_addr, csr_rest, Fld.opnd, -BitVec.truncate_eq_setWidth]) hw
theorem csrWr (d : Opnd) (addr : BitVec 12) : Statement (.csrWr d addr) :=
  of_some rfl fun hw => decode_ri rfl rfl fits_lit rfl rfl (fun _ _ _ _ _ => by simp [buildOf, sysBuild, csr_addr, csr_rest, Fld.opnd, -BitVec.truncate_eq_setWidth]) hw
theorem csrSet (d : Opnd) (addr : BitVec 12) : Statement (.csrSet d addr) :=
  of_some rfl fun hw => decode_ri rfl rfl fits_lit rfl rfl (fun _ _ _ _ _ => by simp [buildOf, sysBuild, csr_addr, csr_rest, Fld.opnd, -BitVec.truncate_eq_setWidth]) hw
theorem csrClr (d : Opnd) (addr : BitVec 12) : Statement (.csrClr d addr) :=
  of_some rfl fun hw => decode_ri rfl rfl fits_lit rfl rfl (fun _ _ _ _ _ => by simp [buildOf, sysBuild, csr_addr, csr_rest, Fld.opnd, -BitVec.truncate_eq_setWidth]) hw
theorem tstamp (d : Opnd) : Statement (.tstamp d) :=
  of_some rfl fun hw => decode_rrr rfl rfl (fits_of (Opnd.isLit_of_isS hw)) rfl rfl (fun _ _ => rfl) hw
theorem cede (a b : Opnd) : Statement (.cede a b) :=
  of_some rfl fun hw => decode_rrr rfl rfl rfl fits_lit fits_lit (fun _ _ => rfl) hw
theorem bwphaseWrite (c : Nat) : Statement (.bwphaseWrite c) := of_none rfl
theorem twordRead (d : Opnd) : Statement (.twordRead d) := of_none rfl
theorem trbaseWrite (d : Opnd) : Statement (.trbaseWrite d) := of_none rfl
theorem barrelIssue (k : Nat) : Statement (.barrelIssue k) := of_none rfl
theorem clauseWaitsSatisfied (k t p : Nat) : Statement (.clauseWaitsSatisfied k t p) := of_none rfl
theorem locWriteback (k t p i : Nat) (lanes : BitVec 1024) : Statement (.locWriteback k t p i lanes) := of_none rfl
theorem positionReassign (k : Nat) : Statement (.positionReassign k) := of_none rfl
theorem responderPoolEnable (c : Nat) : Statement (.responderPoolEnable c) := of_none rfl
theorem responderPoolDisable (c : Nat) : Statement (.responderPoolDisable c) := of_none rfl
theorem calendarSlotServe (u slot : Nat) : Statement (.calendarSlotServe u slot) := of_none rfl
theorem crewPlace (c n back : Nat) : Statement (.crewPlace c n back) := of_none rfl
theorem crewRetire (k r : Nat) : Statement (.crewRetire k r) := of_none rfl
theorem phaseRecordWrite (k t : Nat) : Statement (.phaseRecordWrite k t) := of_none rfl
theorem claimGranted (k t p : Nat) : Statement (.claimGranted k t p) := of_none rfl
theorem rkResumeTeam (k t : Nat) : Statement (.rkResumeTeam k t) := of_none rfl
theorem rkRetireTeam (k t : Nat) : Statement (.rkRetireTeam k t) := of_none rfl
theorem sysReply (k t p : Nat) (known : Bool) (r0 r1 r2 r3 : BitVec 64) : Statement (.sysReply k t p known r0 r1 r2 r3) := of_none rfl
theorem issueHoldRelease (k t p : Nat) : Statement (.issueHoldRelease k t p) := of_none rfl
theorem gatherPacketDeliver (k x i : Nat) : Statement (.gatherPacketDeliver k x i) := of_none rfl
theorem writeAcknowledge (k x i : Nat) : Statement (.writeAcknowledge k x i) := of_none rfl
theorem atomMPerform (k x lane : Nat) : Statement (.atomMPerform k x lane) := of_none rfl
theorem blkSegmentComplete (k x i : Nat) : Statement (.blkSegmentComplete k x i) := of_none rfl
theorem portWrSent (k x : Nat) : Statement (.portWrSent k x) := of_none rfl
theorem asyncPartFail (k x i : Nat) : Statement (.asyncPartFail k x i) := of_none rfl
theorem waitWake (k t p : Nat) : Statement (.waitWake k t p) := of_none rfl
theorem streamWaitRelease (k t p : Nat) : Statement (.streamWaitRelease k t p) := of_none rfl
theorem chanRecordStart (k ch : Nat) : Statement (.chanRecordStart k ch) := of_none rfl
theorem chanSegmentAck (k ch : Nat) : Statement (.chanSegmentAck k ch) := of_none rfl
theorem chanStopDone (k ch : Nat) : Statement (.chanStopDone k ch) := of_none rfl
theorem chanRecordUnreadable (k ch : Nat) : Statement (.chanRecordUnreadable k ch) := of_none rfl
theorem ringWaitRecheck (k t p : Nat) : Statement (.ringWaitRecheck k t p) := of_none rfl
theorem mloopStart (k : Nat) : Statement (.mloopStart k) := of_none rfl
theorem mloopRowGroupCommit (k : Nat) : Statement (.mloopRowGroupCommit k) := of_none rfl
theorem mloopPageFault (k : Nat) : Statement (.mloopPageFault k) := of_none rfl
theorem mloopFailure (k : Nat) : Statement (.mloopFailure k) := of_none rfl
theorem mstoreRowAck (k x : Nat) : Statement (.mstoreRowAck k x) := of_none rfl
theorem mstoreRowFail (k x : Nat) : Statement (.mstoreRowFail k x) := of_none rfl
theorem pageMap (c va level : Nat) (entry : BitVec 64) : Statement (.pageMap c va level entry) := of_none rfl
theorem pageFaultRefuse (c va : Nat) : Statement (.pageFaultRefuse c va) := of_none rfl
theorem pagePin (c va : Nat) : Statement (.pagePin c va) := of_none rfl
theorem pageUnpin (c va : Nat) : Statement (.pageUnpin c va) := of_none rfl
theorem leafChange (c va level : Nat) (entry : BitVec 64) : Statement (.leafChange c va level entry) := of_none rfl
theorem invalidationComplete (c va : Nat) : Statement (.invalidationComplete c va) := of_none rfl
theorem plotAllocate (c plot : Nat) : Statement (.plotAllocate c plot) := of_none rfl
theorem plotWakeComplete (plot : Nat) : Statement (.plotWakeComplete plot) := of_none rfl
theorem plotRetentionEntry (plot : Nat) : Statement (.plotRetentionEntry plot) := of_none rfl
theorem plotPowerDown (c plot : Nat) : Statement (.plotPowerDown c plot) := of_none rfl
theorem pseudoChannelFail (ch : Nat) : Statement (.pseudoChannelFail ch) := of_none rfl
theorem rowMitigation (row fn : Nat) : Statement (.rowMitigation row fn) := of_none rfl
theorem rowThrottleStart (row fn : Nat) : Statement (.rowThrottleStart row fn) := of_none rfl
theorem rowThrottleEnd (row fn : Nat) : Statement (.rowThrottleEnd row fn) := of_none rfl
theorem deferredMitigationRun (fn : Nat) : Statement (.deferredMitigationRun fn) := of_none rfl
theorem contextStart (c : Nat) : Statement (.contextStart c) := of_none rfl
theorem preemptSoft (c : Nat) (d : BitVec 64) : Statement (.preemptSoft c d) := of_none rfl
theorem preemptHard (c : Nat) : Statement (.preemptHard c) := of_none rfl
theorem softDeadlineExpire (c : Nat) : Statement (.softDeadlineExpire c) := of_none rfl
theorem yieldingEmpty (c : Nat) : Statement (.yieldingEmpty c) := of_none rfl
theorem preemptAgain (c : Nat) (d : BitVec 64) : Statement (.preemptAgain c d) := of_none rfl
theorem vacateComplete (c : Nat) : Statement (.vacateComplete c) := of_none rfl
theorem saveFailure (c : Nat) : Statement (.saveFailure c) := of_none rfl
theorem contextRestore (c : Nat) : Statement (.contextRestore c) := of_none rfl
theorem restoreComplete (c : Nat) : Statement (.restoreComplete c) := of_none rfl
theorem contextDestroy (c : Nat) : Statement (.contextDestroy c) := of_none rfl
theorem allowanceWrite (c k a : Nat) : Statement (.allowanceWrite c k a) := of_none rfl
theorem cedeCreditArrive (c src dst : Nat) : Statement (.cedeCreditArrive c src dst) := of_none rfl
theorem admissionRetest (k : Nat) : Statement (.admissionRetest k) := of_none rfl
theorem rkHeartbeatTimeout : Statement (.rkHeartbeatTimeout) := of_none rfl
theorem rkSystemCoreFault : Statement (.rkSystemCoreFault) := of_none rfl
theorem rkReadopt (c : Nat) : Statement (.rkReadopt c) := of_none rfl
theorem readoptFail (c : Nat) : Statement (.readoptFail c) := of_none rfl
theorem warmRebootFail : Statement (.warmRebootFail) := of_none rfl
theorem partReset : Statement (.partReset) := of_none rfl
theorem kloadLoad (fn q tid : Nat) : Statement (.kloadLoad fn q tid) := of_none rfl
theorem kloadUnload (fn q : Nat) : Statement (.kloadUnload fn q) := of_none rfl
theorem kernelCloseComplete (c n : Nat) : Statement (.kernelCloseComplete c n) := of_none rfl
theorem kernelEndAfterFault (c n : Nat) : Statement (.kernelEndAfterFault c n) := of_none rfl
theorem phasePlace (c n back : Nat) : Statement (.phasePlace c n back) := of_none rfl
theorem phaseCommit (c n r : Nat) : Statement (.phaseCommit c n r) := of_none rfl
theorem seqAddPerform (k x : Nat) : Statement (.seqAddPerform k x) := of_none rfl
theorem deferredAddPerform (c n r i : Nat) : Statement (.deferredAddPerform c n r i) := of_none rfl
theorem deferredAddDrop (c n r i : Nat) : Statement (.deferredAddDrop c n r i) := of_none rfl
theorem seqRdComplete (k x : Nat) : Statement (.seqRdComplete k x) := of_none rfl
theorem recPushEngineAnswer (k t p : Nat) : Statement (.recPushEngineAnswer k t p) := of_none rfl
theorem recPushAck (k x : Nat) : Statement (.recPushAck k x) := of_none rfl
theorem recPopPlace (k x : Nat) : Statement (.recPopPlace k x) := of_none rfl
theorem doorbellWrite (fn q : Nat) (tail : BitVec 32) : Statement (.doorbellWrite fn q tail) := of_none rfl
theorem queueSlotGrant (fn q lane : Nat) : Statement (.queueSlotGrant fn q lane) := of_none rfl
theorem queueUnmap (fn q : Nat) : Statement (.queueUnmap fn q) := of_none rfl
theorem queueFaultMapped (fn q : Nat) : Statement (.queueFaultMapped fn q) := of_none rfl
theorem queueFaultRefused (fn q : Nat) : Statement (.queueFaultRefused fn q) := of_none rfl
theorem queueDelete (fn q : Nat) : Statement (.queueDelete fn q) := of_none rfl
theorem frontEndSweep (fc : Nat) : Statement (.frontEndSweep fc) := of_none rfl
theorem nopPacket (fn q : Nat) : Statement (.nopPacket fn q) := of_none rfl
theorem append (fn q : Nat) : Statement (.append fn q) := of_none rfl
theorem signal (fn q : Nat) : Statement (.signal fn q) := of_none rfl
theorem waitseq (fn q : Nat) : Statement (.waitseq fn q) := of_none rfl
theorem waitseqSatisfied (fn q : Nat) : Statement (.waitseqSatisfied fn q) := of_none rfl
theorem copy (fn q : Nat) : Statement (.copy fn q) := of_none rfl
theorem copyComplete (fn q : Nat) : Statement (.copyComplete fn q) := of_none rfl
theorem release (fn q : Nat) : Statement (.release fn q) := of_none rfl
theorem acquire (fn q : Nat) : Statement (.acquire fn q) := of_none rfl
theorem tstampPacket (fn q : Nat) : Statement (.tstampPacket fn q) := of_none rfl
theorem scrubPacket (fn q : Nat) : Statement (.scrubPacket fn q) := of_none rfl
theorem unknownPacket (fn q : Nat) : Statement (.unknownPacket fn q) := of_none rfl
theorem ctxopCreate (fn q : Nat) : Statement (.ctxopCreate fn q) := of_none rfl
theorem ctxopPreempt (fn q : Nat) : Statement (.ctxopPreempt fn q) := of_none rfl
theorem ctxopRestore (fn q : Nat) : Statement (.ctxopRestore fn q) := of_none rfl
theorem ctxopDestroy (fn q : Nat) : Statement (.ctxopDestroy fn q) := of_none rfl
theorem ctxopSetDraining (fn q : Nat) : Statement (.ctxopSetDraining fn q) := of_none rfl
theorem ctxopClearDraining (fn q : Nat) : Statement (.ctxopClearDraining fn q) := of_none rfl
theorem arbitrationPeriodBoundary (fn : Nat) : Statement (.arbitrationPeriodBoundary fn) := of_none rfl
theorem vfSlotConfig (fn m : Nat) (share : VfShare) : Statement (.vfSlotConfig fn m share) := of_none rfl
theorem wakeFilterWrite (i : Nat) (bytes : List (BitVec 8)) : Statement (.wakeFilterWrite i bytes) := of_none rfl
theorem wakeFrameMatch (port : Nat) (frame : List (BitVec 8)) : Statement (.wakeFrameMatch port frame) := of_none rfl
theorem solicitDirectoryPass (c i k : Nat) : Statement (.solicitDirectoryPass c i k) := of_none rfl
theorem solicitForwardArrive (c j : Nat) : Statement (.solicitForwardArrive c j) := of_none rfl
theorem responderSpawn (k pos : Nat) : Statement (.responderSpawn k pos) := of_none rfl
theorem combineNode (c i level node : Nat) : Statement (.combineNode c i level node) := of_none rfl
theorem censusComplete (c i : Nat) : Statement (.censusComplete c i) := of_none rfl
theorem censusSlotRetireArrive (c i k : Nat) : Statement (.censusSlotRetireArrive c i k) := of_none rfl
theorem tileMoveCommit (k x : Nat) : Statement (.tileMoveCommit k x) := of_none rfl
theorem tileMoveFail (k x : Nat) : Statement (.tileMoveFail k x) := of_none rfl
theorem tileDropComplete (k t p : Nat) : Statement (.tileDropComplete k t p) := of_none rfl
theorem linkEnable (l : Nat) : Statement (.linkEnable l) := of_none rfl
theorem linkTrainedFull (l : Nat) : Statement (.linkTrainedFull l) := of_none rfl
theorem linkTrainedHalf (l : Nat) : Statement (.linkTrainedHalf l) := of_none rfl
theorem linkTrainingTimeout (l : Nat) : Statement (.linkTrainingTimeout l) := of_none rfl
theorem linkErrorRetrain (l : Nat) : Statement (.linkErrorRetrain l) := of_none rfl
theorem expanderCompletionTimeout : Statement (.expanderCompletionTimeout) := of_none rfl
theorem linkRetrained (l : Nat) (half : Bool) : Statement (.linkRetrained l half) := of_none rfl
theorem linkRetrainTimeout (l : Nat) : Statement (.linkRetrainTimeout l) := of_none rfl
theorem linkDisable (l : Nat) : Statement (.linkDisable l) := of_none rfl
theorem flitCrcReplay (l : Nat) : Statement (.flitCrcReplay l) := of_none rfl
theorem portReadFail (k x i : Nat) : Statement (.portReadFail k x i) := of_none rfl
theorem bar2Bind (fn c wbase : Nat) : Statement (.bar2Bind fn c wbase) := of_none rfl
theorem bar2PostedWrite (fn off : Nat) (bytes : List (BitVec 8)) : Statement (.bar2PostedWrite fn off bytes) := of_none rfl
theorem bar2Read (fn off len : Nat) : Statement (.bar2Read fn off len) := of_none rfl
theorem peerAccessArrive (l rctx c va len : Nat) (write : Bool) (bytes : List (BitVec 8)) : Statement (.peerAccessArrive l rctx c va len write bytes) := of_none rfl
theorem qpDoorbell (port qp : Nat) : Statement (.qpDoorbell port qp) := of_none rfl
theorem send (port qp : Nat) : Statement (.send port qp) := of_none rfl
theorem sendWithImmediate (port qp : Nat) : Statement (.sendWithImmediate port qp) := of_none rfl
theorem rdmaWrite (port qp : Nat) : Statement (.rdmaWrite port qp) := of_none rfl
theorem rdmaWriteWithImmediate (port qp : Nat) : Statement (.rdmaWriteWithImmediate port qp) := of_none rfl
theorem rdmaRead (port qp : Nat) : Statement (.rdmaRead port qp) := of_none rfl
theorem sendEntryBadOp (port qp : Nat) : Statement (.sendEntryBadOp port qp) := of_none rfl
theorem incomingRdmaAccess (port key va len : Nat) (write : Bool) (bytes : List (BitVec 8)) : Statement (.incomingRdmaAccess port key va len write bytes) := of_none rfl
theorem receiveConsume (port qp op : Nat) (imm : BitVec 32) (bytes : List (BitVec 8)) : Statement (.receiveConsume port qp op imm bytes) := of_none rfl
theorem qpRetriesExhausted (port qp : Nat) : Statement (.qpRetriesExhausted port qp) := of_none rfl
theorem getVersion : Statement (.getVersion) := of_none rfl
theorem getCapabilities : Statement (.getCapabilities) := of_none rfl
theorem negotiateAlgorithms (offered : Bool) : Statement (.negotiateAlgorithms offered) := of_none rfl
theorem getDigests : Statement (.getDigests) := of_none rfl
theorem getCertificate (slot : Nat) : Statement (.getCertificate slot) := of_none rfl
theorem challenge : Statement (.challenge) := of_none rfl
theorem getMeasurements (signed : Bool) : Statement (.getMeasurements signed) := of_none rfl
theorem keyExchange : Statement (.keyExchange) := of_none rfl
theorem finish : Statement (.finish) := of_none rfl
theorem keyUpdate : Statement (.keyUpdate) := of_none rfl
theorem heartbeat : Statement (.heartbeat) := of_none rfl
theorem endSession : Statement (.endSession) := of_none rfl
theorem measurementExtend (i : Nat) (component : List (BitVec 8)) : Statement (.measurementExtend i component) := of_none rfl
theorem zmiReadTopology : Statement (.zmiReadTopology) := of_none rfl
theorem zmiReadHealth : Statement (.zmiReadHealth) := of_none rfl
theorem zmiSetDraining (c : Nat) : Statement (.zmiSetDraining c) := of_none rfl
theorem zmiClearDraining (c : Nat) : Statement (.zmiClearDraining c) := of_none rfl
theorem zmiSetPartDraining : Statement (.zmiSetPartDraining) := of_none rfl
theorem zmiReadFaultLog (c : Nat) : Statement (.zmiReadFaultLog c) := of_none rfl
theorem zmiReadPlotMap : Statement (.zmiReadPlotMap) := of_none rfl
theorem zmiReadVacateAudit : Statement (.zmiReadVacateAudit) := of_none rfl
theorem zmiReadUnitCounters : Statement (.zmiReadUnitCounters) := of_none rfl
theorem zmiReadRdThresholds : Statement (.zmiReadRdThresholds) := of_none rfl
theorem zmiSnapshotRefresh : Statement (.zmiSnapshotRefresh) := of_none rfl
theorem debuggerStopRequest (k t : Nat) : Statement (.debuggerStopRequest k t) := of_none rfl
theorem contextWideStop (c : Nat) : Statement (.contextWideStop c) := of_none rfl
theorem debuggerResume (k t : Nat) : Statement (.debuggerResume k t) := of_none rfl
theorem debuggerSingleStep (k t p : Nat) : Statement (.debuggerSingleStep k t p) := of_none rfl
theorem debuggerWrite (k t : Nat) (target : DbgTarget) (value : BitVec 64) : Statement (.debuggerWrite k t target value) := of_none rfl
theorem breakpointProgram (k i : Nat) (va : BitVec 64) : Statement (.breakpointProgram k i va) := of_none rfl
theorem debuggerDetach (c : Nat) : Statement (.debuggerDetach c) := of_none rfl
theorem debuggerAttach (c : Nat) : Statement (.debuggerAttach c) := of_none rfl
theorem traceWriteFault (k : Nat) : Statement (.traceWriteFault k) := of_none rfl
theorem queueRegister (fn q c desc : Nat) : Statement (.queueRegister fn q c desc) := of_none rfl
theorem recordQueueRegister (c desc : Nat) : Statement (.recordQueueRegister c desc) := of_none rfl
theorem portTableWrite (c i : Nat) (w0 w1 : BitVec 64) : Statement (.portTableWrite c i w0 w1) := of_none rfl
theorem memoryRegionRegister (port key c va len : Nat) (r w : Bool) : Statement (.memoryRegionRegister port key c va len r w) := of_none rfl
theorem queuePairSetup (port qp c sring ssize rring rsize cring csize db : Nat) : Statement (.queuePairSetup port qp c sring ssize rring rsize cring csize db) := of_none rfl
theorem sendEntryComplete (port qp status : Nat) (bytes : List (BitVec 8)) : Statement (.sendEntryComplete port qp status bytes) := of_none rfl
theorem coreGating : Statement (.coreGating) := of_none rfl

end Sys2Proof.Laws.RoundTrip
end

