-- ==== Sys2Proof/Laws/Units.lean ====
section
/-! SUPPORT. What a request leaves when the shared units, the plots and the rows take note of it (R19, R231, R232, R243): nothing but
their own records changes. -/

namespace Sys2Proof.Machine

/-- Two states that differ in nothing but what the shared units, the plots and the rows record of requests. -/
def Noted (s t : State) : Prop :=
  t = { s with ctxs := t.ctxs, plots := t.plots, trackers := t.trackers, calReqs := t.calReqs, calGot := t.calGot }

theorem Noted.refl (s : State) : Noted s s := rfl

theorem Noted.trans {s t u : State} (h : Noted s t) (g : Noted t u) : Noted s u := by
  unfold Noted at *
  rw [g, h]

/-- Memory is as before. -/
theorem Noted.mem {s t : State} (h : Noted s t) : t.mem = s.mem := by rw [h]

/-- A run of steps each of which leaves nothing but such records leaves nothing else. -/
theorem Noted.foldl {α : Type} (f : State → α → State) (h : ∀ s a, Noted s (f s a)) :
    ∀ (l : List α) (s : State), Noted s (l.foldl f s)
  | [], s => Noted.refl s
  | a :: l, s => (h s a).trans (Noted.foldl f h l (f s a))

/-- A request that reaches its plot (R232). -/
theorem touch_noted (s : State) (c pa : Nat) : Noted s (s.touch c pa) := by
  unfold State.touch
  split
  · unfold State.updCtx; rfl
  · exact Noted.refl s

/-- A request that activates its row (R243). -/
theorem activate_noted (s : State) (fn pa : Nat) : Noted s (s.activate fn pa) := by
  unfold State.activate
  split
  · exact Noted.refl s
  · rfl

/-- A request that the shared units forget (R19). -/
theorem forgetPart_noted (s : State) (id : Nat) : Noted s (s.forgetPart id) := rfl

/-- A request that is served. -/
theorem doneRuns_noted (s : State) (g : Agent) (runs : List (Nat × Nat)) : Noted s (s.doneRuns g runs) :=
  (forgetPart_noted s g.id).trans (Noted.foldl _
    (fun s r => (touch_noted s _ r.1).trans (Noted.foldl _ (fun s a => activate_noted s _ a) _ _)) runs _)

/-- The tables that a walk reads are reached (R232). -/
theorem walkTouch_noted (s : State) (c va : Nat) : Noted s (s.walkTouch c va) := by
  unfold State.walkTouch
  split
  · split
    · exact Noted.refl s
    · exact Noted.foldl _ (fun s a => (touch_noted s c a).trans (activate_noted _ _ a)) _ s
  · exact Noted.refl s

/-- The accesses of an agent that have been made (R232, R19). -/
theorem agentDone_noted (s : State) (g : Agent) (runs : List (Nat × Nat × Need)) : Noted s (s.agentDone g runs) := by
  unfold State.agentDone
  refine Noted.trans ?_ (doneRuns_noted _ g _)
  split
  · exact Noted.foldl _ (fun s va => walkTouch_noted s _ va) _ s
  · exact Noted.refl s

end Sys2Proof.Machine
end

