-- ==== Sys2Proof/Safety.lean ====
section
/-! DEFINITION. What counts as a safe run: one whose every step answers a next state. -/

namespace Sys2Proof.Machine

/-- `n` steps from `s` all answer a next state. -/
def Safe : Nat → State → Prop
  | 0, _ => True
  | n + 1, s => ∃ t, step s = .next t ∧ Safe n t

end Sys2Proof.Machine
end

