-- ==== Sys2Proof/Tests/Slice0.lean ====
section
/-! SUPPORT. Tests of the model by hand: words written from the spec's encodings and what they decode to, terms that
`wf` refuses, single steps with the results the spec gives, and for each statement with hypotheses a witness `meets_…`:
for each of its clauses a machine and operands that meet its hypotheses together. -/

namespace Sys2Proof.Tests
open Sys2Proof Sys2Proof.Machine

set_option Elab.async false
set_option exponentiation.threshold 2048
set_option linter.unusedVariables false

/-! ### A small machine for the witnesses

One core of context 0, one team of 16 lanes, one kernel of code at 0x40000000; the gigabyte there is mapped onto itself
with every permission, the next one is not mapped. -/

def wCl : Clause := ⟨0x40000000, 0xF0006C5A, maskAll 16, 1⟩
def wSp : Split :=
  { Split.blank with pc := 0x40000000, live := maskAll 16, exec := maskAll 16, clause := some wCl }
def wTm : Team := { Team.blank with lanes := 16, vcount := 100, scount := 50 }
def wKn : Kern :=
  { Kern.blank with codeVa := 0x40000000, codewords := 16, shared := 8192, teams := 1, lanes := 16, vregs := 100,
                    sregs := 50, maxcarry := 8 }
def wCx : Ctx :=
  { Ctx.blank with state := .running, root := 0x1000, bound := 0x100000, srate := 0x4000, cores := [0],
                   kernels := [(0, wKn)], nextLoad := 1, dieWin := [(0, (0, 4096))] }
def wCrew : Crew := ⟨0, 0, 0, 8192, [], 0, none, false⟩
def wCo : Machine.Core :=
  { Machine.Core.init with
    ctx := some 0, owners := [(0, 0)], crews := [(0, wCrew)], nextOrder := 1,
    allow := 0x80000 }
/-- Page tables from 0x1000: VA 0x40000000 is mapped onto itself, VA 0x80000000 is not mapped. -/
def wMem : Memory :=
  Memory.setBytes (Memory.setBytes (Memory.setBytes [] 0x1000 (toBytes 8 0x2001)) 0x2000 (toBytes 8 0x3001)) 0x3008
    (toBytes 8 0x4000001F ++ toBytes 8 0)

/-- The core `c` with the team `tm` and its split `sp` in position 0. -/
def wCore (c : Machine.Core) (tm : Team) (sp : Split) : Machine.Core := 
  { c with teams := (0, { tm with splits := (0, sp) :: tm.splits }) :: c.teams }
/-- The machine with that core 0, context 0 as `x`, and the word at the split's position in issue. -/
def wS (x : Ctx) (c : Machine.Core) (tm : Team) (sp : Split) : State :=
  { State.reset with cores := [(0, wCore c tm sp)], ctxs := [(0, x)], mem := wMem, plots := [(0, ⟨.warm, 0, [0], []⟩)],
                     cur := some ⟨0, 0, 0, 1, 1⟩ }
def wA (c : Machine.Core) (tm : Team) (sp : Split) : At :=
  ⟨0, 0, 0, 1, wCore c tm sp, { tm with splits := (0, sp) :: tm.splits }, sp, wCl, 1⟩

/-- A tile of team 0, an operation of its, a matrix instruction on its tile 31, a channel that runs, an entry of the
directory and a census, as they stand when they have just begun. -/
def wTile : Tile := ⟨0, false, [], 0, false, false, 0, true⟩
def wOp (kind : AKind) (ps : List Part) : AsyncOp where
  team := 0
  order := 0
  split := 0
  crew := 0
  kind := kind
  bar := 0
  size := 4
  parts := ps
  nextPart := 1
  pub := none
  item := none
  pc := 0x40000004
  afterW := []
  afterR := []
  sampled := false
  nlanes := 1
  sectors := [1]
  replays := 0
  issuedAt := 0
  acq := false
  rel := false
  scope := 0
  relW := []
  port := false
  heldNs := 0
def wMat (body : MatBody) (started : Bool) (group row : Nat) : MatOp where
  order := 0
  team := 0
  split := 0
  torder := 0
  crew := 0
  tile := 31
  body := body
  started := started
  begun := started
  step := 0
  group := group
  row := row
  paid := row
  rowsRead := none
  tileRead := none
  page := none
  fail := none
  failVa := 0
  nan := false
  bar := 0
  item := none
  afterW := []
  afterR := []
  pc := 0x40000004
  acq := false
  rel := false
  scope := 0
  relW := []
  port := false
  slots := some 0
def wChan (rec : Nat) (cur : Option ChanRec) (done : Nat) : Chan where
  state := .running
  num := 9
  recVa := rec
  isLocal := false
  team := 0
  split := 0
  order := 0
  crew := 0
  kernel := 0
  teamT := 0
  cur := cur
  done := done
  wrote := false
  page := none
  fail := none
  pend := none
  slots := some 0
  item := none
  afterW := []
  afterR := []
  relW := []
  port := false
  ahead := []
/-- Every slot of the calendar that a request could need (R19). -/
def wGot (ids : List Nat) : List (Nat × Nat) := ids.flatMap fun id => (List.range 28).map fun u => (u, id)
def wDir (st : DirState) (peer pentry : Nat) : DirEntry := ⟨5, 4, 0, 0, st, 0, peer, pentry, 7, 0, 0, false⟩
def wWb : Writeback := ⟨false, 0, 0, [], 0, .none, [], false, false, 0, 0, false⟩
def wCensus (toPass : List Nat) (counts : List (Nat × Nat)) (nodes : List (Nat × Nat × Option (List W32)))
    (stage : CensusStage) (toRetire : List Nat) : Census where
  ident := 77
  core := 0
  team := 0
  order := 0
  crew := 0
  key := 5
  mask := 0
  n := 1
  op := 0
  roff := 64
  bar := 0
  package := false
  width := 1
  payload := [1, 2, 3, 4]
  toPass := toPass
  counts := counts
  nodes := nodes
  stage := stage
  toRetire := toRetire
  item := none
  afterR := []

theorem ok_of {α ε : Type} {x : Except ε α} (h : x.isOk = true) : ∃ i, x = .ok i := by
  cases x with
  | ok i => exact ⟨i, rfl⟩
  | error e => cases h

theorem err_of {α : Type} {x : Except EngTry α} {v : EngTry}
    (h : (match x with | .error e => decide (e = v) | .ok _ => false) = true) : x = .error v := by
  cases x with
  | ok _ => cases h
  | error e => simpa using h

/-- A context record (R246) of context `c`: B = 0x640, one core. -/
def wRec (c cores : Nat) : List Byte :=
  toBytes 8 c ++ toBytes 8 0x1000 ++ toBytes 8 0 ++ toBytes 8 0x640 ++ toBytes 8 0x4000 ++ List.replicate 24 0 ++
    toBytes 8 cores ++ List.replicate 952 0
def wRecMem (c cores : Nat) : Memory := Memory.setBytes wMem 0x40001000 (wRec c cores)

theorem wRec_low (c n a : Nat) (h : a + 8 ≤ 0x40001000) :
    Memory.bytes (wRecMem c n) a 8 = Memory.bytes wMem a 8 := by
  unfold Memory.bytes wRecMem
  refine List.map_congr_left fun i hi => Memory.get_setBytes_ne (Or.inl ?_)
  have := List.mem_range.mp hi
  omega

theorem wRec_walk (c n : Nat) (need : Need) : walk (wRecMem c n) need 0x40001000 4 0x1000 =
    if leafAllows need 0x4000001F then .pa 0x40001000 else .bad := by
  have e4 : BitVec.ofNat 64 (ofBytes (Memory.bytes wMem 0x1000 8)) = 0x2001 := by decide +kernel
  have e3 : BitVec.ofNat 64 (ofBytes (Memory.bytes wMem 0x2000 8)) = 0x3001 := by decide +kernel
  have e2 : BitVec.ofNat 64 (ofBytes (Memory.bytes wMem 0x3008 8)) = 0x4000001F := by decide +kernel
  have i4 : 0x1000 + 8 * (0x40001000 / 2 ^ levelShift (3 + 1) % 512) = 0x1000 := by decide +kernel
  have i3 : 0x2000 + 8 * (0x40001000 / 2 ^ levelShift (2 + 1) % 512) = 0x2000 := by decide +kernel
  have i2 : 0x3000 + 8 * (0x40001000 / 2 ^ levelShift (1 + 1) % 512) = 0x3008 := by decide +kernel
  have p4 : entryPa 0x2001 = 0x2000 := by decide +kernel
  have p3 : entryPa 0x3001 = 0x3000 := by decide +kernel
  have l2 : entryPa 0x4000001F + 0x40001000 % 2 ^ levelShift (1 + 1) = 0x40001000 := by decide +kernel
  rw [← wRec_low c n 0x1000 (by decide)] at e4
  rw [← wRec_low c n 0x2000 (by decide)] at e3
  rw [← wRec_low c n 0x3008 (by decide)] at e2
  rw [walk_table (l := 3) (e := 0x2001) (by rw [i4, e4]) (by decide) (by decide) (by decide +kernel), p4,
    walk_table (l := 2) (e := 0x3001) (by rw [i3, e3]) (by decide) (by decide) (by decide +kernel), p3,
    walk_leaf (l := 1) (e := 0x4000001F) (by rw [i2, e2]) (by decide) (by decide) (by decide +kernel), l2]

theorem wRec_read {s : State} {c n : Nat} (hm : s.mem = wRecMem c n)
    (h : s.vaTry none 0x40001000 1024 .r = .ok 0x40001000) : s.vaRead none 0x40001000 1024 = wRec c n := by
  have hp : vaPieces 0x40001000 1024 = [(0x40001000, 1024)] := by decide +kernel
  have hl : (wRec c n).length = 1024 := by
    simp only [wRec, List.length_append, List.length_replicate, toBytes_length]
  simp only [State.vaRead, hp, List.flatMap_cons, List.flatMap_nil, h, List.append_nil, State.pa, hm, wRecMem]
  rw [← hl, Memory.bytes_setBytes]

theorem wRec_try {s : State} {c n : Nat} {need : Need} (hm : s.mem = wRecMem c n) (hr : s.rkRoot = 0x1000)
    (hn : leafAllows need 0x4000001F = true) (hp : (s.plot 0).state = .warm) (hl : s.lost = []) (hf : s.failedCh = []) :
    s.vaTry none 0x40001000 1024 need = .ok 0x40001000 := by
  have a1 : isHbm 0x40001000 = true := by decide +kernel
  have a2 : plotOf 0x40001000 = 0 := by decide +kernel
  have a4 : isFar 0x40001000 = false := by decide +kernel
  have a3 : (2 ^ 57 ≤ 0x40001000 ∨ 0x1FE ≤ winOf 0x40001000 ∨ (need ≠ .r ∧ False)) = False := by
    simp only [and_false, or_false]; decide +kernel
  have l1 : s.isLost 0x40001000 1024 = false := by
    simp only [State.isLost, List.any_eq_false, unitLost_none hl hf]; exact fun _ _ h => nomatch h
  have l2 : s.writeLost 0x40001000 1024 = false := by
    simp only [State.writeLost, unitLost_none hl hf, Bool.false_and, List.any_eq_false]
    exact fun _ _ h => by obtain ⟨_, _, h⟩ := List.any_eq_true.mp h; cases h
  simp only [State.vaTry, State.decoded, Option.bind_none, hm, State.rootOf, hr, wRec_walk, hn, if_true, a1, a2, a3, a4, hp, l1, l2,
    Bool.false_and, Bool.and_false, Bool.or_false, Bool.false_eq_true, if_false]

/-- Context 0 in a state in which it holds no core, and a machine where it stands with its record in memory. -/
def wStand (st : CtxState) : Ctx := { wCx with state := st, recVa := 0x40001000 }
def wRestore (st : CtxState) (m : Memory) : State :=
  { wS (wStand st) wCo wTm wSp with
    cores := [], mem := m, rkRoot := 0x1000, plots := (List.range 64).map fun p => (p, ⟨.warm, 0, [0], []⟩) }
def wRead (st : CtxState) : Ctx := ((wStand st).ofRecord 0 (wRec 0 1)).getD wCx
def wReread (st : CtxState) : Ctx := { wRead st with saved := [(0, { Machine.Core.init with ctx := some 0 })] }

theorem wRestore_try (st : CtxState) (c n : Nat) (need : Need) (h : leafAllows need 0x4000001F = true) :
    (wRestore st (wRecMem c n)).vaTry none 0x40001000 1024 need = .ok 0x40001000 := by
  refine wRec_try (c := c) (n := n) ?_ ?_ h ?_ ?_ ?_ <;> simp only [wRestore, wS, State.reset] <;> rfl

theorem wRestore_read (st : CtxState) (c n : Nat) :
    (wRestore st (wRecMem c n)).vaRead none 0x40001000 1024 = wRec c n := by
  refine wRec_read (c := c) (n := n) ?_ (wRestore_try st c n .r (by decide +kernel))
  simp only [wRestore]

theorem reread_one {s : State} {c : Nat} {x y : Ctx} (h : x.ofRecord c (s.vaRead none x.recVa 1024) = some y)
    (hs : y.saved = []) (hc : y.cores = [0]) :
    s.rereadCtx c x = some { y with saved := [(0, { Machine.Core.init with ctx := some c })] } := by
  unfold State.rereadCtx
  rw [h]
  simp only [hs, hc, List.all_nil, if_true]
  rfl

theorem wRestore_rereads (st : CtxState) (h : ((wStand st).ofRecord 0 (wRec 0 1)).isSome = true)
    (hs : (wRead st).saved = []) (hc : (wRead st).cores = [0]) :
    (wRestore st (wRecMem 0 1)).rereadCtx 0 (wStand st) = some (wReread st) := by
  refine reread_one (y := wRead st) ?_ hs hc
  obtain ⟨y, hy⟩ := Option.isSome_iff_exists.mp h
  rw [show (wStand st).recVa = 0x40001000 from rfl, wRestore_read, wRead, hy]
  rfl

/-- A packet 0x09 that creates context 5 from that record, taken from a privileged queue (R302). -/
def wCreateWords : List W64 := [0x0900000000000000, 5, 0x40001000, 0, 0, 0, 0, 0]
def wCreate : Queue :=
  { Queue.blank with ring := 0x40006000, size := 16, cring := 0x40007000, state := .mapped, priv := true, lane := some 255,
                     packet := some wCreateWords }
def wCreating (m : Memory) : State :=
  { wS wCx wCo wTm wSp with mem := m, rkRoot := 0x1000, queues := [(65536, wCreate)], calGot := wGot [packetId 65536] }
/-- The machine once the packet's access is made. -/
def wCreating1 : State :=
  (Claims.begin' (wCreating (wRecMem 5 0)) 256 0 wCreate).agentDone (wCreate.operandAgent 65536) [(0x40001000, 1024, .rw)]
def wCreated : Ctx :=
  Option.get (Ctx.ofRecord { Ctx.blank with recVa := 0x40001000 } 5 (wRec 5 0)) (by decide +kernel)

theorem wCreated_of : Ctx.ofRecord { Ctx.blank with recVa := 0x40001000 } 5 (wRec 5 0) = some wCreated := by
  unfold wCreated
  rw [Option.some_get]

theorem wCreating1_mem : wCreating1.mem = wRecMem 5 0 := by
  unfold wCreating1
  rw [(agentDone_noted _ _ _).mem]
  simp only [Claims.begin', wCreating]

theorem wCreating1_read : wCreating1.vaRead none 0x40001000 1024 = wRec 5 0 := by
  refine wRec_read (c := 5) (n := 0) wCreating1_mem ?_
  have hr : wCreating1.rkRoot = 0x1000 := by decide +kernel
  have hp : (wCreating1.plot 0).state = .warm := by decide +kernel
  have hl : wCreating1.lost = [] := by decide +kernel
  have hf : wCreating1.failedCh = [] := by decide +kernel
  exact wRec_try wCreating1_mem hr (by decide +kernel) hp hl hf

/-- A KLOAD packet of context 0's queue 7 that has made its accesses, and the machine with it (R283). -/
def wKlP : List W64 := [0x0700000000000000, 0x40001000, 0, 0, 0, 0, 0, 0]
def wKlQ : Queue :=
  { Queue.blank with ctx := some 0, ring := 0x40006000, size := 16, cring := 0x40007000, state := .mapped, lane := some 255,
                     packet := some wKlP, copied := 3 }
def wKlHdr : List Byte :=
  toBytes 4 0x50484953 ++ toBytes 4 1 ++ toBytes 4 2 ++ toBytes 4 0 ++ toBytes 4 0 ++ toBytes 4 4096 ++ toBytes 4 0x00100001 ++
    toBytes 4 0x0810 ++ toBytes 8 0 ++ toBytes 8 0 ++ toBytes 4 0 ++ toBytes 4 0x80 ++ toBytes 8 1
def wKlMem (op : Nat) : Memory :=
  Memory.setBytes (Memory.setBytes wMem 0x40001000 (toBytes 8 0x40002000 ++ toBytes 8 0x100 ++ toBytes 8 0x40004000 ++
    toBytes 8 (op * 2 ^ 56 + 2 ^ 40 + 1) ++ toBytes 8 0 ++ toBytes 8 0 ++ toBytes 8 0 ++ toBytes 8 0)) 0x40002000 wKlHdr
def wKlS (x : Ctx) (op : Nat) : State := { wS x wCo wTm wSp with mem := wKlMem op, queues := [(7, wKlQ)] }
def wKlV (x : Ctx) (op : Nat) : State := Claims.begin' (wKlS x op) 0 7 wKlQ

/-- Fourteen of a team's other entries in use leave one free: fewer than two. -/
theorem wFew : Claims.FewFree (wA wCo { wTm with p := [(1, maskAll 8)], splits := (List.range 14).map fun i => (i + 1, { wSp with state := .ready }) } wSp).team 2 := by
  intro es hn h
  have h15 : ∀ e ∈ es, e = 15 := fun e he => by
    have ⟨h1, h2⟩ := h e he
    revert h2
    have : ∀ n < 16, (wA wCo { wTm with p := [(1, maskAll 8)], splits := (List.range 14).map fun i => (i + 1, { wSp with state := .ready }) } wSp).team.splits.get n = none → n = 15 := by decide +kernel
    exact this e h1
  match es, hn, h15 with
  | [], _, _ => exact Nat.zero_lt_two
  | [_], _, _ => exact Nat.one_lt_two
  | a :: b :: _, hn, h15 =>
    rw [h15 a (by simp), h15 b (by simp)] at hn
    simp at hn

/-! ### Words written out from the spec's encodings (R35, R37, R41, R46, R55) -/

/-- `br top` with the header at 0x48 and `top` at 0x28 (R45). -/
theorem test_word_br : decode false .ctl [0x01FFFFF8] = .ok (.br (-8), 1) := rfl
/-- `trap 0xFFFF` and `jtab 5, v4, s10, join` twelve words on (R46). -/
theorem test_word_trap : decode false .ctl [0x1A00FFFF] = .ok (.trap 0xFFFF, 1) := rfl
theorem test_word_jtab : decode false .ctl [0x0605048A, 0xC] = .ok (.jtab 5 (.v 4) (.s 10) 12, 2) := rfl
/-- `sadd s1, s1, s2` (R46). -/
theorem test_word_sadd : decode false .uni [0x00818182] = .ok (.sadd (.s 1) (.s 1) (.s 2), 1) := rfl
/-- `vadd v5, v5, -1`, `vaddi v5, v5, 1000` and `vadd v6, v6, 100000` (R46). -/
theorem test_word_vadd : decode false .lane [0x000505CE] = .ok (.vadd (.v 5) (.v 5) (.k 14), 1) := rfl
theorem test_word_vaddi : decode false .lane [0x1D0503E8] = .ok (.vaddi (.v 5) 1000, 1) := rfl
theorem test_word_vadd_literal :
    decode false .lane [0x000606DF, 0x000186A0] = .ok (.vadd (.v 6) (.v 6) (.lit 100000), 2) := rfl
/-- `fmul v2, v2, 2` and `fscale v3, v2, 0x85` (R46). -/
theorem test_word_fmul : decode false .flt [0x020202D1] = .ok (.fmul (.v 2) (.v 2) (.k 17), 1) := rfl
theorem test_word_fscale : decode false .flt [0x150302DF, 0x85] = .ok (.fscale (.v 3) (.v 2) (.lit 0x85), 2) := rfl
/-- `st.w [s4 + v9], 100000`: D is a source, and its literal follows (R46). -/
theorem test_word_stW :
    decode false .loc [0x09DF8409, 0x000186A0] = .ok (.stW (.lit 100000) (.s 4) (.v 9), 2) := rfl
/-- ASY 0x04 `gather`, D = s12, A = s4, B = v9; bar s3 in [31:26], size code 2 in [20:18], shift 2 in [17:15], w32 in [14]
(R55, R150). -/
theorem test_word_gather : decode false .asy [0x048C8409, 0x0C094000] =
    .ok (.gather (.s 12) (.s 4) (.v 9) ⟨3, 0, false, false, 2, 2, true, false, 0⟩, 2) := rfl
/-- ASY 0x00 `chan.go`: D is the channel number 3, A = s4 (R55, R58). -/
theorem test_word_chanGo : decode false .asy [0x00038400] = .ok (.chanGo 3 (.s 4), 1) := rfl
/-- SYS 0x00 `csr.rd`: D = s0, CSR 0x020 in IMM16[11:0] (R55, R58). -/
theorem test_word_csrRd : decode false .sys [0x00800020] = .ok (.csrRd (.s 0) 0x020, 1) := rfl
/-- Reserved: CTL 0x1E, SYS 0x06, engine 7, operand code 0xEE (R55, R60, R41). -/
theorem test_word_reserved : (decode false .ctl [0x1E000000] = .error .illegalInstruction) ∧
    (decode false .sys [0x06000000] = .error .illegalInstruction) ∧ (headerOf 0x1E006C5A).eng = none ∧
    (decode false .uni [0x008181EE] = .error .illegalOperand) := ⟨rfl, rfl, rfl, rfl⟩
/-- An unused field that is not 0 (R38), a literal past the clause's words (R37), a literal in a written D (R37). -/
theorem test_word_illegal : (decode false .ctl [0x0C000001] = .error .illegalOperand) ∧
    (decode false .lane [0x000606DF] = .error .illegalClause) ∧
    (decode false .lane [0x00DF0606, 0] = .error .illegalOperand) := ⟨rfl, rfl, rfl⟩
/-- `scrub` is privileged (R59). -/
theorem test_word_privileged : decode false .asy [0x1B848485] = .error .privilege ∧
    (decode true .asy [0x1B848485]).toOption = some (.scrub (.s 4) (.s 4) (.s 5), 1) := ⟨rfl, by decide⟩

/-! ### Terms that `wf` refuses, one for each check -/

theorem test_wf_kinds : (Instr.vadd (.s 1) (.v 1) (.v 1)).wf = false ∧ (Instr.sadd (.v 1) (.s 1) (.s 1)).wf = false ∧
    (Instr.pand (.v 1) (.p 1) (.p 1)).wf = false ∧ (Instr.streamPub (.s 1) (.s 1)).wf = false ∧
    (Instr.spillSt (.p 1)).wf = false ∧ (Instr.sadd (.s 1) (.q 1) (.s 1)).wf = false ∧
    (Instr.ldW (.v 1) (.v 1) (.v 1)).wf = false ∧ (Instr.vadd (.v 1) (.p 1) (.v 1)).wf = false ∧
    (Instr.fadd (.v 1) (.q 1) (.v 1)).wf = false ∧ (Instr.stW (.p 1) (.s 1) (.v 1)).wf = false ∧
    (Instr.bz (.v 1) 0).wf = false ∧ (Instr.bz .lane 0).wf = false ∧ (Instr.sys (.s 61) 0).wf = false := by decide
theorem test_wf_numbers : (Instr.jtab 0 (.v 1) (.s 1) 0).wf = false ∧ (Instr.claimV 129).wf = false ∧
    (Instr.claimS 0).wf = false ∧ (Instr.claimA (.s 1) 33).wf = false ∧ (Instr.ready 4 (.s 1) (.s 1)).wf = false ∧
    (Instr.phase 129 0).wf = false ∧ (Instr.fcvt (.v 1) (.v 1) 0x80).wf = false ∧
    (Instr.fpack (.v 1) (.v 1) 0x40).wf = false ∧ (Instr.funpack (.v 1) (.v 1) 0x08).wf = false ∧
    (Instr.fence 7 true false).wf = false ∧ (Instr.fence 0 false false).wf = false ∧
    (Instr.csrRd (.s 0) 0x050).wf = false ∧ (Instr.csrWr (.s 0) 0x000).wf = false := by decide
theorem test_wf_parameters : (Instr.atomxAdd (.v 1) (.s 1) (.v 1) ⟨true, false, false, 7⟩).wf = false ∧
    (Instr.gather (.s 1) (.s 1) (.v 1) ⟨0, 1, false, false, 2, 0, true, false, 0⟩).wf = false ∧
    (Instr.gather (.s 1) (.s 1) (.v 1) ⟨0, 0, false, false, 5, 0, true, false, 0⟩).wf = false ∧
    (Instr.gather (.s 1) (.s 1) (.v 1) ⟨0, 0, false, false, 2, 0, true, false, 1⟩).wf = false ∧
    (Instr.scatter (.s 1) (.s 1) (.v 1) ⟨0, 0, false, false, 2, 0, true, false, 8⟩).wf = false ∧
    (Instr.atomM (.s 1) (.s 1) (.v 1) ⟨0, 0, false, false, 1, 0, true, false, 0⟩).wf = false ∧
    (Instr.atomM (.s 1) (.s 1) (.v 1) ⟨0, 0, false, false, 3, 0, true, false, 1⟩).wf = false ∧
    (Instr.ldBlk (.s 1) (.s 1) (.s 1) ⟨0, 0, false, false, 0, 1, false, false, 0⟩).wf = false ∧
    (Instr.stBlk (.s 1) (.s 1) (.s 1) ⟨0, 0, false, false, 0, 0, false, false, 1⟩).wf = false ∧
    (Instr.portWr (.s 1) (.s 1) ⟨0, 0, false, false, 4, 0, false, false, 0⟩).wf = false ∧
    (Instr.mstore 0 (.s 1) ⟨0, 7, true, false⟩).wf = false ∧
    (Instr.mloop 0 (.s 1) ⟨0, 0, false, true⟩).wf = false := by decide

/-! ### Single steps -/

/-- Something of team 0 of core 0 after an instruction. -/
def after {α : Type} (f : Team → α) (r : Res) : Option α :=
  match r with
  | .next t => (t.team? 0 0).map f
  | _ => none
def wRun (i : Instr) (v : Regs 32) (x : Regs 64) (p : Regs 1024) : Res :=
  exec i (wS wCx wCo { wTm with v := v, s := x, p := p } wSp)

/-- R81: a uniform sum wraps. -/
theorem test_step_sadd :
    after (·.sreg 3) (wRun (.sadd (.s 3) (.s 1) (.k 16)) [] [(1, 0xFFFFFFFFFFFFFFFF)] []) = some 0 := by decide +kernel
/-- R81: the high half of a signed product, (−1) × 1. -/
theorem test_step_smulh :
    after (·.sreg 3) (wRun (.smulh (.s 3) (.s 1) (.k 16)) [] [(1, 0xFFFFFFFFFFFFFFFF)] []) =
      some 0xFFFFFFFFFFFFFFFF := by decide +kernel
/-- R86: a lane sum wraps, in the lane that carries; lane 1 adds 0 and 1. -/
theorem test_step_vadd :
    after (fun t => (Regs.get t.v (1024 * 3), Regs.get t.v (1024 * 3 + 1)))
      (wRun (.vadd (.v 3) (.v 1) (.k 16)) [(1024, 0xFFFFFFFF)] [] []) = some (0, 1) := by decide +kernel
/-- R93: −0 counts as less than +0. -/
theorem test_step_fmin :
    after (fun t => Regs.get t.v (1024 * 3)) (wRun (.fmin (.v 3) (.v 1) (.v 2)) [(1024, 0), (2048, 0x80000000)] [] []) =
      some 0x80000000 := by decide +kernel
/-- R74: 1.5 + 2.25 = 3.75. -/
theorem test_step_fadd :
    after (fun t => Regs.get t.v (1024 * 3))
      (wRun (.fadd (.v 3) (.v 1) (.v 2)) [(1024, 0x3FC00000), (2048, 0x40100000)] [] []) = some 0x40700000 := by
  decide +kernel
/-- R116: a branch taken goes to header + 4 × offset. -/
theorem test_step_br :
    after (fun t => (t.splits.get 0).map (·.pc)) (wRun (.br 2) [] [] []) = some (some 0x40000008) := by decide +kernel
/-- R127, R266, R267: `trap` is class 0x8; its code goes into the side buffer, and the handler stands at
`tvec` + class × 0x200. -/
theorem test_step_trap :
    after (fun t => (t.side.info, t.tcause, (t.splits.get 0).map (·.pc)))
      (exec (.trap 0x1234) (wS wCx wCo { wTm with tvec := 0x40000100 } wSp)) =
      some (0x1234, 0x0800, some 0x40001100) := by decide +kernel
/-- R41, R58: a stored D is any source of a LOC word, and a tested D a predicate or any UNI source. -/
theorem test_wf_sources : (Instr.stW .lanes (.s 1) (.v 1)).wf = true ∧ (Instr.stxW .role (.s 1) (.v 1)).wf = true ∧
    (Instr.stW (.q 1) (.s 1) (.v 1)).wf = true ∧ (Instr.bz .team 0).wf = true ∧ (Instr.bnz (.p 1) 0).wf = true := by decide
/-- R136, R201: a word load owes its access, which reads little-endian bytes when it is performed; an unwritten byte of the
shared store reads 0. -/
theorem test_step_ldW :
    after (·.vreg 3 0) (match exec (.ldW (.v 3) (.k 15) (.k 15))
        (wS wCx { wCo with shared := [(0, 0x78), (1, 0x56), (2, 0x34)] } wTm wSp) with
      | .next t => exec (.locWriteback 0 0 0 0 (maskAll 16)) t
      | r => r) = some 0x345678 := by decide +kernel
/-- R42, R148: a literal of a LOC word is a 32-bit integer, so that one with bit 31 set binds a stream of one slot of 32 KiB;
the literal with bit 4 of Z clear but bit 16 set (Z not a multiple of 16) does not. -/
theorem test_step_stream_bind :
    (fun b => match exec (.streamBind (.q 7) (.k 15) (.lit b))
        (wS wCx { wCo with crews := [(0, { wCrew with size := 32768 })] } wTm wSp) with
      | .next t => ((t.core? 0).bind fun c => (c.crews.get 0).map fun w => w.streams.length)
      | _ => none) <$> [0x80000000, 0x00010000] = [some 1, some 0] := by decide +kernel
/-- R62: code that is not privileged traps 0x0004 at CSR 0x800. -/
theorem test_step_far_csr :
    after (fun t => t.fault.map (·.code)) (wRun (.csrRd (.s 1) 0x800) [] [] []) = some (some 0x0004) := by decide +kernel
/-- R273: an entry of the log is 64 bytes. -/
theorem test_log_entry : (LogEntry.bytes ⟨1, 2, 3, 1, 2, 0x0303, 4, 5, 6, 7⟩).length = 64 := by decide +kernel

/-! ### Witnesses, one theorem for each statement with hypotheses -/

theorem meets_UniformResults :
    (∃ (s : State) (a : At) (i : Instr) (d : Opnd) (os : List Opnd) (v : W64), s.at? = some a ∧ Claims.uniResult a i
    = some (d, os, v) ∧ a.team.claimsAll os = true ∧ ((∃ n, d = .s n))) ∧
    (∃ (w pos fw i : Nat) (x : BitVec w), i < w) ∧
    (∃ (w pos fw i : Nat) (x : BitVec w), i < w ∧ 0 < fw) ∧
    (∃ (w pos fw i : Nat) (x y : BitVec w), i < w) ∧
    (∃ (a b z : W32) (i : Nat), i < 4) :=
  ⟨⟨wS wCx wCo wTm wSp, wA wCo wTm wSp, .sadd (.s 49) (.s 1) (.k 16), .s 49, _, _, rfl, rfl, by decide +kernel, ⟨49,
    rfl⟩⟩,
    ⟨64, 63, 64, 63, 0, by decide +kernel⟩,
    ⟨64, 63, 1, 63, 0, by decide +kernel⟩,
    ⟨64, 63, 64, 63, 0, 0, by decide +kernel⟩,
    ⟨0, 0, 0, 3, by decide +kernel⟩⟩

theorem meets_LaneResults :
    (∃ (s : State) (a : At) (i : Instr) (d x y x' y' : Opnd) (f : W32 → W32 → W32 → W32) (qs : Map Stream), s.at? =
    some a ∧ Claims.laneFun i = some (d, x, y, f) ∧ a.team.claimsAll [d, x, y] = true ∧ Claims.Takes a [x, y] qs [x',
    y']) ∧
    (∃ (s : State) (a : At) (i : Instr) (d x y x' y' : Opnd) (f : W32 → W32 → Bool) (qs : Map Stream), s.at? = some a
    ∧ Claims.compareFun i = some (d, x, y, f) ∧ a.team.claimsAll [x, y] = true ∧ Claims.Takes a [x, y] qs [x', y']) ∧
    (∃ (s : State) (a : At) (d x y y' : Opnd) (qs : Map Stream), s.at? = some a ∧ a.team.claimsAll [d, y] = true ∧
    Claims.Takes a [y] qs [y']) ∧
    (∃ (s : State) (a : At) (i : Instr) (d x y : Opnd) (f : Bool → Bool → Bool), s.at? = some a ∧ Claims.predicateFun
    i = some (d, x, y, f)) ∧
    (∃ (tm : Team) (r r' l : Nat) (ls : List Nat) (g : Nat → W32), ((∀ j ∈ ls, j < 1024)) ∧ l < 1024) ∧
    (∃ (tm : Team) (r r' l : Nat) (ls : List Nat) (g : Nat → Bool), ((∀ j ∈ ls, j < 1024)) ∧ l < 1024) :=
  ⟨⟨wS wCx wCo wTm wSp, wA wCo wTm wSp, .vadd (.v 99) (.v 1) (.k 16), _, _, _, _, _, _, _, rfl, rfl,
    by decide +kernel, rfl⟩,
    ⟨wS wCx wCo wTm wSp, wA wCo wTm wSp, .vcmpEq (.p 7) (.v 1) (.k 16), _, _, _, _, _, _, _, rfl, rfl,
    by decide +kernel, rfl⟩,
    ⟨wS wCx wCo wTm wSp, wA wCo wTm wSp, .v 1, .p 1, .v 99, _, _, rfl, by decide +kernel, rfl⟩,
    ⟨wS wCx wCo wTm wSp, wA wCo wTm wSp, .pand (.p 7) (.p 1) (.p 0), _, _, _, _, rfl, rfl⟩,
    ⟨wTm, 99, 98, 1023, [0, 1023], fun _ => 1, by decide +kernel⟩,
    ⟨wTm, 7, 0, 1023, [0, 1023], fun _ => true, by decide +kernel⟩⟩

theorem meets_FloatResults :
    (∃ (s : State) (a : At) (i : Instr) (pk : Option Fmt) (d x y : Opnd) (f : W32 → W32 → W32 → W32), s.at? = some a
    ∧ Claims.floatFun i = some (pk, d, x, y, f) ∧ a.team.claimsAll [d, x, y] = true) ∧
    (∃ (s : State) (a : At) (i : Instr) (d x y : Opnd) (f : W32 → W32 → Bool), s.at? = some a ∧
    Claims.floatCompareFun i = some (d, x, y, f) ∧ a.team.claimsAll [x, y] = true) ∧
    (∃ (s : State) (a : At) (i : Instr) (d x : Opnd) (f : W32 → W32 → W32) (inv : W32 → Bool), s.at? = some a ∧
    Claims.convertFun i = some (d, x, f, inv) ∧ a.team.claimsAll [d, x] = true) :=
  ⟨⟨wS wCx wCo wTm wSp, wA wCo wTm wSp, .fadd (.v 99) (.v 1) (.k 16), _, _, _, _, _, rfl, rfl, by decide +kernel⟩,
    ⟨wS wCx wCo wTm wSp, wA wCo wTm wSp, .fcmpEq (.p 7) (.v 1) (.v 99), _, _, _, _, rfl, rfl, by decide +kernel⟩,
    ⟨wS wCx wCo wTm wSp, wA wCo wTm wSp, .fcvt (.v 99) (.v 1) 4, _, _, _, _, rfl, rfl, by decide +kernel⟩⟩

theorem meets_IntegerSteps :
    (∃ (s : State) (a : At) (d x y : Opnd), s.at? = some a ∧ a.team.claimsAll [d, x, y] = true) ∧
    (∃ (s : State) (a : At) (d x y : Opnd), s.at? = some a ∧ a.team.claimsAll [d, x, y] = true) ∧
    (∃ (fmt : W64) (b : Nat) (old : W32) (xs ys : List FVal) (xi yi : List Nat), fmt.getLsbD 11 = true ∧ b = fmtBits
    (fmt.toNat % 16) ∧ xi.length = yi.length) ∧
    (∃ (f : Fmt) (c : Nat), f ∈ [Fmt.f32, Fmt.f16, Fmt.bf16] ∧ c < 2 ^ (1 + f.eb + f.mb)) ∧
    (∃ (f : Fmt) (r : Rnd) (neg : Bool) (m : Nat) (e : Int), f ∈ [Fmt.f32, Fmt.f16, Fmt.bf16]) ∧
    (∃ (f : Narrow) (neg : Bool) (m : Nat) (e : Int), f ∈ [Narrow.e4m3n, Narrow.e5m2n, Narrow.e2m1n]) ∧
    (∃ (f : Narrow) (c : Nat), f ∈ [Narrow.e4m3n, Narrow.e5m2n, Narrow.e2m1n] ∧ c < 2 ^ (1 + f.eb + f.mb)) ∧
    (∃ (r : Rnd) (bits : Nat) (neg : Bool) (m : Nat) (e : Int), bits ∈ [4, 8, 32]) ∧
    (∃ c : Nat, c < 256) ∧
    (∃ c : Nat, c < 2 ^ 16) ∧
    (∃ (mode : BitVec 8) (a : W32) (r : Rnd) (fmt : Nat), (r = (if mode.extractLsb' 5 2 = 0 then .rne else if
    mode.extractLsb' 5 2 = 1 then .rtz else if mode.extractLsb' 5 2 = 2 then .rdn else .rup)) ∧ fmt =
    (mode.extractLsb' 0 3).toNat ∧ mode.msb = false) ∧
    (∃ (a : W32) (v : Rat), v = Claims.codeValue 8 23 a.toNat ∧ Claims.finiteCode 8 23 a.toNat) ∧
    (∃ a : W32, a.extractLsb' 23 8 = 0xFF ∧ a.extractLsb' 0 23 ≠ 0) :=
  ⟨⟨wS wCx wCo wTm wSp, wA wCo wTm wSp, .v 99, .k 15, .k 31, rfl, by decide +kernel⟩,
    ⟨wS wCx wCo wTm wSp, wA wCo wTm wSp, .v 99, .v 0, .s 49, rfl, by decide +kernel⟩,
    ⟨0x806, 4, 0, [], [], [1, 15], [15, 1], by decide +kernel⟩,
    ⟨.f32, 0x7F7FFFFF, by decide +kernel⟩,
    ⟨.f16, .rup, true, 65519, 0, by decide +kernel⟩,
    ⟨.e2m1n, true, 7, 0, by decide +kernel⟩,
    ⟨.e4m3n, 255, by decide +kernel⟩,
    ⟨.rdn, 4, true, 17, -1, by decide +kernel⟩,
    ⟨255, by decide +kernel⟩,
    ⟨65535, by decide +kernel⟩,
    ⟨0x64, 0x7FC00000, .rup, 4, rfl, rfl, by decide +kernel⟩,
    ⟨0x00000001, _, rfl, ⟨by decide, by decide⟩⟩,
    ⟨0xFFFFFFFF, by decide +kernel⟩⟩

theorem meets_FloatMinMax :
    ∃ (s : State) (a : At) (d x y : Opnd) (nan : W32 → Prop) (key : W32 → Int), s.at? = some a ∧ a.team.claimsAll [d,
    x, y] = true ∧ ((∀ u, nan u ↔ u.extractLsb' 23 8 = 0xFF ∧ u.extractLsb' 0 23 ≠ 0)) ∧ ((∀ u, key u = if u.msb then
    -1 - ((u.extractLsb' 0 31).toNat : Int) else ((u.extractLsb' 0 31).toNat : Int))) :=
  ⟨wS wCx wCo wTm wSp, wA wCo wTm wSp, .v 99, .v 0, .v 1, fun u => u.extractLsb' 23 8 = 0xFF ∧ u.extractLsb' 0 23 ≠
  0, fun u => if u.msb then -1 - ((u.extractLsb' 0 31).toNat : Int) else ((u.extractLsb' 0 31).toNat : Int), rfl,
  by decide +kernel, (fun _ => Iff.rfl), (fun _ => rfl)⟩

theorem meets_ControlFlow :
    (∃ (s : State) (a : At) (i : Instr) (os : List Opnd) (r : Option W64), s.at? = some a ∧ Claims.branch a i = some
    (os, r) ∧ a.team.claimsAll os = true) ∧
    (∃ (s : State) (a : At) (d : Opnd) (imm : BitVec 16) (join : BitVec 32), s.at? = some a ∧ Claims.setLanes a d ≠ 0
    ∧ Claims.setLanes a d ≠ a.split.exec ∧ a.team.splits.length ≤ 14) ∧
    (∃ (s : State) (a : At) (n : BitVec 8) (x y : Opnd) (join : BitVec 32) (c : Nat) (ctx : Ctx) (kn : Kern) (g :
    Mask × W64) (gs : List (Mask × W64)), s.at? = some a ∧ a.team.claimsAll [x, y] = true ∧ a.split.exec ≠ 0 ∧ ((∀ l
    ∈ lanesOf a.split.exec a.team.lanes, (a.v x l).toNat < n.toNat)) ∧ s.ctxOf a.k = some (c, ctx) ∧ ctx.kernOf
    a.team = some kn ∧ kn.holdsTable (a.u y).toNat n.toNat = true ∧ (s.jtabGroups a.k kn.codeVa (a.u y).toNat
    ((lanesOf a.split.exec a.team.lanes).map fun l => (l, (a.v x l).toNat)) n.toNat = some (g :: gs))) ∧
    (∃ (s : State) (a : At) (n : BitVec 8) (x y : Opnd) (join : BitVec 32), s.at? = some a ∧ a.team.claimsAll [x, y]
    = true ∧ a.split.exec = 0) ∧
    (∃ (s b f : State) (u : Issue) (c : Core) (tm : Team) (sp : Split) (trapsWith : Nat → Nat → Prop), Claims.Front s
    b u c tm sp ∧ sp.clause = none ∧ f = b.fetchFill u.core sp.pc.toNat ∧ ((∀ code info, trapsWith code info ↔ step s
    = .next (f.trap u.core u.team u.split { code := code, info := info } sp.pc sp.pc sp.pc 0 0).dropIssue))) ∧
    (∃ (s b : State) (u : Issue) (c : Core) (tm : Team) (sp : Split) (cl : Clause) (pc : W64) (ws : List W32) (eng :
    Eng) (trapsWith : Nat → Prop), Claims.Front s b u c tm sp ∧ sp.clause = some cl ∧ pc = cl.h + BitVec.ofNat 64 (4
    * cl.pos) ∧ c.breakAt tm sp pc = false ∧ (headerOf cl.hdr).eng = some eng ∧ ws = s.fetchRun u.core pc.toNat (min
    maxWords (cntOf cl.hdr + 1 - cl.pos)) ∧ ((∀ code, trapsWith code ↔ step s = .next (b.trap u.core u.team u.split
    { code := code } pc pc cl.h cl.hdr cl.pos).dropIssue))) ∧
    (∃ (s : State) (a : At) (n : BitVec 8) (x y : Opnd) (join : BitVec 32) (idx : List (Nat × Nat)) (trapsWith : Trap
    → Prop), s.at? = some a ∧ a.team.claimsAll [x, y] = true ∧ a.split.exec ≠ 0 ∧ (idx = (lanesOf a.split.exec
    a.team.lanes).map (fun l => (l, (a.v x l).toNat))) ∧ ((∀ tr, trapsWith tr ↔ exec (.jtab n x y join) s = .next
    (Claims.trapped a s tr)))) ∧
    (∃ (s : State) (a : At) (d : Opnd) (imm : BitVec 16) (join : BitVec 32), s.at? = some a ∧ Claims.setLanes a d ≠ 0
    ∧ Claims.setLanes a d ≠ a.split.exec ∧ Claims.FewFree a.team 2) ∧
    (∃ (s : State) (a : At) (d x : Opnd), s.at? = some a ∧ a.team.claimsAll [d, x] = true) ∧
    (∃ (s : State) (a : At) (x : Opnd), s.at? = some a) ∧
    (∃ (s : State) (a : At) (x y : Opnd), s.at? = some a ∧ a.team.claimsAll [x, y] = true) :=
  ⟨⟨wS wCx wCo wTm wSp, wA wCo wTm wSp, .br (-1), _, _, rfl, rfl, by decide +kernel⟩,
    ⟨wS wCx wCo { wTm with p := [(1, maskAll 8)] } wSp, wA wCo { wTm with p := [(1, maskAll 8)] } wSp, .p 1, 4, 8,
    rfl, by decide +kernel⟩,
    ⟨{ wS wCx wCo wTm wSp with mem := Memory.setBytes wMem 0x40000004 (toBytes 4 9) }, wA wCo wTm wSp, 1, .k 15, .lit
    0x40000004, 8, 0, _, _, _, _, rfl, by decide +kernel, by decide +kernel, by decide +kernel, rfl, rfl,
    by decide +kernel, rfl⟩,
    ⟨wS wCx wCo wTm { wSp with exec := 0 }, wA wCo wTm { wSp with exec := 0 }, 1, .k 15, .lit 4, 8, rfl,
    by decide +kernel⟩,
    ⟨{ wS wCx wCo wTm ({ wSp with clause := none, pc := 0x80000000 }) with cur := none, issueQ := [⟨0, 0, 0, false,
                                                                            64, 0⟩] }, _, _, ⟨0, 0, 0, false, 64, 0⟩,
    _, _, _, fun _ _ => _, ⟨⟨[], Or.inr ⟨rfl, rfl⟩, rfl⟩, rfl, rfl, rfl, rfl, rfl, by decide +kernel,
    by decide +kernel, rfl, by decide +kernel⟩, by decide +kernel, rfl, (fun _ _ => Iff.rfl)⟩,
    ⟨{ wS wCx wCo wTm ({ wSp with clause := some ⟨0x80000000, 0x32006C5A, maskAll 16, 1⟩ }) with cur := none, issueQ := [⟨0, 0, 0, false, 64, 0⟩] },
    _, ⟨0, 0, 0, false, 64, 0⟩, _, _, _, ⟨0x80000000, 0x32006C5A, maskAll 16, 1⟩, _, _, .uni, fun _ => _, ⟨⟨[],
    Or.inr ⟨rfl, rfl⟩, rfl⟩, rfl, rfl, rfl, rfl, rfl, by decide +kernel, by decide +kernel, rfl, by decide +kernel⟩,
    rfl, rfl, by decide +kernel, by decide +kernel, rfl, (fun _ => Iff.rfl)⟩,
    ⟨wS wCx wCo wTm wSp, wA wCo wTm wSp, 255, .v 1, .lit 0x80000000, 8, _, fun _ => _, rfl, by decide +kernel,
    by decide +kernel, rfl, (fun _ => Iff.rfl)⟩,
    ⟨wS wCx wCo { wTm with p := [(1, maskAll 8)], splits := (List.range 14).map fun i => (i + 1,
                            { wSp with state := .ready }) } wSp, wA wCo
    { wTm with p := [(1, maskAll 8)], splits := (List.range 14).map fun i => (i + 1, { wSp with state := .ready }) }
    wSp, .p 1, 4, 8, rfl, by decide +kernel, by decide +kernel, wFew⟩,
    ⟨wS wCx wCo wTm wSp, wA wCo wTm wSp, .s 49, .lit 32, rfl, by decide +kernel⟩,
    ⟨wS wCx wCo wTm wSp, wA wCo wTm wSp, .p 0, rfl⟩,
    ⟨wS wCx wCo wTm wSp, wA wCo wTm wSp, .k 0, .k 16, rfl, by decide +kernel⟩⟩

theorem meets_EndsAndCalls :
    (∃ (s : State) (a : At), s.at? = some a ∧ a.split.live &&& ~~~a.run ≠ 0) ∧
    (∃ (s : State) (a : At) (i : Instr), s.at? = some a ∧ (i = .halt ∨ (i = .kill ∧ a.split.live &&& ~~~a.run = 0)) ∧
    a.split.parent = a.p ∧ Claims.Plain a) ∧
    (∃ (s : State) (a : At) (i : Instr) (par : Split), s.at? = some a ∧ (i = .halt ∨ (i = .kill ∧ a.split.live &&&
    ~~~a.run = 0)) ∧ a.split.parent ≠ a.p ∧ a.team.splits.get a.split.parent = some par ∧ 2 ≤ par.children) ∧
    (∃ (s : State) (a : At) (i : Instr) (k : Mask) (par : Split), s.at? = some a ∧ Claims.EndsWith a i k ∧
    a.split.parent ≠ a.p ∧ a.team.splits.get a.split.parent = some par ∧ par.children ≤ 1) ∧
    (∃ (s : State) (u : Issue) (us : List Issue) (c : Core) (tm : Team) (sp par : Split), s.issueQ = u :: us ∧
    u.single = false ∧ s.core? u.core = some c ∧ s.team? u.core u.team = some tm ∧ s.split? u.core u.team u.split =
    some sp ∧ tm.mayIssue u.split = true ∧ c.teamStalled u.team = false ∧ sp.state = .ready ∧ s.coreIssues u.core =
    true ∧ sp.parent ≠ u.split ∧ sp.clause = none ∧ sp.pc = sp.join ∧ tm.splits.get sp.parent = some par ∧ ((2 ≤
    par.children ∨ par.live ≠ 0))) ∧
    (∃ (s : State) (a : At) (i : Instr) (pc : W64) (c : Nat) (ctx : Ctx) (kn : Kern), s.at? = some a ∧ ((∃ off, i =
    .call off ∧ pc = Claims.headerAt a off.toInt) ∨ (∃ x, i = .callS x ∧ a.team.claims x = true ∧ pc = a.u x)) ∧
    s.ctxOf a.k = some (c, ctx) ∧ ctx.kernOf a.team = some kn ∧ a.split.depth + 1 ≤ a.team.maxRows ∧ Claims.RowReady
    a s (a.split.depth + 1)) ∧
    (∃ (s : State) (a : At) (c l : Nat) (ls : List Nat) (ctx : Ctx) (kn : Kern), s.at? = some a ∧ s.ctxOf a.k = some
    (c, ctx) ∧ ctx.kernOf a.team = some kn ∧ 0 < a.split.depth ∧ s.popLost a.team a.split.depth = false ∧ lanesOf
    a.split.live a.team.lanes = l :: ls ∧ Claims.RowReady a s a.split.depth) :=
  ⟨⟨wS wCx wCo wTm { wSp with exec := maskAll 8 }, wA wCo wTm { wSp with exec := maskAll 8 }, rfl,
    by decide +kernel⟩,
    ⟨wS wCx wCo wTm wSp, wA wCo wTm wSp, .kill, rfl, Or.inr ⟨rfl, by decide⟩, by decide +kernel, ⟨rfl, rfl, rfl,
    by intro e h; cases h⟩⟩,
    ⟨wS wCx wCo { wTm with splits := [(1, { wSp with state := .parent, children := 2 })] } { wSp with parent := 1 },
    wA wCo { wTm with splits := [(1, { wSp with state := .parent, children := 2 })] } { wSp with parent := 1 },
    .halt, _, rfl, Or.inl rfl, by decide +kernel, rfl, by decide +kernel⟩,
    ⟨wS wCx wCo { wTm with splits := [(1, { wSp with state := .parent, children := 1 })] } { wSp with parent := 1 },
    wA wCo { wTm with splits := [(1, { wSp with state := .parent, children := 1 })] } { wSp with parent := 1 },
    .halt, _, _, rfl, Or.inl ⟨rfl, rfl⟩, by decide +kernel, rfl, by decide +kernel⟩,
    ⟨{ wS wCx wCo ({ wTm with splits := [(1, { wSp with state := .parent, children := 2 })] })
    ({ wSp with parent := 1, clause := none, pc := 0x40000010, join := 0x40000010 }) with cur := none, issueQ := [⟨0, 0, 0, false, 64, 0⟩] },
    ⟨0, 0, 0, false, 64, 0⟩, [], _, _, _, _, rfl, by decide +kernel, rfl, rfl, rfl,
    by refine ⟨?_, ?_, ?_, ?_, ?_, ?_, by decide +kernel, rfl, Or.inl (by decide)⟩ <;> decide +kernel⟩,
    ⟨{ wS wCx wCo wTm { wSp with depth := 8191 } with calGot := wGot [rowId 0 0 0] }, wA wCo wTm
    { wSp with depth := 8191 }, .call 5, _, 0, _, _, rfl, Or.inl ⟨5, rfl, rfl⟩, rfl, rfl, by decide +kernel,
    by unfold Claims.RowReady; decide +kernel⟩,
    ⟨wS wCx wCo wTm { wSp with depth := 1 }, wA wCo wTm { wSp with depth := 1 }, 0, _, _, _, _, rfl, rfl, rfl,
    by decide +kernel, by decide +kernel, rfl, by unfold Claims.RowReady; decide +kernel⟩⟩

theorem meets_TeamForms :
    (∃ (s : State) (a : At) (imm : BitVec 16) (c : Nat) (ctx : Ctx), s.at? = some a ∧ s.ctxOf a.k = some (c, ctx) ∧
    a.team.resp = none ∧ a.team.vcount + imm.toNat ≤ 128 ∧ a.core.regBytes + a.team.lanes * imm.toNat * 4 ≤ regFile
    ctx.pool ∧ s.admission a.k a.t (s.holdIncrease a.k (a.team.lanes * imm.toNat * 4)) = .pass) ∧
    (∃ (s : State) (a : At) (imm : BitVec 16) (c : Nat) (ctx : Ctx), s.at? = some a ∧ s.ctxOf a.k = some (c, ctx) ∧
    a.team.resp = none ∧ a.team.scount + imm.toNat ≤ 64 ∧ s.admission a.k a.t (s.holdIncrease a.k (8 * imm.toNat)) =
    .pass) ∧
    (∃ (s : State) (a : At) (d : Opnd) (imm : BitVec 16) (c : Nat) (ctx : Ctx), s.at? = some a ∧ s.ctxOf a.k = some
    (c, ctx) ∧ a.team.resp = none ∧ a.team.claimsAll [d] = true ∧ 1 ≤ imm.toNat ∧ imm.toNat ≤ a.core.freeTiles.length
    ∧ s.admission a.k a.t (s.holdIncrease a.k (16384 * imm.toNat)) = .pass) ∧
    (∃ (s : State) (a : At) (imm : BitVec 16), s.at? = some a ∧ a.team.resp = none ∧ imm.toNat ≤ a.team.vcount) ∧
    (∃ (s : State) (a : At) (imm : BitVec 16), s.at? = some a ∧ a.team.resp = none ∧ imm.toNat ≤ a.team.scount) ∧
    (∃ (s : State) (a : At) (imm : BitVec 16), s.at? = some a ∧ a.team.resp = none ∧ imm.toNat ≤ (a.core.heldTiles
    a.t).length ∧ ((∀ m ∈ a.core.mats, m.2.tile ∉ (a.core.heldTiles a.t).take imm.toNat))) ∧
    (∃ (s : State) (a : At) (n : BitVec 8) (x y : Opnd), s.at? = some a ∧ a.team.claimsAll [x, y] = true ∧ (a.u
    x).toNat % 8 = 0) ∧
    (∃ (s : State) (a : At) (imm : BitVec 16) (entry : BitVec 32) (c : Nat) (ctx : Ctx) (kn : Kern), s.at? = some a ∧
    s.ctxOf a.k = some (c, ctx) ∧ ctx.kernOf a.team = some kn ∧ Claims.Plain a ∧ imm.toNat ≤ kn.maxcarry ∧ imm.toNat
    ≤ a.team.vcount ∧ a.team.splits.length = 1) ∧
    (∃ (s : State) (a : At) (x y : Opnd), s.at? = some a ∧ a.team.claimsAll [x, y] = true ∧ a.barCheck (a.u x).toNat
    = none) ∧
    (∃ (s : State) (a : At) (x y : Opnd), s.at? = some a ∧ a.team.claimsAll [x, y] = true ∧ ((a.u y).getLsbD 1 = true
    ∨ a.barCheck (a.u x).toNat = none)) :=
  ⟨⟨wS wCx wCo wTm wSp, wA wCo wTm wSp, 28, 0, _, rfl, rfl, by decide +kernel⟩,
    ⟨wS wCx wCo wTm wSp, wA wCo wTm wSp, 14, 0, _, rfl, rfl, by decide +kernel⟩,
    ⟨wS wCx { wCo with tiles := [(0, wTile), (1, wTile), (2, wTile)] } wTm wSp, wA
    { wCo with tiles := [(0, wTile), (1, wTile), (2, wTile)] } wTm wSp, .s 49, 29, 0, _, rfl, rfl, by decide +kernel⟩,
    ⟨wS wCx wCo wTm wSp, wA wCo wTm wSp, 100, rfl, by decide +kernel⟩,
    ⟨wS wCx wCo wTm wSp, wA wCo wTm wSp, 50, rfl, by decide +kernel⟩,
    ⟨wS wCx { wCo with tiles := [(0, wTile)] } wTm wSp, wA { wCo with tiles := [(0, wTile)] } wTm wSp, 1, rfl,
    by decide +kernel⟩,
    ⟨wS wCx wCo wTm wSp, wA wCo wTm wSp, 7, .k 15, .k 30, rfl, by decide +kernel⟩,
    ⟨wS wCx wCo wTm wSp, wA wCo wTm wSp, 8, 0, 0, _, _, rfl, rfl, rfl, ⟨rfl, rfl, rfl, by intro e h; cases h⟩,
    by decide +kernel⟩,
    ⟨wS wCx wCo wTm wSp, wA wCo wTm wSp, .lit 8176, .k 16, rfl, by decide +kernel⟩,
    ⟨wS wCx wCo wTm wSp, wA wCo wTm wSp, .lit 8176, .k 17, rfl, by decide +kernel, Or.inr rfl⟩⟩

theorem meets_TrapAndReturn :
    (∃ (s : State) (a : At) (imm : BitVec 16), s.at? = some a ∧ a.team.att = false ∧ a.team.state = .active ∧
    a.team.tvec ≠ 0) ∧
    (∃ (s : State) (a : At) (imm : BitVec 16), s.at? = some a ∧ a.team.att = false ∧ (a.team.state ≠ .active ∨
    a.team.tvec = 0)) ∧
    (∃ (s : State) (a : At) (q : Nat) (f : Frame), s.at? = some a ∧ a.team.state = .handler q ∧ a.split.frame = some
    f) ∧
    (∃ (s : State) (a : At), s.at? = some a ∧ a.team.att = false ∧ a.team.state = .active ∧ a.team.tvec ≠ 0) ∧
    (∃ (s : State) (a : At) (imm : BitVec 16), s.at? = some a ∧ a.team.att = true) :=
  ⟨⟨wS wCx wCo { wTm with tvec := 0x40000000 } wSp, wA wCo { wTm with tvec := 0x40000000 } wSp, 0xFFFF, rfl,
    by decide +kernel⟩,
    ⟨wS wCx wCo wTm wSp, wA wCo wTm wSp, 0xFFFF, rfl, by decide +kernel⟩,
    ⟨wS wCx wCo { wTm with state := .handler 0 }
    { wSp with frame := some ⟨maskAll 16, maskAll 16, 0x40000000, 0, 3, none⟩ }, wA wCo
    { wTm with state := .handler 0 } { wSp with frame := some ⟨maskAll 16, maskAll 16, 0x40000000, 0, 3, none⟩ }, 0,
    _, rfl, by decide +kernel, rfl⟩,
    ⟨wS wCx wCo { wTm with tvec := 0x40000000 } wSp, wA wCo { wTm with tvec := 0x40000000 } wSp, rfl,
    by decide +kernel⟩,
    ⟨wS wCx wCo { wTm with att := true } wSp, wA wCo { wTm with att := true } wSp, 0xFFFF, rfl, by decide +kernel⟩⟩

theorem meets_KernelCallsAndBreaks :
    (∃ (s : State) (a : At) (d : Opnd) (imm : BitVec 16) (c : Nat) (ctx : Ctx), s.at? = some a ∧ s.ctxOf a.k = some
    (c, ctx) ∧ a.team.claimsRun 4 d = true ∧ a.split.prepaid = none ∧ s.admission a.k a.t (ctx.tfCall.extractLsb' 16
    16).toNat = .pass) ∧
    (∃ (s : State) (a : At) (imm : BitVec 16), s.at? = some a) ∧
    (∃ (s : State) (k t p d service item c : Nat) (known : Bool) (r0 r1 r2 r3 : BitVec 64) (vs : List W64) (co :
    Core) (tm : Team) (sp : Split) (cl : Clause) (x : Ctx) (kn : Kern), s.core? k = some co ∧ co.teams.get t = some
    tm ∧ tm.splits.get p = some sp ∧ s.ctxOf k = some (c, x) ∧ x.kernOf tm = some kn ∧ s.rk = .up ∧ sp.state =
    .waiting ∧ sp.wait = .sys d service item ∧ sp.clause = some cl ∧ (vs = (if service = 1 then [0, BitVec.ofNat 64
    kn.codeVa, (if kn.constbytes = 0 then 0 else BitVec.ofNat 64 kn.constVa), (if kn.databytes = 0 then 0 else
    BitVec.ofNat 64 kn.dataVa)] else if known then [r0, r1, r2, r3] else [0xFFFFFFFFFFFFFFFF]))) ∧
    (∃ (s : State) (k t c : Nat) (co : Core) (tm : Team) (x : Ctx) (f : FaultInfo), s.core? k = some co ∧
    co.teams.get t = some tm ∧ s.ctxOf k = some (c, x) ∧ tm.state = .held ∧ s.rk = .up ∧ tm.fault = some f) ∧
    (∃ (s : State) (k t c : Nat) (co : Core) (tm : Team) (x : Ctx) (kn : Kern) (f : FaultInfo), s.core? k = some co ∧
    co.teams.get t = some tm ∧ s.ctxOf k = some (c, x) ∧ x.kernOf tm = some kn ∧ s.rk = .up ∧ tm.state = .held ∧
    tm.fault = some f ∧ tm.source = none ∧ tm.resp = none) :=
  ⟨⟨wS wCx wCo wTm wSp, wA wCo wTm wSp, .s 46, 2, 0, _, rfl, rfl, by decide +kernel⟩,
    ⟨wS wCx wCo wTm wSp, wA wCo wTm wSp, 2, rfl⟩,
    ⟨wS wCx wCo wTm { wSp with state := .waiting, wait := .sys 46 1 0 }, 0, 0, 0, 46, 1, 0, 0, true, 0, 0, 0, 0, _,
    _, _, _, _, _, _, rfl, rfl, rfl, rfl, rfl, by decide +kernel, rfl, rfl, rfl, rfl⟩,
    ⟨wS wCx wCo { wTm with state := .held, fault := some ⟨0x0004, 0, 0x40000004, 0, 0, 0⟩ } wSp, 0, 0, 0, _, _, _, _,
    rfl, rfl, rfl, by decide +kernel, by decide +kernel, rfl⟩,
    ⟨wS wCx wCo { wTm with state := .held, fault := some ⟨0x0004, 0, 0x40000004, 0, 0, 0⟩ } wSp, 0, 0, 0, _, _, _, _,
    _, rfl, rfl, rfl, rfl, by decide +kernel, rfl, rfl, rfl, rfl⟩⟩

theorem meets_YieldAndNop :
    (∃ (s : State) (a : At), s.at? = some a) ∧
    (∃ (s : State) (a : At), s.at? = some a) :=
  ⟨⟨wS wCx wCo wTm wSp, wA wCo wTm wSp, rfl⟩,
    ⟨wS wCx wCo wTm wSp, wA wCo wTm wSp, rfl⟩⟩

theorem meets_LocalAccess :
    (∃ (s : State) (a : At) (i : Instr) (die : Bool) (size n : Nat) (sg : Bool) (d x y x' y' : Opnd) (qs : Map
    Stream), s.at? = some a ∧ Claims.loadForm i = some (die, size, n, sg, d, x, y) ∧ a.team.claimsRun n d = true ∧
    a.team.claimsAll [x, y] = true ∧ Claims.Takes a [x, y] qs [x', y'] ∧ ((die = false → Claims.SharedOk a .load size
    (a.addrs x' y' size))) ∧ ((die = true → Claims.DieOk a s size (a.addrs x' y' size)))) ∧
    (∃ (s : State) (a : At) (i : Instr) (die : Bool) (size : Nat) (d x y d' x' y' : Opnd) (qs : Map Stream), s.at? =
    some a ∧ Claims.storeForm i = some (die, size, d, x, y) ∧ a.team.storeClaim size d = true ∧ a.team.claimsAll [x,
    y] = true ∧ Claims.Takes a [x, y, d] qs [x', y', d'] ∧ ((die = false → Claims.SharedOk a .store size (a.addrs x'
    y' size))) ∧ ((die = true → Claims.DieOk a s size (a.addrs x' y' size)))) ∧
    (∃ (s : State) (k m : Nat) (sg : Bool) (w : Writeback) (e : LocAcc) (old : Nat), w.op = .load m sg ∧ old =
    ofBytes (s.readAt (s.locPlace k e) m)) ∧
    (∃ (s : State) (k m : Nat) (w : Writeback) (e : LocAcc), w.op = .store m) ∧
    (∃ (s : State) (k a : Nat) (co : Core) (bs : List Byte), s.core? k = some co) ∧
    (∃ (s : State) (a : At) (d : Opnd), s.at? = some a ∧ a.team.claims d = true ∧ a.split.depth + 1 ≤ a.team.maxRows
    ∧ Claims.RowReady a s (a.split.depth + 1)) ∧
    (∃ (s : State) (a : At) (d : Opnd), s.at? = some a ∧ a.team.claims d = true ∧ 0 < a.split.depth ∧ s.popLost
    a.team a.split.depth = false ∧ Claims.RowReady a s a.split.depth) :=
  ⟨⟨wS wCx wCo wTm wSp, wA wCo wTm wSp, .ldW (.v 99) (.k 15) (.k 19), _, _, _, _, _, _, _, _, _, _, rfl, rfl,
    by decide +kernel, by decide +kernel, rfl, (fun _ => by unfold Claims.SharedOk; decide), (fun h => by cases h)⟩,
    ⟨wS wCx wCo wTm wSp, wA wCo wTm wSp, .stW (.v 99) (.k 15) (.k 19), _, _, _, _, _, _, _, _, _, rfl, rfl,
    by decide +kernel, by decide +kernel, rfl, (fun _ => by unfold Claims.SharedOk; decide), (fun h => by cases h)⟩,
    ⟨wS wCx wCo wTm wSp, 0, 4, true, { wWb with op := .load 4 true }, ⟨1023, false, 8188, 0, 0⟩, _, rfl, rfl⟩,
    ⟨wS wCx wCo wTm wSp, 0, 4, { wWb with op := .store 4 }, ⟨1023, true, 4092, 0xFFFFFFFF, 0⟩, rfl⟩,
    ⟨wS wCx wCo wTm wSp, 0, 16, _, [1], rfl⟩,
    ⟨{ wS wCx wCo wTm { wSp with depth := 8191 } with calGot := wGot [rowId 0 0 0] }, wA wCo wTm
    { wSp with depth := 8191 }, .v 99, rfl, by decide +kernel, by decide +kernel,
    by unfold Claims.RowReady; decide +kernel⟩,
    ⟨wS wCx wCo wTm { wSp with depth := 1 }, wA wCo wTm { wSp with depth := 1 }, .v 99, rfl, by decide +kernel,
    by decide +kernel, by decide +kernel, by unfold Claims.RowReady; decide +kernel⟩⟩

theorem meets_LocalAtomics :
    (∃ (s : State) (a : At) (i : Instr) (n : Nat) (f : W32 → W32 → W32 → W32) (d x y x' y' : Opnd) (qs : Map Stream),
    s.at? = some a ∧ Claims.atomForm i = some (n, f, d, x, y) ∧ a.team.claimsRun n d = true ∧ a.team.claimsAll [x, y]
    = true ∧ Claims.Takes a [x, y] qs [x', y'] ∧ Claims.SharedOk a .atomic 4 (a.addrs x' y' 4)) ∧
    (∃ (s : State) (a : At) (i : Instr) (cas : Bool) (f : Nat → Nat → Nat → Nat → Nat) (d x y x' y' : Opnd) (par :
    AxPar) (size : Nat) (qs : Map Stream), s.at? = some a ∧ Claims.atomxForm i = some (cas, f, d, x, y, par) ∧ (size
    = (if par.wide then 8 else 4)) ∧ (a.team.claimsRun (if cas then 2 * (size / 4) else size / 4) d = true) ∧
    a.team.claimsAll [x, y] = true ∧ Claims.Takes a [x, y] qs [x', y'] ∧ Claims.DieOk a s size (a.addrs x' y' size)) ∧
    (∃ (s : State) (k op n : Nat) (w : Writeback) (e : LocAcc) (es : List LocAcc), w.op = .atom op n ∧ w.accs = e ::
    es ∧ ((∀ f ∈ es, e.lane < f.lane)) ∧ e.lane < 1024) :=
  ⟨⟨wS wCx wCo wTm wSp, wA wCo wTm wSp, .atomAdd (.v 99) (.k 15) (.lit 2047), _, _, _, _, _, _, _, _, rfl, rfl,
    by decide +kernel, by decide +kernel, rfl, by unfold Claims.SharedOk; decide +kernel⟩,
    ⟨wS wCx wCo wTm wSp, wA wCo wTm wSp, .atomxAdd (.v 98) (.k 15) (.lit 511) ⟨true, false, false, 0⟩, _, _, _, _, _,
    _, _, _, _, _, rfl, rfl, rfl, by decide +kernel, by decide +kernel, rfl, by unfold Claims.DieOk; decide +kernel⟩,
    ⟨wS wCx wCo wTm wSp, 0, 0, 4, { wWb with op := .atom 0 4, accs := [⟨0, false, 0, 0, 0⟩, ⟨1023, false, 0, 0, 0⟩]
                                              }, _, _, rfl, rfl, by decide +kernel⟩⟩

theorem meets_ExchangesAndReductions :
    (∃ (s : State) (a : At) (i : Instr) (src : Nat → Nat → Nat) (d x y y' : Opnd) (qs : Map Stream), s.at? = some a ∧
    Claims.exchangeForm i = some (src, d, x, y) ∧ a.team.claimsAll [d, x, y] = true ∧ Claims.Takes a [y] qs [y']) ∧
    (∃ (s : State) (a : At) (i : Instr) (v : W64) (d x : Opnd), s.at? = some a ∧ Claims.reduceForm a i = some (v, d,
    x) ∧ a.team.claimsAll [d, x] = true) ∧
    (∃ (s : State) (a : At) (d x y y' : Opnd) (qs : Map Stream), s.at? = some a ∧ a.team.claimsAll [d, y] = true ∧
    Claims.Takes a [y] qs [y']) ∧
    (∃ (s : State) (a : At) (d x : Opnd), s.at? = some a ∧ a.team.claimsAll [d, x] = true) ∧
    (∃ (op : W32 → W32 → W32) (n : Nat) (xs : List (Option W32)), ((∀ x y z, op (op x y) z = op x (op y z))) ∧
    xs.length ≤ 2 ^ n) :=
  ⟨⟨wS wCx wCo wTm wSp, wA wCo wTm wSp, .shflIdx (.v 99) (.v 1) (.k 30), _, _, _, _, _, _, rfl, rfl,
    by decide +kernel, rfl⟩,
    ⟨wS wCx wCo wTm wSp, wA wCo wTm wSp, .redMax (.s 49) (.v 99), _, _, _, rfl, rfl, by decide +kernel⟩,
    ⟨wS wCx wCo wTm wSp, wA wCo wTm wSp, .v 99, .p 7, .v 1, _, _, rfl, by decide +kernel, rfl⟩,
    ⟨wS wCx wCo wTm wSp, wA wCo wTm wSp, .s 49, .p 7, rfl, by decide +kernel⟩,
    ⟨(· + ·), 2, [none, some 1, none, some 2], (fun x y z => BitVec.add_assoc x y z), by decide +kernel⟩⟩

theorem meets_FencesAndBarriers :
    (∃ (s : State) (a : At) (scope : BitVec 3) (acq rel : Bool), s.at? = some a ∧ (acq = true ∨ rel = true)) ∧
    (∃ (s : State) (k t p : Nat) (c : Core) (tm : Team) (sp : Split) (x : Nat × Ctx) (w : Writeback) (h : Header),
    s.core? k = some c ∧ s.team? k t = some tm ∧ s.split? k t p = some sp ∧ s.ctxOf k = some x ∧ w ∈ sp.wbs ∧
    (w.fence = 2 ∨ (w.fence = 1 ∧ w.accs ≠ []))) ∧
    (∃ (s s1 : State) (a : At) (i : Instr) (x y x' y' : Opnd) (b : Bar) (qs : Map Stream) (c : Core) (tm : Team) (sp
    : Split), s.at? = some a ∧ a.team.claimsAll [x, y] = true ∧ Claims.Takes a [x, y] qs [x', y'] ∧ a.barCheck (a.u32
    x') = none ∧ (s1 = (if i = .barArrive x y then s.settleSplit a.k a.t a.p else s).settleNear a.k a.t a.p
    (a.region.1 + a.u32 x') 16) ∧ s1.core? a.k = some c ∧ s1.team? a.k a.t = some tm ∧ s1.split? a.k a.t a.p = some
    sp ∧ Claims.barForm (BitVec.ofNat 64 (a.u32 y')) (Bar.read c.shared (a.region.1 + a.u32 x')) i = some (x, y, b)) ∧
    (∃ (s s1 : State) (a : At) (d x x' : Opnd) (b : Bar) (qs : Map Stream) (c : Core) (tm : Team) (sp : Split), s.at?
    = some a ∧ a.team.claimsAll [d, x] = true ∧ Claims.Takes a [x] qs [x'] ∧ a.barCheck (a.u32 x') = none ∧ s1 =
    s.settleNear a.k a.t a.p (a.region.1 + a.u32 x') 16 ∧ s1.core? a.k = some c ∧ s1.team? a.k a.t = some tm ∧
    s1.split? a.k a.t a.p = some sp ∧ b = Bar.read c.shared (a.region.1 + a.u32 x')) ∧
    (∃ (m : Regs 8) (p : Nat) (b : Bar), b.pending < 2 ^ 32 ∧ b.expected < 2 ^ 32 ∧ b.reload < 2 ^ 30 ∧ -2 ^ 31 ≤
    b.bytes ∧ b.bytes < 2 ^ 31) ∧
    (∃ (m : Regs 8) (p j : Nat) (b : Bar), (j < p ∨ p + 16 ≤ j)) :=
  ⟨⟨wS wCx wCo wTm wSp, wA wCo wTm wSp, 5, true, true, rfl, Or.inl rfl⟩,
    ⟨wS wCx wCo wTm { wSp with wbs := [{ wWb with fence := 2 }] }, 0, 0, 0, _, _, _, _, { wWb with fence := 2 },
    headerOf 0xF0006C5A, rfl, rfl, rfl, rfl, List.mem_singleton.mpr rfl, Or.inl rfl⟩,
    ⟨wS wCx wCo wTm wSp, _, wA wCo wTm wSp, .barInit (.lit 8176) (.k 16), .lit 8176, .k 16, _, _, _, _, _, _, _, rfl,
    by decide +kernel, rfl, by decide +kernel, rfl, rfl, rfl, rfl, rfl⟩,
    ⟨wS wCx wCo wTm wSp, _, wA wCo wTm wSp, .s 49, .lit 8176, _, _, _, _, _, _, rfl, by decide +kernel, rfl,
    by decide +kernel, rfl, rfl, rfl, rfl, rfl⟩,
    ⟨[], 8176, ⟨true, true, 1073741823, -2147483648, 4294967295, 4294967295⟩, by decide +kernel⟩,
    ⟨[], 16, 15, ⟨true, true, 1, 0, 1, 1⟩, by decide +kernel⟩⟩

theorem meets_StreamForms :
    (∃ (s : State) (a : At) (d x y x' y' : Opnd) (qs : Map Stream) (w : Crew) (q : Stream), s.at? = some a ∧
    a.team.claimsAll [x, y] = true ∧ Claims.Takes a [x, y] qs [x', y'] ∧ a.core.crewOf a.team = some w ∧ bindStream
    (a.uLoc x') (a.uLoc y') w.size (w.bindings + 1) = some q) ∧
    (∃ (s : State) (a : At) (d x : Opnd) (q : Stream), s.at? = some a ∧ a.team.claims d = true ∧ a.streams.get (num
    x) = some q) ∧
    (∃ (s : State) (a : At) (d : Opnd) (q : Stream), s.at? = some a ∧ a.streams.get (num d) = some q ∧ q.freed ≠
    q.popped) ∧
    (∃ (s : State) (a : At) (d x x' : Opnd) (qs : Map Stream) (q : Stream) (j : Nat), s.at? = some a ∧
    a.team.claimsAll [x] = true ∧ Claims.Takes a [x] qs [x'] ∧ qs.get (num d) = some q ∧ q.openSlot (a.u32 x') = some
    j) :=
  ⟨⟨wS wCx wCo wTm wSp, wA wCo wTm wSp, .k 15, .lit 16, .lit 0x01F0000F, _, _, _, _, _, rfl, by decide +kernel, rfl,
    rfl, rfl⟩,
    ⟨wS wCx { wCo with crews := [(0, ⟨0, 0, 0, 8192, [(7, ⟨0, 2, 16, 1, 1, 1, 0, [], [], 1⟩)], 1, none, false⟩)] }
    wTm wSp, wA { wCo with crews := [(0, ⟨0, 0, 0, 8192, [(7, ⟨0, 2, 16, 1, 1, 1, 0, [], [], 1⟩)], 1, none, false⟩)]
                            } wTm wSp, .s 49, .q 7, _, rfl, by decide +kernel, rfl⟩,
    ⟨wS wCx { wCo with crews := [(0, ⟨0, 0, 0, 8192, [(7, ⟨0, 2, 16, 2, 1, 1, 0, [], [], 1⟩)], 1, none, false⟩)] }
    wTm wSp, wA { wCo with crews := [(0, ⟨0, 0, 0, 8192, [(7, ⟨0, 2, 16, 2, 1, 1, 0, [], [], 1⟩)], 1, none, false⟩)]
                            } wTm wSp, .q 7, _, rfl, rfl, by decide +kernel⟩,
    ⟨wS wCx { wCo with crews := [(0, ⟨0, 0, 0, 8192, [(7, ⟨0, 2, 16, 1, 0, 0, 0, [], [], 1⟩)], 1, none, false⟩)] }
    wTm wSp, wA { wCo with crews := [(0, ⟨0, 0, 0, 8192, [(7, ⟨0, 2, 16, 1, 0, 0, 0, [], [], 1⟩)], 1, none, false⟩)]
                            } wTm wSp, .q 7, .k 15, _, _, _, _, rfl, by decide +kernel, rfl, rfl, rfl⟩⟩

theorem meets_TransferForms :
    (∃ (s s1 : State) (a0 a : At) (i : Instr) (kind : AKind) (costed : Bool) (extra size off : Nat) (d x y d' x' :
    Opnd) (par : XPar) (qs : Map Stream) (pub : Option (Nat × Nat × Nat)) (c : Nat) (ctx : Ctx) (cost : Option Nat),
    s.at? = some a0 ∧ size = 2 ^ par.size.toNat ∧ off = a0.off32 d' ∧ (s1 = s.settleRanges a0.k a0.t a0.p
    a0.core.nextX ((List.range (extra + 1)).flatMap fun j => a0.lanes.map fun l => ⟨false, a0.region.1 + (off + (j *
    a0.team.lanes + l) * size), size⟩)) ∧ s1.at? = some a ∧ s1.ctxOf a.k = some (c, ctx) ∧ Claims.xferForm i = some
    (kind, costed, extra, d, x, y, par) ∧ a.team.claimsBar par.bar = true ∧ a.team.claimsAll [d, x, y] = true ∧
    Claims.Takes a [x, d] qs [x', d'] ∧ a.barCheck (a.barOff par.bar) = none ∧ off % size = 0 ∧ ((∀ l ∈ a.lanes, off
    + (extra * a.team.lanes + l) * size + size ≤ a.region.2 ∨ (kind = .scatter ∧ a.inStaging (off + l * size) size =
    true))) ∧ ((if kind = .gather then pubSlot qs par.po off = some pub else pub = none))) ∧
    (∃ (s s1 : State) (a0 a : At) (i : Instr) (store : Bool) (va len off : Nat) (d x y d' x' y' : Opnd) (par : XPar)
    (qs : Map Stream) (pub : Option (Nat × Nat × Nat)) (c : Nat) (ctx : Ctx) (cost : Option Nat), s.at? = some a0 ∧
    va = (a0.u x').toNat ∧ len = a0.off32 y' ∧ off = a0.off32 d' ∧ s1 = s.settleNear a0.k a0.t a0.p (a0.region.1 +
    off) len ∧ s1.at? = some a ∧ s1.ctxOf a.k = some (c, ctx) ∧ Claims.blkForm i = some (store, d, x, y, par) ∧
    a.team.claimsBar par.bar = true ∧ a.team.claimsAll [d, x, y] = true ∧ Claims.Takes a [x, y, d] qs [x', y', d'] ∧
    a.barCheck (a.barOff par.bar) = none ∧ len % 4 = 0 ∧ va % 4 = 0 ∧ off % 4 = 0 ∧ len ≤ 524288 ∧ (off + len ≤
    a.region.2 ∨ (store = true ∧ a.inStaging off len = true)) ∧ ((if store then pub = none else pubSlot qs par.po off
    = some pub))) ∧
    (∃ (va off len : Nat), len ≤ 524288) ∧
    (∃ (s : State) (a : At) (va size kind link pctx addr : Nat) (d x d' x' : Opnd) (par : XPar) (qs : Map Stream) (c
    : Nat) (ctx : Ctx), s.at? = some a ∧ s.ctxOf a.k = some (c, ctx) ∧ a.team.claimsBar par.bar = true ∧
    a.team.claimsAll [d, x] = true ∧ Claims.Takes a [x, d] qs [x', d'] ∧ a.barCheck (a.barOff par.bar) = none ∧ va =
    (a.u x').toNat ∧ size = 2 ^ par.size.toNat ∧ s.resolve a.k a.region va size .w (some true) = .at' (.port kind
    link pctx addr) ∧ kind ≤ 1 ∧ va % size = 0 ∧ a.core.packets < 512 ∧ Claims.Admits a s (some (ctx.drainCost
    size))) ∧
    (∃ (s : State) (a : At) (scope : BitVec 3) (acq rel : Bool), s.at? = some a) ∧
    (∃ (s : State) (a : At) (x x' : Opnd) (qs : Map Stream) (c pa : Nat) (ctx : Ctx), s.at? = some a ∧ s.ctxOf a.k =
    some (c, ctx) ∧ a.team.claims x = true ∧ Claims.Takes a [x] qs [x']) ∧
    (∃ (s : State) (a : At) (d x y x' y' : Opnd) (qs : Map Stream) (lo n va off c : Nat) (ctx : Ctx), s.at? = some a
    ∧ s.ctxOf a.k = some (c, ctx) ∧ a.split.prepaid = none ∧ a.team.claimsRun 2 d = true ∧ a.team.claimsAll [x, y] =
    true ∧ Claims.Takes a [x, y] qs [x', y'] ∧ num d ≤ 62 ∧ lo = (a.u x').toNat ∧ n = (a.u y').toNat ∧ va =
    (a.team.sreg (num d)).toNat ∧ off = (a.team.sreg (num d + 1)).toNat ∧ lo % 256 = 0 ∧ n % 256 = 0 ∧ 256 ≤ n ∧ n ≤
    2 ^ 30 ∧ lo < 2 ^ 39 ∧ lo % 2 ^ 33 + n ≤ 7 * 2 ^ 30 ∧ va % 8 = 0 ∧ a.barCheck off = none) :=
  ⟨⟨wS wCx wCo wTm wSp, _, wA wCo wTm wSp, wA wCo wTm wSp, .gather (.k 15) (.lit 0x40001000) (.v 99) ⟨1, 0, false,
    false, 2, 2, true, false, 0⟩, .gather, _, _, _, _, .k 15, .lit 0x40001000, .v 99, .k 15, .lit 0x40001000, ⟨1, 0,
    false, false, 2, 2, true, false, 0⟩, _, none, 0, wCx, none, rfl, rfl, rfl, rfl, by decide +kernel,
    by decide +kernel, rfl, by decide +kernel, by decide +kernel, rfl, by decide +kernel⟩,
    ⟨wS wCx wCo wTm wSp, _, wA wCo wTm wSp, wA wCo wTm wSp, .stBlk (.k 15) (.lit 0x40001000) (.lit 4096) ⟨1, 0,
    false, false, 2, 2, true, false, 0⟩, true, _, _, _, .k 15, .lit 0x40001000, .lit 4096, .k 15, .lit 0x40001000,
    .lit 4096, ⟨1, 0, false, false, 2, 2, true, false, 0⟩, _, none, 0, wCx, none, rfl, rfl, rfl, rfl, rfl,
    by decide +kernel, by decide +kernel, rfl, by decide +kernel, by decide +kernel, rfl, by decide +kernel⟩,
    ⟨0x40000FFF, 0, 524288, by decide +kernel⟩,
    ⟨wS { wCx with ports := [(0, ⟨0x1000, BitVec.ofNat 64 (4 + 1 + 16 + 12 * 2 ^ 58)⟩)] } wCo
    { wTm with s := [(2, 0x01FE000000000000)] } wSp, wA wCo { wTm with s := [(2, 0x01FE000000000000)] } wSp, _, _, _,
    _, _, _, .k 15, .s 2, _, _, ⟨1, 0, false, false, 2, 2, true, false, 0⟩, _, 0, _, rfl, rfl, by decide +kernel,
    rfl, rfl, rfl, rfl, rfl, rfl, by decide +kernel, by decide +kernel, by decide +kernel, Or.inr
    (by decide +kernel)⟩,
    ⟨wS wCx wCo wTm wSp, wA wCo wTm wSp, 7, true, true, rfl⟩,
    ⟨wS wCx wCo wTm wSp, wA wCo wTm wSp, .lit 0x40000000, _, _, 0, 0x40000000, _, rfl, rfl, by decide +kernel, rfl⟩,
    ⟨wS wCx wCo { wTm with s := [(4, 0x40002000)], priv := true } wSp, wA wCo
    { wTm with s := [(4, 0x40002000)], priv := true } wSp, .s 4, .lit 0x40001000, .lit 256, _, _, _, _, _, _, _, 0,
    _, rfl, rfl, by decide +kernel, by decide +kernel, by decide +kernel, rfl, by decide +kernel, rfl, rfl, rfl, rfl,
    by refine ⟨?_, ?_, ?_, ?_, ?_, ?_, by decide +kernel, rfl⟩ <;> decide +kernel⟩⟩

theorem meets_ChannelForms :
    (∃ (s : State) (a : At) (n : BitVec 8) (x x' : Opnd) (qs : Map Stream) (c : Nat) (ctx : Ctx) (cost : Option Nat),
    s.at? = some a ∧ s.ctxOf a.k = some (c, ctx) ∧ a.team.claims x = true ∧ Claims.Takes a [x] qs [x'] ∧ ((∀ ch,
    a.core.chans.get n.toNat = some ch → ch.state = .idle)) ∧ (cost = (if (a.u x').getLsbD 0 then none else some
    ctx.copyCost)) ∧ Claims.Admits a s cost) ∧
    (∃ (s : State) (a : At) (n : BitVec 8), s.at? = some a) ∧
    (∃ (s : State) (a : At) (n : BitVec 8) (x : Opnd), s.at? = some a ∧ a.team.claims x = true) ∧
    (∃ (s : State) (a : At) (x x' : Opnd) (qs : Map Stream) (pa c : Nat) (ctx : Ctx), s.at? = some a ∧ s.ctxOf a.k =
    some (c, ctx) ∧ a.team.claims x = true ∧ Claims.Takes a [x] qs [x'] ∧ (a.u x').toNat % 32 = 0 ∧ s.resolve a.k
    a.region (a.u x').toNat 32 .r none = .at' (.mem pa) ∧ pa < 2 ^ 39 ∧ (s.plot (plotOf pa)).state = .warm) :=
  ⟨⟨wS wCx wCo wTm wSp, wA wCo wTm wSp, 7, .lit 0x40001000, _, _, 0, _, _, rfl, rfl, by decide +kernel, rfl, (fun _
    h => nomatch h), rfl, Or.inr (by decide +kernel)⟩,
    ⟨wS wCx wCo wTm wSp, wA wCo wTm wSp, 7, rfl⟩,
    ⟨wS wCx wCo wTm wSp, wA wCo wTm wSp, 7, .s 49, rfl, by decide +kernel⟩,
    ⟨wS wCx wCo wTm wSp, wA wCo wTm wSp, .lit 0x40001000, _, _, _, 0, _, rfl, rfl, by decide +kernel, rfl,
    by decide +kernel, rfl, by decide +kernel⟩⟩

theorem meets_MatrixForms :
    (∃ (s : State) (a : At) (i : Instr) (gather : Bool) (n : BitVec 8) (x : Opnd) (par : MPar) (l : LoopPar) (tile :
    Tile), s.at? = some a ∧ Claims.loopForm i = some (gather, n, x, par) ∧ ((∃ r, x = .s r)) ∧ a.core.tiles.get
    n.toNat = some tile ∧ tile.team = a.t ∧ tile.leaving = false ∧ (num x + (if gather then 9 else 8) ≤ 64) ∧
    (a.team.claimsRun (if gather then 9 else 8) x = true) ∧ a.team.claimsBar par.bar = true ∧ a.barCheck (a.barOff
    par.bar) = none ∧ Claims.loopRun a.team (num x) gather l) ∧
    (∃ (s : State) (a : At) (n : BitVec 8) (x : Opnd) (par : MPar) (p : StorePar) (tile : Tile) (c : Nat) (ctx : Ctx)
    (cost : Option Nat), s.at? = some a ∧ s.ctxOf a.k = some (c, ctx) ∧ ((∃ r, x = .s r)) ∧ a.core.tiles.get n.toNat
    = some tile ∧ tile.team = a.t ∧ tile.leaving = false ∧ num x ≤ 60 ∧ a.team.claimsRun 4 x = true ∧
    a.team.claimsBar par.bar = true ∧ a.barCheck (a.barOff par.bar) = none ∧ a.team.storePar (num x) = some p ∧
    a.core.mats.length < 8 ∧ (cost = (if inLocalWin p.dst then none else some (ctx.drainCost (64 * p.rowBytes)))) ∧
    Claims.Admits a s cost) ∧
    (∃ (s : State) (a : At) (n : BitVec 8) (tile : Tile), s.at? = some a ∧ a.core.tiles.get n.toNat = some tile ∧
    tile.team = a.t ∧ tile.leaving = false ∧ ((∀ m ∈ a.core.mats, m.2.tile = n.toNat → m.1 < a.core.nextX → m.2.lets
    = true))) ∧
    (∃ (s s1 : State) (a0 a : At) (n : BitVec 8) (tile : Tile) (x y x' y' : Opnd) (qs : Map Stream) (u v : Nat),
    s.at? = some a0 ∧ u = (a0.u x').toNat ∧ v = (a0.u y').toNat ∧ (s1 = s.settleRanges a0.k a0.t a0.p a0.core.nextX
    ((List.range 64).map fun j => ⟨false, a0.region.1 + u + j * v, 256⟩)) ∧ s1.at? = some a ∧ a.core.tiles.get
    n.toNat = some tile ∧ tile.team = a.t ∧ tile.leaving = false ∧ ((∀ m ∈ a.core.mats, m.2.tile = n.toNat → m.1 <
    a.core.nextX → m.2.lets = true)) ∧ a.team.claimsAll [x, y] = true ∧ Claims.Takes a [x, y] qs [x', y'] ∧ u % 16 =
    0 ∧ v % 16 = 0 ∧ u + 63 * v + 256 ≤ a.region.2) ∧
    (∃ (s : State) (a : At) (d x : Opnd) (tile : Tile), s.at? = some a ∧ a.team.claimsAll [d, x] = true ∧ (a.u
    x).toNat < 32 ∧ a.core.tiles.get (a.u x).toNat = some tile ∧ tile.team = a.t ∧ tile.leaving = false) :=
  ⟨⟨wS wCx { wCo with tiles := [(31, wTile)] } { wTm with s := [(45, 0x22)] } wSp, wA
    { wCo with tiles := [(31, wTile)] } { wTm with s := [(45, 0x22)] } wSp, .mgloop 31 (.s 40) ⟨0, 0, false, false⟩,
    _, _, _, _, _, _, rfl, rfl, ⟨40, rfl⟩, rfl, rfl,
    by refine ⟨?_, ?_, ?_, ?_, ?_, by unfold Claims.loopRun; exact ⟨rfl, by decide +kernel⟩⟩ <;> decide +kernel⟩,
    ⟨wS wCx { wCo with tiles := [(31, wTile)] } { wTm with s := [(40, 0x40001000), (41, 256)] } wSp, wA
    { wCo with tiles := [(31, wTile)] } { wTm with s := [(40, 0x40001000), (41, 256)] } wSp, 31, .s 40, ⟨0, 0, false,
    false⟩, _, _, 0, _, _, rfl, rfl, ⟨40, rfl⟩, rfl, rfl,
    by refine ⟨?_, ?_, ?_, ?_, rfl, rfl, by decide +kernel, rfl, Or.inr (by decide +kernel)⟩ <;> decide +kernel⟩,
    ⟨wS wCx { wCo with tiles := [(31, wTile)] } wTm wSp, wA { wCo with tiles := [(31, wTile)] } wTm wSp, 31, _, rfl,
    rfl, rfl, by decide +kernel⟩,
    ⟨wS wCx { wCo with tiles := [(31, wTile)] } wTm wSp, _, wA { wCo with tiles := [(31, wTile)] } wTm wSp, wA
    { wCo with tiles := [(31, wTile)] } wTm wSp, 31, wTile, .lit 7680, .k 15, .lit 7680, .k 15, _, _, _, rfl, rfl,
    rfl, rfl, by refine ⟨?_, ?_, ?_, ?_, ?_, ?_, rfl, by decide +kernel⟩ <;> decide +kernel⟩,
    ⟨wS wCx { wCo with tiles := [(31, wTile)] } wTm wSp, wA { wCo with tiles := [(31, wTile)] } wTm wSp, .s 49, .lit
    31, _, rfl, by decide +kernel, by decide +kernel, rfl, rfl, rfl⟩⟩

theorem meets_SolicitForms :
    (∃ (s s1 : State) (a0 a : At) (x : Opnd) (rel : Bool) (r : Nat → Nat) (w slot c : Nat) (ctx : Ctx) (cost : Option
    Nat), s.at? = some a0 ∧ s1 = s.settleSplit a0.k a0.t a0.p ∧ s1.at? = some a ∧ s1.ctxOf a.k = some (c, ctx) ∧
    ctx.pool = true ∧ a.team.resp = none ∧ num x ≤ 56 ∧ a.team.claimsRun 8 x = true ∧ ((∀ j, r j = (a.team.sreg (num
    x + j)).toNat)) ∧ ((r 6 = 4 ∨ r 6 = 5)) ∧ r 2 / 2 ^ 48 = 0 ∧ r 3 / 2 ^ 24 = 0 ∧ r 3 / 2 ^ 8 % 2 ^ 8 = 0 ∧ r 3 % 2
    ^ 8 ≤ 6 ∧ (w = (if r 3 % 2 ^ 8 = 0 then 0 else if r 3 % 2 ^ 8 = 5 then r 3 / 2 ^ 16 % 2 ^ 8 + 2 else r 3 / 2 ^ 16
    % 2 ^ 8)) ∧ ((if r 3 % 2 ^ 8 = 0 then r 3 / 2 ^ 16 % 2 ^ 8 = 0 else 1 ≤ r 3 / 2 ^ 16 % 2 ^ 8 ∧ w ≤ 128)) ∧ ((r 7
    = 16 ∨ r 7 = 32 ∨ r 7 = 64)) ∧ r 2 / 2 ^ 32 % 2 ^ 16 ≤ 512 ∧ a.barCheck (r 5) = none ∧ r 2 / 2 ^ 32 % 2 ^ 16 % 4
    = 0 ∧ r 2 % 2 ^ 32 % 4 = 0 ∧ r 4 % 16 = 0 ∧ r 2 % 2 ^ 32 + r 2 / 2 ^ 32 % 2 ^ 16 ≤ a.region.2 ∧ r 4 + (16 + 4 *
    w) ≤ a.region.2 ∧ ctx.censuses.lowestFree 64 0 = some slot ∧ cost = some ctx.censusCost ∧ Claims.Admits a s1
    cost) ∧
    (∃ (s s1 : State) (a0 a : At) (x x' : Opnd) (qs : Map Stream) (r : RespInfo), s.at? = some a0 ∧ s1 = s.settleTeam
    a0.k a0.t ∧ s1.at? = some a ∧ a.team.claims x = true ∧ Claims.Takes a [x] qs [x'] ∧ a.team.resp = some r ∧
    r.responded = false ∧ a.off32 x' % 4 = 0 ∧ ((a.off32 x' + 4 * r.words ≤ a.region.2 ∨ a.inStaging (a.off32 x') (4
    * r.words) = true)) ∧ a.core.answers.length < 32) ∧
    (∃ (s s1 : State) (a0 a : At) (d x : Opnd) (r : Nat → Nat) (e clause c : Nat) (ctx : Ctx) (kn : Kern), s.at? =
    some a0 ∧ s1 = s.settleSplit a0.k a0.t a0.p ∧ s1.at? = some a ∧ s1.ctxOf a.k = some (c, ctx) ∧ ctx.pool = true ∧
    ctx.kernOf a.team = some kn ∧ a.team.resp = none ∧ num x ≤ 61 ∧ a.team.claims d = true ∧ a.team.claimsRun 3 x =
    true ∧ ((∀ j, r j = (a.team.sreg (num x + j)).toNat)) ∧ kn.resp[r 2]? = some clause ∧ r 2 < 2 ^ 16 ∧ r 1 % 2 ^ 32
    % 4 = 0 ∧ r 1 / 2 ^ 32 % 4 = 0 ∧ 0 < r 1 / 2 ^ 32 ∧ r 1 % 2 ^ 32 + r 1 / 2 ^ 32 ≤ a.region.2 ∧
    a.core.dir.lowestFree 256 0 = some e) ∧
    (∃ (s : State) (a : At) (x x' : Opnd) (qs : Map Stream) (d : DirEntry), s.at? = some a ∧ a.team.claims x = true ∧
    Claims.Takes a [x] qs [x'] ∧ a.team.resp = none ∧ a.core.dir.get (a.u x').toNat = some d ∧ d.state = .resident ∧
    d.crew = a.team.crew) ∧
    (∃ (s s1 : State) (a0 a : At) (x y y' : Opnd) (qs : Map Stream) (e target toff c slot te : Nat) (ctx : Ctx) (d :
    DirEntry) (co : Core) (w : Crew), s.at? = some a0 ∧ s1 = s.settleSplit a0.k a0.t a0.p ∧ s1.at? = some a ∧
    s1.ctxOf a.k = some (c, ctx) ∧ a.team.claimsRun 2 x = true ∧ a.team.claimsAll [x, y] = true ∧ Claims.Takes a [y]
    qs [y'] ∧ num x ≤ 62 ∧ a.team.resp = none ∧ e = (a.team.sreg (num x)).toNat ∧ target = (a.team.sreg (num x +
    1)).toNat % 2 ^ 32 ∧ toff = (a.team.sreg (num x + 1)).toNat / 2 ^ 32 ∧ a.core.dir.get e = some d ∧ d.state =
    .resident ∧ d.dropping = false ∧ d.crew = a.team.crew ∧ target ≠ a.k ∧ target ∈ ctx.cores ∧ toff % 4 = 0 ∧
    a.barCheck (a.u y').toNat = none ∧ s1.core? target = some co ∧ co.lowestCrew d.kernel = some (slot, w) ∧
    co.dir.lowestFree 256 0 = some te ∧ toff + d.length ≤ w.size) :=
  ⟨⟨wS { wCx with pool := true } wCo { wTm with s := [(46, 4), (47, 16)] } wSp, _, wA wCo
    { wTm with s := [(46, 4), (47, 16)] } wSp, wA wCo { wTm with s := [(46, 4), (47, 16)] } wSp, .s 40, true, _, 0,
    0, 0, { wCx with pool := true }, _, rfl, rfl,
    by refine ⟨?_, ?_, ?_, ?_, ?_, ?_, (fun _ => rfl), by refine ⟨?_, ?_, ?_, ?_, ?_, ?_, by refine ⟨?_, ?_, ?_, ?_, ?_, ?_, by refine ⟨?_, ?_, ?_, ?_, rfl, Or.inr (by decide +kernel)⟩ <;> decide +kernel⟩ <;> decide +kernel⟩ <;> decide +kernel⟩ <;> decide +kernel⟩,
    ⟨wS wCx wCo { wTm with resp := some ⟨0, 0, 0, 0, 0, 0, false⟩ } wSp, _, wA wCo
    { wTm with resp := some ⟨0, 0, 0, 0, 0, 0, false⟩ } wSp, wA wCo
    { wTm with resp := some ⟨0, 0, 0, 0, 0, 0, false⟩ } wSp, .lit 8192, .lit 8192, _, _, rfl, rfl, by decide +kernel,
    by decide +kernel, rfl, rfl, by decide +kernel⟩,
    ⟨wS { wCx with pool := true, kernels := [(0, { wKn with resp := [7] })] } wCo
    { wTm with s := [(41, 0x10000001F00)] } wSp, _, wA wCo { wTm with s := [(41, 0x10000001F00)] } wSp, wA wCo
    { wTm with s := [(41, 0x10000001F00)] } wSp, .s 49, .s 40, _, 0, 7, 0,
    { wCx with pool := true, kernels := [(0, { wKn with resp := [7] })] }, _, rfl, rfl, by decide +kernel,
    by decide +kernel, by decide +kernel, rfl,
    by refine ⟨?_, ?_, ?_, ?_, (fun _ => rfl), rfl, by decide +kernel⟩ <;> decide +kernel⟩,
    ⟨wS wCx { wCo with dir := [(255, wDir .resident 0 0)] } wTm wSp, wA
    { wCo with dir := [(255, wDir .resident 0 0)] } wTm wSp, .lit 255, _, _, _, rfl, by decide +kernel, rfl,
    by decide +kernel, rfl, rfl, rfl⟩,
    ⟨{ wS ({ wCx with cores := [0, 319], pool := true }) ({ wCo with dir := [(255, wDir .resident 0 0)] })
    ({ wTm with s := [(40, 255), (41, 319)] }) wSp with cores := [(0, wCore
                                                         ({ wCo with dir := [(255, wDir .resident 0 0)] })
                                                         ({ wTm with s := [(40, 255), (41, 319)] }) wSp), (319,
                                                         { wCo with ctx := some 0 })] }, _, wA
    { wCo with dir := [(255, wDir .resident 0 0)] } { wTm with s := [(40, 255), (41, 319)] } wSp, wA
    { wCo with dir := [(255, wDir .resident 0 0)] } { wTm with s := [(40, 255), (41, 319)] } wSp, .s 40, .k 15, .k
    15, _, _, _, _, 0, _, _, { wCx with cores := [0, 319], pool := true }, _, _, _, rfl, rfl,
    by refine ⟨?_, ?_, ?_, ?_, rfl, by decide +kernel, by decide +kernel, rfl, rfl, rfl, rfl, by refine ⟨?_, ?_, ?_, ?_, ?_, ?_, by decide +kernel, rfl, rfl, rfl, by decide +kernel⟩ <;> decide +kernel⟩ <;> decide +kernel⟩⟩

theorem meets_CounterAndRecordForms :
    (∃ (s s1 : State) (a0 a : At) (x y : Opnd) (par : SeqPar) (c : Nat) (ctx : Ctx) (cost : Option Nat), s.at? = some
    a0 ∧ s1 = s.settleSplit a0.k a0.t a0.p ∧ s1.at? = some a ∧ s1.ctxOf a.k = some (c, ctx) ∧ a.team.claimsAll [x, y]
    = true ∧ (a.u x).toNat % 8 = 0 ∧ (a.u y).toNat < 2 ^ 63 ∧ ((par.cmt = false → a.team.claimsBar par.bar = true)) ∧
    cost = some (ctx.drainCost 8)) ∧
    (∃ (s s1 : State) (a0 a : At) (d x y : Opnd), s.at? = some a0 ∧ s1 = s.settleSplit a0.k a0.t a0.p ∧ s1.at? = some
    a ∧ a.team.claimsAll [d, x, y] = true ∧ a.split.prepaid = none ∧ a.barCheck (a.u y).toNat = none ∧ a.off32 d % 8
    = 0 ∧ a.off32 d + 8 ≤ a.region.2 ∧ (a.u x).toNat % 8 = 0 ∧ a.core.packets < 512) ∧
    (∃ (s s1 : State) (a0 a : At) (d x y : Opnd) (c q : Nat) (ctx : Ctx) (rq : RecQueue), s.at? = some a0 ∧ s1 =
    s.settleSplit a0.k a0.t a0.p ∧ s1.at? = some a ∧ s1.ctxOf a.k = some (c, ctx) ∧ a.team.claimsAll [d, x, y] = true
    ∧ q = (a.u x).toNat ∧ a.off32 d % 16 = 0 ∧ q % 64 = 0 ∧ a.off32 d + 64 ≤ a.region.2 ∧ a.barCheck (a.u y).toNat =
    none ∧ s1.recq? c q = some rq ∧ a.core.packets < 512) ∧
    (∃ (s s1 : State) (a0 a : At) (d x y : Opnd) (c q : Nat) (ctx : Ctx) (rq : RecQueue) (cost : Option Nat), s.at? =
    some a0 ∧ s1 = s.settleSplit a0.k a0.t a0.p ∧ s1.at? = some a ∧ s1.ctxOf a.k = some (c, ctx) ∧ a.team.claimsAll
    [d, x, y] = true ∧ q = (a.u x).toNat ∧ a.off32 d % 16 = 0 ∧ q % 64 = 0 ∧ a.off32 d + 64 ≤ a.region.2 ∧ a.barCheck
    (a.u y).toNat = none ∧ s1.recq? c q = some rq ∧ a.core.packets < 512 ∧ cost = some (ctx.drainCost 64) ∧
    Claims.Admits a s1 cost) ∧
    (∃ (s : State) (k t p q off bar c : Nat) (item : Option Nat) (tm : Team) (sp : Split) (cl : Clause) (ctx : Ctx)
    (co : Core) (w : Crew) (rq : RecQueue), s.core? k = some co ∧ co.teams.get t = some tm ∧ tm.splits.get p = some
    sp ∧ s.ctxOf k = some (c, ctx) ∧ sp.state = .waiting ∧ sp.wait = .recPush q off bar item ∧ sp.clause = some cl ∧
    tm.mayIssue p = true ∧ s.coreIssues k = true ∧ co.crews.get tm.crew = some w ∧ s.recq? c q = some rq ∧ tm.resp =
    none ∧ rq.tail - rq.head < rq.size) :=
  ⟨⟨wS wCx wCo wTm wSp, _, wA wCo wTm wSp, wA wCo wTm wSp, .lit 0x40001000, .lit 5, ⟨49, 0, false, false⟩, 0, wCx,
    _, rfl, rfl, by refine ⟨?_, ?_, ?_, ?_, ?_, ?_, rfl⟩ <;> decide +kernel⟩,
    ⟨wS wCx wCo wTm wSp, _, wA wCo wTm wSp, wA wCo wTm wSp, .lit 8184, .lit 0x40001000, .k 15, rfl, rfl,
    by decide +kernel⟩,
    ⟨wS { wCx with recqs := [(0x40002000, ⟨0x40003000, 4, 0, 1, 1, false, 0, 0, [], [], []⟩)] } wCo wTm wSp, _, wA
    wCo wTm wSp, wA wCo wTm wSp, .lit 8128, .lit 0x40002000, .k 15, 0, 0x40002000,
    { wCx with recqs := [(0x40002000, ⟨0x40003000, 4, 0, 1, 1, false, 0, 0, [], [], []⟩)] }, _, rfl, rfl,
    by decide +kernel, by decide +kernel, by decide +kernel, rfl,
    by refine ⟨?_, ?_, ?_, ?_, rfl, by decide +kernel⟩ <;> decide +kernel⟩,
    ⟨wS { wCx with recqs := [(0x40002000, ⟨0x40003000, 4, 0, 1, 1, false, 0, 0, [], [], []⟩)] } wCo wTm wSp, _, wA
    wCo wTm wSp, wA wCo wTm wSp, .lit 8128, .lit 0x40002000, .k 15, 0, 0x40002000,
    { wCx with recqs := [(0x40002000, ⟨0x40003000, 4, 0, 1, 1, false, 0, 0, [], [], []⟩)] }, _, _, rfl, rfl,
    by decide +kernel, by decide +kernel, by decide +kernel, rfl,
    by refine ⟨?_, ?_, ?_, ?_, rfl, by decide +kernel, rfl, Or.inr (by decide +kernel)⟩ <;> decide +kernel⟩,
    ⟨wS { wCx with recqs := [(0x40002000, ⟨0x40003000, 4, 0, 1, 1, false, 0, 0, [], [], []⟩)] } wCo wTm
    { wSp with state := .waiting, wait := .recPush 0x40002000 0 16 none }, 0, 0, 0, 0x40002000, 0, 16, 0, none, _, _,
    _, _, _, _, _, rfl, rfl, rfl, rfl, rfl, rfl, rfl, by decide +kernel, by decide +kernel, rfl, rfl,
    by decide +kernel⟩⟩

theorem meets_ControlRegisters :
    (∃ (s : State) (a : At) (d : Opnd) (n : BitVec 12), s.at? = some a ∧ a.team.claims d = true ∧ n.toNat < 0x800) ∧
    (∃ (s : State) (a : At) (i : Instr) (d : Opnd) (n : BitVec 12) (f : W64 → W64 → W64) (v : W64), s.at? = some a ∧
    Claims.csrForm i = some (d, n, f) ∧ a.team.claims d = true ∧ n.toNat < 0x800 ∧ n ≠ 0x020 ∧ n ≠ 0x061 ∧ v =
    Claims.masked (csrMask n.toNat) (s.csr a.k a.t n.toNat) (f (s.csr a.k a.t n.toNat) (a.u d)) ∧ csrLimit n.toNat v
    = true) ∧
    (∃ (s : State) (a : At) (i : Instr) (d : Opnd) (f : W64 → W64 → W64), s.at? = some a ∧ Claims.csrForm i = some
    (d, 0x061, f) ∧ a.team.claims d = true) ∧
    (∃ (s : State) (a : At) (i : Instr) (d : Opnd) (f : W64 → W64 → W64) (c : Nat) (ctx : Ctx) (old v : BitVec 2),
    s.at? = some a ∧ s.ctxOf a.k = some (c, ctx) ∧ Claims.csrForm i = some (d, 0x020, f) ∧ a.team.claims d = true ∧
    old = (ctx.bwWrites.getLast?.map (·.level)).getD ctx.bwLevel ∧ v = (f (old.zeroExtend 64) (a.u d)).truncate 2) ∧
    (∃ (s : State) (k t c : Nat) (co : Core) (tm : Team) (ctx : Ctx), s.core? k = some co ∧ co.teams.get t = some tm
    ∧ s.ctxOf k = some (c, ctx)) ∧
    (∃ (s : State) (a : At) (d : Opnd), s.at? = some a ∧ a.team.claims d = true) ∧
    (∃ (s : State) (a : At) (d : Opnd), s.at? = some a ∧ a.team.claims d = true ∧ (a.u d).toNat % 64 = 0) ∧
    (∃ (s : State) (a : At) (i : Instr) (d : Opnd) (n : BitVec 12), s.at? = some a ∧ ((i = .csrRd d n ∨ ∃ f,
    Claims.csrForm i = some (d, n, f))) ∧ 0x800 ≤ n.toNat) :=
  ⟨⟨wS wCx wCo wTm wSp, wA wCo wTm wSp, .s 49, 0x7FF, rfl, by decide +kernel⟩,
    ⟨wS wCx wCo wTm wSp, wA wCo wTm wSp, .csrWr (.lit 0x1000) 0x030, _, _, _, _, rfl, rfl,
    by refine ⟨?_, ?_, ?_, ?_, rfl, by decide +kernel⟩ <;> decide +kernel⟩,
    ⟨wS wCx wCo wTm wSp, wA wCo wTm wSp, .csrSet (.lit 0x40) 0x061, _, _, rfl, rfl, by decide +kernel⟩,
    ⟨wS wCx wCo wTm wSp, wA wCo wTm wSp, .csrSet (.k 18) 0x020, _, _, 0, _, _, _, rfl, rfl, rfl, by decide +kernel,
    rfl, rfl⟩,
    ⟨wS wCx wCo wTm wSp, 0, 0, 0, _, _, _, rfl, rfl, rfl⟩,
    ⟨wS wCx wCo wTm wSp, wA wCo wTm wSp, .s 49, rfl, by decide +kernel⟩,
    ⟨wS wCx wCo wTm wSp, wA wCo wTm wSp, .lit 64, rfl, by decide +kernel⟩,
    ⟨wS wCx wCo wTm wSp, wA wCo wTm wSp, .csrRd (.s 49) 0x800, .s 49, 0x800, rfl, Or.inl rfl, by decide +kernel⟩⟩

theorem meets_TrapEntryAndSideBuffer :
    (∃ (s : State) (k t p : Nat) (tr : Trap) (pc resume h : W64) (hdr : W32) (w : Nat) (c : Core) (tm : Team) (sp :
    Split) (failing : Mask) (u : State), s.core? k = some c ∧ c.teams.get t = some tm ∧ tm.splits.get p = some sp ∧
    ((∀ l, l < 1024 → failing.getLsbD l = tr.lanes.any fun e => e.1 == l)) ∧ u = s.trap k t p tr pc resume h hdr w) ∧
    (∃ (s : State) (a : At) (i : Instr) (die : Bool) (touch : Touch) (size : Nat) (es : List (Nat × Nat)), s.at? =
    some a ∧ Claims.LocalWord a i die touch size es) ∧
    (∃ (s : State) (a : At) (i : Instr) (kind : AKind) (costed : Bool) (extra size off b : Nat) (d x y d' x' : Opnd)
    (par : XPar) (qs : Map Stream) (at' : Nat → Nat) (out : Nat → Prop) (ls : List Nat), s.at? = some a ∧
    Claims.xferForm i = some (kind, costed, extra, d, x, y, par) ∧ a.team.claimsBar par.bar = true ∧ a.team.claimsAll
    [d, x, y] = true ∧ Claims.Takes a [x, d] qs [x', d'] ∧ size = 2 ^ par.size.toNat ∧ off = a.off32 d' ∧ b =
    a.barOff par.bar ∧ ((∀ l, at' l = off + l * size)) ∧ ((∀ l, out l ↔ a.region.2 < at' (extra * a.team.lanes + l) +
    size ∧ ¬ (kind = .scatter ∧ a.inStaging (at' l) size = true)))) ∧
    (∃ (s : State) (a : At) (i : Instr) (store : Bool) (va len off b : Nat) (d x y d' x' y' : Opnd) (par : XPar) (qs
    : Map Stream), s.at? = some a ∧ Claims.blkForm i = some (store, d, x, y, par) ∧ a.team.claimsBar par.bar = true ∧
    a.team.claimsAll [d, x, y] = true ∧ Claims.Takes a [x, y, d] qs [x', y', d'] ∧ va = (a.u x').toNat ∧ len =
    a.off32 y' ∧ off = a.off32 d' ∧ b = a.barOff par.bar) ∧
    (∃ (b : SideBuf), b.split < 16) :=
  ⟨⟨wS wCx wCo wTm wSp, 0, 0, 0, ⟨4, 0, 0, []⟩, 0x40000004, 0x40000000, 0x40000000, 0xF0006C5A, 1, _, _, _, 0, _,
    rfl, rfl, rfl, (fun l _ => by simp), rfl⟩,
    ⟨wS wCx wCo wTm wSp, wA wCo wTm wSp, .ldW (.v 99) (.k 15) (.k 18), _, _, _, _, rfl, ⟨_, _, _, _, _, .k 0, _,
    by decide +kernel, rfl, Or.inl ⟨_, _, rfl, rfl, by decide +kernel, rfl⟩⟩⟩,
    ⟨wS wCx wCo wTm wSp, wA wCo wTm wSp, .gather (.k 16) (.lit 0x40001000) (.v 99) ⟨1, 0, false, false, 2, 2, true,
    false, 0⟩, .gather, _, _, 4, 1, _, _, _, _, .k 16, .lit 0x40001000, ⟨1, 0, false, false, 2, 2, true, false, 0⟩,
    _, fun _ => _, fun _ => _, [0], rfl, rfl, by decide +kernel, by decide +kernel, rfl, rfl, by decide +kernel, rfl,
    (fun _ => rfl), (fun _ => Iff.rfl)⟩,
    ⟨wS wCx wCo wTm wSp, wA wCo wTm wSp, .stBlk (.k 15) (.lit 0x40001000) (.lit 4098) ⟨1, 0, false, false, 2, 2,
    true, false, 0⟩, _, _, 4098, _, _, _, _, _, .k 15, .lit 0x40001000, .lit 4098, ⟨1, 0, false, false, 2, 2, true,
    false, 0⟩, _, rfl, rfl, by decide +kernel, by decide +kernel, rfl, rfl, rfl, rfl, rfl⟩,
    ⟨{ SideBuf.zero with split := 15, mask := maskAll 16, detail := [(0, 1)] }, by decide +kernel⟩⟩

theorem meets_TimestampAndAllowance :
    (∃ (s : State) (a : At) (d : Opnd), s.at? = some a ∧ a.team.claims d = true) ∧
    (∃ (s : State) (a : At) (x y : Opnd) (c dst k : Nat) (ctx : Ctx), s.at? = some a ∧ s.ctxOf a.k = some (c, ctx) ∧
    a.team.claimsAll [x, y] = true ∧ dst = (a.u x).toNat % 2 ^ 32 ∧ k = (a.u y).toNat % 2 ^ 32 ∧ dst < 320 ∧ dst ∈
    ctx.cores) ∧
    (∃ (s : State) (c k a others : Nat) (x : Ctx) (co : Core), s.ctx? c = some x ∧ s.rkUp = true ∧ (x.state =
    .created ∨ x.state = .saved) ∧ x.saved.get k = some co ∧ (others = ((x.saved.filter fun e => e.1 != k).map fun e
    => e.2.allow).sum)) ∧
    (∃ (s : State) (c k a others : Nat) (x y : Ctx) (co : Core), s.ctx? c = some x ∧ s.rkUp = true ∧ (x.state =
    .created ∨ x.state = .saved) ∧ x.saved.get k = none ∧ s.rereadCtx c x = some y ∧ y.saved.get k = some co ∧
    (others = ((y.saved.filter fun e => e.1 != k).map fun e => e.2.allow).sum)) ∧
    (∃ (s : State) (c k a others : Nat) (x : Ctx) (co : Core), s.ctx? c = some x ∧ s.rkUp = true ∧ x.state =
    .restoring ∧ s.core? k = some co ∧ co.ctx = some c ∧ (others = ((s.cores.filter fun e => e.2.ctx == some c && e.1
    != k).map fun e => e.2.allow).sum)) ∧
    (∃ (s : State) (c src dst : Nat) (x : Ctx) (e : Credit) (co : Core), s.ctx? c = some x ∧ x.credits.head? = some e
    ∧ e.src = src ∧ e.dst = dst ∧ s.core? dst = some co) :=
  ⟨⟨wS wCx wCo wTm wSp, wA wCo wTm wSp, .s 49, rfl, by decide +kernel⟩,
    ⟨wS wCx wCo wTm wSp, wA wCo wTm wSp, .k 15, .lit 64, 0, _, _, _, rfl, rfl, by decide +kernel, rfl, rfl,
    by decide +kernel⟩,
    ⟨wS { wCx with state := .saved, saved := [(0, wCo)] } wCo wTm wSp, 0, 0, 64, _, _, _, rfl, by decide +kernel,
    Or.inr rfl, rfl, rfl⟩,
    ⟨wRestore .created (wRecMem 0 1), 0, 0, 64, _, wStand .created, wReread .created, _, by decide +kernel,
    by decide +kernel, Or.inl rfl, by decide +kernel, wRestore_rereads .created (by decide +kernel)
    (by decide +kernel) (by decide +kernel), rfl, rfl⟩,
    ⟨wS { wCx with state := .restoring } wCo wTm wSp, 0, 0, 64, _, _, _, rfl, by decide +kernel, rfl, rfl, rfl, rfl⟩,
    ⟨wS { wCx with credits := [⟨5, 0, 64⟩] } wCo wTm wSp, 0, 5, 0, _, _, _, rfl, rfl, by decide +kernel,
    by decide +kernel, rfl⟩⟩

theorem meets_BarrelIssue :
    (∃ (s : State) (k c : Nat) (co : Core) (x : Ctx), s.core? k = some co ∧ s.ctxOf k = some (c, x)) ∧
    (∃ (s : State) (e : Issue) (tm : Team) (sp : Split), s.team? e.core e.team = some tm ∧ tm.splits.get e.split =
    some sp) ∧
    (∃ (s : State) (k c : Nat) (co : Core) (x : Ctx), s.core? k = some co ∧ s.ctxOf k = some (c, x) ∧ co.reassign =
    true ∧ co.pos = 0 ∧ ((∀ e ∈ co.teams, ∀ f ∈ co.teams, e.2.resp = none → f.2.resp = none → e.2.order = f.2.order →
    e.1 = f.1))) ∧
    (∃ (s : State) (c : Nat) (x : Ctx), s.ctx? c = some x ∧ s.rk = .up ∧ (x.state = .created ∨ x.state = .saved)) ∧
    (∃ (s : State) (u slot : Nat) (e : CalSlot) (may : CalReq → Prop), slot < 1024 ∧ s.calendar.get slot = some e ∧
    ((∀ q ∈ s.calReqs, q.ctx < 8192)) ∧ ((∀ q, may q ↔ (u < 8 ∨ 16 ≤ u ∨ ∀ x used, s.ctx? q.ctx = some x → used = (if
    (s.calLast.get u).all (fun l => decide (slot ≤ l)) then 0 else (s.calUsed.get (8192 * u + q.ctx)).getD 0) →
    (x.bwLevel = 1 → used < 102) ∧ (x.bwLevel = 2 → used < 512))))) :=
  ⟨⟨wS wCx wCo wTm wSp, 0, 0, _, _, rfl, rfl⟩,
    ⟨wS wCx wCo wTm wSp, ⟨0, 0, 0, false, 64, 3⟩, _, _, rfl, rfl⟩,
    ⟨wS wCx { wCo with reassign := true } wTm wSp, 0, 0, _, _, rfl, rfl, rfl, rfl, by decide +kernel⟩,
    ⟨wS { wCx with state := .saved } wCo wTm wSp, 0, _, rfl, by decide +kernel, Or.inr rfl⟩,
    ⟨{ State.reset with calendar := [(1023, ⟨0, 256, none⟩)] }, 0, 1023, _, _, by decide +kernel, rfl,
    by decide +kernel, (fun _ => Iff.rfl)⟩⟩

theorem meets_WaitsAndAdmission :
    (∃ (s : State) (k t p : Nat) (co : Core) (tm : Team) (sp : Split), s.core? k = some co ∧ co.teams.get t = some tm
    ∧ tm.splits.get p = some sp) ∧
    (∃ (s : State) (k t p n c : Nat) (co : Core) (tm : Team) (sp : Split) (cl : Clause) (x : Ctx), s.core? k = some
    co ∧ co.teams.get t = some tm ∧ tm.splits.get p = some sp ∧ s.ctxOf k = some (c, x) ∧ sp.state = .waiting ∧
    sp.wait = .claim (.v n) ∧ sp.clause = some cl ∧ tm.mayIssue p = true ∧ s.coreIssues k = true ∧ co.regBytes +
    tm.lanes * n * 4 ≤ regFile x.pool ∧ s.admission k t (s.holdIncrease k (tm.lanes * n * 4)) = .pass) ∧
    (∃ (s : State) (k t p cost : Nat) (co : Core) (tm : Team) (sp : Split), s.core? k = some co ∧ s.coreIssues k =
    true ∧ co.stalled = [(t, p)] ∧ co.teams.get t = some tm ∧ tm.splits.get p = some sp ∧ sp.state = .waiting ∧
    sp.wait = .admission cost none ∧ sp.clause.isSome = true ∧ s.estOf k + cost ≤ co.allow) ∧
    (∃ (s : State) (k t p cost : Nat) (co : Core) (tm : Team) (sp : Split), s.core? k = some co ∧ s.coreIssues k =
    true ∧ co.stalled = [(t, p)] ∧ co.teams.get t = some tm ∧ tm.splits.get p = some sp ∧ sp.wait = .admission cost
    none ∧ co.allow < s.estOf k + cost ∧ s.holdOf k + cost ≤ co.allow ∧ sp.clause.isSome = true) :=
  ⟨⟨wS wCx wCo wTm wSp, 0, 0, 0, _, _, _, rfl, rfl, rfl⟩,
    ⟨wS wCx wCo wTm { wSp with state := .waiting, wait := .claim (.v 28) }, 0, 0, 0, 28, 0, _, _, _, _, _, rfl, rfl,
    rfl, rfl, rfl, rfl, rfl, by decide +kernel⟩,
    ⟨wS wCx { wCo with stalled := [(0, 0)] } wTm { wSp with state := .waiting, wait := .admission 64 none }, 0, 0, 0,
    64, _, _, _, rfl, by decide +kernel, rfl, rfl, rfl, rfl, rfl, by decide +kernel⟩,
    ⟨wS wCx { wCo with stalled := [(0, 0)], items := [(0, 0x40000)] } wTm
    { wSp with state := .waiting, wait := .admission 0x70000 none }, 0, 0, 0, 0x70000, _, _, _, rfl,
    by decide +kernel, rfl, rfl, rfl, rfl, by decide +kernel⟩⟩

theorem meets_TransfersServed :
    (∃ (s : State) (k x i : Nat) (co : Core) (op : AsyncOp) (p : Part) (e : Instr), s.core? k = some co ∧
    co.asyncs.get x = some op ∧ op.part? i = some p ∧ s.partReady k op p = true ∧ p.target ≤ 7 ∧ ((∀ y ∈ p.accs,
    y.done = false)) ∧ op.sampled = false ∧ ((op.kind = .gather ∧ e = .gatherPacketDeliver k x i) ∨ (op.kind = .ldBlk
    ∧ e = .blkSegmentComplete k x i ∧ op.parts.head? = some p))) ∧
    (∃ (s : State) (k x i : Nat) (co : Core) (op : AsyncOp) (p : Part) (e : Instr), s.core? k = some co ∧
    co.asyncs.get x = some op ∧ op.part? i = some p ∧ s.partReady k op p = true ∧ p.target ≤ 7 ∧ ((∀ y ∈ p.accs,
    y.done = false ∧ s.writeLost y.pa y.len = false)) ∧ op.sampled = false ∧ ((op.kind = .scatter ∧ e =
    .writeAcknowledge k x i) ∨ (op.kind = .stBlk ∧ (e = .writeAcknowledge k x i ∨ e = .blkSegmentComplete k x i) ∧
    op.parts.head? = some p))) ∧
    (∃ (s : State) (k x i va lo n : Nat) (co : Core) (op : AsyncOp) (p : Part) (y : Acc), s.core? k = some co ∧
    co.asyncs.get x = some op ∧ op.part? i = some p ∧ s.partReady k op p = true ∧ op.kind = .scrub va lo n ∧ p.accs =
    [y] ∧ y.data = [] ∧ (s.plot (plotOf lo)).state = .warm) ∧
    (∃ (s : State) (k x i va lo n : Nat) (co : Core) (op : AsyncOp) (p : Part) (y : Acc), s.core? k = some co ∧
    co.asyncs.get x = some op ∧ op.part? i = some p ∧ s.partReady k op p = true ∧ op.kind = .scrub va lo n ∧ p.accs =
    [y] ∧ y.data ≠ [] ∧ p.target ≤ 7 ∧ s.writeLost y.pa y.len = false ∧ op.sampled = false ∧ op.rel = false) :=
  ⟨⟨wS wCx { wCo with asyncs := [(5, wOp (.ldBlk) [⟨0, 0, .sent, [⟨0, 0x40001000, 64, 4, 0x40001000, [1, 2, 3, 4],
                        false, []⟩], 0, 0⟩])], shared := [(4, 4)] } wTm wSp, 0, 5, 0, _, _, _, _, rfl, rfl, rfl,
    by decide +kernel, by decide +kernel, by decide +kernel, rfl, Or.inr ⟨rfl, rfl, rfl⟩⟩,
    ⟨wS wCx { wCo with asyncs := [(5, wOp (.scatter) [⟨0, 0, .sent, [⟨0, 0x40001000, 64, 4, 0x40001000, [1, 2, 3, 4],
                        false, []⟩], 0, 0⟩])], shared := [(4, 4)] } wTm wSp, 0, 5, 0, _, _, _, _, rfl, rfl, rfl,
    by decide +kernel, by decide +kernel, by decide +kernel, rfl, Or.inl ⟨rfl, rfl⟩⟩,
    ⟨wS wCx { wCo with asyncs := [(5, wOp (.scrub 0x40001000 0x40002000 256) [⟨0, 8, .sent, [⟨0, 0x40001000, 64, 4,
                        0x40001000, [], false, []⟩], 0, 0⟩])], shared := [(4, 4)] } wTm wSp, 0, 5, 0, _, _, _, _, _,
    _, _, rfl, rfl, rfl, by decide +kernel, rfl, rfl, rfl, by decide +kernel⟩,
    ⟨wS wCx { wCo with asyncs := [(5, wOp (.scrub 0x40001000 0x40002000 256) [⟨0, 0, .sent, [⟨0, 0x40001000, 64, 4,
                        0x40001000, [1, 2, 3, 4], false, []⟩], 0, 0⟩])], shared := [(4, 4)] } wTm wSp, 0, 5, 0, _, _,
    _, _, _, _, _, rfl, rfl, rfl, by decide +kernel, rfl, rfl, by decide +kernel⟩⟩

theorem meets_MemoryAtomics :
    (∃ (s : State) (k x lane code : Nat) (co : Core) (op : AsyncOp) (p : Part) (y : Acc), s.core? k = some co ∧
    co.asyncs.get x = some op ∧ op.kind = .atomM code ∧ ((op.parts.find? fun p => p.accs.any fun y => y.lane == lane
    && !y.done) = some p) ∧ ((p.accs.find? fun y => y.lane == lane && !y.done) = some y) ∧ s.partReady k op p = true
    ∧ p.target ≤ 7 ∧ ((∀ q ∈ op.parts, ∀ z ∈ q.accs, z.va = y.va → z.done = false → lane ≤ z.lane)) ∧ y.pre = [] ∧
    s.isLost y.pa y.len = false ∧ s.writeLost y.pa y.len = false ∧ op.sampled = false) ∧
    (∃ (n w x c : Nat), (n = 4 ∨ n = 8) ∧ w < 2 ^ (8 * n) ∧ x < 2 ^ (8 * n) ∧ c < 2 ^ (8 * n)) :=
  ⟨⟨wS wCx { wCo with asyncs := [(5, wOp (.atomM 0) [⟨0, 0, .sent, [⟨0, 0x40001000, 64, 4, 0x40001000, [1, 2, 3, 4],
                        false, []⟩], 0, 0⟩])], shared := [(4, 4)] } wTm wSp, 0, 5, 0, 0, _, _, _, _, rfl, rfl, rfl,
    rfl, rfl, by decide +kernel, by decide +kernel, by decide +kernel, rfl, by decide +kernel⟩,
    ⟨8, 2 ^ 64 - 1, 2 ^ 64 - 1, 0, Or.inr rfl, by decide +kernel⟩⟩

theorem meets_PartsFailOrLeave :
    (∃ (s : State) (k x kind link pctx addr : Nat) (co : Core) (op : AsyncOp) (p : Part) (y : Acc), s.core? k = some
    co ∧ co.asyncs.get x = some op ∧ op.kind = .portWr ∧ op.parts = [p] ∧ p.accs = [y] ∧ y.done = false ∧ p.target =
    10 ∧ s.partReady k op p = true ∧ op.sampled = false ∧ s.resolve k (s.regionOf k op.crew) y.va y.len .w (some
    true) = .at' (.port kind link pctx addr)) ∧
    (∃ (s : State) (k x i reason : Nat) (co : Core) (op : AsyncOp) (p : Part) (tm : Team) (e : Instr), s.core? k =
    some co ∧ co.asyncs.get x = some op ∧ op.part? i = some p ∧ ((∀ y ∈ p.accs, y.done = false)) ∧ p.accs ≠ [] ∧
    co.teams.get op.team = some tm ∧ tm.order = op.order ∧ tm.frozen = false ∧ op.sampled = false ∧ ((p.state =
    .failing reason ∧ (∀ a b c, op.kind ≠ .scrub a b c) ∧ e = .asyncPartFail k x i ∧ (op.kind = .ldBlk ∨ op.kind =
    .stBlk → op.parts.head? = some p)) ∨ (p.target = 10 ∧ p.state = .sent ∧ op.parts.head? = some p ∧ e =
    .portReadFail k x i ∧ ∃ y kind l, p.accs.head? = some y ∧ s.portOf k op y = some (kind, l) ∧ ((op.kind = .ldBlk ∧
    kind ≠ 2 ∧ reason = 4) ∨ ((op.kind = .ldBlk ∨ op.kind = .stBlk) ∧ kind = 2 ∧ reason = 2))))) :=
  ⟨⟨{ wS { wCx with ports := [(0, ⟨0x1000, BitVec.ofNat 64 (4 + 1 + 16 + 12 * 2 ^ 58)⟩)] }
    { wCo with asyncs := [(5, wOp (.portWr) [⟨0, 10, .sent, [⟨0, 0x01FE000000000000, 64, 4, 0, [1, 2, 3, 4], false,
                []⟩], 0, 0⟩])], shared := [(4, 4)] } wTm wSp with links := [(1, ⟨.up, false, [], 0, 0, false⟩)] }, 0,
    5, _, _, _, _, _, _, _, _, rfl, rfl, rfl, rfl, rfl, rfl, rfl, by decide +kernel, rfl, rfl⟩,
    ⟨wS wCx { wCo with asyncs := [(5, wOp (.gather) [⟨0, 0, .failing 4, [⟨0, 0x40001000, 64, 4, 0x40001000, [1, 2, 3,
                        4], false, []⟩], 0, 0⟩])], shared := [(4, 4)] } wTm wSp, 0, 5, 0, _, _, _, _, _, _, rfl, rfl,
    rfl, by decide +kernel, by decide +kernel, rfl, rfl, rfl, rfl, Or.inl ⟨rfl, by simp [wOp], rfl, by simp [wOp]⟩⟩⟩

theorem meets_ChannelProgress :
    (∃ (s : State) (k ch : Nat) (co : Core) (c : Chan) (pl : Place) (r r1 : ChanRec) (s1 s2 : State), Claims.ChanFree
    s k ch co c ∧ c.state = .running ∧ c.cur = none ∧ c.fail = none ∧ c.recVa ≠ 0 ∧ c.recVa / 2 % 32 = 0 ∧
    s.chanOwnTry k c 0 .r (c.recVa / 64 * 64) 64 = .ok pl ∧ s1 = s.chanBefore k c false 0 pl 64 ∧ r1 = ChanRec.read
    (s1.readAt pl 64) ∧ s2 = s1.chanBefore k c (r1.ctl.getLsbD 1) (r1.ctl.extractLsb' 3 3).toNat pl 64 ∧ r =
    ChanRec.read (s2.readAt pl 64)) ∧
    (∃ (s : State) (k ch code cn : Nat) (co : Core) (c : Chan) (x : Ctx), Claims.ChanFree s k ch co c ∧ s.ctxOf k =
    some (cn, x) ∧ c.state = .running ∧ c.cur = none ∧ c.recVa ≠ 0 ∧ c.recVa / 2 % 32 = 0 ∧ (c.fail = some code ∨
    (c.fail = none ∧ s.chanTry k c .r none (c.recVa / 64 * 64) 64 = .fail code))) ∧
    (∃ (s : State) (k ch a b n pa pb : Nat) (co : Core) (c : Chan) (r : ChanRec), Claims.ChanFree s k ch co c ∧
    c.state = .running ∧ c.pend = none ∧ c.fail = none ∧ c.cur = some r ∧ r.segment c.done = (a, b, n) ∧ s.chanTry k
    c .r (some false) a n = .ok (.mem pa) ∧ s.chanTry k c .w (some true) b n = .ok (.mem pb)) ∧
    (∃ (s : State) (k ch a b n : Nat) (co : Core) (c : Chan) (r : ChanRec) (p q : Place) (e : Instr) (status : Nat),
    Claims.ChanFree s k ch co c ∧ Claims.ChanQuiet s k c ∧ c.pend = none ∧ c.fail = none ∧ c.cur = some r ∧ c.slots =
    some 0 ∧ ((r.ctl.getLsbD 2 = true → co.clear c.relW = true)) ∧ r.segment c.done = (a, b, n) ∧ s.chanTry k c .r
    (some false) a n = .ok p ∧ s.chanTry k c .w (some true) b n = .ok q ∧ ((c.state = .running ∧ c.done + n = r.total
    ∧ e = .chanSegmentAck k ch ∧ status = 0) ∨ (c.state = .stopping ∧ e = .chanStopDone k ch ∧ status = 2))) ∧
    (∃ (s s0 s1 v : State) (k ch status code pa pb : Nat) (c : Chan) (r : ChanRec) (named on : Bool), s.chan? k ch =
    some c ∧ c.cur = some r ∧ c.state = .running ∧ status < 8 ∧ r.cpl ≠ 0 ∧ s.chanOwnTry k c 0 .w r.cpl 32 = .ok
    (.mem pa) ∧ (named = decide (status = 0 ∧ r.next ≠ 0 ∧ r.next / 2 % 32 = 0)) ∧ ((if named then (∃ pn,
    s.chanOwnTry k c 1 .r (r.next / 64 * 64 + 8) 8 = .ok (.mem pn) ∧ on = (Memory.get s.mem pn).getLsbD 0 ∧ s1 =
    s.doneRuns (s.chanAgent k c 1) [(pn, 8)]) ∨ (((∃ page, s.chanOwnTry k c 1 .r (r.next / 64 * 64 + 8) 8 = .hold
    page) ∨ ∃ why, s.chanOwnTry k c 1 .r (r.next / 64 * 64 + 8) 8 = .fail why) ∧ on = true ∧ s1 = s) else on = false
    ∧ s1 = s)) ∧ (s0 = (if on then s1 else ((if named then s1.updChan k ch fun c =>
    { c with cur := some { r with next := 0 } } else s1).dropItem k c.item).updChan k ch fun c =>
    { c with item := none })) ∧ v = s0.chanPut k c 0 r.cpl (.mem pa) (slotBytes status code c.done c.wrote c.recVa
    r.tag s.tstamp) ∧ v.chanOwnTry k c 2 .w (c.recVa + 8) 8 = .ok (.mem pb)) ∧
    (∃ (s : State) (k t p va : Nat) (co : Core) (tm : Team) (sp : Split) (w : Crew), s.core? k = some co ∧
    co.teams.get t = some tm ∧ tm.splits.get p = some sp ∧ co.crews.get tm.crew = some w ∧ sp.state = .waiting) :=
  ⟨⟨{ wS wCx ({ wCo with chans := [(7, wChan 0x40004000 none 0)] }) wTm wSp with calGot := wGot
                                                                                   [(State.reset.chanAgent 0 (wChan 0
                                                                                   none 0) 0).id] }, 0, 7, _, _, .mem
    0x40004000, _, _, _, _, by unfold Claims.ChanFree; exact ⟨rfl, rfl, rfl, rfl, rfl⟩, rfl, rfl, rfl,
    by decide +kernel, by decide +kernel, by decide +kernel, rfl, rfl, rfl, rfl⟩,
    ⟨wS wCx { wCo with chans := [(7, wChan 0x200000000004000 none 0)] } wTm wSp, 0, 7, _, 0, _, _, _,
    by unfold Claims.ChanFree; exact ⟨rfl, rfl, rfl, rfl, rfl⟩, rfl, rfl, rfl, by decide +kernel, by decide +kernel,
    Or.inr ⟨rfl, rfl⟩⟩,
    ⟨wS wCx { wCo with chans := [(7, wChan 0x40004000 (some ⟨0, 65, 0x40001000, 0x40002000, 4096, 2, 4096, 4096,
                        0x40003000, 7⟩) 0)] } wTm wSp, 0, 7, 0x40001000, 0x40002000, 4096, 0x40001000, 0x40002000, _,
    _, _, by unfold Claims.ChanFree; exact ⟨rfl, rfl, rfl, rfl, rfl⟩, rfl, rfl, rfl, rfl, by decide +kernel⟩,
    ⟨wS wCx { wCo with chans := [(7, wChan 0x40004000 (some ⟨0, 65, 0x40001000, 0x40002000, 4096, 2, 4096, 4096,
                        0x40003000, 7⟩) 4096)] } wTm wSp, 0, 7, 0x40002000, 0x40003000, 4096, _, _, _, .mem
    0x40002000, .mem 0x40003000, _, _, by unfold Claims.ChanFree; exact ⟨rfl, rfl, rfl, rfl, rfl⟩,
    by unfold Claims.ChanQuiet; decide +kernel, rfl, by decide +kernel, rfl, rfl,
    by refine ⟨?_, ?_, ?_, ?_, Or.inl ⟨rfl, by decide +kernel, rfl, rfl⟩⟩ <;> decide +kernel⟩,
    ⟨{ wS wCx ({ wCo with chans := [(7, wChan 0x40004000 (some ⟨0, 65, 0x40001000, 0x40002000, 4096, 2, 4096, 4096,
                           0x40003000, 7⟩) 8192)] }) wTm wSp with calGot := wGot [(State.reset.chanAgent 0 (wChan 0
                                                                   none 0) 0).id, (State.reset.chanAgent 0 (wChan 0
                                                                   none 0) 1).id, (State.reset.chanAgent 0 (wChan 0
                                                                   none 0) 2).id] }, _, _, _, 0, 7, 0, 0, 0x40003000,
    0x40004008, _, _, false, false, rfl, rfl, rfl,
    by refine ⟨?_, ?_, ?_, ?_, Eq.mpr (if_neg Bool.false_ne_true) ⟨rfl, rfl⟩, rfl, rfl, by decide +kernel⟩ <;> decide +kernel⟩,
    ⟨wS wCx wCo wTm { wSp with state := .waiting, wait := .ring 0x40001000 }, 0, 0, 0, 0, _, _, _, _, rfl, rfl, rfl,
    rfl, by decide +kernel⟩⟩

theorem meets_MatrixProgress :
    (∃ (s : State) (k x : Nat) (co : Core) (m : MatOp) (tile : Tile), s.core? k = some co ∧ co.inUnit = none ∧
    co.nextLoop = some (x, m) ∧ co.mats.get x = some m ∧ co.tiles.get m.tile = some tile ∧ co.tileFree m.tile x =
    true ∧ co.clear m.afterR = true ∧ s.abandons k = false) ∧
    (∃ (co : Core) (b : Nat × MatOp), co.oldestLoop = some b ∧ ((∀ e ∈ co.mats, e.2.isLoop = true → e.2.page = none →
    e.2.fail = none → e.2.tile = b.2.tile → e = b))) ∧
    (∃ (co : Core) (b e : Nat × MatOp), co.oldestLoop = some b ∧ co.nextLoop = some e) ∧
    (∃ (s : State) (k x : Nat) (co : Core) (m : MatOp) (tile : Tile) (l : LoopPar) (i : GroupIn) (step group : Nat),
    (step = (if m.group = 7 then m.step + 1 else m.step)) ∧ (group = (if m.group = 7 then 0 else m.group + 1)) ∧
    s.loopAt k = some (x, m) ∧ s.core? k = some co ∧ co.mats.get x = some m ∧ m.body = .loop l ∧ co.tiles.get m.tile
    = some tile ∧ m.group < 8) ∧
    (∃ (s : State) (k x page c : Nat) (co : Core) (m : MatOp) (l : LoopPar) (cx : Ctx), s.loopAt k = some (x, m) ∧
    s.core? k = some co ∧ co.mats.get x = some m ∧ s.ctxOf k = some (c, cx) ∧ m.body = .loop l ∧ s.groupIn k x m l =
    .error (.hold page)) ∧
    (∃ (s : State) (k x code : Nat) (co : Core) (m : MatOp) (l : LoopPar) (tile : Tile), s.core? k = some co ∧
    co.mats.get x = some m ∧ m.body = .loop l ∧ co.tiles.get m.tile = some tile ∧ tile.leaving = false ∧ ((∀ e ∈
    co.mats, e.2.fail = none)) ∧ s.loopAt k = some (x, m) ∧ s.groupIn k x m l = .error (.fail code) ∧ s.linkHolds
    m.slots code = false) ∧
    (∃ (fmt : W64) (n : Nat) (old : W32) (xs ys : List FVal) (xi yi : List Nat), fmt.getLsbD 11 = false) ∧
    (∃ (s : State) (k x c pa va : Nat) (co : Core) (m : MatOp) (p : StorePar) (tile : Tile) (cx : Ctx) (rows : List
    Nat), s.core? k = some co ∧ co.mats.get x = some m ∧ s.ctxOf k = some (c, cx) ∧ m.body = .store p ∧ co.tiles.get
    m.tile = some tile ∧ tile.leaving = false ∧ co.storeReady x m = true ∧ m.fail = none ∧ ((m.item.isSome = true ∨
    s.abandons k = false)) ∧ m.paid ≤ m.row ∧ m.row < 63 ∧ s.storeRows k x m p = .ok rows ∧ s.rowPlaces k x m p rows
    = .ok [(.mem pa, va, 0, p.rowBytes)]) ∧
    (∃ (s : State) (k x code : Nat) (co : Core) (m : MatOp) (p : StorePar) (tile : Tile) (rows : List Nat), s.core? k
    = some co ∧ co.mats.get x = some m ∧ m.body = .store p ∧ co.tiles.get m.tile = some tile ∧ co.storeReady x m =
    true ∧ ((m.item.isSome = true ∨ s.abandons k = false)) ∧ m.paid ≤ m.row ∧ m.row < 63 ∧ m.fail = none ∧
    s.storeRows k x m p = .ok rows ∧ s.rowPlaces k x m p rows = .error (.fail code) ∧ s.linkHolds m.slots code =
    false) :=
  ⟨⟨wS wCx { wCo with tiles := [(31, wTile)], mats := [(3, (wMat (.loop
                        ({ abase := 0x01FF000000000000, bbase := 0x01FF000000000000, astride := 0, bstride := 0, ainc
                            := 0, binc := 0, count := 2, fmt := 0x22, ascale := 0, bscale := 0, index := none }))
                        false 0 0))] } wTm wSp, 0, 3, _, _, _, rfl, by decide +kernel, rfl, rfl, rfl,
    by decide +kernel⟩,
    ⟨{ wCo with tiles := [(31, wTile)], mats := [(3, (wMat (.loop
                 ({ abase := 0x01FF000000000000, bbase := 0x01FF000000000000, astride := 0, bstride := 0, ainc := 0,
                     binc := 0, count := 2, fmt := 0x22, ascale := 0, bscale := 0, index := none })) false 0 0))] },
    _, rfl, by decide +kernel⟩,
    ⟨{ wCo with tiles := [(31, wTile)], mats := [(3, (wMat (.loop
                 ({ abase := 0x01FF000000000000, bbase := 0x01FF000000000000, astride := 0, bstride := 0, ainc := 0,
                     binc := 0, count := 2, fmt := 0x22, ascale := 0, bscale := 0, index := none })) false 0 0))] },
    _, _, rfl, rfl⟩,
    (have ⟨i, hi⟩ := ok_of (x := (wS wCx ({ wCo with tiles := [(31, wTile)], mats := [(3, (wMat (.loop
                                                      ({ abase := 0x01FF000000000000, bbase := 0x01FF000000000000,
                                                          astride := 0, bstride := 0, ainc := 0, binc := 0, count :=
                                                          2, fmt := 0x22, ascale := 0, bscale := 0, index := none }))
                                                      true 7 0))] }) wTm wSp).groupIn 0 3 ((wMat (.loop
    ({ abase := 0x01FF000000000000, bbase := 0x01FF000000000000, astride := 0, bstride := 0, ainc := 0, binc := 0,
        count := 2, fmt := 0x22, ascale := 0, bscale := 0, index := none })) true 7 0))
    ({ abase := 0x01FF000000000000, bbase := 0x01FF000000000000, astride := 0, bstride := 0, ainc := 0, binc := 0,
        count := 2, fmt := 0x22, ascale := 0, bscale := 0, index := none })) (by decide +kernel); ⟨wS wCx
    { wCo with tiles := [(31, wTile)], mats := [(3, (wMat (.loop
                ({ abase := 0x01FF000000000000, bbase := 0x01FF000000000000, astride := 0, bstride := 0, ainc := 0,
                    binc := 0, count := 2, fmt := 0x22, ascale := 0, bscale := 0, index := none })) true 7 0))] } wTm
    wSp, 0, 3, _, (wMat (.loop ({ abase := 0x01FF000000000000, bbase := 0x01FF000000000000, astride := 0, bstride :=
                                   0, ainc := 0, binc := 0, count := 2, fmt := 0x22, ascale := 0, bscale := 0, index
                                   := none })) true 7 0), _,
    { abase := 0x01FF000000000000, bbase := 0x01FF000000000000, astride := 0, bstride := 0, ainc := 0, binc := 0,
       count := 2, fmt := 0x22, ascale := 0, bscale := 0, index := none }, i, _, _, rfl, rfl, rfl, rfl, rfl,
    by decide +kernel, rfl, by decide +kernel⟩),
    ⟨wS wCx { wCo with tiles := [(31, wTile)], mats := [(3, (wMat (.loop
                        ({ abase := 0x01FF000000000000, bbase := 0x80000000, astride := 0, bstride := 0, ainc := 0,
                            binc := 0, count := 2, fmt := 0x22, ascale := 0, bscale := 0, index := none })) true 0
                        0))] } wTm wSp, 0, 3, 0x8000, 0, _, _,
    { abase := 0x01FF000000000000, bbase := 0x80000000, astride := 0, bstride := 0, ainc := 0, binc := 0, count := 2,
       fmt := 0x22, ascale := 0, bscale := 0, index := none }, _, rfl, rfl, rfl, rfl, by decide +kernel, err_of
    (by decide +kernel)⟩,
    ⟨wS wCx { wCo with tiles := [(31, wTile)], mats := [(3, (wMat (.loop
                        ({ abase := 0x01FF000000000000, bbase := 0x01FF000000002000, astride := 0, bstride := 0, ainc
                            := 0, binc := 0, count := 2, fmt := 0x22, ascale := 0, bscale := 0, index := none }))
                        true 0 0))] } wTm wSp, 0, 3, 0x0301, _, _,
    { abase := 0x01FF000000000000, bbase := 0x01FF000000002000, astride := 0, bstride := 0, ainc := 0, binc := 0,
       count := 2, fmt := 0x22, ascale := 0, bscale := 0, index := none }, _, rfl, rfl, by decide +kernel, rfl,
    by decide +kernel, by decide +kernel, rfl, err_of (by decide +kernel), by decide +kernel⟩,
    ⟨0x22, 0, 0, [], [], [], [], by decide +kernel⟩,
    ⟨wS wCx { wCo with tiles := [(31, wTile)], mats := [(3, (wMat (.store ⟨0x40001000, 256, 0x4, 0⟩) true 0 62))] }
    wTm wSp, 0, 3, 0, 0x40004E00, 0x40004E00, _, _, _, _, _, _, rfl, rfl, rfl, rfl, rfl, by decide +kernel,
    by decide +kernel, by decide +kernel, Or.inr (by decide +kernel), by decide +kernel, by decide +kernel, rfl, rfl⟩,
    ⟨wS wCx { wCo with tiles := [(31, wTile)], mats := [(3, (wMat (.store ⟨0x200000000001000, 256, 0x4, 0⟩) true 0
                        62))] } wTm wSp, 0, 3, _, _, _, _, _, _, rfl, rfl, rfl, rfl, by decide +kernel, Or.inr
    (by decide +kernel), by decide +kernel, by decide +kernel, by decide +kernel, rfl, rfl, by decide +kernel⟩⟩

theorem meets_PageEntries :
    (∃ (s : State) (c va level a : Nat) (e : W64) (x : Ctx) (owner pa size : Nat), s.ctx? c = some x ∧ entryAt s.mem
    va level 4 x.root = some a ∧ s.rkUp = true ∧ e.getLsbD 0 = true ∧ entryOk level e = true ∧ (s.pa64 a).testBit 0 =
    false ∧ s.pa64 a < 2 ^ 64 ∧ va < 2 ^ 57 ∧ va / 2 ^ 48 ≠ 0x1FF ∧ (owner = (if e.getLsbD 1 = true then c else
    4096)) ∧ ((pa, size) = (if e.getLsbD 1 = true then (entryPa e, regionSize level) else (entryPa e / 65536 * 65536,
    65536)))) ∧
    (∃ (s : State) (c va level a : Nat) (e : W64) (x : Ctx) (pinned : Prop), s.ctx? c = some x ∧ entryAt s.mem va
    level 4 x.root = some a ∧ s.rkUp = true ∧ ((e.getLsbD 0 = true → entryOk level e = true)) ∧ s.pa64 a < 2 ^ 64 ∧
    (s.pa64 a).testBit 0 = true ∧ unwalked va = false ∧ (pinned = (e.getLsbD 0 = true ∧ e.getLsbD 1 = true ∧
    e.getLsbD 5 = true))) ∧
    (∃ (s : State) (c va a l : Nat) (e : W64) (x : Ctx), s.ctx? c = some x ∧ s.leaf c va = some (a, l, e) ∧ s.rkUp =
    true) :=
  ⟨⟨wS wCx wCo wTm wSp, 0, 0x80000000, 2, _, 0x8000001F, _, _, _, _, rfl, rfl,
    by refine ⟨?_, ?_, ?_, ?_, ?_, ?_, by decide +kernel, rfl, rfl⟩ <;> decide +kernel⟩,
    ⟨wS wCx wCo wTm wSp, 0, 0x40000000, 2, _, 0x4000001F, _, _, rfl, rfl, by decide +kernel, (fun _ =>
    by decide +kernel), by decide +kernel, by decide +kernel, by decide +kernel, rfl⟩,
    ⟨wS wCx wCo wTm wSp, 0, 0x40000000, _, _, _, _, rfl, rfl, by decide +kernel⟩⟩

theorem meets_FaultService :
    (∃ (s : State) (c va : Nat) (x : Ctx), s.ctx? c = some x ∧ s.rkUp = true ∧ va / 65536 ∈ x.faulting) ∧
    (∃ (co : Core) (page x : Nat) (op : AsyncOp) (p : Part), co.asyncs.get x = some op ∧ p ∈ op.parts ∧ p.state =
    .held page) ∧
    (∃ (s : State) (c va b n : Nat) (x : Ctx), s.ctx? c = some x ∧ x.retiring = [(b, n)] ∧ b ≤ va ∧ va < b + n) :=
  ⟨⟨wS { wCx with faulting := [0x8000] } wCo wTm wSp, 0, 0x80000000, _, rfl, by decide +kernel⟩,
    ⟨{ wCo with asyncs := [(5, wOp (.gather) [⟨0, 0, .held 0x8000, [⟨0, 0x40001000, 64, 4, 0x40001000, [1, 2, 3, 4],
                 false, []⟩], 0, 0⟩])], shared := [(4, 4)] }, 0x8000, 5, _, _, rfl, List.mem_singleton.mpr rfl, rfl⟩,
    ⟨wS { wCx with retiring := [(0x40000000, 0x40000000)] } wCo wTm wSp, 0, 0x40000000, 0x40000000, 0x40000000, _,
    rfl, rfl, by decide +kernel⟩⟩

theorem meets_PlotStates :
    (∃ (s : State) (c p : Nat), s.rkUp = true ∧ p < 64) ∧
    (∃ (s : State) (p : Nat), (s.plot p).state = .waking) ∧
    (∃ (s : State) (p : Nat), (s.plot p).state = .warm ∧ s.plotPinned p = false ∧ 200000 ≤ (s.tstamp - (s.plot
    p).last).toNat ∧ ((∀ c ∈ (s.plot p).owners, ∀ x, s.ctx? c = some x → x.permits p s.tstamp = true))) ∧
    (∃ (s : State) (c p : Nat), s.rkUp = true ∧ c ∈ (s.plot p).owners ∧ ((∀ h ∈ s.frameHolds, h.owner = c → h.pa < 2
    ^ 39 → h.pa / 2 ^ 33 ≠ p)) ∧ ((∀ d ∈ (s.plot p).owners, d = c)) ∧ ((s.plot p).state = .warm ∨ (s.plot p).state =
    .retention)) ∧
    (∃ (s : State) (ch : Nat), ch < 512 ∧ ch ∉ s.failedCh) ∧
    (∃ (s : State) (u : Nat), 256 * u < 2 ^ 39) ∧
    (∃ (s : State) (c : Nat) (x : Ctx) (w : BwWrite) (ws : List BwWrite), s.ctx? c = some x ∧ x.bwWrites = w :: ws) :=
  ⟨⟨wS wCx wCo wTm wSp, 0, 63, by decide +kernel⟩,
    ⟨{ State.reset with plots := [(1, ⟨.waking, 0, [], []⟩)] }, 1, by decide +kernel⟩,
    ⟨{ State.reset with plots := [(1, ⟨.warm, 0, [], []⟩)], tstamp := 200000 }, 1, by decide +kernel,
    by decide +kernel, by decide +kernel, (fun _ h => nomatch h)⟩,
    ⟨{ State.reset with plots := [(1, ⟨.retention, 0, [0], []⟩)] }, 0, 1,
    by refine ⟨?_, ?_, ?_, ?_, Or.inr rfl⟩ <;> decide +kernel⟩,
    ⟨wS wCx wCo wTm wSp, 511, by decide +kernel⟩,
    ⟨wS wCx wCo wTm wSp, 2147483647, by decide +kernel⟩,
    ⟨wS { wCx with bwWrites := [⟨1, 0, 0, 0⟩] } wCo wTm wSp, 0, _, _, _, rfl, rfl⟩⟩

theorem meets_RowDisturbance :
    ∃ (s : State) (row fn : Nat), fn ≤ 256 ∧ row < 2 ^ 39 :=
  ⟨wS wCx wCo wTm wSp, 0x7FFFFFFFFF, 256, by decide +kernel⟩

theorem meets_ContextRunsAndYields :
    (∃ (s : State) (c : Nat) (x y : Ctx), s.ctx? c = some x ∧ s.rkUp = true ∧ x.state = .created ∧ s.rereadCtx c x =
    some y ∧ s.coresFree y.cores = true ∧ s.pinsWarm c y = true ∧ y.withinBound = true) ∧
    (∃ (s : State) (c : Nat) (d : W64) (x : Ctx), s.ctx? c = some x ∧ x.state = .running) ∧
    (∃ (s : State) (c : Nat) (d : W64) (x : Ctx), s.ctx? c = some x ∧ x.state = .yielding) ∧
    (∃ (s : State) (c : Nat) (d : W64) (x : Ctx), s.ctx? c = some x ∧ x.state = .frozen ∧ x.pendPre = none ∧ d ≠ 0) :=
  ⟨⟨wRestore .created (wRecMem 0 1), 0, wStand .created, wReread .created, by decide +kernel, by decide +kernel,
    by decide +kernel, wRestore_rereads .created (by decide +kernel) (by decide +kernel) (by decide +kernel),
    by decide +kernel⟩,
    ⟨wS wCx wCo wTm wSp, 0, 5, _, rfl, rfl⟩,
    ⟨wS { wCx with state := .yielding } wCo wTm wSp, 0, 5, _, rfl, rfl⟩,
    ⟨wS { wCx with state := .frozen, before := .running } wCo wTm wSp, 0, 5, _, rfl, rfl, rfl, by decide +kernel⟩⟩

theorem meets_VacateAndRestore :
    (∃ (s : State) (c t : Nat) (x : Ctx), s.ctx? c = some x ∧ x.state = .vacating ∧ x.destroyPend = false ∧ t = min
    ((s.tstamp - x.vstart - x.frozenNs).toNat * 256 / 1000) (2 ^ 32 - 1)) ∧
    (∃ (s : State) (c : Nat) (x y : Ctx), s.ctx? c = some x ∧ s.rereadCtx c x = some y ∧ s.rkUp = true ∧ x.state =
    .saved ∧ y.withinBound = true ∧ s.restoreRoom c y = true ∧ ((∀ e ∈ s.cores, e.2.ctx ≠ some c)) ∧ ((∀ e ∈ y.saved,
    e.2.asyncs = []))) ∧
    (∃ (s : State) (c : Nat) (x : Ctx), s.ctx? c = some x ∧ x.state = .restoring ∧ x.pendPre = none) ∧
    (∃ (s : State) (c : Nat) (x : Ctx), s.ctx? c = some x) :=
  ⟨⟨wS { wCx with state := .vacating } wCo wTm wSp, 0, _, _, rfl, rfl, rfl, rfl⟩,
    ⟨wRestore .saved (wRecMem 0 1), 0, wStand .saved, wReread .saved, by decide +kernel, wRestore_rereads .saved
    (by decide +kernel) (by decide +kernel) (by decide +kernel),
    by refine ⟨?_, ?_, ?_, ?_, (fun _ h => nomatch h), by decide +kernel⟩ <;> decide +kernel⟩,
    ⟨wS { wCx with state := .restoring } wCo wTm wSp, 0, _, rfl, rfl, rfl⟩,
    ⟨wS wCx wCo wTm wSp, 0, _, rfl⟩⟩

theorem meets_KernelCrash :
    (∃ (s : State) (i : Instr), ((i = .rkHeartbeatTimeout ∧ s.rk = .up ∧ s.gated = false) ∨ (i = .rkSystemCoreFault ∧
    s.rk = .up))) ∧
    (∃ (s : State) (c : Nat) (x : Ctx), s.ctx? c = some x ∧ s.rk ≠ .givenUp ∧ x.state = .frozen) ∧
    (∃ (s : State) (c : Nat), s.rk = .crashed ∧ ((∀ e ∈ s.ctxs, e.2.state ≠ .frozen)) ∧ ((∀ x, s.ctx? c = some x →
    x.state ≠ .frozen))) ∧
    (∃ (s : State), s.rk = .crashed) :=
  ⟨⟨wS wCx wCo wTm wSp, .rkHeartbeatTimeout, Or.inl ⟨rfl, rfl, rfl⟩⟩,
    ⟨wS { wCx with state := .frozen } wCo wTm wSp, 0, _, rfl, by decide +kernel, rfl⟩,
    ⟨{ State.reset with rk := .crashed }, 0, by decide +kernel, by decide +kernel, (fun _ h => nomatch h)⟩,
    ⟨{ State.reset with rk := .crashed }, rfl⟩⟩

theorem meets_ContextPackets :
    (∃ (s v v1 : State) (fn q c : Nat) (arg : W64) (qu : Queue) (p : List W64) (y : Ctx), Claims.CtxOp s fn q 0 c arg
    qu p ∧ v = Claims.begin' s fn q qu ∧ qu.acted = false ∧ v.inUse c = false ∧ arg.toNat % 1024 = 0 ∧ v.agentTry
    (qu.operandAgent (256 * fn + q)) [] [(arg.toNat, 1024, .rw)] = .go ∧ v1 = v.agentDone (qu.operandAgent (256 * fn
    + q)) [(arg.toNat, 1024, .rw)] ∧ Ctx.ofRecord { Ctx.blank with recVa := arg.toNat, draining := s.partDraining } c
    (v1.vaRead none arg.toNat 1024) = some y ∧ y.fix ≤ y.bound) ∧
    (∃ (s v : State) (fn q op c : Nat) (arg : W64) (qu : Queue) (p : List W64) (x : Ctx) (i : Instr), Claims.CtxOp s
    fn q op c arg qu p ∧ v = Claims.begin' s fn q qu ∧ qu.acted = true ∧ s.ctx? c = some x ∧ ((i = .ctxopCreate fn q
    ∧ op = 0 ∧ x.state = .running) ∨ (i = .ctxopPreempt fn q ∧ op = 1 ∧ x.state = .saved ∧ x.pendPre = none) ∨ (i =
    .ctxopRestore fn q ∧ op = 2 ∧ x.state = .running) ∨ (i = .ctxopDestroy fn q ∧ op = 3 ∧ x.destroyPend = false))) ∧
    (∃ (s v : State) (fn q c : Nat) (arg : W64) (qu : Queue) (p : List W64) (x : Ctx), v = Claims.begin' s fn q qu ∧
    qu.acted = false ∧ s.ctx? c = some x) ∧
    (∃ (s : State) (c : Nat) (x : Ctx), s.ctx? c = some x ∧ x.draining = false) :=
  ⟨⟨wCreating (wRecMem 5 0), Claims.begin' (wCreating (wRecMem 5 0)) 256 0 wCreate, wCreating1, 256, 0, 5,
    0x40001000, wCreate, wCreateWords, wCreated, ⟨⟨by decide +kernel, rfl, by decide +kernel, rfl, rfl, rfl, rfl,
    255, rfl, Or.inr (by decide +kernel)⟩, rfl, by decide +kernel, ⟨by decide +kernel, by simp [wCreateWords]⟩,
    by decide +kernel, by decide +kernel, by decide, by decide +kernel⟩, rfl, rfl, by decide +kernel,
    by decide +kernel, by decide +kernel, rfl, (congrArg _ wCreating1_read).trans wCreated_of, by decide +kernel⟩,
    ⟨{ wS { wCx with state := .saved } wCo wTm wSp with queues := [(65536,
                                                         { Queue.blank with ctx := none, ring := 0x40006000, size :=
                                                                             16, cring := 0x40007000, state :=
                                                                             .mapped, priv := true, lane := some 255,
                                                                             packet := some [BitVec.ofNat 64 (9 * 2 ^
                                                                             56), BitVec.ofNat 64 (2 ^ 56),
                                                                             BitVec.ofNat 64 (0x77), BitVec.ofNat 64
                                                                             (0), BitVec.ofNat 64 (0), BitVec.ofNat
                                                                             64 (0), BitVec.ofNat 64 (0),
                                                                             BitVec.ofNat 64 (0)], acted := true,
                                                                             begun := true })] }, _, 256, 0, 1, 0,
    0x77, { Queue.blank with ctx := none, ring := 0x40006000, size := 16, cring := 0x40007000, state := .mapped, priv
                              := true, lane := some 255, packet := some [BitVec.ofNat 64 (9 * 2 ^ 56), BitVec.ofNat
                              64 (2 ^ 56), BitVec.ofNat 64 (0x77), BitVec.ofNat 64 (0), BitVec.ofNat 64 (0),
                              BitVec.ofNat 64 (0), BitVec.ofNat 64 (0), BitVec.ofNat 64 (0)], acted := true, begun :=
                              true }, [BitVec.ofNat 64 (9 * 2 ^ 56), BitVec.ofNat 64 (2 ^ 56), BitVec.ofNat 64
    (0x77), BitVec.ofNat 64 (0), BitVec.ofNat 64 (0), BitVec.ofNat 64 (0), BitVec.ofNat 64 (0), BitVec.ofNat 64 (0)],
    _, _, ⟨⟨by decide +kernel, rfl, by decide +kernel, rfl, rfl, rfl, rfl, 255, rfl, Or.inl rfl⟩, rfl,
    by decide +kernel, ⟨by decide +kernel, by simp⟩, by decide +kernel, by decide +kernel, by decide,
    by decide +kernel⟩, rfl, rfl, rfl, Or.inr (Or.inl ⟨rfl, rfl, rfl, rfl⟩)⟩,
    ⟨wS wCx wCo wTm wSp, _, 256, 0, 0, 0, Queue.blank, [], _, rfl, rfl, rfl⟩,
    ⟨wS wCx wCo wTm wSp, 0, _, rfl, rfl⟩⟩

theorem meets_CountersAndQueues :
    (∃ (s : State) (c va amt pa : Nat) (x : Ctx), s.ctx? c = some x ∧ s.translate c va .rw = .pa pa ∧ va ≠ 0 ∧
    Claims.Unwatched s c x va) ∧
    (∃ (s : State) (c va amt pa : Nat) (x : Ctx) (ws : List (Nat × Nat)), s.ctx? c = some x ∧ s.translate c va .rw =
    .pa pa ∧ (ws = (x.kernels.flatMap fun kn => (kn.2.recs.filter fun r => r.2.cond.any fun e => e.2.1 == va).map fun
    r => (kn.1, r.1)))) ∧
    (∃ (s : State) (c n r : Nat) (kn : Kern) (rec : PhaseRec), s.kern? c n = some kn ∧ kn.recs.get r = some rec ∧
    rec.state = .waiting) ∧
    (∃ (s : State) (k x c amt : Nat) (co : Core) (op : AsyncOp) (p : Part) (y : Acc) (ctx : Ctx), Claims.OnePart s k
    x co op p y ∧ Claims.Kept s p y ∧ s.ctxOf k = some (c, ctx) ∧ op.kind = .seqAdd amt ∧ y.len = 8) ∧
    (∃ (s : State) (k x : Nat) (co : Core) (op : AsyncOp) (p : Part) (y : Acc), Claims.OnePart s k x co op p y ∧
    Claims.Kept s p y ∧ op.kind = .seqRd) ∧
    (∃ (s : State) (c n r i : Nat) (kn : Kern) (rec : PhaseRec) (a : CommitAdd), s.kern? c n = some kn ∧ kn.recs.get
    r = some rec ∧ rec.commit[i]? = some a ∧ rec.due = true) ∧
    (∃ (s v : State) (k x c q : Nat) (co : Core) (op : AsyncOp) (p : Part) (y : Acc) (ctx : Ctx) (rq : RecQueue),
    Claims.OnePart s k x co op p y ∧ Claims.Kept s p y ∧ s.ctxOf k = some (c, ctx) ∧ op.kind = .recPush q rq.pub ∧ q
    % 64 = 0 ∧ y.data.length = y.len ∧ y.pre = [] ∧ s.recq? c q = some rq ∧ rq.acked = [] ∧ rq.bind = false ∧ v =
    s.setPa y.pa y.data) ∧
    (∃ (s : State) (k x c q n : Nat) (co : Core) (op : AsyncOp) (p : Part) (y : Acc) (ctx : Ctx) (rq : RecQueue) (os
    : List PendPop) (t : Tr), Claims.OnePart s k x co op p y ∧ s.ctxOf k = some (c, ctx) ∧ op.kind = .recPop q ∧
    y.len = 64 ∧ s.recq? c q = some rq ∧ rq.pops = ⟨k, x, n⟩ :: os ∧ rq.head < rq.pub ∧ rq.bind = false ∧ t =
    s.translate c (rq.ring + 64 * (rq.head % rq.size)) .r) ∧
    (∃ (s : State) (c desc : Nat) (ctx : Ctx) (bs : List Byte) (w : Nat → W64), s.ctx? c = some ctx ∧ s.readVa c desc
    64 = some bs ∧ w = word64s bs ∧ s.rkUp = true ∧ desc % 64 = 0 ∧ recqLegal w = true ∧ s.runWarm c desc 64 = true ∧
    s.runWarm c (w 0).toNat (64 * ((w 1).toNat % 2 ^ 32)) = true) :=
  ⟨⟨wS wCx wCo wTm wSp, 0, 0x40001000, 5, 0x40001000, _, rfl, by decide +kernel, by decide +kernel,
    by unfold Claims.Unwatched; decide +kernel⟩,
    ⟨wS { wCx with kernels := [(0, { wKn with recs := [(3,
                                               { PhaseRec.empty with state := .waiting, cond := [(0, (0x40001000,
                                                                      3))] })] })] } wCo wTm wSp, 0, 0x40001000, 5,
    0x40001000, _, _, rfl, by decide +kernel, rfl⟩,
    ⟨wS { wCx with kernels := [(0, { wKn with recs := [(3,
                                               { PhaseRec.empty with state := .waiting, cond := [(0, (0, 0))] })] })]
                    } wCo wTm wSp, 0, 0, 3, _, _, rfl, rfl, rfl⟩,
    ⟨wS wCx { wCo with asyncs := [(5, { wOp (.seqAdd 7) [⟨0, 0, .sent, [⟨0, 0x40001000, 64, 8, 0x40001000, [], false, []⟩], 0, 0⟩] with size := 8, item := some 9 })]
                        } wTm wSp, 0, 5, 0, 7, _, _, _, _, _, ⟨rfl, rfl, rfl, rfl, rfl, by decide +kernel, rfl⟩,
    Or.inr (by decide +kernel), rfl, by decide +kernel⟩,
    ⟨wS wCx { wCo with asyncs := [(5, { wOp (.seqRd) [⟨0, 0, .sent, [⟨0, 0x40001000, 64, 8, 0x40001000, [], false, []⟩], 0, 0⟩] with size := 8, item := some 9 })]
                        } wTm wSp, 0, 5, _, _, _, _, ⟨rfl, rfl, rfl, rfl, rfl, by decide +kernel, rfl⟩, Or.inr
    (by decide +kernel), rfl⟩,
    ⟨wS { wCx with kernels := [(0, { wKn with recs := [(3,
                                               { PhaseRec.empty with state := .waiting, cond := [(0, (0, 0))], commit
                                                                      := [⟨0x40001000, 5, [], false, 0⟩], due := true
                                                                      })] })] } wCo wTm wSp, 0, 0, 3, 0, _, _, _,
    rfl, rfl, rfl, rfl⟩,
    ⟨wS ({ wCx with recqs := [(0x40002000, ⟨0x40003000, 4, 0, 1, 1, false, 0, 0, [], [], []⟩)] })
    ({ wCo with asyncs := [(5, { wOp (.recPush 0x40002000 1) [⟨0, 0, .sent, [⟨0, 0x40001000, 64, 8, 0x40001000, [1, 2, 3, 4, 5, 6, 7, 8], false, []⟩], 0, 0⟩] with size := 8, item := some 9 })]
                 }) wTm wSp, _, 0, 5, 0, 0x40002000, _, _, _, _, _, _, ⟨rfl, rfl, rfl, rfl, rfl, by decide +kernel,
    rfl⟩, Or.inr (by decide +kernel), rfl,
    by refine ⟨?_, ?_, ?_, ?_, rfl, by decide +kernel, by decide +kernel, rfl⟩ <;> decide +kernel⟩,
    ⟨wS { wCx with recqs := [(0x40002000, ⟨0x40003000, 4, 0, 1, 1, false, 0, 0, [], [⟨0, 5, 0⟩], []⟩)] }
    { wCo with asyncs := [(5, { wOp (.recPop 0x40002000) [⟨0, 0, .sent, [⟨0, 0x40001000, 64, 64, 0x40001000, [], false, []⟩], 0, 0⟩] with size := 8, item := some 9 })]
                } wTm wSp, 0, 5, 0, 0x40002000, 0, _, _, _, _, _, _, _, _, ⟨rfl, rfl, rfl, rfl, rfl,
    by decide +kernel, rfl⟩, rfl, by decide +kernel, by decide +kernel, rfl, rfl, by decide +kernel,
    by decide +kernel, rfl⟩,
    ⟨{ wS wCx wCo wTm wSp with mem := Memory.setBytes (wMem) 0x40002000 (toBytes 8 (0x40003000) ++ toBytes 8 (16) ++
                                toBytes 8 (0) ++ toBytes 8 (0) ++ toBytes 8 (0) ++ toBytes 8 (0x10000) ++ toBytes 8
                                (0) ++ toBytes 8 (0)) }, 0, 0x40002000, _, toBytes 8 (0x40003000) ++ toBytes 8 (16)
    ++ toBytes 8 (0) ++ toBytes 8 (0) ++ toBytes 8 (0) ++ toBytes 8 (0x10000) ++ toBytes 8 (0) ++ toBytes 8 (0), _,
    rfl, by decide +kernel, rfl, by decide +kernel⟩⟩

theorem meets_Placement :
    (∃ (s : State) (c n back k slot base : Nat) (x : Ctx) (kn : Kern) (credit : Option Nat) (rest : List (Option
    Nat)) (co : Core) (srcs : List Nat), s.ctx? c = some x ∧ s.kern? c n = some kn ∧ kn.queued = credit :: rest ∧
    srcs = kn.freeRecs.take kn.teams ∧ s.coreFor c x kn.shape = some k ∧ s.core? k = some co ∧ co.crews.lowestFree 16
    0 = some slot ∧ co.findRegion kn.shared = some base ∧ s.rkUp = true ∧ x.state = .running ∧ kn.state ≠ .unloaded ∧
    srcs.length = kn.teams ∧ backFits back kn.teams = true ∧ s.backWarm back = true) ∧
    (∃ (s : State) (c n back k slot base ri pos : Nat) (x : Ctx) (kn : Kern) (rest ps : List Nat) (r : PhaseRec) (co
    : Core), s.ctx? c = some x ∧ s.kern? c n = some kn ∧ kn.readyQ = ri :: rest ∧ kn.recs.get ri = some r ∧ s.coreFor
    c x (kn.recShape r) = some k ∧ s.core? k = some co ∧ co.crews.lowestFree 16 0 = some slot ∧ co.findRegion
    kn.shared = some base ∧ co.freePositions x.pool = pos :: ps ∧ s.rkUp = true ∧ x.state = .running ∧ kn.state ≠
    .unloaded ∧ backFits back 1 = true ∧ s.backWarm back = true) ∧
    (∃ (s : State) (k r c : Nat) (co : Core) (ctx : Ctx) (w : Crew), s.core? k = some co ∧ s.ctxOf k = some (c, ctx)
    ∧ co.crews.get r = some w ∧ w.credit = none ∧ co.dir = [] ∧ s.crewBusy k r co = false) :=
  ⟨⟨wS { wCx with kernels := [(0, { wKn with queued := [none], records := 1, recs := [(0, PhaseRec.empty)], vregs :=
                                               16, sregs := 8 })] } wCo wTm wSp, 0, 0, 0x100000, 0, 1, 8192, _, _, _,
    _, _, _, rfl, rfl, rfl, rfl, by decide +kernel, rfl, by decide +kernel⟩,
    ⟨wS { wCx with kernels := [(0, { wKn with readyQ := [3], records := 4, recs := [(3,
                                               { PhaseRec.empty with state := .ready, lanes := 16, carry := 4, sregs
                                                                      := 8 })] })] } wCo wTm wSp, 0, 0, 0x100000, 0,
    1, 8192, 3, 1, _, _, _, _, _, _, rfl, rfl, rfl, rfl, by decide +kernel, rfl, by decide +kernel,
    by decide +kernel, rfl, by decide +kernel⟩,
    ⟨wS wCx { wCo with crews := [(0, wCrew), (15, ⟨0, 1, 8192, 0, [], 0, none, false⟩)] } wTm wSp, 0, 15, 0, _, _, _,
    rfl, rfl, rfl, rfl, rfl, by decide +kernel⟩⟩

theorem meets_PhaseRecords :
    (∃ (s : State) (k t c r n : Nat) (entry : W64) (co : Core) (tm : Team) (x : Ctx) (kn : Kern), s.core? k = some co
    ∧ co.teams.get t = some tm ∧ s.ctxOf k = some (c, x) ∧ x.kernels.get tm.kernel = some kn ∧ tm.phase = some (n,
    entry) ∧ kn.freeRec = some r ∧ tm.state = .phasing ∧ s.teamIdle k t tm = true) ∧
    (∃ (s : State) (c n r : Nat) (kn : Kern) (rec : PhaseRec), s.kern? c n = some kn ∧ kn.recs.get r = some rec ∧
    rec.state = .writing ∧ rec.src ≠ some r) :=
  ⟨⟨wS { wCx with kernels := [(0, { wKn with records := 3, recs := [(2, PhaseRec.empty)] })] } wCo
    { wTm with state := .phasing, phase := some (8, 0x40000010) } wSp, 0, 0, 0, _, _, _, _, _, _, _, rfl, rfl, rfl,
    rfl, rfl, rfl, rfl, by decide +kernel⟩,
    ⟨wS { wCx with kernels := [(0, { wKn with recs := [(2, { PhaseRec.empty with state := .writing, src := some 3 })]
                                               })] } wCo wTm wSp, 0, 0, 2, _, _, rfl, rfl, rfl, by decide +kernel⟩⟩

theorem meets_KernelLoads :
    (∃ (s v v1 v2 : State) (fn q tid c va : Nat) (qu : Queue) (p : List W64) (x : Ctx) (d : KDesc) (h : List Byte),
    Claims.Kload s v fn q c va qu p x d ∧ d.op = 0 ∧ Claims.Made v v1 (256 * fn + q) 1 qu [(d.image, 64, .r)] ∧ h =
    v1.vaRead (some c) d.image 64 ∧ v1.kcheck c x d h = none ∧ Claims.Made v1 v2 (256 * fn + q) 2 qu [(d.image,
    imageSize h, .r), (d.pool, d.records * (((0x380 + 4 * hdrField h 0x1A 2 * d.maxcarry + 63) / 64) * 64), .rw)]) ∧
    (∃ (s v : State) (fn q c va : Nat) (qu : Queue) (p : List W64) (x : Ctx) (d : KDesc) (kn : Kern), Claims.Kload s
    v fn q c va qu p x d ∧ d.op = 1 ∧ x.kernels.get d.load = some kn) ∧
    (∃ (s : State) (c n : Nat) (x : Ctx) (kn : Kern), s.ctx? c = some x ∧ s.kern? c n = some kn ∧ kn.state = .closing
    ∧ kn.queued = [] ∧ ((∀ e ∈ kn.recs, e.2.state ≠ .ready ∧ e.2.state ≠ .placed ∧ e.2.state ≠ .writing)) ∧
    s.kernelRuns c n x = false) ∧
    (∃ (s : State) (c n : Nat) (kn : Kern) (f : FaultInfo), s.kern? c n = some kn ∧ s.heldFault c n = some f ∧ s.rkUp
    = true ∧ kn.state ≠ .unloaded) :=
  ⟨⟨wKlS { wCx with kernels := [] } 0, wKlV { wCx with kernels := [] } 0, wKlV { wCx with kernels := [] } 0, wKlV
    { wCx with kernels := [] } 0, 0, 7, 0, 0, 0x40001000, wKlQ, wKlP, _, ⟨0x40002000, 0x100, 0x40004000, 0, 1, 0, 0,
    1, 0, true⟩, wKlHdr, ⟨⟨by decide +kernel, rfl, by decide +kernel, rfl, rfl, rfl, rfl, 255, rfl, Or.inr
    (by decide +kernel)⟩, ⟨by decide +kernel, by simp [wKlP]⟩, by decide +kernel, by decide, by decide, rfl,
    by decide +kernel, rfl, Or.inl ⟨by decide +kernel, ⟨0, by decide +kernel⟩, rfl⟩, by decide +kernel⟩,
    by decide +kernel, Or.inl ⟨by decide +kernel, ⟨0, by decide +kernel⟩, rfl⟩, by decide +kernel, by decide +kernel,
    Or.inl ⟨by decide +kernel, ⟨0, by decide +kernel⟩, rfl⟩⟩,
    ⟨wKlS wCx 1, wKlV wCx 1, 0, 7, 0, 0x40001000, wKlQ, wKlP, _, ⟨0x40002000, 0x100, 0x40004000, 1, 1, 0, 0, 1, 0,
    true⟩, _, ⟨⟨by decide +kernel, rfl, by decide +kernel, rfl, rfl, rfl, rfl, 255, rfl, Or.inr (by decide +kernel)⟩,
    ⟨by decide +kernel, by simp [wKlP]⟩, by decide +kernel, by decide, by decide, rfl, by decide +kernel, rfl, Or.inl
    ⟨by decide +kernel, ⟨0, by decide +kernel⟩, rfl⟩, by decide +kernel⟩, by decide +kernel, rfl⟩,
    ⟨{ wS ({ wCx with kernels := [(0, { wKn with state := .closing })] }) wCo wTm wSp with cores := [] }, 0, 0, _, _,
    rfl, rfl, rfl, rfl, by decide +kernel⟩,
    ⟨wS wCx wCo { wTm with state := .held, fault := some ⟨0x0004, 0, 0x40000004, 0, 0, 0⟩ } wSp, 0, 0, _, _, rfl,
    rfl, by decide +kernel⟩⟩

theorem meets_QueueStatesAndSweeps :
    (∃ (s : State) (fn q key : Nat) (tail : BitVec 32) (y : Queue), key = 256 * fn + q ∧ s.queues.get key = some y ∧
    (s.link 0).serves = true) ∧
    (∃ (s : State) (fn q lane key : Nat) (y : Queue) (fresh : Bool) (rivals : List (Nat × Queue)) (weight used : Nat
    → Nat), key = 256 * fn + q ∧ q < 256 ∧ s.queues.get key = some y ∧ s.eligible y = true ∧ lane < 256 ∧ ((∀ e ∈
    s.queues, e.2.lane ≠ some lane)) ∧ (s.usedSlots fn y.priv < (if y.priv then 8 else (s.slotsOf fn).slots)) ∧
    (rivals = (s.queues.filter fun e => s.eligible e.2 && e.2.priv == y.priv && (y.priv || e.1 / 256 == fn))) ∧ ((∀ e
    ∈ rivals, y.priv = true ∨ e.2.pid = y.pid → e = (key, y) ∨ y.goesBefore e.2 = true)) ∧ ((∀ p, weight p =
    ((s.slotsOf fn).weights.get p).getD 1)) ∧ ((∀ p, used p = ((s.slotsOf fn).used.get p).getD 0)) ∧ (y.priv = true ∨
    (fresh = false ∧ used y.pid < weight y.pid ∧ ∀ e ∈ rivals, used e.2.pid < weight e.2.pid → y.pid ≤ e.2.pid) ∨
    (fresh = true ∧ (∀ e ∈ rivals, weight e.2.pid ≤ used e.2.pid) ∧ 0 < weight y.pid ∧ ∀ e ∈ rivals, 0 < weight
    e.2.pid → y.pid ≤ e.2.pid))) ∧
    (∃ (s : State) (fn q key : Nat) (y : Queue), key = 256 * fn + q ∧ s.queues.get key = some y) ∧
    (∃ (s : State) (fn key : Nat) (y : Queue), s.queues.get key = some y ∧ s.queues.wf = true ∧ key / 256 = fn ∧
    y.priv = false ∧ y.state = .mapped ∧ (y.packet.isSome = true ∨ y.tail ≠ y.head) ∧ (s.slotsOf fn).period ≤
    (s.tstamp - (s.slotsOf fn).last).toNat ∧ (s.slotsOf fn).period ≤ (s.tstamp - y.grantedAt).toNat ∧ ((∃ e ∈
    s.queues, e.1 / 256 = fn ∧ e.2.priv = false ∧ s.eligible e.2 = true)) ∧ ((∀ e ∈ s.queues, e.1 / 256 = fn →
    e.2.state ≠ .closing))) ∧
    (∃ (s : State) (fn m period : Nat) (weights : List (Nat × Nat)) (more : List RkSetting), s.rkUp = true ∧ fn ≤ 256
    ∧ (((s.vfSlots.filter fun e => e.1 != fn).map fun e => e.2.slots).sum + m ≤ 248) ∧ 100000 ≤ period ∧ period ≤
    100000000) ∧
    (∃ (s : State) (fn q c desc : Nat) (ctx : Option Nat) (w : Nat → W64), s.rkUp = true ∧ fn ≤ 256 ∧ q < 256 ∧ desc
    % 128 = 0 ∧ s.queues.get (256 * fn + q) = none ∧ w = word64s (s.vaRead ctx desc 128) ∧ queueLegal fn ((w
    4).getLsbD 54) w = true ∧ ((c = 4096 ∧ ctx = none ∧ (w 4).getLsbD 54 = true ∧ s.rkRunWarm desc 128 = true ∧
    s.rkRunWarm (w 2).toNat (16 * ((w 1).toNat % 2 ^ 32)) = true) ∨ (c ≠ 4096 ∧ ctx = some c ∧ (w 4).getLsbD 54 =
    false ∧ s.runWarm c desc 128 = true ∧ s.runWarm c (w 2).toNat (16 * ((w 1).toNat % 2 ^ 32)) = true ∧ ∃ x, s.ctx?
    c = some x ∧ x.state ≠ .destroyed ∧ (if x.pf then 256 else x.vf.toNat) = fn))) ∧
    (∃ (s : State) (fc key va : Nat) (y : Queue), s.asleep = false ∧ ((∀ e ∈ s.vfSlots, s.boundaryDue e.1 = false)) ∧
    s.posted = [] ∧ ((∀ e ∈ s.queues, e.2.state = .closing → s.settled e.2 = false)) ∧ ((s.queues.filter fun e =>
    e.2.lane.any fun l => l / 64 == fc) = [(key, y)]) ∧ s.queues.get key = some y ∧ y.state = .mapped ∧ y.packet =
    none ∧ y.tail ≠ y.head ∧ va = y.ring + 64 * (y.head.toNat % y.size) ∧ va % 64 = 0) ∧
    (∃ (s : State) (key status va pa : Nat) (q q' : Queue) (p : List W64) (m : Memory), s.queues.get key = some q ∧
    q.packet = some p ∧ status < 256 ∧ va % 16 = 0 ∧ va = q.cring + 16 * (q.head.toNat % q.size)) :=
  ⟨⟨{ wS wCx wCo wTm wSp with links := [(0, ⟨.up, false, [], 0, 0, false⟩)], queues := [(7,
                                { Queue.blank with ctx := some 0, ring := 0x40006000, size := 16, cring := 0x40007000
                                                    })] }, 0, 7, 7, 16, _, rfl, rfl, by decide +kernel⟩,
    ⟨{ wS wCx wCo wTm wSp with queues := [(7, { Queue.blank with ctx := some 0, ring := 0x40006000, size := 16, cring
                                                                  := 0x40007000, pending := true })], vfSlots := [(0,
                                ⟨1, 100000, 0, [], []⟩)] }, 0, 7, 255, 7, _, false, _, _, _, rfl, by decide +kernel,
    rfl,
    by refine ⟨?_, ?_, ?_, ?_, rfl, by decide +kernel, (fun _ => rfl), (fun _ => rfl), Or.inr (Or.inl ⟨rfl, by decide +kernel⟩)⟩ <;> decide +kernel⟩,
    ⟨{ wS wCx wCo wTm wSp with queues := [(7, { Queue.blank with ctx := some 0, ring := 0x40006000, size := 16, cring
                                                                  := 0x40007000, state := .mapped })] }, 0, 7, 7, _,
    rfl, rfl⟩,
    ⟨{ wS wCx wCo wTm wSp with queues := [(7, { Queue.blank with ctx := some 0, ring := 0x40006000, size := 16, cring
                                                                  := 0x40007000, state := .mapped, tail := 1, lane :=
                                                                  some 0 }), (8,
                                { Queue.blank with ctx := some 0, ring := 0x40006000, size := 16, cring :=
                                                    0x40007000, pending := true })], vfSlots := [(0, ⟨1, 100000, 0,
                                [], []⟩)], tstamp := 100000 }, 0, 7, _, rfl,
    by refine ⟨?_, ?_, ?_, ?_, ?_, ?_, by decide +kernel, ⟨_, List.mem_cons_of_mem _ (List.mem_singleton.mpr rfl), rfl, rfl, by decide +kernel⟩, by decide +kernel⟩ <;> decide +kernel⟩,
    ⟨wS wCx wCo wTm wSp, 256, 248, 100000, [], [], by decide +kernel⟩,
    ⟨{ wS wCx wCo wTm wSp with mem := Memory.setBytes (wMem) 0x40001000 (toBytes 8 (0) ++ toBytes 8 (16) ++ toBytes 8
                                (0x40002000) ++ toBytes 8 (0x40003000) ++ toBytes 8 (0) ++ toBytes 8 (0) ++ toBytes 8
                                (0) ++ toBytes 8 (0) ++ toBytes 8 (0) ++ toBytes 8 (0) ++ toBytes 8 (0) ++ toBytes 8
                                (0) ++ toBytes 8 (0) ++ toBytes 8 (0) ++ toBytes 8 (0) ++ toBytes 8 (0)) }, 0, 255,
    0, 0x40001000, some 0, word64s (toBytes 8 (0) ++ toBytes 8 (16) ++ toBytes 8 (0x40002000) ++ toBytes 8
    (0x40003000) ++ toBytes 8 (0) ++ toBytes 8 (0) ++ toBytes 8 (0) ++ toBytes 8 (0) ++ toBytes 8 (0) ++ toBytes 8
    (0) ++ toBytes 8 (0) ++ toBytes 8 (0) ++ toBytes 8 (0) ++ toBytes 8 (0) ++ toBytes 8 (0) ++ toBytes 8 (0)),
    by refine ⟨?_, ?_, ?_, ?_, ?_, by rw [show State.vaRead _ _ _ _ = toBytes 8 (0) ++ toBytes 8 (16) ++ toBytes 8 (0x40002000) ++ toBytes 8 (0x40003000) ++ toBytes 8 (0) ++ toBytes 8 (0) ++ toBytes 8 (0) ++ toBytes 8 (0) ++ toBytes 8 (0) ++ toBytes 8 (0) ++ toBytes 8 (0) ++ toBytes 8 (0) ++ toBytes 8 (0) ++ toBytes 8 (0) ++ toBytes 8 (0) ++ toBytes 8 (0) by decide +kernel], by decide +kernel, Or.inr ⟨by decide, rfl, by decide +kernel, by decide +kernel, by decide +kernel, _, rfl, by decide, by decide⟩⟩ <;> decide +kernel⟩,
    ⟨{ wS wCx wCo wTm wSp with queues := [(7, { Queue.blank with ctx := some 0, ring := 0x40006000, size := 16, cring
                                                                  := 0x40007000, state := .mapped, tail := 1, lane :=
                                                                  some 192 })] }, 3, 7, _, _,
    by refine ⟨?_, ?_, ?_, ?_, ?_, rfl, by decide +kernel, by decide +kernel, by decide +kernel, rfl, by decide +kernel⟩ <;> decide +kernel⟩,
    ⟨{ wS wCx wCo wTm wSp with queues := [(7, { Queue.blank with ctx := some 0, ring := 0x40006000, size := 16, cring
                                                                  := 0x40007000, state := .mapped, head := 17, tail
                                                                  := 18, lane := some 192, packet := some
                                                                  [0x0100000000000000, 0, 0, 0, 0, 0, 0, 0], begun :=
                                                                  true })] }, 7, 255, 0x40007010, 0x40007010, _,
    Queue.blank, _, [], rfl, rfl, by decide +kernel, by decide +kernel, rfl⟩⟩

theorem meets_Packets :
    ∃ (s v v1 : State) (fn q op key : Nat) (qu : Queue) (p : List W64) (w : Nat → Nat) (early : Prop), Claims.Taken s
    fn q op qu p ∧ v = Claims.begin' s fn q qu ∧ key = 256 * fn + q ∧ w = Claims.packetWord p ∧ ((early ↔ ∃ z ∈
    s.posted, z.no < qu.bell)) :=
  ⟨{ wS wCx wCo wTm wSp with queues := [(7, { Queue.blank with ctx := some 0, ring := 0x40006000, size := 16, cring
                                                                := 0x40007000, state := .mapped, head := 17, tail :=
                                                                18, lane := some 192, packet := some
                                                                [0x0100000000000000, 0, 0, 0, 0, 0, 0, 0], begun :=
                                                                true })] }, _, State.reset, 0, 7, 1, 7, _, _, _, _,
  ⟨rfl, rfl, by decide +kernel, rfl, rfl, rfl, rfl, 192, rfl, Or.inl rfl⟩, rfl, rfl, rfl, Iff.rfl⟩

theorem meets_SolicitWaveAndCensus :
    (∃ (s : State) (c i k : Nat) (x : Ctx) (z : Census) (co : Core), s.ctx? c = some x ∧ x.censuses.get i = some z ∧
    s.core? k = some co ∧ z.stage = .counting ∧ k ∈ z.toPass ∧ co.ctx = some c) ∧
    (∃ (s : State) (c j : Nat) (x : Ctx) (f : Forward) (co : Core), s.ctx? c = some x ∧ x.present = true ∧
    x.forwards[j]? = some f ∧ s.core? f.target = some co) ∧
    (∃ (s : State) (k pos c : Nat) (co : Core) (x : Ctx) (m : Match) (ms : List Match) (d : DirEntry) (z : Census)
    (kn : Kern), s.core? k = some co ∧ s.ctxOf k = some (c, x) ∧ co.spawnQ = m :: ms ∧ co.dir.get m.entry = some d ∧
    x.censuses.get m.slot = some z ∧ x.kernels.get d.kernel = some kn ∧ (pos = 14 ∨ pos = 15) ∧ x.pool = true ∧
    x.state.issues = true ∧ co.teams.get pos = none) ∧
    (∃ (s : State) (c i level node : Nat) (x : Ctx) (z : Census), s.ctx? c = some x ∧ x.counts = true ∧
    x.censuses.get i = some z ∧ z.stage = .counting ∧ (level ≤ (if z.package then 3 else 2)) ∧ s.nodeReady c i z
    level node = true ∧ z.countsUnder level node ≠ [] ∧ ((∀ e ∈ z.nodes, ¬ (e.1 = level ∧ e.2.1 = node)))) ∧
    (∃ (s : State) (c i level node real : Nat) (x : Ctx) (z : Census) (co : Core) (words : List W32), s.ctx? c = some
    x ∧ x.counts = true ∧ x.censuses.get i = some z ∧ s.core? z.core = some co ∧ z.stage = .counting ∧ z.toPass = []
    ∧ ((∀ e ∈ z.counts, s.answerOf c i e.1 e.2 ≠ none)) ∧ (level, node) = z.root ∧ ((z.counts = [] ∧ z.nodes = [] ∧
    words = emptyResult z.op z.n) ∨ z.nodes.find? (fun e => e.1 == level && e.2.1 == node) = some (level, node, some
    words) ∨ (z.nodes.find? (fun e => e.1 == level && e.2.1 == node) = some (level, node, none) ∧ words = emptyResult
    z.op z.n)) ∧ (real = (z.counts.filter fun e => (s.answerOf c i e.1 e.2).any fun a => a.words.isSome).length)) ∧
    (∃ (s : State) (c i k : Nat) (x : Ctx) (z : Census) (co cz : Core), s.ctx? c = some x ∧ x.present = true ∧
    x.censuses.get i = some z ∧ z.stage = .retiring ∧ k ∈ z.toRetire ∧ s.core? k = some co ∧ s.core? z.core = some cz
    ∧ i < 64) :=
  ⟨⟨wS { wCx with censuses := [(63, wCensus [0] [] [] .counting [])] } wCo wTm wSp, 0, 63, 0, _, _, _, rfl, rfl,
    rfl, by decide +kernel, by decide +kernel, rfl⟩,
    ⟨wS { wCx with forwards := [⟨63, 0, 255, 0, 254⟩] } wCo wTm wSp, 0, 0, _, _, _, rfl, by decide +kernel, rfl, rfl⟩,
    ⟨wS { wCx with pool := true, censuses := [(63, wCensus [] [(0, 255)] [] .counting [])] }
    { wCo with dir := [(255, wDir .resident 0 0)], spawnQ := [⟨63, 255, 0, 255⟩] } wTm wSp, 0, 14, 0, _, _, ⟨63, 255,
    0, 255⟩, [], _, _, _, rfl, rfl, rfl, rfl, rfl, rfl, Or.inl rfl, rfl, by decide +kernel⟩,
    ⟨wS { wCx with censuses := [(63, wCensus [] [(0, 255)] [] .counting [])] }
    { wCo with answers := [⟨63, 0, 255, some [7]⟩] } wTm wSp, 0, 63, 0, 0, _, _, rfl, by decide +kernel, rfl,
    by refine ⟨?_, ?_, ?_, ?_, (fun _ h => nomatch h)⟩ <;> decide +kernel⟩,
    ⟨wS { wCx with censuses := [(63, wCensus [] [(0, 255)] [(0, 0, some [7]), (1, 0, some [7]), (2, 0, some [7])]
                    .counting [])] } { wCo with answers := [⟨63, 0, 255, some [7]⟩] } wTm wSp, 0, 63, 2, 0, 1, _, _,
    _, [7], rfl, by decide +kernel, rfl, rfl,
    by refine ⟨?_, ?_, ?_, ?_, Or.inr (Or.inl (by decide +kernel)), rfl⟩ <;> decide +kernel⟩,
    ⟨wS { wCx with censuses := [(63, wCensus [] [(0, 255)] [] .retiring [0])] } wCo wTm wSp, 0, 63, 0, _, _, _, _,
    rfl, by decide +kernel, rfl, by decide +kernel, List.mem_singleton.mpr rfl, rfl, rfl, by decide +kernel⟩⟩

theorem meets_TileMoves :
    (∃ (s : State) (k x c e target te toff : Nat) (op : AsyncOp) (co ct : Core) (cx : Ctx) (d td : DirEntry), s.core?
    k = some co ∧ co.asyncs.get x = some op ∧ s.ctxOf k = some (c, cx) ∧ op.kind = .move e target te toff ∧ target ≠
    k ∧ s.core? target = some ct ∧ co.dir.get e = some d ∧ ct.dir.get te = some td ∧ d.state = .movingOut ∧ td.state
    = .movingIn ∧ td.peer = k ∧ td.pentry = e ∧ co.answeredAll e = true ∧ co.clear op.afterW = true ∧ co.clear
    op.relW = true ∧ d.peer = target ∧ toff + d.length ≤ (s.regionOf target td.crew).2 ∧ s.abandons k = false) ∧
    (∃ (s : State) (k x e target te toff : Nat) (op : AsyncOp) (co ct : Core) (d : DirEntry), s.core? k = some co ∧
    co.asyncs.get x = some op ∧ op.kind = .move e target te toff ∧ target ≠ k ∧ s.core? target = some ct ∧ co.dir.get
    e = some d ∧ ct.dir.get te = none ∧ s.abandons k = false) ∧
    (∃ (s : State) (k t p e : Nat) (sp : Split) (d : DirEntry), s.split? k t p = some sp ∧ sp.state = .waiting ∧
    sp.wait = .drop e) :=
  ⟨⟨{ wS { wCx with cores := [0, 319] } wCo wTm wSp with cores := [(0,
                                                           { wCo with asyncs := [(5, wOp (.move 255 319 254 0) [])],
                                                                       dir := [(255, wDir .movingOut 319 254)] }),
                                                           (319, { wCo with dir := [(254, wDir .movingIn 0 255)] })]
                                                           }, 0, 5, 0, 255, 319, 254, 0, _, _, _, _, _, _, rfl, rfl,
    rfl, rfl, by decide +kernel, rfl, rfl, rfl, by decide +kernel⟩,
    ⟨{ wS { wCx with cores := [0, 319] } wCo wTm wSp with cores := [(0,
                                                           { wCo with asyncs := [(5, wOp (.move 255 319 254 0) [])],
                                                                       dir := [(255, wDir .movingOut 319 254)] }),
                                                           (319, { wCo with  })] }, 0, 5, 255, 319, 254, 0, _, _, _,
    _, rfl, rfl, rfl, by decide +kernel, rfl, rfl, by decide +kernel⟩,
    ⟨wS wCx wCo wTm { wSp with state := .waiting, wait := .drop 255 }, 0, 0, 0, 255, _, wDir .resident 0 0, rfl,
    by decide +kernel⟩⟩

theorem meets_LinkStates :
    (∃ (s : State) (l : Nat) (x : Link), x = s.link l) ∧
    (∃ (s : State) (l k x : Nat) (co : Core) (op : AsyncOp) (p : Part), s.core? k = some co ∧ co.asyncs.get x = some
    op ∧ p ∈ op.parts ∧ p.state = .sent) :=
  ⟨⟨State.reset, 15, _, rfl⟩,
    ⟨wS { wCx with ports := [(0, ⟨0x1000, BitVec.ofNat 64 (4 + 1 + 16 + 12 * 2 ^ 58)⟩)] }
    { wCo with asyncs := [(5, wOp (.portWr) [⟨0, 10, .sent, [⟨0, 0x01FE000000000000, 64, 4, 0, [1, 2, 3, 4], false,
                []⟩], 0, 0⟩])], shared := [(4, 4)] } wTm wSp, 2, 0, 5, _, _, _, rfl, rfl, List.mem_singleton.mpr rfl,
    by decide +kernel⟩⟩

theorem meets_OutsideAccesses :
    (∃ (s : State) (c : Nat) (x : Ctx), s.ctx? c = some x ∧ x.state ≠ .destroyed ∧ s.rkUp = true) ∧
    (∃ (s : State) (fn off len c wbase : Nat) (bytes : List Byte), (s.link 0).serves = true ∧ fn < 256 ∧ s.bar2.get
    fn = some (c, wbase) ∧ off + bytes.length ≤ (s.bar2Size.get fn).getD 1 * 2 ^ 30 ∧ off + len ≤ (s.bar2Size.get
    fn).getD 1 * 2 ^ 30) ∧
    (∃ (s : State) (l rctx c va len : Nat) (bytes : List Byte), l < 12 ∧ (s.link (2 + l)).serves = true) ∧
    (∃ (s : State) (port key va len : Nat) (bytes : List Byte), port < 2 ∧ (s.link (14 + port)).serves = true) :=
  ⟨⟨wS wCx wCo wTm wSp, 0, _, rfl, by decide +kernel⟩,
    ⟨{ wS wCx wCo wTm wSp with links := [(0, ⟨.up, false, [], 0, 0, false⟩)], bar2 := [(255, (0, 0x40001000))] },
    255, 0, 8, 0, 0x40001000, [], by decide +kernel, by decide +kernel, rfl, by decide +kernel⟩,
    ⟨{ wS wCx wCo wTm wSp with links := [(13, ⟨.up, false, [], 0, 0, false⟩)] }, 11, 0, 0, 0x40001000, 8, [],
    by decide +kernel⟩,
    ⟨{ wS wCx wCo wTm wSp with links := [(15, ⟨.degraded, false, [], 0, 0, false⟩)] }, 1, 0, 0x40001000, 8, [],
    by decide +kernel⟩⟩

theorem meets_QueuePairs :
    (∃ (s : State) (port qp c sring ssize rring rsize cring csize db : Nat) (x : Ctx), s.ctx? c = some x ∧ x.state ≠
    .destroyed ∧ s.rkUp = true ∧ port < 2 ∧ qp < 65536 ∧ 0 < ssize ∧ 0 < rsize ∧ 0 < csize ∧ db % 8 = 0 ∧ s.runWarm c
    sring (64 * ssize) = true ∧ s.runWarm c rring (32 * rsize) = true ∧ s.runWarm c cring (32 * csize) = true) ∧
    (∃ (s : State) (port qp pa : Nat) (q : QPair) (v : W64), s.qps.get (65536 * port + qp) = some q) ∧
    (∃ (s : State) (port qp op rva rkey : Nat) (imm : BitVec 32) (q : QPair) (v v2 : State) (w : Nat → W64) (i :
    Instr), Claims.Sending s v port qp q w ∧ Claims.sendForm port qp w i = some (op, imm, rva, rkey) ∧ (w 0).toNat /
    2 ^ 56 = op ∧ (((w 0).getLsbD 49 = true → ∀ e ∈ q.cur, e.op ≠ 4)) ∧ sendLegal w = true ∧ v.outRead (bytesAgent
    (65536 * port + qp) q) (w 1).toNat (w 2).toNat = .go ∧ v2 = (v.portLook (some q.ctx) (w 1).toNat (w
    2).toNat).agentDone (bytesAgent (65536 * port + qp) q) [((w 1).toNat, (w 2).toNat, .r)]) ∧
    (∃ (s v : State) (port qp a : Nat) (q : QPair) (w : Nat → W64), Claims.Sending s v port qp q w ∧ (((w 0).getLsbD
    49 = true → ∀ e ∈ q.cur, e.op ≠ 4))) ∧
    (∃ (s v : State) (port qp key status a : Nat) (q : QPair) (e : SendOp) (rest : List SendOp) (bytes : List Byte),
    key = 65536 * port + qp ∧ s.qps.get key = some q ∧ q.cur = e :: rest ∧ (s.link (14 + port)).serves = true) ∧
    (∃ (s x v : State) (port qp key op a va : Nat) (imm : BitVec 32) (q : QPair) (bytes : List Byte) (w : Nat → W64),
    key = 65536 * port + qp ∧ s.qps.get key = some q ∧ q.error = false ∧ q.rhead ≠ q.rtail ∧ (s.link (14 +
    port)).serves = true ∧ va = q.rring + 32 * (q.rhead.toNat % q.rsize) ∧ s.outRead (recvAgent key q) va 32 = .go ∧
    x = (s.portLook (some q.ctx) va 32).agentDone (recvAgent key q) [(va, 32, .r)] ∧ w = x.recvEntry q q.rhead ∧ (w
    1).toNat < 2 ^ 32 ∧ w 3 = 0) ∧
    (∃ (s : State) (port qp : Nat) (q : QPair), s.qps.get (65536 * port + qp) = some q ∧ q.error = false) ∧
    (∃ (s : State) (key op status n va pa : Nat) (wrid : W64) (imm : BitVec 32) (q : QPair), s.posted = [] ∧
    s.qps.get key = some q ∧ va = q.cring + 32 * (q.chead % q.csize) ∧ va % 32 = 0 ∧ s.vaTry (some q.ctx) va 32 .w =
    .ok pa ∧ op < 256 ∧ status < 256 ∧ n < 2 ^ 32) ∧
    (∃ (w : Posted) (t : W64), w.bytes.length = 32) ∧
    (∃ (s : State) (port c va a : Nat) (bytes : List Byte), s.posted = [] ∧ s.vaTryAll (some c) [(va, bytes.length,
    .w)] = .ok a) :=
  ⟨⟨wS wCx wCo wTm wSp, 1, 65535, 0, 0x40001000, 4, 0x40002000, 4, 0x40003000, 4, 0x40004008, _, rfl,
    by decide +kernel⟩,
    ⟨{ wS wCx wCo wTm wSp with qps := [(131071, { QPair.blank with sring := 0x40001000, ssize := 4, rring :=
                                                                    0x40002000, rsize := 4, cring := 0x40003000,
                                                                    csize := 4, db := 0x40004000 })], links := [(15,
                                ⟨.up, false, [], 0, 0, false⟩)], mem := wMem }, 1, 65535, 0x40004000, _, 0, rfl⟩,
    ⟨{ wS wCx wCo wTm wSp with qps := [(131071, { QPair.blank with sring := 0x40001000, ssize := 4, rring :=
                                                                    0x40002000, rsize := 4, cring := 0x40003000,
                                                                    csize := 4, db := 0x40004000, stail := 1 })],
                                links := [(15, { Link.init with state := .up })], mem := Memory.setBytes (wMem)
                                0x40001000 (toBytes 8 (0x0000000000000000) ++ toBytes 8 (0x40005000) ++ toBytes 8
                                (16) ++ toBytes 8 (0) ++ toBytes 8 (0) ++ toBytes 8 (9) ++ toBytes 8 (0) ++ toBytes 8
                                (0)), calGot := wGot [(sendAgent 131071 QPair.blank).id, (bytesAgent 131071
                                QPair.blank).id] }, 1, 65535, 0, 0, 0, 0, _, _, _, _, .send 1 65535, ⟨rfl, rfl,
    by decide, by decide +kernel, by decide +kernel, by decide +kernel, rfl, rfl⟩, rfl, by decide +kernel, (fun h =>
    absurd h (by decide +kernel)), by decide +kernel, by decide +kernel, rfl⟩,
    ⟨{ wS wCx wCo wTm wSp with qps := [(131071, { QPair.blank with sring := 0x40001000, ssize := 4, rring :=
                                                                    0x40002000, rsize := 4, cring := 0x40003000,
                                                                    csize := 4, db := 0x40004000, stail := 1 })],
                                links := [(15, { Link.init with state := .up })], mem := Memory.setBytes (wMem)
                                0x40001000 (toBytes 8 (0x0402000000000000) ++ toBytes 8 (0x40005000) ++ toBytes 8
                                (16) ++ toBytes 8 (0) ++ toBytes 8 (0) ++ toBytes 8 (9) ++ toBytes 8 (0) ++ toBytes 8
                                (0)), calGot := wGot [(sendAgent 131071 QPair.blank).id] }, _, 1, 65535, 0, _, _,
    ⟨rfl, rfl, by decide, by decide +kernel, by decide +kernel, by decide +kernel, rfl, rfl⟩, (fun _ =>
    by decide +kernel)⟩,
    ⟨{ wS wCx wCo wTm wSp with qps := [(131071, { QPair.blank with sring := 0x40001000, ssize := 4, rring :=
                                                                    0x40002000, rsize := 4, cring := 0x40003000,
                                                                    csize := 4, db := 0x40004000, shead := 1, stail
                                                                    := 1, cur := [⟨0, true, 0x40005000, 16, 9⟩] })],
                                links := [(15, ⟨.up, false, [], 0, 0, false⟩)], mem := wMem }, State.reset, 1, 65535,
    131071, 0, 0, _, ⟨0, true, 0x40005000, 16, 9⟩, [], [], rfl, rfl, rfl, by decide +kernel⟩,
    ⟨{ wS wCx wCo wTm wSp with qps := [(131071, { QPair.blank with sring := 0x40001000, ssize := 4, rring :=
                                                                    0x40002000, rsize := 4, cring := 0x40003000,
                                                                    csize := 4, db := 0x40004000, rtail := 1 })],
                                links := [(15, { Link.init with state := .up })], mem := Memory.setBytes (wMem)
                                0x40002000 (toBytes 8 (0x40005000) ++ toBytes 8 (16) ++ toBytes 8 (9) ++ toBytes 8
                                (0)), calGot := wGot [(recvAgent 131071 QPair.blank).id] }, _, State.reset, 1, 65535,
    131071, 0, 0, 0x40002000, 0, _, [], _, by decide +kernel, rfl, by decide +kernel, by decide +kernel,
    by decide +kernel, rfl, by decide +kernel, rfl, rfl, by decide +kernel⟩,
    ⟨{ wS wCx wCo wTm wSp with qps := [(131071, { QPair.blank with sring := 0x40001000, ssize := 4, rring :=
                                                                    0x40002000, rsize := 4, cring := 0x40003000,
                                                                    csize := 4, db := 0x40004000 })], links := [(15,
                                ⟨.up, false, [], 0, 0, false⟩)], mem := wMem }, 1, 65535, _, rfl, by decide +kernel⟩,
    ⟨{ wS wCx wCo wTm wSp with qps := [(131071, { QPair.blank with sring := 0x40001000, ssize := 4, rring :=
                                                                    0x40002000, rsize := 4, cring := 0x40003000,
                                                                    csize := 4, db := 0x40004000, chead := 7 })],
                                links := [(15, ⟨.up, false, [], 0, 0, false⟩)], mem := wMem }, 131071, 255, 255,
    4294967295, 0x40003060, 0x40003060, 9, 0, _, by decide +kernel, rfl, by decide +kernel⟩,
    ⟨⟨0, 0, 0, 0, List.replicate 32 0, true⟩, 7, by decide +kernel⟩,
    ⟨wS wCx wCo wTm wSp, 1, 0, 0x40001000, 0, [1], by decide +kernel⟩⟩

theorem meets_ManagementCore :
    (∃ (s : State), s.gated = false) ∧
    (∃ (s : State), s.gated = false ∧ s.mgmtGated = false) ∧
    (∃ (s : State) (fn v : Nat) (m : Regs 8) (at' : Nat → Nat → Nat), m = (s.bar4.get fn).getD [] ∧ ((∀ off n, at'
    off n = ofBytes (Regs.bytes m off n)))) ∧
    (∃ (s : State) (port : Nat) (frame : List Byte), port < 2) ∧
    (∃ (s : State) (i : Instr) (code n : Nat) (known : List Nat) (x' : Spdm), s.asleep = false ∧ Claims.spdmForm s
    s.spdm i = some (code, known, n, x')) ∧
    (∃ (s : State) (i : Instr), s.asleep = false ∧ s.spdm.algs = true ∧ s.spdm.shared = false ∧ (i = .challenge ∨ i =
    .keyExchange ∨ i = .getMeasurements true)) ∧
    (∃ (s : State) (i : Nat) (component : List Byte), i < 16) :=
  ⟨⟨State.reset, by decide +kernel⟩,
    ⟨State.reset, by decide +kernel⟩,
    ⟨State.reset, 255, 2047, _, fun off n => ofBytes (Regs.bytes [] off n), rfl, (fun _ _ => rfl)⟩,
    ⟨{ State.reset with gated := true }, 1, [1], by decide +kernel⟩,
    ⟨State.reset, .getVersion, _, _, _, _, by decide +kernel, rfl⟩,
    ⟨{ State.reset with spdm := ⟨true, true, false, false, false, 0⟩ }, .challenge, by decide +kernel,
    by decide +kernel, by decide +kernel, Or.inl rfl⟩,
    ⟨State.reset, 15, [], by decide +kernel⟩⟩

theorem meets_Debugger :
    (∃ (s : State) (k t : Nat) (tm : Team), s.team? k t = some tm) ∧
    (∃ (s : State) (c k t : Nat) (co : Core) (tm : Team), s.core? k = some co ∧ co.ctx = some c ∧ co.stopIn.isSome =
    true ∧ co.teams.get t = some tm ∧ tm.splits ≠ [] ∧ tm.state ≠ .phasing) ∧
    (∃ (s : State) (c : Nat), ((∀ e ∈ s.cores, e.2.ctx = some c → e.2.stopIn = none))) ∧
    (∃ (s : State) (k i c : Nat) (va : W64) (co : Core) (x : Ctx), s.core? k = some co ∧ s.ctxOf k = some (c, x) ∧
    s.rkUp = true ∧ x.att = true ∧ i < 8) ∧
    (∃ (s : State) (c k : Nat) (x : Ctx) (co : Core) (att : Bool), s.ctx? c = some x ∧ x.state ≠ .destroyed ∧ s.rkUp
    = true ∧ s.core? k = some co ∧ co.ctx = some c) ∧
    (∃ (s : State) (k c va : Nat) (co : Core) (x : Ctx) (r : List Byte) (rs : List (List Byte)), s.core? k = some co
    ∧ s.ctxOf k = some (c, x) ∧ co.trPend = r :: rs ∧ co.trsize ≠ 0 ∧ va = co.trbase.toNat + 64 * (co.trhead.toNat %
    co.trsize.toNat)) :=
  ⟨⟨wS wCx wCo wTm wSp, 0, 0, _, rfl⟩,
    ⟨wS wCx { wCo with stopIn := some 3 } wTm wSp, 0, 0, 0, _, _, rfl, rfl, by decide +kernel, rfl,
    by decide +kernel⟩,
    ⟨wS wCx wCo wTm wSp, 0, by decide +kernel⟩,
    ⟨wS { wCx with att := true } wCo wTm wSp, 0, 7, 0, 0x40000004, _, _, rfl, rfl, by decide +kernel⟩,
    ⟨wS wCx wCo wTm wSp, 0, 0, _, _, true, rfl, by decide +kernel, by decide +kernel, rfl, rfl⟩,
    ⟨wS wCx { wCo with trbase := 0x80000000, trsize := 64, trPend := [List.replicate 64 0] } wTm wSp, 0, 0,
    0x80000000, _, _, List.replicate 64 0, [], rfl, rfl, rfl, by decide +kernel⟩⟩

theorem meets_DecodeOfEncode :
    ∃ (i : Instr) (e : Eng) (ws r : List W32), i.wf = true ∧ i.encode = some (e, ws) :=
  ⟨.sadd (.s 49) (.s 1) (.k 16), .uni, _, [], by decide +kernel, rfl⟩

theorem meets_EncodeOfDecode :
    ∃ (priv : Bool) (e : Eng) (ws : List W32) (i : Instr) (n : Nat), decode priv e ws = .ok (i, n) :=
  ⟨false, .loc, [0x040584DF, 0x00000064], _, _, rfl⟩

theorem meets_MemoryFormKept :
    ∃ (s t : State), Memory.wf s.mem = true ∧ step s = .next t :=
  ⟨State.reset, _, by decide +kernel, rfl⟩

theorem meets_TimeGoesOn :
    ∃ (s t : State), step s = .next t :=
  ⟨State.reset, _, rfl⟩

theorem meets_StepRunsInstruction :
    (∃ (s : State) (i : Instr) (is : List (Option Instr)), s.schedule = some i :: is) ∧
    (∃ (s b : State) (sch : List (Option Instr)) (u : Issue) (us : List Issue) (c : Core) (tm : Team) (sp : Split)
    (cl : Clause) (eng : Eng) (i : Instr) (n : Nat) (t : State), ((s.schedule = none :: sch ∨ s.schedule = [] ∧ sch =
    [])) ∧ b = { s.pass with schedule := sch } ∧ s.issueQ = u :: us ∧ u.single = false ∧ s.core? u.core = some c ∧
    c.teams.get u.team = some tm ∧ tm.splits.get u.split = some sp ∧ tm.mayIssue u.split = true ∧ c.teamStalled
    u.team = false ∧ sp.state = .ready ∧ s.coreIssues u.core = true ∧ sp.atJoin u.split = false ∧ sp.clause = some cl
    ∧ c.breakAt tm sp (cl.h + BitVec.ofNat 64 (4 * cl.pos)) = false ∧ (headerOf cl.hdr).eng = some eng ∧ decode
    tm.priv eng (s.fetchRun u.core (cl.h + BitVec.ofNat 64 (4 * cl.pos)).toNat (min maxWords (cntOf cl.hdr + 1 -
    cl.pos))) = .ok (i, n) ∧ exec i { b with cur := some ⟨u.core, u.team, u.split, n, u.width⟩ } = .next t) ∧
    (∃ (s b d : State) (sch : List (Option Instr)) (u : Issue) (us : List Issue) (c : Core) (tm : Team) (sp : Split)
    (h : W32) (eng : Eng) (i : Instr) (n : Nat) (gate : Mask) (t : State), ((s.schedule = none :: sch ∨ s.schedule =
    [] ∧ sch = [])) ∧ b = { s.pass with schedule := sch } ∧ s.issueQ = u :: us ∧ u.single = false ∧ s.core? u.core =
    some c ∧ c.teams.get u.team = some tm ∧ tm.splits.get u.split = some sp ∧ tm.mayIssue u.split = true ∧
    c.teamStalled u.team = false ∧ sp.state = .ready ∧ s.coreIssues u.core = true ∧ sp.atJoin u.split = false ∧
    sp.clause = none ∧ s.fetch u.core sp.pc.toNat = some h ∧ h.extractLsb' 0 16 = 0x6C5A ∧ (headerOf h).eng = some
    eng ∧ h.extractLsb' 28 4 ≠ 0 ∧ ((sp.waited = true ∨ h.extractLsb' 22 3 = 0 ∧ ∀ w ∈ sp.wbs, w.fence = 0)) ∧
    ((h.getLsbD 22 = false ∨ tm.watch = none)) ∧ tm.att = false ∧ ((h.getLsbD 20 = false ∨ tm.tre = false)) ∧ ((∀ l,
    gate.getLsbD l = (sp.exec.getLsbD l && ((tm.preg (h.extractLsb' 17 3).toNat).getLsbD l ^^ h.getLsbD 16)))) ∧ (d =
    (b.fetchFill u.core sp.pc.toNat).updSplit u.core u.team u.split (fun _ =>
    { sp with clause := some ⟨sp.pc, h, gate, 1⟩, transfer := false, waited := false, passBreak := false, passWord :=
               false })) ∧ ((∀ x ctx, s.ctxOf u.core = some (x, ctx) → ctx.bwWrites.all (fun w => !(w.core == u.core
    && w.team == u.team && w.split == u.split)) = true)) ∧ decode tm.priv eng (d.fetchRun u.core (sp.pc + 4).toNat
    (min maxWords (h.extractLsb' 28 4).toNat)) = .ok (i, n) ∧ exec i
    { d with cur := some ⟨u.core, u.team, u.split, n, u.width⟩ } = .next t) ∧
    (∃ (s : State), s.schedule = [] ∧ s.issueQ = []) :=
  ⟨⟨{ State.reset with schedule := [some (.linkEnable 0)] }, .linkEnable 0, [], rfl⟩,
    ⟨{ wS wCx wCo wTm ({ wSp with clause := some ⟨0x40000000, 0x32006C5A, maskAll 16, 1⟩ }) with mem := Memory.setBytes (wMem) 0x40000000 (toBytes 8 0x008181D032006C5A ++ toBytes 8 0), cur := none, issueQ := [⟨0, 0, 0, false, 64, 0⟩] },
    _, [], ⟨0, 0, 0, false, 64, 0⟩, [], _, _, _, ⟨0x40000000, 0x32006C5A, maskAll 16, 1⟩, .uni, .sadd (.s 1) (.s 1)
    (.k 16), 1, _, Or.inr ⟨rfl, rfl⟩, rfl, rfl, by decide +kernel, rfl, rfl, rfl,
    by refine ⟨?_, ?_, ?_, ?_, ?_, rfl, by decide +kernel, by decide +kernel, (congrArg (decode false .uni) (show State.fetchRun _ _ _ _ = [0x008181D0, 0, 0] by decide +kernel)).trans rfl, rfl⟩ <;> decide +kernel⟩,
    ⟨{ wS wCx wCo wTm ({ wSp with clause := none }) with mem := Memory.setBytes (wMem) 0x40000000 (toBytes 8
                                                          0x008181D032006C5A ++ toBytes 8 0), cur := none, issueQ :=
                                                          [⟨0, 0, 0, false, 64, 0⟩] }, _, _, [], ⟨0, 0, 0, false, 64,
    0⟩, [], _, _, _, 0x32006C5A, .uni, .sadd (.s 1) (.s 1) (.k 16), 1, maskAll 16, _, Or.inr ⟨rfl, rfl⟩, rfl, rfl,
    by decide +kernel, rfl, rfl, rfl,
    by refine ⟨?_, ?_, ?_, ?_, ?_, rfl, by refine ⟨?_, ?_, ?_, ?_, ?_, ?_, by decide +kernel, by decide +kernel, (fun l => by rw [show Team.preg _ _ = maskAll 16 by decide +kernel, show BitVec.getLsbD (0x32006C5A : W32) 16 = false by decide]; simp [wSp]), rfl, (fun x ctx h => by obtain ⟨rfl, rfl⟩ := Option.some.inj h; rfl), (congrArg (decode false .uni) (show State.fetchRun _ _ _ _ = [0x008181D0, 0, 0] by decide +kernel)).trans rfl, rfl⟩ <;> decide +kernel⟩ <;> decide +kernel⟩,
    ⟨State.reset, by decide +kernel⟩⟩

end Sys2Proof.Tests
end

section
/-! The responder pool while the part is gated (01 R14, 18 R307). -/

namespace Sys2Proof.Machine

/-- The resident kernel does not run while its cores are gated (R307, log entry 57), whether it has crashed or not. -/
theorem State.rkUp_of_gated {s : State} (h : s.gated = true) : s.rkUp = false := by
  simp [State.rkUp, h]

/-- A gated part enables no responder pool: the resident kernel that would (R14) does not run. -/
theorem responderPoolEnable_of_gated {s : State} (c : Nat) (h : s.gated = true) :
    exec (.responderPoolEnable c) s = .next s := by
  rw [exec_responderPoolEnable, execResponderPoolEnable]
  split
  · simp [State.rkUp_of_gated h]
  · rfl

/-- CORE_GATING leaves the part gated (R307). -/
theorem gated_of_coreGating {s t : State} (h : exec .coreGating s = .next t) : t.gated = true := by
  rw [exec_coreGating, execCoreGating] at h
  split at h
  · next gated => exact Host.Outcome.next.inj h ▸ gated
  · exact Host.Outcome.next.inj h ▸ rfl

/-- A part just reset, but for one Created context: it has no kernel, no saved core and no pool. -/
def State.oneCreated : State := { State.reset with ctxs := [(0, Ctx.blank)] }

/-- Refutes O26, in its part `ResponderPool`, which asks for `s.rk = .up` alone, where RESPONDER_POOL_ENABLE needs
`State.rkUp`: not crashed, and not gated (R307).  In the state that CORE_GATING makes of `State.oneCreated`, every
hypothesis of the part's first clause holds and the pool stays off. -/
theorem not_barrelIssue : ¬ Obligations.BarrelIssue := by
  unfold Obligations.BarrelIssue
  rintro ⟨-, -, pool, -⟩
  have gated : State.gated { State.oneCreated with gated := true } = true :=
    gated_of_coreGating (s := State.oneCreated) rfl
  have enabled := (pool { State.oneCreated with gated := true } 0 Ctx.blank rfl rfl (.inl rfl)).1
    (by simp [Ctx.blank]) rfl rfl
  rw [responderPoolEnable_of_gated 0 gated] at enabled
  have samePool := congrArg (fun s : State => (s.ctx? 0).map (·.pool)) (Host.Outcome.next.inj enabled)
  exact absurd samePool (by decide)

end Sys2Proof.Machine
end

section
/-! What a word that is done leaves (02 R29, R174), proved once for every kind of word of 05: uniform, lane, predicate
and floating-point words differ only in the core and the team they hand over. -/

namespace Sys2Proof.Machine

open Sys2Proof.Claims

/-- `u` is `s` with core `a.k` as `core`, whose teams are still those of the word in issue. -/
def OnlyCore (a : At) (s u : State) (core : Core) : Prop :=
  u = { s with cores := u.cores } ∧ (∀ j, j ≠ a.k → u.core? j = s.core? j) ∧
  u.core? a.k = some core ∧ core.teams = a.core.teams

theorem OnlyCore.refl {s : State} {a : At} (h : s.at? = some a) : OnlyCore a s s a.core :=
  ⟨rfl, fun _ _ => rfl, (at?_some h).1, rfl⟩

theorem OnlyCore.setStreams {s : State} {a : At} (h : s.at? = some a) (crew : Nat) (qs : Map Stream) :
    OnlyCore a s (s.setStreams a.k crew qs)
      { a.core with crews := a.core.crews.upd crew fun w => { w with streams := qs } } :=
  ⟨rfl, fun _ hj => core?_updCore_ne s _ hj, core?_updCore_same (at?_some h).1 _, rfl⟩

/-- Moving on past a word leaves the split where R29 says. -/
theorem onward_advance {a : At} {sp : Split} (h : sp.clause = some a.cl) : Onward a sp (sp.advance a.n) := by
  by_cases within : a.cl.pos + a.n ≤ cntOf a.cl.hdr
  · rw [advance_within h within]
    exact ⟨rfl, fun _ => ⟨rfl, rfl⟩, fun last => absurd within (Nat.not_le.2 last)⟩
  · rw [advance_last h (Nat.not_le.1 within)]
    exact ⟨rfl, fun within' => absurd within' within, fun _ => ⟨rfl, rfl, rfl⟩⟩

/-- A team whose split `p` moves on: its other splits stay, and of the rest only the yielded list may change (R33). -/
theorem updTeam_of_advance (s : State) (k t p n : Nat) :
    ∃ f : Team → Team, s.advance k t p n = s.updTeam k t f ∧
      ∀ tm, (f tm).splits = tm.splits.upd p (·.advance n) ∧
        f tm = { tm with splits := (f tm).splits, yielded := (f tm).yielded } := by
  refine ⟨_, rfl, fun tm => ?_⟩
  dsimp only
  split
  · split
    · rw [yieldAt_splits]
      exact ⟨rfl, yieldAt_only ..⟩
    · exact ⟨rfl, rfl⟩
  · exact ⟨rfl, rfl⟩

/-- A word that is done, with `core` in the place of its core and `tm` in the place of its team, leaves just that. -/
theorem done_adv {s u : State} {a : At} {core : Core} {tm : Team} (h : s.at? = some a) (hu : OnlyCore a s u core)
    (htm : tm.splits = a.team.splits) : Done a s (settle a (.adv (a.put u tm))) core tm := by
  obtain ⟨-, hteam, hsplit, hclause, -⟩ := at?_some h
  obtain ⟨hframe, hothers, hcore, hteams⟩ := hu
  obtain ⟨f, hf, hmoved⟩ := updTeam_of_advance ((a.put u tm).updCore a.k (·.countIssue a.n)) a.k a.t a.p a.n
  obtain ⟨hsplits, honly⟩ := hmoved tm
  have hput : (a.put u tm).core? a.k = some { core with teams := core.teams.set a.t tm } := by
    simp only [At.put, State.updTeam, core?_updCore_same hcore, Map.upd, hteams, hteam]
  have hcount := core?_updCore_same hput (·.countIssue a.n)
  have hset : ({ core with teams := core.teams.set a.t tm }.countIssue a.n).teams.get a.t = some tm := by
    rw [countIssue_only]; exact Map.get_set_same ..
  obtain ⟨c, hc, hcform, hcteam, hcothers⟩ := core?_updTeam f hcount hset
  have hs : settle a (.adv (a.put u tm)) = _ := hf
  refine ⟨?_, fun j hj => ?_, c, f tm, a.split.advance a.n, hs ▸ hc, ?_, fun t ht => ?_, hcteam, honly,
    fun q hq => ?_, ?_, onward_advance hclause⟩
  · rw [hs]
    exact hframe ▸ rfl
  · rw [hs, core?_updTeam_ne _ _ _ hj, core?_updCore_ne _ _ hj, At.put, core?_updTeam_ne _ _ _ hj, hothers j hj]
  · rw [hcform]
    unfold Core.countIssue
    split <;> rfl
  · rw [hcothers t ht, countIssue_only]
    exact Map.get_set_ne _ _ ht
  · rw [hsplits, Map.get_upd_ne _ _ hq]
  · rw [hsplits, Map.get_upd_same, htm, hsplit]
    rfl

end Sys2Proof.Machine
end

section
/-! The words of 05 by kind (R81, R86, R88, R91, R95, R96): with their registers in the claim, and their streams popped,
each kind writes its one register and is done. -/

namespace Sys2Proof.Machine

open Sys2Proof.Claims

@[simp] theorem Team.setP_splits (tm : Team) (r : Nat) (xs : List (Nat × Bool)) : (tm.setP r xs).splits = tm.splits := by
  unfold Team.setP; split <;> rfl

@[simp] theorem Team.setP_lanes (tm : Team) (r : Nat) (xs : List (Nat × Bool)) : (tm.setP r xs).lanes = tm.lanes := by
  unfold Team.setP; split <;> rfl

/-- The meaning of a word that answers `adv` with its team replaced. -/
theorem onWord_done {s u : State} {a : At} {core : Core} {tm : Team} {f : At → Out} (h : s.at? = some a)
    (hf : f a = .adv (a.put u tm)) (hu : OnlyCore a s u core) (htm : tm.splits = a.team.splits) :
    ∃ t, onWord s f = .next t ∧ Done a s t core tm :=
  ⟨_, onWord_some f h, hf ▸ done_adv h hu htm⟩

/-! ### Operands taken -/

/-- Operands without a stream register pop nothing. -/
theorem popAll_of_no_pops (qs : Map Stream) {os : List Opnd} (h : popsOf os = []) : popAll qs os = .done qs os := by
  induction os with
  | nil => rfl
  | cons o os ih =>
    cases o with
    | q n => cases h
    | _ => simp only [popAll, ih h]

/-- Nor does an earlier pop replace any of them. -/
theorem putSlots_of_no_pops (js : List Nat) {os : List Opnd} (h : popsOf os = []) : putSlots js os = os := by
  induction os with
  | nil => cases js <;> rfl
  | cons o os ih =>
    cases o with
    | q n => cases h
    | _ => simp only [putSlots, ih h]

/-- A word whose operands can be taken goes on with them, its streams popped (R43, R217). -/
theorem withOps_takes {s : State} {a : At} {named os os' : List Opnd} {qs : Map Stream} (h : s.at? = some a)
    (hc : a.team.claimsAll named = true) (ht : Takes a os qs os') (f : (State → State) → List Opnd → Out) :
    ∃ commit, a.withOps s named os f = f commit os' ∧ OnlyCore a s (commit s) (popped a os qs) := by
  by_cases hp : popsOf os = []
  · obtain rfl : os = os' := by
      unfold Takes at ht
      split at ht
      · rw [popAll_of_no_pops _ hp] at ht
        cases ht; rfl
      · rw [ht.1, putSlots_of_no_pops _ hp]
    have core : popped a os qs = a.core := by simp [popped, hp]
    exact ⟨id, withOps_plain f hc hp, core ▸ OnlyCore.refl h⟩
  · unfold Takes at ht
    split at ht
    · next now =>
      exact ⟨fun s => s.setStreams a.k a.team.crew qs, by simp [At.withOps, hc, hp, now, ht],
        by simpa [popped, hp, now] using OnlyCore.setStreams h a.team.crew qs⟩
    · next js before =>
      exact ⟨id, by simp [At.withOps, hc, hp, before, ht.1], by simpa [popped, before] using OnlyCore.refl h⟩

/-! ### The kinds of words -/

section
variable {s : State} {a : At} {d x y x' y' : Opnd} {qs : Map Stream}

/-- R81: a uniform word writes s[D], whatever the mask. -/
theorem uniWord_done {f : W64 → W64 → W64 → W64} {v : W64} {i : Instr}
    (hi : exec i s = uniWord d x y f s) (h : s.at? = some a) (hc : a.team.claimsAll [d, x, y] = true)
    (hv : f (a.u x) (a.u y) (a.u d) = v) :
    ∃ t, exec i s = .next t ∧ Done a s t a.core (a.team.setS (num d) v) :=
  hi ▸ onWord_done h (by simp only [hc, hv]; rfl) (OnlyCore.refl h) rfl

/-- R86: a lane word writes v[D] in the lanes of the run. -/
theorem laneWord_done {f : W32 → W32 → W32 → W32} (h : s.at? = some a) (hc : a.team.claimsAll [d, x, y] = true)
    (ht : Takes a [x, y] qs [x', y']) :
    ∃ t, laneWord d x y f s = .next t ∧ Done a s t (popped a [x, y] qs) (a.team.setV (num d)
      (a.lanes.map fun l => (l, f (a.v x' l) (a.v y' l) (a.team.vreg (num d) l)))) := by
  obtain ⟨commit, goes, only⟩ := withOps_takes h hc ht _
  exact onWord_done h goes only rfl

/-- R88: a lane compare writes p[D] in the lanes of the run. -/
theorem laneCmp_done {f : W32 → W32 → Bool} (h : s.at? = some a) (hc : a.team.claimsAll [x, y] = true)
    (ht : Takes a [x, y] qs [x', y']) :
    ∃ t, laneCmp d x y f s = .next t ∧ Done a s t (popped a [x, y] qs) (a.team.setP (num d)
      (a.lanes.map fun l => (l, f (a.v x' l) (a.v y' l)))) := by
  obtain ⟨commit, goes, only⟩ := withOps_takes h hc ht _
  exact onWord_done h goes only (Team.setP_splits ..)

/-- R87: `vcmov` writes v[D] in the lanes of the run that its predicate selects. -/
theorem execVcmov_done (h : s.at? = some a) (hc : a.team.claimsAll [d, y] = true) (ht : Takes a [y] qs [y']) :
    ∃ t, execVcmov d x y s = .next t ∧ Done a s t (popped a [y] qs) (a.team.setV (num d)
      ((a.lanes.filter fun l => Mask.has (a.pr x) l).map fun l => (l, a.v y' l))) := by
  obtain ⟨commit, goes, only⟩ := withOps_takes h hc ht _
  exact onWord_done h goes only rfl

/-- R88: a predicate operation writes p[D] in the lanes of the run. -/
theorem predWord_done {f : Bool → Bool → Bool} (h : s.at? = some a) :
    ∃ t, predWord d x y f s = .next t ∧ Done a s t a.core (a.team.setP (num d)
      (a.lanes.map fun l => (l, f (Mask.has (a.pr x) l) (Mask.has (a.pr y) l)))) :=
  onWord_done h rfl (OnlyCore.refl h) (Team.setP_splits ..)

/-- R91: a floating-point word writes v[D] in the lanes of the run. -/
theorem fltWord_done {pk : Option Fmt} {f : W32 → W32 → W32 → W32} (h : s.at? = some a)
    (hc : a.team.claimsAll [d, x, y] = true) :
    ∃ t, fltWord pk d x y f s = .next t ∧ Done a s t a.core (a.team.setV (num d)
      (a.lanes.map fun l => (l, f (a.f pk x l) (a.f pk y l) (a.team.vreg (num d) l)))) :=
  onWord_done h (by simp only [hc]; rfl) (OnlyCore.refl h) rfl

/-- R95: a floating-point compare writes p[D] in the lanes of the run. -/
theorem fltCmp_done {f : W32 → W32 → Bool} (h : s.at? = some a) (hc : a.team.claimsAll [x, y] = true) :
    ∃ t, fltCmp d x y f s = .next t ∧ Done a s t a.core (a.team.setP (num d)
      (a.lanes.map fun l => (l, f (a.f none x l) (a.f none y l)))) :=
  onWord_done h (by simp only [hc]; rfl) (OnlyCore.refl h) (Team.setP_splits ..)

/-- R96, R97, R73: a conversion writes v[D] in the lanes of the run and may set `fflags.inv`. -/
theorem cvtWord_done {f : W32 → W32 → W32} {inv : W32 → Bool} (h : s.at? = some a)
    (hc : a.team.claimsAll [d, x] = true) :
    ∃ t, cvtWord d x f inv s = .next t ∧ Done a s t a.core
      { a.team.setV (num d) (a.lanes.map fun l => (l, f (a.f none x l) (a.team.vreg (num d) l))) with
        inv := a.team.inv || a.lanes.any fun l => inv (a.f none x l) } :=
  onWord_done h (by simp only [hc]; rfl) (OnlyCore.refl h) rfl

end
end Sys2Proof.Machine
end

section
/-! The values of 05's integer words as the spec writes them (R82 to R90): exact integers wrapped to the register, and
fields bit by bit, for every width. -/

namespace Sys2Proof.Machine

variable {w : Nat}

/-! ### Comparisons (R82, R88) -/

theorem cmpEq_eq_decide (a b : BitVec w) : cmpEq a b = decide (a = b) := rfl
theorem cmpNe_eq_decide (a b : BitVec w) : cmpNe a b = decide (a ≠ b) :=
  (decide_not (p := a = b)).symm
theorem cmpLt_eq_decide (a b : BitVec w) : cmpLt a b = decide (a.toInt < b.toInt) := rfl
theorem cmpLe_eq_decide (a b : BitVec w) : cmpLe a b = decide (a.toInt ≤ b.toInt) := rfl
theorem cmpLtu_eq_decide (a b : BitVec w) : cmpLtu a b = decide (a.toNat < b.toNat) := rfl
theorem cmpLeu_eq_decide (a b : BitVec w) : cmpLeu a b = decide (a.toNat ≤ b.toNat) := rfl

/-- A truth value in a uniform register (R82). -/
theorem flag64_decide (p : Prop) [Decidable p] : flag64 (decide p) = if p then 1 else 0 := by
  simp [flag64]

/-! ### Minimum and maximum -/

theorem ite_cmpLt_eq_min (a b : BitVec w) : (if cmpLt b a then b else a) = BitVec.ofInt w (min a.toInt b.toInt) := by
  simp only [cmpLt_eq_decide, decide_eq_true_eq]
  split
  · next lt => rw [Int.min_eq_right (Int.le_of_lt lt), BitVec.ofInt_toInt]
  · next ge => rw [Int.min_eq_left (Int.not_lt.1 ge), BitVec.ofInt_toInt]

theorem ite_cmpLt_eq_max (a b : BitVec w) : (if cmpLt a b then b else a) = BitVec.ofInt w (max a.toInt b.toInt) := by
  simp only [cmpLt_eq_decide, decide_eq_true_eq]
  split
  · next lt => rw [Int.max_eq_right (Int.le_of_lt lt), BitVec.ofInt_toInt]
  · next ge => rw [Int.max_eq_left (Int.not_lt.1 ge), BitVec.ofInt_toInt]

theorem ite_cmpLtu_eq_min (a b : BitVec w) : (if cmpLtu b a then b else a) = BitVec.ofNat w (min a.toNat b.toNat) := by
  simp only [cmpLtu_eq_decide, decide_eq_true_eq]
  split
  · next lt => rw [Nat.min_eq_right (Nat.le_of_lt lt), BitVec.ofNat_toNat, BitVec.setWidth_eq]
  · next ge => rw [Nat.min_eq_left (Nat.not_lt.1 ge), BitVec.ofNat_toNat, BitVec.setWidth_eq]

theorem ite_cmpLtu_eq_max (a b : BitVec w) : (if cmpLtu a b then b else a) = BitVec.ofNat w (max a.toNat b.toNat) := by
  simp only [cmpLtu_eq_decide, decide_eq_true_eq]
  split
  · next lt => rw [Nat.max_eq_right (Nat.le_of_lt lt), BitVec.ofNat_toNat, BitVec.setWidth_eq]
  · next ge => rw [Nat.max_eq_left (Nat.not_lt.1 ge), BitVec.ofNat_toNat, BitVec.setWidth_eq]

/-! ### Products, shifts and immediates -/

theorem mul_eq_ofInt (a b : BitVec w) : a * b = BitVec.ofInt w (a.toInt * b.toInt) := by
  simp [BitVec.ofInt_mul]

theorem sshiftRight_eq_ofInt (a : BitVec w) (n : Nat) : a.sshiftRight n = BitVec.ofInt w (a.toInt / 2 ^ n) := by
  rw [BitVec.sshiftRight, Int.shiftRight_eq_div_pow]
  norm_cast

theorem shiftLeft_or_imm_eq (a : W64) (imm : BitVec 16) :
    a <<< 16 ||| imm.zeroExtend 64 = BitVec.ofNat 64 (a.toNat * 2 ^ 16 + imm.toNat) := by
  have concat : a.toNat * 2 ^ 16 + imm.toNat = a.toNat <<< 16 ||| imm.toNat := by
    rw [← Nat.shiftLeft_add_eq_or_of_lt imm.isLt, Nat.shiftLeft_eq]
  rw [concat, BitVec.ofNat_or]
  congr 1
  apply BitVec.eq_of_toNat_eq
  simp

theorem rotateLeft_eq_or (a : W32) {n : Nat} (h : n < 32) : a.rotateLeft n = a <<< n ||| a >>> (32 - n) := by
  rw [BitVec.rotateLeft_def, Nat.mod_eq_of_lt h]

theorem wrap_natAbs_eq (a : BitVec w) : wrap w a.toInt.natAbs = if a.toInt < 0 then -a else a := by
  split
  · next neg => rw [wrap, Int.ofNat_natAbs_of_nonpos (Int.le_of_lt neg), BitVec.ofInt_neg, BitVec.ofInt_toInt]
  · next nonneg => rw [wrap, Int.natAbs_of_nonneg (Int.not_lt.1 nonneg), BitVec.ofInt_toInt]

/-- R78's limit, for a range that is not empty. -/
theorem sat_eq_max_min {lo hi : Int} (h : lo ≤ hi) (x : Int) : sat x lo hi = max lo (min hi x) := by
  unfold sat
  split
  · omega
  · split <;> omega

/-! ### Counts of bits -/

theorem popCount_eq (x n : Nat) : popCount x n = ((List.range n).filter fun i => x.testBit i).length := by
  induction n with
  | zero => rfl
  | succ n ih =>
    rw [popCount] at ih ⊢
    rw [List.range_succ, List.foldl_append, ih, List.filter_append, List.length_append]
    by_cases bit : x.testBit n <;> simp [bit]

/-- How many of the numbers below `n` are at least `m`. -/
theorem length_filter_le_range (m n : Nat) : ((List.range n).filter fun i => decide (m ≤ i)).length = n - m := by
  induction n with
  | zero => simp
  | succ n ih =>
    rw [List.range_succ, List.filter_append, List.length_append, ih]
    by_cases le : m ≤ n
    · simp [le]; omega
    · simp [le]; omega

theorem leadingZeros_eq (x n : Nat) :
    leadingZeros x n = ((List.range n).filter fun i => decide (x < 2 ^ i)).length := by
  by_cases zero : x = 0
  · have all : ∀ i, 0 < 2 ^ i ↔ 0 ≤ i := fun i => iff_of_true (Nat.two_pow_pos i) (Nat.zero_le i)
    simp only [leadingZeros, zero, if_true, all, length_filter_le_range, Nat.sub_zero]
  · have above : ∀ i, x < 2 ^ i ↔ x.log2 + 1 ≤ i := fun i => (Nat.log2_lt zero).symm
    simp only [above, length_filter_le_range, leadingZeros, zero, if_false]
    omega

/-! ### Fields (R83) -/

theorem getLsbD_fieldGet {pos fw i : Nat} (x : BitVec w) (h : i < w) :
    (fieldGet w pos fw x).getLsbD i = (decide (i < fw) && x.getLsbD (pos + i)) := by
  simp [fieldGet, h, Nat.testBit_mod_two_pow, Nat.testBit_div_two_pow, BitVec.getLsbD, Nat.add_comm]

/-- A field read as a signed number is a word of the field's own width. -/
theorem fieldInt_eq (x : Nat) {fw : Nat} (h : 0 < fw) : fieldInt x fw = (BitVec.ofNat fw x).toInt := by
  have half : 2 ^ fw = 2 * 2 ^ (fw - 1) := by rw [← Nat.pow_succ']; congr; omega
  rw [BitVec.toInt_eq_toNat_cond, BitVec.toNat_ofNat]
  by_cases low : x % 2 ^ fw < 2 ^ (fw - 1)
  · rw [fieldInt, if_pos low, if_pos (by omega)]
  · rw [fieldInt, if_neg low, if_neg (by omega)]
    norm_cast

theorem getLsbD_fieldGetS {pos fw i : Nat} (x : BitVec w) (h : i < w) (hf : 0 < fw) :
    (fieldGetS w pos fw x).getLsbD i = x.getLsbD (pos + min i (fw - 1)) := by
  have signed : fieldGetS w pos fw x = (BitVec.ofNat fw (x.toNat / 2 ^ pos)).signExtend w := by
    simp [fieldGetS, Nat.ne_of_gt hf, fieldInt_eq _ hf, wrap, BitVec.signExtend]
  rw [signed, BitVec.getLsbD_signExtend]
  by_cases low : i < fw
  · rw [Nat.min_eq_left (by omega)]
    simp [h, low, Nat.testBit_div_two_pow, BitVec.getLsbD, Nat.add_comm]
  · have top : fw - 1 < fw := by omega
    rw [Nat.min_eq_right (by omega)]
    simp [h, low, top, BitVec.msb_eq_getLsbD_last, Nat.testBit_div_two_pow, BitVec.getLsbD, Nat.add_comm]

/-- The mask of a field. -/
theorem getLsbD_fieldMask {pos fw i : Nat} (h : i < w) :
    (BitVec.ofNat w ((2 ^ fw - 1) * 2 ^ pos)).getLsbD i = decide (pos ≤ i ∧ i < pos + fw) := by
  rw [BitVec.getLsbD_ofNat, Nat.testBit_mul_two_pow, Nat.testBit_two_pow_sub_one]
  by_cases low : pos ≤ i
  · simp [h, low, Nat.sub_lt_iff_lt_add' low]
  · simp [low]

theorem getLsbD_fieldPut {pos fw i : Nat} (x y : BitVec w) (h : i < w) :
    (fieldPut w pos fw x y).getLsbD i = if pos ≤ i ∧ i < pos + fw then y.getLsbD (i - pos) else x.getLsbD i := by
  rw [fieldPut, BitVec.getLsbD_or, BitVec.getLsbD_and, BitVec.getLsbD_and, BitVec.getLsbD_not, getLsbD_fieldMask h]
  by_cases inside : pos ≤ i ∧ i < pos + fw
  · simp [h, inside, Nat.testBit_mul_two_pow, BitVec.getLsbD]
  · simp [h, inside]

/-! ### The bytes of `vprm` (R90) -/

theorem permuteByte_lt (a b z : W32) (i : Nat) : permuteByte a b z i < 256 := by
  unfold permuteByte
  dsimp only
  split
  · exact Nat.mod_lt _ (by decide)
  · split <;> decide

theorem foldl_add_range_four (g : Nat → Nat) :
    (List.range 4).foldl (fun r i => r + g i) 0 = g 0 + g 1 + g 2 + g 3 := by
  simp [List.range_succ]

theorem permute_eq (a b z : W32) : permute a b z = BitVec.ofNat 32 (permuteByte a b z 0 * 2 ^ (8 * 0) +
    permuteByte a b z 1 * 2 ^ (8 * 1) + permuteByte a b z 2 * 2 ^ (8 * 2) + permuteByte a b z 3 * 2 ^ (8 * 3)) :=
  congrArg (BitVec.ofNat 32) (foldl_add_range_four fun i => permuteByte a b z i * 2 ^ (8 * i))

/-- A byte of a word of four bytes. -/
theorem byte_of_word {p : Nat → Nat} (hp : ∀ i, p i < 256) {i : Nat} (h : i < 4) :
    (p 0 * 2 ^ (8 * 0) + p 1 * 2 ^ (8 * 1) + p 2 * 2 ^ (8 * 2) + p 3 * 2 ^ (8 * 3)) % 2 ^ 32 / 2 ^ (8 * i) % 2 ^ 8 =
      p i := by
  have h0 := hp 0
  have h1 := hp 1
  have h2 := hp 2
  have h3 := hp 3
  obtain rfl | rfl | rfl | rfl : i = 0 ∨ i = 1 ∨ i = 2 ∨ i = 3 := by omega
  all_goals omega

theorem extractLsb'_permute (a b z : W32) {i : Nat} (h : i < 4) :
    (permute a b z).extractLsb' (8 * i) 8 = BitVec.ofNat 8 (permuteByte a b z i) := by
  rw [permute_eq]
  have bytes := permuteByte_lt a b z
  generalize permuteByte a b z = p at bytes ⊢
  apply BitVec.eq_of_toNat_eq
  rw [BitVec.extractLsb'_toNat, BitVec.toNat_ofNat, BitVec.toNat_ofNat, Nat.shiftRight_eq_div_pow,
    byte_of_word bytes h, Nat.mod_eq_of_lt (bytes i)]

/-- The byte of b:a that a selector names, as the spec cuts it out. -/
theorem toNat_byte_of_pair (a b : W32) (n : Nat) :
    ((b ++ a).extractLsb' n 8).toNat = (b.toNat * 2 ^ 32 + a.toNat) / 2 ^ n % 256 := by
  rw [BitVec.extractLsb'_toNat, BitVec.toNat_append, ← Nat.shiftLeft_add_eq_or_of_lt a.isLt, Nat.shiftLeft_eq,
    Nat.shiftRight_eq_div_pow]

theorem permuteByte_eq (a b z : W32) (i : Nat) :
    BitVec.ofNat 8 (permuteByte a b z i) =
      (let c := (z.extractLsb' (8 * i) 4).toNat
       let x := (b ++ a).extractLsb' (8 * (c % 8)) 8
       if c < 8 then x else if x.msb then 255 else 0) := by
  have selector : (z.extractLsb' (8 * i) 4).toNat = z.toNat / 2 ^ (8 * i) % 16 := by
    rw [BitVec.extractLsb'_toNat, Nat.shiftRight_eq_div_pow]
  dsimp only
  rw [permuteByte, selector, BitVec.msb_eq_decide, toNat_byte_of_pair]
  split
  · rw [← toNat_byte_of_pair, BitVec.ofNat_toNat, BitVec.setWidth_eq]
  · simp only [decide_eq_true_eq]
    split <;> rfl

end Sys2Proof.Machine
end

section
/-! What a write of lane registers or of predicate bits does to each lane (R86, R88, R11). -/

namespace Sys2Proof.Machine

/-- Registers not written keep their value. -/
theorem Regs.get_setMany_ne {w k : Nat} {xs : List (Nat × BitVec w)} (h : ∀ x ∈ xs, k ≠ x.1) (r : Regs w) :
    Regs.get (Regs.setMany r xs) k = Regs.get r k := by
  induction xs generalizing r with
  | nil => rfl
  | cons x xs ih =>
    obtain ⟨hx, hxs⟩ := List.forall_mem_cons.1 h
    exact (ih hxs _).trans (Regs.get_set_ne r x.2 hx)

/-- Registers written from a list of indices: the indices listed get their values. -/
theorem Regs.get_setMany_map {w : Nat} {key : Nat → Nat} (hkey : key.Injective) (g : Nat → BitVec w) (ls : List Nat)
    (l : Nat) (r : Regs w) :
    Regs.get (Regs.setMany r (ls.map fun j => (key j, g j))) (key l) = if l ∈ ls then g l else Regs.get r (key l) := by
  induction ls generalizing r with
  | nil => rfl
  | cons j ls ih =>
    refine (ih (Regs.set r (key j) (g j))).trans ?_
    by_cases hl : l = j
    · subst hl
      simp [Regs.get_set_same]
    · simp [hl, Regs.get_set_ne r (g j) (hkey.ne hl)]

theorem vreg_setV (tm : Team) {r' l : Nat} (r : Nat) {ls : List Nat} (g : Nat → W32) (hls : ∀ j ∈ ls, j < 1024)
    (hl : l < 1024) :
    (tm.setV r (ls.map fun j => (j, g j))).vreg r' l = if r' = r ∧ l ∈ ls then g l else tm.vreg r' l := by
  have written : (ls.map fun j => (j, g j)).map (fun x => (1024 * r + x.1, x.2)) =
      ls.map fun j => (1024 * r + j, g j) := List.map_map
  rw [Team.vreg, Team.setV, written]
  by_cases same : r' = r
  · subst same
    simp only [true_and]
    exact Regs.get_setMany_map (fun _ _ => Nat.add_left_cancel) g ls l tm.v
  · simp only [same, false_and, if_false]
    refine Regs.get_setMany_ne (fun x hx => ?_) tm.v
    obtain ⟨j, hj, rfl⟩ := List.mem_map.1 hx
    have := hls j hj
    dsimp only
    omega

/-- One bit of a predicate written. -/
def Mask.put (m : Mask) (x : Nat × Bool) : Mask :=
  if x.2 then m ||| BitVec.ofNat 1024 (2 ^ x.1) else m &&& ~~~(BitVec.ofNat 1024 (2 ^ x.1))

theorem Mask.has_put (m : Mask) (x : Nat × Bool) {l : Nat} (hl : l < 1024) :
    Mask.has (Mask.put m x) l = if l = x.1 then x.2 else Mask.has m l := by
  have bit : (BitVec.ofNat 1024 (2 ^ x.1)).getLsbD l = decide (l = x.1) := by
    rw [BitVec.getLsbD_ofNat, Nat.testBit_two_pow]
    simp [hl, eq_comm]
  unfold Mask.put Mask.has
  split
  · next one =>
    rw [BitVec.getLsbD_or, bit]
    by_cases same : l = x.1 <;> simp [same, one]
  · next zero =>
    rw [BitVec.getLsbD_and, BitVec.getLsbD_not, bit]
    by_cases same : l = x.1 <;> simp [same, zero, hl]

theorem Mask.has_foldl_put (g : Nat → Bool) (ls : List Nat) {l : Nat} (hl : l < 1024) (m : Mask) :
    Mask.has ((ls.map fun j => (j, g j)).foldl Mask.put m) l = if l ∈ ls then g l else Mask.has m l := by
  induction ls generalizing m with
  | nil => rfl
  | cons j ls ih =>
    rw [List.map_cons, List.foldl_cons, ih, Mask.has_put m _ hl]
    by_cases same : l = j <;> simp [same]

theorem preg_setP_zero (tm : Team) (r : Nat) (xs : List (Nat × Bool)) : (tm.setP r xs).preg 0 = maskAll tm.lanes := by
  rw [Team.preg, if_pos rfl, Team.setP_lanes]

theorem setP_of_ne {r : Nat} (hr : r ≠ 0) (tm : Team) (xs : List (Nat × Bool)) :
    tm.setP r xs = { tm with p := Regs.set tm.p r (xs.foldl Mask.put (Regs.get tm.p r)) } := if_neg hr

theorem has_preg_setP (tm : Team) (r r' : Nat) {l : Nat} (ls : List Nat) (g : Nat → Bool) (hl : l < 1024) :
    Mask.has ((tm.setP r (ls.map fun j => (j, g j))).preg r') l =
      if r' = r ∧ r ≠ 0 ∧ l ∈ ls then g l else Mask.has (tm.preg r') l := by
  by_cases hr : r = 0
  · simp [Team.setP, hr]
  · rw [setP_of_ne hr]
    by_cases same : r' = r
    · subst same
      simp [Team.preg, hr, Regs.get_set_same, Mask.has_foldl_put g ls hl]
    · simp [Team.preg, same, Regs.get_set_ne]

end Sys2Proof.Machine
end

section
/-! The uniform words (R81 to R85), instruction by instruction. -/

namespace Sys2Proof.Machine

open Sys2Proof.Claims

/-- R85: `slane` writes s[D] from the lane that it names. -/
theorem execSlane_done {s : State} {a : At} {d x y : Opnd} (h : s.at? = some a)
    (hc : a.team.claimsAll [d, x, y] = true) :
    ∃ t, execSlane d x y s = .next t ∧ Done a s t a.core (a.team.setS (num d)
      (if (a.u y).toNat < a.team.lanes then (a.team.vreg (num x) (a.u y).toNat).zeroExtend 64 else 0)) :=
  onWord_done h (by simp only [hc]; rfl) (OnlyCore.refl h) rfl

/-- Each uniform instruction writes its result, whatever the mask (R81). -/
theorem uniform_done {s : State} {a : At} {i : Instr} {d : Opnd} {os : List Opnd} {v : W64} (h : s.at? = some a)
    (hi : uniResult a i = some (d, os, v)) (hc : a.team.claimsAll os = true) :
    ∃ t, exec i s = .next t ∧ Done a s t a.core (a.team.setS (num d) v) := by
  cases i with
  | sadd => cases hi; exact uniWord_done (exec_sadd ..) h hc rfl
  | ssub => cases hi; exact uniWord_done (exec_ssub ..) h hc rfl
  | smul => cases hi; exact uniWord_done (exec_smul ..) h hc (mul_eq_ofInt ..)
  | smulh => cases hi; exact uniWord_done (exec_smulh ..) h hc rfl
  | smulhu => cases hi; exact uniWord_done (exec_smulhu ..) h hc rfl
  | sand => cases hi; exact uniWord_done (exec_sand ..) h hc rfl
  | sor => cases hi; exact uniWord_done (exec_sor ..) h hc rfl
  | sxor => cases hi; exact uniWord_done (exec_sxor ..) h hc rfl
  | sandn => cases hi; exact uniWord_done (exec_sandn ..) h hc rfl
  | sshl => cases hi; exact uniWord_done (exec_sshl ..) h hc rfl
  | sshr => cases hi; exact uniWord_done (exec_sshr ..) h hc rfl
  | ssar => cases hi; exact uniWord_done (exec_ssar ..) h hc (sshiftRight_eq_ofInt ..)
  | smin => cases hi; exact uniWord_done (exec_smin ..) h hc (ite_cmpLt_eq_min ..)
  | smax => cases hi; exact uniWord_done (exec_smax ..) h hc (ite_cmpLt_eq_max ..)
  | sminu => cases hi; exact uniWord_done (exec_sminu ..) h hc (ite_cmpLtu_eq_min ..)
  | smaxu => cases hi; exact uniWord_done (exec_smaxu ..) h hc (ite_cmpLtu_eq_max ..)
  | seq => cases hi; exact uniWord_done (exec_seq ..) h hc (by rw [cmpEq_eq_decide, flag64_decide])
  | sne => cases hi; exact uniWord_done (exec_sne ..) h hc (by rw [cmpNe_eq_decide, flag64_decide, ite_not])
  | slt => cases hi; exact uniWord_done (exec_slt ..) h hc (by rw [cmpLt_eq_decide, flag64_decide])
  | sle => cases hi; exact uniWord_done (exec_sle ..) h hc (by rw [cmpLe_eq_decide, flag64_decide])
  | sltu => cases hi; exact uniWord_done (exec_sltu ..) h hc (by rw [cmpLtu_eq_decide, flag64_decide])
  | sleu => cases hi; exact uniWord_done (exec_sleu ..) h hc (by rw [cmpLeu_eq_decide, flag64_decide])
  | scsel => cases hi; exact uniWord_done (exec_scsel ..) h hc (by simp only [bne_iff_ne, ite_not])
  | smov => cases hi; exact uniWord_done (exec_smov ..) h hc rfl
  | smovi => cases hi; exact uniWord_done (exec_smovi ..) h hc rfl
  | sorhi => cases hi; exact uniWord_done (exec_sorhi ..) h hc (shiftLeft_or_imm_eq ..)
  | saddi => cases hi; exact uniWord_done (exec_saddi ..) h hc rfl
  | spopc => cases hi; exact uniWord_done (exec_spopc ..) h hc (congrArg _ (popCount_eq ..))
  | sclz => cases hi; exact uniWord_done (exec_sclz ..) h hc (congrArg _ (leadingZeros_eq ..))
  | sbfe => cases hi; exact uniWord_done (exec_sbfe ..) h hc rfl
  | sbfi => cases hi; exact uniWord_done (exec_sbfi ..) h hc rfl
  | slane => cases hi; exact execSlane_done h hc
  | _ => cases hi

/-- Settles O1: every uniform instruction is one uniform word, and fields are read and written bit by bit. -/
theorem uniformResults : Obligations.UniformResults := by
  refine ⟨fun s a i d os v h hi hc _ => uniform_done h hi hc, fun w pos fw i x hi => getLsbD_fieldGet x hi,
    fun w pos fw i x hi hf => getLsbD_fieldGetS x hi hf, fun w pos fw i x y hi => getLsbD_fieldPut x y hi,
    fun a b z i hi => ?_⟩
  rw [extractLsb'_permute a b z hi, permuteByte_eq]

end Sys2Proof.Machine
end

section
/-! The lane words, compares and predicate operations (R86 to R90), instruction by instruction. -/

namespace Sys2Proof.Machine

open Sys2Proof.Claims

section
variable {s : State} {a : At} {i : Instr} {d x y x' y' : Opnd} {qs : Map Stream}

/-- Two lane functions with the same values make the same word. -/
theorem laneWord_congr {f g : W32 → W32 → W32 → W32} (hfg : ∀ u v w, f u v w = g u v w) :
    laneWord d x y f s = laneWord d x y g s := by
  rw [show f = g from funext fun u => funext fun v => funext (hfg u v)]

/-- Each lane instruction is the lane word of its function (R87, R89, R90). -/
theorem exec_eq_laneWord {f : W32 → W32 → W32 → W32} (hi : laneFun i = some (d, x, y, f)) :
    exec i s = laneWord d x y f s := by
  cases i with
  | vadd | vsub | vmulh | vmulhu | vmad | vand | vor | vxor | vandn | vnot | vshl | vshr |
    vbfe | vbfes | vbfi | vmov | vmovi | vorhi | vaddi | vrsh | vprm =>
    cases hi; rfl
  | vmul => cases hi; exact (exec_vmul ..).trans (laneWord_congr fun _ _ _ => mul_eq_ofInt ..)
  | vmin => cases hi; exact (exec_vmin ..).trans (laneWord_congr fun _ _ _ => ite_cmpLt_eq_min ..)
  | vmax => cases hi; exact (exec_vmax ..).trans (laneWord_congr fun _ _ _ => ite_cmpLt_eq_max ..)
  | vminu => cases hi; exact (exec_vminu ..).trans (laneWord_congr fun _ _ _ => ite_cmpLtu_eq_min ..)
  | vmaxu => cases hi; exact (exec_vmaxu ..).trans (laneWord_congr fun _ _ _ => ite_cmpLtu_eq_max ..)
  | vabs => cases hi; exact (exec_vabs ..).trans (laneWord_congr fun _ _ _ => wrap_natAbs_eq ..)
  | vneg => cases hi; exact (exec_vneg ..).trans (laneWord_congr fun _ _ _ => (BitVec.zero_sub _).symm)
  | vsar => cases hi; exact (exec_vsar ..).trans (laneWord_congr fun _ _ _ => sshiftRight_eq_ofInt ..)
  | vrot =>
    cases hi
    exact (exec_vrot ..).trans (laneWord_congr fun _ _ _ => rotateLeft_eq_or _ (Nat.mod_lt _ (by decide)))
  | vpopc =>
    cases hi
    exact (exec_vpopc ..).trans (laneWord_congr fun _ _ _ => congrArg _ (popCount_eq ..))
  | vclz =>
    cases hi
    exact (exec_vclz ..).trans (laneWord_congr fun _ _ _ => congrArg _ (leadingZeros_eq ..))
  | vmulq =>
    cases hi
    exact (exec_vmulq ..).trans (laneWord_congr fun _ _ _ => congrArg _ (sat_eq_max_min (by decide) _))
  | vsatI8 =>
    cases hi
    exact (exec_vsatI8 ..).trans (laneWord_congr fun _ _ _ => congrArg _ (sat_eq_max_min (by decide) _))
  | vsatUb =>
    cases hi
    exact (exec_vsatUb ..).trans (laneWord_congr fun _ _ _ => congrArg _ (sat_eq_max_min (by decide) _))
  | vsatI16 =>
    cases hi
    exact (exec_vsatI16 ..).trans (laneWord_congr fun _ _ _ => congrArg _ (sat_eq_max_min (by decide) _))
  | _ => cases hi

/-- Each lane compare is the compare of its relation (R88). -/
theorem exec_eq_laneCmp {f : W32 → W32 → Bool} (hi : compareFun i = some (d, x, y, f)) :
    exec i s = laneCmp d x y f s := by
  have same : ∀ {f g : W32 → W32 → Bool}, (∀ u v, f u v = g u v) → laneCmp d x y f s = laneCmp d x y g s :=
    fun hfg => by rw [funext fun u => funext (hfg u)]
  cases i with
  | vcmpEq => cases hi; exact (exec_vcmpEq ..).trans (same cmpEq_eq_decide)
  | vcmpNe => cases hi; exact (exec_vcmpNe ..).trans (same cmpNe_eq_decide)
  | vcmpLt => cases hi; exact (exec_vcmpLt ..).trans (same cmpLt_eq_decide)
  | vcmpLe => cases hi; exact (exec_vcmpLe ..).trans (same cmpLe_eq_decide)
  | vcmpLtu => cases hi; exact (exec_vcmpLtu ..).trans (same cmpLtu_eq_decide)
  | vcmpLeu => cases hi; exact (exec_vcmpLeu ..).trans (same cmpLeu_eq_decide)
  | _ => cases hi

/-- Each predicate operation is the predicate word of its function (R88). -/
theorem exec_eq_predWord {f : Bool → Bool → Bool} (hi : predicateFun i = some (d, x, y, f)) :
    exec i s = predWord d x y f s := by
  cases i with
  | pand | por | pxor | pnot => cases hi; rfl
  | _ => cases hi

end

/-- Settles O2: lane words, compares and predicate operations by instruction, the writes lane by lane. -/
theorem laneResults : Obligations.LaneResults := by
  refine ⟨fun _ _ _ _ _ _ _ _ _ _ h hi hc ht => exec_eq_laneWord hi ▸ laneWord_done h hc ht,
    ⟨fun _ _ _ _ _ _ _ _ _ _ h hi hc ht => exec_eq_laneCmp hi ▸ laneCmp_done h hc ht,
      fun _ _ _ _ _ _ _ h hc ht => execVcmov_done h hc ht⟩,
    fun s a i d x y f h hi => ?_,
    fun tm r _ _ _ g hls hl => vreg_setV tm r g hls hl, fun tm r r' _ ls g _ hl => has_preg_setP tm r r' ls g hl,
    preg_setP_zero⟩
  obtain ⟨t, ht, hdone⟩ := predWord_done (d := d) (x := x) (y := y) (f := f) h
  refine ⟨t, exec_eq_predWord hi ▸ ht, ?_⟩
  split
  · next zero => rwa [Team.setP, if_pos zero] at hdone
  · exact hdone

end Sys2Proof.Machine

end

section
/-! The floating-point words, compares and conversions (R91 to R100), instruction by instruction; `fmin` and `fmax`
(R93) by what they return. -/

namespace Sys2Proof.Machine

open Sys2Proof.Claims

section
variable {s : State} {i : Instr} {d x y : Opnd}

/-- `fmin` as R93 asks, with its test turned round: the first operand unless the second one's key is smaller. -/
theorem fmin32_eq (a b : W32) : fmin32 a b =
    if isNan32 a then (if isNan32 b then 0x7FC00000 else b) else if isNan32 b then a
    else if orderKey a ≤ orderKey b then a else b := by
  simp only [← Int.not_lt, ite_not]
  rfl

theorem fmax32_eq (a b : W32) : fmax32 a b =
    if isNan32 a then (if isNan32 b then 0x7FC00000 else b) else if isNan32 b then a
    else if orderKey b ≤ orderKey a then a else b := by
  simp only [← Int.not_lt, ite_not]
  rfl

/-- Two functions with the same values make the same floating-point word. -/
theorem fltWord_congr {pk : Option Fmt} {f g : W32 → W32 → W32 → W32} (hfg : ∀ u v w, f u v w = g u v w) :
    fltWord pk d x y f s = fltWord pk d x y g s := by
  rw [show f = g from funext fun u => funext fun v => funext (hfg u v)]

/-- Each floating-point instruction is the floating-point word of its function (R92 to R94, R98 to R100). -/
theorem exec_eq_fltWord {pk : Option Fmt} {f : W32 → W32 → W32 → W32} (hi : floatFun i = some (pk, d, x, y, f)) :
    exec i s = fltWord pk d x y f s := by
  cases i with
  | fadd | fsub | fmul | ffma | fabs | fneg | frcp | frsq | fsqrt | fexp2 | flog2 | frnd | fscale | hadd2 | hmul2 |
    hfma2 | badd2 | bmul2 | bfma2 | dot2F16 | dot2Bf16 | dot4E4m3n | dot4E5m2n | dot8E2m1n | dot4Mx8 | dot4I8 |
    dot8I4 =>
    cases hi; rfl
  | fmin => cases hi; exact (exec_fmin ..).trans (fltWord_congr fun _ _ _ => fmin32_eq ..)
  | fmax => cases hi; exact (exec_fmax ..).trans (fltWord_congr fun _ _ _ => fmax32_eq ..)
  | _ => cases hi

/-- Each floating-point compare is the compare of its relation (R95). -/
theorem exec_eq_fltCmp {f : W32 → W32 → Bool} (hi : floatCompareFun i = some (d, x, y, f)) :
    exec i s = fltCmp d x y f s := by
  cases i with
  | fcmpEq | fcmpLt | fcmpLe | fcmpUn => cases hi; rfl
  | _ => cases hi

/-- A conversion to e2m1n is that of format code 4 (R96), and it is invalid for a NaN (R72). -/
theorem setsInv_eq (mode : BitVec 8) (v : FVal) :
    setsInv (mode.toNat % 8) v = decide (mode.extractLsb' 0 3 = 4 ∧ v = .nan) := by
  have format : mode.extractLsb' 0 3 = 4 ↔ mode.toNat % 8 = 4 := by
    rw [← BitVec.toNat_inj, BitVec.extractLsb'_toNat]
    simp
  rw [Bool.decide_and, decide_eq_decide.2 format]
  rfl

/-- The same for `fcvt`, where the mode must also say that it converts to an element (R96). -/
theorem fcvt_setsInv_eq (mode : BitVec 8) (v : FVal) :
    (mode.toNat / 8 % 4 == 0 && setsInv (mode.toNat % 8) v) =
      decide (mode.extractLsb' 3 2 = 0 ∧ mode.extractLsb' 0 3 = 4 ∧ v = .nan) := by
  have kind : mode.extractLsb' 3 2 = 0 ↔ mode.toNat / 8 % 4 = 0 := by
    rw [← BitVec.toNat_inj, BitVec.extractLsb'_toNat, Nat.shiftRight_eq_div_pow]
    simp
  rw [Bool.decide_and, decide_eq_decide.2 kind, setsInv_eq]
  rfl

/-- Each conversion is the conversion word of its value and its invalid flag (R96, R97). -/
theorem exec_eq_cvtWord {f : W32 → W32 → W32} {inv : W32 → Bool} (hi : convertFun i = some (d, x, f, inv)) :
    exec i s = cvtWord d x f inv s := by
  cases i with
  | fcvt => cases hi; simp only [exec_fcvt, execFcvt, fcvt_setsInv_eq]
  | fpack => cases hi; simp only [exec_fpack, execFpack, setsInv_eq]
  | funpack => cases hi; rfl
  | _ => cases hi

end

/-- Settles O3: each floating-point word, compare and conversion is a word of its kind. -/
theorem floatResults : Obligations.FloatResults :=
  ⟨fun _ _ _ _ _ _ _ _ h hi hc => exec_eq_fltWord hi ▸ fltWord_done h hc,
    fun _ _ _ _ _ _ _ h hi hc => exec_eq_fltCmp hi ▸ fltCmp_done h hc,
    fun _ _ _ _ _ _ _ h hi hc => exec_eq_cvtWord hi ▸ cvtWord_done h hc⟩

/-! ### `fmin` and `fmax` (R93) -/

/-- A NaN has all exponent bits set and a fraction that is not zero (R63). -/
theorem isNan32_iff (u : W32) : isNan32 u = true ↔ u.extractLsb' 23 8 = 0xFF ∧ u.extractLsb' 0 23 ≠ 0 := by
  have top : u.extractLsb' 23 8 = 0xFF ↔ u.toNat / 2 ^ 23 % 2 ^ 8 = 255 := by
    rw [← BitVec.toNat_inj, BitVec.extractLsb'_toNat, Nat.shiftRight_eq_div_pow]
    rfl
  have fraction : u.extractLsb' 0 23 = 0 ↔ u.toNat % 2 ^ 23 = 0 := by
    rw [← BitVec.toNat_inj, BitVec.extractLsb'_toNat, Nat.shiftRight_zero]
    rfl
  have above : isNan32 u = true ↔ 255 * 2 ^ 23 < u.toNat % 2 ^ 31 := decide_eq_true_iff
  rw [top, ne_eq, fraction, above]
  omega

/-- The key of R93's order: a negative code counts down from −1, so that −0 is below +0. -/
theorem orderKey_eq (u : W32) : orderKey u =
    if u.msb then -1 - ((u.extractLsb' 0 31).toNat : Int) else ((u.extractLsb' 0 31).toNat : Int) := by
  have low : (u.extractLsb' 0 31).toNat = u.toNat % 2 ^ 31 := by
    rw [BitVec.extractLsb'_toNat, Nat.shiftRight_zero]
  have small := u.isLt
  rw [orderKey, low, BitVec.msb_eq_decide]
  split
  · next negative =>
    have := of_decide_eq_true negative
    omega
  · next positive =>
    have : ¬ _ := mt decide_eq_true positive
    omega

section
variable {u v : W32}

theorem fmin32_nan_nan (hu : isNan32 u) (hv : isNan32 v) : fmin32 u v = 0x7FC00000 := by simp [fmin32, hu, hv]
theorem fmax32_nan_nan (hu : isNan32 u) (hv : isNan32 v) : fmax32 u v = 0x7FC00000 := by simp [fmax32, hu, hv]
theorem fmin32_nan_left (hu : isNan32 u) (hv : ¬ isNan32 v) : fmin32 u v = v := by simp [fmin32, hu, hv]
theorem fmax32_nan_left (hu : isNan32 u) (hv : ¬ isNan32 v) : fmax32 u v = v := by simp [fmax32, hu, hv]
theorem fmin32_nan_right (hu : ¬ isNan32 u) (hv : isNan32 v) : fmin32 u v = u := by simp [fmin32, hu, hv]
theorem fmax32_nan_right (hu : ¬ isNan32 u) (hv : isNan32 v) : fmax32 u v = u := by simp [fmax32, hu, hv]

/-- Of two numbers `fmin` returns one, the one with the smaller key. -/
theorem fmin32_numbers (hu : ¬ isNan32 u) (hv : ¬ isNan32 v) :
    (fmin32 u v = u ∨ fmin32 u v = v) ∧ orderKey (fmin32 u v) = min (orderKey u) (orderKey v) := by
  rw [fmin32, if_neg hu, if_neg hv]
  split
  · next lt => exact ⟨.inr rfl, (Int.min_eq_right (Int.le_of_lt lt)).symm⟩
  · next ge => exact ⟨.inl rfl, (Int.min_eq_left (Int.not_lt.1 ge)).symm⟩

/-- Of two numbers `fmax` returns one, the one with the larger key. -/
theorem fmax32_numbers (hu : ¬ isNan32 u) (hv : ¬ isNan32 v) :
    (fmax32 u v = u ∨ fmax32 u v = v) ∧ orderKey (fmax32 u v) = max (orderKey u) (orderKey v) := by
  rw [fmax32, if_neg hu, if_neg hv]
  split
  · next lt => exact ⟨.inr rfl, (Int.max_eq_right (Int.le_of_lt lt)).symm⟩
  · next ge => exact ⟨.inl rfl, (Int.max_eq_left (Int.not_lt.1 ge)).symm⟩

end

/-- Settles O5: `fmin` and `fmax` are floating-point words of `fmin32` and `fmax32`. -/
theorem floatMinMax : Obligations.FloatMinMax := by
  intro s a d x y nan key h hc hnan hkey
  have isNan : ∀ u, nan u ↔ isNan32 u = true := fun u => (hnan u).trans (isNan32_iff u).symm
  obtain rfl : key = orderKey := funext fun u => (hkey u).trans (orderKey_eq u).symm
  obtain ⟨t1, ht1, hdone1⟩ := fltWord_done (pk := none) (f := fun u v _ => fmin32 u v) h hc
  obtain ⟨t2, ht2, hdone2⟩ := fltWord_done (pk := none) (f := fun u v _ => fmax32 u v) h hc
  refine ⟨t1, t2, fmin32, fmax32, ht1, ht2, hdone1, hdone2, fun u v => ?_⟩
  simp only [isNan]
  refine ⟨fun hu hv => ⟨fmin32_nan_nan hu hv, fmax32_nan_nan hu hv⟩,
    fun hu hv => ⟨fmin32_nan_left hu hv, fmax32_nan_left hu hv⟩,
    fun hu hv => ⟨fmin32_nan_right hu hv, fmax32_nan_right hu hv⟩, fun hu hv => ?_⟩
  obtain ⟨min1, min2⟩ := fmin32_numbers hu hv
  obtain ⟨max1, max2⟩ := fmax32_numbers hu hv
  exact ⟨min1, min2, max1, max2⟩

end Sys2Proof.Machine
end
